-- ==== Sys2Proof/Word.lean ====
section
/-! DEFINITION. The machine's word and register-number types (spec/00_scope.md R4, spec/01_notation.md R12). -/

namespace Sys2Proof

/-- A 64-bit scalar, address or instruction word. -/
abbrev Word := BitVec 64
/-- One byte of memory. -/
abbrev Byte := BitVec 8
/-- A vector register: 64 lanes of 32 bits, lane `i` at bits `32i + 31 : 32i` (R121). -/
abbrev VWord := BitVec 2048
/-- The data of one tile register: 32 rows of 64 bytes, byte 0 lowest (R39). -/
abbrev TileData := BitVec 16384
/-- The side-band of one tile register: 128 bytes, byte 0 lowest (R45). -/
abbrev SideBand := BitVec 1024
/-- The data of one accumulator: 4 KiB, byte 0 lowest (R153). -/
abbrev AccData := BitVec 32768

/-- Scalar register number, s0 to s31. -/
abbrev SReg := Fin 32
/-- Vector register number, v0 to v15. -/
abbrev VReg := Fin 16
/-- Predicate number, p0 to p7. -/
abbrev PReg := Fin 8
/-- Lane-mask number, k0 to k7. -/
abbrev KReg := Fin 8
/-- Handle number, h0 to h31. -/
abbrev HReg := Fin 32

end Sys2Proof
end

