-- ==== Sys2Proof/Config.lean ====
section
/-! DEFINITION. What the spec leaves to the implementation or leaves open: constants without a body, so that no proof
can use a value of theirs (notes/assumptions/6.md, 9.md, 13.md, 31.md). -/

namespace Sys2Proof.Config

/-- A free byte, for the destination bytes that R350 STATUS 4 calls undefined; its argument is `State.free`. -/
opaque freeByte : Nat → Byte

/-- Whether an Ed25519 signature (64 bytes) over a message verifies under a public key (R338, R354). The algorithm is
named by the spec and not defined by it. -/
opaque sigVerifies (key message signature : List Byte) : Bool

/-- The package's own signature over a capability block, under the attestation key of package ROM (R329, R330). -/
opaque attestation (message : List Byte) : Vector Byte 64

/-- The device virtual address at which the partition controller places a partition's capability block (R329). -/
opaque capBlockAddr (partition : Nat) : Word

/-- The 30-bit significand and exponent of a transcendental's intermediate where the model's interval computation
does not separate the two neighbours (R126 defines the value; see notes/assumptions/13.md). -/
opaque transcendentalTie (op : Nat) (bits : Nat) : Nat × Int

/-- The answer to a PLDM sensor read (R361), whose encoding the spec does not give: its arguments are the request and what the
sensors hold, each island's power, frequency step and temperature, the coolant plates' temperatures, DSTAT, and the
corrected errors that Weld reports for each cluster. -/
opaque pldmAnswer (request : Nat) (islands : List (Nat × Nat × Nat)) (coolant : List Nat) (dstat : Nat)
  (corrected : List (Nat × Nat)) : Nat

/-- The answer to an SPDM attestation request under the attestation key (R361), whose encoding the spec does not give. -/
opaque spdmAnswer (request : Nat) : Nat

/-- Which host window, and which word of it (0 base, 1 limit, 2 lock), a BAR0 offset of PF0 names: R326 gives windows no
offset. -/
opaque windowAt (off : Nat) : Option (Nat × Fin 16 × Nat)

/-- The errata records that firmware supplies to a capability block, as id and flags word (R330). -/
opaque errata : List (BitVec 32 × BitVec 32)

/-- The error of an audit point whose outputs have no translation, as FP64 bits (R267 states none); its argument is the
hand-out index. -/
opaque auditError : Nat → Nat

/-- Whether the export table of another package passes an access (R347): the package, this package's id, the partition, the
address in its DRAM, and whether it writes. -/
opaque exported (pkg src part off : Nat) (write : Bool) : Bool

/-- A member's command and its input, as a collective flit carries it (R344 gives no layout of the payload): OP, TYPE, TAG,
GROUP, COUNT, TICK, rank, NMEM and the partition, and the bytes at SRC. -/
opaque collectiveFlit (payload : List Byte) : Option (Vector Nat 9 × List Byte)

/-- The payload of a flit that this package sends, from its KIND and what it carries (R344 gives no layout of the payload). -/
opaque flitPayload (kind : Nat) (fields : List Nat) : List Byte

/-- The frame from which Madder begins its search for one that a page of a slot image may take (R321); its argument is
`State.free`. -/
opaque frameAt : Nat → Nat

/-- What package ROM holds (R2): the key that checks Madder's image, the image with its signature, and the public half of the
attestation key (R330, R354). -/
opaque romKey : List Byte
opaque romImage : List Byte
opaque romSignature : List Byte
opaque attestationKey : List Byte

/-- Whether both copies of a queue's table fail their CRC when Madder reloads (R325); its arguments are `State.free` and
the queue. -/
opaque tableLost (n queue : Nat) : Bool

end Sys2Proof.Config
end

