-- ==== Sys2Proof/Syntax.lean ====
section
/-! DEFINITION. The instructions: one constructor for each row of spec/opcode_table.json, words first and then the
events of the abstract machine and of the package's units. Operand forms are those of spec/03_encoding_and_opcode_map.md. -/

namespace Sys2Proof

/-- Vector type codes 0 to 7 (R16, R121). -/
inductive VTy where
  | f32 | bf16 | f16 | i32 | n32 | i16 | i8 | f64
  deriving DecidableEq, Repr

/-- Rounding-mode field values 0 to 7 (R31). -/
inductive Rm where
  | rne | rtz | rdn | rup | rna | sr0 | sr1 | dyn
  deriving DecidableEq, Repr

/-- The RM, FI and FO fields of a floating-point word (R16, R30). -/
structure FMode where
  rm : Rm
  fi : Bool
  fo : Bool
  deriving DecidableEq, Repr

/-- The mode bits of a TILE word less Z: mask scalar, RM, FI, FO, NT (R60). -/
structure TMode where
  mask : SReg
  fm : FMode
  nt : Bool
  deriving DecidableEq, Repr

/-- A TILE operand: handle, slot offset, post-advance bit (R13). -/
structure TileOp where
  h : HReg
  o : Fin 4
  adv : Bool
  deriving DecidableEq, Repr

/-- An immediate field of `n` bits, or the literal word that replaces it (R53). -/
inductive Imm (n : Nat) where
  | short (v : BitVec n)
  | lit (v : Word)
  deriving DecidableEq, Repr

/-- The source of VBCST: a scalar register, or the literal (R136). -/
inductive BSrc where
  | reg (s : SReg)
  | lit (v : Word)
  deriving DecidableEq, Repr

/-- The operation field of VRED and VSCAN (R140). -/
inductive RedOp where
  | add | min | max | and | or | xor
  deriving DecidableEq, Repr

/-- The condition field of VCMP (R135). -/
inductive Cond where
  | eq | ne | lt | le | gt | ge | un | ord
  deriving DecidableEq, Repr

/-- Copy geometries 0 to 5 (R208). -/
inductive Geo where
  | d1 | d2 | d3 | im2col | btsrc | btdst
  deriving DecidableEq, Repr

/-- A CXL function: PF0 is 0, VFn is n (R315). -/
abbrev Fn := Nat

/-- The operation of an atomic (R101). -/
inductive AtomOp where
  | add | min | max | and | or | xor | swp | cas
  deriving DecidableEq, Repr

/-- Another package's request on this package's memory (R347, R348): a read, a write, or an atomic with its operand and the
value that ACAS compares. Bit i of `lanes` enables granule i of the range, counted from the granule that holds its first byte,
and bit i of `poison` is that granule's poison. -/
structure RemoteReq where
  srcPkg : Nat
  srcPart : Nat
  off : Nat
  len : Nat
  lanes : Nat
  write : Option (List Byte)
  poison : Nat
  rmw : Option (AtomOp × Word × Word)
  deriving DecidableEq, Repr

/-- A flit as a link end sees it (R344). -/
structure Flit where
  dst : Nat
  src : Nat
  kind : Nat
  vc : Nat
  seq : Nat
  ack : Nat
  crcOk : Bool
  payload : List Byte
  deriving DecidableEq, Repr

/-- The instructions and events of spec/opcode_table.json. In the events, `b` is a block, `w` one of its agents
(0 to 3 the compute streams, 4 the MP), `ch` a copy channel (4: Umber's moves for the block) and `id` a transfer. -/
inductive Instr where
  -- scalar half, register form (R94)
  | snop
  | add (d a b : SReg) | sub (d a b : SReg) | mul (d a b : SReg) | mulh (d a b : SReg) | mulhn (d a b : SReg)
  | and (d a b : SReg) | or (d a b : SReg) | xor (d a b : SReg) | andn (d a b : SReg)
  | shl (d a b : SReg) | shr (d a b : SReg) | sar (d a b : SReg) | ror (d a b : SReg)
  | min (d a b : SReg) | max (d a b : SReg) | minn (d a b : SReg) | maxn (d a b : SReg)
  | seq (d a b : SReg) | slt (d a b : SReg) | sltn (d a b : SReg)
  | clz (d a : SReg) | popc (d a : SReg) | mov (d a : SReg)
  -- scalar half, immediate form
  | addi (d a : SReg) (y : Imm 10) | andi (d a : SReg) (y : Imm 10) | ori (d a : SReg) (y : Imm 10)
  | xori (d a : SReg) (y : Imm 10) | shli (d a : SReg) (y : Imm 10) | shri (d a : SReg) (y : Imm 10)
  | sari (d a : SReg) (y : Imm 10) | rori (d a : SReg) (y : Imm 10) | slti (d a : SReg) (y : Imm 10)
  | movi (d : SReg) (y : Imm 10)
  -- scalar half, predicate form (R95)
  | peq (d : PReg) (a b : SReg) | pne (d : PReg) (a b : SReg) | plt (d : PReg) (a b : SReg) | pge (d : PReg) (a b : SReg)
  | pltn (d : PReg) (a b : SReg) | pgen (d : PReg) (a b : SReg) | ptst (d : PReg) (a b : SReg)
  | pand (d a b : PReg) | por (d a b : PReg) | pxor (d a b : PReg) | pnot (d a : PReg)
  -- vector half (R122 to R127)
  | vnop
  | vadd (vd va vb : VReg) (m : FMode) (t : VTy) | vsub (vd va vb : VReg) (m : FMode) (t : VTy)
  | vmul (vd va vb : VReg) (m : FMode) (t : VTy) | vfma (vd va vb : VReg) (m : FMode) (t : VTy)
  | vfms (vd va vb : VReg) (m : FMode) (t : VTy) | vmin (vd va vb : VReg) (m : FMode) (t : VTy)
  | vmax (vd va vb : VReg) (m : FMode) (t : VTy)
  | vabs (vd va : VReg) (m : FMode) (t : VTy) | vneg (vd va : VReg) (m : FMode) (t : VTy)
  | viadd (vd va vb : VReg) (t : VTy) | visub (vd va vb : VReg) (t : VTy) | vimul (vd va vb : VReg) (t : VTy)
  | vimin (vd va vb : VReg) (t : VTy) | vimax (vd va vb : VReg) (t : VTy)
  | vand (vd va vb : VReg) | vor (vd va vb : VReg) | vxor (vd va vb : VReg)
  | vshl (vd va vb : VReg) (t : VTy) | vshr (vd va vb : VReg) (t : VTy) | vsar (vd va vb : VReg) (t : VTy)
  | vmov (vd va : VReg)
  | vrcp (vd va : VReg) (m : FMode) (t : VTy) | vrsq (vd va : VReg) (m : FMode) (t : VTy)
  | vsqrt (vd va : VReg) (m : FMode) (t : VTy) | vex2 (vd va : VReg) (m : FMode) (t : VTy)
  | vlg2 (vd va : VReg) (m : FMode) (t : VTy) | vtanh (vd va : VReg) (m : FMode) (t : VTy)
  -- SCALAR format (R96 to R103, R177 to R181)
  | div (d a b : SReg) | divn (d a b : SReg) | rem (d a b : SReg) | remn (d a b : SReg)
  | ld (d a : SReg) (off : Imm 29) | st (d a : SReg) (off : Imm 29) | lds (d a : SReg) (off : Imm 29)
  | chk (a : SReg)
  | aadd (d a b : SReg) (off : Imm 29) | amin (d a b : SReg) (off : Imm 29) | amax (d a b : SReg) (off : Imm 29)
  | aand (d a b : SReg) (off : Imm 29) | aor (d a b : SReg) (off : Imm 29) | axor (d a b : SReg) (off : Imm 29)
  | aswp (d a b : SReg) (off : Imm 29) | acas (d a b : SReg) (off : Imm 29)
  | extr (d a : SReg) (pos len1 : Fin 64) | insr (d a : SReg) (pos len1 : Fin 64)
  | fpush (a : SReg) (port : Fin 4) | fpop (d : SReg) (port : Fin 4)
  | hset (h : HReg) (a b : SReg) | hget (d : SReg) (h : HReg) (cursor : Bool) | hadv (h : HReg) (n : BitVec 16)
  | hwait (h : HReg) (o : Fin 4) | trel (h : HReg) (o : Fin 4) | tvoid (d : PReg) (h : HReg) (o : Fin 4)
  | tgen (d : SReg) (h : HReg) (o : Fin 4) | tsetc (a b : SReg)
  -- VECTOR format, memory group (R128 to R133)
  | vld (vd : VReg) (base : SReg) (k : KReg) (off : BitVec 27) | vlds (vd : VReg) (base : SReg) (k : KReg) (off : BitVec 27)
  | vst (vd : VReg) (base : SReg) (k : KReg) (off : BitVec 27) | vchk (vd : VReg)
  | vgath (vd vi : VReg) (base : SReg) (k : KReg) (off : BitVec 27)
  | vscat (vd vi : VReg) (base : SReg) (k : KReg) (off : BitVec 27)
  -- VECTOR format, register group (R134 to R146)
  | vcmp (vd : KReg) (va vb : VReg) (fi : Bool) (t : VTy) (c : Cond)
  | vsel (vd va vb : VReg) (kc : KReg) | vbcst (vd : VReg) (t : VTy) (src : BSrc)
  | vext (s : SReg) (va : VReg) (t : VTy) (lane : Fin 64) | vidx (vd : VReg) (t : VTy) (start : BitVec 20)
  | vperm (vd va vb : VReg) | vrotm (vd va : VReg) (kc : KReg) (r : Fin 64)
  | vcvt (vd va : VReg) (m : FMode) (t : VTy) (code : Fin 16) (sat : Bool)
  | vred (vd va : VReg) (m : FMode) (t : VTy) (op : RedOp) | vscan (vd va : VReg) (m : FMode) (t : VTy) (op : RedOp)
  | vtopk (vd va vb : VReg) (t : VTy) (k : Fin 128)
  | vpushc (va : VReg) (kc : KReg) (t : VTy) (s : SReg) | vpopc (vd : VReg) (t : VTy) (s : SReg)
  | kand (d a b : KReg) | kor (d a b : KReg) | kxor (d a b : KReg) | knot (d a : KReg)
  | kcnt (s : SReg) (a : KReg) | kmovToMask (d : KReg) (s : SReg) | kmovFromMask (s : SReg) (a : KReg)
  -- TILE format (R182 to R202)
  | tzero (d : TileOp) | tmov (d a : TileOp) | tfromv (d : TileOp) (z : Bool) | ttov (a : TileOp) (z : Bool)
  | tlds (d : TileOp) (c : SReg) | tsts (a : TileOp) (c : SReg) | tsta (a : TileOp) (c mask : SReg)
  | tgath (d a : TileOp) (c mask : SReg)
  | tadd (d a b : TileOp) (m : TMode) | tmul (d a b : TileOp) (m : TMode) | tmax (d a b : TileOp) (m : TMode)
  | tscal (d a b : TileOp) (m : TMode) | ttrn (d a : TileOp) | tred (d a : TileOp) (m : TMode)
  | tacc (d a c : TileOp) (z : Bool) (m : TMode)
  | mmbi (d a b c : TileOp) (z : Bool) (m : TMode) | mmf (d a b c : TileOp) (z : Bool) (m : TMode)
  | mmf32 (d a b c : TileOp) (z : Bool) (m : TMode) | mmd (d a b c : TileOp) (z : Bool) (m : TMode)
  | tcvt (d a : TileOp) (tag : BitVec 8) (part : Fin 4) (merge sat : Bool) (m : TMode)
  | tcvtPageAppend (d a : TileOp) (tag : BitVec 8) (slot : Fin 16) (sat : Bool) (m : TMode)
  -- CONTROL format (R104 to R111)
  | br (off : BitVec 34) | jmp (a : SReg) (off : BitVec 34) | call (off : BitVec 34) | ret | loop (a : SReg) (off : BitVec 34)
  | rep (a : SReg) | syncm (mask : BitVec 4) | waitt (a : SReg) | mark (m : BitVec 32) | timed (a : SReg) (off : BitVec 34)
  | exit
  -- SYSTEM format (R112 to R120)
  | mfc (d : SReg) (cr : BitVec 12) | mtc (a : SReg) (cr : BitVec 12) | mtcTcmp (a : SReg) | mtcSstat (a : SReg)
  | trap (code : BitVec 22) | eret | fenceh | waiti (mask : BitVec 8) | seed (n : Fin 2) (a : SReg)
  | tlbinv (a : SReg) (scope : Fin 4) | banksv (bank : Fin 16) (kind : Fin 4) | bankld (bank : Fin 16) (kind : Fin 4)
  | pcmd (a : SReg)
  -- MOVE format (R207 to R222)
  | copy (t f : SReg) (ch : Fin 4) (geo : Geo) (adv : Bool)
  | copytIn (t f : SReg) (ch : Fin 4) (item : TileOp) (tag : BitVec 8) (img : Bool) (bo : Fin 16) (geo : Geo) (adv : Bool)
  | copytOut (t f : SReg) (ch : Fin 4) (item : TileOp) (img : Bool) (geo : Geo) (adv : Bool)
  | copytXfer (t : SReg) (ch : Fin 4) (item src : TileOp) (bo : Fin 16) (adv : Bool)
  | cwait (t : SReg) (ch : Fin 4) | cstat (t f : SReg) (ch : Fin 4)
  | prefL2 (f : SReg) (len1 : BitVec 12) | prefLease (f : SReg) (len1 : BitVec 12) | prefDemote (f : SReg) (len1 : BitVec 12)
  | mwait (p : PReg) (all : Bool) (chans : BitVec 4) (mbox : Bool)
  -- events of the streams and the core
  | syncIssue (b : Nat) (mask : BitVec 4)
  | perform (b w : Nat) | deliver (b w k : Nat) | latchLand (b w : Nat)
  | tileDataComplete (core : Nat) (matrix : Bool) | nantrap (b w : Nat) | longUnitComplete (b w : Nat)
  | trapEntry (b w : Nat) | timerCompare (b w : Nat) | interruptAccept (b w : Nat) | tslipt (b w : Nat)
  | take (b : Nat) (port : Fin 4) | post (b : Nat) (port : Fin 4)
  -- events of the copies
  | copyRead (b : Nat) (ch : Fin 5) (id : Nat) | dataRead (b : Nat) (ch : Fin 5) (id n : Nat)
  | dataWrite (b : Nat) (ch : Fin 5) (id n : Nat) | copyWrite (b : Nat) (ch : Fin 5) (id : Nat)
  | remoteWriteArrival (b : Nat) (ch : Fin 4) (id : Nat) | remoteResend (b : Nat) (ch : Fin 4)
  | transferComplete (b : Nat) (ch : Fin 5) (id : Nat) | mpTrap (b : Nat) | mpResume (b : Nat)
  -- events of Weld and the cluster's units
  | bankClaim (b : Nat) (kind : Fin 3) (bank : Nat) | preempt (part : Nat) | blockPlace (part : Nat) | blockResume (core : Nat)
  | weldTick (part : Nat) | walkerPost (b : Nat) | reportTake (b : Nat) | fill (launch pidx : Nat)
  | coverageUpdate (launch : Nat) | launchRetire (launch : Nat) | homeReturn (b : Nat) | migrate (b : Nat)
  | operatorReplay (b : Nat) | builtInTestPass (core : Nat) | sliceEnd (part : Nat) | sliceOvershootTimeout (b : Nat)
  | coreFault (core : Nat) (fcode : BitVec 8) | correctedError (core : Nat) | scrub (pa : Nat)
  | dramUncorrectable (pa : Nat) | clusterFault (g : Nat)
  | walkEntryRead (b w : Nat) | walkComplete (b w : Nat) | leaseLapse (core line : Nat)
  -- events of the host and Madder
  | hostMemRead (pa : Nat) | hostMemWrite (pa : Nat) (data : List Byte) (enables : List Bool) (poison : Bool)
  | qkick (fn : Fn) (q : Fin 4) (k : Word) | qctlWrite (pf0 : Bool) (fn : Fn) (q : Fin 4) (v : Word)
  | barRegWrite (fn : Fn) (off : Nat) (v : Word)
  | seqRead (fn : Fn) (q : Fin 4) | seqReread (fn : Fn) (q : Fin 4) | seqTimeout (fn : Fn) (q : Fin 4)
  | nopPacket (fn : Fn) (q : Fin 4) | loadPacket (fn : Fn) (q : Fin 4) | loadComplete (part slot : Nat)
  | launchPacket (fn : Fn) (q : Fin 4) | evictPacket (fn : Fn) (q : Fin 4) | evictComplete (part slot : Nat)
  | madderReload | windowLock (part : Nat) (win : Fin 16) | hypkeyLock (key : List Byte) | p1rootWrite (v : Word)
  | fabidWrite (v : Word)
  -- events of the partition controller and the reset ladder
  | pcCreate | pcDestroy | pcSetquota | pcMapvf | pcSettable | pcReset | pcSetisa
  | fresetQueue (fn : Fn) (part : Nat) (q : Fin 4) | fresetContext (fn : Fn) (part seq : Nat) (q : Fin 4)
  | fresetEngine (fn : Fn) (part : Nat) | fresetPartition (fn : Fn) (part : Nat) | fresetDevice (fn : Fn)
  | rungComplete (n : Nat) | rungEscalate (n : Nat)
  -- events of bring-up, power and cooling
  | powerOn | phaseComplete | phaseTimeout
  | governorWindow (power : List Nat) | packageStepDown (power : List Nat) | deferralExpire (island : Nat)
  | thermalThrottle (island : Nat) | thermalPartitionRung | thermalTrip | timebaseReceiverLoss (die : Nat)
  | umberUncorrectable (b : Nat)
  -- events of the fabric
  | flitReceive (link : Fin 16) (f : Flit) | flitResend (link : Fin 16) (fromSeq : Nat) | linkRetrain (link : Fin 16)
  | retrainComplete (link : Fin 16) (ok : Bool) | remoteRequest (r : RemoteReq) | remoteRouteTimeout (part pkg : Nat)
  | timeSyncFlit (link : Fin 16) (count : Word) | timesyncLoss
  | collectiveStart (group tag : Nat) | collectiveComplete (group tag : Nat)
  -- management and the rest
  | pldmRequest (r : Nat) | spdmRequest (r : Nat) | powerRemoval | linkTraining (link : Fin 16) | madderReloadEnd
  | thermalLaunchHoldEnd
  deriving DecidableEq, Repr

/-- The common fields of every word but F and L, which the instruction itself decides (R51). -/
structure Hdr where
  s : Bool
  g : PReg
  n : Bool
  w : Fin 8
  deriving DecidableEq, Repr

/-- The header whose fields are all at their defaults (R15). -/
def Hdr.default : Hdr := ⟨false, 0, false, 0⟩

/-- The body of a word: the two halves of a PAIR word, or the one instruction of any other (R52, R54). -/
inductive Body where
  | pair (sh vh : Instr)
  | one (i : Instr)
  deriving DecidableEq, Repr

/-- One decoded word with its literal (R50, R53). -/
structure Line where
  hdr : Hdr
  body : Body
  deriving DecidableEq, Repr

end Sys2Proof
end

