-- ==== Sys2Proof/Decode.lean ====
section
/-! DEFINITION. Decoding and encoding of instruction words (spec/03_encoding_and_opcode_map.md R50 to R69, with the
field rules of spec/05, 06, 09 and 10). Fields are unpacked once, from the lowest bits up. -/

namespace Sys2Proof

/-- The fields of the given widths, lowest first, joined into one number. -/
def packFields : List Nat → List Nat → Nat
  | w :: ws, v :: vs => v % 2 ^ w + 2 ^ w * packFields ws vs
  | _, _ => 0

/-- The fields of the given widths of a number, lowest first. -/
def unpackFields : List Nat → Nat → List Nat
  | [], _ => []
  | w :: ws, n => n % 2 ^ w :: unpackFields ws (n / 2 ^ w)

@[simp] theorem unpackFields_nil (n : Nat) : unpackFields [] n = [] := rfl

/-- Unpacking what was packed gives each field back, reduced to its width. -/
@[simp] theorem unpackFields_packFields (w : Nat) (ws : List Nat) (v : Nat) (vs : List Nat) :
    unpackFields (w :: ws) (packFields (w :: ws) (v :: vs)) =
      v % 2 ^ w :: unpackFields ws (packFields ws vs) := by
  have hp : 0 < 2 ^ w := Nat.two_pow_pos w
  simp only [unpackFields, packFields, Nat.add_mul_mod_self_left, Nat.mod_mod, List.cons.injEq, true_and]
  rw [Nat.add_mul_div_left _ _ hp, Nat.div_eq_of_lt (Nat.mod_lt _ hp), Nat.zero_add]

/-- A packed number needs no more bits than its fields have. -/
theorem packFields_lt (ws vs : List Nat) : packFields ws vs < 2 ^ ws.sum := by
  induction ws generalizing vs with
  | nil => cases vs <;> simp [packFields]
  | cons w ws ih =>
    cases vs with
    | nil => simp [packFields]
    | cons v vs =>
      have hv : v % 2 ^ w < 2 ^ w := Nat.mod_lt _ (Nat.two_pow_pos w)
      have hr : packFields ws vs + 1 ≤ 2 ^ ws.sum := ih vs
      have hm : 2 ^ w * (packFields ws vs + 1) ≤ 2 ^ w * 2 ^ ws.sum := Nat.mul_le_mul_left _ hr
      rw [List.sum_cons, Nat.pow_add]
      simp only [packFields]
      rw [Nat.mul_add] at hm
      omega

/-! ## Layouts, lowest field first -/

/-- payload, L, W, F, N, G, S (R51). -/
def lHeader : List Nat := [52, 1, 3, 3, 1, 3, 1]
/-- type, FO, FI, RM, vb, va, vd, op6, zero, b, a, d, op6 (R54). -/
def lPair : List Nat := [3, 1, 1, 3, 4, 4, 4, 6, 5, 5, 5, 5, 6]
/-- imm29, b, a, d, op8 (R57). -/
def lScalar : List Nat := [29, 5, 5, 5, 8]
/-- imm20, type, FO, FI, RM, vc, vb, va, vd, op8 (R58, register group). -/
def lVReg : List Nat := [20, 3, 1, 1, 3, 4, 4, 4, 4, 8]
/-- offset, vi, zero, k, base, vd, op8 (R58, memory group). -/
def lVMem : List Nat := [27, 4, 1, 3, 5, 4, 8]
/-- NT, FO, FI, RM, mask scalar, Z, C, B, A, D, op8 (R60). -/
def lTile : List Nat := [1, 1, 1, 3, 5, 1, 8, 8, 8, 8, 8]
/-- offset, b, a, op8 (R62). -/
def lControl : List Nat := [34, 5, 5, 8]
/-- imm22, control register, a, d, op8 (R63). -/
def lSystem : List Nat := [22, 12, 5, 5, 8]
/-- fields, channel, first descriptor scalar F, token register T, op8 (R64). -/
def lMove : List Nat := [32, 2, 5, 5, 8]
/-- COPY's fields: geometry, ADV, zero (R218). -/
def lCopy : List Nat := [3, 1, 28]
/-- COPYT's fields: geometry, ADV, DIR, item operand, BO, IMG, tag or source, zero (R218). -/
def lCopyt : List Nat := [3, 1, 2, 8, 4, 1, 8, 5]
/-- PREF's fields: target, length - 1, zero (R218). -/
def lPref : List Nat := [2, 12, 18]
/-- MWAIT's fields: MBOX, channel mask, ALL, zero (R218). -/
def lMwait : List Nat := [1, 4, 1, 26]
/-- EXTR's and INSR's imm29: position, length - 1, zero (R102). -/
def lExtr : List Nat := [6, 6, 17]
/-- VEXT's imm20: destination scalar, lane, zero (R59). -/
def lVext : List Nat := [5, 6, 9]
/-- VCVT's imm20: code, saturate, zero (R138). -/
def lVcvt : List Nat := [4, 1, 15]
/-- KMOV's imm20: scalar, direction, zero (R146). -/
def lKmov : List Nat := [5, 1, 14]
/-- BANKSV's and BANKLD's imm22: bank, kind, zero (R119). -/
def lBank : List Nat := [4, 2, 16]
/-- TCVT's options byte: saturate, page-append, slot or part, merge, zero (R200). -/
def lOpt : List Nat := [1, 1, 4, 1, 1]

/-! ## Field codes -/

def sReg (n : Nat) : SReg := Fin.ofNat 32 n
def vReg (n : Nat) : VReg := Fin.ofNat 16 n
def pReg (n : Nat) : PReg := Fin.ofNat 8 n
def kReg (n : Nat) : KReg := Fin.ofNat 8 n
def bit (n : Nat) : Bool := n == 1

def VTy.ofCode : Nat → VTy
  | 0 => .f32 | 1 => .bf16 | 2 => .f16 | 3 => .i32 | 4 => .n32 | 5 => .i16 | 6 => .i8 | _ => .f64
def VTy.toNat : VTy → Nat
  | .f32 => 0 | .bf16 => 1 | .f16 => 2 | .i32 => 3 | .n32 => 4 | .i16 => 5 | .i8 => 6 | .f64 => 7
@[simp] theorem VTy.ofCode_toNat (t : VTy) : VTy.ofCode t.toNat = t := by cases t <;> rfl
@[simp] theorem VTy.toNat_mod (t : VTy) : t.toNat % 8 = t.toNat := by cases t <;> rfl

def Rm.ofCode : Nat → Rm
  | 0 => .rne | 1 => .rtz | 2 => .rdn | 3 => .rup | 4 => .rna | 5 => .sr0 | 6 => .sr1 | _ => .dyn
def Rm.toNat : Rm → Nat
  | .rne => 0 | .rtz => 1 | .rdn => 2 | .rup => 3 | .rna => 4 | .sr0 => 5 | .sr1 => 6 | .dyn => 7
@[simp] theorem Rm.ofCode_toNat (r : Rm) : Rm.ofCode r.toNat = r := by cases r <;> rfl
@[simp] theorem Rm.toNat_mod (r : Rm) : r.toNat % 8 = r.toNat := by cases r <;> rfl

def Cond.ofCode : Nat → Cond
  | 0 => .eq | 1 => .ne | 2 => .lt | 3 => .le | 4 => .gt | 5 => .ge | 6 => .un | _ => .ord
def Cond.toNat : Cond → Nat
  | .eq => 0 | .ne => 1 | .lt => 2 | .le => 3 | .gt => 4 | .ge => 5 | .un => 6 | .ord => 7
@[simp] theorem Cond.ofCode_toNat (c : Cond) : Cond.ofCode c.toNat = c := by cases c <;> rfl

def RedOp.ofCode : Nat → RedOp
  | 0 => .add | 1 => .min | 2 => .max | 3 => .and | 4 => .or | _ => .xor
def RedOp.toNat : RedOp → Nat
  | .add => 0 | .min => 1 | .max => 2 | .and => 3 | .or => 4 | .xor => 5
@[simp] theorem RedOp.ofCode_toNat (c : RedOp) : RedOp.ofCode c.toNat = c := by cases c <;> rfl

def Geo.ofCode : Nat → Geo
  | 0 => .d1 | 1 => .d2 | 2 => .d3 | 3 => .im2col | 4 => .btsrc | _ => .btdst
def Geo.toNat : Geo → Nat
  | .d1 => 0 | .d2 => 1 | .d3 => 2 | .im2col => 3 | .btsrc => 4 | .btdst => 5
@[simp] theorem Geo.ofCode_toNat (c : Geo) : Geo.ofCode c.toNat = c := by cases c <;> rfl

/-- R13: bits 7:3 handle, 2:1 slot offset, 0 post-advance. -/
def TileOp.ofNat (n : Nat) : TileOp := ⟨Fin.ofNat 32 (n / 8), Fin.ofNat 4 (n / 2), bit (n % 2)⟩
def TileOp.toNat (x : TileOp) : Nat := 8 * x.h.val + 2 * x.o.val + x.adv.toNat
@[simp] theorem TileOp.ofNat_toNat (x : TileOp) : TileOp.ofNat (x.toNat % 256) = x := by
  obtain ⟨⟨h, hh⟩, ⟨o, ho⟩, a⟩ := x
  cases a <;> simp [TileOp.ofNat, TileOp.toNat, bit, Fin.ofNat] <;> omega

def FMode.ofNat (rm fi fo : Nat) : FMode := ⟨Rm.ofCode rm, bit fi, bit fo⟩

/-- The format tags of R42. -/
def tagValid (t : Nat) : Bool :=
  [0x00, 0x10, 0x20, 0x30, 0x40, 0x50, 0x51, 0x60, 0x61, 0x71, 0x83, 0x85, 0x87, 0x89, 0x8B, 0x8D, 0x8F, 0x91,
   0xA0, 0xB0, 0xC0].contains t

/-- The control registers a compute stream may name (R71, R155, R112). -/
def streamCr (n : Nat) : Bool :=
  n ≤ 0x008 || (0x010 ≤ n && n ≤ 0x014) || (0x018 ≤ n && n ≤ 0x01A) || (0x020 ≤ n && n ≤ 0x022)

/-- The per-core and per-partition registers (R155, R112). -/
def sharedCr (n : Nat) : Bool :=
  (0x100 ≤ n && n ≤ 0x103) || (0x110 ≤ n && n ≤ 0x113) || (0x120 ≤ n && n ≤ 0x12F) || (0x200 ≤ n && n ≤ 0x203)

/-- The control registers the MP may name of its own (R205). -/
def mpCr (n : Nat) : Bool := [0x000, 0x001, 0x010, 0x011, 0x012, 0x015, 0x020, 0x022].contains n

def crAccepted (isMP : Bool) (n : Nat) : Bool := sharedCr n || (if isMP then mpCr n else streamCr n)

def VTy.isFloat4 : VTy → Bool
  | .f32 | .bf16 | .f16 | .f64 => true
  | _ => false
def VTy.isFloat3 : VTy → Bool
  | .f32 | .bf16 | .f16 => true
  | _ => false
def VTy.isInt4 : VTy → Bool
  | .i32 | .n32 | .i16 | .i8 => true
  | _ => false
/-- Types 0, 3 and 4. -/
def VTy.isKey : VTy → Bool
  | .f32 | .i32 | .n32 => true
  | _ => false

/-- A TCVT target tag (R200). -/
def tcvtTarget (t : Nat) : Bool := tagValid t && t != 0x00 && t != 0xC0

/-- bi3 to bi8 and mxint8, the targets of page-append (R200). -/
def pageTarget (t : Nat) : Bool := [0x85, 0x87, 0x89, 0x8B, 0x8D, 0x8F, 0x91].contains t

/-- The saturate bit is not accepted with fp32, fp64, i32 or i8 (R200). -/
def tcvtSatOk (t : Nat) (sat : Bool) : Bool := !(sat && [0x10, 0x40, 0xA0, 0xB0].contains t)

/-- Fields that Syntax can hold and that must be zero for this instruction: check 4 of R67 decided by the word. -/
def Instr.reservedOk : Instr → Bool
  | .vcmp _ _ _ fi t _ => t.isFloat4 || !fi
  | .vred _ _ m t _ | .vscan _ _ m t _ => t.isFloat4 || (m.rm == .rne && !m.fi && !m.fo)
  | .vext _ _ t lane => t != .f64 || decide (lane.val < 32)
  | .banksv bank kind | .bankld bank kind =>
    kind != 3 && decide (bank.val < (if kind = 2 then 4 else 8))
  | .mmbi _ _ _ c z _ | .mmf _ _ _ c z _ | .mmf32 _ _ _ c z _ | .mmd _ _ _ c z _ | .tacc _ _ c z _ =>
    !z || c.toNat == 0
  | .copytIn _ _ _ _ tag img _ _ _ => !img || tag == 0
  | _ => true

/-- Field values the instruction accepts: the part of check 5 of R67 that the word alone decides. -/
def Instr.fieldsOk (isMP : Bool) : Instr → Bool
  | .vadd _ _ _ _ t | .vsub _ _ _ _ t | .vmul _ _ _ _ t | .vfma _ _ _ _ t | .vfms _ _ _ _ t | .vmin _ _ _ _ t
  | .vmax _ _ _ _ t | .vabs _ _ _ t | .vneg _ _ _ t => t.isFloat4
  | .viadd _ _ _ t | .visub _ _ _ t | .vimul _ _ _ t | .vimin _ _ _ t | .vimax _ _ _ t | .vshl _ _ _ t | .vshr _ _ _ t
  | .vsar _ _ _ t | .vidx _ t _ => t.isInt4
  | .vrcp _ _ _ t | .vrsq _ _ _ t | .vsqrt _ _ _ t | .vex2 _ _ _ t | .vlg2 _ _ _ t | .vtanh _ _ _ t => t.isFloat3
  | .vcmp _ _ _ _ t c => (t.isKey || t == .f64) && !(!t.isFloat4 && (c == .un || c == .ord))
  | .vext _ _ t _ => t.isKey || t == .f64
  | .vcvt _ _ _ _ code sat => !sat || [1, 2, 8, 9, 10, 15].contains code.val
  | .vred _ _ _ t op | .vscan _ _ _ t op => !(t.isFloat4 && (op == .and || op == .or || op == .xor))
  | .vtopk _ _ _ t k => t.isKey && decide (k.val ≤ 64)
  | .vpushc _ _ t _ | .vpopc _ t _ => t.isKey
  | .tcvt _ _ tag _ merge sat _ =>
    tcvtTarget tag.toNat && tcvtSatOk tag.toNat sat && !(merge && tag.toNat == 0x83)
  | .tcvtPageAppend _ _ tag _ sat _ => pageTarget tag.toNat && tcvtSatOk tag.toNat sat
  | .fpush _ port | .fpop _ port => !isMP || port == 3
  | .mfc _ cr | .mtc _ cr => crAccepted isMP cr.toNat
  | .copytIn _ _ _ _ tag img _ _ _ => img || tagValid tag.toNat
  | _ => true

/-- The privileged instructions (R57, R63). -/
def Instr.privileged : Instr → Bool
  | .tsetc _ _ | .tlbinv _ _ | .banksv _ _ | .bankld _ _ | .pcmd _ => true
  | _ => false

/-- What one opcode's fields read as: the zero fields are zero, the codes are defined, and the instruction. -/
structure Found where
  zero : Bool
  ok : Bool
  i : Instr

/-- A word that is not an instruction, by the first check of R67 that the word fails. -/
inductive Reject where
  /-- Check 1. -/
  | resFmt
  /-- Check 2. -/
  | illegalOp
  /-- Check 4; the instruction says whether check 3 comes first. -/
  | resFld (i : Instr)
  /-- Check 5; a COPYT's BO may still fail check 4 (R218). -/
  | illegalFld (i : Instr)
  /-- Check 5 of MFC and MTC, whose TVAL is the register's number (R63). -/
  | illegalReg (n : Nat)
  deriving DecidableEq, Repr


/-- The scalar half (R55): zero field, b, a, d, op6, and the word's literal. -/
def decScalarHalf (z b a d op : Nat) (lit : Option Word) : Option Found :=
  let r3 (f : SReg → SReg → SReg → Instr) : Option Found :=
    some ⟨z == 0 && lit.isNone, true, f (sReg d) (sReg a) (sReg b)⟩
  let r2 (f : SReg → SReg → Instr) : Option Found := some ⟨z == 0 && b == 0 && lit.isNone, true, f (sReg d) (sReg a)⟩
  let y : Imm 10 := match lit with
    | none => .short (BitVec.ofNat 10 (b * 32 + z))
    | some v => .lit v
  let litOk := lit.isNone || (b == 0 && z == 0)
  let im (f : SReg → SReg → Imm 10 → Instr) : Option Found := some ⟨litOk, true, f (sReg d) (sReg a) y⟩
  let p3 (f : PReg → SReg → SReg → Instr) : Option Found :=
    some ⟨z == 0 && lit.isNone && d / 8 == 0, true, f (pReg d) (sReg a) (sReg b)⟩
  let pp (f : PReg → PReg → PReg → Instr) : Option Found :=
    some ⟨z == 0 && lit.isNone && d / 8 == 0 && a / 8 == 0 && b / 8 == 0, true, f (pReg d) (pReg a) (pReg b)⟩
  match op with
  | 0x00 => some ⟨z == 0 && b == 0 && a == 0 && d == 0 && lit.isNone, true, .snop⟩
  | 0x01 => r3 .add
  | 0x02 => r3 .sub
  | 0x03 => r3 .mul
  | 0x04 => r3 .mulh
  | 0x05 => r3 .mulhn
  | 0x06 => r3 .and
  | 0x07 => r3 .or
  | 0x08 => r3 .xor
  | 0x09 => r3 .andn
  | 0x0A => r3 .shl
  | 0x0B => r3 .shr
  | 0x0C => r3 .sar
  | 0x0D => r3 .ror
  | 0x0E => r3 .min
  | 0x0F => r3 .max
  | 0x10 => r3 .minn
  | 0x11 => r3 .maxn
  | 0x12 => r3 .seq
  | 0x13 => r3 .slt
  | 0x14 => r3 .sltn
  | 0x15 => r2 .clz
  | 0x16 => r2 .popc
  | 0x17 => r2 .mov
  | 0x20 => im .addi
  | 0x21 => im .andi
  | 0x22 => im .ori
  | 0x23 => im .xori
  | 0x24 => im .shli
  | 0x25 => im .shri
  | 0x26 => im .sari
  | 0x27 => im .rori
  | 0x28 => im .slti
  | 0x29 => some ⟨litOk && a == 0, true, .movi (sReg d) y⟩
  | 0x30 => p3 .peq
  | 0x31 => p3 .pne
  | 0x32 => p3 .plt
  | 0x33 => p3 .pge
  | 0x34 => p3 .pltn
  | 0x35 => p3 .pgen
  | 0x36 => p3 .ptst
  | 0x38 => pp .pand
  | 0x39 => pp .por
  | 0x3A => pp .pxor
  | 0x3B => some ⟨z == 0 && lit.isNone && d / 8 == 0 && a / 8 == 0 && b == 0, true, .pnot (pReg d) (pReg a)⟩
  | _ => none

/-- The vector half (R56). -/
def decVectorHalf (ty fo fi rm vb va vd op : Nat) : Option Found :=
  let m := FMode.ofNat rm fi fo
  let t := VTy.ofCode ty
  let z3 := rm == 0 && fi == 0 && fo == 0
  let f3 (f : VReg → VReg → VReg → FMode → VTy → Instr) : Option Found := some ⟨true, true, f (vReg vd) (vReg va) (vReg vb) m t⟩
  let f2 (f : VReg → VReg → FMode → VTy → Instr) : Option Found := some ⟨vb == 0, true, f (vReg vd) (vReg va) m t⟩
  let i3 (f : VReg → VReg → VReg → VTy → Instr) : Option Found := some ⟨z3, true, f (vReg vd) (vReg va) (vReg vb) t⟩
  let l3 (f : VReg → VReg → VReg → Instr) : Option Found := some ⟨z3, ty == 3, f (vReg vd) (vReg va) (vReg vb)⟩
  match op with
  | 0x00 => some ⟨z3 && ty == 0 && vb == 0 && va == 0 && vd == 0, true, .vnop⟩
  | 0x01 => f3 .vadd
  | 0x02 => f3 .vsub
  | 0x03 => f3 .vmul
  | 0x04 => f3 .vfma
  | 0x05 => f3 .vfms
  | 0x06 => f3 .vmin
  | 0x07 => f3 .vmax
  | 0x08 => f2 .vabs
  | 0x09 => f2 .vneg
  | 0x0A => i3 .viadd
  | 0x0B => i3 .visub
  | 0x0C => i3 .vimul
  | 0x0D => i3 .vimin
  | 0x0E => i3 .vimax
  | 0x0F => l3 .vand
  | 0x10 => l3 .vor
  | 0x11 => l3 .vxor
  | 0x12 => i3 .vshl
  | 0x13 => i3 .vshr
  | 0x14 => i3 .vsar
  | 0x15 => some ⟨z3 && vb == 0, ty == 3, .vmov (vReg vd) (vReg va)⟩
  | 0x20 => f2 .vrcp
  | 0x21 => f2 .vrsq
  | 0x22 => f2 .vsqrt
  | 0x23 => f2 .vex2
  | 0x24 => f2 .vlg2
  | 0x25 => f2 .vtanh
  | _ => none

/-- A SCALAR word (R57). -/
def decScalar (imm b a d op : Nat) (lit : Option Word) : Option Found :=
  let nl := lit.isNone
  let off : Imm 29 := match lit with
    | none => .short (BitVec.ofNat 29 imm)
    | some v => .lit v
  let litOk := nl || imm == 0
  let r3 (f : SReg → SReg → SReg → Instr) : Option Found := some ⟨nl && imm == 0, true, f (sReg d) (sReg a) (sReg b)⟩
  let mem (f : SReg → SReg → Imm 29 → Instr) : Option Found := some ⟨litOk && b == 0, true, f (sReg d) (sReg a) off⟩
  let atom (f : SReg → SReg → SReg → Imm 29 → Instr) : Option Found :=
    some ⟨litOk, true, f (sReg d) (sReg a) (sReg b) off⟩
  let ext (f : SReg → SReg → Fin 64 → Fin 64 → Instr) : Option Found :=
    match unpackFields lExtr imm with
    | [pos, len1, z] => some ⟨nl && b == 0 && z == 0, true, f (sReg d) (sReg a) (Fin.ofNat 64 pos) (Fin.ofNat 64 len1)⟩
    | _ => none
  match op with
  | 0x01 => r3 .div
  | 0x02 => r3 .divn
  | 0x03 => r3 .rem
  | 0x04 => r3 .remn
  | 0x10 => mem .ld
  | 0x11 => mem .st
  | 0x12 => mem .lds
  | 0x13 => some ⟨nl && d == 0 && b == 0 && imm == 0, true, .chk (sReg a)⟩
  | 0x18 => atom .aadd
  | 0x19 => atom .amin
  | 0x1A => atom .amax
  | 0x1B => atom .aand
  | 0x1C => atom .aor
  | 0x1D => atom .axor
  | 0x1E => atom .aswp
  | 0x1F => atom .acas
  | 0x20 => ext .extr
  | 0x21 => ext .insr
  | 0x30 => some ⟨nl && d == 0 && b == 0 && imm / 4 == 0, true, .fpush (sReg a) (Fin.ofNat 4 imm)⟩
  | 0x31 => some ⟨nl && a == 0 && b == 0 && imm / 4 == 0, true, .fpop (sReg d) (Fin.ofNat 4 imm)⟩
  | 0x40 => some ⟨nl && imm == 0, true, .hset (sReg d) (sReg a) (sReg b)⟩
  | 0x41 => some ⟨nl && b == 0 && imm / 2 == 0, true, .hget (sReg d) (sReg a) (bit (imm % 2))⟩
  | 0x42 => some ⟨nl && a == 0 && b == 0 && imm / 65536 == 0, true, .hadv (sReg d) (BitVec.ofNat 16 imm)⟩
  | 0x43 => some ⟨nl && d == 0 && b == 0 && imm / 4 == 0, true, .hwait (sReg a) (Fin.ofNat 4 imm)⟩
  | 0x44 => some ⟨nl && d == 0 && b == 0 && imm / 4 == 0, true, .trel (sReg a) (Fin.ofNat 4 imm)⟩
  | 0x45 => some ⟨nl && d / 8 == 0 && b == 0 && imm / 4 == 0, true, .tvoid (pReg d) (sReg a) (Fin.ofNat 4 imm)⟩
  | 0x46 => some ⟨nl && b == 0 && imm / 4 == 0, true, .tgen (sReg d) (sReg a) (Fin.ofNat 4 imm)⟩
  | 0x47 => some ⟨nl && d == 0 && imm == 0, true, .tsetc (sReg a) (sReg b)⟩
  | _ => none

/-- A VECTOR word of the memory group (R58, R128 to R132). -/
def decVMem (off vi z k base vd op : Nat) : Option Found :=
  let o := BitVec.ofNat 27 off
  match op with
  | 0x01 => some ⟨z == 0 && vi == 0, true, .vld (vReg vd) (sReg base) (kReg k) o⟩
  | 0x02 => some ⟨z == 0 && vi == 0, true, .vst (vReg vd) (sReg base) (kReg k) o⟩
  | 0x03 => some ⟨z == 0 && vi == 0, true, .vlds (vReg vd) (sReg base) (kReg k) o⟩
  | 0x04 => some ⟨z == 0 && vi == 0 && k == 0 && base == 0 && off == 0, true, .vchk (vReg vd)⟩
  | 0x05 => some ⟨z == 0, true, .vgath (vReg vd) (vReg vi) (sReg base) (kReg k) o⟩
  | 0x06 => some ⟨z == 0, true, .vscat (vReg vd) (vReg vi) (sReg base) (kReg k) o⟩
  | _ => none

/-- A VECTOR word of the register group (R58, R59, R134 to R146). -/
def decVReg (lit : Option Word) (imm ty fo fi rm vc vb va vd op : Nat) : Option Found :=
  let nl := lit.isNone
  let m := FMode.ofNat rm fi fo
  let t := VTy.ofCode ty
  let z3 := rm == 0 && fi == 0 && fo == 0
  let red (f : VReg → VReg → FMode → VTy → RedOp → Instr) : Option Found :=
    some ⟨nl && vc == 0 && vb == 0 && imm / 8 == 0, decide (imm % 8 ≤ 5), f (vReg vd) (vReg va) m t (RedOp.ofCode (imm % 8))⟩
  let k3 (f : KReg → KReg → KReg → Instr) : Option Found :=
    some ⟨nl && z3 && ty == 0 && vc == 0 && imm == 0 && vd / 8 == 0 && va / 8 == 0 && vb / 8 == 0, true,
      f (kReg vd) (kReg va) (kReg vb)⟩
  match op with
  | 0x10 => some ⟨nl && rm == 0 && fo == 0 && vc == 0 && imm / 8 == 0 && vd / 8 == 0, true,
      .vcmp (kReg vd) (vReg va) (vReg vb) (bit fi) t (Cond.ofCode (imm % 8))⟩
  | 0x11 => some ⟨nl && z3 && vc / 8 == 0 && imm == 0, ty == 3, .vsel (vReg vd) (vReg va) (vReg vb) (kReg vc)⟩
  | 0x12 => match lit with
    | none => some ⟨z3 && vc == 0 && vb == 0 && va == 0 && imm / 32 == 0, true, .vbcst (vReg vd) t (.reg (sReg imm))⟩
    | some v => some ⟨z3 && vc == 0 && vb == 0 && va == 0 && imm == 0, true, .vbcst (vReg vd) t (.lit v)⟩
  | 0x13 => match unpackFields lVext imm with
    | [s, lane, z] => some ⟨nl && z3 && vc == 0 && vb == 0 && vd == 0 && z == 0, true,
        .vext (sReg s) (vReg va) t (Fin.ofNat 64 lane)⟩
    | _ => none
  | 0x14 => some ⟨nl && z3 && vc == 0 && vb == 0 && va == 0, true, .vidx (vReg vd) t (BitVec.ofNat 20 imm)⟩
  | 0x15 => some ⟨nl && z3 && vc == 0 && imm == 0, ty == 3, .vperm (vReg vd) (vReg va) (vReg vb)⟩
  | 0x16 => some ⟨nl && z3 && vb == 0 && vc / 8 == 0 && imm / 64 == 0, ty == 3,
      .vrotm (vReg vd) (vReg va) (kReg vc) (Fin.ofNat 64 imm)⟩
  | 0x17 => match unpackFields lVcvt imm with
    | [code, sat, z] => some ⟨nl && vc == 0 && vb == 0 && z == 0, true,
        .vcvt (vReg vd) (vReg va) m t (Fin.ofNat 16 code) (bit sat)⟩
    | _ => none
  | 0x18 => red .vred
  | 0x19 => red .vscan
  | 0x1A => some ⟨nl && z3 && vc == 0 && imm / 128 == 0, true, .vtopk (vReg vd) (vReg va) (vReg vb) t (Fin.ofNat 128 imm)⟩
  | 0x1B => some ⟨nl && z3 && vb == 0 && vd == 0 && vc / 8 == 0 && imm / 32 == 0, true,
      .vpushc (vReg va) (kReg vc) t (sReg imm)⟩
  | 0x1C => some ⟨nl && z3 && vc == 0 && vb == 0 && va == 0 && imm / 32 == 0, true, .vpopc (vReg vd) t (sReg imm)⟩
  | 0x20 => k3 .kand
  | 0x21 => k3 .kor
  | 0x22 => k3 .kxor
  | 0x23 => some ⟨nl && z3 && ty == 0 && vc == 0 && vb == 0 && imm == 0 && vd / 8 == 0 && va / 8 == 0, true,
      .knot (kReg vd) (kReg va)⟩
  | 0x24 => some ⟨nl && z3 && ty == 0 && vc == 0 && vb == 0 && vd == 0 && imm / 32 == 0 && va / 8 == 0, true,
      .kcnt (sReg imm) (kReg va)⟩
  | 0x25 => match unpackFields lKmov imm with
    | [s, dir, z] =>
      if dir = 0 then some ⟨nl && z3 && ty == 0 && vc == 0 && vb == 0 && va == 0 && vd / 8 == 0 && z == 0, true,
        .kmovToMask (kReg vd) (sReg s)⟩
      else some ⟨nl && z3 && ty == 0 && vc == 0 && vb == 0 && vd == 0 && va / 8 == 0 && z == 0, true,
        .kmovFromMask (sReg s) (kReg va)⟩
    | _ => none
  | _ => none

/-- A TILE word (R60, R61, R200). -/
def decTile (nt fo fi rm mask z c b a d op : Nat) : Option Found :=
  let m : TMode := ⟨sReg mask, FMode.ofNat rm fi fo, bit nt⟩
  let o := TileOp.ofNat
  let m0 := nt == 0 && fo == 0 && fi == 0 && rm == 0 && mask == 0
  let f0 := nt == 0 && fo == 0 && fi == 0 && rm == 0
  let three (f : TileOp → TileOp → TileOp → TMode → Instr) : Option Found :=
    some ⟨z == 0 && c == 0, true, f (o d) (o a) (o b) m⟩
  let mm (f : TileOp → TileOp → TileOp → TileOp → Bool → TMode → Instr) : Option Found :=
    some ⟨true, true, f (o d) (o a) (o b) (o c) (bit z) m⟩
  match op with
  | 0x01 => some ⟨m0 && z == 0 && a == 0 && b == 0 && c == 0, true, .tzero (o d)⟩
  | 0x02 => some ⟨m0 && z == 0 && b == 0 && c == 0, true, .tmov (o d) (o a)⟩
  | 0x03 => some ⟨m0 && a == 0 && b == 0 && c == 0, true, .tfromv (o d) (bit z)⟩
  | 0x04 => some ⟨m0 && d == 0 && b == 0 && c == 0, true, .ttov (o a) (bit z)⟩
  | 0x05 => some ⟨m0 && z == 0 && a == 0 && b == 0 && c % 8 == 0, true, .tlds (o d) (sReg (c / 8))⟩
  | 0x06 => some ⟨m0 && z == 0 && d == 0 && b == 0 && c % 8 == 0, true, .tsts (o a) (sReg (c / 8))⟩
  | 0x07 => some ⟨f0 && z == 0 && d == 0 && b == 0 && c % 8 == 0, true, .tsta (o a) (sReg (c / 8)) (sReg mask)⟩
  | 0x08 => some ⟨f0 && z == 0 && b == 0 && c % 8 == 0, true, .tgath (o d) (o a) (sReg (c / 8)) (sReg mask)⟩
  | 0x10 => three .tadd
  | 0x11 => three .tmul
  | 0x12 => three .tmax
  | 0x13 => three .tscal
  | 0x18 => some ⟨m0 && z == 0 && b == 0 && c == 0, true, .ttrn (o d) (o a)⟩
  | 0x19 => some ⟨z == 0 && b == 0 && c == 0, true, .tred (o d) (o a) m⟩
  | 0x20 => mm .mmbi
  | 0x21 => mm .mmf
  | 0x22 => mm .mmf32
  | 0x23 => mm .mmd
  | 0x28 => match unpackFields lOpt c with
    | [sat, page, j, merge, hi] =>
      if page = 0 then
        some ⟨z == 0 && hi == 0 && j / 4 == 0, true,
          .tcvt (o d) (o a) (BitVec.ofNat 8 b) (Fin.ofNat 4 j) (bit merge) (bit sat) m⟩
      else some ⟨z == 0 && hi == 0, merge == 0, .tcvtPageAppend (o d) (o a) (BitVec.ofNat 8 b) (Fin.ofNat 16 j) (bit sat) m⟩
    | _ => none
  | 0x29 => some ⟨b == 0, true, .tacc (o d) (o a) (o c) (bit z) m⟩
  | _ => none

/-- A CONTROL word (R62), none where the agent does not execute it. -/
def decControl (isMP : Bool) (off b a op : Nat) : Option Found :=
  let o := BitVec.ofNat 34 off
  match op with
  | 0x01 => some ⟨a == 0 && b == 0, true, .br o⟩
  | 0x02 => some ⟨b == 0, true, .jmp (sReg a) o⟩
  | 0x03 => some ⟨a == 0 && b == 0, true, .call o⟩
  | 0x04 => some ⟨a == 0 && b == 0 && off == 0, true, .ret⟩
  | 0x05 => some ⟨b == 0, true, .loop (sReg a) o⟩
  | 0x06 => if isMP then none else some ⟨b == 0 && off == 0, true, .rep (sReg a)⟩
  | 0x08 => if isMP then none else some ⟨a == 0 && b == 0 && off / 16 == 0, true, .syncm (BitVec.ofNat 4 off)⟩
  | 0x09 => some ⟨b == 0 && off == 0, true, .waitt (sReg a)⟩
  | 0x0A => if isMP then none else some ⟨a == 0 && b == 0 && off / 4294967296 == 0, true, .mark (BitVec.ofNat 32 off)⟩
  | 0x0B => if isMP then none else some ⟨b == 0, true, .timed (sReg a) o⟩
  | 0x0C => some ⟨a == 0 && b == 0 && off == 0, true, .exit⟩
  | _ => none

/-- A SYSTEM word (R63), none where the agent does not execute it. -/
def decSystem (isMP : Bool) (imm cr a d op : Nat) : Option Found :=
  let bank (f : Fin 16 → Fin 4 → Instr) : Option Found :=
    if isMP then none else match unpackFields lBank imm with
    | [bk, kind, z] => some ⟨d == 0 && a == 0 && cr == 0 && z == 0, true, f (Fin.ofNat 16 bk) (Fin.ofNat 4 kind)⟩
    | _ => none
  match op with
  | 0x01 => some ⟨a == 0 && imm == 0, true, .mfc (sReg d) (BitVec.ofNat 12 cr)⟩
  | 0x02 => some ⟨d == 0 && imm == 0, true,
      if cr = 0x022 then .mtcTcmp (sReg a) else if cr = 0x001 then .mtcSstat (sReg a)
      else .mtc (sReg a) (BitVec.ofNat 12 cr)⟩
  | 0x03 => if isMP then none else some ⟨d == 0 && a == 0 && cr == 0, true, .trap (BitVec.ofNat 22 imm)⟩
  | 0x04 => if isMP then none else some ⟨d == 0 && a == 0 && cr == 0 && imm == 0, true, .eret⟩
  | 0x05 => some ⟨d == 0 && a == 0 && cr == 0 && imm == 0, true, .fenceh⟩
  | 0x06 => some ⟨d == 0 && a == 0 && cr == 0 && imm / 256 == 0, true, .waiti (BitVec.ofNat 8 imm)⟩
  | 0x07 => if isMP then none else some ⟨d == 0 && cr == 0 && imm / 2 == 0, true, .seed (Fin.ofNat 2 imm) (sReg a)⟩
  | 0x10 => if isMP then none else some ⟨d == 0 && cr == 0 && imm / 4 == 0, true, .tlbinv (sReg a) (Fin.ofNat 4 imm)⟩
  | 0x11 => bank .banksv
  | 0x12 => bank .bankld
  | 0x13 => if isMP then none else some ⟨d == 0 && cr == 0 && imm == 0, true, .pcmd (sReg a)⟩
  | _ => none

/-- A COPYT word's fields by its direction (R213, R214, R218). -/
def decCopyt (x ch f t : Nat) : Option Found :=
  match unpackFields lCopyt x with
  | [geo, adv, dir, item, bo, img, tag, z] =>
    let it := TileOp.ofNat item
    let c := Fin.ofNat 4 ch
    let g := Geo.ofCode geo
    match dir with
    | 0 => some ⟨z == 0, decide (geo ≤ 5),
        .copytIn (sReg t) (sReg f) c it (BitVec.ofNat 8 tag) (bit img) (Fin.ofNat 16 bo) g (bit adv)⟩
    | 1 => some ⟨z == 0 && tag == 0 && bo == 0, decide (geo ≤ 5), .copytOut (sReg t) (sReg f) c it (bit img) g (bit adv)⟩
    | 2 => some ⟨z == 0 && f == 0 && geo == 0 && img == 0, true,
        .copytXfer (sReg t) c it (TileOp.ofNat tag) (Fin.ofNat 16 bo) (bit adv)⟩
    | _ => some ⟨z == 0 && tag == 0 && bo == 0, false, .copytOut (sReg t) (sReg f) c it (bit img) g (bit adv)⟩
  | _ => none

/-- A MOVE word (R64, R218 to R222). -/
def decMove (x ch f t op : Nat) : Option Found :=
  let c := Fin.ofNat 4 ch
  match op with
  | 0x01 => match unpackFields lCopy x with
    | [geo, adv, z] => some ⟨z == 0, decide (geo ≤ 5), .copy (sReg t) (sReg f) c (Geo.ofCode geo) (bit adv)⟩
    | _ => none
  | 0x02 => decCopyt x ch f t
  | 0x03 => some ⟨f == 0 && x == 0, true, .cwait (sReg t) c⟩
  | 0x04 => some ⟨x == 0, true, .cstat (sReg t) (sReg f) c⟩
  | 0x05 => match unpackFields lPref x with
    | [tgt, len1, z] =>
      let zero := t == 0 && ch == 0 && z == 0
      match tgt with
      | 0 => some ⟨zero, true, .prefL2 (sReg f) (BitVec.ofNat 12 len1)⟩
      | 1 => some ⟨zero, true, .prefLease (sReg f) (BitVec.ofNat 12 len1)⟩
      | 2 => some ⟨zero, true, .prefDemote (sReg f) (BitVec.ofNat 12 len1)⟩
      | _ => some ⟨zero, false, .prefL2 (sReg f) (BitVec.ofNat 12 len1)⟩
    | _ => none
  | 0x06 => match unpackFields lMwait x with
    | [mbox, chans, all, z] =>
      some ⟨z == 0 && t / 8 == 0 && f == 0 && ch == 0, true, .mwait (pReg t) (bit all) (BitVec.ofNat 4 chans) (bit mbox)⟩
    | _ => none
  | _ => none

/-- The payload of a word that is not a PAIR word, by its format (R52). -/
def decPayload (isMP : Bool) (fmt payload : Nat) (lit : Option Word) : Option Found :=
  let noLit (r : Option Found) : Option Found := r.map fun x => ⟨x.zero && lit.isNone, x.ok, x.i⟩
  match fmt with
  | 1 => match unpackFields lScalar payload with
    | [imm, b, a, d, op] => decScalar imm b a d op lit
    | _ => none
  | 2 => if isMP then none else
    if payload / 2 ^ 44 < 0x10 then
      match unpackFields lVMem payload with
      | [off, vi, z, k, base, vd, op] => noLit (decVMem off vi z k base vd op)
      | _ => none
    else
      match unpackFields lVReg payload with
      | [imm, ty, fo, fi, rm, vc, vb, va, vd, op] => decVReg lit imm ty fo fi rm vc vb va vd op
      | _ => none
  | 3 => if isMP then none else
    match unpackFields lTile payload with
    | [nt, fo, fi, rm, mask, z, c, b, a, d, op] => noLit (decTile nt fo fi rm mask z c b a d op)
    | _ => none
  | 4 => match unpackFields lControl payload with
    | [off, b, a, op] => noLit (decControl isMP off b a op)
    | _ => none
  | 5 => match unpackFields lSystem payload with
    | [imm, cr, a, d, op] => noLit (decSystem isMP imm cr a d op)
    | _ => none
  | _ => if !isMP then none else
    match unpackFields lMove payload with
    | [x, ch, f, t, op] => noLit (decMove x ch f t op)
    | _ => none

/-- The verdict of checks 2, 4 and 5 on a word that is not a PAIR word. -/
def verdictOne (isMP : Bool) (hdr : Hdr) (r : Option Found) : Except Reject Line :=
  match r with
  | none => .error .illegalOp
  | some x =>
    if !(x.zero && x.i.reservedOk && !(isMP && hdr.s)) then .error (.resFld x.i)
    else if !(x.ok && x.i.fieldsOk isMP) then
      match x.i with
      | .mfc _ cr | .mtc _ cr => .error (.illegalReg cr.toNat)
      | _ => .error (.illegalFld x.i)
    else .ok ⟨hdr, .one x.i⟩

/-- The verdict of checks 2, 4 and 5 on a PAIR word, which is refused as a whole (R68). -/
def verdictPair (isMP : Bool) (hdr : Hdr) (sh vh : Option Found) : Except Reject Line :=
  if isMP then .error .illegalOp else
  match sh, vh with
  | some x, some y =>
    if !(x.zero && y.zero && x.i.reservedOk && y.i.reservedOk) then .error (.resFld x.i)
    else if !(x.ok && y.ok && x.i.fieldsOk false && y.i.fieldsOk false) then .error (.illegalFld x.i)
    else .ok ⟨hdr, .pair x.i y.i⟩
  | _, _ => .error .illegalOp

/-- Does the word say that a literal word follows (bit 52, R51)? -/
def hasLiteral (w : Word) : Bool := w.getLsbD 52

/-- The instruction of a word and its literal (R50 to R67), for a compute stream or for the MP. `lit` is the word at
the next address; it is used only where the word's L bit is 1. -/
def decode (isMP : Bool) (w lit : Word) : Except Reject Line :=
  match unpackFields lHeader w.toNat with
  | [payload, l, stall, fmt, n, g, s] =>
    let hdr : Hdr := ⟨bit s, pReg g, bit n, Fin.ofNat 8 stall⟩
    let lt : Option Word := if l = 1 then some lit else none
    match fmt with
    | 7 => .error .resFmt
    | 0 =>
      match unpackFields lPair payload with
      | [ty, fo, fi, rm, vb, va, vd, vop, z, b, a, d, sop] =>
        verdictPair isMP hdr (decScalarHalf z b a d sop lt) (decVectorHalf ty fo fi rm vb va vd vop)
      | _ => .error .illegalOp
    | f => verdictOne isMP hdr (decPayload isMP f payload lt)
  | _ => .error .illegalOp

/-! ## The encoder -/

/-- The field and the literal of an immediate (R53). -/
def Imm.field {n : Nat} : Imm n → Nat
  | .short v => v.toNat
  | .lit _ => 0
def Imm.literal {n : Nat} : Imm n → Option Word
  | .short _ => none
  | .lit v => some v

/-- The scalar half's fields zero, b, a, d, op6 and its literal. -/
def encScalarHalf : Instr → Option (List Nat × Option Word)
  | .snop => some ([0, 0, 0, 0, 0x00], none)
  | .add d a b => some ([0, b.val, a.val, d.val, 0x01], none)
  | .sub d a b => some ([0, b.val, a.val, d.val, 0x02], none)
  | .mul d a b => some ([0, b.val, a.val, d.val, 0x03], none)
  | .mulh d a b => some ([0, b.val, a.val, d.val, 0x04], none)
  | .mulhn d a b => some ([0, b.val, a.val, d.val, 0x05], none)
  | .and d a b => some ([0, b.val, a.val, d.val, 0x06], none)
  | .or d a b => some ([0, b.val, a.val, d.val, 0x07], none)
  | .xor d a b => some ([0, b.val, a.val, d.val, 0x08], none)
  | .andn d a b => some ([0, b.val, a.val, d.val, 0x09], none)
  | .shl d a b => some ([0, b.val, a.val, d.val, 0x0A], none)
  | .shr d a b => some ([0, b.val, a.val, d.val, 0x0B], none)
  | .sar d a b => some ([0, b.val, a.val, d.val, 0x0C], none)
  | .ror d a b => some ([0, b.val, a.val, d.val, 0x0D], none)
  | .min d a b => some ([0, b.val, a.val, d.val, 0x0E], none)
  | .max d a b => some ([0, b.val, a.val, d.val, 0x0F], none)
  | .minn d a b => some ([0, b.val, a.val, d.val, 0x10], none)
  | .maxn d a b => some ([0, b.val, a.val, d.val, 0x11], none)
  | .seq d a b => some ([0, b.val, a.val, d.val, 0x12], none)
  | .slt d a b => some ([0, b.val, a.val, d.val, 0x13], none)
  | .sltn d a b => some ([0, b.val, a.val, d.val, 0x14], none)
  | .clz d a => some ([0, 0, a.val, d.val, 0x15], none)
  | .popc d a => some ([0, 0, a.val, d.val, 0x16], none)
  | .mov d a => some ([0, 0, a.val, d.val, 0x17], none)
  | .addi d a y => some ([y.field % 32, y.field / 32, a.val, d.val, 0x20], y.literal)
  | .andi d a y => some ([y.field % 32, y.field / 32, a.val, d.val, 0x21], y.literal)
  | .ori d a y => some ([y.field % 32, y.field / 32, a.val, d.val, 0x22], y.literal)
  | .xori d a y => some ([y.field % 32, y.field / 32, a.val, d.val, 0x23], y.literal)
  | .shli d a y => some ([y.field % 32, y.field / 32, a.val, d.val, 0x24], y.literal)
  | .shri d a y => some ([y.field % 32, y.field / 32, a.val, d.val, 0x25], y.literal)
  | .sari d a y => some ([y.field % 32, y.field / 32, a.val, d.val, 0x26], y.literal)
  | .rori d a y => some ([y.field % 32, y.field / 32, a.val, d.val, 0x27], y.literal)
  | .slti d a y => some ([y.field % 32, y.field / 32, a.val, d.val, 0x28], y.literal)
  | .movi d y => some ([y.field % 32, y.field / 32, 0, d.val, 0x29], y.literal)
  | .peq d a b => some ([0, b.val, a.val, d.val, 0x30], none)
  | .pne d a b => some ([0, b.val, a.val, d.val, 0x31], none)
  | .plt d a b => some ([0, b.val, a.val, d.val, 0x32], none)
  | .pge d a b => some ([0, b.val, a.val, d.val, 0x33], none)
  | .pltn d a b => some ([0, b.val, a.val, d.val, 0x34], none)
  | .pgen d a b => some ([0, b.val, a.val, d.val, 0x35], none)
  | .ptst d a b => some ([0, b.val, a.val, d.val, 0x36], none)
  | .pand d a b => some ([0, b.val, a.val, d.val, 0x38], none)
  | .por d a b => some ([0, b.val, a.val, d.val, 0x39], none)
  | .pxor d a b => some ([0, b.val, a.val, d.val, 0x3A], none)
  | .pnot d a => some ([0, 0, a.val, d.val, 0x3B], none)
  | _ => none

/-- The vector half's fields type, FO, FI, RM, vb, va, vd, op6. -/
def encVectorHalf : Instr → Option (List Nat)
  | .vnop => some [0, 0, 0, 0, 0, 0, 0, 0x00]
  | .vadd vd va vb m t => some [t.toNat, m.fo.toNat, m.fi.toNat, m.rm.toNat, vb.val, va.val, vd.val, 0x01]
  | .vsub vd va vb m t => some [t.toNat, m.fo.toNat, m.fi.toNat, m.rm.toNat, vb.val, va.val, vd.val, 0x02]
  | .vmul vd va vb m t => some [t.toNat, m.fo.toNat, m.fi.toNat, m.rm.toNat, vb.val, va.val, vd.val, 0x03]
  | .vfma vd va vb m t => some [t.toNat, m.fo.toNat, m.fi.toNat, m.rm.toNat, vb.val, va.val, vd.val, 0x04]
  | .vfms vd va vb m t => some [t.toNat, m.fo.toNat, m.fi.toNat, m.rm.toNat, vb.val, va.val, vd.val, 0x05]
  | .vmin vd va vb m t => some [t.toNat, m.fo.toNat, m.fi.toNat, m.rm.toNat, vb.val, va.val, vd.val, 0x06]
  | .vmax vd va vb m t => some [t.toNat, m.fo.toNat, m.fi.toNat, m.rm.toNat, vb.val, va.val, vd.val, 0x07]
  | .vabs vd va m t => some [t.toNat, m.fo.toNat, m.fi.toNat, m.rm.toNat, 0, va.val, vd.val, 0x08]
  | .vneg vd va m t => some [t.toNat, m.fo.toNat, m.fi.toNat, m.rm.toNat, 0, va.val, vd.val, 0x09]
  | .viadd vd va vb t => some [t.toNat, 0, 0, 0, vb.val, va.val, vd.val, 0x0A]
  | .visub vd va vb t => some [t.toNat, 0, 0, 0, vb.val, va.val, vd.val, 0x0B]
  | .vimul vd va vb t => some [t.toNat, 0, 0, 0, vb.val, va.val, vd.val, 0x0C]
  | .vimin vd va vb t => some [t.toNat, 0, 0, 0, vb.val, va.val, vd.val, 0x0D]
  | .vimax vd va vb t => some [t.toNat, 0, 0, 0, vb.val, va.val, vd.val, 0x0E]
  | .vand vd va vb => some [3, 0, 0, 0, vb.val, va.val, vd.val, 0x0F]
  | .vor vd va vb => some [3, 0, 0, 0, vb.val, va.val, vd.val, 0x10]
  | .vxor vd va vb => some [3, 0, 0, 0, vb.val, va.val, vd.val, 0x11]
  | .vshl vd va vb t => some [t.toNat, 0, 0, 0, vb.val, va.val, vd.val, 0x12]
  | .vshr vd va vb t => some [t.toNat, 0, 0, 0, vb.val, va.val, vd.val, 0x13]
  | .vsar vd va vb t => some [t.toNat, 0, 0, 0, vb.val, va.val, vd.val, 0x14]
  | .vmov vd va => some [3, 0, 0, 0, 0, va.val, vd.val, 0x15]
  | .vrcp vd va m t => some [t.toNat, m.fo.toNat, m.fi.toNat, m.rm.toNat, 0, va.val, vd.val, 0x20]
  | .vrsq vd va m t => some [t.toNat, m.fo.toNat, m.fi.toNat, m.rm.toNat, 0, va.val, vd.val, 0x21]
  | .vsqrt vd va m t => some [t.toNat, m.fo.toNat, m.fi.toNat, m.rm.toNat, 0, va.val, vd.val, 0x22]
  | .vex2 vd va m t => some [t.toNat, m.fo.toNat, m.fi.toNat, m.rm.toNat, 0, va.val, vd.val, 0x23]
  | .vlg2 vd va m t => some [t.toNat, m.fo.toNat, m.fi.toNat, m.rm.toNat, 0, va.val, vd.val, 0x24]
  | .vtanh vd va m t => some [t.toNat, m.fo.toNat, m.fi.toNat, m.rm.toNat, 0, va.val, vd.val, 0x25]
  | _ => none

/-- A word that is not a PAIR word, before packing: format, layout, fields and literal. -/
structure Enc where
  fmt : Nat
  layout : List Nat
  fields : List Nat
  lit : Option Word

def encS (op d a b imm : Nat) (lit : Option Word) : Option Enc := some ⟨1, lScalar, [imm, b, a, d, op], lit⟩
def encVM (op vd base k vi : Nat) (off : BitVec 27) : Option Enc := some ⟨2, lVMem, [off.toNat, vi, 0, k, base, vd, op], none⟩
def encVR (op vd va vb vc rm fi fo ty imm : Nat) (lit : Option Word) : Option Enc :=
  some ⟨2, lVReg, [imm, ty, fo, fi, rm, vc, vb, va, vd, op], lit⟩
def encT (op d a b c z : Nat) (m : TMode) : Option Enc :=
  some ⟨3, lTile, [m.nt.toNat, m.fm.fo.toNat, m.fm.fi.toNat, m.fm.rm.toNat, m.mask.val, z, c, b, a, d, op], none⟩
def encC (op a off : Nat) : Option Enc := some ⟨4, lControl, [off, 0, a, op], none⟩
def encY (op d a cr imm : Nat) : Option Enc := some ⟨5, lSystem, [imm, cr, a, d, op], none⟩
def encM (op t f ch x : Nat) : Option Enc := some ⟨6, lMove, [x, ch, f, t, op], none⟩
/-- A TILE word's mode with every bit at zero but the mask scalar. -/
def maskOnly (m : SReg) : TMode := ⟨m, ⟨.rne, false, false⟩, false⟩

/-- The fields of a word that is not a PAIR word (R57 to R64). -/
def encOne : Instr → Option Enc
  | .div d a b => encS 0x01 d.val a.val b.val 0 none
  | .divn d a b => encS 0x02 d.val a.val b.val 0 none
  | .rem d a b => encS 0x03 d.val a.val b.val 0 none
  | .remn d a b => encS 0x04 d.val a.val b.val 0 none
  | .ld d a off => encS 0x10 d.val a.val 0 off.field off.literal
  | .st d a off => encS 0x11 d.val a.val 0 off.field off.literal
  | .lds d a off => encS 0x12 d.val a.val 0 off.field off.literal
  | .chk a => encS 0x13 0 a.val 0 0 none
  | .aadd d a b off => encS 0x18 d.val a.val b.val off.field off.literal
  | .amin d a b off => encS 0x19 d.val a.val b.val off.field off.literal
  | .amax d a b off => encS 0x1A d.val a.val b.val off.field off.literal
  | .aand d a b off => encS 0x1B d.val a.val b.val off.field off.literal
  | .aor d a b off => encS 0x1C d.val a.val b.val off.field off.literal
  | .axor d a b off => encS 0x1D d.val a.val b.val off.field off.literal
  | .aswp d a b off => encS 0x1E d.val a.val b.val off.field off.literal
  | .acas d a b off => encS 0x1F d.val a.val b.val off.field off.literal
  | .extr d a pos len1 => encS 0x20 d.val a.val 0 (packFields lExtr [pos.val, len1.val, 0]) none
  | .insr d a pos len1 => encS 0x21 d.val a.val 0 (packFields lExtr [pos.val, len1.val, 0]) none
  | .fpush a port => encS 0x30 0 a.val 0 port.val none
  | .fpop d port => encS 0x31 d.val 0 0 port.val none
  | .hset h a b => encS 0x40 h.val a.val b.val 0 none
  | .hget d h cur => encS 0x41 d.val h.val 0 cur.toNat none
  | .hadv h n => encS 0x42 h.val 0 0 n.toNat none
  | .hwait h o => encS 0x43 0 h.val 0 o.val none
  | .trel h o => encS 0x44 0 h.val 0 o.val none
  | .tvoid d h o => encS 0x45 d.val h.val 0 o.val none
  | .tgen d h o => encS 0x46 d.val h.val 0 o.val none
  | .tsetc a b => encS 0x47 0 a.val b.val 0 none
  | .vld vd base k off => encVM 0x01 vd.val base.val k.val 0 off
  | .vst vd base k off => encVM 0x02 vd.val base.val k.val 0 off
  | .vlds vd base k off => encVM 0x03 vd.val base.val k.val 0 off
  | .vchk vd => encVM 0x04 vd.val 0 0 0 0
  | .vgath vd vi base k off => encVM 0x05 vd.val base.val k.val vi.val off
  | .vscat vd vi base k off => encVM 0x06 vd.val base.val k.val vi.val off
  | .vcmp vd va vb fi t c => encVR 0x10 vd.val va.val vb.val 0 0 fi.toNat 0 t.toNat c.toNat none
  | .vsel vd va vb kc => encVR 0x11 vd.val va.val vb.val kc.val 0 0 0 3 0 none
  | .vbcst vd t (.reg s) => encVR 0x12 vd.val 0 0 0 0 0 0 t.toNat s.val none
  | .vbcst vd t (.lit v) => encVR 0x12 vd.val 0 0 0 0 0 0 t.toNat 0 (some v)
  | .vext s va t lane => encVR 0x13 0 va.val 0 0 0 0 0 t.toNat (packFields lVext [s.val, lane.val, 0]) none
  | .vidx vd t start => encVR 0x14 vd.val 0 0 0 0 0 0 t.toNat start.toNat none
  | .vperm vd va vb => encVR 0x15 vd.val va.val vb.val 0 0 0 0 3 0 none
  | .vrotm vd va kc r => encVR 0x16 vd.val va.val 0 kc.val 0 0 0 3 r.val none
  | .vcvt vd va m t code sat =>
    encVR 0x17 vd.val va.val 0 0 m.rm.toNat m.fi.toNat m.fo.toNat t.toNat (packFields lVcvt [code.val, sat.toNat, 0]) none
  | .vred vd va m t op => encVR 0x18 vd.val va.val 0 0 m.rm.toNat m.fi.toNat m.fo.toNat t.toNat op.toNat none
  | .vscan vd va m t op => encVR 0x19 vd.val va.val 0 0 m.rm.toNat m.fi.toNat m.fo.toNat t.toNat op.toNat none
  | .vtopk vd va vb t k => encVR 0x1A vd.val va.val vb.val 0 0 0 0 t.toNat k.val none
  | .vpushc va kc t s => encVR 0x1B 0 va.val 0 kc.val 0 0 0 t.toNat s.val none
  | .vpopc vd t s => encVR 0x1C vd.val 0 0 0 0 0 0 t.toNat s.val none
  | .kand d a b => encVR 0x20 d.val a.val b.val 0 0 0 0 0 0 none
  | .kor d a b => encVR 0x21 d.val a.val b.val 0 0 0 0 0 0 none
  | .kxor d a b => encVR 0x22 d.val a.val b.val 0 0 0 0 0 0 none
  | .knot d a => encVR 0x23 d.val a.val 0 0 0 0 0 0 0 none
  | .kcnt s a => encVR 0x24 0 a.val 0 0 0 0 0 0 s.val none
  | .kmovToMask d s => encVR 0x25 d.val 0 0 0 0 0 0 0 (packFields lKmov [s.val, 0, 0]) none
  | .kmovFromMask s a => encVR 0x25 0 a.val 0 0 0 0 0 0 (packFields lKmov [s.val, 1, 0]) none
  | .tzero d => encT 0x01 d.toNat 0 0 0 0 (maskOnly 0)
  | .tmov d a => encT 0x02 d.toNat a.toNat 0 0 0 (maskOnly 0)
  | .tfromv d z => encT 0x03 d.toNat 0 0 0 z.toNat (maskOnly 0)
  | .ttov a z => encT 0x04 0 a.toNat 0 0 z.toNat (maskOnly 0)
  | .tlds d c => encT 0x05 d.toNat 0 0 (8 * c.val) 0 (maskOnly 0)
  | .tsts a c => encT 0x06 0 a.toNat 0 (8 * c.val) 0 (maskOnly 0)
  | .tsta a c mask => encT 0x07 0 a.toNat 0 (8 * c.val) 0 (maskOnly mask)
  | .tgath d a c mask => encT 0x08 d.toNat a.toNat 0 (8 * c.val) 0 (maskOnly mask)
  | .tadd d a b m => encT 0x10 d.toNat a.toNat b.toNat 0 0 m
  | .tmul d a b m => encT 0x11 d.toNat a.toNat b.toNat 0 0 m
  | .tmax d a b m => encT 0x12 d.toNat a.toNat b.toNat 0 0 m
  | .tscal d a b m => encT 0x13 d.toNat a.toNat b.toNat 0 0 m
  | .ttrn d a => encT 0x18 d.toNat a.toNat 0 0 0 (maskOnly 0)
  | .tred d a m => encT 0x19 d.toNat a.toNat 0 0 0 m
  | .tacc d a c z m => encT 0x29 d.toNat a.toNat 0 c.toNat z.toNat m
  | .mmbi d a b c z m => encT 0x20 d.toNat a.toNat b.toNat c.toNat z.toNat m
  | .mmf d a b c z m => encT 0x21 d.toNat a.toNat b.toNat c.toNat z.toNat m
  | .mmf32 d a b c z m => encT 0x22 d.toNat a.toNat b.toNat c.toNat z.toNat m
  | .mmd d a b c z m => encT 0x23 d.toNat a.toNat b.toNat c.toNat z.toNat m
  | .tcvt d a tag part merge sat m =>
    encT 0x28 d.toNat a.toNat tag.toNat (packFields lOpt [sat.toNat, 0, part.val, merge.toNat, 0]) 0 m
  | .tcvtPageAppend d a tag slot sat m =>
    encT 0x28 d.toNat a.toNat tag.toNat (packFields lOpt [sat.toNat, 1, slot.val, 0, 0]) 0 m
  | .br off => encC 0x01 0 off.toNat
  | .jmp a off => encC 0x02 a.val off.toNat
  | .call off => encC 0x03 0 off.toNat
  | .ret => encC 0x04 0 0
  | .loop a off => encC 0x05 a.val off.toNat
  | .rep a => encC 0x06 a.val 0
  | .syncm mask => encC 0x08 0 mask.toNat
  | .waitt a => encC 0x09 a.val 0
  | .mark m => encC 0x0A 0 m.toNat
  | .timed a off => encC 0x0B a.val off.toNat
  | .exit => encC 0x0C 0 0
  | .mfc d cr => encY 0x01 d.val 0 cr.toNat 0
  | .mtc a cr => encY 0x02 0 a.val cr.toNat 0
  | .mtcTcmp a => encY 0x02 0 a.val 0x022 0
  | .mtcSstat a => encY 0x02 0 a.val 0x001 0
  | .trap code => encY 0x03 0 0 0 code.toNat
  | .eret => encY 0x04 0 0 0 0
  | .fenceh => encY 0x05 0 0 0 0
  | .waiti mask => encY 0x06 0 0 0 mask.toNat
  | .seed n a => encY 0x07 0 a.val 0 n.val
  | .tlbinv a scope => encY 0x10 0 a.val 0 scope.val
  | .banksv bank kind => encY 0x11 0 0 0 (packFields lBank [bank.val, kind.val, 0])
  | .bankld bank kind => encY 0x12 0 0 0 (packFields lBank [bank.val, kind.val, 0])
  | .pcmd a => encY 0x13 0 a.val 0 0
  | .copy t f ch geo adv => encM 0x01 t.val f.val ch.val (packFields lCopy [geo.toNat, adv.toNat, 0])
  | .copytIn t f ch item tag img bo geo adv =>
    encM 0x02 t.val f.val ch.val
      (packFields lCopyt [geo.toNat, adv.toNat, 0, item.toNat, bo.val, img.toNat, tag.toNat, 0])
  | .copytOut t f ch item img geo adv =>
    encM 0x02 t.val f.val ch.val (packFields lCopyt [geo.toNat, adv.toNat, 1, item.toNat, 0, img.toNat, 0, 0])
  | .copytXfer t ch item src bo adv =>
    encM 0x02 t.val 0 ch.val (packFields lCopyt [0, adv.toNat, 2, item.toNat, bo.val, 0, src.toNat, 0])
  | .cwait t ch => encM 0x03 t.val 0 ch.val 0
  | .cstat t f ch => encM 0x04 t.val f.val ch.val 0
  | .prefL2 f len1 => encM 0x05 0 f.val 0 (packFields lPref [0, len1.toNat, 0])
  | .prefLease f len1 => encM 0x05 0 f.val 0 (packFields lPref [1, len1.toNat, 0])
  | .prefDemote f len1 => encM 0x05 0 f.val 0 (packFields lPref [2, len1.toNat, 0])
  | .mwait p all chans mbox => encM 0x06 p.val 0 0 (packFields lMwait [mbox.toNat, chans.toNat, all.toNat, 0])
  | _ => none

/-- The word whose header, format and payload are given (R51). -/
def encWord (h : Hdr) (fmt payload : Nat) (l : Bool) : Word :=
  BitVec.ofNat 64 (packFields lHeader [payload, l.toNat, h.w.val, fmt, h.n.toNat, h.g.val, h.s.toNat])

/-- The word of a line and its literal; none where the line holds something that is no instruction word. -/
def encode (l : Line) : Option (Word × Option Word) :=
  match l.body with
  | .pair sh vh =>
    match encScalarHalf sh, encVectorHalf vh with
    | some (fs, lit), some fv => some (encWord l.hdr 0 (packFields lPair (fv ++ fs)) lit.isSome, lit)
    | _, _ => none
  | .one i =>
    match encOne i with
    | some e => some (encWord l.hdr e.fmt (packFields e.layout e.fields) e.lit.isSome, e.lit)
    | none => none

/-- Does this format belong to the MP alone (R65)? -/
def wordIsMove (w : Word) : Bool := w.toNat / 2 ^ 56 % 8 == 6

/-- The one instruction of a line; of a PAIR word the half that is not a no-operation. -/
def Body.instr : Body → Instr
  | .one i => i
  | .pair sh vh => if sh = .snop then (if vh = .vnop then .snop else vh) else sh

/-- The instruction the decoder reads from a word numbered as the opcode table numbers it; a MOVE word is read by the
MP, every other word by a compute stream. Bits from 64 up are the literal word. -/
def decodeTableWord (nbits w : Nat) : Option Instr :=
  let v := w % 2 ^ nbits
  let word := BitVec.ofNat 64 v
  match decode (wordIsMove word) word (BitVec.ofNat 64 (v / 2 ^ 64)) with
  | .ok l => some l.body.instr
  | .error _ => none

end Sys2Proof
end

