-- ==== Sys2Proof/Machine/Float.lean ====
section
/-! DEFINITION. Number formats and rounding (spec/02_number_formats.md R25 to R33, R47, R362). Every exact value is a
dyadic number; a result is rounded once, by `roundVal`. -/

namespace Sys2Proof.Machine

/-- The exact value (-1)^neg × m × 2^e; a zero keeps its sign (R362). -/
structure Dy where
  neg : Bool
  m : Nat
  e : Int
  deriving DecidableEq, Repr

/-- The five FCTL flags (R37). -/
structure Flags where
  nx : Bool
  uf : Bool
  of : Bool
  dz : Bool
  nv : Bool
  deriving DecidableEq, Repr

def Flags.none : Flags := ⟨false, false, false, false, false⟩
def Flags.or (a b : Flags) : Flags := ⟨a.nx || b.nx, a.uf || b.uf, a.of || b.of, a.dz || b.dz, a.nv || b.nv⟩
def Flags.invalid : Flags := ⟨false, false, false, false, true⟩
/-- An overflow or a clamp of a rounded result: OF and NX (R32). -/
def Flags.overflow : Flags := ⟨true, false, true, false, false⟩
/-- FCTL bits 12:8 as a number: NX UF OF DZ NV from bit 4 down (R37, R87). -/
def Flags.toNat (f : Flags) : Nat := 16 * f.nx.toNat + 8 * f.uf.toNat + 4 * f.of.toNat + 2 * f.dz.toNat + f.nv.toNat
def Flags.ofNat (n : Nat) : Flags :=
  ⟨n.testBit 4, n.testBit 3, n.testBit 2, n.testBit 1, n.testBit 0⟩

/-- How a format marks infinities and NaNs (R25). -/
inductive Special where
  | ieee | e4m3 | e2m1
  deriving DecidableEq, Repr

/-- A floating-point format of R25. -/
structure Fmt where
  ebits : Nat
  fbits : Nat
  bias : Nat
  special : Special
  deriving DecidableEq, Repr

def fp64 : Fmt := ⟨11, 52, 1023, .ieee⟩
def fp32 : Fmt := ⟨8, 23, 127, .ieee⟩
def fp16 : Fmt := ⟨5, 10, 15, .ieee⟩
def bf16 : Fmt := ⟨8, 7, 127, .ieee⟩
def e5m2 : Fmt := ⟨5, 2, 15, .ieee⟩
def e4m3 : Fmt := ⟨4, 3, 7, .e4m3⟩
def e2m1 : Fmt := ⟨2, 1, 1, .e2m1⟩

def Fmt.width (f : Fmt) : Nat := 1 + f.ebits + f.fbits

/-- The encoding, without the sign, of the largest finite value (R25). -/
def Fmt.maxFinite (f : Fmt) : Nat :=
  match f.special with
  | .ieee => (2 ^ f.ebits - 1) * 2 ^ f.fbits - 1
  | .e4m3 => 0x7E
  | .e2m1 => 0x7

/-- A source element: a NaN with its fraction field, an infinity, or a finite value. -/
inductive Fp where
  | nan (neg signalling : Bool) (frac : Nat)
  | inf (neg : Bool)
  | fin (d : Dy)
  deriving DecidableEq, Repr

/-- The value of an encoding after FI: with `fi`, a subnormal reads as zero of its sign (R25, R30). -/
def decodeFp (f : Fmt) (fi : Bool) (x : Nat) : Fp :=
  let neg := (x / 2 ^ (f.ebits + f.fbits)) % 2 == 1
  let ex := (x / 2 ^ f.fbits) % 2 ^ f.ebits
  let fr := x % 2 ^ f.fbits
  let top := ex == 2 ^ f.ebits - 1
  if f.special = .ieee ∧ top = true then
    if fr = 0 then .inf neg else .nan neg (decide (fr < 2 ^ (f.fbits - 1))) fr
  else if f.special = .e4m3 ∧ top = true ∧ fr = 7 then .nan neg false fr
  else if ex = 0 then .fin ⟨neg, if fi then 0 else fr, 1 - (f.bias : Int) - f.fbits⟩
  else .fin ⟨neg, 2 ^ f.fbits + fr, (ex : Int) - f.bias - f.fbits⟩

/-- A rounding mode with its random value already drawn (R31, R33). -/
inductive RMode where
  | rne | rtz | rdn | rup | rna
  | sr (rnd : Nat)
  deriving DecidableEq, Repr

def RMode.isRdn : RMode → Bool
  | .rdn => true
  | _ => false

/-- m / 2^k to an integer, and whether the result differs (R31, R33). -/
def roundShift (md : RMode) (neg : Bool) (m k : Nat) : Nat × Bool :=
  let q := m / 2 ^ k
  let r := m % 2 ^ k
  let half := 2 ^ k / 2
  let up : Bool := match md with
    | .rne => decide (half < r) || (r == half && q % 2 == 1)
    | .rtz => false
    | .rdn => neg && r != 0
    | .rup => !neg && r != 0
    | .rna => decide (half ≤ r)
    | .sr rnd => decide (65536 ≤ r * 65536 / 2 ^ k + rnd)
  if k = 0 then (m, false) else (if up && r != 0 then q + 1 else q, r != 0)

/-- The result of an overflow, encoding and flags (R32). -/
def overflowResult (f : Fmt) (md : RMode) (sat neg : Bool) : Nat × Flags :=
  let sgn := if neg then 2 ^ (f.ebits + f.fbits) else 0
  let large := sgn + f.maxFinite
  let beyond := match f.special with
    | .ieee => sgn + (2 ^ f.ebits - 1) * 2 ^ f.fbits
    | .e4m3 => sgn + 0x7F
    | .e2m1 => large
  let toLarge : Bool := match md with
    | .rtz => true
    | .rdn => !neg
    | .rup => neg
    | _ => false
  (if sat || toLarge then large else beyond, Flags.overflow)

/-- Round a finite exact value to a format, with FO and the saturating choice (R30 to R33). A result that FO flushes differs
from the value, so it sets NX with UF even where the subnormal was exact. The model's choice too: a value that rounds to zero
keeps its sign in every mode (notes/assumptions/49.md). -/
def roundFin (f : Fmt) (md : RMode) (fo sat : Bool) (d : Dy) : Nat × Flags :=
  let sgn := if d.neg then 2 ^ (f.ebits + f.fbits) else 0
  if d.m = 0 then (sgn, Flags.none) else
  let top : Int := d.e + (Nat.log2 d.m : Int)
  let ulp : Int := max top (1 - (f.bias : Int)) - f.fbits
  let (q, inexact) :=
    if ulp ≤ d.e then (d.m * 2 ^ (d.e - ulp).toNat, false) else roundShift md d.neg d.m (ulp - d.e).toNat
  let mag := (ulp + f.fbits + f.bias - 1).toNat * 2 ^ f.fbits + q
  if f.maxFinite < mag then overflowResult f md sat d.neg
  else if fo && decide (0 < mag) && decide (mag < 2 ^ f.fbits) then (sgn, ⟨true, true, false, false, false⟩)
  else (sgn + mag, ⟨inexact, inexact && decide (mag < 2 ^ f.fbits), false, false, false⟩)

/-- Round a finite exact value to an integer with ulp 1, and whether the result differs (R33, R47). -/
def roundInt (md : RMode) (d : Dy) : Int × Bool :=
  let (q, inexact) := if 0 ≤ d.e then (d.m * 2 ^ d.e.toNat, false) else roundShift md d.neg d.m (-d.e).toNat
  (if d.neg then -(q : Int) else (q : Int), inexact)

/-- A value a computation delivers before it is rounded: a propagated NaN with its quieted fraction in the source
format, a generated NaN with its cause (R27), an infinity or a finite exact value. -/
inductive Val where
  | nan (neg : Bool) (frac : Nat)
  | gen (c : Nat)
  | inf (neg : Bool)
  | fin (d : Dy)
  deriving DecidableEq, Repr

/-- The generated NaN of a cause in a format (R27). -/
def genNan (f : Fmt) (c : Nat) : Nat :=
  match f.special with
  | .ieee => (2 ^ f.ebits - 1) * 2 ^ f.fbits + 2 ^ (f.fbits - 1) + c % 2 ^ min 3 (f.fbits - 1)
  | .e4m3 => 0x7F
  | .e2m1 => 0

/-- The cause that a NaN's fraction carries in its format (R28). -/
def nanCause (f : Fmt) (frac : Nat) : Nat :=
  match f.special with
  | .ieee => frac % 2 ^ min 3 (f.fbits - 1)
  | _ => 0

/-- A NaN with its quiet bit set, in its own format, and NV if it was signalling (R28). -/
def quietVal (f : Fmt) (neg signalling : Bool) (frac : Nat) : Val × Flags :=
  (.nan neg (if signalling then frac + 2 ^ (f.fbits - 1) else frac), if signalling then Flags.invalid else Flags.none)

/-- The first NaN among the sources, in their order (R28). -/
def firstNan (f : Fmt) : List Fp → Option (Val × Flags)
  | [] => none
  | .nan n s fr :: _ => some (quietVal f n s fr)
  | _ :: r => firstNan f r

/-- Write a value of the same format (R28, R31, R32). The model's choice: an infinity written to E4M3 outside saturating mode is
an overflow of that mode (notes/assumptions/49.md). -/
def putVal (f : Fmt) (md : RMode) (fo sat : Bool) : Val → Nat × Flags
  | .nan neg frac => ((if neg then 2 ^ (f.ebits + f.fbits) else 0) + (2 ^ f.ebits - 1) * 2 ^ f.fbits + frac, Flags.none)
  | .gen c => (genNan f c, Flags.invalid)
  | .inf neg =>
    if f.special = .ieee ∧ sat = false then
      ((if neg then 2 ^ (f.ebits + f.fbits) else 0) + (2 ^ f.ebits - 1) * 2 ^ f.fbits, Flags.none)
    else overflowResult f md sat neg
  | .fin d => roundFin f md fo sat d

/-- Convert a source element of one format to another (R28, R32, R47). -/
def convertFp (src dst : Fmt) (md : RMode) (fo sat : Bool) : Fp → Nat × Flags
  | .nan neg sig frac =>
    let fl := if sig then Flags.invalid else Flags.none
    if dst.special = .e2m1 then (0, Flags.invalid)
    else if dst = src then
      let (v, fl') := quietVal src neg sig frac
      ((putVal dst md fo sat v).1, fl')
    else ((if neg then 2 ^ (dst.ebits + dst.fbits) else 0) + genNan dst (nanCause src frac), fl)
  | .inf neg => putVal dst md fo sat (.inf neg)
  | .fin d => roundFin dst md fo sat d

/-! ## Exact arithmetic -/

/-- Numerators over the common exponent. -/
def Dy.align (a b : Dy) : Int × Int × Int :=
  let e := min a.e b.e
  let n (d : Dy) : Int := (if d.neg then -1 else 1) * (d.m * 2 ^ (d.e - e).toNat : Nat)
  (n a, n b, e)

/-- The exact sum; a zero sum takes its sign by R31 and R362, and `rdn` is the effective mode RDN. -/
def Dy.add (rdn : Bool) (a b : Dy) : Dy :=
  let (x, y, e) := a.align b
  let z := x + y
  if z = 0 then ⟨if a.m = 0 ∧ b.m = 0 ∧ a.neg = b.neg then a.neg else rdn, 0, e⟩
  else ⟨decide (z < 0), z.natAbs, e⟩

def Dy.mul (a b : Dy) : Dy := ⟨a.neg != b.neg, a.m * b.m, a.e + b.e⟩
def Dy.negate (a : Dy) : Dy := { a with neg := !a.neg }
/-- a < b as real numbers. -/
def Dy.lt (a b : Dy) : Bool := let (x, y, _) := a.align b; decide (x < y)
/-- A finite integer as an exact value; zero is +0. -/
def Dy.ofInt (x : Int) : Dy := ⟨decide (x < 0), x.natAbs, 0⟩
def Dy.zero : Dy := ⟨false, 0, 0⟩
def Dy.isZero (a : Dy) : Bool := a.m == 0
/-- Multiply by 2^k. -/
def Dy.scale (a : Dy) (k : Int) : Dy := { a with e := a.e + k }

def Fp.negate : Fp → Fp
  | .nan n s f => .nan n s f
  | .inf n => .inf !n
  | .fin d => .fin d.negate

def Fp.isNan : Fp → Bool
  | .nan .. => true
  | _ => false

/-- The sum of two values none of which is a NaN (R28). -/
def sumVal (rdn : Bool) : Fp → Fp → Val
  | .inf a, .inf b => if a = b then .inf a else .gen 3
  | .inf a, _ => .inf a
  | _, .inf b => .inf b
  | .fin a, .fin b => .fin (a.add rdn b)
  | _, _ => .gen 5

/-- The product of two values none of which is a NaN (R28). -/
def mulVal : Fp → Fp → Val
  | .inf a, .inf b => .inf (a != b)
  | .inf a, .fin d => if d.m = 0 then .gen 4 else .inf (a != d.neg)
  | .fin d, .inf a => if d.m = 0 then .gen 4 else .inf (a != d.neg)
  | .fin a, .fin b => .fin (a.mul b)
  | _, _ => .gen 5

/-- A value taken back as an operand; a NaN value is not one. -/
def Val.operand : Val → Fp
  | .inf n => .inf n
  | .fin d => .fin d
  | _ => .fin Dy.zero

/-- c + a × b, exact, or an invalid operation (R28, R123). -/
def fmaVal (rdn : Bool) (a b c : Fp) : Val :=
  match mulVal a b with
  | .gen k => .gen k
  | p => sumVal rdn c p.operand

def Fp.lt : Fp → Fp → Bool
  | .inf a, .inf b => a && !b
  | .inf a, .fin _ => a
  | .fin _, .inf b => !b
  | .fin a, .fin b => a.lt b
  | _, _ => false

/-- Less, with -0 below +0 (R123). -/
def Fp.before : Fp → Fp → Bool
  | .fin a, .fin b => if a.m = 0 ∧ b.m = 0 then a.neg && !b.neg else a.lt b
  | x, y => x.lt y

def Fp.toVal : Fp → Val
  | .nan n _ f => .nan n f
  | .inf n => .inf n
  | .fin d => .fin d

def minVal (a b : Fp) : Val := if b.before a then b.toVal else a.toVal
def maxVal (a b : Fp) : Val := if a.before b then b.toVal else a.toVal

/-- An elementwise operation on sources A, B, C: NaNs by R28, else the value given. -/
def elementwise (f : Fmt) (srcs : List Fp) (v : Val) : Val × Flags :=
  match firstNan f srcs with
  | some r => r
  | none => (v, Flags.none)

/-- The integer square root of n, found bit by bit from bit k - 1 down. -/
def isqrt : Nat → Nat → Nat → Nat
  | 0, _, r => r
  | k + 1, n, r => let c := r + 2 ^ k; isqrt k n (if c * c ≤ n then c else r)

/-- The exact square root with a sticky bit: enough significant bits that no rounding mode can tell it from the root
(R126: VSQRT rounds the exact root). -/
def sqrtDy (d : Dy) : Dy :=
  let m := if d.e % 2 = 0 then d.m else d.m * 2
  let e := if d.e % 2 = 0 then d.e else d.e - 1
  let s := isqrt 160 (m * 2 ^ 256) 0
  if s * s = m * 2 ^ 256 then ⟨false, s, e / 2 - 128⟩ else ⟨false, 2 * s + 1, e / 2 - 129⟩

/-- RoundW: to a 30-bit significand with ties to even and an unbounded exponent (R126). -/
def roundW (d : Dy) : Dy :=
  if d.m = 0 then d else
  let k := Nat.log2 d.m - 29
  if Nat.log2 d.m ≤ 29 then d else ⟨d.neg, (roundShift .rne d.neg d.m k).1, d.e + k⟩

end Sys2Proof.Machine
end

