-- ==== Sys2Proof/Machine/Memory.lean ====
section
/-! DEFINITION. Byte memories with poison (spec/13_cluster_memory_and_ordering.md R238, R249; spec/08 R154): a list of
cells in one canonical form, and the sorted list of poisoned 4-byte granules. -/

namespace Sys2Proof.Machine

/-- Cells at strictly rising addresses, none holding what an unlisted address reads as. -/
abbrev Memory := List Host.Cell

/-- What an address no cell names reads as (notes/assumptions/2.md). -/
def unlisted : Byte := 0

def Memory.read : Memory → Nat → Byte
  | [], _ => unlisted
  | (k, b) :: r, a => if k = a then b else if a < k then unlisted else Memory.read r a

def Memory.write : Memory → Nat → Byte → Memory
  | [], a, b => if b = unlisted then [] else [(a, b)]
  | (k, c) :: r, a, b =>
    if k < a then (k, c) :: Memory.write r a b
    else
      let rest := if k = a then r else (k, c) :: r
      if b = unlisted then rest else (a, b) :: rest

/-- Every address of the list is above `lo`, they rise, and no cell is redundant. -/
def Memory.wfFrom : Nat → Memory → Bool
  | _, [] => true
  | lo, (k, b) :: r => decide (lo ≤ k) && b != unlisted && Memory.wfFrom (k + 1) r

/-- The canonical form. -/
def Memory.wf (m : Memory) : Bool := Memory.wfFrom 0 m

/-- A set of naturals as a strictly rising list. -/
def natInsert : List Nat → Nat → List Nat
  | [], a => [a]
  | k :: r, a => if k < a then k :: natInsert r a else if k = a then k :: r else a :: k :: r
def natErase : List Nat → Nat → List Nat
  | [], _ => []
  | k :: r, a => if k = a then r else if a < k then k :: r else k :: natErase r a
def natSetFrom : Nat → List Nat → Bool
  | _, [] => true
  | lo, k :: r => decide (lo ≤ k) && natSetFrom (k + 1) r

/-- A memory with its poisoned granules (granule g covers addresses 4g to 4g + 3). -/
structure Store where
  cells : Memory
  poison : List Nat
  deriving DecidableEq, Repr

def Store.empty : Store := ⟨[], []⟩
def Store.wf (m : Store) : Bool := m.cells.wf && natSetFrom 0 m.poison

def Store.byte (m : Store) (a : Nat) : Byte := m.cells.read a
def Store.setByte (m : Store) (a : Nat) (b : Byte) : Store := { m with cells := m.cells.write a b }
def Store.granule (m : Store) (g : Nat) : Bool := m.poison.contains g
def Store.setGranule (m : Store) (g : Nat) (p : Bool) : Store :=
  { m with poison := if p then natInsert m.poison g else natErase m.poison g }

/-- `n` bytes from `a` as a little-endian number (R22). -/
def Store.readLE (m : Store) (a : Nat) : Nat → Nat
  | 0 => 0
  | n + 1 => (m.byte a).toNat + 256 * m.readLE (a + 1) n

/-- Write the low `n` bytes of `v` from `a`, little-endian. -/
def Store.writeLE (m : Store) (a : Nat) : Nat → Nat → Store
  | 0, _ => m
  | n + 1, v => (m.setByte a (BitVec.ofNat 8 v)).writeLE (a + 1) n (v / 256)

/-- Is a granule of the `n` granules from `g` poisoned? -/
def Store.anyPoison (m : Store) (g : Nat) : Nat → Bool
  | 0 => false
  | n + 1 => m.granule g || m.anyPoison (g + 1) n

def Store.setGranules (m : Store) (g : Nat) (p : Bool) : Nat → Store
  | 0 => m
  | n + 1 => (m.setGranule g p).setGranules (g + 1) p n

/-- A write of `n` granules: bytes and one poison bit for all (R249). -/
def Store.writeWords (m : Store) (a n v : Nat) (p : Bool) : Store :=
  (m.writeLE a (4 * n) v).setGranules (a / 4) p n

/-- Write one byte that is not poisoned (R249). -/
def Store.writeByte (m : Store) (a : Nat) (b : Byte) : Store := (m.setByte a b).setGranule (a / 4) false

/-- Write `n` bytes of a memory from its byte `i` on, at `a + i` on, none poisoned. -/
def Store.copyIn (m : Store) (a : Nat) (x : Memory) : Nat → Nat → Store
  | 0, _ => m
  | n + 1, i => (m.writeByte (a + i) (x.read i)).copyIn a x n (i + 1)

/-- Write 4-byte lanes where the mask has a 1; lane i at a + 4i (R130). -/
def Store.writeLanes (m : Store) (a : Nat) (mask v : Nat) (p : Bool) : Nat → Nat → Store
  | 0, _ => m
  | n + 1, i =>
    let m' := if mask.testBit i then m.writeWords (a + 4 * i) 1 (v / 2 ^ (32 * i)) p else m
    m'.writeLanes a mask v p n (i + 1)

/-- Is an enabled lane's granule poisoned (R130)? -/
def Store.lanesPoison (m : Store) (a : Nat) (mask : Nat) : Nat → Nat → Bool
  | 0, _ => false
  | n + 1, i => (mask.testBit i && m.granule (a / 4 + i)) || m.lanesPoison a mask n (i + 1)

end Sys2Proof.Machine
end

