-- ==== Sys2Proof/Machine/State.lean ====
section
/-! DEFINITION. The machine's state as plain data, and its value at power-on. The rule that names each piece is cited at
its field; the values at reset are those of INVENTORY.md. -/

namespace Sys2Proof.Machine

/-- Why a step stops the model. -/
inductive Fault where
  /-- Raised by every step of a package without power (R361): the hardware does nothing either. Safe. -/
  | unpowered
  deriving DecidableEq, Repr

/-- Instructions the model gives no meaning. -/
inductive Refusal where
  /-- Raised by an arm of Dispatch for an instruction not modelled yet. Safe. -/
  | notModelled (mnemonic : String)
  deriving DecidableEq, Repr

/-! ## A stream's state (R70, R71) -/

/-- A register that a word can write with a latency or a pending mark (R70). -/
inductive RegName where
  | s (n : SReg) | v (n : VReg) | p (n : PReg) | k (n : KReg)
  deriving DecidableEq, Repr

/-- A result latch: the result and the stream cycle from which it is visible (R70, R76). -/
structure Latch where
  reg : RegName
  val : VWord
  tag : Nat
  flags : Flags
  poison : Bool
  deriving DecidableEq, Repr

/-- A result performed or computed and not yet delivered (R90); `lanes` are the lanes it writes. -/
structure Result where
  reg : RegName
  val : VWord
  lanes : Word
  poison : Bool
  deriving DecidableEq, Repr

/-- A handle (R159). -/
structure Handle where
  cls : BitVec 2
  base : BitVec 9
  len1 : BitVec 6
  q : BitVec 4
  core : BitVec 10
  s : BitVec 6
  e : BitVec 16
  deriving DecidableEq, Repr

/-- Where a translated access goes: the block's own scratchpad, the launch's program text, or a physical address; `lease` is
an agent's load from a LEASE page of device DRAM (R241). Offsets past the block's own text are offsets of the slot image, which
its other text maps name (R364). -/
inductive Loc where
  | pad (off : Nat)
  | text (va : Nat)
  | phys (pa : Nat)
  | lease (pa : Nat)
  deriving DecidableEq, Repr

/-- What a Perform move does (R90). -/
inductive AccessKind where
  | load (d : SReg)
  | store (v : Word) (poison : Bool)
  | atomic (op : AtomOp) (d : SReg) (y cmp : Word) (yPoison cmpPoison : Bool)
  | vload (d : VReg) (mask : Word) (old : Bool)
  | vstore (v : VWord) (mask : Word) (poison : Bool)
  | rows (v : BitVec 18432)
  /-- The image of a generation whose data is still being produced (R164). -/
  | rowsLate (r : Nat) (x : BitVec 16)
  | push (port : Fin 4) (v : Word)
  | pop (port : Fin 4) (d : SReg)
  deriving DecidableEq, Repr

/-- One access of an agent that has issued and not performed (R90). -/
structure Access where
  kind : AccessKind
  loc : Loc
  deriving DecidableEq, Repr

/-- Why an address is translated (R235). -/
inductive Use where
  | fetch | load | store | atomic
  deriving DecidableEq, Repr

/-- A cached translation (R236): the page's number and size in 4 KiB pages, the first frame, the leaf's bits. -/
structure TlbEntry where
  part : Nat
  vpn : Nat
  pages : Nat
  frame : Nat
  bits : Word
  deriving DecidableEq, Repr

/-- What the last entry of a walk gave (R235). -/
inductive WalkEnd where
  | leaf (e : TlbEntry)
  | page
  deriving DecidableEq, Repr

/-- A page walk in progress (R234, R236): what it translates, the level and address of the next entry, the access that
waits for it with its destination, and the word it belongs to. `spec` marks LDS and VLDS. While the agent holds a trap
not yet entered, the word has already passed (R89). -/
structure Walk where
  va : Word
  use : Use
  level : Nat
  table : Nat
  found : Option WalkEnd
  access : Option Access
  reg : Option RegName
  spec : Bool
  pc : Word
  w : Nat
  next : Word
  rep : Bool
  deriving DecidableEq, Repr

/-- A page that a copy, a hint or an engine walks from a root, entry by entry, for a step of its own (R234, R236). -/
structure EngWalk where
  part : Nat
  va : Word
  level : Nat
  table : Nat
  found : Option WalkEnd
  root : Nat
  deriving DecidableEq, Repr

/-! ## Items (R151, R153, R164) -/

/-- The metadata word of a tile register or accumulator (R151). -/
structure Meta where
  wc : BitVec 16
  q : BitVec 4
  rc : BitVec 4
  void : Bool
  poison : Bool
  tag : BitVec 8
  deriving DecidableEq, Repr

/-- A tile register. `filling` tells that the data of its generation is still being produced: by a TLDS or TGATH that has
not completed its last unit (R175), or by a word that waits for such data (R164). `edited` holds the V and P that its move
gave, where TSETC has written the metadata since (R181). -/
structure Tile where
  md : Meta
  data : TileData
  side : SideBand
  filling : Bool
  edited : Option (Bool × Bool)
  deriving DecidableEq, Repr

/-- An accumulator (R153). `filling` tells that its data is still being produced (R164, R185), `edited` is as for a tile. -/
structure Accum where
  md : Meta
  data : AccData
  filling : Bool
  edited : Option (Bool × Bool)
  deriving DecidableEq, Repr

/-- An operand as resolved: its register number (R164), generation and quota. -/
structure Opnd where
  r : Nat
  x : BitVec 16
  q : BitVec 4
  deriving DecidableEq, Repr

/-- The items a TILE word reads, in the order A, B, C, and the one it writes. -/
structure Items where
  src : List Opnd
  dst : Option Opnd
  deriving DecidableEq, Repr

/-- A long instruction, or VSCAT, in progress or stopped between units (R132, R175): what it resolved and captured at
its issue, the unit it takes next, and where its first unit goes, translated before the tile issue move. `begun` tells that a unit
has completed, `tile` is what a TLDS or TGATH has brought so far. -/
structure Long where
  pc : Word
  next : Word
  w : Nat
  rep : Bool
  i : Instr
  unit : Nat
  last : Nat
  base : Word
  stride : Nat
  enables : Nat
  cols : Nat
  reg : Nat
  gen : BitVec 16
  idx : BitVec 16384
  data : BitVec 65536
  tag : BitVec 8
  mask : Word
  poison : Bool
  advance : List HReg
  first : Option (Loc × Loc)
  begun : Bool
  tile : Tile
  deriving DecidableEq, Repr

/-- A trap raised and not yet entered (R86), with the shadow fault found meanwhile (R89). -/
structure TrapRec where
  code : BitVec 8
  isAsync : Bool
  epc : Word
  tval : Word
  rep : Nat
  deriving DecidableEq, Repr

/-- The record of a shadow-faulted load (R89). -/
structure Shadow where
  pc : Word
  va : Word
  code : BitVec 8
  w : Nat
  rep : Bool
  deriving DecidableEq, Repr

/-- A TILE word that stands at issue until its unit can accept it (R185): the block, the stream, the unit and the word. -/
structure Waiter where
  block : Nat
  agent : Nat
  matrix : Bool
  pc : Word
  deriving DecidableEq, Repr

/-- The report of a NaN that an NT word waits to raise (R186): NCOORD, NIDX, NFMT, TVAL and EPC. -/
structure NanReport where
  coord : Word
  idx : Word
  fmt : Word
  tval : Word
  epc : Word
  deriving DecidableEq, Repr

/-- What keeps an agent from issuing, beyond the conditions of R74. -/
inductive RunState where
  /-- The agent may issue. -/
  | running
  /-- The image gives the agent no program (R111). -/
  | noProgram
  /-- It executed EXIT (R111). -/
  | exited
  /-- A double trap, a core fault or a trap with TVEC = 0 stopped it (R86, R176, R337). -/
  | halted
  /-- The MP raised a trap (R206). -/
  | mpStopped
  deriving DecidableEq, Repr

/-- TSLIP (R287) and the bounds of the open region (R285). -/
structure Tslip where
  limit : BitVec 16
  last : BitVec 16
  cur : BitVec 16
  scount : BitVec 8
  freq : Bool
  late : Bool
  trapd : Bool
  slipped : Bool
  region : Option (Word × Word)
  due : Option (BitVec 16)
  deriving DecidableEq, Repr

/-- The per-stream control registers (R71, R73, R37, R34, R85, R87, R175, R186, R205). -/
structure Ctl where
  imask : BitVec 8
  vs : Bool
  inh : Bool
  ie : Bool
  pm : Bool
  flags : Flags
  rm : BitVec 3
  syncmsk : BitVec 4
  prog : BitVec 16
  gseed : Vector Word 2
  gctr : Vector Word 2
  tcause : BitVec 10
  epc : Word
  tval : Word
  tframe : BitVec 9
  tvec : Word
  ncoord : Word
  nidx : Word
  nfmt : Word
  tslip : Tslip
  tcmp : Word
  armed : Bool
  line0 : Bool
  line5 : Bool
  line6 : Bool
  mptxid : Word
  deriving DecidableEq, Repr

/-- One agent of a block: a compute stream or the MP (R70, R203). `stopped` is the long instruction that the stream left at a
unit boundary with SSTAT.INH = 0, `stoppedIn` the one a handler left with INH = 1 (R175). `spoiled` is the item of a check
operation that came to be poisoned after the operation's move (R167, notes/assumptions/66.md). -/
structure Agent where
  run : RunState
  pc : Word
  s : Vector Word 32
  v : Vector VWord 16
  p : Vector Bool 8
  k : Vector Word 8
  sPoison : BitVec 32
  vPoison : BitVec 16
  pPoison : BitVec 8
  kPoison : BitVec 8
  pend : List RegName
  h : Vector Handle 32
  latches : List Latch
  cyc : Nat
  accs : List Access
  ready : List Result
  walk : Option Walk
  long : Option Long
  stopped : Option Long
  stoppedIn : Option Long
  rep : Option Nat
  wait : BitVec 8
  trap : Option TrapRec
  shadow : Option Shadow
  nan : Option NanReport
  spoiled : Option Nat
  started : Bool
  ctl : Ctl
  deriving DecidableEq, Repr

/-! ## A block's state (R4, R151 to R154, R103, R203, R215) -/

/-- The content of a generation: a tile, or an accumulator with the next one, its partner in a pair. -/
inductive Content where
  | tile (t : Tile)
  | acc (a b : Accum)
  deriving DecidableEq, Repr

/-- An item that a word has been admitted to read: what it holds, as far as it is produced (R164). -/
structure Source where
  reg : Nat
  gen : BitVec 16
  waits : Bool
  val : Content
  deriving DecidableEq, Repr

/-- A TILE word that has taken its move and waits for the data of an item it reads (R164, R185): what it captured at its
issue, the previous content of its destination, whether it holds its stream until it is complete (R186), whether it is
void already, the EPC of its NaN report, and the TSTA that begins once the data has come (R190). -/
structure Work where
  agent : Nat
  i : Instr
  mask : Word
  items : Items
  ctl : Ctl
  srcs : List Source
  prev : Source
  hold : Bool
  void : Bool
  epc : Word
  long : Option Long
  deriving DecidableEq, Repr

/-- An engine port (R103): the FIFOs, and how many elements FPOPs have claimed and FPUSHes have reserved. -/
structure Port where
  cmd : List Word
  res : List (Word × Bool)
  cmdClaims : Nat
  resClaims : Nat
  cmdSlots : Nat
  resSlots : Nat
  deriving DecidableEq, Repr

/-- An item operand as resolved at issue (R23, R214). -/
structure ItemRef where
  cls : BitVec 2
  t : Nat
  x : BitVec 16
  q : BitVec 4
  core : BitVec 10
  deriving DecidableEq, Repr

/-- The fields of a copy descriptor (R207). -/
structure Desc where
  src : Word
  dst : Word
  len : Nat
  ny : Nat
  nz : Nat
  sy : Int
  sz : Int
  dy : Int
  dz : Int
  param : Word
  param2 : Word
  deriving DecidableEq, Repr

/-- What a transfer copies from and to (R208, R213, R214). -/
inductive CopyForm where
  | mem (geo : Geo)
  | toItem (geo : Geo) (item : ItemRef) (tag : BitVec 8) (img : Bool)
  | fromItem (geo : Geo) (item : ItemRef) (img : Bool)
  | xfer (src item : ItemRef)
  deriving DecidableEq, Repr

/-- How far a transfer is: under way, held behind a fault, stopped by a fault, completed, completed from a void source, or
completed with a cause (R215, R217, R223). -/
inductive Progress where
  | active | held
  | faulted (cause : BitVec 8)
  | done | fromVoid
  | ended (cause : BitVec 8)
  deriving DecidableEq, Repr

/-- A transfer of a copy channel, outstanding or in the status window (R215 to R217, R224). Byte sets are the bits of a
number, bit n for order number n (R208): `got` read, `put` written, `pois` read from a poisoned granule, `mirrored`
written at the first of two places (R296). `handles` and `pages` hold, by row, the handle read and the page and mirror
that its check gave (R212, R295). `order` is the transfer's place in the issue order of its block (R217). `src` is the item it has been admitted to read
(R170). `again` are the bytes that a poisoned granule sends to the mirror, `second` the rows whose entry is read from TBL2
(R296, R298). `walk` is the translation under way for the next data move (R236). -/
structure Transfer where
  id : BitVec 32
  st : Progress
  pads : Nat
  token : Option SReg
  form : CopyForm
  off : Bool
  desc : Desc
  size : Nat
  buf : Memory
  got : Nat
  put : Nat
  pois : Nat
  mirrored : Nat
  handles : List (Nat × Word)
  pages : List (Nat × (Word × Option Word))
  counted : Bool
  src : Option Source
  srcDone : Bool
  srcVoid : Bool
  srcPoison : Bool
  tag : BitVec 8
  bo : Nat
  tval : Word
  order : Nat
  again : Nat
  second : List Nat
  walk : Option EngWalk
  deriving DecidableEq, Repr

/-- A copy channel (R215, R224): the next id, the transfers of the window, oldest first, and the tick of a resend. -/
structure Chan where
  next : BitVec 32
  xfers : List Transfer
  resendAt : Option Nat
  deriving DecidableEq, Repr

/-- MIGCTL (R303); AWAY and CUR are computed. -/
structure MigCtl where
  lcore : BitVec 10
  mcnt : BitVec 16
  homec : Bool
  wait : Bool
  hb : Bool
  pin : Bool
  deriving DecidableEq, Repr

/-- What a replay resumes from (R334): the agents, ports, channels, registers and timetable counters of a block at its
last boundary, whose tick is `tick`. `tiles` and `pad` hold what the image wrote (R365) in the first record, and nothing in a later one. -/
structure Replay where
  agents : Vector Agent 5
  ports : Vector Port 4
  chans : Vector Chan 5
  mig : MigCtl
  reloc : Vector Word 16
  ttF : List Nat
  ttC : List Nat
  tiles : List (Nat × Tile)
  pad : Store
  tick : Word
  deriving DecidableEq, Repr

/-- Where a block stands (R172, R173, R306, R336). -/
inductive BlockStatus where
  /-- It runs on its core. -/
  | running
  /-- Pre-empted; its context waits on its core (R173). -/
  | suspended
  /-- Stopped at its operator boundary, until its sliced partition's next slice (R335). -/
  | sliced
  /-- A core fault, an MP stop or a trap with TVEC = 0 stopped it until a replay (R336). -/
  | failed
  /-- Every agent has executed EXIT (R111), or a reset has removed it (R341). -/
  | ended
  deriving DecidableEq, Repr

/-- A block: an instance of a stage of a launch, with everything that belongs to it (R203, R173, R306). Tile registers
and accumulators not listed are in launch state (R152). `ttF` and `ttC` are the counters of R276 by entry. Channel 4 of
`chans` holds Umber's moves for the block (R278). `isa` is the feature mask of its launch (R331, R340). `copies` counts the copies issued.
`textFrames` are the two frames of each page of the text (R321, R364). `works` are the words that wait for data (R164). While the block is to
migrate, `trigger` is the stream whose word asked for the move, `migChecked` tells that the check of R308 has been made,
and `faultCore` is the core in whose service the block failed. The `saved` fields are the save area's copies of banks (R119, R172). -/
structure Block where
  launch : Nat
  stage : Nat
  inst : Nat
  part : Nat
  tenant : BitVec 8
  isa : Word
  prio : Nat
  core : Nat
  slot : Nat
  status : BlockStatus
  placed : Nat
  suspended : Nat
  agents : Vector Agent 5
  tiles : List (Nat × Tile)
  accs : List (Nat × Accum)
  pad : Store
  sprows : Nat
  ports : Vector Port 4
  chans : Vector Chan 5
  mig : MigCtl
  reloc : Vector Word 16
  textVa : Word
  textSize : Nat
  text : Memory
  textFrames : List (Nat × Nat)
  startTick : Option Word
  ttF : List Nat
  ttC : List Nat
  replay : Option Replay
  replaying : Bool
  failures : Nat
  claimed : List Word
  copies : Nat
  migrating : Option Nat
  trigger : Option Nat
  migChecked : Bool
  faultCore : Option Nat
  works : List Work
  savedTiles : List (Nat × List (Nat × Tile))
  savedAccs : List (Nat × List (Nat × Accum))
  savedVecs : List (Nat × (Vector VWord 16 × BitVec 16))
  deriving DecidableEq, Repr

/-! ## Cores (R155 to R158, R185, R236, R241, R309) -/

/-- The word a unit of the core is busy with, and what its completion delivers (R185, R186): whose word it is, the
registers of its items, the flags, the vector results of TTOV, and the NaN report of a word with NT = 1, which holds the stream (`hold`). -/
structure Job where
  block : Nat
  agent : Nat
  regs : List Nat
  flags : Flags
  results : List Result
  hold : Bool
  report : Option NanReport
  deriving DecidableEq, Repr

/-- A line that a lease cache holds (R241): what its home gave, the poison bits of its granules, and the tick of the grant. -/
structure Lease where
  line : Nat
  data : BitVec 512
  pois : BitVec 16
  since : Word
  deriving DecidableEq, Repr

/-- What a hint does with its range (R221), or a release of Umber's holds (R275). -/
inductive HintKind where
  | l2 | lease | demote | release
  deriving DecidableEq, Repr

/-- A hint that waits for the translations of its range, of `count` pieces of `size` bytes, or for its lines; `taken` counts the
lines that have entered the lease cache. -/
structure Hint where
  block : Nat
  kind : HintKind
  va : Word
  size : Nat
  count : Nat
  taken : Nat
  walk : Option EngWalk
  deriving DecidableEq, Repr

/-- A forwarding record (R309). -/
structure Forward where
  launch : Nat
  block : Nat
  core : Nat
  deriving DecidableEq, Repr

/-- A core. Bit 0 of a bank list is bank 0; the owners are context slots (R157). `waiters` are the words that wait for a unit,
in the order in which they came to wait (R185). -/
structure Core where
  cecnt : BitVec 16
  fcode : BitVec 8
  ctxv : BitVec 4
  ctx : BitVec 2
  live : BitVec 20
  vown : BitVec 8
  aown : BitVec 16
  town : BitVec 16
  hdrop : BitVec 32
  slots : Vector (Option Nat) 4
  matrix : Option Job
  tile : Option Job
  waiters : List Waiter
  tlb : List TlbEntry
  leases : List Lease
  hints : List Hint
  forwards : List Forward
  out : Bool
  deriving DecidableEq, Repr

/-! ## Launches, stages and grids (R252 to R268, R272 to R276, R299 to R301, R317) -/

/-- A timetable entry (R274). -/
structure TtEntry where
  trig : Nat
  need : Nat
  stream : Nat
  kind : Nat
  rsrc : Option (Fin 16)
  rdst : Option (Fin 16)
  len : Nat
  src : Word
  dst : Word
  sstep : Word
  dstep : Word
  deriving DecidableEq, Repr

/-- An output of a coverage record (R264). -/
structure CovOut where
  base : Word
  sx : Word
  sy : Word
  sz : Word
  rs : Word
  pr : Nat
  pe : Nat
  tag : BitVec 8
  deriving DecidableEq, Repr

/-- A coverage record (R264). -/
structure CovRec where
  code : BitVec 8
  fstart : BitVec 8
  inherit : Bool
  seed : Word
  outs : List CovOut
  deriving DecidableEq, Repr

/-- A point handed out (R258, R260, R267): its hand-out index, point value, the block it went to, whether it has been
reported, and the error measured at an audit point (FP64 bits). -/
structure Handed where
  idx : Nat
  point : Word
  block : Nat
  reported : Bool
  error : Option Nat
  deriving DecidableEq, Repr

/-- A fill on its way (R261): how many of its Data reads are made and the bytes that they have read, how many of its Data writes
are made, and whether an error in the unit's buffer poisons what it writes (R270). -/
structure Fill where
  pidx : Nat
  reads : Nat
  got : List (Word × Byte × Bool)
  puts : Nat
  bad : Bool
  deriving DecidableEq, Repr

/-- The walker's and the reconstruction unit's state for one stage with a grid (R258, R261, R268). -/
structure Walker where
  gx : Nat
  gy : Nat
  gz : Nat
  pidx : Nat
  idx : Nat
  returned : List (Nat × Word)
  handed : List Handed
  filled : List Nat
  filling : List Fill
  fstart : Nat
  updates : List Nat
  planes : List Nat
  deriving DecidableEq, Repr

/-- A section of a block image (R365). -/
structure Section where
  kind : Nat
  agent : Nat
  num : Nat
  addr : Word
  size : Nat
  off : Nat
  info : Word
  deriving DecidableEq, Repr

/-- A stage of a launch (R252, R363). -/
structure Stage where
  prog : Nat
  minInst : Nat
  maxInst : Nat
  prio : Nat
  home : Nat
  sprows : Nat
  inRing : Word
  outRing : Word
  walker : Option Walker
  cov : Option CovRec
  tt : List TtEntry
  agents : BitVec 8
  textVa : Word
  textOff : Nat
  textSize : Nat
  entry : Vector Word 5
  sections : List Section
  started : Bool
  finished : Bool
  closed : Bool
  placed : Nat
  deriving DecidableEq, Repr

/-- A launch (R317, R320, R323). `bucket` is the stage, the record and RELOC15 of R300. -/
structure Launch where
  part : Nat
  fn : Nat
  q : Nat
  seq : BitVec 32
  slot : Nat
  tenant : BitVec 8
  isa : Word
  sig : Bool
  sigAddr : Word
  sigVal : Word
  statAddr : Word
  tick : Option Word
  stages : List Stage
  reloc : Vector Word 16
  bucket : Option (Nat × Nat × Word)
  limit : BitVec 16
  lnum : Nat
  covctl : Word
  late : Nat
  badrep : Nat
  slips : Nat
  frac : Nat
  tstart : Option Word
  deriving DecidableEq, Repr

/-- A request for a core: an instance of a stage, or a block that waits to migrate (R254, R256, R304). `made` grows from one
request or suspension to the next (R256, R257). -/
structure Request where
  part : Nat
  launch : Nat
  stage : Nat
  prio : Nat
  block : Option Nat
  made : Nat
  deriving DecidableEq, Repr

/-! ## Partitions, slots and queues (R293, R316 to R321, R326 to R333) -/

inductive SlotStatus where
  | empty | loading | resident | evicting
  deriving DecidableEq, Repr

/-- What a packet's completion writes (R323). -/
structure Completion where
  part : Nat
  fn : Nat
  q : Nat
  seq : BitVec 32
  statAddr : Word
  sig : Bool
  sigAddr : Word
  sigVal : Word
  status : Nat
  late : Nat
  badrep : Nat
  slips : Nat
  frac : Nat
  tstart : Word
  tend : Word
  deriving DecidableEq, Repr

/-- A text map: addresses from `va` on name the slot image from `off` on (R364). -/
structure TextMap where
  va : Word
  size : Nat
  off : Nat
  deriving DecidableEq, Repr

/-- A slot (R319 to R321, R267, R268, R364). `owners` are the completions of the LOAD or the EVICTs in progress on it, `evicts`
those of EVICTs taken while it loads; `image` is what its frames hold, `frames` the addresses of the two frames of each page,
and `maps` are the text maps of the block images that its launches have named. -/
structure Slot where
  st : SlotStatus
  owners : List Completion
  evicts : List Completion
  size : Nat
  nbuf : Nat
  buckets : Bool
  bkt : Nat
  image : Memory
  frames : List (Nat × Nat)
  maps : List TextMap
  lnum : Nat
  fracs : List (Nat × Nat)
  deriving DecidableEq, Repr

/-- The header of an installed handle table (R293). -/
structure HandleTable where
  addr : Word
  pool : Word
  mpool : Word
  nent : Nat
  nframe : Nat
  flog : Nat
  tbl2 : Word
  deriving DecidableEq, Repr

/-- A host window (R326). -/
structure Window where
  base : Word
  limit : Word
  lock : Bool
  deriving DecidableEq, Repr

/-- The quotas of a SETQUOTA that have not taken effect yet (R340): the tick from which they do where the partition is not
sliced, and the command that waits for it. -/
structure Quota where
  tweight : Nat
  chrate : Nat
  links : BitVec 16
  linkrate : Nat
  due : Option Word
  report : Nat × Word
  deriving DecidableEq, Repr

/-- A partition (R327 to R333). `stoppedAt` is the tick of the last operator boundary at which its slice stopped a block,
`weldAt` that of Weld's last evaluation (R254). -/
structure Partition where
  id : Nat
  level : Nat
  parent : Nat
  sliced : Bool
  offline : Nat
  clusters : List Nat
  ranges : List (Nat × Nat)
  isa : Word
  priv : Bool
  ttroot : BitVec 40
  capb : Word
  covctl : Word
  table : Option HandleTable
  chrate : Nat
  links : BitVec 16
  linkrate : Nat
  tweight : Nat
  quota : Option Quota
  active : Bool
  overshoot : Nat
  sliceEnd : Option Word
  stoppedAt : Option Word
  weldAt : Option Word
  weldOpen : Bool
  slots : List (Nat × Slot)
  windows : Vector Window 16
  deriving DecidableEq, Repr

/-- A queue (R316, R318). -/
structure Queue where
  base : Word
  tenant : BitVec 8
  log2 : Nat
  loc : Bool
  en : Bool
  done : BitVec 32
  errCode : BitVec 8
  errSeq : BitVec 32
  k : BitVec 32
  n : BitVec 32
  since : Option Word
  matched : Bool
  deriving DecidableEq, Repr

/-- A command that a PCMD has passed to the partition controller (R339). -/
structure Pcmd where
  part : Nat
  va : Word
  deriving DecidableEq, Repr

/-- A rung of the reset ladder, under way or waiting for one on its scope (R341, R342). `by_` are the functions that asked
for it, and `report` is the DESTROY command that waits for it. -/
structure Rung where
  n : Nat
  part : Nat
  fn : Nat
  q : Nat
  launch : Option Nat
  since : Word
  begun : Bool
  by_ : List Nat
  report : Option Pcmd
  deriving DecidableEq, Repr

/-! ## Fabric, power and bring-up (R344 to R361) -/

/-- A link end (R345): its replay buffer holds each flit with the LINKS bitmap of its sender (R332, R346). `hops` counts the links to package 0
on the path that begins there, and `delay` is the link's (R349). -/
structure Link where
  up : Bool
  down : Bool
  retraining : Bool
  txSeq : BitVec 12
  rxSeq : BitVec 12
  buffer : List (Flit × BitVec 16)
  resends : Nat
  fails : Nat
  errors : Nat
  hops : Nat
  delay : Nat
  deriving DecidableEq, Repr

/-- An entry of the export table (R347). -/
structure Export where
  srcPkg : Nat
  srcPart : Nat
  dstPart : Nat
  w : Bool
  base : Word
  limit : Word
  deriving DecidableEq, Repr

/-- A member's command that the collective engine holds (R350, R352). `remote` is the package and the input of a member of
another package, `ranks` the package and core of every rank as the group record gave them. -/
structure Member where
  block : Nat
  part : Nat
  op : Nat
  ty : Nat
  tag : BitVec 32
  group : Word
  count : Nat
  src : Word
  dst : Word
  tick : Word
  rank : Nat
  nmem : Nat
  arrived : Word
  started : Bool
  remote : Option (Nat × List Byte)
  ranks : List (Nat × Nat)
  deriving DecidableEq, Repr

/-- A voltage and frequency island (R358, R359): its step (0 is 2.0 GHz, 3 is 3.3 GHz), windows above its cap, windows
below 90 % of it, a change held by the deferral of R291 with its tick, and the tick of its last throttle (R360). `heat` marks
a deferred change that a throttle asked for, `idles` that the matrix datapaths run with idle cycles; `power` and `temp` are
the last sensor values (R361). -/
structure Island where
  step : Fin 4
  above : Nat
  below : Nat
  deferred : Option (Fin 4 × Word)
  heatAt : Option Word
  heat : Bool
  idles : Bool
  power : Nat
  temp : Nat
  deriving DecidableEq, Repr

/-- DSTAT and what the bring-up sequencer holds (R354, R357); `began` is the tick at which the phase in progress began. -/
structure Device where
  power : Bool
  cause : BitVec 8
  failph : BitVec 8
  phase : BitVec 8
  ready : Bool
  second : Bool
  stuck : Bool
  began : Word
  deriving DecidableEq, Repr

/-- What leaves the package and no state holds: answers to the host and to management, poison indications, trace events
of Weld, flits (R246, R304, R345, R348, R361). -/
inductive Out where
  | hostData (pa : Nat) (data : List Byte) (poison : Bool)
  | unsupported (pa : Nat)
  | migrated (block src dst : Nat)
  | flit (link : Nat) (f : Flit)
  | remote (refused : Bool) (data : List Byte) (poison : Nat)
  | barData (fn off : Nat) (v : Word)
  | pubKey (key : List Byte)
  | pldm (v : Nat)
  | spdm (v : Nat)
  deriving DecidableEq, Repr

/-- What reaches the machine beside the events of spec/opcode_table.json: what the environment does, and the chance of the
hardware. -/
inductive Input where
  /-- The count of a die passes ticks of its own (R281). -/
  | skew (die : Fin 8) (n : Nat)
  /-- An uncorrectable error in the data of tile register r, or of accumulator r - 512, of a block (R166, R176). -/
  | itemError (b r : Nat)
  /-- One in a granule of a block's scratchpad (R176). -/
  | padError (b granule : Nat)
  /-- One in the granule with byte n of the data that a move carries (R292). -/
  | moveError (b : Nat) (ch : Fin 5) (id n : Nat)
  /-- One in the handle-table unit's state for a transfer's row (R298). -/
  | handleError (b : Nat) (ch : Fin 5) (id row : Nat)
  /-- One in a buffer of the reconstruction unit while it fills a point (R270). -/
  | fillError (launch pidx : Nat)
  /-- One in a walker's state for an agent, or for a transfer (R251). -/
  | walkError (b w : Nat)
  | copyWalkError (b : Nat) (ch : Fin 5) (id : Nat)
  /-- One in a walker's state for an engine, or for a hint of a core (R251). -/
  | engineWalkError (n : Nat)
  | hintWalkError (core : Nat)
  /-- The oldest hint of a core goes on (R221). -/
  | hint (core : Nat)
  /-- The partition controller writes a capability block that is due (R329). -/
  | capBlock
  /-- A cached translation is evicted for capacity (R236). -/
  | evict (core n : Nat)
  /-- The host gives a line of device memory up with the data it had modified (R247). -/
  | hostData (line : Nat) (data : List Byte)
  /-- The governor has a matrix datapath idle for a cycle (R359). -/
  | idle (b w : Nat)
  /-- A sensor's value (R361). -/
  | sensor (island temp : Nat)
  | coolant (plate : Fin 2) (temp : Nat)
  /-- The host reads a register of BAR0, or the public attestation key (R316, R330, R357). -/
  | barRead (fn off : Nat)
  | keyRead
  /-- Madder sends a command to a Weld controller, which takes it (R324). -/
  | command (g : Nat)
  | commandTaken (g : Nat)
  /-- The host's processors write bytes of host memory (R242). -/
  | hostStore (pa : Nat) (data : List Byte)
  /-- Another package writes bytes of its memory, as this package reads it (R348). -/
  | remoteMem (pa : Nat) (data : List Byte) (poison : Bool)
  /-- A link's path to package 0, and the round trip measured on it (R349). -/
  | path (link : Fin 16) (hops roundTrip : Nat)
  /-- A flit arrives as its 256 bytes (R344). -/
  | wire (link : Fin 16) (bytes : List Byte)
  deriving DecidableEq, Repr

/-- One choice of the abstract machine (R90): an agent's issue, an event, an input beside them, or the passing of ticks. -/
inductive Choice where
  | issue (b w : Nat)
  | event (i : Instr)
  | input (x : Input)
  | time (n : Nat)
  deriving DecidableEq, Repr

/-- What became of the word being issued. -/
inductive Disp where
  /-- No word is being issued. -/
  | idle
  /-- The word issued in this step. -/
  | issued
  /-- The word waits at issue (R74). -/
  | waits
  /-- The stream spends an interlock cycle (R78). -/
  | interlock
  /-- The word raised a trap, or the block migrates. -/
  | stopped
  /-- The word issued, and has set the program counter and the clock itself (ERET, TRAP). -/
  | done
  /-- The word's access waits for its translation (R74). -/
  | walking
  deriving DecidableEq, Repr

/-- The word an agent is issuing, between the parts of one step (notes/assumptions/3.md). -/
structure IssueCtx where
  b : Nat
  w : Nat
  pc : Word
  raw : Word
  hdr : Hdr
  next : Word
  sync : Bool
  disp : Disp
  deriving DecidableEq, Repr

/-- The machine. `ag` and `blk` are the agent and block whose word or move is being taken (log 3). Lists keyed by a
number hold what differs from the default. `withheld` is a tick of slewing still to be left out (R281); `stalled` are the
partitions that wait for a link toward a package, with the tick of the wait (R353); `posts` are the results of the
collective engine not posted yet (R350); `windowAt`, `stepAt` and `totals` are the governor's last window and package
step, and the package's power in the windows of the last millisecond (R359). `engWalks` are the translations of the engine
at work (R236), `walkQueue` the pages that cores miss, in arrival order (R236), `served` the queue from which Madder took its last packet (R318), `unTaken` the commands on the link to each
Weld controller (R324), `outgoing` the package's own flits that wait for room on a link (R345), `lastSent` the tick of its
last time-sync flits (R349), `keptWindows` the host windows of partition numbers that no partition has (R326), `weldCounts` the corrected errors by cluster and `coolants` the plates' temperatures (R361). -/
structure State where
  ag : Agent
  blk : Block
  cur : IssueCtx
  blocks : List (Nat × Block)
  cores : List (Nat × Core)
  mem : Store
  time : Vector Word 8
  receivers : Vector (Fin 3) 8
  hostLines : List Nat
  holds : List (Nat × Nat)
  parts : List (Nat × Partition)
  launches : List (Nat × Launch)
  nextLaunch : Nat
  nextBlock : Nat
  requests : List Request
  queues : List (Nat × Queue)
  vfmap : List (Nat × Nat)
  completions : List Completion
  pcmds : List Pcmd
  capDue : List Nat
  nonce : Option Word
  hypKey : List Byte
  hypLock : Bool
  rungs : List Rung
  rungDone : List Nat
  reloading : Bool
  latched : List (Nat × BitVec 32)
  downClusters : List Nat
  dev : Device
  p1root : BitVec 40
  p1used : Bool
  fabid : BitVec 8
  fabLock : Bool
  froutes : List (Nat × BitVec 32)
  exports : List (Nat × Export)
  links : Vector Link 16
  joined : Bool
  synced : Bool
  launched : Bool
  lastSync : Word
  lastSlew : Word
  withheld : Bool
  stalled : List (Nat × Nat × Word)
  members : List Member
  posts : List (Nat × Word)
  islands : Vector Island 64
  windowAt : Option Word
  stepAt : Option Word
  totals : List Nat
  thermalHold : Bool
  corrected : Nat
  mirrorReads : Nat
  engWalks : List EngWalk
  walkQueue : List (Nat × Nat)
  served : Option Nat
  unTaken : List (Nat × Nat)
  outgoing : List (BitVec 16 × Flit)
  lastSent : Word
  keptWindows : List (Nat × Vector Window 16)
  weldCounts : List (Nat × Nat)
  coolants : Vector Nat 2
  outbox : List Out
  free : Nat
  agenda : List Choice
  turn : Nat × Nat
  deriving DecidableEq, Repr

/-! ## Reset -/

def Tslip.reset : Tslip := ⟨0, 0, 0, 0, false, false, false, false, none, none⟩

def Ctl.reset : Ctl where
  imask := 0
  vs := false
  inh := false
  ie := false
  pm := false
  flags := Flags.none
  rm := 0
  syncmsk := 0
  prog := 0
  gseed := Vector.replicate 2 0
  gctr := Vector.replicate 2 0
  tcause := 0
  epc := 0
  tval := 0
  tframe := 0
  tvec := 0
  ncoord := 0
  nidx := 0
  nfmt := 0
  tslip := Tslip.reset
  tcmp := 0
  armed := false
  line0 := false
  line5 := false
  line6 := false
  mptxid := 0

/-- A handle's reset state (R159). -/
def Handle.reset : Handle := ⟨0, 0, 0, 0, 0, 0, 0⟩

/-- An agent in launch state (R70, R203), with no program. -/
def Agent.reset : Agent where
  run := .noProgram
  pc := 0
  s := Vector.replicate 32 0
  v := Vector.replicate 16 0
  p := Vector.replicate 8 false
  k := Vector.replicate 8 0
  sPoison := 0
  vPoison := 0
  pPoison := 0
  kPoison := 0
  pend := []
  h := Vector.replicate 32 Handle.reset
  latches := []
  cyc := 0
  accs := []
  ready := []
  walk := none
  long := none
  stopped := none
  stoppedIn := none
  rep := none
  wait := 0
  trap := none
  shadow := none
  nan := none
  spoiled := none
  started := false
  ctl := Ctl.reset

/-- The metadata of launch state (R151). -/
def Meta.reset (tag : BitVec 8) : Meta := ⟨0, 0, 0, false, false, tag⟩
def Tile.reset : Tile := ⟨Meta.reset 0x00, 0, 0, false, none⟩
def Accum.reset : Accum := ⟨Meta.reset 0x10, 0, false, none⟩
def Port.reset : Port := ⟨[], [], 0, 0, 0, 0⟩
def Chan.reset : Chan := ⟨0, [], none⟩
def MigCtl.reset : MigCtl := ⟨0, 0, false, false, false, false⟩

/-- A block in launch state (R152, R203). -/
def Block.reset : Block where
  launch := 0
  stage := 0
  inst := 0
  part := 1
  tenant := 0
  isa := 0
  prio := 0
  core := 0
  slot := 0
  status := .ended
  placed := 0
  suspended := 0
  agents := Vector.replicate 5 Agent.reset
  tiles := []
  accs := []
  pad := Store.empty
  sprows := 8192
  ports := Vector.replicate 4 Port.reset
  chans := Vector.replicate 5 Chan.reset
  mig := MigCtl.reset
  reloc := Vector.replicate 16 0
  textVa := 0
  textSize := 0
  text := []
  textFrames := []
  startTick := none
  ttF := []
  ttC := []
  replay := none
  replaying := false
  failures := 0
  claimed := []
  copies := 0
  migrating := none
  trigger := none
  migChecked := false
  faultCore := none
  works := []
  savedTiles := []
  savedAccs := []
  savedVecs := []

/-- A core at reset (R156 to R158). -/
def Core.reset : Core where
  cecnt := 0
  fcode := 0
  ctxv := 0
  ctx := 0
  live := 0
  vown := 0
  aown := 0
  town := 0
  hdrop := 0
  slots := Vector.replicate 4 none
  matrix := none
  tile := none
  waiters := []
  tlb := []
  leases := []
  hints := []
  forwards := []
  out := false

/-- A queue at reset (R316): QCTL's LOG2 is 4; QBASE, QDONE and QERR are zero (notes/assumptions/4.md). -/
def Queue.reset : Queue := ⟨0, 0, 4, false, false, 0, 0, 0, 0xFFFFFFFF, 0, none, false⟩

def Window.reset : Window := ⟨0, 0, false⟩
def Link.reset : Link := ⟨false, false, false, 0, 0, [], 0, 0, 0, 0, 0⟩
def Island.reset : Island := ⟨0, 0, 0, none, none, false, false, 0, 0⟩
def Export.reset : Export := ⟨0, 0, 0, false, 0, 0⟩

/-- A partition with nothing; PARTID of partition 1 resets to level 1 and id 1 (R328), COVCTL's FMAX to 0xFF (R269). -/
def Partition.reset : Partition where
  id := 1
  level := 1
  parent := 0
  sliced := false
  offline := 0
  clusters := []
  ranges := []
  isa := 0
  priv := false
  ttroot := 0
  capb := 0
  covctl := 0x00FF0000
  table := none
  chrate := 0
  links := 0
  linkrate := 0
  tweight := 0
  quota := none
  active := true
  overshoot := 0
  sliceEnd := none
  stoppedAt := none
  weldAt := none
  weldOpen := false
  slots := []
  windows := Vector.replicate 16 Window.reset

def IssueCtx.reset : IssueCtx := ⟨0, 0, 0, 0, Hdr.default, 0, false, .idle⟩

/-- DSTAT at power-on (R357): CAUSE 0, PHASE 1, not ready. -/
def Device.reset : Device := ⟨true, 0, 0, 1, false, false, false, 0⟩

/-- The machine at power-on, in phase 1 of bring-up (R354, R357). -/
def State.reset : State where
  ag := Agent.reset
  blk := Block.reset
  cur := IssueCtx.reset
  blocks := []
  cores := []
  mem := Store.empty
  time := Vector.replicate 8 0
  receivers := Vector.replicate 8 2
  hostLines := []
  holds := []
  parts := []
  launches := []
  nextLaunch := 0
  nextBlock := 0
  requests := []
  queues := []
  vfmap := []
  completions := []
  pcmds := []
  capDue := []
  nonce := none
  hypKey := []
  hypLock := false
  rungs := []
  rungDone := []
  reloading := false
  latched := []
  downClusters := []
  dev := Device.reset
  p1root := 0
  p1used := false
  fabid := 0
  fabLock := false
  froutes := []
  exports := []
  links := Vector.replicate 16 Link.reset
  joined := false
  synced := false
  launched := false
  lastSync := 0
  lastSlew := 0
  withheld := false
  stalled := []
  members := []
  posts := []
  islands := Vector.replicate 64 Island.reset
  windowAt := none
  stepAt := none
  totals := []
  thermalHold := false
  corrected := 0
  mirrorReads := 0
  engWalks := []
  walkQueue := []
  served := none
  unTaken := []
  outgoing := []
  lastSent := 0
  keptWindows := []
  weldCounts := []
  coolants := Vector.replicate 2 0
  outbox := []
  free := 0
  agenda := []
  turn := (0, 0)

end Sys2Proof.Machine
end

