-- ==== Sys2Proof/Machine/Ops.lean ====
section
/-! DEFINITION. The named operations over registers, latches, clocks, translation and traps that every meaning shares
(spec/04_stream_execution.md, 08, 13). -/

namespace Sys2Proof.Machine

/-! ## Lists keyed by a number, in rising order -/

def getKey {α : Type} : List (Nat × α) → Nat → Option α
  | [], _ => none
  | (k, v) :: r, n => if k = n then some v else getKey r n

def putKey {α : Type} : List (Nat × α) → Nat → α → List (Nat × α)
  | [], n, x => [(n, x)]
  | (k, v) :: r, n, x => if k < n then (k, v) :: putKey r n x else if k = n then (n, x) :: r else (n, x) :: (k, v) :: r

def dropKey {α : Type} (l : List (Nat × α)) (n : Nat) : List (Nat × α) := l.filter fun p => p.1 != n

/-! ## Cause codes (R85) -/

def cILLEGAL : BitVec 8 := 0x01
def cRESFMT : BitVec 8 := 0x02
def cRESFLD : BitVec 8 := 0x03
def cPRIV : BitVec 8 := 0x04
def cMASKED : BitVec 8 := 0x05
def cNOCAP : BitVec 8 := 0x07
def cPAGE : BitVec 8 := 0x10
def cPROT : BitVec 8 := 0x11
def cPOISON : BitVec 8 := 0x12
def cOVRN : BitVec 8 := 0x13
def cDWRT : BitVec 8 := 0x14
def cHBOUND : BitVec 8 := 0x15
def cNANTRAP : BitVec 8 := 0x16
def cSCHMISS : BitVec 8 := 0x18
def cTSLIPT : BitVec 8 := 0x19
def cKVFAULT : BitVec 8 := 0x1A
def cSYNCFAIL : BitVec 8 := 0x1B
def cINTERRUPT : BitVec 8 := 0x20
def cTIMER : BitVec 8 := 0x21
def cSWTRAP : BitVec 8 := 0x22

/-! ## Registers (R4, R70) -/

/-- A bit of a word set to a value. -/
def putBit {w : Nat} (x : BitVec w) (n : Nat) (b : Bool) : BitVec w :=
  if b then x ||| (1#w <<< n) else x &&& ~~~(1#w <<< n)

def Agent.getS (a : Agent) (n : SReg) : Word := if n = 0 then 0 else a.s[n]
def Agent.getV (a : Agent) (n : VReg) : VWord := a.v[n]
def Agent.getP (a : Agent) (n : PReg) : Bool := if n = 0 then true else a.p[n]
def Agent.getK (a : Agent) (n : KReg) : Word := if n = 0 then BitVec.allOnes 64 else a.k[n]

/-- A register's poison bit; s0, p0 and k0 have none (R70). -/
def Agent.poisoned (a : Agent) : RegName → Bool
  | .s n => n != 0 && a.sPoison.getLsbD n
  | .v n => a.vPoison.getLsbD n
  | .p n => n != 0 && a.pPoison.getLsbD n
  | .k n => n != 0 && a.kPoison.getLsbD n

/-- The OR of the poison bits of some registers (R83, R91, R121). -/
def Agent.anyPoisoned (a : Agent) (l : List RegName) : Bool := l.any a.poisoned

/-- A register with its value as 2,048 bits. -/
def Agent.value (a : Agent) : RegName → VWord
  | .s n => (a.getS n).setWidth 2048
  | .v n => a.getV n
  | .p n => (BitVec.ofBool (a.getP n)).setWidth 2048
  | .k n => (a.getK n).setWidth 2048

/-- Write a register with its poison bit; writes to s0, p0 and k0 are discarded (R70). -/
def Agent.setReg (a : Agent) (r : RegName) (v : VWord) (poison : Bool) : Agent :=
  match r with
  | .s n => if n = 0 then a else { a with s := a.s.set n (v.setWidth 64), sPoison := putBit a.sPoison n poison }
  | .v n => { a with v := a.v.set n v, vPoison := putBit a.vPoison n poison }
  | .p n => if n = 0 then a else { a with p := a.p.set n (v.getLsbD 0), pPoison := putBit a.pPoison n poison }
  | .k n => if n = 0 then a else { a with k := a.k.set n (v.setWidth 64), kPoison := putBit a.kPoison n poison }

/-- Set FCTL flags (R38). -/
def Agent.addFlags (a : Agent) (f : Flags) : Agent := { a with ctl := { a.ctl with flags := a.ctl.flags.or f } }

/-! ## Result latches and stream cycles (R75 to R79) -/

/-- A latch lands: its value, poison and flags become visible together (R76). -/
def Agent.landOne (a : Agent) (l : Latch) : Agent := (a.setReg l.reg l.val l.poison).addFlags l.flags

/-- Every latch whose tag the counter has reached lands, in issue order (R78, R90). -/
def Agent.land (a : Agent) : Agent :=
  (a.latches.filter fun l => decide (l.tag ≤ a.cyc)).foldl Agent.landOne
    { a with latches := a.latches.filter fun l => decide (a.cyc < l.tag) }

/-- One stream cycle passes (R75). -/
def Agent.tick (a : Agent) : Agent := ({ a with cyc := a.cyc + 1 }).land

def Agent.ticks (a : Agent) : Nat → Agent
  | 0 => a
  | n + 1 => (a.tick).ticks n

/-- A result of exposed latency 1: written now, since no other word issues in this cycle. A latch of the register that
would land with it is overtaken, its flags are set (R78). -/
def Agent.result1 (a : Agent) (r : RegName) (v : VWord) (poison : Bool) (f : Flags) : Agent :=
  let hit (l : Latch) : Bool := l.reg == r && decide (l.tag ≤ a.cyc + 1)
  let lost := a.latches.filter hit
  let a' := { a with latches := a.latches.filter fun l => !hit l }
  (((a'.setReg r v poison).addFlags f).addFlags (lost.foldl (fun acc l => acc.or l.flags) Flags.none))

/-- A result of exposed latency `lat` (R76). -/
def Agent.result (a : Agent) (lat : Nat) (r : RegName) (v : VWord) (poison : Bool) (f : Flags) : Agent :=
  if lat ≤ 1 then a.result1 r v poison f
  else { a with latches := a.latches ++ [⟨r, v, a.cyc + lat, f, poison⟩] }

/-- The record of the long instruction that a word issued now may resume, by SSTAT.INH (R175). -/
def Agent.record (a : Agent) : Option Long := if a.ctl.inh then a.stoppedIn else a.stopped
def Agent.setRecord (a : Agent) (x : Option Long) : Agent :=
  if a.ctl.inh then { a with stoppedIn := x } else { a with stopped := x }

/-- The latches in order of their tags, and within a tag in issue order (R87). -/
def insertLatch (l : Latch) : List Latch → List Latch
  | [] => [l]
  | x :: r => if l.tag < x.tag then l :: x :: r else x :: insertLatch l r
def sortLatches (l : List Latch) : List Latch := l.foldl (fun acc x => insertLatch x acc) []

/-- A scoreboarded result is written and its mark cleared (R77, R90). -/
def Agent.deliver (a : Agent) (x : Result) : Agent :=
  let old := a.value x.reg
  let v := match x.reg with
    | .v _ => (List.range 64).foldl (fun (acc : VWord) i =>
        if x.lanes.getLsbD i then acc else
          (acc &&& ~~~((0xFFFFFFFF#2048) <<< (32 * i))) ||| (old &&& ((0xFFFFFFFF#2048) <<< (32 * i)))) x.val
    | _ => x.val
  let a' := if x.lanes = 0 then a else a.setReg x.reg v x.poison
  { a' with pend := a'.pend.erase x.reg }

/-! ## The state in focus -/

def State.setAg (s : State) (a : Agent) : State := { s with ag := a }
def State.setBlk (s : State) (b : Block) : State := { s with blk := b }
def State.setCtl (s : State) (c : Ctl) : State := { s with ag := { s.ag with ctl := c } }
def State.setDisp (s : State) (d : Disp) : State := { s with cur := { s.cur with disp := d } }
/-- The word has issued. -/
def State.issued (s : State) : State := s.setDisp .issued
/-- The word waits at issue, with no visible effect (R74). -/
def State.waits (s : State) : State := s.setDisp .waits

def State.sReg (s : State) (n : SReg) : Word := s.ag.getS n
def State.vReg (s : State) (n : VReg) : VWord := s.ag.getV n
def State.pReg (s : State) (n : PReg) : Bool := s.ag.getP n
def State.kReg (s : State) (n : KReg) : Word := s.ag.getK n
/-- Is the agent the block's MP (R203)? -/
def State.isMP (s : State) : Bool := s.cur.w == 4

/-- Write a scalar result of latency 1, from the sources named (R91). -/
def State.putS (s : State) (d : SReg) (v : Word) (srcs : List RegName) : State :=
  (s.setAg (s.ag.result1 (.s d) (v.setWidth 2048) (s.ag.anyPoisoned srcs) Flags.none)).issued

/-- Write a predicate of latency 1 (R95). -/
def State.putP (s : State) (d : PReg) (v : Bool) (srcs : List RegName) : State :=
  (s.setAg (s.ag.result1 (.p d) ((BitVec.ofBool v).setWidth 2048) (s.ag.anyPoisoned srcs) Flags.none)).issued

/-- Write a lane mask (R146). -/
def State.putK (s : State) (d : KReg) (v : Word) (lat : Nat) (srcs : List RegName) (f : Flags) : State :=
  (s.setAg (s.ag.result lat (.k d) (v.setWidth 2048) (s.ag.anyPoisoned srcs) f)).issued

/-- Write a vector result (R121). -/
def State.putV (s : State) (d : VReg) (v : VWord) (lat : Nat) (srcs : List RegName) (f : Flags) : State :=
  (s.setAg (s.ag.result lat (.v d) v (s.ag.anyPoisoned srcs) f)).issued

/-! ## Cores, partitions, time -/

def State.core (s : State) (c : Nat) : Core := (getKey s.cores c).getD Core.reset
def State.setCore (s : State) (c : Nat) (x : Core) : State := { s with cores := putKey s.cores c x }
def State.part (s : State) (p : Nat) : Partition := (getKey s.parts p).getD Partition.reset
def State.setPart (s : State) (p : Nat) (x : Partition) : State := { s with parts := putKey s.parts p x }
def State.block (s : State) (b : Nat) : Block := (getKey s.blocks b).getD Block.reset
def State.setBlock (s : State) (b : Nat) (x : Block) : State := { s with blocks := putKey s.blocks b x }
def State.launch? (s : State) (l : Nat) : Option Launch := getKey s.launches l
def State.setLaunch (s : State) (l : Nat) (x : Launch) : State := { s with launches := putKey s.launches l x }
def State.queue (s : State) (k : Nat) : Queue := (getKey s.queues k).getD Queue.reset
def State.setQueue (s : State) (k : Nat) (x : Queue) : State := { s with queues := putKey s.queues k x }

/-- Core ids that name a core (R3). -/
def coreExists (c : Nat) : Bool :=
  let die := c / 128
  let cl := c / 8 % 16
  decide (die < 6) && decide (cl < 12) || (die == 6 || die == 7) && decide (cl < 8)

/-- Does the core lie on an Ochre die (R3)? -/
def isOchre (c : Nat) : Bool := decide (768 ≤ c)

/-- The channel of its home cluster in which a byte of device DRAM lies (R230). -/
def channelOf (pa : Nat) : Nat := pa / 2 ^ 8 % 16 ^^^ pa / 2 ^ 12 % 16

/-- The cluster number of a core (R230). -/
def clusterOf (c : Nat) : Nat := if c < 768 then 12 * (c / 128) + c / 8 % 16 else 72 + 8 * (c / 128 - 6) + c / 8 % 16

/-- The cores of a cluster (R3, R230). -/
def coresOf (g : Nat) : List Nat :=
  let first := if g < 72 then g / 12 * 128 + g % 12 * 8 else (6 + (g - 72) / 8) * 128 + (g - 72) % 8 * 8
  (List.range 8).map (first + ·)

/-- The cores a partition owns. -/
def Partition.cores (p : Partition) : List Nat := p.clusters.flatMap coresOf

/-- The count of a core's die (R281). -/
def State.now (s : State) (core : Nat) : Word := s.time[core / 128 % 8]'(Nat.mod_lt _ (by decide))
/-- The count of the die of the block in focus. -/
def State.tbase (s : State) : Word := s.now s.blk.core

/-- (x - y) mod 2^64 lies below 2^63: x has reached y (R84, R108). -/
def reached (x y : Word) : Bool := decide ((x - y).toNat < 2 ^ 63)

/-! ## Interrupt lines and SSTAT (R73, R84, R205, R259) -/

/-- Does a port's result FIFO hold an element no FPOP has claimed? -/
def Port.resReady (p : Port) : Bool := decide (p.resClaims < p.res.length)
def Port.cmdReady (p : Port) : Bool := decide (p.cmdClaims < p.cmd.length)

/-- SSTAT.IPEND of an agent (R84, R259); the MP has line 0 only (R204). -/
def ipend (blk : Block) (w : Nat) (c : Ctl) : BitVec 8 :=
  if w = 4 then (if c.line0 then 1 else 0)
  else
    let b (v : Bool) (n : Nat) : BitVec 8 := if v then 1#8 <<< n else 0
    b c.line0 0 ||| b blk.ports[0].resReady 1 ||| b blk.ports[1].resReady 2 ||| b blk.ports[2].resReady 3 |||
      b blk.ports[3].resReady 4 ||| b c.line5 5 ||| b c.line6 6

/-- SSTAT as MFC reads it (R73, R205). -/
def sstatWord (blk : Block) (w : Nat) (c : Ctl) : Word :=
  let ip := (ipend blk w c).setWidth 64 <<< 24
  if w = 4 then ip ||| ((c.imask &&& 1).setWidth 64 <<< 16)
  else ip ||| (c.imask.setWidth 64 <<< 16) ||| ((BitVec.ofBool c.vs).setWidth 64 <<< 3) |||
    ((BitVec.ofBool c.inh).setWidth 64 <<< 2) ||| ((BitVec.ofBool c.ie).setWidth 64 <<< 1) |||
    (BitVec.ofBool c.pm).setWidth 64

/-- Line 0's condition (R84). -/
def timerDue (now : Word) (c : Ctl) : Bool := c.armed && reached now c.tcmp

/-- A tick: line 0 of every armed agent is sampled. -/
def sampleTimers (s : State) : State :=
  let one (now : Word) (a : Agent) : Agent :=
    if a.ctl.armed then { a with ctl := { a.ctl with line0 := timerDue now a.ctl } } else a
  { s with blocks := s.blocks.map fun p => (p.1, { p.2 with agents := p.2.agents.map (one (s.now p.2.core)) }) }

/-! ## Translation (R97, R129, R229, R233 to R236, R309, R347, R364) -/

/-- What a translation answers. -/
inductive Tr where
  | ok (l : Loc)
  | miss
  | fault (code : BitVec 8)
  deriving DecidableEq, Repr

/-- Bits 63:56 are copies of bit 55 (R97). -/
def canonical (va : Word) : Bool := (va.extractLsb' 55 9 == 0) || (va.extractLsb' 55 9 == BitVec.allOnes 9)

/-- The on-chip window range (R97, R229). -/
def inWindow (va : Word) : Bool := va.toNat / 2 ^ 48 == 15

/-- The core id and the offset that a window address names (R150). -/
def windowCore (va : Word) : Nat := va.toNat % 2 ^ 48 / 2 ^ 24
def windowOff (va : Word) : Nat := va.toNat % 2 ^ 24

/-- Does a window address name the block's own window: its core's, or its launch core's (R309)? -/
def ownWindow (b : Block) (va : Word) : Bool := windowCore va == b.core || windowCore va == b.mig.lcore.toNat

/-- The scratchpad offset of a byte of the own window that lies in the block's reach (R97, R150, R174). -/
def padOffset (b : Block) (va : Word) : Option Nat :=
  let o := windowOff va
  if ownWindow b va ∧ 0x200000 ≤ o ∧ o < 0x400000 ∧ (o - 0x200000) / 256 < b.sprows then some (o - 0x200000) else none

/-- Does an address lie in the block's program text (R364)? -/
def inText (b : Block) (va : Word) : Bool :=
  decide (b.textVa.toNat ≤ va.toNat) && decide (va.toNat < b.textVa.toNat + b.textSize)

/-- The slot that a block's launch runs. -/
def slotOfBlock (s : State) (b : Block) : Option Slot :=
  (s.launch? b.launch).bind fun l => getKey (s.part l.part).slots l.slot

/-- The offset of a text address: in the block's own text, or past it in the slot image, by another text map of the slot. -/
def textOffset (s : State) (b : Block) (va : Word) : Option Nat :=
  if inText b va then some (va.toNat - b.textVa.toNat)
  else (slotOfBlock s b).bind fun x =>
    (x.maps.find? fun m => decide (m.va.toNat ≤ va.toNat) && decide (va.toNat < m.va.toNat + m.size)).map fun m =>
      b.textSize + m.off + (va.toNat - m.va.toNat)

/-- Is a route toward package p named (R347)? -/
def routeNamed (s : State) (p : Partition) (pkg : Nat) : Bool :=
  let r := (getKey s.froutes pkg).getD 0
  (r.setWidth 16 ||| (r >>> 16).setWidth 16) &&& p.links != 0

/-- May the partition's accesses reach this physical address (R229, R235, R326, R332, R347)? -/
def paAllowed (s : State) (p : Partition) (pa : Nat) : Bool :=
  if pa < 0x58_0000_0000 then p.ranges.any fun r => decide (r.1 ≤ pa) && decide (pa < r.2)
  else if pa < 0x1_0000_0000_0000 then false
  else if pa < 0x8_0000_0000_0000 then
    p.windows.toList.any fun w => decide (w.base.toNat ≤ pa) && decide (pa < w.limit.toNat)
  else if pa < 0x9_0000_0000_0000 then
    let pkg := pa / 2 ^ 40 % 256
    decide (pa % 2 ^ 40 < 0x58_0000_0000) && pkg != s.fabid.toNat && routeNamed s p pkg
  else false

/-- The package of a remote-window address (R347). -/
def remotePkg (pa : Nat) : Option Nat :=
  if 0x8_0000_0000_0000 ≤ pa ∧ pa < 0x9_0000_0000_0000 then some (pa / 2 ^ 40 % 256) else none

/-- Does the other package's export table pass the access (R347)? -/
def exported (s : State) (p : Partition) (pa : Nat) (use : Use) : Bool :=
  match remotePkg pa with
  | none => true
  | some pkg => Config.exported pkg s.fabid.toNat p.id (pa % 2 ^ 40) (use == .store || use == .atomic)

/-- The links that are up, as a bitmap (R345). -/
def upLinks (s : State) : BitVec 16 :=
  (List.range 16).foldl (fun (m : BitVec 16) i => match s.links[i]? with
    | some l => if l.up then m ||| 1#16 <<< i else m
    | none => m) 0

/-- The lowest link of a bitmap. -/
def lowestLink (m : BitVec 16) : Option (Fin 16) := (List.finRange 16).find? fun i => m.getLsbD i.val

/-- The link on which traffic toward a package leaves (R346). -/
def routeLink (s : State) (links : BitVec 16) (pkg : Nat) : Option (Fin 16) :=
  let r := (getKey s.froutes pkg).getD 0
  let up := upLinks s &&& links
  match lowestLink (r.setWidth 16 &&& up) with
  | some i => some i
  | none => lowestLink ((r >>> 16).setWidth 16 &&& up)

def State.setLink (s : State) (i : Fin 16) (l : Link) : State := { s with links := s.links.set i l }

/-- The newest SEQ received in order (R345). -/
def Link.good (l : Link) : BitVec 12 := l.rxSeq - 1

/-- May a link send a flit: it is up, and its replay buffer is not full (R345)? -/
def Link.room (l : Link) : Bool := l.up && !l.retraining && decide (l.buffer.length < 128)

/-- A flit leaves on a link, and stays in its replay buffer. -/
def sendOn (s : State) (i : Fin 16) (links : BitVec 16) (f : Flit) : State :=
  let l := s.links[i]
  let f := { f with seq := l.txSeq.toNat, ack := l.good.toNat, crcOk := true }
  { s.setLink i { l with txSeq := l.txSeq + 1, buffer := l.buffer ++ [(f, links)] } with outbox := s.outbox ++ [.flit i f] }

/-- A flit of this package. -/
def ownFlit (s : State) (pkg kind vc : Nat) (fields : List Nat) : Flit :=
  ⟨pkg, s.fabid.toNat, kind, vc, 0, 0, true, Config.flitPayload kind fields⟩

/-- May a flit to a package on a virtual channel leave on a link: the link has room, and no flit of that traffic is still
under way on another link (R346)? -/
def pathClear (s : State) (i : Fin 16) (pkg vc : Nat) : Bool :=
  s.links[i].room && (List.finRange 16).all fun j => j == i ||
    s.links[j].buffer.all fun f => !(f.1.dst == pkg && f.1.vc == vc)

/-- A waiting flit leaves, if its route lets it and none of its traffic waits before it. -/
def sendNext (s : State) (before : List (BitVec 16 × Flit)) (x : BitVec 16 × Flit) : Option State :=
  if before.any fun y => y.2.dst == x.2.dst && y.2.vc == x.2.vc then none
  else match routeLink s x.1 x.2.dst with
    | some i => if pathClear s i x.2.dst x.2.vc then some (sendOn s i x.1 x.2) else none
    | none => none

/-- The flits that wait, in order, leave as far as their routes let them (R345, R346). -/
def flush (s : State) : State :=
  let r := s.outgoing.foldl (fun (acc : State × List (BitVec 16 × Flit)) x => match sendNext acc.1 acc.2 x with
    | some t => (t, acc.2)
    | none => (acc.1, acc.2 ++ [x])) (s, [])
  { r.1 with outgoing := r.2 }

/-- A flit is to leave toward its package. -/
def sendTo (s : State) (links : BitVec 16) (f : Flit) : State := flush { s with outgoing := s.outgoing ++ [(links, f)] }

/-- A place of another package toward which no link of the route is up (R353). -/
def routeDown (s : State) (p : Partition) (pa : Nat) : Option Nat :=
  (remotePkg pa).filter fun pkg => (routeLink s p.links pkg).isNone

/-- A wait for a route begins, if none of the partition's has begun already (R353). -/
def State.stall (s : State) (part pkg : Nat) : State :=
  if s.stalled.any fun x => x.1 == part && x.2.1 == pkg then s
  else { s with stalled := s.stalled ++ [(part, pkg, s.now 0)] }

/-- A move that reaches another package waits until a link of the route is up (R353), has room and has taken the traffic over
(R345, R346); its request then leaves. -/
def withRoute (s : State) (part pa : Nat) (f : State → State) : State :=
  match remotePkg pa with
  | none => f s
  | some pkg =>
    let links := (s.part part).links
    match routeLink s links pkg with
    | some i =>
      if pathClear s i pkg 0 then f (sendOn s i links (ownFlit s pkg 1 0 [pa % 2 ^ 40])) else s
    | none => s.stall part pkg

/-- A leaf's permission for a use (R235). -/
def permitted (leaf : Word) : Use → Bool
  | .fetch => leaf.getLsbD 4
  | .load => leaf.getLsbD 2
  | .store => leaf.getLsbD 3
  | .atomic => leaf.getLsbD 2 && leaf.getLsbD 3

/-- The check of a completed translation (R235, R236). The other package's answer, that its export table refuses the access, takes
a link of the route: until one is up there is no translation (R347, R353). -/
def checkLeaf (s : State) (p : Partition) (e : TlbEntry) (va : Word) (use : Use) : Tr :=
  let pa := e.frame * 4096 + va.toNat % (e.pages * 4096)
  if !permitted e.bits use || !paAllowed s p pa then .fault cPROT
  else if (routeDown s p pa).isSome then .miss
  else if exported s p pa use then .ok (.phys pa) else .fault cPROT

/-- A translation that its route holds back: the wait begins. -/
def stallLeaf (s : State) (p : Partition) (e : TlbEntry) (va : Word) : State :=
  match routeDown s p (e.frame * 4096 + va.toNat % (e.pages * 4096)) with
  | some pkg => s.stall p.id pkg
  | none => s

/-- An agent's load from a LEASE page of device DRAM may be served from its core's lease cache (R235, R241). -/
def leased (e : TlbEntry) (use : Use) : Tr → Tr
  | .ok (.phys pa) =>
    if use = .load ∧ e.bits.getLsbD 8 ∧ pa < 0x58_0000_0000 then .ok (.lease pa) else .ok (.phys pa)
  | r => r

/-- The virtual page number of an address: bits 55:12. -/
def pageNo (va : Word) : Nat := va.toNat % 2 ^ 56 / 4096

def TlbEntry.covers (e : TlbEntry) (part : Nat) (va : Word) : Bool :=
  e.part == part && pageNo va / e.pages == e.vpn / e.pages

/-- Translate an address for the block in focus (R97 steps 2 to 5, R129, R364): a cached translation answers at once. -/
def translate (s : State) (b : Block) (va : Word) (use : Use) : Tr :=
  if !canonical va then .fault cPAGE
  else if inWindow va then
    match padOffset b va with
    | some o => if use = .fetch then .fault cPROT else .ok (.pad o)
    | none => .fault cPROT
  else match textOffset s b va with
    | some o => match use with
      | .fetch | .load => .ok (.text o)
      | _ => .fault cPROT
    | none => match (s.core b.core).tlb.find? fun e => e.covers b.part va with
      | some e => leased e use (checkLeaf s (s.part b.part) e va use)
      | none => .miss

/-- The bits of a page-table entry that must be zero (R235). -/
def pteReserved (e : Word) : Bool := (e &&& 0xFFF0_0000_0000_0E60#64) != 0

/-- What one entry read at a level says (R235): the next table, a leaf, or PAGE. -/
inductive WalkRead where
  | table (pa : Nat)
  | leaf (e : TlbEntry)
  | page
  deriving DecidableEq, Repr

def readPte (part : Nat) (va : Word) (level : Nat) (e : Word) (poisoned : Bool) : WalkRead :=
  let t := e.getLsbD 1
  let c64 := e.getLsbD 7
  let pfn := (e.extractLsb' 12 40).toNat
  if poisoned || !e.getLsbD 0 || pteReserved e then .page
  else if t then (if level = 0 || c64 then .page else .table (pfn * 4096))
  else if 2 ≤ level then .page
  else if e.getLsbD 3 && !e.getLsbD 2 then .page
  else if level = 1 then
    if c64 || pfn % 512 != 0 then .page else .leaf ⟨part, pageNo va / 512 * 512, 512, pfn, e⟩
  else if c64 then
    if pfn % 16 != pageNo va % 16 then .page else .leaf ⟨part, pageNo va / 16 * 16, 16, pfn / 16 * 16, e⟩
  else .leaf ⟨part, pageNo va, 1, pfn, e⟩

/-- The address of the entry a walk reads at a level (R234). -/
def pteAddr (table : Nat) (va : Word) (level : Nat) : Nat := table + 8 * (pageNo va / 512 ^ level % 512)

/-- May a table stand here: device DRAM inside the partition's ranges (R234)? -/
def tableAllowed (p : Partition) (pa : Nat) : Bool :=
  decide (pa < 0x58_0000_0000) && p.ranges.any fun r => decide (r.1 ≤ pa) && decide (pa < r.2)

/-- The root of a partition's walk; the root holds 256 entries, so a negative address uses none of them (R234). -/
def walkRoot (p : Partition) : Nat := p.ttroot.toNat * 4096

/-! ## Walks of engines, Weld, Madder and the partition controller (R234, R236, R239)

Each of them translates with walks that it has made beforehand, one entry in a step (notes/assumptions/10.md). -/

/-- A set of numbers as bits. -/
def bitsOf (l : List Nat) : Nat := l.foldl (fun a g => a ||| 2 ^ g) 0

/-- The pages that some bytes touch, one address in each. -/
def pagesOf (va : Word) (n : Nat) : List Word :=
  if n = 0 then []
  else (List.range ((va.toNat % 4096 + n + 4095) / 4096)).map fun i =>
    if i = 0 then va else (va &&& ~~~0xFFF#64) + BitVec.ofNat 64 (4096 * i)

/-- A walk under a partition's table that serves an address: one that has found its page, or one on the way to it. -/
def EngWalk.serves (k : EngWalk) (p : Partition) (va : Word) : Bool :=
  k.part == p.id && k.root == walkRoot p && match k.found with
    | some (.leaf e) => e.covers p.id va
    | _ => pageNo k.va == pageNo va

/-- Translate an address of a partition, outside the windows and every text map, with the walks made. -/
def engTr (s : State) (p : Partition) (va : Word) (use : Use) : Tr :=
  if !canonical va then .fault cPAGE
  else if inWindow va then .fault cPROT
  else match (s.engWalks.find? (·.serves p va)).bind (·.found) with
    | some (.leaf e) => checkLeaf s p e va use
    | some .page => .fault cPAGE
    | none => .miss

/-- A device step to physical bytes has the host give up their lines (R247). -/
def State.snoop (s : State) (pa n : Nat) : State :=
  { s with hostLines := s.hostLines.filter fun x => decide (x < pa / 64) || decide ((pa + n - 1) / 64 < x) }

/-- One entry of a walk is read (R234 to R236). -/
def readStep (s : State) (p : Partition) (k : EngWalk) : State × EngWalk :=
  let a := pteAddr k.table k.va k.level
  if !tableAllowed p k.table then (s, { k with found := some .page })
  else
    (s.snoop a 8, match readPte p.id k.va k.level (BitVec.ofNat 64 (s.mem.readLE a 8)) (s.mem.anyPoison (a / 4) 2) with
      | .table x => { k with level := k.level - 1, table := x }
      | .leaf e => { k with found := some (.leaf e) }
      | .page => { k with found := some .page })

/-- One entry of the walk to an address is read; a walk that has ended waits for its route. -/
def engStep (s : State) (p : Partition) (va : Word) : State :=
  let k := (s.engWalks.find? (·.serves p va)).getD ⟨p.id, va, 4, walkRoot p, none, walkRoot p⟩
  match k.found with
  | some (.leaf e) => stallLeaf s p e va
  | _ =>
    let r := readStep s p k
    { r.1 with engWalks := r.2 :: s.engWalks.filter fun x => !x.serves p va }

/-- A step that needs some pages of partitions: it reads an entry of a walk while one is missing, and works once none is. Its
translations end with the step. -/
def withPages (s : State) (pages : List (Partition × Word)) (go : State → State) : State :=
  match pages.find? fun x => engTr s x.1 x.2 .load == .miss with
  | some x => engStep s x.1 x.2
  | none =>
    let t := go s
    { t with engWalks := t.engWalks.filter fun k => !pages.any fun x => k.serves x.1 x.2 }

/-- A step that needs some pages of one partition. -/
def withWalks (s : State) (p : Partition) (pages : List Word) (go : State → State) : State :=
  withPages s (pages.map fun va => (p, va)) go

/-! ## The memory of the abstract machine, seen from a block (R154, R238, R321, R364) -/

/-- What holds a text offset, and the offset in it: the block's text, or past it the slot's image. -/
def textHome (s : State) (off : Nat) : Store × List (Nat × Nat) × Nat :=
  if off < s.blk.textSize then (⟨s.blk.text, []⟩, s.blk.textFrames, off)
  else match slotOfBlock s s.blk with
    | some x => (⟨x.image, []⟩, x.frames, off - s.blk.textSize)
    | none => (⟨s.blk.text, []⟩, s.blk.textFrames, off)

/-- Is a granule of the text poisoned in both copies of its page? -/
def textPoison (s : State) (off : Nat) : Bool :=
  let x := textHome s off
  match x.2.1[x.2.2 / 4096]? with
  | some (a, b) => s.mem.granule ((a + off % 4096) / 4) && s.mem.granule ((b + off % 4096) / 4)
  | none => false

/-- Is a physical address in a frame of a slot (R364)? -/
def inSlotFrame (s : State) (pa : Nat) : Bool :=
  s.parts.any fun p => p.2.slots.any fun x => x.2.frames.any fun f => f.1 == pa / 4096 * 4096 || f.2 == pa / 4096 * 4096

/-- A device step writes `n` bytes of memory: the host gives up their lines. One to a slot's frame changes nothing (R247, R364,
notes/assumptions/7.md). -/
def State.write (s : State) (pa n : Nat) (f : Store → Store) : State :=
  if inSlotFrame s pa then s else { s.snoop pa n with mem := f s.mem }

/-- Read `n` bytes and tell whether one of their granules is poisoned. -/
def readLoc (s : State) (l : Loc) (n : Nat) : Nat × Bool :=
  match l with
  | .pad o => (s.blk.pad.readLE o n, s.blk.pad.anyPoison (o / 4) ((n + 3) / 4))
  | .text o => let x := textHome s o; (x.1.readLE x.2.2 n, (List.range ((n + 3) / 4)).any fun i => textPoison s (o + 4 * i))
  | .phys pa | .lease pa => (s.mem.readLE pa n, s.mem.anyPoison (pa / 4) ((n + 3) / 4))

/-- A read has the host give up the lines it reads. -/
def State.snoopLoc (s : State) (l : Loc) (n : Nat) : State :=
  match l with
  | .phys pa | .lease pa => s.snoop pa n
  | _ => s

/-- Write `n` granules from an aligned place. -/
def writeLoc (s : State) (l : Loc) (n v : Nat) (p : Bool) : State :=
  match l with
  | .pad o => s.setBlk { s.blk with pad := s.blk.pad.writeWords o n v p }
  | .text _ => s
  | .phys pa | .lease pa => s.write pa (4 * n) fun m => m.writeWords pa n v p

/-- Write lanes where the mask has a 1. -/
def writeLocLanes (s : State) (l : Loc) (mask v : Nat) (p : Bool) : State :=
  match l with
  | .pad o => s.setBlk { s.blk with pad := s.blk.pad.writeLanes o mask v p 64 0 }
  | .text _ => s
  | .phys pa | .lease pa => s.write pa 256 fun m => m.writeLanes pa mask v p 64 0

def lanesPoisonLoc (s : State) (l : Loc) (mask : Nat) : Bool :=
  match l with
  | .pad o => s.blk.pad.lanesPoison o mask 64 0
  | .text o => (List.range 64).any fun i => mask.testBit i && textPoison s (o + 4 * i)
  | .phys pa | .lease pa => s.mem.lanesPoison pa mask 64 0

/-- A place some bytes further on. -/
def Loc.plus (l : Loc) (n : Nat) : Loc :=
  match l with
  | .pad o => .pad (o + n)
  | .text o => .text (o + n)
  | .phys pa => .phys (pa + n)
  | .lease pa => .lease (pa + n)

/-- A place with its low bits cleared. -/
def Loc.alignDown (l : Loc) (n : Nat) : Loc :=
  match l with
  | .pad o => .pad (o / n * n)
  | .text o => .text (o / n * n)
  | .phys pa => .phys (pa / n * n)
  | .lease pa => .lease (pa / n * n)

/-! ## Lease caches (R4, R241, R242)

A lease cache holds lines as they stood at the core's last step that reached a home: such a step drops every line that has
changed since (notes/assumptions/43.md). -/

/-- A line of device DRAM with the poison of its granules. -/
def lineNow (s : State) (line : Nat) : BitVec 512 × BitVec 16 :=
  (BitVec.ofNat 512 (s.mem.readLE (64 * line) 64),
    (List.range 16).foldl (fun (m : BitVec 16) i => if s.mem.granule (16 * line + i) then m ||| 1#16 <<< i else m) 0)

/-- The core has reached a home: its clock has passed every lease on a line that has been written since. -/
def State.settle (s : State) (core : Nat) : State :=
  let c := s.core core
  if c.leases.isEmpty then s
  else s.setCore core { c with leases := c.leases.filter fun l => (l.data, l.pois) == lineNow s l.line }

/-- A step of the core in focus at a home. The core's clock passes what it writes as well (R241). -/
def State.atHome (s : State) (f : State → State) : State := (f (s.settle s.blk.core)).settle s.blk.core

/-- The home grants a lease on each of some lines; the cache holds 64 KiB. -/
def State.grantLeases (s : State) (core : Nat) (lines : List Nat) : State :=
  let one (s : State) (line : Nat) : State :=
    let c := s.core core
    let (d, p) := lineNow s line
    s.setCore core { c with leases := (⟨line, d, p, s.now core⟩ :: c.leases.filter (·.line != line)).take 1024 }
  lines.foldl one s

/-- The lines of 64 bytes that some bytes touch. -/
def linesOf (pa n : Nat) : List Nat := (List.range ((pa % 64 + n + 63) / 64)).map (pa / 64 + ·)

/-- A line that the core holds under a lease less than 4 µs old. -/
def Core.leaseOn (c : Core) (now : Word) (line : Nat) : Option Lease :=
  c.leases.find? fun l => l.line == line && decide ((now - l.since).toNat < 4000)

/-- What the lease cache serves: the bytes, and the poison bits of their granules. -/
def leaseRead (s : State) (l : Loc) (n : Nat) : Option (Nat × Nat) :=
  match l with
  | .lease pa =>
    let lines := linesOf pa n
    let got := lines.filterMap ((s.core s.blk.core).leaseOn s.tbase)
    if got.length = lines.length then
      let all (w : Nat) (f : Lease → Nat) : Nat := got.foldr (fun x acc => f x + 2 ^ w * acc) 0
      some (all 512 (·.data.toNat) / 2 ^ (8 * (pa % 64)) % 2 ^ (8 * n),
        all 16 (·.pois.toNat) / 2 ^ (pa % 64 / 4) % 2 ^ ((n + 3) / 4))
    else none
  | _ => none

/-- A load's step at the home. -/
def homeLoad (s : State) (l : Loc) (n : Nat) : State :=
  let t := (s.settle s.blk.core).snoopLoc l n
  match l with
  | .lease pa => t.grantLeases s.blk.core (linesOf pa n)
  | _ => t

/-- A load of `n` bytes, from the lease cache or from the home: the state, the value, and whether a granule that the mask
names is poisoned. -/
def loadFrom (s : State) (l : Loc) (n mask : Nat) : State × Nat × Bool :=
  match leaseRead s l n with
  | some (v, p) => (s, v, p &&& mask != 0)
  | none => (homeLoad s l n, (readLoc s l n).1, lanesPoisonLoc s l mask)

/-- A step at a place of another package waits for a route (R353). -/
def withLocRoute (s : State) (l : Loc) (f : State → State) : State :=
  match l with
  | .phys pa => withRoute s s.blk.part pa f
  | _ => f s

/-! ## Core faults (R176) -/

/-- A core fault of the block in focus: the block stops until it is replayed and FCODE says why. -/
def coreFaultHere (s : State) (fcode : BitVec 8) : State :=
  let c := s.core s.blk.core
  ((s.setCore s.blk.core { c with fcode := fcode }).setBlk { s.blk with status := .failed }).setDisp .stopped

/-! ## Taking a trap and returning from one (R86 to R89, R206, R337) -/

/-- TCAUSE as a word (R85). -/
def causeWord (code : BitVec 8) (isAsync shadow : Bool) : BitVec 10 :=
  BitVec.ofBool shadow ++ (BitVec.ofBool isAsync ++ code)

/-- Close the timed region that is open (R285, R286); `trapd` when trap entry closes it. -/
def Tslip.close (t : Tslip) (trapd : Bool) : Tslip :=
  match t.region with
  | none => t
  | some _ =>
    { t with region := none, last := t.cur, trapd := t.trapd || trapd, slipped := t.slipped || t.cur != 0,
             scount := if t.cur != 0 && t.scount != 0xFF then t.scount + 1 else t.scount, due := none }

/-- A latch's KIND and REG bytes (R87). -/
def RegName.kindByte : RegName → Nat
  | .s _ => 1 | .v _ => 2 | .p _ => 3 | .k _ => 4
def RegName.numByte : RegName → Nat
  | .s n => n.val | .v n => n.val | .p n => n.val | .k n => n.val

/-- A latch descriptor of 16 bytes (R87). -/
def latchDesc (cyc : Nat) (l : Latch) : Nat :=
  let v := match l.reg with
    | .v _ => 0
    | _ => l.val.toNat % 2 ^ 64
  v + 2 ^ 64 * l.reg.kindByte + 2 ^ 72 * l.reg.numByte + 2 ^ 80 * (l.tag - cyc) + 2 ^ 88 * l.flags.toNat +
    2 ^ 96 * l.poison.toNat

/-- SFINFO (R87). -/
def sfinfoWord (x : Option Shadow) : Nat :=
  match x with
  | none => 0
  | some sh => 2 ^ 63 + sh.w * 2 ^ 16 + sh.rep.toNat * 2 ^ 8 + sh.code.toNat

/-- Row 0 of the frame (R87). -/
def frameRow0 (epc : Word) (cause : BitVec 10) (tval sstat : Word) (rep : Nat) (sh : Option Shadow) (n : Nat) : Nat :=
  epc.toNat + 2 ^ 64 * cause.toNat + 2 ^ 128 * tval.toNat + 2 ^ 192 * sstat.toNat + 2 ^ 256 * (rep % 2 ^ 32) +
    2 ^ 320 * (match sh with | some x => x.pc.toNat | none => 0) +
    2 ^ 384 * (match sh with | some x => x.va.toNat | none => 0) + 2 ^ 448 * sfinfoWord sh + 2 ^ 512 * n

/-- Row 1 of the frame: the descriptors (R87). -/
def frameRow1 (cyc : Nat) : List Latch → Nat
  | [] => 0
  | l :: r => latchDesc cyc l + 2 ^ 128 * frameRow1 cyc r

/-- The data rows of the vector latches, row 2 + i for latch i (R87). -/
def frameRows (base : Nat) : List Latch → Nat → Store → Store
  | [], _, m => m
  | l :: r, i, m =>
    frameRows base r (i + 1) (match l.reg with
      | .v _ => m.writeWords (base + 256 * (2 + i)) 64 l.val.toNat false
      | _ => m)

/-- The first byte of the frame in the scratchpad (R71: TFRAME bits 12:4 hold the row ÷ 16). -/
def frameBase (c : Ctl) : Nat := c.tframe.toNat * 16 * 256

/-- Trap entry, steps 3 to 5 of R86, for the agent in focus, whose pending marks are clear. A frame above the block's
rows is a double trap (R174). -/
def enterTrap (s : State) (t : TrapRec) (shadowed : Bool) : State :=
  let a := s.ag
  let c := a.ctl
  if s.blk.sprows < c.tframe.toNat * 16 + 14 then coreFaultHere { s with ag := { a with trap := none } } 2
  else
    let ls := sortLatches a.latches
    let cause := causeWord t.code t.isAsync shadowed
    let base := frameBase c
    let m0 := s.blk.pad.writeWords base 64
      (frameRow0 t.epc cause t.tval (sstatWord s.blk s.cur.w c) t.rep a.shadow ls.length) false
    let m1 := m0.writeWords (base + 256) 64 (frameRow1 a.cyc ls) false
    let c' := { c with tcause := cause, epc := t.epc, tval := t.tval, pm := true, inh := true, ie := false,
                       tslip := c.tslip.close true }
    { s with
      blk := { s.blk with pad := frameRows base ls 0 m1 }
      ag := { a with ctl := c', latches := [], rep := none, wait := 0, trap := none, shadow := none, pc := c.tvec } }

/-- Raise a trap of the agent in focus (R86, R206, R337). It is entered in the same step when no pending mark is left;
otherwise it waits, the stream issues nothing, and an open region closes as trap entry begins (R285). -/
def raiseAt (s : State) (code : BitVec 8) (isAsync : Bool) (epc tval : Word) (rep : Nat) : State :=
  let s := s.setDisp .stopped
  let a := s.ag
  if s.cur.w = 4 then
    s.setAg { a with run := .mpStopped,
                     ctl := { a.ctl with tcause := causeWord code false false, epc := epc, tval := tval, mptxid := 0 } }
  else if a.ctl.inh then coreFaultHere s 2
  else if a.ctl.tvec = 0 then s.setAg { a with run := .halted }
  else
    let t : TrapRec := ⟨code, isAsync, epc, tval, rep⟩
    if a.pend.isEmpty && a.walk.isNone then enterTrap s t false
    else s.setAg { a with trap := some t, ctl := { a.ctl with tslip := a.ctl.tslip.close true } }

/-- A trap of the word at issue: EPC is its address, and the word has had no effect. -/
def State.raise (s : State) (code : BitVec 8) (tval : Word) : State :=
  raiseAt s code false s.cur.pc tval ((s.ag.rep).getD 0)

/-- A trap with a register or item number in TVAL. -/
def State.raiseNat (s : State) (code : BitVec 8) (n : Nat) : State := s.raise code (BitVec.ofNat 64 n)

/-- POISON for the first poisoned register of a list, with its number in TVAL (R83, R92, R121, R184). -/
def State.checkPoison (s : State) (l : List RegName) (f : State → State) : State :=
  match l.find? s.ag.poisoned with
  | some r => s.raiseNat cPOISON r.numByte
  | none => f s

/-- A latch that ERET puts back from a descriptor (R88). A REG beyond the registers of its KIND names one modulo their
number (notes/assumptions/54.md). -/
def readLatch (pad : Store) (base cyc i : Nat) : Option Latch :=
  let d := base + 256 + 16 * i
  let kind := pad.readLE (d + 8) 1
  let num := pad.readLE (d + 9) 1
  let rem := min (max (pad.readLE (d + 10) 1) 1) 11
  let reg : Option RegName := match kind with
    | 1 => some (.s (Fin.ofNat 32 num))
    | 2 => some (.v (Fin.ofNat 16 num))
    | 3 => some (.p (Fin.ofNat 8 num))
    | 4 => some (.k (Fin.ofNat 8 num))
    | _ => none
  reg.map fun r =>
    let v := match r with
      | .v _ => pad.readLE (base + 256 * (2 + i)) 256
      | _ => pad.readLE d 8
    ⟨r, BitVec.ofNat 2048 v, cyc + rem, Flags.ofNat (pad.readLE (d + 11) 1 % 32), pad.readLE (d + 12) 1 % 2 == 1⟩

/-- SSTAT written whole from a word, IPEND unchanged (R88). -/
def Ctl.setSstat (c : Ctl) (x : Word) : Ctl :=
  { c with imask := x.extractLsb' 16 8, vs := x.getLsbD 3, inh := x.getLsbD 2, ie := x.getLsbD 1, pm := x.getLsbD 0 }

/-- The descriptors with every REM raised by `n` (R89 step 2). -/
def raiseRems (m : Store) (base n : Nat) : Nat → Store
  | 0 => m
  | i + 1 =>
    let d := base + 256 + 16 * i
    let m' := if m.readLE (d + 8) 1 = 0 then m
      else (m.setByte (d + 10) (BitVec.ofNat 8 (m.readLE (d + 10) 1 + n))).setGranule ((d + 8) / 4) false
    raiseRems m' base n i

/-- The return of R88 to the EPC of the frame with its low three bits cleared (R50), with the re-raised shadow fault of
R89: a trap entry that leaves SFPC and SFADDR of the frame as they are and closes an open timed region (R287). -/
def returnTrap (s : State) : State :=
  let a := s.ag
  let base := frameBase a.ctl
  let pad := s.blk.pad
  let q (o : Nat) : Word := BitVec.ofNat 64 (pad.readLE (base + o) 8)
  let c := { a.ctl.setSstat (q 0x18) with inh := false }
  let sf := q 0x38
  let n := min ((q 0x40).toNat % 16) 12
  if sf.getLsbD 63 && c.tvec == 0 then s.setAg { a with run := .halted, ctl := c }
  else if sf.getLsbD 63 then
    let w := (sf.extractLsb' 16 3).toNat
    let rep := (q 0x20).toNat % 2 ^ 32 + (if sf.getLsbD 8 then 1 else 0)
    let cause := causeWord (sf.extractLsb' 0 8) false true
    let m1 := raiseRems pad base (1 + w) 12
    let m2 := m1.writeWords base 64
      (frameRow0 (q 0x28) cause (q 0x30) (sstatWord s.blk s.cur.w c) rep none n +
        2 ^ 320 * (q 0x28).toNat + 2 ^ 384 * (q 0x30).toNat) false
    { s with
      blk := { s.blk with pad := m2 }
      ag := { a with pc := c.tvec, rep := none,
                     ctl := { c with tcause := cause, epc := q 0x28, tval := q 0x30, pm := true, inh := true, ie := false,
                                     tslip := c.tslip.close true } } }
  else
    let rep := (q 0x20).toNat % 2 ^ 32
    { s with ag := { a with pc := q 0x00 &&& ~~~7#64, ctl := c, rep := if rep = 0 then none else some rep,
                            latches := (List.range n).filterMap (readLatch pad base (a.cyc + 1)) } }

end Sys2Proof.Machine
end

