-- ==== Sys2Proof/Machine/Flags.lean ====
section
/-! DEFINITION. FCTL, the effective rounding mode and the stochastic generators (spec/02_number_formats.md R31, R34 to
R38). The flags of each rounding are computed in Float.lean. -/

namespace Sys2Proof.Machine

/-- FCTL as MFC reads it (R37). -/
def fctlWord (c : Ctl) : Word := BitVec.ofNat 64 (c.flags.toNat * 256 + c.rm.toNat)

/-- An MTC to FCTL: a flag written as 0 clears, RM 7 stores 0 (R37, R71). -/
def Ctl.setFctl (c : Ctl) (x : Word) : Ctl :=
  let f := Flags.ofNat (x.extractLsb' 8 5).toNat
  let g := c.flags
  { c with
    flags := ⟨g.nx && f.nx, g.uf && f.uf, g.of && f.of, g.dz && f.dz, g.nv && f.nv⟩
    rm := if x.extractLsb' 0 3 = 7 then 0 else x.extractLsb' 0 3 }

/-- EffRM (R23, R31). -/
def effRm (c : Ctl) : Rm → Rm
  | .dyn => Rm.ofCode c.rm.toNat
  | r => r

/-- The generator an instruction with this RM names (R35). -/
def genNamed (c : Ctl) (r : Rm) : Option (Fin 2) :=
  match effRm c r with
  | .sr0 => some 0
  | .sr1 => some 1
  | _ => none

/-- Mix (R34). -/
def mix (seed ctr : Word) (idx : Nat) : Nat :=
  let z := seed ^^^ (ctr * 0x9E6B3A51C2F47D19#64) ^^^ (BitVec.ofNat 64 idx * 0x5C8E21F7A93D0B65#64)
  let z := (z ^^^ (z >>> 31)) * 0xE4A196C37F05B2D9#64
  let z := (z ^^^ (z >>> 29)) * 0x83F25D0BC6A7194F#64
  let z := z ^^^ (z >>> 32)
  (z.extractLsb' 48 16).toNat

/-- What an instruction needs to round its elements: the effective mode, and the generator's seed and the counter's
value at issue (R34, R35). -/
structure Rounder where
  rm : Rm
  seed : Word
  ctr : Word
  deriving DecidableEq, Repr

def rounder (c : Ctl) (r : Rm) : Rounder :=
  match genNamed c r with
  | some n => ⟨effRm c r, c.gseed[n], c.gctr[n]⟩
  | none => ⟨effRm c r, 0, 0⟩

/-- The rounding mode of the element whose index is `idx` (R34, R36). -/
def Rounder.at (r : Rounder) (idx : Nat) : RMode :=
  match r.rm with
  | .rne | .dyn => .rne
  | .rtz => .rtz
  | .rdn => .rdn
  | .rup => .rup
  | .rna => .rna
  | .sr0 | .sr1 => .sr (mix r.seed r.ctr idx)

/-- The index of the rounding numbered n of one element (R36). -/
def roundIdx (idx n : Nat) : Nat := idx + n * 2 ^ 32

def Rounder.isRdn (r : Rounder) : Bool := r.rm == .rdn

/-- Round to nearest, ties to even, with no generator. -/
def rneRounder : Rounder := ⟨.rne, 0, 0⟩

/-- The generator that an instruction names advances by one (R35). -/
def Agent.advanceGen (a : Agent) (r : Option Rm) : Agent :=
  match r with
  | none => a
  | some m =>
    match genNamed a.ctl m with
    | none => a
    | some n => { a with ctl := { a.ctl with gctr := a.ctl.gctr.set n (a.ctl.gctr[n] + 1) } }

end Sys2Proof.Machine
end

