-- ==== Sys2Proof/Machine/Coverage.lean ====
section
/-! DEFINITION. The block walker's choice of points and the coverage fraction (spec/14_cluster_scheduling_and_coverage.md
R258, R264 to R269). -/

namespace Sys2Proof.Machine

/-! ## Patterns (R265, R266) -/

def CovRec.k (c : CovRec) : Nat := c.code.toNat % 16
def CovRec.family (c : CovRec) : Nat := c.code.toNat / 16 % 4
def CovRec.stagger (c : CovRec) : Bool := c.code.getLsbD 7

/-- A pattern code that R265 calls invalid. -/
def patternInvalid (code : BitVec 8) : Bool :=
  let k := code.toNat % 16
  let fam := code.toNat / 16 % 4
  fam == 3 || (k == 0 && fam != 0) || (k == 0 && code.getLsbD 7) || code.getLsbD 6 || decide (4 < k)

/-- Reverse the k low bits. -/
def revBits (x : Nat) : Nat → Nat
  | 0 => 0
  | k + 1 => x % 2 * 2 ^ k + revBits (x / 2) k

/-- The ordered-dither rank (R265), bits i to k - 1. -/
def rank2 (x y k : Nat) : Nat :=
  (List.range k).foldl (fun r i =>
    let a := (x.testBit i != y.testBit i).toNat
    let b := (y.testBit i).toNat
    r + (2 * a + b) * 4 ^ (k - 1 - i)) 0

/-- A point's coordinates. -/
structure Point where
  x : Nat
  y : Nat
  z : Nat
  deriving DecidableEq, Repr

def Walker.point (w : Walker) (pidx : Nat) : Point := ⟨pidx % w.gx, pidx / w.gx % w.gy, pidx / (w.gx * w.gy)⟩
def Walker.total (w : Walker) : Nat := w.gx * w.gy * w.gz

def rankOf (c : CovRec) (p : Point) : Nat :=
  let x' := if c.stagger then p.x + p.z else p.x
  match c.family with
  | 0 => rank2 x' p.y c.k
  | 1 => revBits (p.y % 2 ^ c.k) c.k
  | _ => revBits (x' % 2 ^ c.k) c.k

def alwaysKept (c : CovRec) (w : Walker) (p : Point) : Bool :=
  let inX := p.x == 0 || p.x + 1 == w.gx
  let inY := p.y == 0 || p.y + 1 == w.gy
  match c.family with
  | 0 => inX || inY
  | 1 => inY
  | _ => inX

/-- Kept under fraction f (R266); code 0 skips nothing. -/
def keptUnder (c : CovRec) (w : Walker) (f : Nat) (p : Point) : Bool :=
  let per := 2 ^ c.k
  let n := if c.family = 0 then per * per else per
  c.code == 0 || alwaysKept c w p || decide (rankOf c p < (f * n + 255) / 256)

/-- An audit point among the skipped ones (R267). -/
def auditPoint (c : CovRec) (lnum pidx : Nat) (covctl : Word) : Bool :=
  decide (mix c.seed (BitVec.ofNat 64 lnum) pidx / 256 % 256 < covctl.toNat % 256)

/-- A point value (R258). -/
def pointValue (p : Point) (audit : Bool) : Word :=
  BitVec.ofNat 64 (audit.toNat * 2 ^ 63 + p.z * 2 ^ 48 + p.y * 2 ^ 24 + p.x)

/-! ## The fraction of a plane (R268) -/

def covFmin (v : Word) : Nat := (v.extractLsb' 24 8).toNat
def covFmax (v : Word) : Nat := (v.extractLsb' 16 8).toNat

/-- An output that the unit cannot reconstruct (R263). -/
def notReconstructable (tag : BitVec 8) : Bool := [0x00, 0xC0, 0x83].contains tag.toNat

/-- Does the launch run at f = 256 throughout (R264)? -/
def CovRec.fixed (c : CovRec) : Bool := c.outs.any fun o => notReconstructable o.tag

/-- The fraction of the plane whose first hand-out index would be i0, or none while an update is awaited. -/
def planeFraction (w : Walker) (c : CovRec) (covctl : Word) (z i0 : Nat) : Option Nat :=
  if c.fixed then some 256
  else if z = 0 then some w.fstart
  else if covctl.getLsbD 15 then
    let due := i0 / 4096 - 1
    if due ≤ w.updates.length then
      some (if due = 0 then w.planes.getD (z - 1) w.fstart else w.updates.getD (due - 1) w.fstart)
    else none
  else some (w.planes.getD (z - 1) w.fstart)

/-- What the walker finds next. -/
inductive NextPoint where
  | point (pidx : Nat) (audit : Bool) (w : Walker)
  | awaits
  | done
  deriving DecidableEq, Repr

/-- The next point of a stage in ascending linear index (R258, R266 to R268). -/
def scanPoints (c : Option CovRec) (lnum : Nat) (covctl : Word) : Nat → Walker → NextPoint
  | 0, _ => .done
  | n + 1, w =>
    if w.total ≤ w.pidx then .done else
    let p := w.point w.pidx
    match c with
    | none => .point w.pidx false { w with pidx := w.pidx + 1, idx := w.idx + 1 }
    | some c =>
      let known := if p.z < w.planes.length then some w else
        (planeFraction w c covctl p.z w.idx).map fun f => { w with planes := w.planes ++ [f] }
      match known with
      | none => .awaits
      | some w =>
        if keptUnder c w (w.planes.getD p.z 256) p then .point w.pidx false { w with pidx := w.pidx + 1, idx := w.idx + 1 }
        else if auditPoint c lnum w.pidx covctl then .point w.pidx true { w with pidx := w.pidx + 1, idx := w.idx + 1 }
        else scanPoints (some c) lnum covctl n { w with pidx := w.pidx + 1 }

def Launch.next (l : Launch) (st : Stage) (w : Walker) : NextPoint := scanPoints st.cov l.lnum l.covctl w.total w

/-- Has the stage a point left to hand out (R254, R258)? -/
def Stage.pointsLeft (l : Launch) (st : Stage) : Bool :=
  match st.walker with
  | none => false
  | some w => !w.returned.isEmpty || (match l.next st w with | .done => false | _ => true)

/-- One update from a fraction, with the sum of comparisons already decided (R268). -/
def updateFraction (covctl : Word) (f : Nat) (above below : Bool) : Nat :=
  let up := (covctl.extractLsb' 12 3).toNat
  let down := (covctl.extractLsb' 8 3).toNat
  let f' : Int := if above then (f : Int) + 2 ^ up else if below then (f : Int) - 2 ^ down else f
  (min ((covFmax covctl : Int) + 1) (max ((covFmin covctl : Int) + 1) f')).toNat

end Sys2Proof.Machine
end

