-- ==== Sys2Proof/Machine/Operands.lean ====
section
/-! DEFINITION. The operands of every instruction word: which registers it reads and writes, its latency, its handles
and their classes, the feature mask bit and the die class it needs (R66, R76, R77, R141, R183, R213, R214, R218, R331),
and the rules of handles and items (R23, R159 to R166). -/

namespace Sys2Proof.Machine

/-- The registers an instruction reads, other than its guard (R74, R77). -/
def srcsOf : Instr → List RegName
  | .add _ a b | .sub _ a b | .mul _ a b | .mulh _ a b | .mulhn _ a b | .and _ a b | .or _ a b | .xor _ a b
  | .andn _ a b | .shl _ a b | .shr _ a b | .sar _ a b | .ror _ a b | .min _ a b | .max _ a b | .minn _ a b
  | .maxn _ a b | .seq _ a b | .slt _ a b | .sltn _ a b => [.s a, .s b]
  | .clz _ a | .popc _ a | .mov _ a | .addi _ a _ | .andi _ a _ | .ori _ a _ | .xori _ a _ | .shli _ a _ | .shri _ a _
  | .sari _ a _ | .rori _ a _ | .slti _ a _ => [.s a]
  | .peq _ a b | .pne _ a b | .plt _ a b | .pge _ a b | .pltn _ a b | .pgen _ a b | .ptst _ a b => [.s a, .s b]
  | .pand _ a b | .por _ a b | .pxor _ a b => [.p a, .p b]
  | .pnot _ a => [.p a]
  | .vadd _ va vb _ _ | .vsub _ va vb _ _ | .vmul _ va vb _ _ | .vmin _ va vb _ _ | .vmax _ va vb _ _ => [.v va, .v vb]
  | .vfma vd va vb _ _ | .vfms vd va vb _ _ => [.v va, .v vb, .v vd]
  | .vabs _ va _ _ | .vneg _ va _ _ | .vrcp _ va _ _ | .vrsq _ va _ _ | .vsqrt _ va _ _ | .vex2 _ va _ _
  | .vlg2 _ va _ _ | .vtanh _ va _ _ => [.v va]
  | .viadd _ va vb _ | .visub _ va vb _ | .vimul _ va vb _ | .vimin _ va vb _ | .vimax _ va vb _ | .vshl _ va vb _
  | .vshr _ va vb _ | .vsar _ va vb _ | .vand _ va vb | .vor _ va vb | .vxor _ va vb => [.v va, .v vb]
  | .vmov _ va => [.v va]
  | .div _ a b | .divn _ a b | .rem _ a b | .remn _ a b => [.s a, .s b]
  | .ld _ a _ | .lds _ a _ | .chk a => [.s a]
  | .st d a _ => [.s a, .s d]
  | .aadd _ a b _ | .amin _ a b _ | .amax _ a b _ | .aand _ a b _ | .aor _ a b _ | .axor _ a b _ | .aswp _ a b _ => [.s a, .s b]
  | .acas d a b _ => [.s a, .s b, .s d]
  | .extr _ a _ _ => [.s a]
  | .insr d a _ _ => [.s a, .s d]
  | .fpush a _ => [.s a]
  | .hset _ a b | .tsetc a b => [.s a, .s b]
  | .vld vd base k _ | .vlds vd base k _ => [.s base, .k k] ++ (if k = 0 then [] else [.v vd])
  | .vst vd base k _ => [.s base, .k k, .v vd]
  | .vchk vd => [.v vd]
  | .vgath vd vi base k _ | .vscat vd vi base k _ => [.s base, .k k, .v vi, .v vd]
  | .vcmp _ va vb _ _ _ => [.v va, .v vb]
  | .vsel _ va vb kc => [.v va, .v vb, .k kc]
  | .vbcst _ _ (.reg s) => [.s s]
  | .vext _ va _ _ => [.v va]
  | .vperm _ va vb => [.v va, .v vb]
  | .vrotm vd va kc _ => [.v va, .k kc, .v vd]
  | .vcvt _ va _ _ _ _ | .vred _ va _ _ _ | .vscan _ va _ _ _ => [.v va]
  | .vtopk _ va vb _ _ => [.v va, .v vb]
  | .vpushc va kc _ s => [.v va, .k kc, .s s]
  | .vpopc _ _ s => [.s s]
  | .kand _ a b | .kor _ a b | .kxor _ a b => [.k a, .k b]
  | .knot _ a | .kcnt _ a | .kmovFromMask _ a => [.k a]
  | .kmovToMask _ s => [.s s]
  | .tfromv _ z => (List.range 8).map fun j => .v (Fin.ofNat 16 (8 * z.toNat + j))
  | .tlds _ c | .tsts _ c => [.s c]
  | .tsta _ c m | .tgath _ _ c m => [.s c, .s m]
  | .tadd _ _ _ m | .tmul _ _ _ m | .tmax _ _ _ m | .tscal _ _ _ m | .tred _ _ m | .tacc _ _ _ _ m
  | .mmbi _ _ _ _ _ m | .mmf _ _ _ _ _ m | .mmf32 _ _ _ _ _ m | .mmd _ _ _ _ _ m | .tcvt _ _ _ _ _ _ m
  | .tcvtPageAppend _ _ _ _ _ m => [.s m.mask]
  | .jmp a _ | .loop a _ | .rep a | .waitt a | .timed a _ => [.s a]
  | .ret => [.s 31]
  | .mtc a _ | .mtcTcmp a | .mtcSstat a | .seed _ a | .tlbinv a _ | .pcmd a => [.s a]
  | .copy _ f _ _ _ | .copytIn _ f _ _ _ _ _ _ _ | .copytOut _ f _ _ _ _ _ => [.s f]
  | .cwait t _ => [.s t]
  | .cstat _ f _ => [.s f]
  | .prefL2 f _ | .prefLease f _ | .prefDemote f _ => [.s f]
  | _ => []

/-- The registers an instruction writes (R74, R77). -/
def dstsOf : Instr → List RegName
  | .add d _ _ | .sub d _ _ | .mul d _ _ | .mulh d _ _ | .mulhn d _ _ | .and d _ _ | .or d _ _ | .xor d _ _
  | .andn d _ _ | .shl d _ _ | .shr d _ _ | .sar d _ _ | .ror d _ _ | .min d _ _ | .max d _ _ | .minn d _ _
  | .maxn d _ _ | .seq d _ _ | .slt d _ _ | .sltn d _ _ | .clz d _ | .popc d _ | .mov d _ | .addi d _ _ | .andi d _ _
  | .ori d _ _ | .xori d _ _ | .shli d _ _ | .shri d _ _ | .sari d _ _ | .rori d _ _ | .slti d _ _ | .movi d _ => [.s d]
  | .peq d _ _ | .pne d _ _ | .plt d _ _ | .pge d _ _ | .pltn d _ _ | .pgen d _ _ | .ptst d _ _ | .pand d _ _
  | .por d _ _ | .pxor d _ _ | .pnot d _ | .tvoid d _ _ | .mwait d _ _ _ => [.p d]
  | .vadd vd _ _ _ _ | .vsub vd _ _ _ _ | .vmul vd _ _ _ _ | .vmin vd _ _ _ _ | .vmax vd _ _ _ _ | .vfma vd _ _ _ _
  | .vfms vd _ _ _ _ | .vabs vd _ _ _ | .vneg vd _ _ _ | .vrcp vd _ _ _ | .vrsq vd _ _ _ | .vsqrt vd _ _ _
  | .vex2 vd _ _ _ | .vlg2 vd _ _ _ | .vtanh vd _ _ _ | .viadd vd _ _ _ | .visub vd _ _ _ | .vimul vd _ _ _
  | .vimin vd _ _ _ | .vimax vd _ _ _ | .vshl vd _ _ _ | .vshr vd _ _ _ | .vsar vd _ _ _ | .vand vd _ _ | .vor vd _ _
  | .vxor vd _ _ | .vmov vd _ => [.v vd]
  | .div d _ _ | .divn d _ _ | .rem d _ _ | .remn d _ _ | .ld d _ _ | .lds d _ _ | .aadd d _ _ _ | .amin d _ _ _
  | .amax d _ _ _ | .aand d _ _ _ | .aor d _ _ _ | .axor d _ _ _ | .aswp d _ _ _ | .acas d _ _ _ | .extr d _ _ _
  | .insr d _ _ _ | .fpop d _ | .hget d _ _ | .tgen d _ _ => [.s d]
  | .vld vd _ _ _ | .vlds vd _ _ _ | .vgath vd _ _ _ _ => [.v vd]
  | .vcmp vd _ _ _ _ _ => [.k vd]
  | .vsel vd _ _ _ | .vbcst vd _ _ | .vidx vd _ _ | .vperm vd _ _ | .vrotm vd _ _ _ | .vcvt vd _ _ _ _ _
  | .vred vd _ _ _ _ | .vscan vd _ _ _ _ | .vtopk vd _ _ _ _ | .vpopc vd _ _ => [.v vd]
  | .vext s _ _ _ | .kcnt s _ | .kmovFromMask s _ => [.s s]
  | .kand d _ _ | .kor d _ _ | .kxor d _ _ | .knot d _ | .kmovToMask d _ => [.k d]
  | .ttov _ z => (List.range 8).map fun j => .v (Fin.ofNat 16 (8 * z.toNat + j))
  | .call _ => [.s 31]
  | .loop a _ => [.s a]
  | .mfc d _ => [.s d]
  | .copy t f _ _ adv | .copytIn t f _ _ _ _ _ _ adv | .copytOut t f _ _ _ _ adv =>
    [.s t] ++ (if adv then [.s f] else [])
  | .copytXfer t _ _ _ _ _ => [.s t]
  | .cstat t _ _ => [.s t]
  | _ => []

/-- Scoreboarded instructions: their destinations carry pending marks until delivery (R77, R96, R145, R180, R188,
R216). -/
def boarded : Instr → Bool
  | .div .. | .divn .. | .rem .. | .remn .. | .ld .. | .lds .. | .aadd .. | .amin .. | .amax .. | .aand .. | .aor ..
  | .axor .. | .aswp .. | .acas .. | .fpop .. | .tgen .. | .vld .. | .vlds .. | .vgath .. | .vpopc .. | .ttov ..
  | .copy .. | .copytIn .. | .copytOut .. | .copytXfer .. => true
  | _ => false

/-- The destinations a scoreboarded instruction marks; NEXT of a copy has latency 1 (R77, R209). -/
def boardedRegs (i : Instr) : List RegName :=
  match i with
  | .copy t _ _ _ _ | .copytIn t _ _ _ _ _ _ _ _ | .copytOut t _ _ _ _ _ _ => [.s t]
  | i => if boarded i then dstsOf i else []

/-- The exposed latency of the floating-point class (R76). -/
def VTy.fpLat : VTy → Nat
  | .f64 => 6
  | _ => 4

/-- The latencies of VRED and VSCAN (R141). -/
def VTy.redLat : VTy → Nat
  | .i32 | .n32 | .i16 | .i8 => 3
  | .f64 => 12
  | _ => 10
def VTy.scanLat : VTy → Nat
  | .i32 | .n32 | .i16 | .i8 => 4
  | _ => 12

/-- The exposed latency of a result of fixed latency (R76, R141); 1 where no other is given. -/
def latOf : Instr → Nat
  | .vadd _ _ _ _ t | .vsub _ _ _ _ t | .vmul _ _ _ _ t | .vfma _ _ _ _ t | .vfms _ _ _ _ t | .vmin _ _ _ _ t
  | .vmax _ _ _ _ t | .vabs _ _ _ t | .vneg _ _ _ t | .vcmp _ _ _ _ t _ => VTy.fpLat t
  | .vcvt _ _ _ t code _ => if t = .f64 ∨ code = 7 then 6 else 4
  | .vrcp .. | .vrsq .. | .vsqrt .. | .vex2 .. | .vlg2 .. | .vtanh .. | .vtopk .. => 8
  | .vperm .. | .vrotm .. => 2
  | .vred _ _ _ t _ => VTy.redLat t
  | .vscan _ _ _ t _ => VTy.scanLat t
  | _ => 1

/-- The RM field of an instruction that has one (R35, R60). -/
def rmOf : Instr → Option Rm
  | .vadd _ _ _ m _ | .vsub _ _ _ m _ | .vmul _ _ _ m _ | .vfma _ _ _ m _ | .vfms _ _ _ m _ | .vmin _ _ _ m _
  | .vmax _ _ _ m _ | .vabs _ _ m _ | .vneg _ _ m _ | .vrcp _ _ m _ | .vrsq _ _ m _ | .vsqrt _ _ m _ | .vex2 _ _ m _
  | .vlg2 _ _ m _ | .vtanh _ _ m _ | .vcvt _ _ m _ _ _ | .vred _ _ m _ _ | .vscan _ _ m _ _ => some m.rm
  | .tadd _ _ _ m | .tmul _ _ _ m | .tmax _ _ _ m | .tscal _ _ _ m | .tred _ _ m | .tacc _ _ _ _ m
  | .mmbi _ _ _ _ _ m | .mmf _ _ _ _ _ m | .mmf32 _ _ _ _ _ m | .mmd _ _ _ _ _ m | .tcvt _ _ _ _ _ _ m
  | .tcvtPageAppend _ _ _ _ _ m => some m.fm.rm
  | _ => none

/-- The vector type of an instruction that has a type field that may be f64 (R66). -/
def vtyOf : Instr → Option VTy
  | .vadd _ _ _ _ t | .vsub _ _ _ _ t | .vmul _ _ _ _ t | .vfma _ _ _ _ t | .vfms _ _ _ _ t | .vmin _ _ _ _ t
  | .vmax _ _ _ _ t | .vabs _ _ _ t | .vneg _ _ _ t | .vcmp _ _ _ _ t _ | .vbcst _ t _ | .vext _ _ t _
  | .vcvt _ _ _ t _ _ | .vred _ _ _ t _ | .vscan _ _ _ t _ => some t
  | _ => none

/-- Tags whose arithmetic TCVT has on Indigo dies alone: mxfp4, bi2 to bi8, mxint8 (R66). -/
def narrowTag (t : BitVec 8) : Bool := [0x71, 0x83, 0x85, 0x87, 0x89, 0x8B, 0x8D, 0x8F, 0x91].contains t.toNat

/-- The feature-mask bits of R331 that check 6 tests, and the die class check 7 needs (true: Ochre), by encoding. -/
def featureOf (i : Instr) : List Nat × Option Bool :=
  if vtyOf i = some .f64 then ([5] ++ (match i with | .vcvt _ _ _ _ c _ => if c.val ∈ [10, 11, 12, 15] then [2] else [] | _ => []),
    some true)
  else match i with
    | .mmbi .. => ([0], some false)
    | .mmf32 .. => ([3], some true)
    | .mmd .. => ([4], some true)
    | .timed .. => ([6], none)
    | .vcvt _ _ _ _ c _ => if c.val ∈ [10, 11, 12, 15] then ([2], some false) else ([], none)
    | .tcvt _ _ tag _ _ _ _ | .tcvtPageAppend _ _ tag _ _ _ => if narrowTag tag then ([2], some false) else ([], none)
    | _ => ([], none)

/-- Both classes are needed at once: an f64 VCVT to or from a narrow format executes nowhere (R66). -/
def nowhere : Instr → Bool
  | .vcvt _ _ _ t c _ => t == .f64 && [10, 11, 12, 15].contains c.val
  | _ => false

/-! ## Handles and items (R23, R159 to R166) -/

/-- The TILE operand positions D, A, B, C that name handles, with the classes each accepts (R183). -/
def tileHandles : Instr → List (TileOp × List Nat)
  | .tzero d => [(d, [0, 1])]
  | .tmov d a => [(d, [0, 1]), (a, [0, 1])]
  | .tfromv d _ => [(d, [0])]
  | .ttov a _ | .tsts a _ => [(a, [0])]
  | .tlds d _ => [(d, [0])]
  | .tsta a _ _ => [(a, [1])]
  | .tgath d a _ _ | .ttrn d a => [(d, [0]), (a, [0])]
  | .tadd d a b _ | .tmul d a b _ | .tmax d a b _ | .tscal d a b _ => [(d, [0]), (a, [0]), (b, [0])]
  | .tred d a _ | .tcvt d a _ _ _ _ _ | .tcvtPageAppend d a _ _ _ _ => [(d, [0]), (a, [0, 1])]
  | .mmbi d a b c z _ | .mmf d a b c z _ | .mmf32 d a b c z _ | .mmd d a b c z _ =>
    [(d, [1]), (a, [0]), (b, [0])] ++ (if z then [] else [(c, [1])])
  | .tacc d a c z _ => [(d, [1]), (a, [1])] ++ (if z then [] else [(c, [1])])
  | _ => []

/-- The class part of check 5 (R183, R187, R213, R214). -/
def classesOk (a : Agent) (i : Instr) : Bool :=
  let cls (x : TileOp) : Nat := (a.h[x.h]).cls.toNat
  match i with
  | .tmov d x => cls d == cls x && cls x ≤ 1
  | .copytIn _ _ _ item _ img _ _ _ => !(img && cls item == 1)
  | .copytOut _ _ _ item img _ _ => cls item ≤ 1 && !(img && cls item == 1)
  | .copytXfer _ _ item src _ _ => (cls src == 0 && (cls item == 0 || cls item == 2)) || (cls src == 1 && cls item == 1)
  | _ => (tileHandles i).all fun p => p.2.contains (cls p.1)

/-- The part of check 4 that a handle decides: BO with a destination that is not of class 2 (R218). -/
def boReserved (a : Agent) (i : Instr) : Bool :=
  match i with
  | .copytIn _ _ _ item _ _ bo _ _ => bo != 0 && (a.h[item.h]).cls != 2
  | .copytXfer _ _ item _ bo _ => bo != 0 && (a.h[item.h]).cls != 2
  | _ => false

/-- Resolve (R23): the register and the generation that a handle names at a slot offset. -/
def resolve (h : Handle) (o : Nat) : Nat × BitVec 16 :=
  let n := h.len1.toNat + 1
  let p := h.s.toNat + o
  (h.base.toNat + p % n, h.e + BitVec.ofNat 16 (p / n))

/-- Advance (R23). -/
def Handle.advance (h : Handle) : Handle :=
  if h.s = h.len1 then { h with s := 0, e := h.e + 1 } else { h with s := h.s + 1 }

def Handle.advances (h : Handle) : Nat → Handle
  | 0 => h
  | n + 1 => h.advance.advances n

/-- The handles that carry a post-advance bit, each once (R169). -/
def advanceSet (l : List TileOp) : List HReg := ((l.filter (·.adv)).map (·.h)).dedup

/-- Apply the post-advances (R169). -/
def Agent.advance (a : Agent) (l : List HReg) : Agent :=
  l.foldl (fun (a : Agent) (h : HReg) => { a with h := a.h.set h (a.h[h]).advance }) a

/-- What an access of an item finds, by the distance of its count (R162, R163). -/
inductive ItemState where
  | ready | waits | faults
  deriving DecidableEq, Repr

/-- The distance rule shared by reads and writes. -/
def distance (wc x : BitVec 16) : ItemState :=
  let d := (wc - x).toNat
  if d = 0 then .ready else if d < 32768 then .faults else .waits

/-- A read of generation x (R162). -/
def readState (m : Meta) (x : BitVec 16) : ItemState := distance m.wc x

/-- A write of generation x (R163). -/
def writeState (m : Meta) (x : BitVec 16) : ItemState :=
  match distance m.wc (x - 1) with
  | .ready => if m.q = 0 ∨ m.q ≤ m.rc then .ready else .waits
  | r => r

/-- One read counted (R163). -/
def Meta.countRead (m : Meta) : Meta := { m with rc := if m.rc = 15 then 15 else m.rc + 1 }

/-- The metadata a write leaves (R163, R166); a void write keeps the tag. -/
def Meta.written (m : Meta) (x : BitVec 16) (q : BitVec 4) (void poison : Bool) (tag : BitVec 8) : Meta :=
  { wc := x, q := q, rc := 0, void := void, poison := poison, tag := if void then m.tag else tag }

/-- The metadata word (R151). -/
def Meta.word (m : Meta) : Word :=
  BitVec.ofNat 64 (m.wc.toNat + 2 ^ 16 * m.q.toNat + 2 ^ 20 * m.rc.toNat + 2 ^ 24 * m.void.toNat +
    2 ^ 25 * m.poison.toNat + 2 ^ 32 * m.tag.toNat)

def Meta.ofWord (x : Word) : Meta :=
  ⟨x.extractLsb' 0 16, x.extractLsb' 16 4, x.extractLsb' 20 4, x.getLsbD 24, x.getLsbD 25, x.extractLsb' 32 8⟩

/-- The tile register, launch state where none is listed (R152). -/
def Block.tile (b : Block) (t : Nat) : Tile := (getKey b.tiles t).getD Tile.reset
def Block.setTile (b : Block) (t : Nat) (x : Tile) : Block := { b with tiles := putKey b.tiles t x }
def Block.acc (b : Block) (n : Nat) : Accum := (getKey b.accs n).getD Accum.reset
def Block.setAcc (b : Block) (n : Nat) (x : Accum) : Block := { b with accs := putKey b.accs n x }

/-- The metadata of register number r: t below 512, accumulator r - 512 from there (R164). -/
def Block.md (b : Block) (r : Nat) : Meta := if r < 512 then (b.tile r).md else (b.acc (r - 512)).md
def Block.setMd (b : Block) (r : Nat) (m : Meta) : Block :=
  if r < 512 then b.setTile r { b.tile r with md := m } else b.setAcc (r - 512) { b.acc (r - 512) with md := m }

/-- The register number by which faults name an item (R164). -/
def regNo (cls : BitVec 2) (t : Nat) : Nat := if cls = 1 then 0x200 + t else t

def Agent.opnd (a : Agent) (o : TileOp) : Opnd :=
  let h := a.h[o.h]
  let (t, x) := resolve h o.o.val
  ⟨regNo h.cls t, x, h.q⟩

end Sys2Proof.Machine
end

