-- ==== Sys2Proof/Machine/Geom.lean ====
section
/-! DEFINITION. Which bytes a copy moves (spec/10_movement_processor_and_copies.md R208, R211, R212), and which items of the
own tile store it reaches (R150, R210). -/

namespace Sys2Proof.Machine

/-- The im2col parameters (R211). -/
structure Im2col where
  n : Nat
  ow : Nat
  oh : Nat
  w : Nat
  h : Nat
  first : Nat
  pad : Byte
  pl : Nat
  pt : Nat
  ksx : Nat
  ksy : Nat
  kw : Nat
  kh : Nat
  deriving DecidableEq, Repr

def Desc.im2col (d : Desc) : Im2col :=
  let p (lo n : Nat) : Nat := (d.param.extractLsb' lo n).toNat
  let r (lo n : Nat) : Nat := (d.param2.extractLsb' lo n).toNat
  ⟨p 48 16, p 36 12, p 24 12, p 12 12, p 0 12, r 32 32, d.param2.extractLsb' 24 8, r 20 4, r 16 4, r 12 4, r 8 4, r 4 4, r 0 4⟩

/-- The bytes of one output row. -/
def Desc.rowLen (d : Desc) (g : Geo) : Nat :=
  match g with
  | .im2col => d.im2col.kh * d.im2col.kw * d.len
  | _ => d.len

/-- The size of a copy (R208). -/
def Desc.size (d : Desc) (g : Geo) : Nat := d.rowLen g * d.ny * d.nz

/-! ## Sides of a copy (R208, R211, R212) -/

/-- A run of consecutive addresses: the address of the first byte, its order number, how many bytes. -/
structure Seg where
  va : Word
  start : Nat
  len : Nat
  deriving DecidableEq, Repr

/-- Where a byte of one side lies. -/
inductive SidePos where
  | mem (g : Seg)
  /-- A padded coordinate: `row` tells that it lies in a pad row. -/
  | pad (v : Byte) (row : Bool)
  /-- Byte x of a row that a block table reaches. -/
  | table (base : Word) (row x : Nat)
  deriving DecidableEq, Repr

/-- Byte x of row q in a strided layout. -/
def strided (base : Word) (sy sz : Int) (ny len n : Nat) : SidePos :=
  let q := n / len
  .mem ⟨base + BitVec.ofInt 64 ((q / ny : Nat) * sz + (q % ny : Nat) * sy), q * len, len⟩

/-- A source byte of an im2col copy (R211). -/
def im2colPos (d : Desc) (n : Nat) : SidePos :=
  let k := d.im2col
  let rowLen := d.rowLen .im2col
  let r := n / rowLen
  let tap := n % rowLen / d.len
  let q := k.first + r
  let img := q / (k.oh * k.ow)
  let iy : Int := (q / k.ow % k.oh * k.ksy + tap / k.kw : Nat) - (k.pt : Int)
  let ix : Int := (q % k.ow * k.ksx + tap % k.kw : Nat) - (k.pl : Int)
  if k.n ≤ img then .pad k.pad true
  else if 0 ≤ iy ∧ iy < k.h ∧ 0 ≤ ix ∧ ix < k.w then
    .mem ⟨d.src + BitVec.ofInt 64 (img * d.sz + iy * d.sy + ix * d.len), r * rowLen + tap * d.len, d.len⟩
  else .pad k.pad false

def srcPos (d : Desc) (g : Geo) (n : Nat) : SidePos :=
  match g with
  | .d1 | .d2 | .d3 | .btdst => strided d.src d.sy d.sz d.ny d.len n
  | .im2col => im2colPos d n
  | .btsrc => .table d.src (n / d.len) (n % d.len)

def dstPos (d : Desc) (g : Geo) (n : Nat) : SidePos :=
  match g with
  | .btdst => .table d.dst (n / d.len) (n % d.len)
  | _ => strided d.dst d.dy d.dz d.ny (d.rowLen g) n

/-- The geometry of a form that reads memory. -/
def CopyForm.srcGeo : CopyForm → Option Geo
  | .mem g | .toItem g _ _ _ => some g
  | _ => none

/-- The geometry of a form that writes memory. -/
def CopyForm.dstGeo : CopyForm → Option Geo
  | .mem g | .fromItem g _ _ => some g
  | _ => none

def ItemRef.reg (i : ItemRef) : Nat := regNo i.cls i.t

/-- Has the transfer not completed (R215)? -/
def Transfer.outstanding (x : Transfer) : Bool :=
  match x.st with
  | .active | .held | .faulted _ => true
  | .done | .fromVoid | .ended _ => false

/-! ## The banks a copy reaches (R150, R157, R210) -/

/-- The bank of a register number (R157, R164). -/
def bankOfReg (r : Nat) : Nat × Nat := if r < 512 then (0, r / 64) else (1, (r - 512) / 8)

/-- The register whose storage an offset of a window names. -/
def windowReg (o : Nat) : Option Nat :=
  if o < 0x100000 then some (o / 2048)
  else if o < 0x110000 then some ((o - 0x100000) / 128)
  else if o < 0x120000 then none
  else if o < 0x160000 then some (512 + (o - 0x120000) / 4096)
  else none

/-- Does a byte of one side lie in the bank of the block's own tile store? -/
def SidePos.inBank (b : Block) (kind bank : Nat) (p : SidePos) (n : Nat) : Bool :=
  match p with
  | .mem g =>
    let va := g.va + BitVec.ofNat 64 (n - g.start)
    inWindow va && ownWindow b va && (windowReg (windowOff va)).any fun r => bankOfReg r == (kind, bank)
  | _ => false

/-- Does an outstanding copy name an item of the bank, as an operand or by the address of a byte it has yet to move? -/
def copyWants (b : Block) (x : Transfer) (kind bank : Nat) : Bool :=
  let named (i : ItemRef) : Bool := i.cls != 2 && bankOfReg i.reg == (kind, bank)
  let bytes (pos : Nat → SidePos) (done : Nat) : Bool :=
    (List.range x.size).any fun n => !done.testBit n && (pos n).inBank b kind bank n
  let source : Bool := x.form.srcGeo.any fun g => bytes (srcPos x.desc g) x.got
  let target : Bool := x.form.dstGeo.any fun g => bytes (dstPos x.desc g) x.put
  x.outstanding && (!x.off && (source || target) || match x.form with
    | .mem _ => false
    | .toItem _ i _ _ | .fromItem _ i _ => named i
    | .xfer i j => named i || named j)

end Sys2Proof.Machine
end

