-- ==== Sys2Proof/Machine/Banks.lean ====
section
/-! DEFINITION. Banks: their owners and liveness, claims, and the save area's copies (R119, R157, R172). Kind 0 is
tile, 1 accumulator, 2 vector. -/

namespace Sys2Proof.Machine

/-- The place of a bank in BANKOWN.LIVE (R157). -/
def bankBit (kind bank : Nat) : Nat := (if kind = 0 then 0 else if kind = 1 then 8 else 16) + bank

def Core.bankLive (c : Core) (kind bank : Nat) : Bool := c.live.getLsbD (bankBit kind bank)

def Core.bankOwner (c : Core) (kind bank : Nat) : Nat :=
  (match kind with
    | 0 => c.town.toNat
    | 1 => c.aown.toNat
    | _ => c.vown.toNat) / 4 ^ bank % 4

/-- A two-bit field of an owner list set. -/
def putOwner {w : Nat} (x : BitVec w) (bank slot : Nat) : BitVec w :=
  (x &&& ~~~(3#w <<< (2 * bank))) ||| (BitVec.ofNat w (slot % 4) <<< (2 * bank))

/-- R172 step 4. -/
def Core.setBank (c : Core) (kind bank slot : Nat) (live : Bool) : Core :=
  let c := { c with live := putBit c.live (bankBit kind bank) live }
  match kind with
  | 0 => { c with town := putOwner c.town bank slot }
  | 1 => { c with aown := putOwner c.aown bank slot }
  | _ => { c with vown := putOwner c.vown bank slot }

/-- A claim succeeds at once unless the bank is live for another slot (R172). -/
def Core.claim? (c : Core) (slot kind bank : Nat) : Option Core :=
  if c.bankLive kind bank && c.bankOwner kind bank != slot then none else some (c.setBank kind bank slot true)

def Core.claimAll? (c : Core) (slot : Nat) : List (Nat × Nat) → Option Core
  | [] => some c
  | (k, b) :: r => match c.claim? slot k b with
    | none => none
    | some c' => c'.claimAll? slot r

/-- The items a TILE, handle or count word names (R172). -/
def itemOps : Instr → List TileOp
  | .hwait h o | .trel h o | .tvoid _ h o | .tgen _ h o => [⟨h, o, false⟩]
  | i => (tileHandles i).map (·.1)

/-- Does a word name a vector register? -/
def usesVector (i : Instr) : Bool := (srcsOf i ++ dstsOf i).any fun r => match r with | .v _ => true | _ => false

/-- The banks a word accesses (R172). -/
def banksOf (w : Nat) (a : Agent) (i : Instr) (off : Bool) : List (Nat × Nat) :=
  let items := (itemOps i).filterMap fun o => if (a.h[o.h]).cls = 2 then none else some (bankOfReg (a.opnd o).r)
  let named := match i with
    | .tsetc r _ => if off then [] else [bankOfReg ((a.getS r).toNat % 1024)]
    | _ => []
  items ++ named ++ (if usesVector i && w < 4 && !off then [(2, w)] else [])

/-- The save area's copy of a bank, written from the block's state (R119, R172 step 2). -/
def Block.saveBank (b : Block) (kind bank : Nat) (vec : Vector VWord 16 × BitVec 16) : Block :=
  match kind with
  | 0 => { b with savedTiles := putKey b.savedTiles bank (b.tiles.filter fun p => p.1 / 64 == bank) }
  | 1 => { b with savedAccs := putKey b.savedAccs bank (b.accs.filter fun p => p.1 / 8 == bank) }
  | _ => { b with savedVecs := putKey b.savedVecs bank vec }

/-- A keyed list with the keys of one bank replaced. -/
def replaceBank {α : Type} (l : List (Nat × α)) (inBank : Nat → Bool) (copy : List (Nat × α)) : List (Nat × α) :=
  copy.foldl (fun acc p => putKey acc p.1 p.2) (l.filter fun p => !inBank p.1)

/-- The saved copy, or launch state where there is none (R172 step 3). -/
def Block.loadBank (b : Block) (kind bank : Nat) : Block :=
  match kind with
  | 0 => { b with tiles := replaceBank b.tiles (fun t => t / 64 == bank) ((getKey b.savedTiles bank).getD []) }
  | 1 => { b with accs := replaceBank b.accs (fun n => n / 8 == bank) ((getKey b.savedAccs bank).getD []) }
  | _ => b

/-- Does an instruction or a copy of the block hold an item of the bank (R119, R172 step 1): a unit's word, a long
instruction, a copy, or a vector register's pending mark? A result that is still to land from a latch holds nothing, and a
word that only waits for data takes it with the block's bank wherever it is (notes/assumptions/53.md). -/
def bankHeld (s : State) (core : Nat) (id : Nat) (b : Block) (agents : List Agent) (kind bank : Nat) : Bool :=
  let c := s.core core
  let inBank (r : Nat) : Bool := bankOfReg r == (kind, bank)
  let job (j : Option Job) : Bool := j.any fun x => x.block == id && x.regs.any inBank
  let long (a : Agent) (w : Nat) : Bool := a.long.any fun l => (banksOf w a l.i false).contains (kind, bank)
  (agents.zipIdx.any fun p => long p.1 p.2) ||
  if kind = 2 then
    match agents[bank]? with
    | some a => a.pend.any fun r => match r with | .v _ => true | _ => false
    | none => false
  else
    job c.matrix || job c.tile || b.chans.toList.any fun k => k.xfers.any fun x => copyWants b x kind bank

/-- Does a word of the block wait for data that it reads from the bank or writes to it (R119, R164)? -/
def Block.worksHold (b : Block) (kind bank : Nat) : Bool :=
  b.works.any fun w => (w.items.src ++ w.items.dst.toList).any fun p => bankOfReg p.r == (kind, bank)

/-- Every bank of a slot loses its owner and LIVE bit (R226). -/
def Core.dropSlot (c : Core) (slot : Nat) : Core :=
  ([(0, 8), (1, 8), (2, 4)] : List (Nat × Nat)).foldl (fun c p =>
    (List.range p.2).foldl (fun (c : Core) b =>
      if c.bankLive p.1 b && c.bankOwner p.1 b == slot then c.setBank p.1 b 0 false else c) c) c

end Sys2Proof.Machine
end

