-- ==== Sys2Proof/Machine/Gate.lean ====
section
/-! DEFINITION. Whether a word issues: fetch without a walk, the checks of R67, the decision of R304 and R308, the waits
and interlocks of R74 to R78, the guard (R81) and the banks it claims (R172). -/

namespace Sys2Proof.Machine

/-- The agents of the block in focus, with the one in focus up to date. -/
def State.agent (s : State) (w : Nat) : Agent := if w = s.cur.w then s.ag else s.blk.agents[w % 5]'(Nat.mod_lt _ (by decide))

def State.agentList (s : State) : List Agent := (List.range 5).map s.agent

/-! ## Reading a word without a walk (R50, R97, R236, R364) -/

/-- The word at an address, when its translation is at hand. -/
def fetchWord (s : State) (b : Block) (va : Word) : Tr × Word :=
  match translate s b va .fetch with
  | .ok l => (.ok l, BitVec.ofNat 64 (readLoc { s with blk := b } l 8).1)
  | r => (r, 0)

/-- What the tables say of an address now, from a level on. No step reads them so: the model asks here which word stands at an
address whose translation is not at hand (notes/assumptions/10.md). -/
def tableLeaf (s : State) (p : Partition) (va : Word) : Nat → Nat → Option TlbEntry
  | level, table =>
    if !tableAllowed p table then none
    else
      let a := pteAddr table va level
      match readPte p.id va level (BitVec.ofNat 64 (s.mem.readLE a 8)) (s.mem.anyPoison (a / 4) 2), level with
      | .leaf e, _ => some e
      | .table t, n + 1 => tableLeaf s p va n t
      | _, _ => none

/-- The translation of a fetch, at hand or not. -/
def fetchTr (s : State) (b : Block) (va : Word) : Tr :=
  match translate s b va .fetch with
  | .miss => match tableLeaf s (s.part b.part) va 4 (walkRoot (s.part b.part)) with
    | some e => checkLeaf s (s.part b.part) e va .fetch
    | none => .fault cPAGE
  | r => r

/-- The word at an address, its translation at hand or not. -/
def fetchNow (s : State) (b : Block) (va : Word) : Tr × Word :=
  match fetchTr s b va with
  | .ok l => (.ok l, BitVec.ofNat 64 (readLoc { s with blk := b } l 8).1)
  | r => (r, 0)

/-- The decoded word at a program counter, from what a fetch answers. -/
def peekBy (fetch : Word → Tr × Word) (w : Nat) (pc : Word) : Option Line :=
  match fetch pc with
  | (.ok _, x) =>
    let lit := if x.getLsbD 52 then (fetch (pc + 8)).2 else 0
    match decode (w == 4) x lit with
    | .ok l => some l
    | .error _ => none
  | _ => none

/-- The decoded word an agent would issue next, when its translation is at hand. -/
def peek (s : State) (b : Block) (w : Nat) (pc : Word) : Option Line := peekBy (fetchWord s b) w pc

/-- Where control goes once the word at the program counter has issued: on, or to its next repetition (R82). -/
def Agent.after (a : Agent) (next : Word) : Word :=
  match a.rep with
  | some n => if 2 ≤ n then a.pc else next
  | none => next

/-- The word at the program counter has issued, and its access waits for its translation (R74). -/
def Agent.walking (a : Agent) : Bool := a.trap.isNone && a.walk.any fun k => k.access.isSome

/-- The address of the next word an agent issues: after the word whose access walks, else the one it stands at. A long
instruction that stops between units is itself that word (R175). -/
def Agent.nextPc (a : Agent) : Word :=
  match a.walk with
  | some k => if a.walking then a.after k.next else a.pc
  | none => a.pc

/-- The format of a word is CONTROL or SYSTEM. -/
def rawControl (raw : Word) : Bool := raw.extractLsb' 56 3 == 4 || raw.extractLsb' 56 3 == 5

/-- The next word an agent issues, from what a fetch answers: under REP 0 the word after the skipped one (R106). -/
def nextLineBy (fetch : Word → Tr × Word) (w : Nat) (a : Agent) : Option Line :=
  let pc := a.nextPc
  if a.rep = some 0 ∧ !a.walking then
    match fetch pc with
    | (.ok _, raw) => peekBy fetch w (if rawControl raw then pc else pc + (if raw.getLsbD 52 then 16 else 8))
    | _ => none
  else peekBy fetch w pc

/-- The next word an agent issues, when its translation is at hand. -/
def nextLine (s : State) (b : Block) (w : Nat) (a : Agent) : Option Line := nextLineBy (fetchWord s b) w a

/-! ## Die classes (R66, R68, R304, R305, R308) -/

/-- Absent by encoding on a die class (true: Ochre), check 7. -/
def absentOn (ochre : Bool) (i : Instr) : Bool :=
  nowhere i || match (featureOf i).2 with
    | some k => k != ochre
    | none => false

/-- E4M3 and E5M2 tags, with or without scales (R66). -/
def fp8Tag (t : BitVec 8) : Bool := [0x50, 0x51, 0x60, 0x61].contains t.toNat

/-- The sources whose tags decide check 8's part of R66 (A and B of MMF for E4M3 and E5M2, A of TCVT), every source item
of the word, and the feature bit of such a tag. -/
def tagSources : Instr → List TileOp × List TileOp × (BitVec 8 → Bool) × Nat
  | .mmf _ a b c z _ => ([a, b], if z then [a, b] else [a, b, c], fp8Tag, 1)
  | .tcvt _ a _ _ _ _ _ | .tcvtPageAppend _ a _ _ _ _ => ([a], [a], narrowTag, 2)
  | _ => ([], [], fun _ => false, 0)

/-- Check 8 finds the word absent from Ochre dies: its source items are present (R68), the first that is not void has such
a tag, and the partition does not mask it. A later source that differs from it in this is refused as ILLEGAL. -/
def tagNarrow (b : Block) (a : Agent) (i : Instr) : Bool :=
  let (ops, all, f, feature) := tagSources i
  b.isa.getLsbD feature && (all.all fun o => let p := a.opnd o; readState (b.md p.r) p.x == .ready) &&
    match (ops.map fun o => b.md (a.opnd o).r).find? fun m => !m.void with
    | some m => f m.tag
    | none => false

/-- Is a word's guard true (R81)? -/
def guardTrue (a : Agent) (h : Hdr) : Bool := a.getP h.g != h.n

/-- CONTROL and SYSTEM words, which REP may not repeat (R106). -/
def isControlSystem (i : Instr) : Bool :=
  match encOne i with
  | some e => e.fmt == 4 || e.fmt == 5
  | none => false

/-- Check 6 (R331). -/
def masked (s : State) (i : Instr) : Bool := (featureOf i).1.any fun n => !s.blk.isa.getLsbD n

/-- TIMED, which may not reach issue while a region is open (R290). -/
def opensRegion : Instr → Bool
  | .timed .. => true
  | _ => false

/-- Checks 3 to 6 of R67 that the agent's state decides; the others are the decoder's. -/
def checks (i : Instr) (s : State) : Option (BitVec 8) :=
  if i.privileged && (s.isMP || !s.ag.ctl.pm) then some cPRIV
  else if boReserved s.ag i then some cRESFLD
  else if s.ag.rep.isSome && isControlSystem i then some cILLEGAL
  else if !classesOk s.ag i then some cILLEGAL
  else if opensRegion i && s.ag.ctl.tslip.region.isSome then some cILLEGAL
  else if masked s i then some cMASKED
  else none

/-- A state with another agent of the block in focus brought into focus, to ask about its next word. -/
def State.viewAgent (s : State) (w : Nat) (a : Agent) : State := { s with ag := a, cur := { s.cur with w := w } }

/-- Does a line that passes checks 3 to 6 fail check 7 or check 8 for its die class on the class given (R308)? -/
def lineAbsent (s : State) (w : Nat) (a : Agent) (ochre : Bool) (l : Line) : Bool :=
  let t := s.viewAgent w a
  match l.body with
  | .pair sh vh => (checks sh t).isNone && (checks vh t).isNone && (absentOn ochre sh || absentOn ochre vh)
  | .one i => (checks i t).isNone && (absentOn ochre i || (ochre && guardTrue a l.hdr && tagNarrow s.blk a i))

/-- Is the next word of stream w of the block in focus absent on the class, its fetch translated or not? -/
def absentNext (s : State) (ochre : Bool) (w : Nat) : Bool :=
  let a := s.agent w
  a.run == .running && match nextLineBy (fetchNow s s.blk) w a with
    | some l => lineAbsent s w a ochre l
    | none => false

/-- Would R308 refuse a move of the block in focus to the class? -/
def moveRefused (s : State) (ochre : Bool) : Bool := (List.range 4).any (absentNext s ochre)

/-- A timed region is open in a stream of the block in focus (R290). -/
def anyRegion (s : State) : Bool := (List.range 4).any fun w => (s.agent w).ctl.tslip.region.isSome

/-- Does a block that migrates hold a core for its arrival? -/
def coreReserved (s : State) (c : Nat) : Bool := s.blocks.any fun p => p.2.migrating == some c

/-- A free core of a partition: no block, running, suspended or stopped, none on its way, and not taken out of service
(R255, R336). -/
def coreFree (s : State) (c : Nat) : Bool :=
  let x := s.core c
  !x.out && x.slots.toList.all (·.isNone) && !coreReserved s c

/-- A forwarding record of the launch keeps every block but the one it names off the core (R309, R314). -/
def barred (s : State) (launch : Nat) (block : Option Nat) (c : Nat) : Bool :=
  (s.core c).forwards.any fun f => f.launch == launch && block != some f.block

/-- The free cores of a class, or of either, for a block of a launch or for an instance not yet placed. -/
def freeCores (s : State) (p : Partition) (launch : Nat) (block : Option Nat) (cls : Option Bool) : List Nat :=
  p.cores.filter fun c => coreFree s c && !barred s launch block c &&
    (match cls with | some k => isOchre c == k | none => true)

/-- The choice of R255 among candidates: most free cores of the partition in the cluster, lower cluster, lower id. -/
def chooseCore (s : State) (p : Partition) (cands : List Nat) : Option Nat :=
  let count (c : Nat) : Nat := (p.cores.filter fun x => clusterOf x == clusterOf c && coreFree s x).length
  cands.foldl (fun best c => match best with
    | none => some c
    | some b =>
      if count b < count c then some c
      else if count b = count c ∧ (clusterOf c < clusterOf b ∨ (clusterOf c = clusterOf b ∧ c < b)) then some c
      else some b) none

/-! ## What becomes of a word at issue -/

inductive Verdict where
  | trap (code : BitVec 8) (tval : Word)
  | waits
  | interlock
  /-- The block migrates to the core named (R304). -/
  | leaves (core : Nat)
  /-- The word waits for a core of the other class (MIGCTL.WAIT, R304). -/
  | asks
  | off
  | go
  deriving DecidableEq, Repr

/-- R304, for a word absent on the current class and not masked. -/
def absentVerdict (s : State) : Verdict :=
  let b := s.blk
  let p := s.part b.part
  let other := !isOchre b.core
  if anyRegion s then .trap cNOCAP s.cur.raw
  else if b.mig.pin then .trap cNOCAP s.cur.raw
  else if p.cores.all fun c => isOchre c != other then .trap cNOCAP s.cur.raw
  else if moveRefused s other then .trap cNOCAP s.cur.raw
  else match chooseCore s p (freeCores s p b.launch (some s.cur.b) (some other)) with
    | some c => .leaves c
    | none => if b.mig.wait then .asks else .trap cNOCAP s.cur.raw

/-- Registers that must hold no pending mark (R77). -/
def markRegs (i : Instr) (s : State) : List RegName := srcsOf i ++ dstsOf i ++ [.p s.cur.hdr.g]

/-- A word that reads or writes SSTAT or FCTL waits for the earlier TILE words of its stream that may still set VS or a flag
with their data: the wait for an item's data has no effect that a program sees (R164, R185). -/
def ctlPending (i : Instr) (s : State) : Bool :=
  (match i with
    | .mfc _ cr => cr == 1 || cr == 2
    | .mtc _ cr => cr == 2
    | .mtcSstat _ => true
    | _ => false) && s.blk.works.any fun k => k.agent == s.cur.w

/-- The interlock of R78 before a scoreboarded word whose destination has a result in a latch. -/
def latchedDest (i : Instr) (s : State) : Bool :=
  (boardedRegs i).any fun r => s.ag.latches.any fun l => l.reg == r

/-- The other interlocks of R78: a thirteenth latch, and ERET or a boundary MARK with latches in flight. A result needs a
latch from the next stream cycle on, when one that becomes visible in that cycle is free (R76). -/
def interlocked (i : Instr) (s : State) : Bool :=
  let a := s.ag
  (!boarded i && decide (1 < latOf i) && decide (12 ≤ (a.latches.filter fun l => decide (a.cyc + 1 < l.tag)).length)) ||
  (match i with
    | .eret => a.ctl.inh && !a.latches.isEmpty
    | .mark m => m.getLsbD 31 && !a.latches.isEmpty
    | _ => false)

/-- Does an agent wait at a sync word: it is neither past it, with its access or a long instruction under way, nor about to
skip it (R80, R106)? -/
def atSync (s : State) (w : Nat) (a : Agent) : Bool :=
  a.trap.isNone && a.long.isNone && !a.walking && a.rep != some 0 &&
    !(s.blk.works.any fun k => k.agent == w && k.long.isSome) && match peek s s.blk w a.pc with
    | some l => l.hdr.s
    | none => false

/-- R80's SYNCFAIL, if the word raises it, with its TVAL; a word without a fault waits until SYNC_ISSUE. With the own bit
missing no other stream is at fault, so bits 9:4 are zero; a partner that is not running has no mask, so bits 7:4 are zero
(notes/assumptions/16.md). -/
def syncFault (s : State) : Option Word :=
  let m := s.ag.ctl.syncmsk
  let others := (List.range 4).filter fun w => w != s.cur.w && m.getLsbD w
  let mw : Word := m.setWidth 64
  if !m.getLsbD s.cur.w then some mw
  else match others.find? fun w => (s.agent w).run != .running with
    | some w => some (mw ||| (BitVec.ofNat 64 w <<< 8))
    | none =>
      match others.find? fun w => (s.agent w).ctl.syncmsk != m && atSync s w (s.agent w) with
      | some w => some (mw ||| ((s.agent w).ctl.syncmsk.setWidth 64 <<< 4) ||| (BitVec.ofNat 64 w <<< 8))
      | none => none

/-- What becomes of one instruction of the word in focus: the checks, pending marks, the guard, the interlocks. A PAIR
word takes the verdicts of both halves. -/
def verdict (i : Instr) (s : State) : Verdict :=
  match checks i s with
  | some c => .trap c s.cur.raw
  | none =>
    if absentOn (isOchre s.blk.core) i then absentVerdict s
    else if ((markRegs i s).any fun r => s.ag.pend.contains r) || ctlPending i s then .waits
    else if latchedDest i s then .interlock
    else if s.ag.poisoned (.p s.cur.hdr.g) then .trap cPOISON (BitVec.ofNat 64 s.cur.hdr.g.val)
    else if !guardTrue s.ag s.cur.hdr then .off
    else if interlocked i s then .interlock
    else .go

/-- The banks the word accesses are claimed, or the word waits (R172). -/
def withBanks (i : Instr) (off : Bool) (s : State) (f : State → State) : State :=
  let c := s.core s.blk.core
  match banksOf s.cur.w s.ag i off with
  | [] => f s
  | l => match c.claimAll? s.blk.slot l with
    | none => s.waits
    | some c' => f (s.setCore s.blk.core c')

/-- A number above that of every request and of every suspension. -/
def nextStamp (s : State) : Nat :=
  s.requests.foldl (fun n r => max n (r.made + 1)) (s.blocks.foldl (fun n p => max n (p.2.suspended + 1)) (s.blk.suspended + 1))

/-- The block asks Weld for a core of the other class (R304). -/
def askCore (s : State) : State :=
  let id := s.cur.b
  if s.requests.any fun r => r.block == some id then s.waits
  else
    let r : Request := ⟨s.blk.part, s.blk.launch, s.blk.stage, s.blk.prio, some id, nextStamp s⟩
    ({ s with requests := s.requests ++ [r] }.setBlk { s.blk with trigger := some s.cur.w }).waits

/-- A verdict other than off and go, acted on. -/
def settleVerdict (v : Verdict) (s : State) : State :=
  match v with
  | .trap c x => s.raise c x
  | .waits => s.waits
  | .interlock => s.setDisp .interlock
  | .leaves c => (s.setBlk { s.blk with migrating := some c, trigger := some s.cur.w }).setDisp .stopped
  | .asks => askCore s
  | .off | .go => s

/-- A trial run of a sync word: it issues only in SYNC_ISSUE, but a trap of its own is raised at once (R80), a walk
before its move begins (R175), and a word that check 8 finds absent asks for a core (R304). -/
def trial (s t : State) : State :=
  if t.cur.disp = .stopped ∨ (t.cur.disp = .waits ∧ (t.ag.walk.isSome ∨ t.requests ≠ s.requests)) then t else s.waits

/-- Issue one instruction. `offF` is its effect when it is guarded off, `f` its effect otherwise. The sync condition
stands between the interlocks and the effect. -/
def issueBoth (i : Instr) (s : State) (offF f : State → State) : State :=
  let run : State → State := fun s =>
    match verdict i s with
    | .off => withBanks i true s offF
    | .go => withBanks i false s f
    | v => settleVerdict v s
  match verdict i s with
  | .off | .go =>
    if s.cur.hdr.s && !s.cur.sync then
      match syncFault s with
      | some tv => s.raise cSYNCFAIL tv
      | none => trial s (run s)
    else run s
  | v => settleVerdict v s

/-- The word has issued: the generator it names advances (R35). -/
def advanceGen (i : Instr) (s : State) : State :=
  if s.cur.disp = .issued then s.setAg (s.ag.advanceGen (rmOf i)) else s

/-- An instruction whose guarded-off word has no effect of its own (R81). -/
def issueWord (i : Instr) (s : State) (f : State → State) : State :=
  advanceGen i (issueBoth i s State.issued f)

/-- A TILE, handle or count word, which has effects when it is guarded off (R168). -/
def issueTile (i : Instr) (s : State) (offF f : State → State) : State :=
  advanceGen i (issueBoth i s offF f)

end Sys2Proof.Machine
end

