-- ==== Sys2Proof/Machine/Issue.lean ====
section
/-! DEFINITION. What the issue of a word stands on: the agent in focus, its accesses and walks, the stream cycles of R75 and
the repetitions of R82, and whether the agent may issue at all (R74, R284, R288). -/

namespace Sys2Proof.Machine

/-! ## Focus -/

/-- Take an agent of a block into focus. -/
def enter (s : State) (b w : Nat) : State :=
  let blk := s.block b
  { s with blk := blk, ag := blk.agents[w % 5]'(Nat.mod_lt _ (by decide)),
           cur := { IssueCtx.reset with b := b, w := w } }

/-- Put the agent and the block in focus back. -/
def leave (s : State) : State :=
  let blk := { s.blk with agents := s.blk.agents.set (s.cur.w % 5) s.ag (Nat.mod_lt _ (by decide)) }
  { s.setBlock s.cur.b blk with ag := Agent.reset, blk := Block.reset, cur := IssueCtx.reset }

/-- Run an operation on an agent of a block that exists, unless a failure has stopped every agent of it (R176). -/
def withAgent (s : State) (b w : Nat) (f : State → State) : State :=
  match getKey s.blocks b with
  | none => s
  | some x => if x.status = .failed then s else leave (f (enter s b w))

/-! ## Accesses and walks (R74, R97, R234, R236) -/

/-- The alignment of an access (R97, R129, R132). -/
def AccessKind.align : AccessKind → Nat
  | .load _ | .store _ _ | .atomic .. => 8
  | .vload .. | .vstore .. => 256
  | _ => 1

/-- The walks of a block to a page, of its agents and its copies, as level and table. -/
def Block.walksTo (b : Block) (agents : List Agent) (page : Nat) : List (Nat × Nat) :=
  (agents.filterMap fun a => (a.walk.filter fun k => pageNo k.va == page && k.found.isNone).map fun k => (k.level, k.table)) ++
  b.chans.toList.flatMap fun c => c.xfers.filterMap fun x =>
    (x.walk.filter fun k => pageNo k.va == page && k.found.isNone).map fun k => (k.level, k.table)

/-- Those of the hints of a core. -/
def Core.walksTo (c : Core) (page : Nat) : List (Nat × Nat) :=
  c.hints.filterMap fun h => (h.walk.filter fun k => pageNo k.va == page && k.found.isNone).map fun k => (k.level, k.table)

/-- Where a walk to an address begins: at the root, or where that of another miss of the core to the same page has come
to (R236). -/
def walkStart (s : State) (va : Word) : Nat × Nat :=
  (s.blk.walksTo s.agentList (pageNo va) ++ (s.core s.blk.core).walksTo (pageNo va)).headD (4, walkRoot (s.part s.blk.part))

/-- Is a page that a core missed still waited for? -/
def stillMissed (s : State) (x : Nat × Nat) : Bool :=
  let live (b : Block) (agents : List Agent) : Bool :=
    b.core == x.1 && b.status != .failed && b.status != .ended && !(b.walksTo agents x.2).isEmpty
  live s.blk s.agentList || !((s.core x.1).walksTo x.2).isEmpty ||
    s.blocks.any fun p => p.1 != s.cur.b && live p.2 p.2.agents.toList

/-- A core's miss joins the queue of its cluster's page walker. -/
def joinWalks (s : State) (va : Word) : State :=
  let x := (s.blk.core, pageNo va)
  if s.walkQueue.contains x then s else { s with walkQueue := s.walkQueue.filter (stillMissed s) ++ [x] }

/-- Is the miss among the 64 walks that the cluster's walker has in progress, in arrival order (R236)? -/
def mayWalk (s : State) (va : Word) : Bool :=
  let x := (s.blk.core, pageNo va)
  let before := s.walkQueue.takeWhile (· != x)
  decide ((before.filter fun y => clusterOf y.1 == clusterOf x.1 && stillMissed s y).length < 64)

/-- A walk begins. -/
def startWalk (s : State) (va : Word) (use : Use) (access : Option Access) (reg : Option RegName) (spec : Bool) : State :=
  let at_ := walkStart s va
  let k : Walk := ⟨va, use, at_.1, at_.2, none, access, reg, spec, s.cur.pc,
    s.cur.hdr.w.val, s.cur.next, s.ag.rep.isSome⟩
  (joinWalks (s.setAg { s.ag with walk := some k }) va).setDisp .walking

/-- The pending mark of a destination (R77). -/
def Agent.mark (a : Agent) (r : Option RegName) : Agent :=
  match r with
  | none => a
  | some r => { a with pend := a.pend ++ [r] }

/-- What a speculative load writes where its translation fails (R99, R130). -/
def specResult (a : Agent) (reg : Option RegName) : Agent :=
  match reg with
  | none => a
  | some r => { a with ready := a.ready ++ [⟨r, 0, BitVec.allOnes 64, true⟩] }

/-- Issue one access at an address (R97 steps 2 to 5, R99, R129). -/
def startAccess (s : State) (va : Word) (use : Use) (kind : AccessKind) (reg : Option RegName) (spec : Bool) : State :=
  match translate s s.blk va use with
  | .ok l => (s.setAg { (s.ag.mark reg) with accs := s.ag.accs ++ [⟨kind, l.alignDown kind.align⟩] }).issued
  | .miss => startWalk (s.setAg (s.ag.mark reg)) va use (some ⟨kind, .phys 0⟩) reg spec
  | .fault c => if spec then (s.setAg (specResult (s.ag.mark reg) reg)).issued else s.raise c va

/-! ## After the word -/

/-- TVAL of a TSLIPT that is due (R288, R291). -/
def slipDue (t : Tslip) : Option (BitVec 16) :=
  if t.region.isNone then none
  else match t.due with
    | some v => some v
    | none => if t.limit ≠ 0 ∧ t.limit < t.cur then some t.cur else none

/-- A TSLIPT held back by the walk of a store reports CUR at the boundary after it (R289). -/
def Agent.keepSlip (a : Agent) : Agent :=
  let t := a.ctl.tslip
  if (slipDue t).isSome then { a with ctl := { a.ctl with tslip := { t with due := some t.cur } } } else a

/-- The word has issued: its stream cycle and its stall cycles pass (R75), and control goes on (R82). -/
def Agent.pass (a : Agent) (w : Nat) (next : Word) : Agent :=
  let a := a.ticks (1 + w)
  match a.rep with
  | none => { a with pc := next }
  | some n => if 2 ≤ n then { a with rep := some (n - 1) } else { a with rep := none, pc := next }

/-- The launch's first word (R323) and the block's issue. -/
def noteStart (s : State) : State :=
  match s.launch? s.blk.launch with
  | some l => if l.tstart.isNone then s.setLaunch s.blk.launch { l with tstart := some s.tbase } else s
  | none => s

/-- One slip cycle in an open region (R286). -/
def slipOne (a : Agent) : Agent :=
  let t := a.ctl.tslip
  if t.region.isSome then
    { a with ctl := { a.ctl with tslip := { t with cur := if t.cur = 0xFFFF then t.cur else t.cur + 1 } } }
  else a

/-- A word with NT = 1 holds the stream until its data is complete (R186). -/
def held (s : State) : Bool :=
  let c := s.core s.blk.core
  let job (j : Option Job) : Bool := j.any fun x => x.block == s.cur.b && x.agent == s.cur.w && x.hold
  job c.matrix || job c.tile || s.blk.works.any fun w => w.agent == s.cur.w && w.hold

/-- A TSLIPT is due, and the stream stands where it is raised: no further word issues (R288, R291). A word that REP 0 skips
is no boundary (notes/assumptions/52.md). -/
def slipStops (a : Agent) : Bool := (slipDue a.ctl.tslip).isSome && a.rep != some 0

def Transfer.faulted (x : Transfer) : Bool := match x.st with | .faulted _ => true | _ => false

/-- The oldest faulted transfer of channels 0 to 3 with its channel: the MP stops for it at its next word boundary (R217). -/
def oldestFault (b : Block) : Option (Nat × Transfer) :=
  let all := (List.range 4).flatMap fun n => match b.chans[n]? with
    | some c => (c.xfers.filter (·.faulted)).map (n, ·)
    | none => []
  all.foldl (fun acc p => match acc with
    | none => some p
    | some q => if p.2.order < q.2.order then some p else acc) none

/-- May the agent in focus issue a word now, but for its word's own conditions (R74, R173, R217, R284, R288, R306)? -/
def mayIssue (s : State) : Bool :=
  let a := s.ag
  a.run == .running && a.walk.isNone && a.long.isNone && a.trap.isNone && a.nan.isNone && s.blk.status == .running &&
    s.blk.migrating.isNone && !held s && !slipStops a && !(s.isMP && (oldestFault s.blk).isSome) &&
    (a.started || match s.blk.startTick with
      | some t => reached s.tbase t
      | none => true)

/-- WAITI's wait (R116) has ended. -/
def waitOver (s : State) : Bool := s.ag.wait == 0 || (ipend s.blk s.cur.w s.ag.ctl &&& s.ag.wait) != 0

end Sys2Proof.Machine
end

