-- ==== Sys2Proof/Machine/Scalar.lean ====
section
/-! DEFINITION. The scalar half of a PAIR word, division, bit fields, scalar memory, atomics and engine ports
(spec/05_scalar_control_system_instructions.md R91 to R103). -/

namespace Sys2Proof.Machine

/-- SignExtend of the field, or the literal (R94, R97). -/
def immValue {n : Nat} : Imm n → Word
  | .short v => v.signExtend 64
  | .lit v => v

/-- A shift amount: bits 5:0 (R94). -/
def sh6 (y : Word) : Nat := y.toNat % 64

def smin {w : Nat} (x y : BitVec w) : BitVec w := if y.slt x then y else x
def smax {w : Nat} (x y : BitVec w) : BitVec w := if x.slt y then y else x
def umin {w : Nat} (x y : BitVec w) : BitVec w := if y.ult x then y else x
def umax {w : Nat} (x y : BitVec w) : BitVec w := if x.ult y then y else x

/-- Compare results (R91). -/
def flagWord (b : Bool) : Word := if b then 1 else 0

/-- Number of one bits. -/
def popCount (x : Word) : Nat := (List.range 64).countP x.getLsbD

/-- Number of leading zero bits, 0 to 64. -/
def leadingZeros (x : Word) : Nat := ((List.range 64).takeWhile fun i => !x.getLsbD (63 - i)).length

/-- A two-operand register form. -/
def scalar2 (i : Instr) (d a b : SReg) (f : Word → Word → Word) (s : State) : State :=
  issueWord i s fun s => s.putS d (f (s.sReg a) (s.sReg b)) [.s a, .s b]

/-- A unary or immediate form. -/
def scalar1 (i : Instr) (d a : SReg) (f : Word → Word) (s : State) : State :=
  issueWord i s fun s => s.putS d (f (s.sReg a)) [.s a]

/-- A compare that writes a predicate (R95). -/
def pred2 (i : Instr) (d : PReg) (a b : SReg) (f : Word → Word → Bool) (s : State) : State :=
  issueWord i s fun s => s.putP d (f (s.sReg a) (s.sReg b)) [.s a, .s b]

/-- Predicate logic (R95). -/
def predLogic (i : Instr) (d a b : PReg) (f : Bool → Bool → Bool) (s : State) : State :=
  issueWord i s fun s => s.putP d (f (s.pReg a) (s.pReg b)) [.p a, .p b]

/-- A scoreboarded result computed at issue and delivered later (R77). -/
def State.later (s : State) (r : RegName) (v : VWord) (poison : Bool) : State :=
  (s.setAg { (s.ag.mark (some r)) with ready := s.ag.ready ++ [⟨r, v, BitVec.allOnes 64, poison⟩] }).issued

def execSnop (s : State) : Host.Outcome State Fault Refusal := .next (issueWord .snop s State.issued)

def execAdd (d a b : SReg) (s : State) : Host.Outcome State Fault Refusal :=
  .next (scalar2 (.add d a b) d a b (fun x y => x + y) s)

def execSub (d a b : SReg) (s : State) : Host.Outcome State Fault Refusal :=
  .next (scalar2 (.sub d a b) d a b (fun x y => x - y) s)

def execMul (d a b : SReg) (s : State) : Host.Outcome State Fault Refusal :=
  .next (scalar2 (.mul d a b) d a b (fun x y => x * y) s)

def execMulh (d a b : SReg) (s : State) : Host.Outcome State Fault Refusal :=
  .next (scalar2 (.mulh d a b) d a b (fun x y => ((x.signExtend 128 * y.signExtend 128).extractLsb' 64 64)) s)

def execMulhn (d a b : SReg) (s : State) : Host.Outcome State Fault Refusal :=
  .next (scalar2 (.mulhn d a b) d a b (fun x y => ((x.setWidth 128 * y.setWidth 128).extractLsb' 64 64)) s)

def execAnd (d a b : SReg) (s : State) : Host.Outcome State Fault Refusal :=
  .next (scalar2 (.and d a b) d a b (fun x y => x &&& y) s)

def execOr (d a b : SReg) (s : State) : Host.Outcome State Fault Refusal :=
  .next (scalar2 (.or d a b) d a b (fun x y => x ||| y) s)

def execXor (d a b : SReg) (s : State) : Host.Outcome State Fault Refusal :=
  .next (scalar2 (.xor d a b) d a b (fun x y => x ^^^ y) s)

def execAndn (d a b : SReg) (s : State) : Host.Outcome State Fault Refusal :=
  .next (scalar2 (.andn d a b) d a b (fun x y => x &&& ~~~y) s)

def execShl (d a b : SReg) (s : State) : Host.Outcome State Fault Refusal :=
  .next (scalar2 (.shl d a b) d a b (fun x y => x <<< sh6 y) s)

def execShr (d a b : SReg) (s : State) : Host.Outcome State Fault Refusal :=
  .next (scalar2 (.shr d a b) d a b (fun x y => x >>> sh6 y) s)

def execSar (d a b : SReg) (s : State) : Host.Outcome State Fault Refusal :=
  .next (scalar2 (.sar d a b) d a b (fun x y => x.sshiftRight (sh6 y)) s)

def execRor (d a b : SReg) (s : State) : Host.Outcome State Fault Refusal :=
  .next (scalar2 (.ror d a b) d a b (fun x y => x.rotateRight (sh6 y)) s)

def execMin (d a b : SReg) (s : State) : Host.Outcome State Fault Refusal :=
  .next (scalar2 (.min d a b) d a b (fun x y => smin x y) s)

def execMax (d a b : SReg) (s : State) : Host.Outcome State Fault Refusal :=
  .next (scalar2 (.max d a b) d a b (fun x y => smax x y) s)

def execMinn (d a b : SReg) (s : State) : Host.Outcome State Fault Refusal :=
  .next (scalar2 (.minn d a b) d a b (fun x y => umin x y) s)

def execMaxn (d a b : SReg) (s : State) : Host.Outcome State Fault Refusal :=
  .next (scalar2 (.maxn d a b) d a b (fun x y => umax x y) s)

def execSeq (d a b : SReg) (s : State) : Host.Outcome State Fault Refusal :=
  .next (scalar2 (.seq d a b) d a b (fun x y => flagWord (x == y)) s)

def execSlt (d a b : SReg) (s : State) : Host.Outcome State Fault Refusal :=
  .next (scalar2 (.slt d a b) d a b (fun x y => flagWord (x.slt y)) s)

def execSltn (d a b : SReg) (s : State) : Host.Outcome State Fault Refusal :=
  .next (scalar2 (.sltn d a b) d a b (fun x y => flagWord (x.ult y)) s)

def execClz (d a : SReg) (s : State) : Host.Outcome State Fault Refusal :=
  .next (scalar1 (.clz d a) d a (fun x => BitVec.ofNat 64 (leadingZeros x)) s)

def execPopc (d a : SReg) (s : State) : Host.Outcome State Fault Refusal :=
  .next (scalar1 (.popc d a) d a (fun x => BitVec.ofNat 64 (popCount x)) s)

def execMov (d a : SReg) (s : State) : Host.Outcome State Fault Refusal :=
  .next (scalar1 (.mov d a) d a (fun x => x) s)

def execAddi (d a : SReg) (y : Imm 10) (s : State) : Host.Outcome State Fault Refusal :=
  .next (scalar1 (.addi d a y) d a (fun x => x + (immValue y)) s)

def execAndi (d a : SReg) (y : Imm 10) (s : State) : Host.Outcome State Fault Refusal :=
  .next (scalar1 (.andi d a y) d a (fun x => x &&& (immValue y)) s)

def execOri (d a : SReg) (y : Imm 10) (s : State) : Host.Outcome State Fault Refusal :=
  .next (scalar1 (.ori d a y) d a (fun x => x ||| (immValue y)) s)

def execXori (d a : SReg) (y : Imm 10) (s : State) : Host.Outcome State Fault Refusal :=
  .next (scalar1 (.xori d a y) d a (fun x => x ^^^ (immValue y)) s)

def execShli (d a : SReg) (y : Imm 10) (s : State) : Host.Outcome State Fault Refusal :=
  .next (scalar1 (.shli d a y) d a (fun x => x <<< sh6 (immValue y)) s)

def execShri (d a : SReg) (y : Imm 10) (s : State) : Host.Outcome State Fault Refusal :=
  .next (scalar1 (.shri d a y) d a (fun x => x >>> sh6 (immValue y)) s)

def execSari (d a : SReg) (y : Imm 10) (s : State) : Host.Outcome State Fault Refusal :=
  .next (scalar1 (.sari d a y) d a (fun x => x.sshiftRight (sh6 (immValue y))) s)

def execRori (d a : SReg) (y : Imm 10) (s : State) : Host.Outcome State Fault Refusal :=
  .next (scalar1 (.rori d a y) d a (fun x => x.rotateRight (sh6 (immValue y))) s)

def execSlti (d a : SReg) (y : Imm 10) (s : State) : Host.Outcome State Fault Refusal :=
  .next (scalar1 (.slti d a y) d a (fun x => flagWord (x.slt (immValue y))) s)

def execMovi (d : SReg) (y : Imm 10) (s : State) : Host.Outcome State Fault Refusal :=
  .next (issueWord (.movi d y) s fun s => s.putS d (immValue y) [])

def execPeq (d : PReg) (a b : SReg) (s : State) : Host.Outcome State Fault Refusal :=
  .next (pred2 (.peq d a b) d a b (fun x y => x == y) s)

def execPne (d : PReg) (a b : SReg) (s : State) : Host.Outcome State Fault Refusal :=
  .next (pred2 (.pne d a b) d a b (fun x y => x != y) s)

def execPlt (d : PReg) (a b : SReg) (s : State) : Host.Outcome State Fault Refusal :=
  .next (pred2 (.plt d a b) d a b (fun x y => x.slt y) s)

def execPge (d : PReg) (a b : SReg) (s : State) : Host.Outcome State Fault Refusal :=
  .next (pred2 (.pge d a b) d a b (fun x y => !x.slt y) s)

def execPltn (d : PReg) (a b : SReg) (s : State) : Host.Outcome State Fault Refusal :=
  .next (pred2 (.pltn d a b) d a b (fun x y => x.ult y) s)

def execPgen (d : PReg) (a b : SReg) (s : State) : Host.Outcome State Fault Refusal :=
  .next (pred2 (.pgen d a b) d a b (fun x y => !x.ult y) s)

def execPtst (d : PReg) (a b : SReg) (s : State) : Host.Outcome State Fault Refusal :=
  .next (pred2 (.ptst d a b) d a b (fun x y => (x &&& y) != 0) s)

def execPand (d a b : PReg) (s : State) : Host.Outcome State Fault Refusal :=
  .next (predLogic (.pand d a b) d a b (fun x y => x && y) s)

def execPor (d a b : PReg) (s : State) : Host.Outcome State Fault Refusal :=
  .next (predLogic (.por d a b) d a b (fun x y => x || y) s)

def execPxor (d a b : PReg) (s : State) : Host.Outcome State Fault Refusal :=
  .next (predLogic (.pxor d a b) d a b (fun x y => x != y) s)

def execPnot (d a : PReg) (s : State) : Host.Outcome State Fault Refusal :=
  .next (issueWord (.pnot d a) s fun s => s.putP d (!s.pReg a) [.p a])

/-! ## Division (R96) -/

def divS (x y : Word) : Word := if y = 0 then BitVec.allOnes 64 else x.sdiv y
def divU (x y : Word) : Word := if y = 0 then BitVec.allOnes 64 else x / y
def remS (x y : Word) : Word := if y = 0 then x else x.srem y
def remU (x y : Word) : Word := if y = 0 then x else x % y

def division (i : Instr) (d a b : SReg) (f : Word → Word → Word) (s : State) : State :=
  issueWord i s fun s =>
    s.later (.s d) ((f (s.sReg a) (s.sReg b)).setWidth 2048) (s.ag.anyPoisoned [.s a, .s b])

def execDiv (d a b : SReg) (s : State) : Host.Outcome State Fault Refusal :=
  .next (division (.div d a b) d a b divS s)

def execDivn (d a b : SReg) (s : State) : Host.Outcome State Fault Refusal :=
  .next (division (.divn d a b) d a b divU s)

def execRem (d a b : SReg) (s : State) : Host.Outcome State Fault Refusal :=
  .next (division (.rem d a b) d a b remS s)

def execRemn (d a b : SReg) (s : State) : Host.Outcome State Fault Refusal :=
  .next (division (.remn d a b) d a b remU s)

/-! ## Memory access (R97 to R101) -/

/-- The address of a scalar access (R97 step 1). -/
def scalarEa (s : State) (a : SReg) (off : Imm 29) : Word := s.sReg a + immValue off

/-- A scalar access, its base checked for poison (R83, R92). -/
def scalarAccess (i : Instr) (a : SReg) (off : Imm 29) (use : Use) (kind : State → AccessKind) (reg : Option RegName)
    (spec : Bool) (s : State) : State :=
  issueWord i s fun s => s.checkPoison [.s a] fun s => startAccess s (scalarEa s a off) use (kind s) reg spec

def execLd (d a : SReg) (off : Imm 29) (s : State) : Host.Outcome State Fault Refusal :=
  .next (scalarAccess (.ld d a off) a off .load (fun _ => .load d) (some (.s d)) false s)

def execLds (d a : SReg) (off : Imm 29) (s : State) : Host.Outcome State Fault Refusal :=
  .next (scalarAccess (.lds d a off) a off .load (fun _ => .load d) (some (.s d)) true s)

def execSt (d a : SReg) (off : Imm 29) (s : State) : Host.Outcome State Fault Refusal :=
  .next (scalarAccess (.st d a off) a off .store (fun s => .store (s.sReg d) (s.ag.poisoned (.s d))) none false s)

def execChk (a : SReg) (s : State) : Host.Outcome State Fault Refusal :=
  .next (issueWord (.chk a) s fun s => s.checkPoison [.s a] State.issued)

/-- An atomic: what it writes and what it returns are decided when it performs (R101). -/
def atomic (i : Instr) (op : AtomOp) (d a b : SReg) (off : Imm 29) (s : State) : State :=
  scalarAccess i a off .atomic
    (fun s => .atomic op d (s.sReg b) (s.sReg d) (s.ag.poisoned (.s b)) (s.ag.poisoned (.s d))) (some (.s d)) false s

def execAadd (d a b : SReg) (off : Imm 29) (s : State) : Host.Outcome State Fault Refusal :=
  .next (atomic (.aadd d a b off) .add d a b off s)

def execAmin (d a b : SReg) (off : Imm 29) (s : State) : Host.Outcome State Fault Refusal :=
  .next (atomic (.amin d a b off) .min d a b off s)

def execAmax (d a b : SReg) (off : Imm 29) (s : State) : Host.Outcome State Fault Refusal :=
  .next (atomic (.amax d a b off) .max d a b off s)

def execAand (d a b : SReg) (off : Imm 29) (s : State) : Host.Outcome State Fault Refusal :=
  .next (atomic (.aand d a b off) .and d a b off s)

def execAor (d a b : SReg) (off : Imm 29) (s : State) : Host.Outcome State Fault Refusal :=
  .next (atomic (.aor d a b off) .or d a b off s)

def execAxor (d a b : SReg) (off : Imm 29) (s : State) : Host.Outcome State Fault Refusal :=
  .next (atomic (.axor d a b off) .xor d a b off s)

def execAswp (d a b : SReg) (off : Imm 29) (s : State) : Host.Outcome State Fault Refusal :=
  .next (atomic (.aswp d a b off) .swp d a b off s)

def execAcas (d a b : SReg) (off : Imm 29) (s : State) : Host.Outcome State Fault Refusal :=
  .next (atomic (.acas d a b off) .cas d a b off s)

/-! ## Bit fields (R102) -/

/-- A mask of n ones. -/
def ones (n : Nat) : Word := BitVec.ofNat 64 (2 ^ n - 1)


def execExtr (d a : SReg) (pos len1 : Fin 64) (s : State) : Host.Outcome State Fault Refusal :=
  .next (scalar1 (.extr d a pos len1) d a (fun x => (x >>> pos.val) &&& ones (len1.val + 1)) s)

def insertBits (old x : Word) (pos len1 : Fin 64) : Word :=
  (old &&& ~~~(ones (len1.val + 1) <<< pos.val)) ||| ((x &&& ones (len1.val + 1)) <<< pos.val)

def execInsr (d a : SReg) (pos len1 : Fin 64) (s : State) : Host.Outcome State Fault Refusal :=
  .next (issueWord (.insr d a pos len1) s fun s =>
    s.putS d (insertBits (s.sReg d) (s.sReg a) pos len1) [.s a, .s d])

/-! ## Engine ports (R103, R204) -/

def Block.setPort (b : Block) (n : Fin 4) (p : Port) : Block := { b with ports := b.ports.set n p }

/-- An access that reaches a port. -/
def State.portAccess (s : State) (k : AccessKind) (reg : Option RegName) : State :=
  (s.setAg { (s.ag.mark reg) with accs := s.ag.accs ++ [⟨k, .phys 0⟩] }).issued

/-- FPUSH waits while the FIFO is full, elements still to be performed counted; the MP fills the result FIFO. -/
def execFpush (a : SReg) (port : Fin 4) (s : State) : Host.Outcome State Fault Refusal :=
  .next (issueWord (.fpush a port) s fun s => s.checkPoison [.s a] fun s =>
    let p := s.blk.ports[port]
    if s.isMP then
      if p.res.length + p.resSlots < 16 then
        (s.setBlk (s.blk.setPort port { p with resSlots := p.resSlots + 1 })).portAccess (.push port (s.sReg a)) none
      else s.waits
    else if p.cmd.length + p.cmdSlots < 16 then
      (s.setBlk (s.blk.setPort port { p with cmdSlots := p.cmdSlots + 1 })).portAccess (.push port (s.sReg a)) none
    else s.waits)

/-- Does the stage of the block in focus have a point left to hand out (R258)? -/
def gridOpen (s : State) : Bool :=
  match s.launch? s.blk.launch with
  | some l => match l.stages[s.blk.stage]? with
    | some st => Stage.pointsLeft l st
    | none => false
  | none => false

/-- FPOP claims an element no earlier FPOP has claimed; on port 0 of a stage with nothing left to hand out and an empty
FIFO it receives the done value (R258). -/
def execFpop (d : SReg) (port : Fin 4) (s : State) : Host.Outcome State Fault Refusal :=
  .next (issueWord (.fpop d port) s fun s =>
    let p := s.blk.ports[port]
    if s.isMP then
      if p.cmdReady then
        (s.setBlk (s.blk.setPort port { p with cmdClaims := p.cmdClaims + 1 })).portAccess (.pop port d) (some (.s d))
      else s.waits
    else if p.resReady then
      (s.setBlk (s.blk.setPort port { p with resClaims := p.resClaims + 1 })).portAccess (.pop port d) (some (.s d))
    else if port = 0 ∧ p.res.isEmpty ∧ !gridOpen s then s.later (.s d) (BitVec.allOnes 64 |>.setWidth 2048) false
    else s.waits)

end Sys2Proof.Machine
end

