-- ==== Sys2Proof/Machine/Trans.lean ====
section
/-! DEFINITION. The intermediates y of the transcendental vector operations (spec/06_vector_instructions.md R126): the
exact function of the source rounded to 30 significant bits. 1/x and 1/√x are rounded from exact integer division;
2^x, log2 x and tanh x are enclosed by two fixed-point bounds, and where both bounds round to the same 30-bit number
that number is y (notes/assumptions/13.md). -/

namespace Sys2Proof.Machine

/-- Fraction bits of the fixed-point numbers below. -/
def fixP : Nat := 320
def fixOne : Nat := 2 ^ fixP
/-- A bound, in units of 2^-320, on the error of every fixed-point result below: each of at most 260 steps truncates
by at most one unit, and the largest amplification is the sevenfold squaring of `tanhY`, below 2^10. -/
def fixSlack : Nat := 2 ^ 24

/-- Σ z^(2n+1)/(2n+1), `term` being z^(2n+1). -/
def atanhFix (z2 : Nat) : Nat → Nat → Nat → Nat → Nat
  | 0, _, _, acc => acc
  | fuel + 1, n, term, acc => atanhFix z2 fuel (n + 2) (term * z2 / fixOne) (acc + term / n)

/-- Σ t^n/n!, `term` being t^(n-1)/(n-1)!. -/
def expFix (t : Nat) : Nat → Nat → Nat → Nat → Nat
  | 0, _, _, acc => acc
  | fuel + 1, n, term, acc => let u := term * t / fixOne / n; expFix t fuel (n + 1) u (acc + u)

/-- ln 2 = 2 atanh(1/3). -/
def ln2Fix : Nat := 2 * atanhFix (fixOne / 9) 110 1 (fixOne / 3) 0

/-- 2^t for t in [0, 1). -/
def exp2Fix (t : Nat) : Nat := expFix (t * ln2Fix / fixOne) 80 1 fixOne fixOne

/-- The 30-bit number both bounds round to; where they differ, the constant of the configuration. -/
def settle (op bits : Nat) (neg : Bool) (v : Nat) (e : Int) : Dy :=
  let a := roundW ⟨neg, v - fixSlack, e⟩
  let b := roundW ⟨neg, v + fixSlack, e⟩
  let (x, y, _) := a.align b
  if x = y then a else
    let (m, k) := Config.transcendentalTie op bits
    ⟨neg, m, k⟩

/-- A finite value at fixed point, truncated; exact for every FP32, FP16 and BF16 value below 2^64. -/
def Dy.fix (d : Dy) : Nat :=
  let k := d.e + fixP
  if 0 ≤ k then d.m * 2 ^ k.toNat else d.m / 2 ^ (-k).toNat

/-- y of 1/x for a finite non-zero x. -/
def rcpY (d : Dy) : Dy :=
  let k := Nat.log2 d.m + 64
  let q := 2 ^ k / d.m
  if 2 ^ k % d.m = 0 then roundW ⟨d.neg, q, -(k : Int) - d.e⟩ else roundW ⟨d.neg, 2 * q + 1, -(k : Int) - d.e - 1⟩

/-- y of 1/√x for a finite x above zero. -/
def rsqY (d : Dy) : Dy :=
  let m := if d.e % 2 = 0 then d.m else d.m * 2
  let e := if d.e % 2 = 0 then d.e else d.e - 1
  let s := isqrt 160 (2 ^ 256 / m) 0
  if s * s * m = 2 ^ 256 then roundW ⟨false, s, -128 - e / 2⟩ else roundW ⟨false, 2 * s + 1, -129 - e / 2⟩

/-- y of 2^x for a finite x. Beyond ±2048 every rounding of every format overflows or underflows alike. -/
def ex2Y (bits : Nat) (d : Dy) : Dy :=
  if d.m = 0 then ⟨false, 1, 0⟩
  else if 11 ≤ d.e + (Nat.log2 d.m : Int) then ⟨false, 1, if d.neg then -2048 else 2048⟩
  else
    let x : Int := if d.neg then -(d.fix : Int) else d.fix
    let n := x / (fixOne : Int)
    let r := (x % (fixOne : Int)).toNat
    if r = 0 then ⟨false, 1, n⟩ else settle 3 bits false (exp2Fix r) (n - fixP)

/-- y of log2 x for a finite x above zero. -/
def lg2Y (bits : Nat) (d : Dy) : Dy :=
  let l := Nat.log2 d.m
  let k : Int := d.e + l
  if d.m = 2 ^ l then Dy.ofInt k
  else
    let high : Bool := decide (3 * 2 ^ l < 2 * d.m)
    let m := if high then d.m * 2 ^ (fixP - l - 1) else d.m * 2 ^ (fixP - l)
    let k := if high then k + 1 else k
    let neg := decide (m < fixOne)
    let z := (if neg then fixOne - m else m - fixOne) * fixOne / (m + fixOne)
    let ln := 2 * atanhFix (z * z / fixOne) 130 1 z 0
    let frac : Int := (ln * fixOne / ln2Fix : Nat)
    let v : Int := k * fixOne + (if neg then -frac else frac)
    settle 4 bits (decide (v < 0)) v.natAbs (-fixP)

/-- Repeated squaring at fixed point. -/
def sqFix : Nat → Nat → Nat
  | 0, v => v
  | n + 1, v => sqFix n (v * v / fixOne)

/-- y of tanh x for a finite non-zero x. From 32 up, 1 - tanh x lies below 2^-64 and y is 1. -/
def tanhY (bits : Nat) (d : Dy) : Dy :=
  if 5 ≤ d.e + (Nat.log2 d.m : Int) then ⟨d.neg, 1, 0⟩
  else
    let w := d.fix / 64
    let e := sqFix 7 (fixOne * fixOne / expFix w 80 1 fixOne fixOne)
    settle 5 bits d.neg ((fixOne - e) * fixOne / (fixOne + e)) (-fixP)

end Sys2Proof.Machine
end

