-- ==== Sys2Proof/Machine/Vector.lean ====
section
/-! DEFINITION. The vector half and the register group of the VECTOR format (spec/06_vector_instructions.md R121 to R127,
R134 to R142, R146). -/

namespace Sys2Proof

def VTy.bits : VTy → Nat
  | .f32 | .i32 | .n32 => 32
  | .bf16 | .f16 | .i16 => 16
  | .i8 => 8
  | .f64 => 64

def VTy.count (t : VTy) : Nat := 2048 / t.bits

/-- The floating-point format of a type; FP32 stands for the integer types, which have none. -/
def VTy.fmt : VTy → Machine.Fmt
  | .bf16 => Machine.bf16
  | .f16 => Machine.fp16
  | .f64 => Machine.fp64
  | _ => Machine.fp32

/-- Does a type compare as unsigned? -/
def VTy.isUnsigned : VTy → Bool
  | .n32 => true
  | _ => false

/-- The working format of a floating-point reduction (R140). -/
def VTy.work (t : VTy) : Machine.Fmt := if t = .f64 then Machine.fp64 else Machine.fp32

end Sys2Proof

namespace Sys2Proof.Machine

/-! ## Elements (R39, R121) -/

/-- Element e of width w. -/
def elemOf (v : VWord) (w e : Nat) : Nat := v.toNat / 2 ^ (w * e) % 2 ^ w

/-- Elements of width w from the lowest up. -/
def packElems (w : Nat) : List Nat → Nat
  | [] => 0
  | x :: r => x % 2 ^ w + 2 ^ w * packElems w r

/-- A register from its elements; elements not given are zero. -/
def ofElems (w : Nat) (l : List Nat) : VWord := BitVec.ofNat 2048 (packElems w l)

/-- The element index of R36 for element e of width w of a vector destination. -/
def vecIdx (w e : Nat) : Nat := if w = 64 then e else 64 * (e % (32 / w)) + e / (32 / w)

/-- The flags of some elements together. -/
def orFlags (l : List Flags) : Flags := l.foldl Flags.or Flags.none

/-- A register and flags from results by element. -/
def collect (w : Nat) (l : List (Nat × Flags)) : VWord × Flags := (ofElems w (l.map (·.1)), orFlags (l.map (·.2)))

/-! ## Floating point (R123) -/

/-- A value decided by R28 is rounded to the type. -/
def roundElem (f : Fmt) (md : RMode) (fo : Bool) (v : Val × Flags) : Nat × Flags :=
  let r := putVal f md fo false v.1
  (r.1, v.2.or r.2)

/-- What an elementwise operation computes from A, B and C, none of which is a NaN; `rdn` tells the mode RDN. -/
abbrev FOp := Bool → Fp → Fp → Fp → Val

/-- One floating-point instruction on every element; `three` tells that vd is a source. -/
def floatElems (t : VTy) (m : FMode) (r : Rounder) (three : Bool) (op : FOp) (va vb vd : VWord) : VWord × Flags :=
  let w := t.bits
  collect w ((List.range t.count).map fun e =>
    let a := decodeFp t.fmt m.fi (elemOf va w e)
    let b := decodeFp t.fmt m.fi (elemOf vb w e)
    let c := decodeFp t.fmt m.fi (elemOf vd w e)
    roundElem t.fmt (r.at (vecIdx w e)) m.fo (elementwise t.fmt (if three then [a, b, c] else [a, b]) (op r.isRdn a b c)))

/-- A vector result from the sources of the word, with its flags. -/
def vecResult (i : Instr) (vd : VReg) (x : VWord × Flags) (s : State) : State := s.putV vd x.1 (latOf i) (srcsOf i) x.2

/-- A floating-point word of two or three sources. -/
def floatWord (i : Instr) (vd va vb : VReg) (m : FMode) (t : VTy) (three : Bool) (op : FOp) (s : State) : State :=
  issueWord i s fun s =>
    vecResult i vd (floatElems t m (rounder s.ag.ctl m.rm) three op (s.vReg va) (s.vReg vb) (s.vReg vd)) s

def execVnop (s : State) : Host.Outcome State Fault Refusal := .next (issueWord .vnop s State.issued)

def execVadd (vd va vb : VReg) (m : FMode) (t : VTy) (s : State) : Host.Outcome State Fault Refusal :=
  .next (floatWord (.vadd vd va vb m t) vd va vb m t false (fun z a b _ => sumVal z a b) s)

def execVsub (vd va vb : VReg) (m : FMode) (t : VTy) (s : State) : Host.Outcome State Fault Refusal :=
  .next (floatWord (.vsub vd va vb m t) vd va vb m t false (fun z a b _ => sumVal z a b.negate) s)

def execVmul (vd va vb : VReg) (m : FMode) (t : VTy) (s : State) : Host.Outcome State Fault Refusal :=
  .next (floatWord (.vmul vd va vb m t) vd va vb m t false (fun _ a b _ => mulVal a b) s)

def execVfma (vd va vb : VReg) (m : FMode) (t : VTy) (s : State) : Host.Outcome State Fault Refusal :=
  .next (floatWord (.vfma vd va vb m t) vd va vb m t true (fun z a b c => fmaVal z a b c) s)

def execVfms (vd va vb : VReg) (m : FMode) (t : VTy) (s : State) : Host.Outcome State Fault Refusal :=
  .next (floatWord (.vfms vd va vb m t) vd va vb m t true (fun z a b c => fmaVal z a.negate b c) s)

def execVmin (vd va vb : VReg) (m : FMode) (t : VTy) (s : State) : Host.Outcome State Fault Refusal :=
  .next (floatWord (.vmin vd va vb m t) vd va vb m t false (fun _ a b _ => minVal a b) s)

def execVmax (vd va vb : VReg) (m : FMode) (t : VTy) (s : State) : Host.Outcome State Fault Refusal :=
  .next (floatWord (.vmax vd va vb m t) vd va vb m t false (fun _ a b _ => maxVal a b) s)

/-- VABS and VNEG act on the sign bit, after FI (R124). -/
def signElems (t : VTy) (fi : Bool) (f : Bool → Bool) (va : VWord) : VWord :=
  let w := t.bits
  ofElems w ((List.range t.count).map fun e =>
    let x := elemOf va w e
    let sub := x / 2 ^ t.fmt.fbits % 2 ^ t.fmt.ebits == 0
    let mag := if fi && sub then 0 else x % 2 ^ (w - 1)
    mag + (if f (decide (2 ^ (w - 1) ≤ x)) then 2 ^ (w - 1) else 0))

def signWord (i : Instr) (vd va : VReg) (m : FMode) (t : VTy) (f : Bool → Bool) (s : State) : State :=
  issueWord i s fun s => vecResult i vd (signElems t m.fi f (s.vReg va), Flags.none) s

def execVabs (vd va : VReg) (m : FMode) (t : VTy) (s : State) : Host.Outcome State Fault Refusal :=
  .next (signWord (.vabs vd va m t) vd va m t (fun _ => false) s)

def execVneg (vd va : VReg) (m : FMode) (t : VTy) (s : State) : Host.Outcome State Fault Refusal :=
  .next (signWord (.vneg vd va m t) vd va m t (fun x => !x) s)

/-! ## Integers (R125) -/

/-- An element as a signed number. -/
def signedOf (w x : Nat) : Int := if 2 ^ (w - 1) ≤ x then (x : Int) - 2 ^ w else x

/-- A signed number reduced to an element. -/
def wrapTo (w : Nat) (x : Int) : Nat := (x % (2 ^ w : Int)).toNat

def lessElem (t : VTy) (a b : Nat) : Bool :=
  if t.isUnsigned then decide (a < b) else decide (signedOf t.bits a < signedOf t.bits b)

def minElem (t : VTy) (a b : Nat) : Nat := if lessElem t b a then b else a
def maxElem (t : VTy) (a b : Nat) : Nat := if lessElem t a b then b else a

/-- A shift amount: the low log2 w bits. -/
def shiftAmt (t : VTy) (b : Nat) : Nat := b % t.bits

def intElems (t : VTy) (f : Nat → Nat → Nat) (va vb : VWord) : VWord :=
  ofElems t.bits ((List.range t.count).map fun e => f (elemOf va t.bits e) (elemOf vb t.bits e))

def intWord (i : Instr) (vd va vb : VReg) (t : VTy) (f : Nat → Nat → Nat) (s : State) : State :=
  issueWord i s fun s => vecResult i vd (intElems t f (s.vReg va) (s.vReg vb), Flags.none) s

/-- A word on whole registers. -/
def wholeWord (i : Instr) (vd va vb : VReg) (f : VWord → VWord → VWord) (s : State) : State :=
  issueWord i s fun s => vecResult i vd (f (s.vReg va) (s.vReg vb), Flags.none) s

def execViadd (vd va vb : VReg) (t : VTy) (s : State) : Host.Outcome State Fault Refusal :=
  .next (intWord (.viadd vd va vb t) vd va vb t (fun a b => a + b) s)

def execVisub (vd va vb : VReg) (t : VTy) (s : State) : Host.Outcome State Fault Refusal :=
  .next (intWord (.visub vd va vb t) vd va vb t (fun a b => a + (2 ^ t.bits - b)) s)

def execVimul (vd va vb : VReg) (t : VTy) (s : State) : Host.Outcome State Fault Refusal :=
  .next (intWord (.vimul vd va vb t) vd va vb t (fun a b => a * b) s)

def execVimin (vd va vb : VReg) (t : VTy) (s : State) : Host.Outcome State Fault Refusal :=
  .next (intWord (.vimin vd va vb t) vd va vb t (minElem t) s)

def execVimax (vd va vb : VReg) (t : VTy) (s : State) : Host.Outcome State Fault Refusal :=
  .next (intWord (.vimax vd va vb t) vd va vb t (maxElem t) s)

def execVshl (vd va vb : VReg) (t : VTy) (s : State) : Host.Outcome State Fault Refusal :=
  .next (intWord (.vshl vd va vb t) vd va vb t (fun a b => a * 2 ^ shiftAmt t b) s)

def execVshr (vd va vb : VReg) (t : VTy) (s : State) : Host.Outcome State Fault Refusal :=
  .next (intWord (.vshr vd va vb t) vd va vb t (fun a b => a / 2 ^ shiftAmt t b) s)

def execVsar (vd va vb : VReg) (t : VTy) (s : State) : Host.Outcome State Fault Refusal :=
  .next (intWord (.vsar vd va vb t) vd va vb t (fun a b => wrapTo t.bits (signedOf t.bits a / 2 ^ shiftAmt t b)) s)

def execVand (vd va vb : VReg) (s : State) : Host.Outcome State Fault Refusal :=
  .next (wholeWord (.vand vd va vb) vd va vb (fun x y => x &&& y) s)

def execVor (vd va vb : VReg) (s : State) : Host.Outcome State Fault Refusal :=
  .next (wholeWord (.vor vd va vb) vd va vb (fun x y => x ||| y) s)

def execVxor (vd va vb : VReg) (s : State) : Host.Outcome State Fault Refusal :=
  .next (wholeWord (.vxor vd va vb) vd va vb (fun x y => x ^^^ y) s)

def execVmov (vd va : VReg) (s : State) : Host.Outcome State Fault Refusal :=
  .next (wholeWord (.vmov vd va) vd va va (fun x _ => x) s)

/-! ## Transcendentals (R126, R127) -/

/-- The value before the last rounding, and DZ where R127 says so, of an element that is not a NaN. -/
abbrev TransFn := Nat → Fp → Val × Flags

def dzFlag : Flags := ⟨false, false, false, true, false⟩
def zeroVal (neg : Bool) : Val := .fin ⟨neg, 0, 0⟩
def oneVal (neg : Bool) : Val := .fin ⟨neg, 1, 0⟩

def rcpFn : TransFn := fun _ x => match x with
  | .inf n => (zeroVal n, Flags.none)
  | .fin d => if d.m = 0 then (.inf d.neg, dzFlag) else (.fin (rcpY d), Flags.none)
  | _ => (.gen 5, Flags.none)

def rsqFn : TransFn := fun _ x => match x with
  | .inf n => (if n then .gen 5 else zeroVal false, Flags.none)
  | .fin d => (if d.m = 0 then .inf d.neg else if d.neg then .gen 5 else .fin (rsqY d), Flags.none)
  | _ => (.gen 5, Flags.none)

def sqrtFn : TransFn := fun _ x => match x with
  | .inf n => (if n then .gen 5 else .inf false, Flags.none)
  | .fin d => (if d.m = 0 then zeroVal d.neg else if d.neg then .gen 5 else .fin (sqrtDy d), Flags.none)
  | _ => (.gen 5, Flags.none)

def ex2Fn : TransFn := fun bits x => match x with
  | .inf n => (if n then zeroVal false else .inf false, Flags.none)
  | .fin d => (.fin (ex2Y bits d), Flags.none)
  | _ => (.gen 5, Flags.none)

def lg2Fn : TransFn := fun bits x => match x with
  | .inf n => (if n then .gen 5 else .inf false, Flags.none)
  | .fin d => if d.m = 0 then (.inf true, dzFlag) else (if d.neg then .gen 5 else .fin (lg2Y bits d), Flags.none)
  | _ => (.gen 5, Flags.none)

def tanhFn : TransFn := fun bits x => match x with
  | .inf n => (oneVal n, Flags.none)
  | .fin d => (if d.m = 0 then zeroVal d.neg else .fin (tanhY bits d), Flags.none)
  | _ => (.gen 5, Flags.none)

def transElems (t : VTy) (m : FMode) (r : Rounder) (fn : TransFn) (va : VWord) : VWord × Flags :=
  let w := t.bits
  collect w ((List.range t.count).map fun e =>
    let x := elemOf va w e
    let a := decodeFp t.fmt m.fi x
    let v := match firstNan t.fmt [a] with
      | some n => n
      | none => fn x a
    roundElem t.fmt (r.at (vecIdx w e)) m.fo v)

def transWord (i : Instr) (vd va : VReg) (m : FMode) (t : VTy) (fn : TransFn) (s : State) : State :=
  issueWord i s fun s => vecResult i vd (transElems t m (rounder s.ag.ctl m.rm) fn (s.vReg va)) s

def execVrcp (vd va : VReg) (m : FMode) (t : VTy) (s : State) : Host.Outcome State Fault Refusal :=
  .next (transWord (.vrcp vd va m t) vd va m t rcpFn s)

def execVrsq (vd va : VReg) (m : FMode) (t : VTy) (s : State) : Host.Outcome State Fault Refusal :=
  .next (transWord (.vrsq vd va m t) vd va m t rsqFn s)

def execVsqrt (vd va : VReg) (m : FMode) (t : VTy) (s : State) : Host.Outcome State Fault Refusal :=
  .next (transWord (.vsqrt vd va m t) vd va m t sqrtFn s)

def execVex2 (vd va : VReg) (m : FMode) (t : VTy) (s : State) : Host.Outcome State Fault Refusal :=
  .next (transWord (.vex2 vd va m t) vd va m t ex2Fn s)

def execVlg2 (vd va : VReg) (m : FMode) (t : VTy) (s : State) : Host.Outcome State Fault Refusal :=
  .next (transWord (.vlg2 vd va m t) vd va m t lg2Fn s)

def execVtanh (vd va : VReg) (m : FMode) (t : VTy) (s : State) : Host.Outcome State Fault Refusal :=
  .next (transWord (.vtanh vd va m t) vd va m t tanhFn s)

/-! ## Compares (R135) -/

def nanSignals : Fp → Bool
  | .nan _ sg _ => sg
  | _ => false

/-- A floating-point condition and whether NV is set. -/
def condFloat (c : Cond) (a b : Fp) : Bool × Bool :=
  let un := a.isNan || b.isNan
  let sig := nanSignals a || nanSignals b
  let eq := !a.lt b && !b.lt a
  match c with
  | .eq => (!un && eq, sig)
  | .ne => (un || !eq, sig)
  | .lt => (!un && a.lt b, un)
  | .le => (!un && !b.lt a, un)
  | .gt => (!un && b.lt a, un)
  | .ge => (!un && !a.lt b, un)
  | .un => (un, sig)
  | .ord => (!un, sig)

def condInt (t : VTy) (c : Cond) (a b : Nat) : Bool :=
  match c with
  | .eq => a == b
  | .ne => a != b
  | .lt => lessElem t a b
  | .le => !lessElem t b a
  | .gt => lessElem t b a
  | .ge => !lessElem t a b
  | .un => false
  | .ord => true

/-- The mask and the flags of a compare; for type 7 both lanes of a pair hold the result. -/
def compareElems (t : VTy) (fi : Bool) (c : Cond) (va vb : VWord) : Word × Flags :=
  let w := t.bits
  let rs := (List.range t.count).map fun e =>
    if t.isFloat4 then condFloat c (decodeFp t.fmt fi (elemOf va w e)) (decodeFp t.fmt fi (elemOf vb w e))
    else (condInt t c (elemOf va w e) (elemOf vb w e), false)
  let bits := rs.map fun r => if w = 64 then (if r.1 then 3 else 0) else r.1.toNat
  (BitVec.ofNat 64 (packElems (w / 32) bits), if rs.any (·.2) then Flags.invalid else Flags.none)

def execVcmp (vd : KReg) (va vb : VReg) (fi : Bool) (t : VTy) (c : Cond) (s : State) : Host.Outcome State Fault Refusal :=
  .next (issueWord (.vcmp vd va vb fi t c) s fun s =>
    let r := compareElems t fi c (s.vReg va) (s.vReg vb)
    s.putK vd r.1 (latOf (.vcmp vd va vb fi t c)) [.v va, .v vb] r.2)

/-! ## Selection and movement (R136, R137) -/

/-- Lanes by a function of their number. -/
def lanesOf (f : Nat → Nat) : VWord := ofElems 32 ((List.range 64).map f)

def laneOf (v : VWord) (i : Nat) : Nat := elemOf v 32 i

def execVsel (vd va vb : VReg) (kc : KReg) (s : State) : Host.Outcome State Fault Refusal :=
  .next (issueWord (.vsel vd va vb kc) s fun s =>
    vecResult (.vsel vd va vb kc) vd
      (lanesOf fun i => if (s.kReg kc).getLsbD i then laneOf (s.vReg va) i else laneOf (s.vReg vb) i, Flags.none) s)

def execVbcst (vd : VReg) (t : VTy) (src : BSrc) (s : State) : Host.Outcome State Fault Refusal :=
  .next (issueWord (.vbcst vd t src) s fun s =>
    let v := match src with
      | .reg n => s.sReg n
      | .lit v => v
    vecResult (.vbcst vd t src) vd (ofElems t.bits (List.replicate t.count (v.toNat % 2 ^ t.bits)), Flags.none) s)

/-- VEXT's value. -/
def extractLane (t : VTy) (v : VWord) (lane : Fin 64) : Word :=
  match t with
  | .f64 => BitVec.ofNat 64 (elemOf v 64 lane.val)
  | .i32 => (BitVec.ofNat 32 (laneOf v lane.val)).signExtend 64
  | _ => BitVec.ofNat 64 (laneOf v lane.val)

def execVext (sd : SReg) (va : VReg) (t : VTy) (lane : Fin 64) (s : State) : Host.Outcome State Fault Refusal :=
  .next (issueWord (.vext sd va t lane) s fun s => s.putS sd (extractLane t (s.vReg va) lane) [.v va])

def execVidx (vd : VReg) (t : VTy) (start : BitVec 20) (s : State) : Host.Outcome State Fault Refusal :=
  .next (issueWord (.vidx vd t start) s fun s =>
    vecResult (.vidx vd t start) vd
      (ofElems t.bits ((List.range t.count).map fun (e : Nat) => wrapTo t.bits (start.toInt + (e : Int))), Flags.none) s)

def execVperm (vd va vb : VReg) (s : State) : Host.Outcome State Fault Refusal :=
  .next (issueWord (.vperm vd va vb) s fun s =>
    vecResult (.vperm vd va vb) vd (lanesOf fun i => laneOf (s.vReg va) (laneOf (s.vReg vb) i % 64), Flags.none) s)

def execVrotm (vd va : VReg) (kc : KReg) (r : Fin 64) (s : State) : Host.Outcome State Fault Refusal :=
  .next (issueWord (.vrotm vd va kc r) s fun s =>
    vecResult (.vrotm vd va kc r) vd
      (lanesOf fun i => if (s.kReg kc).getLsbD i then laneOf (s.vReg va) ((i + 64 - r.val) % 64)
        else laneOf (s.vReg vd) i, Flags.none) s)

/-! ## Conversion (R47, R138, R139) -/

/-- The numeric formats of VCVT's two sides: a floating-point format, a two's-complement or unsigned integer of a
width, or a block-integer mantissa of w bits. -/
inductive NumFmt where
  | float (f : Fmt)
  | int (w : Nat)
  | nat (w : Nat)
  | bi (w : Nat)
  deriving DecidableEq, Repr

def NumFmt.bits : NumFmt → Nat
  | .float f => f.width
  | .int w | .nat w | .bi w => w

def numOf (t : VTy) : NumFmt :=
  match t with
  | .i32 => .int 32
  | .n32 => .nat 32
  | .i16 => .int 16
  | .i8 => .int 8
  | t => .float t.fmt

/-- The source and target formats of a VCVT (R138). -/
def cvtFormats (t : VTy) (code : Fin 16) (sat : Bool) : NumFmt × NumFmt :=
  match code.val with
  | 0 => (numOf t, .float fp32)
  | 1 => (numOf t, .float bf16)
  | 2 => (numOf t, .float fp16)
  | 3 => (numOf t, .int 32)
  | 4 => (numOf t, .nat 32)
  | 5 => (numOf t, .int 16)
  | 6 => (numOf t, .int 8)
  | 7 => (numOf t, .float fp64)
  | 8 => (numOf t, .float e4m3)
  | 9 => (numOf t, .float e5m2)
  | 10 => (numOf t, .float e2m1)
  | 11 => (numOf t, .bi 4)
  | 12 => (numOf t, .bi 8)
  | 13 => (.float e4m3, numOf t)
  | 14 => (.float e5m2, numOf t)
  | _ => (if sat then .bi 4 else .float e2m1, numOf t)

/-- A source element. -/
def NumFmt.decode (f : NumFmt) (fi : Bool) (x : Nat) : Fp :=
  match f with
  | .float f => decodeFp f fi x
  | .int w | .bi w => .fin (Dy.ofInt (signedOf w x))
  | .nat _ => .fin (Dy.ofInt x)

/-- The range an integer or block-integer target clamps to. -/
def NumFmt.range : NumFmt → Int × Int
  | .nat w => (0, 2 ^ w - 1)
  | .bi w => (-(2 ^ (w - 1) - 1), 2 ^ (w - 1) - 1)
  | f => (-(2 ^ (f.bits - 1)), 2 ^ (f.bits - 1) - 1)

/-- The flags of a clamp: NX and NV for integers (R32, R47), NX and OF for block integers (R139). -/
def NumFmt.clampFlags : NumFmt → Flags
  | .bi _ => Flags.overflow
  | _ => ⟨true, false, false, false, true⟩

/-- A value to an integer or block-integer target. -/
def toInteger (f : NumFmt) (md : RMode) : Fp → Nat × Flags
  | .nan .. => (0, Flags.invalid)
  | .inf n => (wrapTo f.bits (if n then f.range.1 else f.range.2), f.clampFlags)
  | .fin d =>
    let (v, inexact) := roundInt md d
    if v < f.range.1 then (wrapTo f.bits f.range.1, f.clampFlags)
    else if f.range.2 < v then (wrapTo f.bits f.range.2, f.clampFlags)
    else (wrapTo f.bits v, ⟨inexact, false, false, false, false⟩)

/-- Convert (R139). -/
def convertElem (src dst : NumFmt) (md : RMode) (fi fo sat : Bool) (x : Nat) : Nat × Flags :=
  let v := src.decode fi x
  match dst with
  | .float f => match src with
    | .float g => convertFp g f md fo sat v
    | _ => match v with
      | .fin d => roundFin f md fo sat d
      | _ => (0, Flags.none)
  | d => toInteger d md v

def cvtElems (t : VTy) (m : FMode) (r : Rounder) (code : Fin 16) (sat : Bool) (va : VWord) : VWord × Flags :=
  let (src, dst) := cvtFormats t code sat
  let sat' := sat && code.val != 15
  collect dst.bits ((List.range (min (2048 / src.bits) (2048 / dst.bits))).map fun e =>
    convertElem src dst (r.at (vecIdx dst.bits e)) m.fi m.fo sat' (elemOf va src.bits e))

def execVcvt (vd va : VReg) (m : FMode) (t : VTy) (code : Fin 16) (sat : Bool) (s : State) : Host.Outcome State Fault Refusal :=
  .next (issueWord (.vcvt vd va m t code sat) s fun s =>
    vecResult (.vcvt vd va m t code sat) vd (cvtElems t m (rounder s.ag.ctl m.rm) code sat (s.vReg va)) s)

/-! ## Reductions and scans (R29, R140) -/

/-- Integer operation of a reduction. -/
def redInt (t : VTy) (op : RedOp) (a b : Nat) : Nat :=
  match op with
  | .add => (a + b) % 2 ^ t.bits
  | .min => minElem t a b
  | .max => maxElem t a b
  | .and => a &&& b
  | .or => a ||| b
  | .xor => a ^^^ b

/-- The marker of an intermediate that has become a NaN through an invalid operation. -/
def badFp : Fp := .nan false false 3

/-- One rounded step of a floating-point reduction; a NaN intermediate stays. -/
def redFloat (t : VTy) (m : FMode) (r : Rounder) (op : RedOp) (idx : Nat) (a b : Fp) : Fp × Flags :=
  if a.isNan || b.isNan then (badFp, Flags.none) else
  let v := match op with
    | .add => sumVal r.isRdn a b
    | .min => minVal a b
    | _ => maxVal a b
  match v with
  | .gen _ => (badFp, Flags.invalid)
  | v => let x := putVal t.work (r.at idx) m.fo false v
    (decodeFp t.work false x.1, x.2)

/-- A working value written in the type; a marked one is the generated NaN of cause 3 (R29). -/
def narrow (t : VTy) (m : FMode) (r : Rounder) (idx : Nat) : Fp → Nat × Flags
  | .nan .. => (genNan t.fmt 3, Flags.invalid)
  | v => putVal t.fmt (r.at idx) m.fo false v.toVal

/-- The halving tree: at each level elements e and e + h combine. -/
def redTree {α : Type} (f : Nat → Nat → α → α → α × Flags) : Nat → Nat → List α → Flags → List α × Flags
  | 0, _, l, fl => (l, fl)
  | n + 1, q, l, fl =>
    let h := l.length / 2
    let rs := ((l.take h).zip (l.drop h)).zipIdx.map fun p => f q p.2 p.1.1 p.1.2
    redTree f n (q + 1) (rs.map (·.1)) (fl.or (orFlags (rs.map (·.2))))

/-- Working elements of a floating-point source. -/
def workElems (t : VTy) (fi : Bool) (va : VWord) : List Fp :=
  (List.range t.count).map fun e => decodeFp t.fmt fi (elemOf va t.bits e)

/-- The result of VRED with its flags; a NaN of an invalid operation sets only NV (R29, R38). -/
def redElems (t : VTy) (m : FMode) (r : Rounder) (op : RedOp) (va : VWord) : VWord × Flags :=
  let n := Nat.log2 t.count
  if t.isFloat4 then
    let xs := workElems t m.fi va
    if xs.any Fp.isNan then (ofElems t.bits [genNan t.fmt 1], Flags.invalid)
    else
      let (l, fl) := redTree (fun q e => redFloat t m r op (roundIdx (vecIdx t.bits e) q)) n 0 xs Flags.none
      let y := l.headD badFp
      let x := narrow t m r (roundIdx 0 n) y
      (ofElems t.bits [x.1], if y.isNan then x.2 else fl.or x.2)
  else
    let xs := (List.range t.count).map fun e => elemOf va t.bits e
    let (l, _) := redTree (fun _ _ a b => (redInt t op a b, Flags.none)) n 0 xs Flags.none
    (ofElems t.bits [l.headD 0], Flags.none)

/-- Inclusive prefixes of a floating-point source: `run` holds the prefix so far, `bad` that a NaN was met. -/
def scanFloat (t : VTy) (m : FMode) (r : Rounder) (op : RedOp) : List Fp → Nat → Fp → Bool → List (Nat × Flags)
  | [], _, _, _ => []
  | x :: l, e, run, bad =>
    let bad := bad || x.isNan
    let idx := vecIdx t.bits e
    let p := if e = 0 then (x, Flags.none) else if bad then (run, Flags.none) else redFloat t m r op idx run x
    let out := if bad then (genNan t.fmt 1, Flags.invalid)
      else let y := narrow t m r (roundIdx idx 1) p.1
        (y.1, p.2.or y.2)
    out :: scanFloat t m r op l (e + 1) p.1 bad

def scanInt (t : VTy) (op : RedOp) : List Nat → Option Nat → List Nat
  | [], _ => []
  | x :: l, run =>
    let y := match run with
      | none => x
      | some z => redInt t op z x
    y :: scanInt t op l (some y)

def scanElems (t : VTy) (m : FMode) (r : Rounder) (op : RedOp) (va : VWord) : VWord × Flags :=
  if t.isFloat4 then collect t.bits (scanFloat t m r op (workElems t m.fi va) 0 badFp false)
  else (ofElems t.bits (scanInt t op ((List.range t.count).map fun e => elemOf va t.bits e) none), Flags.none)

def execVred (vd va : VReg) (m : FMode) (t : VTy) (op : RedOp) (s : State) : Host.Outcome State Fault Refusal :=
  .next (issueWord (.vred vd va m t op) s fun s =>
    vecResult (.vred vd va m t op) vd (redElems t m (rounder s.ag.ctl m.rm) op (s.vReg va)) s)

def execVscan (vd va : VReg) (m : FMode) (t : VTy) (op : RedOp) (s : State) : Host.Outcome State Fault Refusal :=
  .next (issueWord (.vscan vd va m t op) s fun s =>
    vecResult (.vscan vd va m t op) vd (scanElems t m (rounder s.ag.ctl m.rm) op (s.vReg va)) s)

/-! ## Top-k (R142) -/

/-- Does key a stand before key b by value alone? -/
def keyAbove (t : VTy) (a b : Nat) : Bool :=
  if t.isFloat4 then
    let x := decodeFp fp32 false a
    let y := decodeFp fp32 false b
    if x.isNan then false else if y.isNan then true else y.lt x
  else lessElem t b a

/-- Insert a lane after every lane whose key is not below its own. -/
def rankInsert (t : VTy) (key : Nat → Nat) (i : Nat) : List Nat → List Nat
  | [] => [i]
  | j :: r => if keyAbove t (key i) (key j) then i :: j :: r else j :: rankInsert t key i r

/-- The lanes in the order of R142. -/
def rankLanes (t : VTy) (key : Nat → Nat) : List Nat := (List.range 64).foldl (fun l i => rankInsert t key i l) []

def topK (t : VTy) (k : Nat) (va vb : VWord) : VWord :=
  let order := rankLanes t (laneOf va)
  lanesOf fun i => if i < k then laneOf vb (order.getD i 0) else 0xFFFFFFFF

def execVtopk (vd va vb : VReg) (t : VTy) (k : Fin 128) (s : State) : Host.Outcome State Fault Refusal :=
  .next (issueWord (.vtopk vd va vb t k) s fun s =>
    vecResult (.vtopk vd va vb t k) vd (topK t k.val (s.vReg va) (s.vReg vb), Flags.none) s)

/-! ## Lane masks (R146) -/

def maskWord (i : Instr) (d a b : KReg) (f : Word → Word → Word) (s : State) : State :=
  issueWord i s fun s => s.putK d (f (s.kReg a) (s.kReg b)) 1 [.k a, .k b] Flags.none

def execKand (d a b : KReg) (s : State) : Host.Outcome State Fault Refusal :=
  .next (maskWord (.kand d a b) d a b (fun x y => x &&& y) s)

def execKor (d a b : KReg) (s : State) : Host.Outcome State Fault Refusal :=
  .next (maskWord (.kor d a b) d a b (fun x y => x ||| y) s)

def execKxor (d a b : KReg) (s : State) : Host.Outcome State Fault Refusal :=
  .next (maskWord (.kxor d a b) d a b (fun x y => x ^^^ y) s)

def execKnot (d a : KReg) (s : State) : Host.Outcome State Fault Refusal :=
  .next (maskWord (.knot d a) d a a (fun x _ => ~~~x) s)

def execKcnt (sd : SReg) (a : KReg) (s : State) : Host.Outcome State Fault Refusal :=
  .next (issueWord (.kcnt sd a) s fun s => s.putS sd (BitVec.ofNat 64 (popCount (s.kReg a))) [.k a])

def execKmovToMask (d : KReg) (a : SReg) (s : State) : Host.Outcome State Fault Refusal :=
  .next (issueWord (.kmovToMask d a) s fun s => s.putK d (s.sReg a) 1 [.s a] Flags.none)

def execKmovFromMask (sd : SReg) (a : KReg) (s : State) : Host.Outcome State Fault Refusal :=
  .next (issueWord (.kmovFromMask sd a) s fun s => s.putS sd (s.kReg a) [.k a])

end Sys2Proof.Machine
end

