-- ==== Sys2Proof/Machine/BlockFmt.lean ====
section
/-! DEFINITION. The elements of a tile under its format tag, and quantisation to the scaled formats
(spec/02_number_formats.md R39 to R49). -/

namespace Sys2Proof.Machine

/-! ## Tags (R40, R42) -/

/-- The element of a tag. MXINT8 is BI8 with another scale; a raw byte reads as unsigned. -/
def tagNum (t : BitVec 8) : NumFmt :=
  match t.toNat / 16 with
  | 1 => .float fp32
  | 2 => .float fp16
  | 3 => .float bf16
  | 4 => .float fp64
  | 5 => .float e4m3
  | 6 => .float e5m2
  | 7 => .float e2m1
  | 8 => .bi (t.toNat / 2 % 8 + 1)
  | 9 => .bi 8
  | 10 => .int 32
  | 11 => .int 8
  | 12 => .nat 32
  | _ => .nat 8

/-- The width of the container. -/
def tagCont (t : BitVec 8) : Nat :=
  match tagNum t with
  | .float f => f.width
  | .bi w => if w = 2 then 2 else if w ≤ 4 then 4 else 8
  | .int w | .nat w => w

/-- Elements per row. -/
def tagRow (t : BitVec 8) : Nat := 512 / tagCont t

/-- Does the side-band hold block scales? -/
def tagScaled (t : BitVec 8) : Bool := t.getLsbD 0

/-- What a scale byte exceeds its exponent by: 127, and 6 more for MXINT8. -/
def tagBias (t : BitVec 8) : Int := if t = 0x91 then 133 else 127

/-! ## Elements and scales (R39, R45, R46) -/

/-- Element i in row-major order, as its container holds it. -/
def rawElem (data : Nat) (cont i : Nat) : Nat := data / 2 ^ (cont * i) % 2 ^ cont

/-- A tile's data from its containers in row-major order. -/
def packTile (cont : Nat) (f : Nat → Nat) : Nat := packElems cont ((List.range (16384 / cont)).map f)

/-- Byte n of a side-band. -/
def sideByte (s : SideBand) (n : Nat) : Nat := (s.extractLsb' (8 * n) 8).toNat

/-- The side-band from its bytes. -/
def packSide (f : Nat → Nat) : SideBand := BitVec.ofNat 1024 (packElems 8 ((List.range 128).map f))

/-- The scale byte of a block; none where every element decodes as a NaN. -/
def blockScale (t : BitVec 8) (s : SideBand) (row blk : Nat) : Option Nat :=
  if t = 0x83 then
    let base := sideByte s row
    let d := (s.extractLsb' (256 + 24 * row + 3 * blk) 3).toNat
    if base = 0xFF ∨ 0xFE < base + d then none else some (base + d)
  else
    let v := sideByte s (row * (tagRow t / 32) + blk)
    if v = 0xFF then none else some v

/-- A NaN of cause 2, as an FP32 element carries it (R27, R40). -/
def scaleNan : Fp := .nan false false (2 ^ 22 + 2)

def Fp.scale (x : Fp) (k : Int) : Fp :=
  match x with
  | .fin d => .fin (d.scale k)
  | x => x

/-- An element's exact value after FI, with the format in which a NaN's fraction stands. The model's choice: a -0 E2M1 element of an
mxfp4 source keeps its sign here, as a value converted by R31 and not as the BI5 mantissa of R362 (notes/assumptions/65.md). -/
def tileElem (t : BitVec 8) (data : Nat) (side : SideBand) (fi : Bool) (row col : Nat) : Fp × Fmt :=
  let num := tagNum t
  let x := rawElem data (tagCont t) (row * tagRow t + col) % 2 ^ num.bits
  let v := num.decode fi x
  let f := match num with
    | .float f => f
    | _ => fp32
  if tagScaled t then
    match blockScale t side row (col / 32) with
    | none => (scaleNan, fp32)
    | some s => (v.scale (s - tagBias t), f)
  else (v, f)

/-! ## Quantisation (R48, R49) -/

/-- The element exponent emax of R48. -/
def tagEmax (t : BitVec 8) : Int :=
  match t.toNat with
  | 0x71 => 2
  | 0x51 => 8
  | 0x61 => 15
  | 0x91 => 0
  | _ => ((tagNum t).bits : Int) - 2

/-- The largest finite FP32 value. -/
def maxFp32 (neg : Bool) : Dy := ⟨neg, 2 ^ 24 - 1, 104⟩

/-- A source value as the choice of a scale takes it: in saturating mode an infinity counts as the largest finite FP32 (R48
step 1). The element itself becomes the largest finite value of its format (R32). -/
def quantSource (sat : Bool) : Fp → Fp
  | .inf n => if sat then .fin (maxFp32 n) else .inf n
  | x => x

def Fp.isInf : Fp → Bool
  | .inf _ => true
  | _ => false

/-- floor(log2 |x|) of a finite value that is not zero. -/
def Fp.log2? : Fp → Option Int
  | .fin d => if d.m = 0 then none else some (d.e + (Nat.log2 d.m : Int))
  | _ => none

/-- The largest of some exponents. -/
def maxExp (l : List Int) : Option Int := l.foldl (fun acc x => match acc with
  | none => some x
  | some y => some (max x y)) none

/-- The scale byte of a block (R48 steps 1 to 5); none for a block that gets scale 0xFF. -/
def chooseScale (t : BitVec 8) (xs : List Fp) : Option Nat :=
  if xs.any Fp.isNan || (xs.any Fp.isInf && t != 0x61) then none
  else match maxExp (xs.filterMap Fp.log2?) with
    | none => some 0
    | some top => some (min (max (top - tagEmax t) (-127)) 127 + 127).toNat

/-- An element quantised under a scale byte (R48 steps 6 to 8), as its container holds it. An infinite source of a
saturating conversion becomes the largest finite value with OF and NX (R32); elsewhere only an E5M2 element is infinite. -/
def quantElem (t : BitVec 8) (scale : Nat) (md : RMode) (fo sat : Bool) (x : Fp) : Nat × Flags :=
  let y := x.scale (tagBias t - scale)
  match tagNum t with
  | .float f =>
    match y with
    | .inf n => putVal f md fo sat (.inf n)
    | .fin d => roundFin f md fo true d
    | _ => (0, Flags.none)
  | num =>
    let r := toInteger num md y
    (wrapTo (tagCont t) (signedOf num.bits r.1), r.2)

/-- A block quantised under the scale given; a block with no scale, or of zeros, holds zeros (R48 steps 2 to 4). R48 gives
these zeros no sign and a block of scale 0xFF no flags: every such element is +0 and sets none (notes/assumptions/49.md). -/
def quantBlock (t : BitVec 8) (scale : Option Nat) (fo sat : Bool) (xs : List (Fp × RMode)) : List (Nat × Flags) :=
  match scale with
  | none => xs.map fun _ => (0, Flags.none)
  | some s =>
    if xs.all fun p => !p.1.isInf && p.1.log2?.isNone then xs.map fun _ => (0, Flags.none)
    else xs.map fun p => quantElem t s p.2 fo sat p.1

/-- The row base and the scales of a BI2 row from its blocks' own scales (R49). R49 names a row that holds a NaN; a row
with an infinity in non-saturating mode, whose block R48 step 3 gives scale 0xFF, is taken the same way
(notes/assumptions/49.md). -/
def rowScales (l : List (Option Nat)) : Option (Nat × List Nat) :=
  if l.any (·.isNone) then none
  else
    let xs := l.map (·.getD 0)
    let base := xs.foldl max 0 - 7
    some (base, xs.map fun x => max x base)

end Sys2Proof.Machine
end

