-- ==== Sys2Proof/Machine/VecMem.lean ====
section
/-! DEFINITION. The memory group of the VECTOR format and ring compaction (spec/06_vector_instructions.md R128 to R133,
R143 to R145), with the units of a gather or scatter. -/

namespace Sys2Proof.Machine

/-- The address of a memory-group word (R129). -/
def vectorEa (s : State) (base : SReg) (off : BitVec 27) : Word := s.sReg base + off.signExtend 64

/-- Row accesses: the base's and the mask's poison are checked even when no lane is enabled (R121, R129), the base first
(notes/assumptions/61.md). -/
def rowAccess (i : Instr) (base : SReg) (k : KReg) (off : BitVec 27) (use : Use) (kind : State → AccessKind)
    (reg : Option RegName) (spec : Bool) (s : State) : State :=
  issueWord i s fun s => s.checkPoison [.s base, .k k] fun s =>
    if s.kReg k = 0 then s.issued else startAccess s (vectorEa s base off) use (kind s) reg spec

/-- A row load of a register under a mask. -/
def rowLoad (i : Instr) (vd : VReg) (base : SReg) (k : KReg) (off : BitVec 27) (spec : Bool) (s : State) : State :=
  rowAccess i base k off .load
    (fun s => .vload vd (s.kReg k) (s.ag.poisoned (.v vd) && s.kReg k != BitVec.allOnes 64)) (some (.v vd)) spec s

def execVld (vd : VReg) (base : SReg) (k : KReg) (off : BitVec 27) (s : State) : Host.Outcome State Fault Refusal :=
  .next (rowLoad (.vld vd base k off) vd base k off false s)

def execVlds (vd : VReg) (base : SReg) (k : KReg) (off : BitVec 27) (s : State) : Host.Outcome State Fault Refusal :=
  .next (rowLoad (.vlds vd base k off) vd base k off true s)

def execVst (vd : VReg) (base : SReg) (k : KReg) (off : BitVec 27) (s : State) : Host.Outcome State Fault Refusal :=
  .next (rowAccess (.vst vd base k off) base k off .store
    (fun s => .vstore (s.vReg vd) (s.kReg k) (s.ag.poisoned (.v vd))) none false s)

def execVchk (vd : VReg) (s : State) : Host.Outcome State Fault Refusal :=
  .next (issueWord (.vchk vd) s fun s => s.checkPoison [.v vd] State.issued)

/-! ## Gather and scatter (R132, R133) -/

/-- The first enabled lane from a lane up; 64 when there is none. -/
def nextLane (mask : Word) (start : Nat) : Nat :=
  ((List.range 64).find? fun i => decide (start ≤ i) && mask.getLsbD i).getD 64

/-- The word in focus as a long instruction, every captured operand empty (R175). -/
def longBase (s : State) (i : Instr) : Long where
  pc := s.cur.pc
  next := s.cur.next
  w := s.cur.hdr.w.val
  rep := s.ag.rep.isSome
  i := i
  unit := 0
  last := 0
  base := 0
  stride := 0
  enables := 0
  cols := 0
  reg := 0
  gen := 0
  idx := 0
  data := 0
  tag := 0
  mask := 0
  poison := false
  advance := []
  first := none
  begun := false
  tile := Tile.reset

/-- Start a gather or scatter at lane PIDX<5:0>; with no enabled lane from there, it is complete at once. The poison of its
operands is looked at in the order base, index vector, mask (notes/assumptions/61.md). -/
def gatherWord (i : Instr) (vd vi : VReg) (base : SReg) (k : KReg) (off : BitVec 27) (load : Bool) (s : State) : State :=
  issueWord i s fun s => s.checkPoison [.s base, .v vi, .k k] fun s =>
    let mask := s.kReg k
    let start := s.ag.ctl.prog.toNat % 64
    let lane := nextLane mask start
    if lane = 64 then (s.setCtl { s.ag.ctl with prog := 0 }).issued
    else
      let old := s.ag.poisoned (.v vd)
      let l := { longBase s i with
        unit := lane, last := 63, base := vectorEa s base off, mask := mask, reg := vd.val,
        idx := (s.vReg vi).setWidth 16384, data := (s.vReg vd).setWidth 65536,
        poison := if load then old && (start != 0 || mask != BitVec.allOnes 64) else old }
      (s.setAg { (s.ag.mark (if load then some (.v vd) else none)) with long := some l }).setDisp .walking

def execVgath (vd vi : VReg) (base : SReg) (k : KReg) (off : BitVec 27) (s : State) : Host.Outcome State Fault Refusal :=
  .next (gatherWord (.vgath vd vi base k off) vd vi base k off true s)

def execVscat (vd vi : VReg) (base : SReg) (k : KReg) (off : BitVec 27) (s : State) : Host.Outcome State Fault Refusal :=
  .next (gatherWord (.vscat vd vi base k off) vd vi base k off false s)

/-- The address of a lane. -/
def Long.laneVa (l : Long) (i : Nat) : Word :=
  (l.base + 4 * (l.idx.extractLsb' (32 * i) 32).signExtend 64) &&& ~~~3#64

/-- Is the long instruction a load: may a shadow fault arise in it (R133)? -/
def Long.isGather (l : Long) : Bool := match l.i with | .vgath .. => true | _ => false

/-- The lanes performed so far are delivered to vd, which is unchanged when there is none (R86, R89). -/
def gatherDeliver (a : Agent) (l : Long) : Agent :=
  if l.isGather then
    let r : RegName := .v (Fin.ofNat 16 l.reg)
    let a := if l.begun then a.setReg r (l.data.setWidth 2048) l.poison else a
    { a with pend := a.pend.erase r }
  else a

/-- The long instruction is complete: PIDX is 0, the stall passes and the next word may issue. When an interrupt was
accepted meanwhile, the word has already passed. -/
def longPass (a : Agent) (l : Long) : Agent :=
  let a := { a with long := none, ctl := { a.ctl with prog := 0 } }
  let a := if l.isGather then a else a.keepSlip
  if a.trap.isSome then a else a.pass l.w l.next

/-- A lane's fault stops the word with PIDX at the lane; after an accepted interrupt it is a shadow fault (R89, R132). -/
def gatherFault (s : State) (l : Long) (code : BitVec 8) (va : Word) : State :=
  let a := gatherDeliver s.ag l
  let a := { a with long := none, walk := none, ctl := { a.ctl with prog := BitVec.ofNat 16 l.unit } }
  if a.trap.isSome then s.setAg { a with shadow := some ⟨l.pc, va, code, l.w, l.rep⟩ }
  else raiseAt (s.setAg a) code false l.pc va (a.rep.getD 0)

/-- A walk for a unit of a long instruction. -/
def walkForLong (s : State) (l : Long) (va : Word) (use : Use) : State :=
  let at_ := walkStart s va
  let k : Walk := ⟨va, use, at_.1, at_.2, none, none, none, false, l.pc, l.w, l.next, l.rep⟩
  joinWalks (s.setAg { s.ag with walk := some k }) va

/-- One lane of a gather or scatter. -/
def gatherUnit (s : State) (l : Long) : State :=
  let va := l.laneVa l.unit
  match translate s s.blk va (if l.isGather then .load else .store) with
  | .miss => walkForLong s l va (if l.isGather then .load else .store)
  | .fault c => gatherFault s l c va
  | .ok loc => withLocRoute s loc fun s =>
    let nxt := nextLane l.mask (l.unit + 1)
    let done (s : State) (l : Long) : State :=
      let l := { l with begun := true }
      if nxt = 64 then s.setAg (longPass (gatherDeliver s.ag l) l)
      else s.setAg { s.ag with long := some { l with unit := nxt } }
    if l.isGather then
      let (t, v, p) := loadFrom s loc 4 1
      let sh := 32 * l.unit
      let data := (l.data &&& ~~~((0xFFFFFFFF#65536) <<< sh)) ||| ((BitVec.ofNat 65536 v) <<< sh)
      done t { l with data := data, poison := l.poison || p }
    else
      done (s.atHome fun s => writeLoc s loc 1 (l.data.extractLsb' (32 * l.unit) 32).toNat l.poison) l

/-! ## Ring compaction (R143 to R145) -/

/-- A ring whose descriptor has passed its checks: the offsets of the descriptor and of slot 0. -/
structure Ring where
  desc : Nat
  slot0 : Nat
  cap : Nat
  head : Word
  tail : Word
  deriving DecidableEq, Repr

/-- The offset of an address in the scratchpad of the block's own window, whatever the row (R150). -/
def ownPad (b : Block) (va : Word) : Option Nat :=
  let o := windowOff va
  if inWindow va ∧ ownWindow b va ∧ 0x200000 ≤ o ∧ o < 0x400000 then some (o - 0x200000) else none

/-- The checks of R143 in their order: a ring, or a cause and TVAL. The poison of the descriptor's own granules changes
nothing: its fields are used as they are read, and HEAD or TAIL goes back unpoisoned (notes/assumptions/65.md). -/
def checkRing (b : Block) (x : Word) : Except (BitVec 8 × Word) Ring :=
  let a := x &&& ~~~31#64
  match ownPad b a with
  | none => .error (cPROT, x)
  | some d =>
    if b.sprows ≤ d / 256 then .error (cPROT, x)
    else
      let q (n : Nat) : Word := BitVec.ofNat 64 (b.pad.readLE (d + n) 8)
      let base := q 0
      let cap := (q 8).toNat
      let head := q 16
      let tail := q 24
      let capOk := decide (64 ≤ cap) && decide (cap ≤ 524288) && cap == 2 ^ Nat.log2 cap
      match ownPad b base with
      | none => .error (cHBOUND, x)
      | some o =>
        if o % 256 ≠ 0 ∨ !capOk ∨ 0x200000 < o + 4 * cap ∨ cap < (head - tail).toNat then .error (cHBOUND, x)
        else if b.sprows * 256 < o + 4 * cap then
          .error (cPROT, base + BitVec.ofNat 64 (b.sprows * 256 - o))
        else .ok ⟨d, o, cap, head, tail⟩

def Ring.slot (r : Ring) (m : Word) : Nat := r.slot0 + 4 * (m.toNat % r.cap)

/-- Enabled lanes enter the ring in ascending order. -/
def pushLanes (r : Ring) (v : VWord) (mask : Word) (poison : Bool) : Nat → Nat → Word → Store → Store × Word
  | 0, _, m, p => (p, m)
  | n + 1, i, m, p =>
    if mask.getLsbD i then pushLanes r v mask poison n (i + 1) (m + 1) (p.writeWords (r.slot m) 1 (laneOf v i) poison)
    else pushLanes r v mask poison n (i + 1) m p

/-- VPUSHC (R144); a poisoned mask is reported before a poisoned descriptor scalar (notes/assumptions/61.md). -/
def execVpushc (va : VReg) (kc : KReg) (t : VTy) (sd : SReg) (s : State) : Host.Outcome State Fault Refusal :=
  .next (issueWord (.vpushc va kc t sd) s fun s => s.checkPoison [.k kc, .s sd] fun s =>
    if !s.ag.accs.isEmpty then s.waits
    else match checkRing s.blk (s.sReg sd) with
      | .error (c, x) => s.raise c x
      | .ok r =>
        let c := popCount (s.kReg kc)
        if r.cap - (r.head - r.tail).toNat < c then s.raise cHBOUND (s.sReg sd)
        else if c = 0 then s.issued
        else
          let (pad, head) := pushLanes r (s.vReg va) (s.kReg kc) (s.ag.poisoned (.v va)) 64 0 r.head s.blk.pad
          (s.setBlk { s.blk with pad := pad.writeWords (r.desc + 16) 2 head.toNat false }).issued)

def execVpopc (vd : VReg) (t : VTy) (sd : SReg) (s : State) : Host.Outcome State Fault Refusal :=
  .next (issueWord (.vpopc vd t sd) s fun s => s.checkPoison [.s sd] fun s =>
    if !s.ag.accs.isEmpty then s.waits
    else match checkRing s.blk (s.sReg sd) with
      | .error (c, x) => s.raise c x
      | .ok r =>
        let n := min 64 (r.head - r.tail).toNat
        let at_ (i : Nat) : Nat := r.slot (r.tail + BitVec.ofNat 64 i)
        let v := lanesOf fun i => if i < n then s.blk.pad.readLE (at_ i) 4 else 0xFFFFFFFF
        let p := (List.range n).any fun i => s.blk.pad.granule (at_ i / 4)
        let pad := if n = 0 then s.blk.pad
          else s.blk.pad.writeWords (r.desc + 24) 2 (r.tail + BitVec.ofNat 64 n).toNat false
        (s.setBlk { s.blk with pad := pad }).later (.v vd) v p)

end Sys2Proof.Machine
end

