-- ==== Sys2Proof/Machine/Tile.lean ====
section
/-! DEFINITION. The tile issue move, and the handle and count instructions
(spec/08_core_tile_store_and_counts.md R160 to R170, spec/09_tile_and_matrix_instructions.md R177 to R186). -/

namespace Sys2Proof.Machine

/-! ## Handles (R160, R161, R179) -/

/-- The descriptor word. -/
def Handle.descWord (h : Handle) : Word :=
  BitVec.ofNat 64 (h.cls.toNat + 4 * h.base.toNat + 2 ^ 11 * h.len1.toNat + 2 ^ 17 * h.q.toNat + 2 ^ 21 * h.core.toNat)

/-- The cursor word. -/
def Handle.cursorWord (h : Handle) : Word := BitVec.ofNat 64 (h.e.toNat + 2 ^ 16 * h.s.toNat)

/-- Does HSET refuse these scalars (R161)? -/
def hsetRefused (mp : Bool) (x y : Word) : Bool :=
  let cls := (x.extractLsb' 0 2).toNat
  let base := (x.extractLsb' 2 9).toNat
  let len1 := (x.extractLsb' 11 6).toNat
  let core := (x.extractLsb' 21 10).toNat
  cls == 3 || (cls == 2 && !mp) || (cls != 1 && decide (511 < base + len1)) || (cls == 1 && decide (63 < base + len1)) ||
    (cls != 2 && core != 0) || (cls == 2 && !coreExists core) || x >>> 31 != 0 || y >>> 16 != 0

def Handle.ofScalars (x y : Word) : Handle where
  cls := x.extractLsb' 0 2
  base := x.extractLsb' 2 9
  len1 := x.extractLsb' 11 6
  q := x.extractLsb' 17 4
  core := x.extractLsb' 21 10
  s := 0
  e := y.extractLsb' 0 16 + 1

def Agent.setHandle (a : Agent) (h : HReg) (x : Handle) : Agent := { a with h := a.h.set h x }

def execHset (h : HReg) (a b : SReg) (s : State) : Host.Outcome State Fault Refusal :=
  .next (issueWord (.hset h a b) s fun s => s.checkPoison [.s a, .s b] fun s =>
    if hsetRefused s.isMP (s.sReg a) (s.sReg b) then s.raise cHBOUND (s.sReg a)
    else (s.setAg (s.ag.setHandle h (Handle.ofScalars (s.sReg a) (s.sReg b)))).issued)

def execHget (d : SReg) (h : HReg) (cursor : Bool) (s : State) : Host.Outcome State Fault Refusal :=
  .next (issueWord (.hget d h cursor) s fun s =>
    s.putS d (if cursor then (s.ag.h[h]).cursorWord else (s.ag.h[h]).descWord) [])

def execHadv (h : HReg) (n : BitVec 16) (s : State) : Host.Outcome State Fault Refusal :=
  .next (issueWord (.hadv h n) s fun s =>
    (s.setAg (s.ag.setHandle h ((s.ag.h[h]).advances n.toNat))).issued)

/-! ## Inspections and TREL (R177, R180) -/

/-- The item of a handle instruction: a class-2 handle is refused, an item overwritten is OVRN, one that has not arrived
is waited for. The handle's class is tested whether or not the word is guarded off, since R168 has a guarded-off word read
its item; a guarded-off TGEN reads none (notes/assumptions/64.md). -/
def withItem (h : HReg) (o : Fin 4) (s : State) (f : Opnd → State → State) : State :=
  if (s.ag.h[h]).cls = 2 then s.raiseNat cHBOUND h.val
  else
    let p := s.ag.opnd ⟨h, o, false⟩
    match readState (s.blk.md p.r) p.x with
    | .faults => s.raiseNat cOVRN p.r
    | .waits => s.waits
    | .ready => f p s

def execHwait (h : HReg) (o : Fin 4) (s : State) : Host.Outcome State Fault Refusal :=
  .next (issueTile (.hwait h o) s (withItem h o · fun _ s => s.issued) (withItem h o · fun _ s => s.issued))

/-- SSTAT.VS is set (R73, R166); the MP has none (R205). -/
def State.setVs (s : State) : State := if s.isMP then s else s.setCtl { s.ag.ctl with vs := true }

/-- One read counted, and SSTAT.VS where the item is void and the word is not guarded off. -/
def releaseItem (off : Bool) (p : Opnd) (s : State) : State :=
  let m := s.blk.md p.r
  let s := s.setBlk (s.blk.setMd p.r m.countRead)
  (if m.void && !off then s.setVs else s).issued

def execTrel (h : HReg) (o : Fin 4) (s : State) : Host.Outcome State Fault Refusal :=
  .next (issueTile (.trel h o) s (withItem h o · (releaseItem true)) (withItem h o · (releaseItem false)))

def execTvoid (d : PReg) (h : HReg) (o : Fin 4) (s : State) : Host.Outcome State Fault Refusal :=
  .next (issueTile (.tvoid d h o) s (withItem h o · fun _ s => s.issued) (withItem h o · fun p s =>
    let m := s.blk.md p.r
    (s.setAg (s.ag.result1 (.p d) ((BitVec.ofBool m.void).setWidth 2048) m.poison Flags.none)).issued))

/-- TGEN's value. -/
def genWord (x : BitVec 16) (m : Meta) : Word := BitVec.ofNat 64 (x.toNat * 2 ^ 48 + m.word.toNat % 2 ^ 40)

def execTgen (d : SReg) (h : HReg) (o : Fin 4) (s : State) : Host.Outcome State Fault Refusal :=
  .next (issueWord (.tgen d h o) s fun s =>
    if (s.ag.h[h]).cls = 2 then s.raiseNat cHBOUND h.val
    else
      let p := s.ag.opnd ⟨h, o, false⟩
      s.later (.s d) ((genWord p.x (s.blk.md p.r)).setWidth 2048) false)

/-- The metadata that TSETC may write to a register (R181). -/
def metaRefused (n m : Word) : Bool :=
  let tag := m.extractLsb' 32 8
  n >>> 10 != 0 || (n.getLsbD 9 && decide (63 < n.toNat % 512)) || m &&& 0xFFFF_FF00_FC00_0000#64 != 0 ||
    !(if n.toNat < 512 then tagValid tag.toNat else tag == 0x10 || tag == 0x40)

/-- A register whose data is still being produced no longer waits for it when the count changes (R164); where it does not
change, the V and P of the move are kept beside the new word. -/
def Block.writeMeta (b : Block) (r : Nat) (m : Meta) : Block :=
  let edit (filling : Bool) (old : Meta) (e : Option (Bool × Bool)) : Option (Bool × Bool) :=
    if filling then some (e.getD (old.void, old.poison)) else none
  if r < 512 then
    let t := b.tile r
    let f := t.filling && t.md.wc == m.wc
    b.setTile r { t with md := m, filling := f, edited := edit f t.md t.edited }
  else
    let a := b.acc (r - 512)
    let f := a.filling && a.md.wc == m.wc
    b.setAcc (r - 512) { a with md := m, filling := f, edited := edit f a.md a.edited }

def execTsetc (a b : SReg) (s : State) : Host.Outcome State Fault Refusal :=
  .next (issueWord (.tsetc a b) s fun s => s.checkPoison [.s a, .s b] fun s =>
    let n := s.sReg a
    let m := s.sReg b
    if metaRefused n m then s.raise cHBOUND n
    else (s.setBlk (s.blk.writeMeta n.toNat (Meta.ofWord m))).issued)

/-! ## The operands of a TILE word (R162 to R166) -/

/-- The first of `tileHandles` is a destination. -/
def hasDest : Instr → Bool
  | .ttov .. | .tsts .. | .tsta .. => false
  | _ => true

/-- A destination that is also a source is an in-place update: generation x + 1 (R165). -/
def itemsOf (a : Agent) (i : Instr) : Items :=
  match hasDest i, tileHandles i with
  | true, (d, _) :: r =>
    let src := r.map fun p => a.opnd p.1
    let o := a.opnd d
    ⟨src, some (if src.any fun p => p.r == o.r && p.x == o.x then { o with x := o.x + 1 } else o)⟩
  | _, l => ⟨l.map fun p => a.opnd p.1, none⟩

/-- The items read, each once (R163). -/
def Items.reads (it : Items) : List (Nat × BitVec 16) := (it.src.map fun p => (p.r, p.x)).dedup

/-- The first item in the fault range, in the order A, B, C, D (R164). -/
def Items.fault? (it : Items) (b : Block) : Option (BitVec 8 × Nat) :=
  match it.src.find? fun p => readState (b.md p.r) p.x == .faults with
  | some p => some (cOVRN, p.r)
  | none => match it.dst with
    | none => none
    | some d => if writeState (b.md d.r) d.x = .faults then some (cDWRT, d.r) else none

/-- The reads of a word counted. -/
def Items.counted (it : Items) (b : Block) : Block := it.reads.foldl (fun b p => b.setMd p.1 (b.md p.1).countRead) b

/-- Is the data of a register's generation still being produced (R164, R185)? -/
def Block.filling (b : Block) (r : Nat) : Bool := if r < 512 then (b.tile r).filling else (b.acc (r - 512)).filling

/-- Does an item keep the word waiting: a source that has not arrived, or a destination that, with the word's own reads
counted, may not be written yet? The move does not wait for data (R164). -/
def Items.wait (it : Items) (b : Block) : Bool :=
  (it.src.any fun p => readState (b.md p.r) p.x != .ready) ||
  (match it.dst with
    | none => false
    | some d => writeState ((it.counted b).md d.r) d.x != .ready)

/-- Is an item read void, or poisoned? -/
def Items.void (it : Items) (b : Block) : Bool := it.reads.any fun p => (b.md p.1).void
def Items.poison (it : Items) (b : Block) : Bool := it.reads.any fun p => (b.md p.1).poison

/-! ## Units (R185, R186) -/

def onMatrix : Instr → Bool
  | .mmbi .. | .mmf .. | .mmf32 .. | .mmd .. => true
  | _ => false

def Core.unit (c : Core) (matrix : Bool) : Option Job := if matrix then c.matrix else c.tile
def Core.setUnit (c : Core) (matrix : Bool) (j : Option Job) : Core :=
  if matrix then { c with matrix := j } else { c with tile := j }

/-- Does a stream of the block in focus still stand at the word that waits? -/
def stillWaits (s : State) (x : Waiter) : Bool :=
  let a := s.agent x.agent
  x.block == s.cur.b && a.run == .running && a.pc == x.pc && a.trap.isNone && a.walk.isNone && a.long.isNone

/-- The unit cannot accept the word now: it works, or a word of another stream has waited longer for it. -/
def unitBusy (i : Instr) (s : State) : Bool :=
  let c := s.core s.blk.core
  (c.unit (onMatrix i)).isSome ||
    ((c.waiters.find? fun x => x.matrix == onMatrix i && stillWaits s x).map (·.agent)).any (· != s.cur.w)

/-- The words that wait, without that of the stream in focus. -/
def Core.dropWaiter (c : Core) (b w : Nat) : Core :=
  { c with waiters := c.waiters.filter fun x => !(x.block == b && x.agent == w) }

/-- The word waits for something else than its unit. -/
def leaveUnit (s : State) : State := (s.setCore s.blk.core ((s.core s.blk.core).dropWaiter s.cur.b s.cur.w)).waits

/-- The word waits for its unit, after those that wait already; a sync word, whose streams issue together, takes no place
(notes/assumptions/67.md). -/
def waitUnit (i : Instr) (s : State) : State :=
  let c := s.core s.blk.core
  let me : Waiter := ⟨s.cur.b, s.cur.w, onMatrix i, s.cur.pc⟩
  if c.waiters.contains me then s.waits
  else (s.setCore s.blk.core { c.dropWaiter s.cur.b s.cur.w with
    waiters := (c.waiters.filter fun x => x.block != s.cur.b || (x.agent != s.cur.w && stillWaits s x)) ++ [me] }).waits

/-- The word occupies its unit until TILE_DATA_COMPLETE. -/
def occupy (i : Instr) (j : Job) (s : State) : State :=
  s.setCore s.blk.core (((s.core s.blk.core).dropWaiter s.cur.b s.cur.w).setUnit (onMatrix i) (some j))

/-- The job of the word in focus, with nothing to deliver. -/
def plainJob (it : Items) (s : State) : Job :=
  ⟨s.cur.b, s.cur.w, (it.src ++ it.dst.toList).map (·.r), Flags.none, [], false, none⟩

/-! ## What a word writes -/

/-- The NaN of a result that R186 reports: its place in the result, NIDX.IDX and its cause. -/
structure NanAt where
  row : Nat
  col : Nat
  idx : Nat
  cause : Nat
  deriving DecidableEq, Repr

/-- A computed result: data, side-band and tag where the word changes them, poison besides that of the items, flags, the
first NaN with the tags of A, B and C, whether D is an accumulator pair, and whether the data comes later (R164). -/
structure TileRes where
  data : Option Nat
  side : Option SideBand
  tag : Option (BitVec 8)
  poison : Bool
  flags : Flags
  nan : Option NanAt
  tags : BitVec 8 × BitVec 8 × BitVec 8
  pair : Bool
  late : Bool := false
  deriving DecidableEq, Repr

def TileRes.plain : TileRes := ⟨none, none, none, false, Flags.none, none, (0, 0, 0), false, false⟩

/-- A data result with its tag and a side-band of zeros. -/
def TileRes.tile (data : Nat) (tag : BitVec 8) : TileRes := { TileRes.plain with data := some data, side := some 0, tag := some tag }

/-- Write one register: metadata, then data unless the write is void or the data comes later (R163, R166). -/
def Block.writeItem (b : Block) (d : Opnd) (void poison : Bool) (r : TileRes) : Block :=
  let m := b.md d.r
  let m' := m.written d.x d.q void poison (r.tag.getD m.tag)
  if d.r < 512 then
    let t := b.tile d.r
    if void || r.late then b.setTile d.r { t with md := m', filling := r.late, edited := none }
    else b.setTile d.r ⟨m', (r.data.map (BitVec.ofNat 16384)).getD t.data, r.side.getD t.side, false, none⟩
  else
    let a := b.acc (d.r - 512)
    let b1 := b.setAcc (d.r - 512)
      ⟨m', if void || r.late then a.data else (r.data.map (BitVec.ofNat 32768)).getD a.data, r.late, none⟩
    if r.pair then
      let k := d.r - 512 + 1
      let a2 := b1.acc k
      b1.setAcc k
        ⟨m', if void || r.late then a2.data else (r.data.map fun v => BitVec.ofNat 32768 (v / 2 ^ 32768)).getD a2.data, r.late, none⟩
    else b1

/-- The report of a NaN (R186). -/
def nanReport (r : TileRes) (n : NanAt) (dst : Nat) (next : Word) : NanReport where
  coord := BitVec.ofNat 64 (256 * n.col + n.row)
  idx := BitVec.ofNat 64 (n.idx % 65536)
  fmt := BitVec.ofNat 64 (2 ^ 31 + 2 ^ 24 * (n.cause % 8) + 2 ^ 16 * r.tags.2.2.toNat + 2 ^ 8 * r.tags.2.1.toNat + r.tags.1.toNat)
  tval := BitVec.ofNat 64 dst
  epc := next

/-- Post-advances of a word (R169). -/
def advancesOf (i : Instr) : List HReg := advanceSet ((tileHandles i).map (·.1))

/-- The tile issue move's counts and writes (R164, R166), with the post-advances it applies. -/
def commitItems (it : Items) (off void poison : Bool) (r : TileRes) (adv : List HReg) (s : State) : State :=
  let b := it.counted s.blk
  let b := match it.dst with
    | none => b
    | some d => b.writeItem d void poison r
  let s := (s.setBlk b).setAg (s.ag.advance adv)
  if void && !off then s.setVs else s

/-- TCVT with merge or page-append reads the previous generation of D's register, without a count (R201, R202). -/
def readsPrev : Instr → Bool
  | .tcvt _ _ _ _ merge _ _ => merge
  | .tcvtPageAppend .. => true
  | _ => false

/-- A guarded-off TILE word (R168); `pair` tells that D is an accumulator pair. -/
def tileOff (i : Instr) (pair : Block → Items → Bool) (s : State) : State :=
  let it := itemsOf s.ag i
  match it.fault? s.blk with
  | some (c, n) => s.raiseNat c n
  | none =>
    if it.wait s.blk then leaveUnit s
    else if unitBusy i s then waitUnit i s
    else
      let r := { TileRes.plain with pair := pair s.blk it }
      let old := readsPrev i && (match it.dst with | some d => (s.blk.md d.r).poison | none => false)
      (occupy i (plainJob it s) (commitItems it true true (it.poison s.blk || old) r (advancesOf i) s)).issued

/-- What the computation of a TILE word answers. -/
inductive TileOut where
  | trap (code : BitVec 8) (tval : Word)
  /-- A source's tag makes the word masked, or absent from the die class (check 8). -/
  | masked
  | absent
  /-- The result; `void` where an item read besides A, B and C is void. -/
  | res (r : TileRes) (void : Bool)
  deriving DecidableEq, Repr

/-- Does R167 check the word's sources? -/
def isCheckOp : Instr → Bool
  | .ttov .. | .tsts .. | .tsta .. => true
  | _ => false

/-- A TGATH needs its index tile's data before its move: R175 has the check of its first unit, whose address the tile gives,
come before (notes/assumptions/18.md). -/
def needsData (i : Instr) : Bool := match i with | .tgath .. => true | _ => false

/-- The count faults, the waits and the check of R167 come before the computation (R68, R164, R167). A source that is both
poisoned and of a tag not accepted is reported for its poison (notes/assumptions/64.md). -/
def withMove (i : Instr) (s : State) (f : Items → State → State) : State :=
  let it := itemsOf s.ag i
  match it.fault? s.blk with
  | some (c, n) => s.raiseNat c n
  | none =>
    if it.wait s.blk || (needsData i && it.src.any fun p => s.blk.filling p.r) then leaveUnit s
    else if unitBusy i s then waitUnit i s
    else match if isCheckOp i then it.src.find? (fun p => (s.blk.md p.r).poison) else none with
      | some p => s.raiseNat cPOISON p.r
      | none => f it s

/-- A source's tag is not accepted: ILLEGAL, with the register and the tag in TVAL (R43). -/
def badTag (b : Block) (p : Opnd) : TileOut :=
  .trap cILLEGAL (BitVec.ofNat 64 (p.r % 1024 + 2 ^ 16 * (b.md p.r).tag.toNat))

/-- The content a register holds. -/
def Block.content (b : Block) (r : Nat) : Content :=
  if r < 512 then .tile (b.tile r) else .acc (b.acc (r - 512)) (b.acc (r - 512 + 1))

/-- An item read, as far as its data is produced (R164). -/
def Block.source (b : Block) (r : Nat) (x : BitVec 16) : Source := ⟨r, x, b.filling r, b.content r⟩

/-- The data of an item the word reads is still being produced. -/
def Items.late (it : Items) (i : Instr) (b : Block) : Bool :=
  (it.src.any fun p => b.filling p.r) || (readsPrev i && it.dst.toList.any fun d => b.filling d.r)

/-- The word as it waits for the data of an item. -/
def pendingWork (i : Instr) (nt : Bool) (mask : Word) (void : Bool) (it : Items) (s : State) : Work where
  agent := s.cur.w
  i := i
  mask := mask
  items := it
  ctl := s.ag.ctl
  srcs := it.src.map fun p => s.blk.source p.r p.x
  prev := let r := (it.dst.map (·.r)).getD 0; s.blk.source r (s.blk.md r).wc
  hold := nt
  void := void
  epc := s.ag.after s.cur.next
  long := none

/-- A check operation takes its move before its item's data is produced: its read counts, it occupies its unit, and the data
moves once it has come (R164, R185). -/
def awaitData (i : Instr) (l : Option Long) (adv : List HReg) (it : Items) (s : State) : State :=
  let w := { pendingWork i l.isSome 0 false it s with long := l }
  let t := commitItems it false false false TileRes.plain adv s
  occupy i (plainJob it s) (t.setBlk { t.blk with works := t.blk.works ++ [w] })

/-- A TILE word that is not long, not guarded off and past its operand checks: `comp` computes its result from the block
and its items, of which one may be void. Where the data of an item is still being produced, the word takes its move, and
its result comes later (R164). -/
def tileGo (i : Instr) (nt : Bool) (mask : Word) (comp : Items → State → TileOut) (s : State) : State :=
  withMove i s fun it s =>
    match comp it s with
    | .trap c v => s.raise c v
    | .masked => s.raise cMASKED s.cur.raw
    | .absent => settleVerdict (absentVerdict s) s
    | .res r v =>
      let void := v || it.void s.blk
      let poison := it.poison s.blk || r.poison
      if it.late i s.blk then
        let w := pendingWork i (nt && !void) mask void it s
        let t := commitItems it false void poison { r with late := true } (advancesOf i) s
        (occupy i (plainJob it s) (t.setBlk { t.blk with works := t.blk.works ++ [w] })).issued
      else
        let dst := (it.dst.map (·.r)).getD 0
        let report := if nt && !void then r.nan.map fun n => nanReport r n dst (s.ag.after s.cur.next) else none
        let job : Job := { plainJob it s with flags := if void then Flags.none else r.flags, hold := nt && !void, report := report }
        (occupy i job (commitItems it false void poison r (advancesOf i) s)).issued

/-! ## The mask scalar (R184) -/

/-- A mask scalar's counts. -/
structure MaskCounts where
  raw : Word
  rows : Nat
  cols : Nat
  depth : Nat
  deriving DecidableEq, Repr

def maskCounts (x : Word) : MaskCounts :=
  ⟨x, (x.extractLsb' 0 8).toNat, (x.extractLsb' 8 8).toNat, (x.extractLsb' 16 8).toNat⟩

/-- A count that is 0 activates the full extent. -/
def fullCount (n ext : Nat) : Nat := if n = 0 then ext else n

/-- The elements in a row of source A, where its generation is present and not void (R42, R153). -/
def rowOfA (i : Instr) (s : State) : Option Nat :=
  match (itemsOf s.ag i).src.head? with
  | none => none
  | some p =>
    let m := s.blk.md p.r
    if readState m p.x == .ready && !m.void && tagValid m.tag.toNat && m.tag != 0 then some (if p.r < 512 then tagRow m.tag else 32) else none

/-- Does a count that extends over A's elements in a row pass them? The depth count of a product does, the column count of
any other word; the word that waits for A is checked once A is present (notes/assumptions/50.md). -/
def pastRowOfA (i : Instr) (m : MaskCounts) (s : State) : Bool :=
  match i with
  | .tsta .. | .tgath .. => false
  | _ => match rowOfA i s with
    | some k => decide (k < if onMatrix i then m.depth else m.cols)
    | none => false

/-- The checks of a mask scalar (R184): `allowed` are the bits the word uses, columns are at most 32 but for TCVT. -/
def withMask (i : Instr) (mask : SReg) (allowed : Word) (wide : Bool) (s : State) (f : MaskCounts → State → State) : State :=
  s.checkPoison [.s mask] fun s =>
    let x := s.sReg mask
    let m := maskCounts x
    if x &&& ~~~allowed != 0 ∨ 32 < m.rows ∨ (wide = false ∧ 32 < m.cols) ∨ pastRowOfA i m s then s.raise cHBOUND x else f m s

def maskRC : Word := 0xFFFF
def maskRCD : Word := 0xFFFFFF

end Sys2Proof.Machine
end

