-- ==== Sys2Proof/Machine/TileMove.lean ====
section
/-! DEFINITION. The TILE words that move data, up to their move (spec/09_tile_and_matrix_instructions.md R187 to R191,
spec/08 R167, R175, spec/12 R228). -/

namespace Sys2Proof.Machine

/-! ## TZERO, TMOV, TFROMV, TTOV (R187, R188) -/

/-- A word that is never a pair. -/
def notPair : Block → Items → Bool := fun _ _ => false

/-- A TILE word without operand checks. -/
def tileWord (i : Instr) (comp : Items → State → TileOut) (s : State) : State :=
  issueTile i s (tileOff i notPair) (tileGo i false 0 comp)

/-- The first source. -/
def Items.a (it : Items) : Opnd := it.src.headD ⟨0, 0, 0⟩
def Items.b (it : Items) : Opnd := (it.src.drop 1).headD ⟨0, 0, 0⟩
def Items.d (it : Items) : Opnd := it.dst.getD ⟨0, 0, 0⟩

def zeroComp (it : Items) (_ : State) : TileOut :=
  .res { TileRes.plain with data := some 0, side := some 0, tag := if it.d.r < 512 then none else some 0x10 } false

def execTzero (d : TileOp) (s : State) : Host.Outcome State Fault Refusal :=
  .next (tileWord (.tzero d) zeroComp s)

/-- A's data, side-band and tag. The side-band comes over as it stands, whatever the tag makes of it
(notes/assumptions/51.md). -/
def moveTile (it : Items) (s : State) : TileOut :=
  let m := s.blk.md it.a.r
  if it.a.r < 512 then
    if !m.void && !tagValid m.tag.toNat then badTag s.blk it.a
    else
      let t := s.blk.tile it.a.r
      .res { TileRes.plain with data := some t.data.toNat, side := some t.side, tag := some m.tag } false
  else if !m.void && m.tag != 0x10 then badTag s.blk it.a
  else .res { TileRes.plain with data := some (s.blk.acc (it.a.r - 512)).data.toNat, tag := some 0x10 } false

def execTmov (d a : TileOp) (s : State) : Host.Outcome State Fault Refusal :=
  .next (tileWord (.tmov d a) moveTile s)

/-- The vector registers v(8Z) to v(8Z + 7). -/
def eightVectors (z : Bool) : List VReg := (List.range 8).map fun j => Fin.ofNat 16 (8 * z.toNat + j)

def execTfromv (d : TileOp) (z : Bool) (s : State) : Host.Outcome State Fault Refusal :=
  .next (tileWord (.tfromv d z) (fun _ s =>
    .res { TileRes.plain with
      data := some (packElems 2048 ((eightVectors z).map fun v => (s.vReg v).toNat))
      poison := s.ag.anyPoisoned ((eightVectors z).map .v) } false) s)

/-- The vector results of TTOV. -/
def tileRows (data : TileData) (z : Bool) : List Result :=
  (eightVectors z).zipIdx.map fun p => ⟨.v p.1, data.extractLsb' (2048 * p.2) 2048, BitVec.allOnes 64, false⟩

/-- TTOV's marks stand until the data is complete (R188); a void A leaves none. -/
def ttovGo (i : Instr) (z : Bool) (s : State) : State :=
  withMove i s fun it s =>
    let m := s.blk.md it.a.r
    if !m.void && !tagValid m.tag.toNat then s.raise cILLEGAL (BitVec.ofNat 64 (it.a.r + 2 ^ 16 * m.tag.toNat))
    else
      let rs := if m.void then [] else tileRows (s.blk.tile it.a.r).data z
      let late := !m.void && s.blk.filling it.a.r
      let s := if late then awaitData i none (advancesOf i) it s else occupy i { plainJob it s with results := rs } (commitItems it false m.void false TileRes.plain (advancesOf i) s)
      (s.setAg (rs.foldl (fun a r => a.mark (some r.reg)) s.ag)).issued

def execTtov (a : TileOp) (z : Bool) (s : State) : Host.Outcome State Fault Refusal :=
  .next (issueTile (.ttov a z) s (tileOff (.ttov a z) notPair) (ttovGo (.ttov a z) z))

/-! ## TSTS (R189) -/

/-- The window address of an offset in the block's scratchpad (R150). -/
def padVa (b : Block) (off : Nat) : Word := BitVec.ofNat 64 (15 * 2 ^ 48 + b.core * 2 ^ 24 + 0x200000 + off)

/-- The image of a tile: data, side-band, tag, zeros. -/
def tileImage (t : Tile) : BitVec 18432 :=
  BitVec.ofNat 18432 (t.data.toNat + 2 ^ 16384 * t.side.toNat + 2 ^ 17408 * t.md.tag.toNat)

/-- The row range of TLDS and TSTS. -/
def withImageRow (c : SReg) (s : State) (f : Nat → State → State) : State :=
  s.checkPoison [.s c] fun s => if 8183 < (s.sReg c).toNat then s.raise cHBOUND (s.sReg c) else f (s.sReg c).toNat s

/-- The row range comes first, the rows beyond the block's only after the waits and the tag, and for an item that is not void:
R68 gives R174's PROT no place (notes/assumptions/64.md). -/
def tstsGo (i : Instr) (c : SReg) (s : State) : State :=
  withImageRow c s fun r s => withMove i s fun it s =>
    let t := s.blk.tile it.a.r
    if !t.md.void && !tagValid t.md.tag.toNat then s.raise cILLEGAL (BitVec.ofNat 64 (it.a.r + 2 ^ 16 * t.md.tag.toNat))
    else if !t.md.void && decide (s.blk.sprows < r + 9) then s.raise cPROT (padVa s.blk (256 * max r s.blk.sprows))
    else
      let late := !t.md.void && t.filling
      let s := if late then awaitData i none (advancesOf i) it s else
        occupy i (plainJob it s) (commitItems it false t.md.void false TileRes.plain (advancesOf i) s)
      if t.md.void then s.issued
      else if late then (s.setAg { s.ag with accs := s.ag.accs ++ [⟨.rowsLate it.a.r it.a.x, .pad (256 * r)⟩] }).issued
      else (s.setAg { s.ag with accs := s.ag.accs ++ [⟨.rows (tileImage t), .pad (256 * r)⟩] }).issued

def execTsts (a : TileOp) (c : SReg) (s : State) : Host.Outcome State Fault Refusal :=
  .next (issueTile (.tsts a c) s (tileOff (.tsts a c) notPair) (tstsGo (.tsts a c) c))

/-! ## Long tile words (R175) -/

/-- The long word has taken its move, or resumes: it holds the stream until its last unit completes or it stops. -/
def State.holdLong (s : State) (l : Long) : State :=
  (s.setAg { (s.ag.setRecord none) with long := some l }).setDisp .walking

/-- The record that the word in focus resumes (R175). -/
def recordOf (i : Instr) (s : State) : Option Long := s.ag.record.filter fun k => k.pc == s.cur.pc && k.i == i

/-- The word resumes a stopped instruction, or one whose record is gone, at unit PROG, once its unit accepts it (R175, R185). -/
def resumeLong (l : Long) (s : State) : State :=
  if unitBusy l.i s then waitUnit l.i s
  else
  let s := occupy l.i (plainJob (itemsOf s.ag l.i) s) s
  let k := match recordOf l.i s with
    | some k => { l with reg := k.reg, gen := k.gen, idx := k.idx, data := k.data, tag := k.tag, poison := k.poison,
                         advance := k.advance, tile := k.tile }
    | none => { l with tile := s.blk.tile l.reg }
  s.holdLong { k with unit := s.ag.ctl.prog.toNat, begun := true }

/-- Tile data with one row of 64 bytes, or a part of `n` bits from bit `at`, replaced. -/
def putBits {w : Nat} (x : BitVec w) (lo n v : Nat) : BitVec w :=
  (x &&& ~~~(BitVec.ofNat w (2 ^ n - 1) <<< lo)) ||| (BitVec.ofNat w (v % 2 ^ n) <<< lo)

/-- The places of the first and the last byte of an access that may cross a page. -/
inductive Span where
  | ok (a b : Loc)
  | miss (va : Word)
  | fault (code : BitVec 8) (va : Word)
  deriving DecidableEq, Repr

/-- Every byte is translated; the first that has no place decides (notes/assumptions/17.md). -/
def spanOf (s : State) (va : Word) (n : Nat) (use : Use) : Span :=
  let tr (k : Nat) : Tr := translate s s.blk (va + BitVec.ofNat 64 k) use
  let isOk : Tr → Bool := fun x => match x with | .ok _ => true | _ => false
  match (List.range n).find? fun k => !isOk (tr k) with
  | some k => match tr k with
    | .fault c => .fault c (va + BitVec.ofNat 64 k)
    | _ => .miss (va + BitVec.ofNat 64 k)
  | none => match tr 0, tr (n - 1) with
    | .ok a, .ok b => .ok a b
    | _, _ => .miss va

/-- The checks of the first unit, before the move (R175). -/
def withFirst (va : Word) (n : Nat) (use : Use) (s : State) (f : Loc → Loc → State → State) : State :=
  match spanOf s va n use with
  | .miss va => (startWalk s va use none none false).waits
  | .fault c va => s.raise c va
  | .ok a b => f a b s

/-- The tile that a long word fills, as its move leaves it. -/
def keepTile (s : State) (l : Long) : Long := { l with tile := s.blk.tile l.reg }

/-! ### TLDS (R189) -/

/-- The check of the first unit comes before the count faults; where row r + 8, whose tag is read at issue, lies above the
block's rows, PROT with its address comes after the waits and before check 8 (notes/assumptions/64.md). -/
def tldsGo (i : Instr) (c : SReg) (s : State) : State :=
  withImageRow c s fun r s =>
    let l := { longBase s i with last := 8, base := BitVec.ofNat 64 r, advance := advancesOf i }
    let keep (it : Items) : Long := { l with reg := it.d.r, gen := it.d.x }
    if s.ag.ctl.prog ≠ 0 then resumeLong (keep (itemsOf s.ag i)) s
    else if s.blk.sprows ≤ r then s.raise cPROT (padVa s.blk (256 * r))
    else withMove i s fun it s =>
      let tag := s.blk.pad.byte (256 * (r + 8) + 128)
      if s.blk.sprows ≤ r + 8 then s.raise cPROT (padVa s.blk (256 * (r + 8)))
      else if !tagValid tag.toNat then s.raise cILLEGAL (BitVec.ofNat 64 (it.d.r + 2 ^ 16 * tag.toNat))
      else
        let s := occupy i (plainJob it s)
          (commitItems it false false false { TileRes.plain with tag := some tag, late := true } [] s)
        s.holdLong (keepTile s (keep it))

def execTlds (d : TileOp) (c : SReg) (s : State) : Host.Outcome State Fault Refusal :=
  .next (issueTile (.tlds d c) s (tileOff (.tlds d c) notPair) (tldsGo (.tlds d c) c))

/-! ### TSTA (R190, R228) -/

/-- The mask bits that TSTA uses. -/
def maskTsta : Word := 0x00FF_FFFF_FF00_FFFF

/-- The element size of an accumulator's tag. -/
def accSize (tag : BitVec 8) : Nat := if tag = 0x40 then 8 else 4

/-- An accumulator's data, with that of the other member for a pair. -/
def accNat (b : Block) (r : Nat) (pair : Bool) : Nat :=
  (b.acc (r - 512)).data.toNat + (if pair then 2 ^ 32768 * (b.acc (r - 512 + 1)).data.toNat else 0)

/-- The long word of a TSTA from its scalars and its accumulator, whose tag gives the default stride and enables. -/
def tstaLong (i : Instr) (m : MaskCounts) (va : Word) (p : Opnd) (tag : BitVec 8) (s : State) : Long :=
  let e := accSize tag
  let st := (m.raw.extractLsb' 32 24).toNat
  let en := (m.raw.extractLsb' 24 8).toNat
  { longBase s i with
    last := fullCount m.rows 32 - 1, base := va, stride := if st = 0 then 32 * e else st,
    enables := if en = 0 then 2 ^ e - 1 else en, cols := fullCount m.cols 32, reg := p.r, gen := p.x,
    data := BitVec.ofNat 65536 (accNat s.blk p.r (tag == 0x40)), tag := tag, advance := advancesOf i }

/-- The tag that a TSTA goes by before its move: that of the instruction it resumes, or A's where A is present; none where
the checks that need it wait for A (notes/assumptions/50.md). -/
def tstaTag (i : Instr) (s : State) : Option (BitVec 8) :=
  match if s.ag.ctl.prog ≠ 0 then recordOf i s else none with
  | some k => some k.tag
  | none =>
    let p := (itemsOf s.ag i).a
    let md := s.blk.md p.r
    if readState md p.x == .ready && !md.void && (md.tag == 0x10 || md.tag == 0x40) then some md.tag else none

def tstaGo (i : Instr) (c mask : SReg) (s : State) : State :=
  s.checkPoison [.s mask, .s c] fun s => withMask i mask maskTsta false s fun m s =>
    let va := s.sReg c
    let known := tstaTag i s
    let e := accSize (known.getD 0x10)
    let l := tstaLong i m va (itemsOf s.ag i).a (known.getD 0x10) s
    if known = some 0x10 ∧ 16 ≤ (m.raw.extractLsb' 24 8).toNat then s.raise cHBOUND m.raw
    else if va.toNat % e ≠ 0 ∨ l.stride % e ≠ 0 then s.raise cHBOUND va
    else if s.ag.ctl.prog ≠ 0 then resumeLong l s
    else withFirst va (l.cols * e) .store s fun a b s => withMove i s fun it s =>
      let md := s.blk.md it.a.r
      if !md.void && md.tag != 0x10 && md.tag != 0x40 then s.raise cILLEGAL (BitVec.ofNat 64 (it.a.r % 1024 + 2 ^ 16 * md.tag.toNat))
      else if !md.void && e == 8 && it.a.r % 2 == 1 then s.raiseNat cHBOUND it.a.r
      else if md.void then
        (occupy i (plainJob it s) (commitItems it false true false TileRes.plain (advancesOf i) s)).issued
      else if s.blk.filling it.a.r then (awaitData i (some { l with first := some (a, b) }) [] it s).setDisp .walking
      else
        (occupy i (plainJob it s) (commitItems it false false false TileRes.plain [] s)).holdLong { l with first := some (a, b) }

def execTsta (a : TileOp) (c mask : SReg) (s : State) : Host.Outcome State Fault Refusal :=
  .next (issueTile (.tsta a c mask) s (tileOff (.tsta a c mask) notPair) (tstaGo (.tsta a c mask) c mask))

/-! ### TGATH (R191) -/

/-- The mask bits that TGATH uses. -/
def maskTgath : Word := 0x0000_00FF_0000_00FF

/-- The address of a row of a gather. -/
def Long.rowVa (l : Long) (row : Nat) : Word := l.base + 64 * (l.idx.extractLsb' (32 * row) 32).signExtend 64

def tgathLong (i : Instr) (m : MaskCounts) (va : Word) (it : Items) (s : State) : Long :=
  { longBase s i with
    last := fullCount m.rows 32 - 1, base := va, reg := it.d.r, gen := it.d.x, idx := (s.blk.tile it.a.r).data,
    advance := advancesOf i }

/-- The check of the first unit, where the index tile is at hand; a word that waits for the tile makes it later
(notes/assumptions/50.md). -/
def withIndexRow (l : Long) (it : Items) (s : State) (f : Option (Loc × Loc) → State → State) : State :=
  let md := s.blk.md it.a.r
  if readState md it.a.x == .ready && !md.void && md.tag == 0xC0 && !s.blk.filling it.a.r then
    withFirst (l.rowVa 0) 64 .load s fun a b s => f (some (a, b)) s
  else f none s

/-- A result tag refused is reported before a base that is not aligned (notes/assumptions/64.md). -/
def tgathGo (i : Instr) (c mask : SReg) (s : State) : State :=
  s.checkPoison [.s mask, .s c] fun s => withMask i mask maskTgath false s fun m s =>
    let va := s.sReg c
    let tag := m.raw.extractLsb' 32 8
    if !tagValid tag.toNat || tagScaled tag then s.raise cHBOUND m.raw
    else if va.toNat % 64 ≠ 0 then s.raise cHBOUND va
    else
      let l := tgathLong i m va (itemsOf s.ag i) s
      if s.ag.ctl.prog ≠ 0 then resumeLong l s
      else withIndexRow l (itemsOf s.ag i) s fun first s => withMove i s fun it s =>
        let md := s.blk.md it.a.r
        if !md.void && md.tag != 0xC0 then s.raise cILLEGAL (BitVec.ofNat 64 (it.a.r + 2 ^ 16 * md.tag.toNat))
        else if md.void then
          (occupy i (plainJob it s) (commitItems it false true md.poison TileRes.plain (advancesOf i) s)).issued
        else
          let s := occupy i (plainJob it s) (commitItems it false false md.poison { TileRes.tile 0 tag with late := true } [] s)
          s.holdLong { l with first := first, tile := ⟨s.blk.md l.reg, 0, 0, true, none⟩ }

def execTgath (d a : TileOp) (c mask : SReg) (s : State) : Host.Outcome State Fault Refusal :=
  .next (issueTile (.tgath d a c mask) s (tileOff (.tgath d a c mask) notPair) (tgathGo (.tgath d a c mask) c mask))

end Sys2Proof.Machine
end

