-- ==== Sys2Proof/Machine/TileOps.lean ====
section
/-! DEFINITION. The elementwise and row operations on tiles and accumulators
(spec/09_tile_and_matrix_instructions.md R192 to R195). -/

namespace Sys2Proof.Machine

/-- One element of a result: its bits, its flags, and whether it is active. -/
structure Elem where
  bits : Nat
  flags : Flags
  active : Bool
  deriving DecidableEq, Repr

def Elem.idle (bits : Nat) : Elem := ⟨bits, Flags.none, false⟩
def Elem.of (x : Nat × Flags) : Elem := ⟨x.1, x.2, true⟩

def isNanBits (f : Fmt) (x : Nat) : Bool := (decodeFp f false x).isNan

/-- The first active NaN of a result in row-major order, K elements in a row (R186). -/
def firstNanAt (f : Fmt) (k : Nat) (l : List Elem) : Option NanAt :=
  (l.zipIdx.find? fun p => p.1.active && isNanBits f p.1.bits).map fun p =>
    ⟨p.2 / k, p.2 % k, p.2, nanCause f (p.1.bits % 2 ^ f.fbits)⟩

/-- A result from its elements. -/
def elemsResult (cont k : Nat) (f : Fmt) (l : List Elem) (side : Option SideBand) (tag : BitVec 8)
    (tags : BitVec 8 × BitVec 8 × BitVec 8) (pair : Bool) : TileRes where
  data := some (packElems cont (l.map (·.bits)))
  side := side
  tag := some tag
  poison := false
  flags := orFlags (l.map (·.flags))
  nan := firstNanAt f k l
  tags := tags
  pair := pair

/-- The floating-point format of an unscaled tag. -/
def tagFmt (t : BitVec 8) : Fmt :=
  match tagNum t with
  | .float f => f
  | _ => fp32

/-- An operation on sources A and B of two formats, rounded to A's (R28). -/
def elem2 (fa fb : Fmt) (md : RMode) (fo : Bool) (a b : Fp) (v : Val) : Nat × Flags :=
  if a.isNan || !b.isNan then roundElem fa md fo (elementwise fa [a] v)
  else convertFp fb fa md fo false b

/-- The tags of TADD, TMUL, TMAX, TSCAL and TRED. -/
def arithTag (t : BitVec 8) : Bool := t == 0x10 || t == 0x20 || t == 0x30 || t == 0x40

/-- The result of an elementwise word (R192). -/
def elemTile (m : MaskCounts) (tm : TMode) (scal : Bool) (op : FOp) (it : Items) (s : State) : TileRes :=
  let ta := s.blk.tile it.a.r
  let tb := s.blk.tile it.b.r
  let fa := tagFmt ta.md.tag
  let fb := tagFmt tb.md.tag
  let k := tagRow ta.md.tag
  let rows := fullCount m.rows 32
  let cols := fullCount m.cols k
  let r := rounder s.ag.ctl tm.fm.rm
  let a := ta.data.toNat
  let b := tb.data.toNat
  let l := (List.range (32 * k)).map fun n =>
    let x := rawElem a fa.width n
    if n / k < rows ∧ n % k < cols then
      let va := decodeFp fa tm.fm.fi x
      let vb := decodeFp fb tm.fm.fi (rawElem b fb.width (if scal then n / k else n))
      Elem.of (elem2 fa fb (r.at n) tm.fm.fo va vb (op r.isRdn va vb va))
    else Elem.idle x
  elemsResult fa.width k fa l (some 0) ta.md.tag (ta.md.tag, tb.md.tag, (s.blk.md it.d.r).tag) false

/-- The tag checks of an elementwise word, and its result (R183, R192). -/
def elemComp (tm : TMode) (scal : Bool) (op : FOp) (m : MaskCounts) (it : Items) (s : State) : TileOut :=
  let ma := s.blk.md it.a.r
  let mb := s.blk.md it.b.r
  let okB : Bool :=
    if scal then (if ma.void then mb.tag == 0x10 || mb.tag == 0x40 else mb.tag == (if ma.tag = 0x40 then 0x40 else 0x10))
    else if ma.void then arithTag mb.tag else mb.tag == ma.tag
  if !ma.void && !arithTag ma.tag then badTag s.blk it.a
  else if !mb.void && !okB then badTag s.blk it.b
  else if ma.void || mb.void then .res TileRes.plain false
  else .res (elemTile m tm scal op it s) false

/-- The operations of TADD, TMUL and TMAX on the values of A and B. -/
def addOp : FOp := fun z x y _ => sumVal z x y
def mulOp : FOp := fun _ x y _ => mulVal x y
def maxOp : FOp := fun _ x y _ => maxVal x y

/-- A word with a mask scalar of rows and columns. -/
def maskedWord (i : Instr) (tm : TMode) (allowed : Word) (pair : Block → Items → Bool)
    (comp : MaskCounts → Items → State → TileOut) (s : State) : State :=
  issueTile i s (tileOff i pair) fun s => withMask i tm.mask allowed false s fun m s => tileGo i tm.nt m.raw (comp m) s

def execTadd (d a b : TileOp) (m : TMode) (s : State) : Host.Outcome State Fault Refusal :=
  .next (maskedWord (.tadd d a b m) m maskRC notPair (elemComp m false addOp) s)

def execTmul (d a b : TileOp) (m : TMode) (s : State) : Host.Outcome State Fault Refusal :=
  .next (maskedWord (.tmul d a b m) m maskRC notPair (elemComp m false mulOp) s)

def execTmax (d a b : TileOp) (m : TMode) (s : State) : Host.Outcome State Fault Refusal :=
  .next (maskedWord (.tmax d a b m) m maskRC notPair (elemComp m false maxOp) s)

def execTscal (d a b : TileOp) (m : TMode) (s : State) : Host.Outcome State Fault Refusal :=
  .next (maskedWord (.tscal d a b m) m maskRC notPair (elemComp m true mulOp) s)

/-! ## TTRN (R193) -/

def transposed (data : Nat) : Nat := packElems 16 ((List.range 1024).map fun n => rawElem data 16 (n % 32 * 32 + n / 32))

def trnComp (it : Items) (s : State) : TileOut :=
  let m := s.blk.md it.a.r
  if !m.void && m.tag != 0x20 && m.tag != 0x30 then badTag s.blk it.a
  else .res (TileRes.tile (transposed (s.blk.tile it.a.r).data.toNat) m.tag) false

def execTtrn (d a : TileOp) (s : State) : Host.Outcome State Fault Refusal :=
  .next (tileWord (.ttrn d a) trnComp s)

/-! ## TRED (R29, R194) -/

/-- The running sum of a row: each addition is rounded, an invalid one leaves the marked NaN. -/
def sumRow (f : Fmt) (r : Rounder) (fo : Bool) (idx : Nat) : Nat → Fp → Flags → List Fp → Fp × Flags
  | _, run, fl, [] => (run, fl)
  | n, run, fl, x :: l =>
    if run.isNan then (run, fl) else
    match sumVal r.isRdn run x with
    | .gen _ => (badFp, fl)
    | v =>
      let y := putVal f (r.at (roundIdx idx n)) fo false v
      sumRow f r fo idx (n + 1) (decodeFp f false y.1) (fl.or y.2) l

/-- One row's sum (R29, R194). -/
def redRow (f : Fmt) (r : Rounder) (fo : Bool) (idx : Nat) (xs : List Fp) : Nat × Flags :=
  if xs.any Fp.isNan then (genNan f 1, Flags.invalid)
  else
    let p := sumRow f r fo idx 0 (xs.headD (.fin Dy.zero)) Flags.none xs.tail
    if p.1.isNan then (genNan f 3, Flags.invalid) else ((putVal f .rne false false p.1.toVal).1, p.2)

def redTile (m : MaskCounts) (tm : TMode) (it : Items) (s : State) : TileRes :=
  let ma := s.blk.md it.a.r
  let acc := 512 ≤ it.a.r
  let fa := tagFmt ma.tag
  let k := if acc then 32 else tagRow ma.tag
  let data := if acc then (s.blk.acc (it.a.r - 512)).data.toNat else (s.blk.tile it.a.r).data.toNat
  let f := if ma.tag = 0x40 then fp64 else fp32
  let r := rounder s.ag.ctl tm.fm.rm
  let rows := fullCount m.rows 32
  let cols := fullCount m.cols k
  let l := (List.range (16384 / f.width)).map fun n =>
    if n < rows then
      Elem.of (redRow f r tm.fm.fo n ((List.range cols).map fun c => decodeFp fa tm.fm.fi (rawElem data fa.width (n * k + c))))
    else Elem.idle 0
  let tag := if ma.tag = 0x40 then 0x40 else 0x10
  elemsResult f.width (512 / f.width) f l (some 0) tag (ma.tag, 0, (s.blk.md it.d.r).tag) false

def redComp (tm : TMode) (m : MaskCounts) (it : Items) (s : State) : TileOut :=
  let ma := s.blk.md it.a.r
  let acc := 512 ≤ it.a.r
  if !ma.void && !(if acc then ma.tag == 0x10 else arithTag ma.tag) then badTag s.blk it.a
  else if ma.void then .res TileRes.plain false
  else .res (redTile m tm it s) false

def execTred (d a : TileOp) (m : TMode) (s : State) : Host.Outcome State Fault Refusal :=
  .next (maskedWord (.tred d a m) m maskRC notPair (redComp m) s)

/-! ## TACC (R153, R195) -/

/-- The prior value of an accumulating word: C, or none with Z = 1. -/
def Items.c? (it : Items) (z : Bool) (n : Nat) : Option Opnd := if z then none else (it.src.drop n).head?

/-- The first operand of a pair that is an odd accumulator (R153), in operand order. -/
def oddOf (l : List Opnd) : Option Nat := (l.find? fun p => p.r % 2 == 1).map (·.r)

def accSum (m : MaskCounts) (tm : TMode) (z : Bool) (it : Items) (s : State) : TileRes :=
  let tag := (s.blk.md it.a.r).tag
  let pair := tag == 0x40
  let f := tagFmt tag
  let a := accNat s.blk it.a.r pair
  let c := match it.c? z 1 with
    | some p => accNat s.blk p.r pair
    | none => 0
  let tagC := match it.c? z 1 with
    | some p => (s.blk.md p.r).tag
    | none => (s.blk.md it.d.r).tag
  let r := rounder s.ag.ctl tm.fm.rm
  let rows := fullCount m.rows 32
  let cols := fullCount m.cols 32
  let l := (List.range 1024).map fun n =>
    let x := rawElem c f.width n
    if n / 32 < rows ∧ n % 32 < cols then
      let va := decodeFp f tm.fm.fi (rawElem a f.width n)
      let vc := decodeFp f tm.fm.fi x
      Elem.of (elem2 f f (r.at n) tm.fm.fo va vc (sumVal r.isRdn va vc))
    else Elem.idle x
  elemsResult f.width 32 f l none tag (tag, 0, tagC) pair

def accComp (tm : TMode) (z : Bool) (m : MaskCounts) (it : Items) (s : State) : TileOut :=
  let ma := s.blk.md it.a.r
  let pair := ma.tag == 0x40
  let accTag (t : BitVec 8) : Bool := t == 0x10 || t == 0x40
  let badC : Option Opnd := (it.c? z 1).filter fun p =>
    let mc := s.blk.md p.r
    !mc.void && !(if ma.void then accTag mc.tag else mc.tag == ma.tag)
  if !ma.void && !accTag ma.tag then badTag s.blk it.a
  else match badC with
    | some p => badTag s.blk p
    | none => match if pair then oddOf (it.src ++ [it.d]) else none with
      | some n => .trap cHBOUND (BitVec.ofNat 64 n)
      | none => if it.void s.blk then .res { TileRes.plain with pair := pair } false else .res (accSum m tm z it s) false

def execTacc (d a c : TileOp) (z : Bool) (m : TMode) (s : State) : Host.Outcome State Fault Refusal :=
  .next (maskedWord (.tacc d a c z m) m maskRC notPair (accComp m z) s)

end Sys2Proof.Machine
end

