-- ==== Sys2Proof/Machine/Matrix.lean ====
section
/-! DEFINITION. The matrix products (spec/09_tile_and_matrix_instructions.md R196 to R199, spec/02 R29, R36, R41, R362). -/

namespace Sys2Proof.Machine

/-! ## Sources -/

/-- A row of a source: its active depth elements, the lowest active index of its lowest block whose scale is 0xFF, and
its first NaN element (R29, R186). -/
structure MRow where
  elems : List Fp
  scaleNan : Option Nat
  nanElem : Option Nat
  deriving DecidableEq, Repr

def matrixRow (t : Tile) (fi : Bool) (depth row : Nat) : MRow :=
  let tag := t.md.tag
  let xs := (List.range depth).map fun k => (tileElem tag t.data.toNat t.side fi row k).1
  { elems := xs
    scaleNan := if tagScaled tag then
      ((List.range ((depth + 31) / 32)).find? fun b => (blockScale tag t.side row b).isNone).map (32 * ·) else none
    nanElem := xs.findIdx? Fp.isNan }

/-- The lower of two indices. -/
def lowest (a b : Option Nat) : Option Nat :=
  match a, b with
  | some x, some y => some (min x y)
  | some x, none => some x
  | none, y => y

/-! ## Steps -/

/-- What one output's accumulation gives: a value of the output's format with the flags so far, or a generated NaN of a
cause at a depth index (R29 row 4). -/
inductive Acc where
  | val (x : Fp) (fl : Flags)
  | bad (cause k : Nat)
  deriving DecidableEq, Repr

/-- Round a step's exact value with its rounding number. -/
def Acc.round (f : Fmt) (r : Rounder) (fo : Bool) (idx n k : Nat) (fl : Flags) : Val → Acc
  | .gen c => .bad c k
  | v => let y := putVal f (r.at (roundIdx idx n)) fo false v
    .val (decodeFp f false y.1) (fl.or y.2)

/-- The exact sum of the products of a group in ascending k, or the first invalid operation (R29, R362). -/
def groupSum (rdn : Bool) : List (Fp × Fp) → Option Val → Val
  | [], v => v.getD (.fin Dy.zero)
  | (a, b) :: l, v =>
    match mulVal a b with
    | .gen c => .gen c
    | p => match v with
      | none => groupSum rdn l (some p)
      | some q => match sumVal rdn q.operand p.operand with
        | .gen c => .gen c
        | z => groupSum rdn l (some z)

/-- An integer block sum: zero is +0 (R362). -/
def positiveZero : Val → Val
  | .fin d => if d.m = 0 then .fin { d with neg := false } else .fin d
  | v => v

/-- The kind of a product. -/
inductive MKind where
  | mmbi | mmf | seq
  deriving DecidableEq, Repr

/-- Blocks of MMBI (R197): one rounding each. -/
def stepBi (f : Fmt) (r : Rounder) (fo : Bool) (idx : Nat) : Nat → Nat → List (Fp × Fp) → Acc → Acc
  | 0, _, _, a => a
  | n + 1, b, l, .val x fl =>
    if l.isEmpty then .val x fl
    else
      let p := positiveZero (groupSum false (l.take 32) none)
      stepBi f r fo idx n (b + 1) (l.drop 32) (Acc.round f r fo idx b (32 * b) fl (sumVal r.isRdn x p.operand))
  | _, _, _, a => a

/-- Groups of MMF (R198): the sum rounded, then added and rounded. -/
def stepF (f : Fmt) (r : Rounder) (fo : Bool) (idx g : Nat) : Nat → Nat → List (Fp × Fp) → Acc → Acc
  | 0, _, _, a => a
  | n + 1, j, l, .val x fl =>
    if l.isEmpty then .val x fl
    else match Acc.round f r fo idx (2 * j) (g * j) fl (groupSum r.isRdn (l.take g) none) with
      | .bad c k => .bad c k
      | .val q fl => stepF f r fo idx g n (j + 1) (l.drop g) (Acc.round f r fo idx (2 * j + 1) (g * j) fl (sumVal r.isRdn x q))
  | _, _, _, a => a

/-- Sequential fused multiply-adds (R199). -/
def stepSeq (f : Fmt) (r : Rounder) (fo : Bool) (idx : Nat) : Nat → List (Fp × Fp) → Acc → Acc
  | _, [], a => a
  | k, (p, q) :: l, .val x fl =>
    stepSeq f r fo idx (k + 1) l (Acc.round f r fo idx k k fl (fmaVal r.isRdn p q x))
  | _, _, a => a

/-- One active output (R29): its bits and flags, and NIDX.IDX where it is a NaN. -/
def outputOf (kind : MKind) (f : Fmt) (g : Nat) (r : Rounder) (fo : Bool) (idx : Nat) (a b : MRow) (c : Fp) :
    (Nat × Flags) × Nat :=
  let nan (cause k : Nat) : (Nat × Flags) × Nat := ((genNan f cause, Flags.invalid), k)
  match lowest a.scaleNan b.scaleNan with
  | some k => nan 2 k
  | none => match lowest a.nanElem b.nanElem with
    | some k => nan 1 k
    | none =>
      if c.isNan then (roundElem f .rne false (elementwise f [c] (.gen 5)), 0xFFFF)
      else
        let l := a.elems.zip b.elems
        let res := match kind with
          | .mmbi => stepBi f r fo idx 8 0 l (.val c Flags.none)
          | .mmf => stepF f r fo idx g 16 0 l (.val c Flags.none)
          | .seq => stepSeq f r fo idx 0 l (.val c Flags.none)
        match res with
        | .bad cause k => nan cause k
        | .val x fl => (((putVal f .rne false false x.toVal).1, fl), 0)

/-- The group size of MMF (R198). -/
def groupSize (tag : BitVec 8) : Nat := if fp8Tag tag then 8 else 4

/-- A whole product (R196). -/
def matrixResult (kind : MKind) (m : MaskCounts) (tm : TMode) (z : Bool) (pair : Bool) (it : Items) (s : State) : TileRes :=
  let ta := s.blk.tile it.a.r
  let tb := s.blk.tile it.b.r
  let f := if pair then fp64 else fp32
  let prior := match it.c? z 2 with
    | some p => accNat s.blk p.r pair
    | none => 0
  let tagC := match it.c? z 2 with
    | some p => (s.blk.md p.r).tag
    | none => (s.blk.md it.d.r).tag
  let r := rounder s.ag.ctl tm.fm.rm
  let rows := fullCount m.rows 32
  let cols := fullCount m.cols 32
  let depth := fullCount m.depth (tagRow ta.md.tag)
  let as := (List.range rows).map (matrixRow ta tm.fm.fi depth)
  let bs := (List.range cols).map (matrixRow tb tm.fm.fi depth)
  let none3 : MRow := ⟨[], none, none⟩
  let l := (List.range 1024).map fun n =>
    let x := rawElem prior f.width n
    if n / 32 < rows ∧ n % 32 < cols then
      let o := outputOf kind f (groupSize ta.md.tag) r tm.fm.fo n (as.getD (n / 32) none3) (bs.getD (n % 32) none3)
        (decodeFp f tm.fm.fi x)
      (Elem.of o.1, o.2)
    else (Elem.idle x, 0)
  let tag : BitVec 8 := if pair then 0x40 else 0x10
  let res := elemsResult f.width 32 f (l.map (·.1)) none tag (ta.md.tag, tb.md.tag, tagC) pair
  { res with nan := res.nan.map fun n => { n with idx := (l.getD n.idx (Elem.idle 0, 0)).2 } }

/-! ## Checks (R183, R197 to R199, check 8) -/

/-- Block-integer tags of MMBI. -/
def biTag (t : BitVec 8) : Bool := narrowTag t

/-- What a product accepts of A and B, the agreement of B with A, and the tag of C. -/
structure MSpec where
  kind : MKind
  ok : BitVec 8 → Bool
  agree : BitVec 8 → BitVec 8 → Bool
  tagC : BitVec 8
  pair : Bool

def specMmbi : MSpec := ⟨.mmbi, biTag, fun a b => tagCont a == tagCont b, 0x10, false⟩
def specMmf : MSpec := ⟨.mmf, fun t => fp8Tag t || t == 0x20 || t == 0x30, fun a b => fp8Tag a == fp8Tag b, 0x10, false⟩
def specMmf32 : MSpec := ⟨.seq, fun t => t == 0x10, fun _ _ => true, 0x10, false⟩
def specMmd : MSpec := ⟨.seq, fun t => t == 0x40, fun _ _ => true, 0x40, true⟩

/-- Check 8 for a source that makes the word absent from Ochre dies: MASKED by the feature bit, or absent (R66, R68). -/
def narrowCheck (s : State) (p : Opnd) (narrow : BitVec 8 → Bool) (feature : Nat) : Option TileOut :=
  let md := s.blk.md p.r
  if md.void || !narrow md.tag then none
  else if !s.blk.isa.getLsbD feature then some .masked
  else if isOchre s.blk.core then some .absent
  else none

/-- The first answer among some. -/
def firstOut (l : List (Option TileOut)) (f : Unit → TileOut) : TileOut :=
  match l with
  | [] => f ()
  | some x :: _ => x
  | none :: r => firstOut r f

def outIf (c : Bool) (x : TileOut) : Option TileOut := if c then some x else none

/-- Check 8 in the order A, B, C, the pairs, and the product. -/
def matrixComp (sp : MSpec) (tm : TMode) (z : Bool) (m : MaskCounts) (it : Items) (s : State) : TileOut :=
  let ma := s.blk.md it.a.r
  let mb := s.blk.md it.b.r
  let narrow := if sp.kind = .mmf then fp8Tag else fun _ => false
  let badC : Option Opnd := (it.c? z 2).filter fun p => let mc := s.blk.md p.r; !mc.void && mc.tag != sp.tagC
  firstOut [
    outIf (!ma.void && !sp.ok ma.tag) (badTag s.blk it.a),
    narrowCheck s it.a narrow 1,
    outIf (!mb.void && !sp.ok mb.tag) (badTag s.blk it.b),
    outIf (!ma.void && !mb.void && !sp.agree ma.tag mb.tag) (badTag s.blk it.b),
    narrowCheck s it.b narrow 1,
    badC.map (badTag s.blk),
    (if sp.pair then oddOf ((it.c? z 2).toList ++ [it.d]) else none).map fun n => .trap cHBOUND (BitVec.ofNat 64 n),
    outIf (it.void s.blk) (.res { TileRes.plain with pair := sp.pair } false)]
    fun _ => .res (matrixResult sp.kind m tm z sp.pair it s) false

/-- An even accumulator of MMD names a pair. -/
def evenPair (sp : MSpec) : Block → Items → Bool := fun _ it => sp.pair && it.d.r % 2 == 0

def matrixWord (i : Instr) (sp : MSpec) (z : Bool) (tm : TMode) (s : State) : State :=
  maskedWord i tm maskRCD (evenPair sp) (matrixComp sp tm z) s

def execMmbi (d a b c : TileOp) (z : Bool) (m : TMode) (s : State) : Host.Outcome State Fault Refusal :=
  .next (matrixWord (.mmbi d a b c z m) specMmbi z m s)

def execMmf (d a b c : TileOp) (z : Bool) (m : TMode) (s : State) : Host.Outcome State Fault Refusal :=
  .next (matrixWord (.mmf d a b c z m) specMmf z m s)

def execMmf32 (d a b c : TileOp) (z : Bool) (m : TMode) (s : State) : Host.Outcome State Fault Refusal :=
  .next (matrixWord (.mmf32 d a b c z m) specMmf32 z m s)

def execMmd (d a b c : TileOp) (z : Bool) (m : TMode) (s : State) : Host.Outcome State Fault Refusal :=
  .next (matrixWord (.mmd d a b c z m) specMmd z m s)

end Sys2Proof.Machine
end

