-- ==== Sys2Proof/Machine/Convert.lean ====
section
/-! DEFINITION. TCVT, with merge and page-append (spec/09_tile_and_matrix_instructions.md R200 to R202, spec/02 R47 to
R49). -/

namespace Sys2Proof.Machine

/-- The source of a conversion: its element count, and each element after the masks with the format of its NaNs. -/
structure CvtSource where
  count : Nat
  elem : Nat → Fp × Fmt

def cvtSource (m : MaskCounts) (fi : Bool) (it : Items) (s : State) : CvtSource :=
  let acc : Bool := decide (512 ≤ it.a.r)
  let t := s.blk.tile it.a.r
  let k := if acc then 32 else tagRow t.md.tag
  let data := if acc then (s.blk.acc (it.a.r - 512)).data.toNat else t.data.toNat
  let rows := fullCount m.rows 32
  let cols := fullCount m.cols k
  { count := 32 * k
    elem := fun n =>
      if n / k < rows ∧ n % k < cols then
        if acc then (decodeFp fp32 fi (rawElem data 32 n), fp32) else tileElem t.md.tag data t.side fi (n / k) (n % k)
      else (.fin Dy.zero, fp32) }

/-- The source element that a destination element takes in part p, if any (R201). -/
def partSource (ns nd p i : Nat) : Option Nat :=
  if nd ≤ ns then some (p * nd + i) else if p * ns ≤ i ∧ i < p * ns + ns then some (i - p * ns) else none

/-- An element of a target without scales (R47). -/
def cvtElem (dst : NumFmt) (md : RMode) (fo sat : Bool) (x : Fp × Fmt) : Nat × Flags :=
  match dst with
  | .float f => convertFp x.2 f md fo sat x.1
  | d => toInteger d md x.1

/-- A block of the result: its scale byte, elements, flags, and whether a NaN made it. -/
structure OutBlock where
  scale : Nat
  elems : List (Nat × Flags)
  nan : Bool
  deriving DecidableEq, Repr

/-- A quantised block of element numbers from `i0`. -/
def cvtBlock (tag : BitVec 8) (r : Rounder) (fo sat : Bool) (i0 : Nat) (scale : Option Nat) (xs : List Fp) : OutBlock :=
  ⟨scale.getD 0xFF, quantBlock tag scale fo sat (xs.zipIdx.map fun p => (p.1, r.at (i0 + p.2))), scale.isNone⟩

/-- The result of a target without scales. -/
def cvtPlain (tag : BitVec 8) (r : Rounder) (fo sat : Bool) (src : CvtSource) (p : Nat) (old : Nat → Nat)
    (tags : BitVec 8 × BitVec 8 × BitVec 8) : TileRes :=
  let k := tagRow tag
  let l := (List.range (32 * k)).map fun i =>
    match partSource src.count (32 * k) p i with
    | some j => Elem.of (cvtElem (tagNum tag) (r.at i) fo sat (src.elem j))
    | none => Elem.idle (old i)
  let res := elemsResult (tagCont tag) k (tagFmt tag) l (some 0) tag tags false
  match tagNum tag with
  | .float _ => res
  | _ => { res with nan := none }

/-- The first element of the first block that a NaN made, K elements in a row. -/
def blockNan (k : Nat) (l : List OutBlock) : Option NanAt :=
  (l.findIdx? (·.nan)).map fun b => ⟨32 * b / k, 32 * b % k, 32 * b, 2⟩

/-- A result from its blocks in row-major order. -/
def blocksResult (tag : BitVec 8) (side : SideBand) (l : List OutBlock) (tags : BitVec 8 × BitVec 8 × BitVec 8) : TileRes :=
  { TileRes.tile (packElems (tagCont tag) (l.flatMap fun b => b.elems.map (·.1))) tag with
    side := some side, flags := orFlags (l.flatMap fun b => b.elems.map (·.2)), nan := blockNan (tagRow tag) l, tags := tags }

/-- The 32 source values of a destination block; an element without a source is +0. -/
def blockSources (src : CvtSource) (nd p i0 : Nat) : List Fp :=
  (List.range 32).map fun n => match partSource src.count nd p (i0 + n) with
    | some j => (src.elem j).1
    | none => .fin Dy.zero

/-- The result of a scaled target other than bi2: with merge, blocks not written keep elements and scale. -/
def cvtScaled (tag : BitVec 8) (r : Rounder) (fo sat : Bool) (src : CvtSource) (p : Nat) (merge : Option Tile)
    (tags : BitVec 8 × BitVec 8 × BitVec 8) : TileRes :=
  let k := tagRow tag
  let l := (List.range (k)).map fun n =>
    let i0 := 32 * n
    match partSource src.count (32 * k) p i0, merge with
    | none, some t =>
      ⟨sideByte t.side n, (List.range 32).map fun j => (rawElem t.data.toNat (tagCont tag) (i0 + j), Flags.none), false⟩
    | _, _ =>
      let xs := blockSources src (32 * k) p i0
      cvtBlock tag r fo sat i0 (chooseScale tag (xs.map (quantSource sat))) xs
  blocksResult tag (packSide fun n => ((l.map (·.scale)).getD n 0)) l tags

/-- A row of a bi2 target: its base byte, its 24-bit field of offsets, and its blocks (R49). -/
def cvtRow2 (r : Rounder) (fo sat : Bool) (src : CvtSource) (p row : Nat) : Nat × Nat × List OutBlock :=
  let xs := (List.range 8).map fun b => blockSources src 8192 p (256 * row + 32 * b)
  match rowScales (xs.map fun l => chooseScale 0x83 (l.map (quantSource sat))) with
  | none => (0xFF, 0, (xs.map fun l => ⟨0xFF, l.map fun _ => (0, Flags.none), true⟩))
  | some (base, sc) =>
    (base, packElems 3 (sc.map (· - base)),
      (xs.zip sc).zipIdx.map fun q => cvtBlock 0x83 r fo sat (256 * row + 32 * q.2) (some q.1.2) q.1.1)

def cvtBi2 (r : Rounder) (fo sat : Bool) (src : CvtSource) (p : Nat) (tags : BitVec 8 × BitVec 8 × BitVec 8) : TileRes :=
  let rows := (List.range 32).map (cvtRow2 r fo sat src p)
  let side := BitVec.ofNat 1024 (packElems 8 (rows.map (·.1)) + 2 ^ 256 * packElems 24 (rows.map (·.2.1)))
  blocksResult 0x83 side (rows.flatMap (·.2.2)) tags

/-- The tags of a conversion: A, the target, and the destination's previous generation. -/
def cvtTags (it : Items) (tag : BitVec 8) (s : State) : BitVec 8 × BitVec 8 × BitVec 8 :=
  ((s.blk.md it.a.r).tag, tag, (s.blk.md it.d.r).tag)

/-- The value of an options byte (R200). -/
def optionsByte (page : Bool) (n : Nat) (merge sat : Bool) : Word :=
  BitVec.ofNat 64 (64 * merge.toNat + 4 * n + 2 * page.toNat + sat.toNat)

/-- The checks of source A of a conversion (R183, R200, check 8). -/
def cvtSourceChecks (it : Items) (s : State) : List (Option TileOut) :=
  let ma := s.blk.md it.a.r
  let acc : Bool := decide (512 ≤ it.a.r)
  [outIf (!ma.void && !(if acc then ma.tag == 0x10 else tagValid ma.tag.toNat && ma.tag != 0 && ma.tag != 0xC0)) (badTag s.blk it.a),
   narrowCheck s it.a narrowTag 2]

/-- TCVT. The model's choices: a merge tag that is not the target's raises ILLEGAL before a part that is too large raises HBOUND, and
the part is not checked where A is void (notes/assumptions/64.md). -/
def cvtComp (tm : TMode) (tag : BitVec 8) (part : Nat) (merge sat : Bool) (m : MaskCounts) (it : Items) (s : State) : TileOut :=
  let ma := s.blk.md it.a.r
  let md := s.blk.md it.d.r
  let src := cvtSource m tm.fm.fi it s
  let nd := 32 * tagRow tag
  let r := rounder s.ag.ctl tm.fm.rm
  let old := s.blk.tile it.d.r
  firstOut (cvtSourceChecks it s ++ [
    outIf (merge && !md.void && md.tag != tag) (badTag s.blk it.d),
    outIf (!ma.void && decide (max src.count nd / min src.count nd ≤ part)) (.trap cHBOUND (optionsByte false part merge sat)),
    outIf (ma.void || (merge && md.void)) (.res TileRes.plain true)])
    fun _ =>
      let tags := cvtTags it tag s
      let res :=
        if tag = 0x83 then cvtBi2 r tm.fm.fo sat src part tags
        else if tagScaled tag then cvtScaled tag r tm.fm.fo sat src part (if merge then some old else none) tags
        else cvtPlain tag r tm.fm.fo sat src part (fun i => if merge then rawElem old.data.toNat (tagCont tag) i else 0) tags
      .res { res with poison := merge && md.poison } false

/-- A conversion's answer: a void result keeps the poison of the previous generation it reads. -/
def cvtOut (prev : Bool) (comp : MaskCounts → Items → State → TileOut) (m : MaskCounts) (it : Items) (s : State) : TileOut :=
  match comp m it s with
  | .res r true => .res { r with poison := prev && (s.blk.md it.d.r).poison } true
  | x => x

def cvtWord (i : Instr) (tm : TMode) (comp : MaskCounts → Items → State → TileOut) (s : State) : State :=
  issueTile i s (tileOff i notPair) fun s => withMask i tm.mask maskRC true s fun m s => tileGo i tm.nt m.raw (comp m) s

def execTcvt (d a : TileOp) (tag : BitVec 8) (part : Fin 4) (merge sat : Bool) (m : TMode) (s : State) :
    Host.Outcome State Fault Refusal :=
  .next (cvtWord (.tcvt d a tag part merge sat m) m (cvtOut merge (cvtComp m tag part.val merge sat)) s)

/-! ## Page-append (R202) -/

/-- A mantissa of the page divided by 2^n with ties to even. -/
def shiftElem (tag : BitVec 8) (n x : Nat) : Nat × Flags :=
  let w := (tagNum tag).bits
  let (v, inexact) := roundInt .rne (Dy.ofInt (signedOf w (x % 2 ^ w)) |>.scale (-(n : Int)))
  (wrapTo (tagCont tag) v, ⟨inexact, false, false, false, false⟩)

/-- The shared scale of a block: 0xFF for a NaN. -/
def pageScale (j old new : Nat) : Nat :=
  if j = 0 then new else if old = 0xFF ∨ new = 0xFF then 0xFF else max old new

/-- Element `n` of row `row` of block b of the new page. -/
def pageElem (tag : BitVec 8) (r : Rounder) (fo : Bool) (j : Nat) (t : Tile) (src : CvtSource) (sat : Bool)
    (scales : List (Nat × Nat)) (i : Nat) : Nat × Flags :=
  let k := tagRow tag
  let row := i / k
  let (old, sc) := scales.getD (i % k / 32) (0, 0)
  let prev := rawElem t.data.toNat (tagCont tag) i
  if row = j then
    if sc = 0xFF then (0, Flags.none) else quantElem tag sc (r.at i) fo sat (src.elem (i % k)).1
  else if 16 ≤ row then (0, Flags.none)
  else if j = 0 then (0, Flags.none)
  else if j < row then (prev, Flags.none)
  else if sc = 0xFF then (0, Flags.none)
  else shiftElem tag (sc - old) prev

def pageResult (m : MaskCounts) (tm : TMode) (tag : BitVec 8) (j : Nat) (sat : Bool) (it : Items) (s : State) : TileRes :=
  let k := tagRow tag
  let src := cvtSource m tm.fm.fi it s
  let t := s.blk.tile it.d.r
  let r := rounder s.ag.ctl tm.fm.rm
  let scales := (List.range (k / 32)).map fun b =>
    let xs := (List.range 32).map fun n => quantSource sat (src.elem (32 * b + n)).1
    let old := sideByte t.side b
    (old, pageScale j old ((chooseScale tag xs).getD 0xFF))
  let l := (List.range (32 * k)).map (pageElem tag r tm.fm.fo j t src sat scales)
  { TileRes.tile (packElems (tagCont tag) (l.map (·.1))) tag with
    side := some (packSide fun n => if n < 16 * (k / 32) then (scales.getD (n % (k / 32)) (0, 0)).2 else 0)
    poison := t.md.poison
    flags := orFlags (l.map (·.2))
    nan := (scales.findIdx? fun p => p.2 == 0xFF).map fun b => ⟨j, 32 * b, j * k + 32 * b, 2⟩
    tags := cvtTags it tag s }

def pageComp (tm : TMode) (tag : BitVec 8) (slot : Nat) (sat : Bool) (m : MaskCounts) (it : Items) (s : State) : TileOut :=
  let md := s.blk.md it.d.r
  firstOut (cvtSourceChecks it s ++ [
    outIf (slot != 0 && !md.void && md.tag != tag) (badTag s.blk it.d),
    outIf ((s.blk.md it.a.r).void || md.void) (.res TileRes.plain true)])
    fun _ => .res (pageResult m tm tag slot sat it s) false

def execTcvtPageAppend (d a : TileOp) (tag : BitVec 8) (slot : Fin 16) (sat : Bool) (m : TMode) (s : State) :
    Host.Outcome State Fault Refusal :=
  .next (cvtWord (.tcvtPageAppend d a tag slot sat m) m (cvtOut true (pageComp m tag slot.val sat)) s)

end Sys2Proof.Machine
end

