-- ==== Sys2Proof/Machine/Recon.lean ====
section
/-! DEFINITION. The reconstruction unit's arithmetic: rows of outputs, the kernels, and the error of an audit point
(spec/14_cluster_scheduling_and_coverage.md R262 to R264, R267, R268). -/

namespace Sys2Proof.Machine

/-! ## Rows of an output (R264) -/

/-- The device address of row r of a point's output. -/
def CovOut.rowVa (o : CovOut) (p : Point) (r : Nat) : Word :=
  o.base + BitVec.ofNat 64 p.x * o.sx + BitVec.ofNat 64 p.y * o.sy + BitVec.ofNat 64 p.z * o.sz + BitVec.ofNat 64 r * o.rs

/-- The bytes of packed elements, and of the whole row with its scales. -/
def CovOut.dataBytes (o : CovOut) : Nat := (o.pe * tagCont o.tag + 7) / 8
def CovOut.rowBytes (o : CovOut) : Nat := o.dataBytes + if tagScaled o.tag then o.pe / 32 else 0

/-- Bytes of memory as a number, and whether a granule of theirs is poisoned; none where an address does not translate. -/
def readBy (tr : Word → Use → Tr) (s : State) (va : Word) : Nat → Option (Nat × Bool)
  | 0 => some (0, false)
  | n + 1 => match tr va .load, readBy tr s (va + 1) n with
    | .ok (.phys pa), some (v, q) => some ((s.mem.byte pa).toNat + 256 * v, q || s.mem.granule (pa / 4))
    | _, _ => none

/-- Write bytes of memory; none where an address does not translate. -/
def writeBy (tr : Word → Use → Tr) (s : State) (va : Word) (v : Nat) (poison : Bool) : Nat → Option State
  | 0 => some s
  | n + 1 => match tr va .store with
    | .ok (.phys pa) =>
      writeBy tr (s.write pa 1 fun m => (m.setByte pa (BitVec.ofNat 8 v)).setGranule (pa / 4) poison) (va + 1) (v / 256) poison n
    | _ => none

/-- The host gives up the lines of some bytes. -/
def snoopBy (tr : Word → Use → Tr) (s : State) (x : Word × Nat) : State :=
  if s.hostLines.isEmpty then s
  else (List.range ((x.1.toNat % 64 + x.2 + 63) / 64)).foldl (fun s i =>
    match tr (if i = 0 then x.1 else (x.1 &&& ~~~63#64) + BitVec.ofNat 64 (64 * i)) .load with
    | .ok (.phys pa) => s.snoop pa 1
    | _ => s) s

/-- Bytes of a partition's memory. -/
def readBytes (s : State) (p : Partition) (va : Word) (n : Nat) : Option (Nat × Bool) := readBy (engTr s p) s va n
def writeBytes (s : State) (p : Partition) (va : Word) (v : Nat) (poison : Bool) (n : Nat) : Option State :=
  writeBy (engTr s p) s va v poison n
/-- The host gives up the lines of some bytes of a partition (R247). -/
def State.snoopRead (s : State) (p : Partition) (va : Word) (n : Nat) : State := snoopBy (engTr s p) s (va, n)

/-- An element of a row as it is used, with the format of a NaN's fraction. -/
def covElem (o : CovOut) (row i : Nat) : Fp × Fmt :=
  let num := tagNum o.tag
  let x := rawElem row (tagCont o.tag) i % 2 ^ num.bits
  let f := match num with
    | .float f => f
    | _ => fp32
  if tagScaled o.tag then
    let sc := row / 2 ^ (8 * (o.dataBytes + i / 32)) % 256
    if sc = 0xFF then (scaleNan, fp32) else ((num.decode false x).scale (sc - tagBias o.tag), f)
  else (num.decode false x, f)

/-! ## Neighbours (R262) -/

/-- One axis of a skipped point: the kept points before and behind it, and the three positions. -/
structure Axis where
  a : Point
  b : Point
  t : Nat
  ta : Nat
  tb : Nat
  deriving DecidableEq, Repr

/-- The nearest kept positions below and above t. -/
def keptAround (kept : Nat → Bool) (t n : Nat) : Nat × Nat :=
  (((List.range t).reverse.find? kept).getD 0, ((List.range n).find? fun i => decide (t < i) && kept i).getD 0)

/-- The axes of a skipped point that its pattern family uses, x before y. -/
def axesOf (c : CovRec) (w : Walker) (f : Nat) (p : Point) : List Axis :=
  let x := keptAround (fun i => keptUnder c w f { p with x := i }) p.x w.gx
  let y := keptAround (fun i => keptUnder c w f { p with y := i }) p.y w.gy
  let ax : Axis := ⟨{ p with x := x.1 }, { p with x := x.2 }, p.x, x.1, x.2⟩
  let ay : Axis := ⟨{ p with y := y.1 }, { p with y := y.2 }, p.y, y.1, y.2⟩
  match c.family with
  | 0 => [ax, ay]
  | 1 => [ay]
  | _ => [ax]

/-! ## The kernels (R263) -/

/-- Round to the working format, to nearest with ties to even. -/
def roundTo (w : Fmt) (v : Val) : Fp := decodeFp w false (putVal w .rne false false v).1

/-- Round(a / b) of naturals, b ≠ 0. -/
def ratioTo (w : Fmt) (a b : Nat) : Fp :=
  let n := a * 2 ^ 128
  decodeFp w false (roundFin w .rne false false ⟨false, 2 * (n / b) + (if n % b = 0 then 0 else 1), -129⟩).1

/-- Linear between two values, none a NaN. -/
def axisValue (w : Fmt) (x : Axis) (a b : Fp) : Fp :=
  let d := roundTo w (sumVal false b a.negate)
  if d.isNan then d else roundTo w (fmaVal false (ratioTo w (x.t - x.ta) (x.tb - x.ta)) d a)

/-- The value in the working format from each axis and its two values. -/
def linearValue (w : Fmt) (l : List (Axis × (Fp × Fmt) × (Fp × Fmt))) : Fp :=
  match (l.flatMap fun p => [p.2.1, p.2.2]).find? fun v => v.1.isNan with
  | some v => decodeFp w false (convertFp v.2 w .rne false false v.1).1
  | none => match l with
    | [p] => axisValue w p.1 p.2.1.1 p.2.2.1
    | [p, q] =>
      let h := axisValue w p.1 p.2.1.1 p.2.2.1
      let v := axisValue w q.1 q.2.1.1 q.2.2.1
      if h.isNan then h else if v.isNan then v
      else
        let z := roundTo w (sumVal false h v)
        if z.isNan then z else roundTo w (mulVal z (.fin ⟨false, 1, -1⟩))
    | _ => .fin Dy.zero

/-- The neighbour at the smallest distance, the first on a tie. -/
def nearestValue (l : List (Axis × Nat × Nat)) : Nat :=
  let all := l.flatMap fun p => [(p.1.t - p.1.ta, p.2.1), (p.1.tb - p.1.t, p.2.2)]
  ((all.foldl (fun best v => match best with
    | none => some v
    | some b => if v.1 < b.1 then some v else some b) none).map (·.2)).getD 0

/-- One row of a filled point, from the rows of its neighbours by axis. -/
def fillRow (o : CovOut) (l : List (Axis × Nat × Nat)) : Nat :=
  let w := if o.tag = 0x40 then fp64 else fp32
  let lin (i : Nat) : Fp := linearValue w (l.map fun p => (p.1, covElem o p.2.1 i, covElem o p.2.2 i))
  match tagNum o.tag with
  | .int _ => if tagScaled o.tag then 0 else
    packElems (tagCont o.tag) ((List.range o.pe).map fun i =>
      nearestValue (l.map fun p => (p.1, rawElem p.2.1 (tagCont o.tag) i, rawElem p.2.2 (tagCont o.tag) i)))
  | num =>
    if tagScaled o.tag then
      let blocks := (List.range (o.pe / 32)).map fun b =>
        let xs := (List.range 32).map fun n => lin (32 * b + n)
        let sc := chooseScale o.tag (xs.map (quantSource true))
        (sc.getD 0xFF, (quantBlock o.tag sc false true (xs.map fun x => (x, .rne))).map (·.1))
      packElems (tagCont o.tag) (blocks.flatMap (·.2)) + 2 ^ (8 * o.dataBytes) * packElems 8 (blocks.map (·.1))
    else match num with
      | .float f => packElems (tagCont o.tag) ((List.range o.pe).map fun i => (convertFp w f .rne false false (lin i)).1)
      | _ => 0

/-! ## A reconstructed point -/

/-- A row to be written or compared: its address, output, value and poison. -/
structure FillRow where
  va : Word
  out : CovOut
  v : Nat
  poison : Bool
  deriving DecidableEq, Repr

def insertFill (x : FillRow) : List FillRow → List FillRow
  | [] => [x]
  | y :: r => if x.va.toNat < y.va.toNat then x :: y :: r else y :: insertFill x r

/-- The rows that a reconstruction reads, and a point's own rows: address and length. -/
def neighbourRows (c : CovRec) (axes : List Axis) : List (Word × Nat) :=
  c.outs.flatMap fun o => (List.range o.pr).flatMap fun r =>
    axes.flatMap fun x => [(o.rowVa x.a r, o.rowBytes), (o.rowVa x.b r, o.rowBytes)]
def ownRows (c : CovRec) (pt : Point) : List (Word × Nat) :=
  c.outs.flatMap fun o => (List.range o.pr).map fun r => (o.rowVa pt r, o.rowBytes)

/-- One row of one output, reconstructed from the neighbours' rows; `rd` answers bytes at an address. -/
def reconRow (rd : Word → Nat → Option (Nat × Bool)) (o : CovOut) (axes : List Axis) (pt : Point) (r : Nat) : Option FillRow :=
  let rows := axes.map fun x => (x, rd (o.rowVa x.a r) o.rowBytes, rd (o.rowVa x.b r) o.rowBytes)
  let got := rows.filterMap fun q => match q.2.1, q.2.2 with
    | some a, some b => some (q.1, a, b)
    | _, _ => none
  if got.length = rows.length then
    some ⟨o.rowVa pt r, o, fillRow o (got.map fun q => (q.1, q.2.1.1, q.2.2.1)), got.any fun q => q.2.1.2 || q.2.2.2⟩
  else none

/-- Every row of a point in ascending address, or none where bytes are not there. -/
def reconPoint (rd : Word → Nat → Option (Nat × Bool)) (c : CovRec) (axes : List Axis) (pt : Point) : Option (List FillRow) :=
  let all := c.outs.flatMap fun o => (List.range o.pr).map fun r => reconRow rd o axes pt r
  if all.any (·.isNone) then none else some ((all.filterMap id).foldl (fun l x => insertFill x l) [])

/-! ## The steps of a fill (R225, R261) -/

/-- The parts of some bytes that lie in one aligned word each: address and length. -/
def wordsIn (va : Word) (n : Nat) : List (Word × Nat) :=
  let o := va.toNat % 8
  (List.range ((o + n + 7) / 8)).map fun i =>
    if i = 0 then (va, min n (8 - o)) else ((va &&& ~~~7#64) + BitVec.ofNat 64 (8 * i), min 8 (o + n - 8 * i))

/-- The bytes of a number at an address, with one poison bit for all. -/
def spread (va : Word) (v : Nat) (poison : Bool) (n : Nat) : List (Word × Byte × Bool) :=
  (List.range n).map fun i => (va + BitVec.ofNat 64 i, BitVec.ofNat 8 (v / 256 ^ i), poison)

/-- Bytes at an address, from those that have been read. -/
def readSeen (got : List (Word × Byte × Bool)) (va : Word) : Nat → Option (Nat × Bool)
  | 0 => some (0, false)
  | n + 1 => match got.find? fun x => x.1 == va, readSeen got (va + 1) n with
    | some (_, b, q), some (v, p) => some (b.toNat + 256 * v, q || p)
    | _, _ => none

/-- The Data writes of some rows, in ascending address: address, length, value and poison. -/
def rowWrites (rows : List FillRow) : List (Word × Nat × Nat × Bool) :=
  rows.flatMap fun r => (wordsIn r.va r.out.rowBytes).map fun x =>
    (x.1, x.2, r.v / 256 ^ (x.1 - r.va).toNat % 256 ^ x.2, r.poison)

/-- One Data read or Data write of a fill: the state, and what is left of the fill. It ends early where an address does not
translate. -/
def fillStep (tr : Word → Use → Tr) (s : State) (c : CovRec) (axes : List Axis) (pt : Point) (f : Fill) : State × Option Fill :=
  let reads := (neighbourRows c axes).flatMap fun x => wordsIn x.1 x.2
  match reads[f.reads]? with
  | some (va, n) => match readBy tr s va n with
    | some (v, q) => (snoopBy tr s (va, n), some { f with reads := f.reads + 1, got := f.got ++ spread va v q n })
    | none => (s, none)
  | none => match (reconPoint (readSeen f.got) c axes pt).bind fun rows => (rowWrites rows)[f.puts]?.map fun w => (rowWrites rows, w) with
    | some (l, va, n, v, q) => match writeBy tr s va v (q || f.bad) n with
      | some t => (t, if f.puts + 1 < l.length then some { f with puts := f.puts + 1 } else none)
      | none => (s, none)
    | none => (s, none)

/-! ## Errors in FP64 (R267, R268) -/

def Fp.abs : Fp → Fp
  | .nan _ q f => .nan false q f
  | .inf _ => .inf false
  | .fin d => .fin { d with neg := false }

def add64 (a b : Fp) : Fp := if a.isNan then a else if b.isNan then b else roundTo fp64 (sumVal false a b)

/-- A quotient of values that are not negative, in FP64. -/
def div64 (a b : Fp) : Fp :=
  match a, b with
  | .fin x, .fin y =>
    if y.m = 0 then .inf false
    else
      let n := x.m * 2 ^ 1200
      decodeFp fp64 false (roundFin fp64 .rne false false
        ⟨false, 2 * (n / y.m) + (if n % y.m = 0 then 0 else 1), x.e - y.e - 1201⟩).1
  | .inf _, .fin _ => .inf false
  | .fin _, .inf _ => .fin Dy.zero
  | .nan n q f, _ => .nan n q f
  | _, _ => roundTo fp64 (.gen 5)

def bits64 : Fp → Nat
  | .nan n _ f => (putVal fp64 .rne false false (.nan n f)).1
  | x => (putVal fp64 .rne false false x.toVal).1

/-- The error of an audit point from its reconstructed and its own rows. -/
def pointError (rows : List (FillRow × Nat)) : Nat :=
  let elems := rows.flatMap fun q => (List.range q.1.out.pe).map fun i =>
    ((covElem q.1.out q.1.v i).1, (covElem q.1.out q.2 i).1)
  let one : Fp := .fin ⟨false, 1, 0⟩
  let isZero (x : Fp) : Bool := match x with
    | .fin d => d.m == 0
    | _ => false
  let e : Fp :=
    if elems.any fun q => q.1.isNan || q.2.isNan then one
    else
      let num := elems.foldl (fun n q => add64 n (roundTo fp64 (sumVal false q.1 q.2.negate)).abs) (.fin Dy.zero)
      let den := elems.foldl (fun n q => add64 n q.2.abs) (.fin Dy.zero)
      if isZero num then .fin Dy.zero else if isZero den then one else div64 num den
  bits64 e

/-- The fraction after an update over errors in ascending hand-out index, within its bounds after an empty set too (R268,
notes/assumptions/57.md). -/
def updateOver (covctl : Word) (f : Nat) (errors : List Nat) : Nat :=
  if errors.isEmpty then updateFraction covctl f false false
  else
    let sum := errors.foldl (fun n e => add64 n (decodeFp fp64 false e)) (.fin Dy.zero)
    let mean := (div64 sum (.fin ⟨false, errors.length, 0⟩))
    let big : Fp := match mean with
      | .fin d => .fin (d.scale 16)
      | x => x
    let hi : Fp := .fin ⟨false, (covctl.extractLsb' 48 16).toNat, 0⟩
    let lo : Fp := .fin ⟨false, (covctl.extractLsb' 32 16).toNat, 0⟩
    updateFraction covctl f (hi.lt big) (big.lt lo)

end Sys2Proof.Machine
end

