-- ==== Sys2Proof/Machine/Caps.lean ====
section
/-! DEFINITION. Capability blocks (spec/21_package_partitions_and_failure.md R329, R330). -/

namespace Sys2Proof.Machine

/-- A number as `n` bytes, little-endian (R22). -/
def toBytes (v : Nat) : Nat → List Byte
  | 0 => []
  | n + 1 => BitVec.ofNat 8 v :: toBytes (v / 256) n

/-- A record: TYPE, LEN, the value, and zero bytes up to a multiple of 8. -/
def capRecord (type : Nat) (v : List Byte) : List Byte :=
  toBytes type 2 ++ toBytes v.length 2 ++ v ++ List.replicate ((12 - v.length % 8) % 8) 0

/-- The records before the signature. -/
def capRecords (p : Partition) : List Byte :=
  let indigo := (p.clusters.filter fun g => decide (g < 72)).length
  capRecord 1 (toBytes (8 * indigo) 2 ++ toBytes (8 * (p.clusters.length - indigo)) 2 ++ toBytes (bitsOf p.clusters) 12) ++
  capRecord 2 (toBytes p.isa.toNat 8) ++
  capRecord 3 (toBytes p.ranges.length 8 ++ p.ranges.flatMap fun r => toBytes r.1 8 ++ toBytes r.2 8) ++
  capRecord 4 (toBytes p.links.toNat 2 ++ toBytes p.linkrate 2) ++
  capRecord 5 (toBytes p.tweight 1 ++ [0] ++ toBytes p.chrate 2 ++ toBytes (if p.sliced then 8000 else 0) 4) ++
  capRecord 6 (Config.errata.flatMap fun e => toBytes e.1.toNat 4 ++ toBytes e.2.toNat 4) ++
  capRecord 7 [if p.priv then 1 else 0]

/-- The header, for records of `n` bytes before the signature. -/
def capHeader (p : Partition) (n : Nat) : List Byte :=
  toBytes 0x3838424E 4 ++ toBytes 1 2 ++ toBytes 8 2 ++ toBytes (16 + n + 72) 4 ++ toBytes p.id 1 ++ List.replicate 3 0

/-- A capability block, whose signature is over every byte before its record. -/
def capBlock (p : Partition) : List Byte :=
  let r := capRecords p
  let m := capHeader p r.length ++ r
  m ++ capRecord 0xFF (Config.attestation m).toList

/-- Bytes written at addresses of a partition; a byte whose address does not translate is left out. -/
def writeMapped (p : Partition) (va : Word) : List Byte → State → State
  | [], s => s
  | b :: r, s => writeMapped p (va + 1) r ((writeBytes s p va b.toNat false 1).getD s)

/-- The capability block of a partition is written. -/
def writeCap (s : State) (n : Nat) : State := writeMapped (s.part n) (s.part n).capb (capBlock (s.part n)) s

/-- The pages of a partition's capability block. -/
def capPages (p : Partition) : List (Partition × Word) := (pagesOf p.capb (capBlock p).length).map fun va => (p, va)

/-- The controller writes the capability block that is due next, once it has walked to its pages. -/
def capStep (s : State) : State :=
  match s.capDue with
  | [] => s
  | n :: r => withPages s (capPages (s.part n)) fun s => writeCap { s with capDue := r } n

/-- CAPBADDR. -/
def capAddr (n : Nat) : Word := Config.capBlockAddr n &&& ~~~0x3F#64

end Sys2Proof.Machine
end

