-- ==== Sys2Proof/Machine/Life.lean ====
section
/-! DEFINITION. What a MARK does beyond its word, and how a block ends: copy channels as status words see them, Umber's
timetables, the replay record, the test for a home-biased return, and EXIT of the last agent
(spec/10 R215, R216, spec/15 R275 to R279, spec/18 R312, spec/21 R334, spec/11 R226). -/

namespace Sys2Proof.Machine

/-! ## Channels (R215) -/

/-- CODE of the status word (R215). -/
def Progress.code : Progress → BitVec 8
  | .done => 0
  | .active => 1
  | .fromVoid => 2
  | .held => 3
  | .faulted c | .ended c => c

def Chan.busy (c : Chan) : Bool := c.xfers.any (·.outstanding)
def Chan.full (c : Chan) : Bool := decide (16 ≤ (c.xfers.filter (·.outstanding)).length)

/-- WMARK (R158, R215); transfers stand oldest first. -/
def Chan.wmark (c : Chan) : BitVec 32 :=
  match c.xfers.find? (·.outstanding) with
  | some x => x.id
  | none => c.next

/-- Does id a lie before b (R215)? -/
def idBefore (a b : BitVec 32) : Bool := decide (1 ≤ (b - a).toNat) && decide ((b - a).toNat < 2 ^ 31)

/-- Is an id among the 16 most recently issued? -/
def Chan.inWindow (c : Chan) (id : BitVec 32) : Bool := decide (1 ≤ (c.next - id).toNat) && decide ((c.next - id).toNat ≤ 16)

/-- Completed transfers outside the status window are forgotten. -/
def Chan.trim (c : Chan) : Chan := { c with xfers := c.xfers.filter fun x => x.outstanding || c.inWindow x.id }

def Desc.zero : Desc := ⟨0, 0, 0, 1, 1, 0, 0, 0, 0, 0, 0⟩

/-- A transfer just started. -/
def Transfer.start (id : BitVec 32) (form : CopyForm) : Transfer where
  id := id
  st := .active
  pads := 0
  token := none
  form := form
  off := false
  desc := Desc.zero
  size := 0
  buf := []
  got := 0
  put := 0
  pois := 0
  mirrored := 0
  handles := []
  pages := []
  counted := false
  src := none
  srcDone := false
  srcVoid := false
  srcPoison := false
  tag := 0
  bo := 0
  tval := 0
  order := 0
  again := 0
  second := []
  walk := none

/-- The channel's next id goes to a transfer (R216), which is held where an earlier one is stopped by a fault or held
(R217). -/
def Chan.add (c : Chan) (x : Transfer) : Chan :=
  let x := if c.xfers.any fun y => y.faulted || y.st == .held then { x with st := .held } else x
  ({ c with next := c.next + 1, xfers := c.xfers ++ [x] }).trim

def Block.setChan (b : Block) (n : Fin 5) (c : Chan) : Block := { b with chans := b.chans.set n c }

/-! ## Homes and dropped hints (R158, R221, R230, R231, R279) -/

/-- The home cluster of a line (R230, R231). -/
def homeOf (p : Partition) (pa : Nat) : Nat :=
  if pa < 0x58_0000_0000 then pa / 2 ^ 32
  else p.clusters.getD (pa / 4096 % 2 ^ 36 % max 1 p.clusters.length) 0

/-- MPSTAT.HDROP counts a dropped hint. -/
def Core.dropHint (c : Core) : Core := { c with hdrop := if c.hdrop = 0xFFFFFFFF then c.hdrop else c.hdrop + 1 }

def dropHint (s : State) : State := s.setCore s.blk.core (s.core s.blk.core).dropHint

/-! ## Umber (R272 to R280) -/

/-- The stage of a block. -/
def State.stageOf (s : State) (b : Block) : Option Stage := (s.launch? b.launch).bind (·.stages[b.stage]?)

def State.timetable (s : State) (b : Block) : List TtEntry := ((s.stageOf b).map (·.tt)).getD []

/-- A list of counters with one set. -/
def setCount (l : List Nat) (j v : Nat) : List Nat :=
  (List.range (max l.length (j + 1))).map fun i => if i = j then v % 2 ^ 32 else l.getD i 0

/-- An entry that is never checked (R274). -/
def TtEntry.unchecked (e : TtEntry) : Bool := e.need == 0x7FFFFFFF

/-- Firing n of entry j. -/
def isFiring (j n : Nat) (x : Transfer) : Bool := x.desc.param.toNat == j && x.desc.param2.toNat == n

/-- STATE of R277 where the check of an entry misses. -/
def checkMiss (b : Block) (j : Nat) : Option Nat :=
  let c := b.ttC.getD j 0
  if b.ttF.getD j 0 = c then some 0
  else match b.chans[4].xfers.find? (isFiring j c) with
    | none => none
    | some x => if x.st = .done then none else some x.st.code.toNat

/-- The first entry that misses at a MARK of stream w, with its STATE (R276, R277). -/
def timetableMiss (b : Block) (w marker : Nat) (tt : List TtEntry) : Option (Nat × Nat) :=
  tt.zipIdx.findSome? fun (e, j) =>
    if e.stream ≠ w then none
    else if e.need = marker ∧ !e.unchecked then (checkMiss b j).map (j, ·)
    else if e.trig = marker ∧ !e.unchecked ∧ (b.ttF.getD j 0 + 2 ^ 32 - b.ttC.getD j 0) % 2 ^ 32 = 4 then some (j, 2)
    else none

/-- A passed check: C grows, and the firing is forgotten. -/
def passCheck (b : Block) (j : Nat) : Block :=
  let n := b.ttC.getD j 0
  let c := b.chans[4]
  { b with ttC := setCount b.ttC j (n + 1) }.setChan 4 { c with xfers := c.xfers.filter fun x => !isFiring j n x }

/-- A step of an address, with its relocation (R275). -/
def stepped (b : Block) (x step : Word) (n : Nat) (r : Option (Fin 16)) : Word :=
  x + BitVec.ofNat 64 n * step + (match r with | some k => b.reloc[k] | none => 0)

/-- The 64-byte lines of a source range, as physical line numbers, or none where a page is unmapped or protected; its
translations are at hand. A line of the program text has no physical address in the model. -/
def rangeLines (s : State) (b : Block) (va : Word) (len : Nat) : Option (List Nat) :=
  let first := va.toNat / 64
  let count := (va.toNat % 64 + len + 63) / 64
  (List.range count).foldl (fun acc i =>
    acc.bind fun l => match translate s b (BitVec.ofNat 64 (64 * (first + i))) .load with
      | .ok (.phys pa) | .ok (.lease pa) => some (l ++ [pa / 64])
      | .ok (.text _) => some l
      | _ => none) (some [])

/-- Release the holds on a range's lines, for the block's partition (R275 kind 3); a bad range is a dropped hint. -/
def releaseHolds (s : State) (va : Word) (len : Nat) : State :=
  match rangeLines s s.blk va len with
  | none => dropHint s
  | some lines => { s with holds := s.holds.filter fun h =>
      !(lines.contains h.1 && ((s.launch? h.2).map (·.part) == some s.blk.part)) }

/-- Fire move F(j) of an entry (R275, R276). A release counts as complete at once; the holds go once the translations of its
range are at hand. -/
def fireMove (s : State) (j : Nat) (e : TtEntry) : State :=
  let b := s.blk
  let n := b.ttF.getD j 0
  let src := stepped b e.src e.sstep n e.rsrc
  let form : CopyForm :=
    if e.kind = 1 then .toItem .d1 ⟨0, e.dst.toNat % 512, e.dst.extractLsb' 16 16 + BitVec.ofNat 16 n, e.dst.extractLsb' 32 4,
      BitVec.ofNat 10 b.core⟩ 0 true
    else .mem .d1
  let x := { Transfer.start b.chans[4].next form with
    size := e.len
    desc := { Desc.zero with
      src := src, dst := if e.kind = 0 then stepped b e.dst e.dstep n e.rdst else 0, len := e.len,
      param := BitVec.ofNat 64 j, param2 := BitVec.ofNat 64 n } }
  let c := b.chans[4]
  let put (x : Transfer) : State := s.setBlk
    ({ b with ttF := setCount b.ttF j (n + 1) }.setChan 4 { c with next := c.next + 1, xfers := c.xfers ++ [x] })
  if e.kind = 3 then
    let t := put { x with st := .done }
    let c := t.core b.core
    t.setCore b.core { c with hints := c.hints ++
      [⟨s.cur.b, .release, src &&& ~~~63#64, 64, (src.toNat % 64 + e.len + 63) / 64, 0, none⟩] }
  else put x

/-- Completed firings of entries that are never checked are forgotten. -/
def dropUnchecked (b : Block) (tt : List TtEntry) : Block :=
  let c := b.chans[4]
  b.setChan 4 { c with xfers := c.xfers.filter fun x =>
    x.st == .active || !((tt[x.desc.param.toNat]?.map (·.unchecked)).getD true) }

/-- The timetable effects of a MARK that issues (R276). -/
def markEffects (s : State) (w marker : Nat) : State :=
  let tt := s.timetable s.blk
  let mine := tt.zipIdx.filter fun p => p.1.stream == w
  let b := (mine.filter fun p => p.1.need == marker && !p.1.unchecked).foldl (fun b p => passCheck b p.2) (dropUnchecked s.blk tt)
  (mine.filter fun p => p.1.trig == marker).foldl (fun s p => fireMove s p.2 p.1) (s.setBlk b)

/-- TVAL of a SCHMISS (R277). -/
def missWord (miss : Nat × Nat) (mark : BitVec 32) : Word :=
  BitVec.ofNat 64 (miss.1 * 2 ^ 40 + miss.2 * 2 ^ 32 + mark.toNat)

/-! ## The replay record (R334, R336) -/

/-- The record of the block as it stands; vector registers are dead and not part of it. -/
def Block.record (b : Block) (agents : Vector Agent 5) (now : Word) : Replay where
  agents := agents.map fun a => { a with v := Vector.replicate 16 0, vPoison := 0 }
  ports := b.ports
  chans := b.chans
  mig := b.mig
  reloc := b.reloc
  ttF := b.ttF
  ttC := b.ttC
  tiles := []
  pad := Store.empty
  tick := now

/-- The agents of the block in focus, with the one in focus up to date. -/
def State.agentVec (s : State) : Vector Agent 5 := s.blk.agents.set (s.cur.w % 5) s.ag (Nat.mod_lt _ (by decide))

/-- The boundary is reached: the record is written, and the operator's failures are forgotten. -/
def commitOperator (s : State) : State :=
  s.setBlk { s.blk with replay := some (s.blk.record s.agentVec s.tbase), replaying := false, failures := 0, claimed := [] }

/-- Banks, scratchpad and vector registers in launch state, for the child's next slice or a replay (R335, R336). -/
def Block.scrubbed (b : Block) : Block :=
  { b with tiles := [], accs := [], pad := Store.empty, savedTiles := [], savedAccs := [], savedVecs := [],
           agents := b.agents.map fun a => { a with v := Vector.replicate 16 0, vPoison := 0 } }

/-! ## The home-biased return (R312) -/

/-- The class a block stands on, and the class it calls home (true: Ochre). -/
def Block.away (b : Block) : Bool := isOchre b.core != b.mig.homec

/-- Where a return would go: the launch core if it is free, else by R255 (R305, R312). -/
def homeTarget (s : State) : Option Nat :=
  let b := s.blk
  let l := freeCores s (s.part b.part) b.launch (some s.cur.b) (some b.mig.homec)
  if l.contains b.mig.lcore.toNat then some b.mig.lcore.toNat else chooseCore s (s.part b.part) l

/-- A MARK of the block has issued. -/
def testHome (s : State) : State :=
  let b := s.blk
  if b.mig.hb && b.away && !b.mig.pin && !anyRegion s && !moveRefused s b.mig.homec then
    match homeTarget s with
    | some c => s.setBlk { b with migrating := some c, trigger := none, migChecked := false }
    | none => s
  else s

/-! ## The end of a block (R111, R226, R258, R300) -/

/-- The done values that no FPOP has claimed leave a block's port 0, now that a point is left again (notes/assumptions/48.md). -/
def withdrawDone (b : Block) : Block :=
  let p := b.ports[0]
  b.setPort 0 { p with res := p.res.take p.resClaims ++ (p.res.drop p.resClaims).filter fun e => e.1 != BitVec.allOnes 64 }

/-- Points posted and not claimed go back to the walker with their hand-out indices (R258). -/
def returnPoints (s : State) : State :=
  let b := s.blk
  let unclaimed := (b.ports[0].res.drop b.ports[0].resClaims).map (·.1)
  match s.launch? b.launch with
  | none => s
  | some l =>
    let back (w : Walker) : Walker :=
      let mine := w.handed.filter fun h => h.block == s.cur.b && unclaimed.contains h.point && !h.reported
      { w with handed := w.handed.filter (fun h => !(h.block == s.cur.b && unclaimed.contains h.point && !h.reported)),
               returned := w.returned ++ mine.map fun h => (h.idx, h.point) }
    let s := if unclaimed.all (· == BitVec.allOnes 64) then s
      else { s with blocks := s.blocks.map fun p =>
        (p.1, if p.2.launch = b.launch ∧ p.2.stage = b.stage then withdrawDone p.2 else p.2) }
    s.setLaunch b.launch { l with stages := l.stages.modify b.stage fun st => { st with walker := st.walker.map back } }

/-- SCOUNT of a block's streams joins its launch's sum for the bucket's stage (R300). -/
def countSlips (s : State) (b : Block) (agents : List Agent) : State :=
  match s.launch? b.launch with
  | none => s
  | some l => match l.bucket with
    | some (st, _, _) =>
      if st = b.stage then
        s.setLaunch b.launch { l with slips := l.slips + ((agents.take 4).map fun a => a.ctl.tslip.scount.toNat).sum }
      else s
    | none => s

def addSlips (s : State) : State := countSlips s s.blk s.agentList

/-- The block leaves its core's context slot (R226). -/
def leaveSlot (s : State) : State :=
  let b := s.blk
  let c := (s.core b.core).dropSlot b.slot
  s.setCore b.core { c with slots := c.slots.set (b.slot % 4) none (Nat.mod_lt _ (by decide)),
                            ctxv := putBit c.ctxv (b.slot % 4) false }

/-- Umber's moves into items go with the block's banks. -/
def dropItemMoves (b : Block) : Block :=
  let c := b.chans[4]
  b.setChan 4 { c with xfers := c.xfers.filter fun x => match x.form with | .toItem .. => false | _ => true }

/-- Every agent of the block has executed EXIT. -/
def endBlock (s : State) : State :=
  let s := addSlips (returnPoints (leaveSlot s))
  { s with requests := s.requests.filter fun r => r.block != some s.cur.b }.setBlk
    { dropItemMoves s.blk with status := .ended }

def Agent.gone (a : Agent) : Bool := a.run == .exited || a.run == .noProgram

/-- The vector results that a unit holds for the agent in focus are discarded (R79). -/
def dropResults (s : State) : State :=
  let c := s.core s.blk.core
  let drop (j : Option Job) : Option Job :=
    j.map fun x => if x.block = s.cur.b ∧ x.agent = s.cur.w then { x with results := [] } else x
  s.setCore s.blk.core { c with matrix := drop c.matrix, tile := drop c.tile }

/-- EXIT's effect on the agent, and on the block when it is the last. -/
def exitAgent (s : State) : State :=
  let a := { s.ag with run := .exited, latches := [], pend := [], ready := [], stopped := none, stoppedIn := none,
                       ctl := { s.ag.ctl with tslip := s.ag.ctl.tslip.close false } }
  let s := dropResults (s.setAg a)
  if s.agentList.all (·.gone) then endBlock s else s

end Sys2Proof.Machine
end

