-- ==== Sys2Proof/Machine/Boundary.lean ====
section
/-! DEFINITION. The word boundaries of a stream: where an interrupt or a TSLIPT is taken (R84, R89, R289), and the interlock
cycles of the word at EPC, which pass before a trap (R147). -/

namespace Sys2Proof.Machine

/-- Does the word whose access or unit walks load (R89, R289)? -/
def loadWalks (a : Agent) : Bool :=
  match a.long with
  | some l => l.isGather
  | none => match a.walk with
    | some k => k.access.isSome && k.use == .load
    | none => true

/-- A walk before the word's own effect: a fetch, or the first unit of a TSTA or TGATH. -/
def walkBefore (a : Agent) : Bool :=
  match a.walk with
  | some k => k.access.isNone && a.long.isNone
  | none => false

/-- May an interrupt or a TSLIPT be taken now: the stream stands at a word boundary, or waits for a load's
translation? -/
def atBoundary (s : State) : Bool :=
  let a := s.ag
  a.run == .running && a.trap.isNone && a.nan.isNone && a.spoiled.isNone && s.blk.status == .running && s.blk.migrating.isNone &&
    !held s && a.rep != some 0 && (walkBefore a || loadWalks a) && s.cur.w < 4

/-- A word as the core would fetch it, its translation at hand or not. -/
def wordAt (s : State) (va : Word) : Option Word :=
  match fetchTr s s.blk va with
  | .ok l => some (BitVec.ofNat 64 (readLoc s l 8).1)
  | _ => none

/-- Would R78 interlock an instruction of the word next to issue? -/
def wouldWait (s : State) (i : Instr) : Bool :=
  (checks i s).isNone && !absentOn (isOchre s.blk.core) i && ((markRegs i s).all fun r => !s.ag.pend.contains r) && !ctlPending i s &&
    (latchedDest i s || (!s.ag.poisoned (.p s.cur.hdr.g) && guardTrue s.ag s.cur.hdr && interlocked i s))

/-- Would R78 interlock the word at the program counter? -/
def nextInterlocked (s : State) : Bool :=
  match wordAt s s.ag.pc with
  | none => false
  | some raw =>
    match decode s.isMP raw (if raw.getLsbD 52 then (wordAt s (s.ag.pc + 8)).getD 0 else 0) with
    | .error _ => false
    | .ok l =>
      let s := { s with cur := { s.cur with hdr := l.hdr } }
      match l.body with
      | .one i => wouldWait s i
      | .pair sh vh => wouldWait s sh || wouldWait s vh

/-- The interlock cycles before the word at EPC pass before the trap: it would issue after them (R147). -/
def passInterlocks : Nat → State → State
  | 0, s => s
  | n + 1, s => if nextInterlocked s then passInterlocks n (s.setAg s.ag.tick) else s

/-- A trap whose EPC is the next word: no latch that lands before that word would issue goes to the frame (R147). Where a
mark is pending, TRAP_ENTRY sees to it. -/
def raiseNext (s : State) (code : BitVec 8) (isAsync : Bool) (epc tval : Word) : State :=
  let s := if s.ag.pend.isEmpty && s.ag.walk.isNone && s.cur.w != 4 then passInterlocks 12 s else s
  raiseAt s code isAsync epc tval (s.ag.rep.getD 0)

end Sys2Proof.Machine
end

