-- ==== Sys2Proof/Machine/Move.lean ====
section
/-! DEFINITION. The MOVE format: the issue moves of the MP's copies, waits and hints
(spec/10_movement_processor_and_copies.md R207 to R222), and where a copy's byte lies (R150, R174, R210, R309). -/

namespace Sys2Proof.Machine

/-! ## Where a byte of a copy lies (R210) -/

inductive Place where
  | data (off : Nat) | side (off : Nat) | acc (off : Nat) | pad (off : Nat)
  /-- The scratchpad of the block that runs on another core. -/
  | other (b off : Nat)
  | text (off : Nat)
  | phys (pa : Nat)
  deriving DecidableEq, Repr

/-- The block that runs on a core. -/
def runningOn (s : State) (core : Nat) : Option (Nat × Block) :=
  (s.core core).slots.toList.findSome? fun x => x.bind fun id =>
    (getKey s.blocks id).bind fun b => if b.status = .running then some (id, b) else none

/-- A byte of the block's own window (R150, R174). -/
def ownPlace (b : Block) (o : Nat) : Option Place :=
  if o < 0x100000 then some (.data o)
  else if o < 0x110000 then some (.side (o - 0x100000))
  else if o < 0x120000 then none
  else if o < 0x160000 then some (.acc (o - 0x120000))
  else if o < 0x200000 then none
  else if o < 0x400000 ∧ (o - 0x200000) / 256 < b.sprows then some (.pad (o - 0x200000))
  else none

/-- A byte of another core's window: the scratchpad rows of the block running there (R174, R210). -/
def otherPlace (s : State) (b : Block) (va : Word) : Option Place :=
  let core := va.toNat / 2 ^ 24 % 2 ^ 24
  let o := windowOff va
  if 0x200000 ≤ o ∧ o < 0x400000 ∧ core < 1024 ∧ (s.part b.part).cores.contains core then
    match runningOn s core with
    | some (id, x) => if (o - 0x200000) / 256 < x.sprows then some (.other id (o - 0x200000)) else none
    | none => none
  else none

/-- A byte of a window address (R150, R210). Only the block's own agents reach its window by its launch core's (R309), so
a move of Umber does not (`mp` false). -/
def windowPlace (s : State) (b : Block) (mp : Bool) (va : Word) : Option Place :=
  if if mp then ownWindow b va else windowCore va == b.core then ownPlace b (windowOff va) else otherPlace s b va

/-- What the address of a byte of a copy answers. -/
inductive PlaceTr where
  | ok (p : Place)
  | miss
  | fault (code : BitVec 8)
  deriving DecidableEq, Repr

/-- The place of a byte of a data move, when its translation is at hand. -/
def placeOf (s : State) (b : Block) (mp : Bool) (va : Word) (use : Use) : PlaceTr :=
  if !canonical va then .fault cPAGE
  else if inWindow va then
    match windowPlace s b mp va with
    | some p => .ok p
    | none => .fault cPROT
  else match translate s b va use with
    | .ok (.phys pa) | .ok (.lease pa) => .ok (.phys pa)
    | .ok (.text o) => .ok (.text o)
    | .ok (.pad o) => .ok (.pad o)
    | .fault c => .fault c
    | .miss => .miss

/-- A demotion's check of a leaf: the frame alone, and another package's answer (R221, R347). -/
def demoteTr (s : State) (p : Partition) (e : TlbEntry) (va : Word) : PlaceTr :=
  let pa := e.frame * 4096 + va.toNat % (e.pages * 4096)
  if !paAllowed s p pa then .fault cPROT
  else if (routeDown s p pa).isSome then .miss
  else if exported s p pa .load then .ok (.phys pa) else .fault cPROT

/-- What the address of a byte of a hint answers, with the translations at hand. A demotion needs a valid leaf and a frame the
partition may reach, and no permission (R221); a release is Umber's (R275). -/
def hintTr (s : State) (b : Block) (kind : HintKind) (va : Word) : PlaceTr :=
  match kind with
  | .l2 | .lease => placeOf s b true va .load
  | .release => placeOf s b false va .load
  | .demote =>
    if !canonical va then .fault cPAGE
    else if inWindow va then
      match windowPlace s b true va with
      | some p => .ok p
      | none => .fault cPROT
    else match textOffset s b va with
      | some o => .ok (.text o)
      | none => match (s.core b.core).tlb.find? fun e => e.covers b.part va with
        | some e => demoteTr s (s.part b.part) e va
        | none => .miss

/-! ## Descriptors (R207 to R209, R211, R212) -/

/-- A 32-bit field as a signed number. -/
def signed32 (n : Nat) : Int := (BitVec.ofNat 32 n).toInt

/-- The fields of a descriptor and its NEXT. -/
def readDesc (pad : Store) (o : Nat) : Desc × Word :=
  let q (n : Nat) : Nat := pad.readLE (o + n) 8
  let ext := q 0x10
  let ss := q 0x18
  let ds := q 0x20
  (⟨BitVec.ofNat 64 (q 0), BitVec.ofNat 64 (q 8), ext % 2 ^ 32, ext / 2 ^ 32 % 2 ^ 16, ext / 2 ^ 48,
    signed32 (ss % 2 ^ 32), signed32 (ss / 2 ^ 32), signed32 (ds % 2 ^ 32), signed32 (ds / 2 ^ 32),
    BitVec.ofNat 64 (q 0x28), BitVec.ofNat 64 (q 0x30)⟩, BitVec.ofNat 64 (q 0x38))

/-- The extents and the geometry's constraints hold (R208, R211, R212). A PARAM<63:32> or PARAM2 that R212 wants zero is held to
be a constraint of the geometry, so that it raises HBOUND (notes/assumptions/65.md). -/
def Desc.ok (d : Desc) (g : Geo) : Bool :=
  let k := d.im2col
  d.len != 0 && d.ny != 0 && d.nz != 0 &&
  (match g with
    | .d1 => d.ny == 1 && d.nz == 1
    | .d2 => d.nz == 1
    | .d3 => true
    | .im2col => d.nz == 1 && k.n != 0 && k.ow != 0 && k.oh != 0 && k.w != 0 && k.h != 0 && k.ksx != 0 && k.ksy != 0 &&
        k.kw != 0 && k.kh != 0
    | .btsrc | .btdst => d.nz == 1 && d.param >>> 32 == 0 && d.param2 == 0) &&
  decide (d.size g ≤ 1048576)

/-- The descriptor that s[F] names, read and checked in the issue move (R207, R209); `need` is the size that an item
demands. -/
def withDesc (f : SReg) (g : Geo) (need : Option Nat) (s : State) (k : Desc → Word → State → State) : State :=
  let va := s.sReg f
  if !s.ag.accs.isEmpty then s.waits
  else s.checkPoison [.s f] fun s =>
    match ownPad s.blk (va &&& ~~~63#64) with
    | none => s.raise cPROT va
    | some o =>
      if s.blk.sprows ≤ o / 256 then s.raise cPROT va
      else if s.blk.pad.anyPoison (o / 4) 16 then s.raise cPOISON va
      else
        let (d, next) := readDesc s.blk.pad o
        if !d.ok g ∨ (need.isSome ∧ need ≠ some (d.size g)) then s.raise cHBOUND va else k d next s

/-- A channel with room for one more transfer (R215). -/
def withChan (ch : Fin 4) (s : State) (k : Chan → State → State) : State :=
  let c := s.blk.chans[ch.val]
  if c.full then s.waits else k c s

/-- The transfer takes its channel's next id, which s[T] shows when it completes (R216). -/
def startTransfer (ch : Fin 4) (t : SReg) (x : Transfer) (s : State) : State :=
  let c := s.blk.chans[ch.val]
  let b := { s.blk with copies := s.blk.copies + 1 }
  (s.setBlk (b.setChan ⟨ch.val, by omega⟩ (c.add { x with id := c.next, token := some t, order := s.blk.copies }))).setAg
    (s.ag.mark (some (.s t)))

/-- ADV: s[F] becomes NEXT with latency 1 (R209). -/
def advanceDesc (adv : Bool) (f : SReg) (next : Word) (s : State) : State :=
  if adv then s.setAg (s.ag.result1 (.s f) (next.setWidth 2048) false Flags.none) else s

def execCopy (t f : SReg) (ch : Fin 4) (geo : Geo) (adv : Bool) (s : State) : Host.Outcome State Fault Refusal :=
  .next (issueWord (.copy t f ch geo adv) s fun s => withChan ch s fun c s => withDesc f geo none s fun d next s =>
    let x := { Transfer.start c.next (.mem geo) with desc := d, size := d.size geo }
    (advanceDesc adv f next (startTransfer ch t x s)).issued)

/-! ## COPYT (R213, R214, R216, R223) -/

/-- An item operand as the copy's later moves use it. -/
def Agent.item (a : Agent) (o : TileOp) : ItemRef :=
  let h := a.h[o.h]
  let (t, x) := resolve h o.o.val
  ⟨h.cls, t, x, h.q, h.core⟩

/-- The size of an item's image. -/
def imageSize (i : ItemRef) (img : Bool) : Nat := if i.cls = 1 then 4096 else if img then 2304 else 2048

/-- A remote destination lies in the partition and is not the issuing core (R223). -/
def remoteOk (s : State) (i : ItemRef) : Bool :=
  i.cls != 2 || ((s.part s.blk.part).cores.contains i.core.toNat && i.core.toNat != s.blk.core)

def withRemote (i : ItemRef) (s : State) (k : State → State) : State :=
  if remoteOk s i then k s else s.raiseNat cPROT i.core.toNat

/-- The post-advances of the word's items (R214). -/
def advanceItems (l : List TileOp) (s : State) : State := s.setAg (s.ag.advance (advanceSet l))

/-- A COPYT: `go` its transfer when it runs, `off` its transfer when it is guarded off. Its Start follows every earlier
Perform of the MP (R225). -/
def issueCopyt (i : Instr) (s : State) (off go : State → State) : State :=
  let afterAccs (f : State → State) (s : State) : State := if s.ag.accs.isEmpty then f s else s.waits
  issueTile i s (afterAccs off) (afterAccs go)

def execCopytIn (t f : SReg) (ch : Fin 4) (item : TileOp) (tag : BitVec 8) (img : Bool) (bo : Fin 16) (geo : Geo) (adv : Bool)
    (s : State) : Host.Outcome State Fault Refusal :=
  .next (issueCopyt (.copytIn t f ch item tag img bo geo adv) s
    (fun s =>
      let r := s.ag.item item
      withRemote r s fun s => withChan ch s fun c s =>
        let x := { Transfer.start c.next (.toItem geo r tag img) with off := true, bo := bo.val }
        (advanceItems [item] (startTransfer ch t x s)).issued)
    (fun s =>
      let r := s.ag.item item
      withRemote r s fun s => withChan ch s fun c s => withDesc f geo (some (imageSize r img)) s fun d next s =>
        let x := { Transfer.start c.next (.toItem geo r tag img) with desc := d, size := d.size geo, bo := bo.val }
        (advanceDesc adv f next (advanceItems [item] (startTransfer ch t x s))).issued))

def execCopytOut (t f : SReg) (ch : Fin 4) (item : TileOp) (img : Bool) (geo : Geo) (adv : Bool) (s : State) :
    Host.Outcome State Fault Refusal :=
  .next (issueCopyt (.copytOut t f ch item img geo adv) s
    (fun s => withChan ch s fun c s =>
      let x := { Transfer.start c.next (.fromItem geo (s.ag.item item) img) with off := true }
      (advanceItems [item] (startTransfer ch t x s)).issued)
    (fun s =>
      let r := s.ag.item item
      withChan ch s fun c s => withDesc f geo (some (imageSize r img)) s fun d next s =>
        let x := { Transfer.start c.next (.fromItem geo r img) with desc := d, size := d.size geo }
        (advanceDesc adv f next (advanceItems [item] (startTransfer ch t x s))).issued))

def execCopytXfer (t : SReg) (ch : Fin 4) (item src : TileOp) (bo : Fin 16) (adv : Bool) (s : State) :
    Host.Outcome State Fault Refusal :=
  let run (off : Bool) (s : State) : State :=
    let r := s.ag.item item
    withRemote r s fun s => withChan ch s fun c s =>
      let x := { Transfer.start c.next (.xfer (s.ag.item src) r) with off := off, bo := bo.val }
      (advanceItems [item, src] (startTransfer ch t x s)).issued
  .next (issueCopyt (.copytXfer t ch item src bo adv) s (run true) (run false))

/-! ## CWAIT, CSTAT, PREF, MWAIT (R219 to R222) -/

def execCwait (t : SReg) (ch : Fin 4) (s : State) : Host.Outcome State Fault Refusal :=
  .next (issueWord (.cwait t ch) s fun s =>
    if idBefore ((s.sReg t).setWidth 32) s.blk.chans[ch.val].wmark then s.issued else s.waits)

/-- The status word of a transfer id (R215, R220). -/
def Chan.status (c : Chan) (id : BitVec 32) : Word :=
  match c.xfers.find? fun x => x.id == id && c.inWindow id with
  | some x => BitVec.ofNat 64 (2 ^ 63 + x.st.code.toNat * 2 ^ 48 + min x.pads 65535 * 2 ^ 32 + id.toNat)
  | none => id.setWidth 64

def execCstat (t f : SReg) (ch : Fin 4) (s : State) : Host.Outcome State Fault Refusal :=
  .next (issueWord (.cstat t f ch) s fun s =>
    s.putS t (s.blk.chans[ch.val].status ((s.sReg f).setWidth 32)) [.s f])

/-- The addresses of a hint, one in each piece of its range, which lies in one page. -/
def Hint.places (h : Hint) : List Word := (List.range h.count).map fun i => h.va + BitVec.ofNat 64 (h.size * i)

/-- The first of some addresses that no agent may reach, or the first without a translation at hand. -/
def hintFault (s : State) (b : Block) (h : Hint) : Bool :=
  h.places.any fun va => match hintTr s b h.kind va with | .fault _ => true | _ => false
def hintMiss (s : State) (b : Block) (h : Hint) : Option Word := h.places.find? fun va => hintTr s b h.kind va == .miss

/-- A hint issues at once. It is dropped where its scalar is poisoned or a piece of its range is known to be out of reach; it
goes on in steps of its own where translations are missing or lines are to come into the lease cache (R221, R236). -/
def hint (i : Instr) (f : SReg) (len1 : BitVec 12) (kind : HintKind) (s : State) : State :=
  issueWord i s fun s =>
    let h : Hint := ⟨s.cur.b, kind, s.sReg f &&& ~~~255#64, 256, len1.toNat + 1, 0, none⟩
    if s.ag.poisoned (.s f) || hintFault s s.blk h then (dropHint s).issued
    else if kind != .lease && (hintMiss s s.blk h).isNone then s.issued
    else
      let c := s.core s.blk.core
      (s.setCore s.blk.core { c with hints := c.hints ++ [h] }).issued

def execPrefL2 (f : SReg) (len1 : BitVec 12) (s : State) : Host.Outcome State Fault Refusal :=
  .next (hint (.prefL2 f len1) f len1 .l2 s)

/-- Lines of LEASE pages enter the core's lease cache, as the home holds them (R241). -/
def execPrefLease (f : SReg) (len1 : BitVec 12) (s : State) : Host.Outcome State Fault Refusal :=
  .next (hint (.prefLease f len1) f len1 .lease s)

def execPrefDemote (f : SReg) (len1 : BitVec 12) (s : State) : Host.Outcome State Fault Refusal :=
  .next (hint (.prefDemote f len1) f len1 .demote s)

def execMwait (p : PReg) (all : Bool) (chans : BitVec 4) (mbox : Bool) (s : State) : Host.Outcome State Fault Refusal :=
  .next (issueWord (.mwait p all chans mbox) s fun s =>
    let box := s.blk.ports[3].cmdReady
    let idle (n : Nat) : Bool := match s.blk.chans[n]? with
      | some c => !c.busy
      | none => true
    let tests := (if mbox then [box] else []) ++ ((List.range 4).filter chans.getLsbD).map idle
    if tests.isEmpty || (if all then tests.all id else tests.any id) then s.putP p box [] else s.waits)

end Sys2Proof.Machine
end

