-- ==== Sys2Proof/Machine/Works.lean ====
section
/-! DEFINITION. The data of an item after its count: the words that wait for it, the units of the long tile words, and an
abandoned one (spec/08_core_tile_store_and_counts.md R164, R175, spec/09_tile_and_matrix_instructions.md R185 to R191). -/

namespace Sys2Proof.Machine

/-! ## What a word that waits for data computes (R164, R185) -/

/-- The computation of a TILE word that may take its move before the data of its items. -/
def tileComp (i : Instr) (m : MaskCounts) : Items → State → TileOut :=
  match i with
  | .tmov .. => moveTile
  | .tadd _ _ _ tm => elemComp tm false addOp m
  | .tmul _ _ _ tm => elemComp tm false mulOp m
  | .tmax _ _ _ tm => elemComp tm false maxOp m
  | .tscal _ _ _ tm => elemComp tm true mulOp m
  | .ttrn .. => trnComp
  | .tred _ _ tm => redComp tm m
  | .tacc _ _ _ z tm => accComp tm z m
  | .mmbi _ _ _ _ z tm => matrixComp specMmbi tm z m
  | .mmf _ _ _ _ z tm => matrixComp specMmf tm z m
  | .mmf32 _ _ _ _ z tm => matrixComp specMmf32 tm z m
  | .mmd _ _ _ _ z tm => matrixComp specMmd tm z m
  | .tcvt _ _ tag part merge sat tm => cvtOut merge (cvtComp tm tag part.val merge sat) m
  | .tcvtPageAppend _ _ tag slot sat tm => cvtOut true (pageComp tm tag slot.val sat) m
  | _ => fun _ _ => .res TileRes.plain false

/-- Every item the word reads is produced. -/
def Work.ready (w : Work) : Bool := w.srcs.all (!·.waits) && !(readsPrev w.i && w.prev.waits)

/-- A content put into its register, for a computation. -/
def Block.putContent (b : Block) (r : Nat) (c : Content) : Block :=
  match c with
  | .tile t => b.setTile r t
  | .acc x _ => b.setAcc (r - 512) x

/-- The partner of an accumulator, for a pair. -/
def Block.putPartner (b : Block) (r : Nat) (c : Content) : Block :=
  match c with
  | .tile _ => b
  | .acc _ y => b.setAcc (r - 512 + 1) y

/-- The state as the word found it at its issue, with the data its items have come to hold: an item itself stands above the
partner of another. Its checks are behind it, so the die class and the feature mask no longer count. -/
def Work.view (w : Work) (s : State) : State :=
  let items := w.srcs ++ [w.prev]
  let b := items.foldl (fun b x => b.putPartner x.reg x.val) { s.blk with core := 0, isa := BitVec.allOnes 64 }
  { s with
    blk := items.foldl (fun b x => b.putContent x.reg x.val) b
    ag := { s.ag with ctl := w.ctl } }

def Content.md : Content → Meta
  | .tile t => t.md
  | .acc a _ => a.md

/-- The word's result, and whether its generation is void. -/
def Work.result (w : Work) (s : State) : TileRes × Bool :=
  let void := w.void || w.srcs.any (·.val.md.void)
  let poison := w.srcs.any (·.val.md.poison)
  match tileComp w.i (maskCounts w.mask) w.items (w.view s) with
  | .res r v => ({ r with poison := r.poison || poison }, void || v)
  | _ => ({ TileRes.plain with poison := poison }, void)

/-- A content with the counts that its register has come to have; where TSETC has written the metadata since the move, that
word stands, with the V or P that the data has brought besides (R175, R176, R181, R189). -/
def Content.recount (c : Content) (m : Meta) (edited : Option (Bool × Bool)) : Content :=
  let f (x : Meta) : Meta := match edited with
    | none => { x with wc := m.wc, q := m.q, rc := m.rc }
    | some (v, p) => { m with void := m.void || (x.void && !v), poison := m.poison || (x.poison && !p) }
  match c with
  | .tile t => .tile { t with md := f t.md, filling := false, edited := none }
  | .acc a b =>
    .acc { a with md := f a.md, filling := false, edited := none } { b with md := f b.md, filling := false, edited := none }

/-- The V and P of a register's move, where TSETC has written its metadata since. -/
def Block.edited (b : Block) (r : Nat) : Option (Bool × Bool) :=
  if r < 512 then (b.tile r).edited else (b.acc (r - 512)).edited

/-- A generation's data is produced: its register takes it while it still holds that generation, and so does every word
and copy admitted to read it (R164). -/
def Block.supplyOne (b : Block) (r : Nat) (x : BitVec 16) (c : Content) : Block :=
  let fill (y : Source) : Source := if y.waits && y.reg == r && y.gen == x then { y with waits := false, val := c } else y
  let b := if b.filling r && (b.md r).wc == x then
      match c.recount (b.md r) (b.edited r) with
      | .tile t => b.setTile r t
      | .acc a _ => b.setAcc (r - 512) a
    else b
  { b with
    works := b.works.map fun w => { w with srcs := w.srcs.map fill, prev := fill w.prev }
    chans := b.chans.map fun k => { k with xfers := k.xfers.map fun t => { t with src := t.src.map fill } } }

/-- The same for a pair of accumulators, of which a reader may name either (R153). -/
def Block.supply (b : Block) (r : Nat) (x : BitVec 16) (c : Content) (pair : Bool) : Block :=
  let b := b.supplyOne r x c
  match c, pair with
  | .acc _ y, true => b.supplyOne (r + 1) x (.acc y y)
  | _, _ => b

/-- An update of an agent of the block in focus. -/
def State.updAgent (s : State) (w : Nat) (f : Agent → Agent) : State :=
  if w = s.cur.w then s.setAg (f s.ag)
  else s.setBlk { s.blk with agents := s.blk.agents.set (w % 5) (f (s.blk.agents[w % 5]'(Nat.mod_lt _ (by decide)))) (Nat.mod_lt _ (by decide)) }

/-- The data of a check operation has come (R167, R188, R189, R190). An item that has come to be void, or poisoned, moves
nothing; poison is raised at the stream's next word (notes/assumptions/66.md). -/
def finishCheck (w : Work) (s : State) : State :=
  let src := w.srcs.headD ⟨0, 0, false, .tile Tile.reset⟩
  let none_ := src.val.md.void || src.val.md.poison
  s.updAgent w.agent fun a =>
    let a := if src.val.md.poison then { a with spoiled := some src.reg }
      else if src.val.md.void then { a with ctl := { a.ctl with vs := true } } else a
    match w.i, src.val with
    | .ttov _ z, .tile t =>
      { a with ready := a.ready ++ (tileRows t.data z).map fun r => if none_ then { r with lanes := 0 } else r }
    | .tsts .., .tile t =>
      let mine (x : Access) : Bool := x.kind == .rowsLate src.reg src.gen
      { a with accs := if none_ then a.accs.filter fun x => !mine x
                       else a.accs.map fun x => if mine x then { x with kind := .rows (tileImage t) } else x }
    | .tsta .., .acc x y =>
      match w.long with
      | some l =>
        if none_ then longPass (a.advance l.advance) l
        else
          let v := x.data.toNat + if l.tag = 0x40 then 2 ^ 32768 * y.data.toNat else 0
          { a with long := some { l with data := BitVec.ofNat 65536 v } }
      | none => a
    | _, _ => a

/-- The word's data is complete: its generation, its flags, SSTAT.VS where it has come to be void, and the report of R186. -/
def finishWork (w : Work) (s : State) : State :=
  if isCheckOp w.i then finishCheck w s
  else
  let (r, void) := w.result s
  let d := w.items.d
  let v := w.view s
  let c := (v.blk.writeItem d void r.poison r).content d.r
  let s := s.setBlk (s.blk.supply d.r d.x c r.pair)
  s.updAgent w.agent fun a =>
    let a := if void then a else a.addFlags r.flags
    let a := if void && !w.void && w.agent != 4 then { a with ctl := { a.ctl with vs := true } } else a
    match if w.hold && !void then r.nan else none with
    | some n => { a with nan := some (nanReport r n d.r w.epc) }
    | none => a

/-- Every word whose items are produced completes; its own data may complete others. -/
def settleWorks : Nat → State → State
  | 0, s => s
  | n + 1, s =>
    match s.blk.works.find? (·.ready) with
    | none => s
    | some w => settleWorks n (finishWork w (s.setBlk { s.blk with works := s.blk.works.erase w }))

/-- A generation is produced. -/
def produced (r : Nat) (x : BitVec 16) (c : Content) (s : State) : State :=
  let s := s.setBlk (s.blk.supply r x c false)
  settleWorks s.blk.works.length s

/-! ## Units of long tile words (R175) -/

/-- The last unit is complete: the generation's data, post-advances, PIDX 0, and the next word (R169, R175). -/
def longDone (s : State) (l : Long) : State :=
  let s := if hasDest l.i then produced l.reg l.gen (.tile { l.tile with filling := false }) s else s
  s.setAg (longPass (s.ag.advance l.advance) l)

/-- A unit has completed. -/
def unitDone (s : State) (l : Long) : State :=
  if l.last ≤ l.unit then longDone s l
  else s.setAg { s.ag with long := some { l with unit := l.unit + 1, first := none, begun := true } }

/-- A fault at a unit stops the word, with PROG at the unit (R175, R190). -/
def longStop (s : State) (l : Long) (code : BitVec 8) (va : Word) : State :=
  let a := s.ag
  raiseAt (s.setAg { (a.setRecord (some l)) with
    long := none, walk := none, ctl := { a.ctl with prog := BitVec.ofNat 16 l.unit } }) code false l.pc va (a.rep.getD 0)

/-- One image row enters the item. The side-band comes as it stands (notes/assumptions/51.md), and poison of any granule of a
row counts, also in the ignored bytes of the last (notes/assumptions/65.md). -/
def tldsUnit (s : State) (l : Long) : State :=
  let off := 256 * (l.base.toNat + l.unit)
  if s.blk.sprows * 256 ≤ off then longStop s l cPROT (padVa s.blk off)
  else
    let (v, p) := readLoc s (.pad off) 256
    let t := { l.tile with md := { l.tile.md with poison := l.tile.md.poison || p } }
    unitDone s { l with
      tile := if l.unit < 8 then { t with data := putBits t.data (2048 * l.unit) 2048 v } else { t with side := BitVec.ofNat 1024 v } }

/-- A place some bytes before. -/
def Loc.back (l : Loc) (n : Nat) : Loc :=
  match l with
  | .pad o => .pad (o - n)
  | .text o => .text (o - n)
  | .phys pa => .phys (pa - n)
  | .lease pa => .lease (pa - n)

/-- Write one byte. -/
def writeByteAt (s : State) (l : Loc) (v : Byte) : State :=
  match l with
  | .pad o => s.setBlk { s.blk with pad := s.blk.pad.writeByte o v }
  | .text _ => s
  | .phys pa | .lease pa => s.write pa 1 fun m => m.writeByte pa v

/-- The enabled bytes of the active columns of a row: bytes on the first page from the first place, the others from the
last. -/
def storeRow (l : Long) (va : Word) (row n : Nat) (a b : Loc) (s : State) : State :=
  (List.range n).foldl (fun s k =>
    if l.enables.testBit (k % accSize l.tag) then
      writeByteAt s (if (va + BitVec.ofNat 64 k) >>> 12 = va >>> 12 then a.plus k else b.back (n - 1 - k))
        (BitVec.ofNat 8 (row / 2 ^ (8 * k)))
    else s) s

def tstaUnit (s : State) (l : Long) : State :=
  let e := accSize l.tag
  let va := l.base + BitVec.ofNat 64 (l.unit * l.stride)
  let n := l.cols * e
  let row := l.data.toNat / 2 ^ (256 * e * l.unit) % 2 ^ (256 * e)
  let put (a b : Loc) : State :=
    withLocRoute s a fun s => withLocRoute s b fun s => unitDone (storeRow l va row n a b s) l
  match l.first with
  | some (a, b) => put a b
  | none => match spanOf s va n .store with
    | .miss va => walkForLong s l va .store
    | .fault c va => longStop s l c va
    | .ok a b => put a b

def tgathUnit (s : State) (l : Long) : State :=
  let va := l.rowVa l.unit
  let put (a : Loc) : State := withLocRoute s a fun s =>
    let (v, p) := readLoc s a 64
    let t := l.tile
    unitDone (s.snoopLoc a 64) { l with
      tile := { t with md := { t.md with poison := t.md.poison || p }, data := putBits t.data (512 * l.unit) 512 v } }
  match l.first with
  | some (a, _) => put a
  | none => match translate s s.blk va .load with
    | .miss => walkForLong s l va .load
    | .fault c => longStop s l c va
    | .ok a => put a

/-- A unit of a long tile word needs the tile unit, which a word that waited for its data may have to take again (R185). -/
def withUnit (l : Long) (s : State) (f : State → State) : State :=
  match (s.core s.blk.core).tile with
  | some j => if j.block = s.cur.b ∧ j.agent = s.cur.w then f s else s
  | none => f (occupy l.i ⟨s.cur.b, s.cur.w, [l.reg], Flags.none, [], false, none⟩ s)

/-- One unit of the long instruction that an agent has in progress (R132, R175); its accesses follow every earlier one
of the agent. -/
def longUnit (s : State) : State :=
  match s.ag.long with
  | none => s
  | some l =>
    if s.ag.walk.isSome ∨ !s.ag.accs.isEmpty then s
    else
      match l.i with
      | .tlds .. => if l.last < l.unit then longDone s l else withUnit l s fun s => s.atHome fun s => tldsUnit s l
      | .tsta .. => if l.last < l.unit then longDone s l else withUnit l s fun s => s.atHome fun s => tstaUnit s l
      | .tgath .. => if l.last < l.unit then longDone s l else withUnit l s fun s => s.atHome fun s => tgathUnit s l
      | _ => gatherUnit s l

/-- The agent has a long tile word in progress. -/
def Agent.longTile (a : Agent) : Bool := a.long.any fun l => match l.i with
  | .tlds .. | .tsta .. | .tgath .. => true
  | _ => false

/-- Does a word keep its unit: a long word until its last unit, and a word whose data is not complete while the data still
comes (R185)? One that waits for a stopped long word, whose resumption needs the unit, keeps it no longer
(notes/assumptions/67.md). -/
def Block.keepsUnit (b : Block) (j : Job) (matrix : Bool) : Bool :=
  (!matrix && (b.agents[j.agent % 5]'(Nat.mod_lt _ (by decide))).longTile) ||
  ((b.works.any fun w => w.agent == j.agent && onMatrix w.i == matrix && (w.items.src ++ w.items.dst.toList).map (·.r) == j.regs) &&
    b.agents.toList.any (·.longTile))

/-! ## An abandoned long word (R175) -/

/-- The generation that a stopped TLDS or TGATH leaves becomes void, and its post-advances are applied. -/
def abandonLong (l : Long) (s : State) : State :=
  let s := s.setAg (s.ag.advance l.advance)
  if hasDest l.i then
    produced l.reg l.gen (.tile { s.blk.tile l.reg with md := { l.tile.md with void := true } }) s
  else s

/-- Every stopped word of the agent but the one that the word at issue resumes is abandoned. -/
def abandonStopped (keep : Long → Bool) (s : State) : State :=
  let drop (x : Option Long) : Option Long := x.filter fun l => !keep l
  let gone := (drop s.ag.stopped).toList ++ (drop s.ag.stoppedIn).toList
  gone.foldl (fun s l => abandonLong l s)
    (s.setAg { s.ag with stopped := s.ag.stopped.filter keep, stoppedIn := s.ag.stoppedIn.filter keep })

end Sys2Proof.Machine
end

