-- ==== Sys2Proof/Machine/StreamEvents.lean ====
section
/-! DEFINITION. The moves of an agent other than Issue: Perform, Deliver, units, walks, traps and interrupts, and the
claim of a bank (spec/04_stream_execution.md R84, R86, R89, R90, spec/08 R172, spec/09 R185, spec/13 R234 to R236,
spec/10 R206, R217). -/

namespace Sys2Proof.Machine

/-! ## Perform (R90, R97, R101, R103, R130, R189) -/

/-- What an atomic writes, or none (R101). -/
def atomNew (op : AtomOp) (old y cmp : Word) : Option Word :=
  match op with
  | .add => some (old + y)
  | .min => some (smin old y)
  | .max => some (smax old y)
  | .and => some (old &&& y)
  | .or => some (old ||| y)
  | .xor => some (old ^^^ y)
  | .swp => some y
  | .cas => if old = cmp then some y else none

/-- A result of an access, to be delivered. -/
def State.answer (s : State) (r : RegName) (v : VWord) (lanes : Word) (poison : Bool) : State :=
  s.setAg { s.ag with ready := s.ag.ready ++ [⟨r, v, lanes, poison⟩] }

/-- The atomic's read and write in one step. -/
def performAtomic (s : State) (l : Loc) (op : AtomOp) (d : SReg) (y cmp : Word) (yp cp : Bool) : State :=
  let (o, p) := readLoc s l 8
  let old : Word := BitVec.ofNat 64 o
  let s := s.snoopLoc l 8
  let s := if p then s else match atomNew op old y cmp with
    | some v => writeLoc s l 2 v.toNat (yp || (op == .cas && cp))
    | none => s
  s.answer (.s d) (old.setWidth 2048) (BitVec.allOnes 64) p

/-- An element pushed by a stream, or by the MP on its side of the mailbox. -/
def performPush (s : State) (n : Fin 4) (v : Word) : State :=
  let p := s.blk.ports[n]
  s.setBlk (s.blk.setPort n
    (if s.isMP then { p with res := p.res ++ [(v, false)], resSlots := p.resSlots - 1 }
     else { p with cmd := p.cmd ++ [v], cmdSlots := p.cmdSlots - 1 }))

/-- The oldest element of a port leaves it, whichever FPOP had claimed it at its issue: where pops of several streams perform
in another order than they issued, R103 has them served in the order in which they perform (notes/assumptions/65.md). A point
of port 0 counts as claimed since the boundary (R336). -/
def performPop (s : State) (n : Fin 4) (d : SReg) : State :=
  let p := s.blk.ports[n]
  if s.isMP then
    match p.cmd with
    | [] => s
    | v :: r => (s.setBlk (s.blk.setPort n { p with cmd := r, cmdClaims := p.cmdClaims - 1 })).answer (.s d)
        (v.setWidth 2048) (BitVec.allOnes 64) false
  else
    match p.res with
    | [] => s
    | (v, q) :: r =>
      let b := s.blk.setPort n { p with res := r, resClaims := p.resClaims - 1 }
      (s.setBlk (if n = 0 then { b with claimed := b.claimed ++ [v] } else b)).answer (.s d)
        (v.setWidth 2048) (BitVec.allOnes 64) q

/-- One access takes effect. -/
def performAccess (s : State) (x : Access) : State :=
  match x.kind with
  | .load d =>
    let (t, v, p) := loadFrom s x.loc 8 3
    t.answer (.s d) (BitVec.ofNat 2048 v) (BitVec.allOnes 64) p
  | .store v p => s.atHome fun s => writeLoc s x.loc 2 v.toNat p
  | .atomic op d y cmp yp cp => s.atHome fun s => performAtomic s x.loc op d y cmp yp cp
  | .vload d mask old =>
    let (t, v, p) := loadFrom s x.loc 256 mask.toNat
    t.answer (.v d) (BitVec.ofNat 2048 v) mask (p || old)
  | .vstore v mask p => s.atHome fun s => writeLocLanes s x.loc mask.toNat v.toNat p
  | .rowsLate .. => s
  | .rows v => s.atHome fun s => writeLoc s x.loc 576 v.toNat false
  | .push n v => s.atHome fun s => performPush s n v
  | .pop n d => s.atHome fun s => performPop s n d

def execPerform (b w : Nat) (s : State) : Host.Outcome State Fault Refusal :=
  .next (withAgent s b w fun s =>
    match s.ag.accs with
    | [] => s
    | ⟨.rowsLate .., _⟩ :: _ => s
    | x :: r =>
      withLocRoute s x.loc fun s => performAccess (s.setAg { s.ag with accs := r }) x)

/-! ## Deliver, latches, units (R76, R77, R90, R175, R185, R186) -/

def execDeliver (b w k : Nat) (s : State) : Host.Outcome State Fault Refusal :=
  .next (withAgent s b w fun s =>
    match s.ag.ready[k]? with
    | none => s
    | some x => s.setAg ({ s.ag with ready := s.ag.ready.eraseIdx k }.deliver x))

/-- Latches land when the counter reaches their tag, with no choice of the machine's (R90): the step that moves the
counter lands them, and this one lands none that it has not reached. -/
def execLatchLand (b w : Nat) (s : State) : Host.Outcome State Fault Refusal :=
  .next (withAgent s b w fun s => s.setAg s.ag.land)

/-- The unit is free again, once the word no longer keeps it; the word's flags, its vector results and its NaN report come to the agent. -/
def jobDone (j : Job) (s : State) : State :=
  s.setAg { (s.ag.addFlags j.flags) with
    ready := s.ag.ready ++ j.results, nan := match j.report with | some r => some r | none => s.ag.nan }

def execTileDataComplete (core : Nat) (matrix : Bool) (s : State) : Host.Outcome State Fault Refusal :=
  .next (match (s.core core).unit matrix with
    | none => s
    | some j =>
      if (s.block j.block).keepsUnit j matrix then s
      else withAgent (s.setCore core ((s.core core).setUnit matrix none)) j.block j.agent (jobDone j))

/-- NANTRAP of a word whose data has come to be complete (R186). -/
def execNantrap (b w : Nat) (s : State) : Host.Outcome State Fault Refusal :=
  .next (withAgent s b w fun s =>
    match s.ag.nan with
    | none => s
    | some r =>
      let a := { s.ag with nan := none, ctl := { s.ag.ctl with ncoord := r.coord, nidx := r.idx, nfmt := r.fmt } }
      raiseNext (s.setAg a) cNANTRAP false r.epc r.tval)

def execLongUnitComplete (b w : Nat) (s : State) : Host.Outcome State Fault Refusal :=
  .next (withAgent s b w longUnit)

/-! ## Walks (R89, R234 to R236) -/

/-- Every walk of the core to the same page takes part in the entry read (R236). -/
def shareRead (s : State) (y : EngWalk) : State :=
  let mine (va : Word) (found : Option WalkEnd) : Bool := pageNo va == pageNo y.va && found.isNone
  let join (k : Walk) : Walk :=
    if mine k.va k.found then { k with level := y.level, table := y.table, found := y.found } else k
  let joinEng (k : EngWalk) : EngWalk :=
    if mine k.va k.found then { k with level := y.level, table := y.table, found := y.found } else k
  let b := { s.blk with
    agents := s.blk.agents.map fun a => { a with walk := a.walk.map join }
    chans := s.blk.chans.map fun c => { c with xfers := c.xfers.map fun x => { x with walk := x.walk.map joinEng } } }
  let c := s.core s.blk.core
  let s := (s.setBlk b).setAg { s.ag with walk := s.ag.walk.map join }
  if c.hints.isEmpty then s
  else s.setCore b.core { c with hints := c.hints.map fun h => { h with walk := h.walk.map joinEng } }

/-- A miss of the core reads one entry, once the cluster's walker has taken it (R236): the state, and the walk then. -/
def readEntry (s : State) (k : EngWalk) : State × EngWalk :=
  if mayWalk s k.va then
    let r := readStep s (s.part s.blk.part) k
    (shareRead r.1 r.2, r.2)
  else (joinWalks s k.va, k)

def execWalkEntryRead (b w : Nat) (s : State) : Host.Outcome State Fault Refusal :=
  .next (withAgent s b w fun s =>
    match s.ag.walk with
    | some k => if k.found.isNone then (readEntry s ⟨s.blk.part, k.va, k.level, k.table, none, walkRoot (s.part s.blk.part)⟩).1 else s
    | none => s)

/-- The word whose access walked passes, unless an interrupt has let it pass already. -/
def Agent.passWalk (a : Agent) (k : Walk) : Agent :=
  if a.trap.isSome then a else (if k.use = .load then a else a.keepSlip).pass k.w k.next

/-- A walk ends in a fault. -/
def walkFault (s : State) (k : Walk) (c : BitVec 8) : State :=
  let a := { s.ag with walk := none }
  match k.access, a.long with
  | none, none => raiseAt (s.setAg a) c false k.pc k.va (a.rep.getD 0)
  | none, some l => match l.i with
    | .vgath .. | .vscat .. => gatherFault (s.setAg a) l c k.va
    | _ => longStop (s.setAg a) l c k.va
  | some _, _ =>
    if k.spec then s.setAg ((specResult a k.reg).passWalk k)
    else
      let a := match k.reg with
        | some r => { a with pend := a.pend.erase r }
        | none => a
      if a.trap.isSome then s.setAg { a with shadow := some ⟨k.pc, k.va, c, k.w, k.rep⟩ }
      else raiseAt (s.setAg a) c false k.pc k.va (a.rep.getD 0)

/-- The core caches a translation. -/
def Core.cache (c : Core) (e : TlbEntry) : Core :=
  { c with tlb := e :: c.tlb.filter fun x => !(x.part == e.part && x.vpn == e.vpn && x.pages == e.pages) }

/-- A walk ends in a translation. -/
def walkLeaf (s : State) (k : Walk) (e : TlbEntry) : State :=
  match leased e k.use (checkLeaf s (s.part s.blk.part) e k.va k.use) with
  | .ok l =>
    let s := s.setCore s.blk.core ((s.core s.blk.core).cache e)
    let a := { s.ag with walk := none }
    match k.access with
    | none => s.setAg a
    | some x =>
      let y : Access := ⟨x.kind, l.alignDown x.kind.align⟩
      s.setAg ({ a with accs := a.accs ++ [y] }.passWalk k)
  | .fault c => walkFault s k c
  | .miss => stallLeaf s (s.part s.blk.part) e k.va

def execWalkComplete (b w : Nat) (s : State) : Host.Outcome State Fault Refusal :=
  .next (withAgent s b w fun s =>
    match s.ag.walk with
    | some k => match k.found with
      | some (.leaf e) => walkLeaf s k e
      | some .page => walkFault s k cPAGE
      | none => s
    | none => s)

/-- A lease lapses (R241). -/
def execLeaseLapse (core line : Nat) (s : State) : Host.Outcome State Fault Refusal :=
  .next (let c := s.core core
    if c.leases.any (·.line == line) then s.setCore core { c with leases := c.leases.filter (·.line != line) } else s)

/-! ## Trap entry and interrupts (R84, R86, R89, R286 to R290) -/

/-- The pending marks are clear and no translation is open. The interlock cycles of the word at EPC pass first (R147), but for
a shadow fault: the load then issues again before that word, and its sources are those it had (R89 step 3). -/
def execTrapEntry (b w : Nat) (s : State) : Host.Outcome State Fault Refusal :=
  .next (withAgent s b w fun s =>
    match s.ag.trap with
    | some t => if s.ag.pend.isEmpty && s.ag.walk.isNone && s.ag.long.isNone then
        enterTrap (if s.ag.shadow.isSome then s else passInterlocks 12 s) t false
      else s
    | none => s)

/-- Line 0 is sampled (R84). -/
def execTimerCompare (b w : Nat) (s : State) : Host.Outcome State Fault Refusal :=
  .next (withAgent s b w fun s => s.setCtl { s.ag.ctl with line0 := timerDue s.tbase s.ag.ctl })

/-- Take a trap between words: a walk that no effect has followed is dropped, a word that waits for a load's translation
passes first. -/
def takeBetween (s : State) (code : BitVec 8) (isAsync : Bool) (tval : Word) : State :=
  let a := s.ag
  let a := match a.long, a.walk with
    | some l, _ => a.pass l.w l.next
    | none, some k => if walkBefore a then { a with walk := none } else a.pass k.w k.next
    | none, none => a
  raiseNext (s.setAg a) code isAsync a.pc tval

/-- The lowest pending and enabled line. -/
def acceptable (s : State) : Option Nat :=
  let x := ipend s.blk s.cur.w s.ag.ctl &&& s.ag.ctl.imask
  (List.range 8).find? x.getLsbD

/-- An accepted event line is no longer pending (R259). -/
def Ctl.acceptLine (c : Ctl) (n : Nat) : Ctl :=
  if n = 5 then { c with line5 := false } else if n = 6 then { c with line6 := false } else c

def execInterruptAccept (b w : Nat) (s : State) : Host.Outcome State Fault Refusal :=
  .next (withAgent s b w fun s =>
    if atBoundary s && s.ag.ctl.ie && !s.ag.ctl.inh && s.ag.ctl.tslip.region.isNone then
      match acceptable s with
      | some n => takeBetween (s.setCtl (s.ag.ctl.acceptLine n)) (if n = 0 then cTIMER else cINTERRUPT) true (BitVec.ofNat 64 n)
      | none => s
    else s)

def execTslipt (b w : Nat) (s : State) : Host.Outcome State Fault Refusal :=
  .next (withAgent s b w fun s =>
    match slipDue s.ag.ctl.tslip with
    | some v => if atBoundary s then takeBetween s cTSLIPT false (v.setWidth 64) else s
    | none => s)

/-! ## The MP's stop (R206, R217) -/

/-- The MP stops at a word boundary for its oldest faulted transfer. -/
def execMpTrap (b : Nat) (s : State) : Host.Outcome State Fault Refusal :=
  .next (withAgent s b 4 fun s =>
    match oldestFault s.blk with
    | some (n, x) =>
      if s.ag.run == .running && s.ag.walk.isNone then
        s.setAg { s.ag with run := .mpStopped,
                            ctl := { s.ag.ctl with tcause := causeWord x.st.code false false, epc := s.ag.pc, tval := x.tval,
                                                   mptxid := BitVec.ofNat 64 (n * 2 ^ 32 + x.id.toNat) } }
      else s
    | none => s)

/-! ## Claims (R172) -/

/-- The block's agents as a list, none in focus. -/
def Block.agentList (b : Block) : List Agent := b.agents.toList

/-- Does the word at which an agent of the block stands access the bank? A pair of halves names a vector register of the
vector bank, and BANKSV and BANKLD name their bank (R119, R172). -/
def wordWants (a : Agent) (w : Nat) (l : Line) (kind bank : Nat) : Bool :=
  let on := guardTrue a l.hdr
  match l.body with
  | .pair sh vh => (banksOf w a sh (!on) ++ banksOf w a vh (!on)).contains (kind, bank)
  | .one i => (banksOf w a i (!on)).contains (kind, bank) || (on && match i with
    | .banksv n k | .bankld n k => k.val == kind && n.val == bank
    | _ => false)

/-- The block accesses the bank: the next word of a running agent does, or a copy in progress. -/
def wantsBank (s : State) (b : Block) (kind bank : Nat) : Bool :=
  (b.agents.toList.zipIdx.any fun p => p.1.run == .running &&
    match peek s b p.2 p.1.pc with
    | some l => wordWants p.1 p.2 l kind bank
    | none => false) ||
  b.chans.toList.any fun c => c.xfers.any fun x => copyWants b x kind bank

/-- A bank that is live for another slot passes to the running context that accesses it, once no instruction or copy of its owner holds
an item of it. -/
def claimBank (s : State) (id kind bank : Nat) (b : Block) : State :=
  let c := s.core b.core
  let o := c.bankOwner kind bank
  if b.status = .running ∧ c.bankLive kind bank ∧ o ≠ b.slot ∧ wantsBank s b kind bank then
    match (c.slots[o]?).join with
    | none => s.setCore b.core (c.setBank kind bank b.slot true)
    | some oid =>
      let ob := s.block oid
      if oid = id ∨ bankHeld s b.core oid ob ob.agentList kind bank then s
      else
        let a := ob.agents[bank % 5]'(Nat.mod_lt _ (by decide))
        (s.setBlock oid (ob.saveBank kind bank (a.v, a.vPoison))).setCore b.core (c.setBank kind bank b.slot true)
  else s

def execBankClaim (b : Nat) (kind : Fin 3) (bank : Nat) (s : State) : Host.Outcome State Fault Refusal :=
  .next (match getKey s.blocks b with
    | none => s
    | some x => if bank < (if kind = 2 then 4 else 8) then claimBank s b kind.val bank x else s)

end Sys2Proof.Machine
end

