-- ==== Sys2Proof/Machine/Copies.lean ====
section
/-! DEFINITION. The moves of transfers: Copy read, Data read, Data write, Copy write, Remote accept, Complete
(spec/10_movement_processor_and_copies.md R208 to R217, R223 to R225, spec/08 R170, R171, spec/16 R293 to R298). -/

namespace Sys2Proof.Machine

/-! ## A transfer in focus -/

def Chan.update (c : Chan) (x : Transfer) : Chan := { c with xfers := c.xfers.map fun y => if y.id = x.id then x else y }

def putXfer (s : State) (ch : Fin 5) (x : Transfer) : State := s.setBlk (s.blk.setChan ch (s.blk.chans[ch].update x))

/-- A transfer of a block in one of some states, with the block's MP in focus. -/
def withXferIn (ok : Progress → Bool) (s : State) (b : Nat) (ch : Fin 5) (id : Nat) (f : Transfer → State → State) : State :=
  withAgent s b 4 fun s =>
    match s.blk.chans[ch].xfers.find? fun x => x.id.toNat == id && ok x.st with
    | some x => s.atHome (f x)
    | none => s

/-- An active transfer of a block. -/
def withXfer (s : State) (b : Nat) (ch : Fin 5) (id : Nat) (f : Transfer → State → State) : State :=
  withXferIn (· == .active) s b ch id f

/-- A transfer fault (R217): the channel's later transfers are held. A move of Umber is complete with its cause (R279). -/
def faultXfer (s : State) (ch : Fin 5) (x : Transfer) (c : BitVec 8) (tval : Word) : State :=
  let s := putXfer s ch { x with st := .faulted c, tval := tval }
  if ch = 4 then s
  else
    let k := s.blk.chans[ch]
    s.setBlk (s.blk.setChan ch { k with xfers := k.xfers.map fun y =>
      if y.st = .active ∧ x.order < y.order then { y with st := .held } else y })

/-- A transfer of a channel has ended: the oldest held one goes on, once no fault and no earlier transfer since that one
stands before it (R217, notes/assumptions/55.md). -/
def Chan.release (c : Chan) (x : Transfer) : Chan :=
  match c.xfers.find? fun y => y.st == .held with
  | none => c
  | some h =>
    if c.xfers.any fun y => y.faulted || (y.outstanding && decide (x.order < y.order) && decide (y.order < h.order)) then c
    else { c with xfers := c.xfers.map fun y => if y.id = h.id then { y with st := .active } else y }

/-- Complete: CODE is set, the token's mark clears with the id in it, WMARK advances (R215, R216, R225). -/
def completeXfer (s : State) (ch : Fin 5) (x : Transfer) (st : Progress) : State :=
  let s := putXfer s ch { x with st := st, buf := [], got := 0, put := 0, pois := 0, mirrored := 0, handles := [], pages := [],
                                 src := none, again := 0, second := [], walk := none }
  let s := s.setBlk (s.blk.setChan ch (s.blk.chans[ch].release x))
  let s := s.setBlk (s.blk.setChan ch (if ch = 4 then s.blk.chans[ch] else s.blk.chans[ch].trim))
  match x.token with
  | some t => s.setAg { (s.ag.setReg (.s t) (x.id.setWidth 2048) false) with pend := s.ag.pend.erase (.s t) }
  | none => s

/-! ## Items and their banks (R162 to R167, R172) -/

/-- The item's bank is claimed, or the move waits. -/
def withItemBank (r : Nat) (s : State) (f : State → State) : State :=
  let (k, b) := bankOfReg r
  match (s.core s.blk.core).claim? s.blk.slot k b with
  | some c => f (s.setCore s.blk.core c)
  | none => s

/-- `n` bytes of a number as a memory from address 0. -/
def bytesOf (v : Nat) : Nat → Nat → Memory → Memory
  | 0, _, m => m
  | n + 1, i, m => bytesOf v n (i + 1) (m.write i (BitVec.ofNat 8 (v / 2 ^ (8 * i))))

/-- The first n bytes of a memory as a number. -/
def natOf (m : Memory) (n : Nat) : Nat := (Store.mk m []).readLE 0 n

def allBytes (n : Nat) : Nat := 2 ^ n - 1

/-- A timetable's move of kind 2. -/
def isHold (s : State) (ch : Fin 5) (x : Transfer) : Bool :=
  ch == 4 && ((s.timetable s.blk)[x.desc.param.toNat]?.map (·.kind)) == some 2

/-! ## COPY_READ (R167, R170, R214) -/

/-- An item's image, from its content (R213). -/
def Content.image : Content → Nat
  | .tile t => (tileImage t).toNat
  | .acc a _ => a.data.toNat

/-- What the copy makes of its source item, once the generation's data is there (R167, R214). -/
def readItem (ch : Fin 5) (x : Transfer) (r : Nat) (c : Content) (s : State) : State :=
  let m := c.md
  let tv : Word := BitVec.ofNat 64 r
  if x.off then putXfer s ch { x with srcDone := true, srcVoid := true, srcPoison := m.poison }
  else if m.poison then faultXfer s ch x cPOISON tv
  else if m.void then putXfer s ch { x with srcDone := true, srcVoid := true }
  else if r ≥ 512 ∧ m.tag = 0x40 then faultXfer s ch x cILLEGAL tv
  else
    let n := if r < 512 then 2304 else 4096
    putXfer s ch { x with srcDone := true, tag := m.tag, buf := bytesOf c.image n 0 [], got := allBytes n }

/-- The read is counted, and the copy observes that generation from now on (R170): its data follows where it is still being
produced. A copy that goes on after a fault reads the register again while it holds the generation. -/
def copyReadGo (ch : Fin 5) (x : Transfer) (r : Nat) (gen : BitVec 16) (s : State) : State :=
  let s := if x.counted then s else s.setBlk (s.blk.setMd r (s.blk.md r).countRead)
  let now := s.blk.source r gen
  let src := if (s.blk.md r).wc = gen then now else x.src.getD now
  let x := { x with counted := true, src := some src }
  if src.waits then putXfer s ch x else readItem ch x r src.val s

def copyRead (ch : Fin 5) (x : Transfer) (i : ItemRef) (s : State) : State :=
  let r := i.reg
  if x.srcDone then s
  else withItemBank r s fun s =>
    if x.counted then copyReadGo ch x r i.x s
    else match readState (s.blk.md r) i.x with
      | .faults => faultXfer s ch x cOVRN (BitVec.ofNat 64 r)
      | .waits => s
      | .ready => copyReadGo ch x r i.x s

def copyReadOf (b : Nat) (ch : Fin 5) (id : Nat) (s : State) : State :=
  withXferIn (fun p => p == .active || p == .held) s b ch id fun x s =>
    match x.form with
    | .fromItem _ i _ => copyRead ch x i s
    | .xfer i _ => copyRead ch x i s
    | _ => s

def execCopyRead (b : Nat) (ch : Fin 5) (id : Nat) (s : State) : Host.Outcome State Fault Refusal :=
  .next (copyReadOf b ch id s)

/-! ## The bytes of one step (R225) -/

/-- What one step moves: the address of its first byte, and its bytes, each as its order number and its place in the aligned
8-byte word. -/
structure CopyStep where
  va : Word
  l : List (Nat × Nat)
  deriving DecidableEq, Repr

/-- The order numbers of a step. -/
def CopyStep.nums (w : CopyStep) : List Nat := w.l.map (·.1)

/-- The address of a byte in a layout without tables. -/
def SidePos.va (p : SidePos) (n : Nat) : Option Word :=
  match p with
  | .mem g => some (g.va + BitVec.ofNat 64 (n - g.start))
  | _ => none

/-- The order numbers among which those of one aligned word lie: in a copy of one row, those beside byte n. -/
def nearBytes (d : Desc) (g : Geo) (size n : Nat) : List Nat :=
  if g ≠ .im2col ∧ d.ny * d.nz = 1 then (List.range (min size (n + 8))).drop (n - 7) else List.range size

/-- The bytes of a side that one step moves with byte n: those that lie in its aligned 8-byte word, whatever rows they belong
to. Where several have one address, a step takes one of each address, in order. -/
def stepAt (pos : Nat → SidePos) (near : List Nat) (n : Nat) : CopyStep :=
  let a := ((pos n).va n).getD 0
  let inWord := near.filterMap fun m => match (pos m).va m with
    | some b => if b.toNat / 8 = a.toNat / 8 then some (m, b) else none
    | none => none
  let rank (q : Nat × Word) : Nat := (inWord.filter fun x => x.2 == q.2 && decide (x.1 < q.1)).length
  let mine := inWord.filter fun q => rank q == rank (n, a)
  ⟨(mine.headD (n, a)).2, mine.map fun q => (q.1, q.2.toNat % 8)⟩

/-- The bytes of a row that lie in one aligned 8-byte word with byte n. -/
def Seg.step (g : Seg) (n : Nat) : CopyStep :=
  let va (k : Nat) : Word := g.va + BitVec.ofNat 64 (k - g.start)
  let mine := ((List.range (min (g.start + g.len) (n + 8))).drop (max g.start (n - 7))).filter fun k =>
    decide ((va k).toNat / 8 = (va n).toNat / 8)
  ⟨va (mine.headD n), mine.map fun k => (k, (va k).toNat % 8)⟩

/-! ## Bytes in their places -/

/-- A byte some places further on, within one aligned 8-byte word. -/
def Place.plus (p : Place) (n : Nat) : Place :=
  match p with
  | .data o => .data (o + n)
  | .side o => .side (o + n)
  | .acc o => .acc (o + n)
  | .pad o => .pad (o + n)
  | .other b o => .other b (o + n)
  | .text o => .text (o + n)
  | .phys pa => .phys (pa + n)

/-- The place of the aligned 8-byte word. -/
def Place.word : Place → Place
  | .data o => .data (o / 8 * 8)
  | .side o => .side (o / 8 * 8)
  | .acc o => .acc (o / 8 * 8)
  | .pad o => .pad (o / 8 * 8)
  | .other b o => .other b (o / 8 * 8)
  | .text o => .text (o / 8 * 8)
  | .phys pa => .phys (pa / 8 * 8)

/-- The item whose storage an address of the own window names. -/
def Place.item : Place → Option Nat
  | .data o => some (o / 2048)
  | .side o => some (o / 128)
  | .acc o => some (512 + o / 4096)
  | _ => none

def byteAt (s : State) : Place → Byte × Bool
  | .data o => ((s.blk.tile (o / 2048)).data.extractLsb' (8 * (o % 2048)) 8, false)
  | .side o => ((s.blk.tile (o / 128)).side.extractLsb' (8 * (o % 128)) 8, false)
  | .acc o => ((s.blk.acc (o / 4096)).data.extractLsb' (8 * (o % 4096)) 8, false)
  | .pad o => (s.blk.pad.byte o, s.blk.pad.granule (o / 4))
  | .other id o => ((s.block id).pad.byte o, (s.block id).pad.granule (o / 4))
  | .text o => let x := textHome s o; (x.1.byte x.2.2, textPoison s o)
  | .phys pa => (s.mem.byte pa, s.mem.granule (pa / 4))

/-- A copy names a bank of the own tile store: it is claimed, or the move waits. -/
def withPlace (p : Place) (s : State) (f : State → State) : State :=
  match p with
  | .phys pa => withRoute s s.blk.part pa f
  | _ => match p.item with
    | some r => withItemBank r s f
    | none => f s

/-- Bytes of one page: their route is taken, or their bank claimed, or the move waits. -/
def withPlaces (l : List Place) (s : State) (f : State → State) : State :=
  match l.head? with
  | some p => withPlace p s f
  | none => f s

/-! ## Block tables (R212, R293 to R296) -/

/-- One entry of the walk for a data move is read; another move finds the translation once the walk has ended (R236). `bad` is
what a walk without a place comes to. -/
def walkXfer (bad : BitVec 8 → State → State) (ch : Fin 5) (x : Transfer) (va : Word) (use : Use) (s : State) : State :=
  let k : EngWalk := match x.walk.filter fun k => pageNo k.va == pageNo va with
    | some k => k
    | none => let at_ := walkStart s va; ⟨s.blk.part, va, at_.1, at_.2, none, walkRoot (s.part s.blk.part)⟩
  let r : State × EngWalk := if k.found.isSome then (s, k) else readEntry (putXfer s ch { x with walk := some k }) k
  match r.2.found with
  | none => putXfer r.1 ch { x with walk := some r.2 }
  | some .page => bad cPAGE (putXfer r.1 ch { x with walk := none })
  | some (.leaf e) =>
    let t := putXfer r.1 ch { x with walk := none }
    match checkLeaf t (t.part t.blk.part) e va use with
    | .fault c => bad c t
    | .miss => stallLeaf (putXfer r.1 ch { x with walk := some r.2 }) (t.part t.blk.part) e va
    | .ok _ => t.setCore t.blk.core ((t.core t.blk.core).cache e)

/-- A data move at an address: it finds the byte's place, faults, or reads an entry of the walk. -/
def withByte (ch : Fin 5) (x : Transfer) (va : Word) (use : Use) (s : State) (go : Place → State → State) : State :=
  match placeOf s s.blk (ch != 4) va use with
  | .ok p => go p s
  | .fault c => faultXfer s ch x c va
  | .miss => walkXfer (fun c s => faultXfer s ch { x with walk := none } c va) ch x va use s

/-- The bytes from an address on, one by one, for a step that reads them all. -/
def withBytes (ch : Fin 5) (x : Transfer) (va : Word) (use : Use) : Nat → State → (List Place → State → State) → State
  | 0, s, go => go [] s
  | n + 1, s, go => withBytes ch x va use n s fun l s => withByte ch x (va + BitVec.ofNat 64 n) use s fun p s => go (l ++ [p]) s

/-- The value of some bytes, and whether a granule is poisoned. -/
def valueAt (s : State) (l : List Place) : Nat × Bool :=
  (l.zipIdx.foldl (fun (acc : Nat × Bool) p =>
    let (v, q) := byteAt s p.1
    (acc.1 + v.toNat * 2 ^ (8 * p.2), acc.2 || q)) (0, false))

/-- The check of R295 on an entry: the page and its mirror. -/
def checkEntry (t : HandleTable) (tenant : BitVec 8) (h w0 w1 : Word) (off len : Nat) (write : Bool) :
    Option (Word × Option Word) :=
  let bound := (h.extractLsb' 0 16).toNat
  let limit := (w1.extractLsb' 48 16).toNat
  let frame := (w0.extractLsb' 16 24).toNat
  let dup := w1.getLsbD 0
  if h.extractLsb' 56 8 ≠ w0.extractLsb' 56 8 ∨ h.extractLsb' 56 8 ≠ tenant then none
  else if h.extractLsb' 40 16 ≠ w0.extractLsb' 40 16 then none
  else if limit = 0 ∨ bound = 0 ∨ limit < bound then none
  else if 64 * bound < off + len then none
  else if 2 ^ t.flog < limit * 64 ∨ t.nframe ≤ frame ∨ w1.extractLsb' 2 46 ≠ 0 then none
  else if dup ∧ t.mpool = 0 then none
  else if write ∧ w1.getLsbD 1 then none
  else
    let o := BitVec.ofNat 64 (frame * 2 ^ t.flog)
    some (t.pool + o, if dup then some (t.mpool + o) else none)

/-- A device step that reads bytes of memory has the host give up their lines (R247). -/
def snoopPlaces (l : List Place) (s : State) : State :=
  l.foldl (fun s p => match p with | .phys pa => s.snoop pa 1 | _ => s) s

/-- The address of a row's entry: in the table, or in its second copy (R293, R298). -/
def entryAddr (t : HandleTable) (x : Transfer) (row i : Nat) : Word :=
  if x.second.contains row then t.tbl2 + BitVec.ofNat 64 (16 * i) else t.addr + BitVec.ofNat 64 (64 + 16 * i)

/-- One step of the dereference of row y: the handle first, then the table's entry, then its second copy. -/
def derefRow (ch : Fin 5) (x : Transfer) (base : Word) (row : Nat) (write : Bool) (s : State) : State :=
  match getKey x.handles row with
  | none =>
    let va := base + BitVec.ofNat 64 (8 * row)
    withBytes ch x va .load 8 s fun l s => withPlaces l s fun s =>
      let (v, p) := valueAt s l
      if p then faultXfer (snoopPlaces l s) ch x cPOISON va
      else putXfer (snoopPlaces l s) ch { x with handles := putKey x.handles row (BitVec.ofNat 64 v) }
  | some h =>
    match (s.part s.blk.part).table with
    | none => faultXfer s ch x cKVFAULT h
    | some t =>
      let i := (h.extractLsb' 16 24).toNat
      if t.nent ≤ i then faultXfer s ch x cKVFAULT h
      else withBytes ch x (entryAddr t x row i) .load 16 s fun l s => withPlaces l s fun s =>
        let (w0, p) := valueAt s (l.take 8)
        let (w1, q) := valueAt s (l.drop 8)
        let s := snoopPlaces l s
        if p || q then
          if t.tbl2 = 0 ∨ x.second.contains row then
            faultXfer s ch x cPOISON (t.addr + BitVec.ofNat 64 (64 + 16 * i))
          else putXfer s ch { x with second := row :: x.second }
        else
          match checkEntry t s.blk.tenant h (BitVec.ofNat 64 w0) (BitVec.ofNat 64 w1) (x.desc.param.toNat % 2 ^ 32) x.desc.len write with
          | none => faultXfer s ch x cKVFAULT h
          | some pg => putXfer s ch { x with pages := putKey x.pages row pg }

/-- A byte written with its granule's poison; a write to the tile store changes data alone (R210, R249). -/
def putByte (s : State) (p : Place) (v : Byte) (q : Bool) : State :=
  let st (m : Store) (o : Nat) : Store := (m.setByte o v).setGranule (o / 4) q
  match p with
  | .data o =>
    let t := s.blk.tile (o / 2048)
    s.setBlk (s.blk.setTile (o / 2048) { t with data := putBits t.data (8 * (o % 2048)) 8 v.toNat })
  | .side o =>
    let t := s.blk.tile (o / 128)
    s.setBlk (s.blk.setTile (o / 128) { t with side := putBits t.side (8 * (o % 128)) 8 v.toNat })
  | .acc o =>
    let a := s.blk.acc (o / 4096)
    s.setBlk (s.blk.setAcc (o / 4096) { a with data := putBits a.data (8 * (o % 4096)) 8 v.toNat })
  | .pad o => s.setBlk { s.blk with pad := st s.blk.pad o }
  | .other id o => let b := s.block id; s.setBlock id { b with pad := st b.pad o }
  | .text _ => s
  | .phys pa => s.write pa 1 fun m => st m pa

/-! ## DATA_READ (R210, R217, R225, R249, R296) -/

/-- Bytes arrive, each with its order number and whether its granule is poisoned. -/
def arrive (x : Transfer) (l : List (Nat × (Byte × Bool))) : Transfer :=
  let buf := l.foldl (fun (m : Memory) p => m.write p.1 p.2.1) x.buf
  { x with buf := buf, pois := x.pois ||| bitsOf ((l.filter (·.2.2)).map (·.1)), got := x.got ||| bitsOf (l.map (·.1)) }

/-- A tag byte that is not valid faults when it is read (R213). -/
def badImageTag (x : Transfer) (l : List (Nat × (Byte × Bool))) : Option Nat :=
  match x.form with
  | .toItem _ i _ true => if l.any fun p => p.1 == 2176 && !tagValid p.2.1.toNat then some i.t else none
  | _ => none

/-- Bytes that arrived, or the fault of an invalid tag among them. -/
def settleRead (ch : Fin 5) (x y : Transfer) (l : List (Nat × (Byte × Bool))) (s : State) : State :=
  match badImageTag x l with
  | some t => faultXfer s ch x cILLEGAL (BitVec.ofNat 64 t)
  | none => putXfer s ch (arrive y l)

/-- The bytes of a step at a place in their word. -/
def CopyStep.read (w : CopyStep) (s : State) (p : Place) : List (Nat × (Byte × Bool)) :=
  w.l.map fun q => (q.1, byteAt s (p.word.plus q.2))

/-- The bytes of a step read at a place: those that are not poisoned, or have no mirror, arrive; the others wait for a step
at the mirror (R296). -/
def takeRun (ch : Fin 5) (x : Transfer) (p : Place) (w : CopyStep) (mirror : Bool) (s : State) : State :=
  let l := w.read s p
  let wait := (l.filter fun q => q.2.2 && mirror).map (·.1)
  settleRead ch x { x with again := x.again ||| bitsOf wait } (l.filter fun q => !(q.2.2 && mirror)) s

/-- The bytes of a step that wait for the mirror are read there; Weld counts the event (R296, R298). -/
def takeMirror (ch : Fin 5) (x : Transfer) (p : Place) (w : CopyStep) (s : State) : State :=
  let l := (w.read s p).filter fun q => x.again.testBit q.1
  settleRead ch x { x with again := x.again ^^^ bitsOf (l.map (·.1)) } l { s with mirrorReads := s.mirrorReads + 1 }

/-- One source word is read. Bytes of a void item move nothing, those of a poisoned one fault (R167). -/
def readRun (ch : Fin 5) (x : Transfer) (w : CopyStep) (mirror : Option CopyStep) (n : Nat) (s : State) : State :=
  let places (v : CopyStep) (p : Place) : List Place := v.l.map fun q => p.word.plus q.2
  match mirror, x.again.testBit n with
  | some m, true => withByte ch x m.va .load s fun p s => withPlace p s fun s =>
    takeMirror ch x p m (snoopPlaces (places m p) s)
  | _, _ => withByte ch x w.va .load s fun p s => withPlace p s fun s =>
    let md := match p.item with
      | some r => s.blk.md r
      | none => Meta.reset 0
    if md.poison then faultXfer s ch x cPOISON (BitVec.ofNat 64 ((p.item).getD 0))
    else if md.void then
      putXfer s ch { x with got := x.got ||| bitsOf w.nums, put := x.put ||| bitsOf w.nums }
    else takeRun ch x p w mirror.isSome (snoopPlaces (places w p) s)

/-- The page side of a row, once it is dereferenced. -/
def pageSeg (x : Transfer) (pg : Word × Option Word) (row : Nat) : Seg × Option Word :=
  let off := BitVec.ofNat 64 (x.desc.param.toNat % 2 ^ 32)
  (⟨pg.1 + off, row * x.desc.len, x.desc.len⟩, pg.2.map (· + off))

/-- A row of a .btdst copy between places in memory reads nothing before its check (R295). Where the destination is an item, the
geometry gives the source alone, as .2d, and there is no page (R208, R213). -/
def unchecked (x : Transfer) (g : Geo) (n : Nat) : Option Nat :=
  match x.form, g, dstPos x.desc g n with
  | .mem _, .btdst, .table _ row _ => if (getKey x.pages row).isNone then some row else none
  | _, _, _ => none

/-- The step that reads byte n in memory without a table: in a .btdst copy, rows are read one by one, each after its check. -/
def sourceStep (x : Transfer) (g : Geo) (seg : Seg) (n : Nat) : CopyStep :=
  match x.form, g with
  | .mem _, .btdst => seg.step n
  | _, _ => stepAt (srcPos x.desc g) (nearBytes x.desc g x.size n) n

def dataRead (ch : Fin 5) (x : Transfer) (g : Geo) (n : Nat) (s : State) : State :=
  match unchecked x g n with
  | some row => derefRow ch x x.desc.dst row true s
  | none =>
  match srcPos x.desc g n with
  | .mem seg => readRun ch x (sourceStep x g seg n) none n s
  | .pad v _ => settleRead ch x x [(n, (v, false))] s
  | .table base row _ =>
    match getKey x.pages row with
    | none => derefRow ch x base row false s
    | some pg =>
      let (seg, m) := pageSeg x pg row
      readRun ch x (seg.step n) (m.map fun va => { seg with va := va }.step n) n s

def execDataRead (b : Nat) (ch : Fin 5) (id n : Nat) (s : State) : Host.Outcome State Fault Refusal :=
  .next (withXfer s b ch id fun x s =>
    match x.form.srcGeo with
    | none => s
    | some g => if x.off || isHold s ch x || decide (x.size ≤ n) || x.got.testBit n then s else dataRead ch x g n s)

/-! ## DATA_WRITE (R210, R217, R225, R249, R296) -/

/-- The poison a granule takes: whether a byte that the step writes into it came from a poisoned granule. -/
def granulePoison (x : Transfer) (w : CopyStep) (off : Nat) : Bool :=
  w.l.any fun q => q.2 / 4 == off / 4 && x.pois.testBit q.1

/-- Does byte n lie in a pad row of an im2col copy (R211)? -/
def inPadRow (x : Transfer) (n : Nat) : Bool :=
  match x.form.srcGeo with
  | some g => match srcPos x.desc g n with | .pad _ row => row | _ => false
  | none => false

/-- The pad rows that are written whole once the bytes of `after` are, and were not with those of `before` (R211, R215). -/
def padRows (x : Transfer) (l : List Nat) (before after : Nat) : Nat :=
  let len := max 1 ((x.form.srcGeo.map x.desc.rowLen).getD 1)
  let whole (bits row : Nat) : Bool := bits / 2 ^ (row * len) % 2 ^ len == 2 ^ len - 1
  let rows := ((l.filter (inPadRow x)).map (· / len)).dedup
  (rows.filter fun r => whole after r && !whole before r).length

/-- One destination word is written at one of its places. -/
def writeRun (ch : Fin 5) (x : Transfer) (w : CopyStep) (done : Transfer → Nat → Transfer) (s : State) : State :=
  withByte ch x w.va .store s fun p s => withPlace p s fun s =>
    let s := w.l.foldl (fun s q =>
      if x.put.testBit q.1 then s
      else putByte s (p.word.plus q.2) (x.buf.read q.1) (granulePoison x w q.2)) s
    let y := done x (bitsOf w.nums)
    putXfer s ch { y with pads := y.pads + padRows x w.nums x.put y.put }

def written (x : Transfer) (bits : Nat) : Transfer := { x with put := x.put ||| bits }
def half (x : Transfer) (bits : Nat) : Transfer := { x with mirrored := x.mirrored ||| bits }

def dataWrite (ch : Fin 5) (x : Transfer) (g : Geo) (n : Nat) (s : State) : State :=
  let have_ (w : CopyStep) : Bool := w.nums.all x.got.testBit
  match dstPos x.desc g n with
  | .mem _ =>
    let w := stepAt (dstPos x.desc g) (nearBytes x.desc g x.size n) n
    if have_ w then writeRun ch x w written s else s
  | .pad _ _ => s
  | .table base row _ =>
    match getKey x.pages row with
    | none => derefRow ch x base row true s
    | some pg =>
      let (seg, m) := pageSeg x pg row
      let w := seg.step n
      if have_ w then
        match m with
        | none => writeRun ch x w written s
        | some va =>
          if x.mirrored.testBit n then writeRun ch x ({ seg with va := va }.step n) written s else writeRun ch x w half s
      else s

def execDataWrite (b : Nat) (ch : Fin 5) (id n : Nat) (s : State) : Host.Outcome State Fault Refusal :=
  .next (withXfer s b ch id fun x s =>
    match x.form.dstGeo with
    | none => s
    | some g =>
      if x.off || x.srcVoid || isHold s ch x || decide (x.size ≤ n) || x.put.testBit n then s
      else dataWrite ch x g n s)

/-! ## COPY_WRITE (R163, R166, R170, R213, R214) -/

/-- What an item receives, with its destination, once every byte has been read. -/
def arrived (x : Transfer) : Option ItemRef :=
  match x.form with
  | .toItem _ i _ _ => if x.off || x.got == allBytes x.size then some i else none
  | .xfer _ i => if x.srcDone then some i else none
  | _ => none

/-- The write is void. -/
def Transfer.writesVoid (x : Transfer) : Bool := x.off || x.srcVoid

/-- The poison of the item written (R166). -/
def Transfer.writesPoison (x : Transfer) : Bool := x.srcPoison || x.pois != 0

/-- Data, side-band and tag of the item written (R213). -/
def itemResult (x : Transfer) (acc : Bool) : TileRes :=
  if acc then { TileRes.plain with data := some (natOf x.buf 4096), tag := some 0x10 }
  else
    let v := natOf x.buf 2304
    let (img, tag) : Bool × BitVec 8 := match x.form with
      | .toItem _ _ tag img => (img, tag)
      | _ => (true, 0)
    { TileRes.plain with
      data := some (v % 2 ^ 16384)
      side := some (if img then BitVec.ofNat 1024 (v / 2 ^ 16384) else 0)
      tag := some (if img then BitVec.ofNat 8 (v / 2 ^ 17408) else tag) }

/-- CODE of a transfer into an item that completes (R215): 2 from a void source. -/
def Transfer.ending (x : Transfer) : Progress := if x.srcVoid && !x.off then .fromVoid else .done

/-- The pad rows that an item's image holds are written with it (R215). -/
def Transfer.padded (x : Transfer) : Transfer := if x.off then x else { x with pads := x.pads + padRows x (List.range x.size) 0 (allBytes x.size) }

/-- The local Copy write, which is the transfer's Complete (R225). -/
def copyWrite (ch : Fin 5) (x : Transfer) (i : ItemRef) (s : State) : State :=
  let r := i.reg
  withItemBank r s fun s =>
    let m := s.blk.md r
    match writeState m i.x with
    | .faults => faultXfer s ch x cDWRT (BitVec.ofNat 64 r)
    | .waits => s
    | .ready =>
      if 512 ≤ r ∧ m.tag = 0x40 ∧ !x.off then faultXfer s ch x cILLEGAL (BitVec.ofNat 64 r)
      else
        let b := s.blk.writeItem ⟨r, i.x, i.q⟩ x.writesVoid x.writesPoison (itemResult x (decide (512 ≤ r)))
        completeXfer (s.setBlk b) ch x.padded x.ending

def execCopyWrite (b : Nat) (ch : Fin 5) (id : Nat) (s : State) : Host.Outcome State Fault Refusal :=
  .next (withXfer s b ch id fun x s =>
    match arrived x with
    | some i => if i.cls = 2 then s else copyWrite ch x i s
    | none => s)

/-! ## Remote writes (R171, R223, R224, R309, R336) -/

/-- The receiving core's decision. -/
inductive Decision where
  | accept (id : Nat)
  | refuse
  | absent
  | twice (same : Bool)
  deriving DecidableEq, Repr

/-- A block other than the one in focus, or the one in focus. -/
def State.blockNow (s : State) (id : Nat) : Block := if id = s.cur.b then s.blk else s.block id

def decideRemote (s : State) (i : ItemRef) : Decision :=
  let c := s.core i.core.toNat
  let bank := i.t / 64
  if !c.bankLive 0 bank then .absent
  else match (c.slots[c.bankOwner 0 bank]?).join with
    | none => .absent
    | some id =>
      let b := s.blockNow id
      if b.launch ≠ s.blk.launch ∨ b.status ≠ .running then .absent
      else
        let m := (b.tile i.t).md
        match distance m.wc (i.x - 1) with
        | .faults => .twice (m.wc == i.x)
        | .waits => .refuse
        | .ready => if m.q ≠ 0 ∧ m.rc < m.q then .refuse else .accept id

/-- The write is not accepted: the channel backs off for 64 × 2^BO ticks. -/
def backOff (ch : Fin 5) (x : Transfer) (s : State) : State :=
  let t := s.tbase.toNat + 64 * 2 ^ x.bo
  s.setBlk (s.blk.setChan ch { s.blk.chans[ch] with resendAt := some t })

/-- The destination of a remote write moved to another core. -/
def moveDest (old new : BitVec 10) (i : ItemRef) : ItemRef := if i.cls = 2 ∧ i.core = old then { i with core := new } else i

/-- A refusal that carries a new core id rewrites the channel's later writes and the MP's handles (R309). -/
def followForward (ch : Fin 5) (x : Transfer) (old new : BitVec 10) (s : State) : State :=
  let fix (y : Transfer) : Transfer :=
    if y.outstanding ∧ x.order ≤ y.order then
      { y with form := match y.form with
        | .toItem g i t img => .toItem g (moveDest old new i) t img
        | .xfer a i => .xfer a (moveDest old new i)
        | f => f }
    else y
  let c := s.blk.chans[ch]
  let s := s.setBlk (s.blk.setChan ch { c with xfers := c.xfers.map fix })
  s.setAg { s.ag with h := s.ag.h.map fun h => if h.cls = 2 ∧ h.core = old then { h with core := new } else h }

/-- The Remote accept, on the receiving block. -/
def acceptRemote (id : Nat) (i : ItemRef) (x : Transfer) (s : State) : State :=
  let s := s.settle i.core.toNat
  let w (b : Block) : Block := b.writeItem ⟨i.t, i.x, i.q⟩ x.writesVoid x.writesPoison (itemResult x false)
  if id = s.cur.b then s.setBlk (w s.blk) else s.setBlock id (w (s.block id))

def remoteArrival (ch : Fin 5) (x : Transfer) (i : ItemRef) (s : State) : State :=
  match decideRemote s i with
  | .accept id => completeXfer (acceptRemote id i x s) ch x.padded x.ending
  | .twice same =>
    if same && s.blk.replaying then completeXfer s ch x x.ending else faultXfer s ch x cDWRT (BitVec.ofNat 64 i.t)
  | .refuse => backOff ch x s
  | .absent =>
    let s := match (s.core i.core.toNat).forwards.find? fun f => f.launch == s.blk.launch with
      | some f => followForward ch x i.core (BitVec.ofNat 10 f.core) s
      | none => s
    backOff ch x s

/-- An earlier remote write of the channel has not been accepted. -/
def earlierRemote (c : Chan) (x : Transfer) : Bool :=
  c.xfers.any fun y => y.outstanding && decide (y.order < x.order) && (match y.form with
    | .toItem _ i _ _ => i.cls == 2
    | .xfer _ i => i.cls == 2
    | _ => false)

def execRemoteWriteArrival (b : Nat) (ch : Fin 4) (id : Nat) (s : State) : Host.Outcome State Fault Refusal :=
  .next (
    let n : Fin 5 := ⟨ch.val, by omega⟩
    withXfer s b n id fun x s =>
      match arrived x with
      | some i =>
        if i.cls ≠ 2 ∨ s.blk.chans[n].resendAt.isSome ∨ earlierRemote s.blk.chans[n] x then s else remoteArrival n x i s
      | none => s)

/-- A transfer goes on from where it stood. -/
def resumeXfer (ch : Fin 5) (x : Transfer) (s : State) : State :=
  let remote : Bool := match x.form with
    | .toItem _ i _ _ | .xfer _ i => i.cls == 2
    | _ => false
  match x.st with
  | .faulted c =>
    if c = cDWRT ∧ remote then completeXfer s ch x (.ended c) else putXfer s ch { x with st := .active, tval := 0 }
  | _ => s

/-- The transfer whose fault the MP has raised: MPTXID names it, and TCAUSE and TVAL are its own (R206). -/
def raisedXfer (s : State) : Option (Fin 5 × Transfer) :=
  let c := s.ag.ctl
  let ch : Fin 5 := Fin.ofNat 5 (c.mptxid.toNat / 2 ^ 32 % 4)
  (s.blk.chans[ch].xfers.find? fun x => x.id == c.mptxid.setWidth 32 && x.tval == c.tval &&
    (match x.st with | .faulted e => causeWord e false false == c.tcause | _ => false)).map (ch, ·)

/-- Weld resumes the MP at EPC: the faulted transfer that it had raised goes on from where it stood, and held ones after it
(R217); another faulted transfer is raised before the next word. A write refused as a double write is complete with CODE DWRT
and is not sent again (R223). -/
def execMpResume (b : Nat) (s : State) : Host.Outcome State Fault Refusal :=
  .next (withAgent s b 4 fun s =>
    if s.ag.run == .mpStopped && s.blk.status == .running then
      let s := match raisedXfer s with
        | some (ch, x) => resumeXfer ch x s
        | none => s
      s.setAg { s.ag with run := .running, pc := s.ag.ctl.epc }
    else s)

/-- The back-off is over (R224). -/
def execRemoteResend (b : Nat) (ch : Fin 4) (s : State) : Host.Outcome State Fault Refusal :=
  .next (withAgent s b 4 fun s =>
    let n : Fin 5 := ⟨ch.val, by omega⟩
    match s.blk.chans[n].resendAt with
    | some t => if t ≤ s.tbase.toNat then s.setBlk (s.blk.setChan n { s.blk.chans[n] with resendAt := none }) else s
    | none => s)

/-! ## TRANSFER_COMPLETE (R216, R225, R275, R279) -/

/-- The lines a slice may hold for a partition: 8 MiB (R275). -/
def holdLimit : Nat := 131072

/-- A line is held, unless its slice holds as many as it may for the partition; then it counts as a dropped hint. -/
def holdLine (s : State) (line : Nat) : State :=
  let p := s.part s.blk.part
  let home := homeOf p (64 * line)
  let mine (h : Nat × Nat) : Bool := (s.launch? h.2).map (·.part) == some s.blk.part
  let held := ((s.holds.filter fun h => mine h && homeOf p (64 * h.1) == home).map (·.1)).dedup
  if held.contains line ∨ held.length < holdLimit then
    if s.holds.contains (line, s.blk.launch) then s else { s with holds := s.holds ++ [(line, s.blk.launch)] }
  else dropHint s

/-- A move of kind 2 (R275, R279). -/
def holdRange (s : State) (x : Transfer) : State :=
  match rangeLines s s.blk x.desc.src x.desc.len with
  | none => dropHint s
  | some l => l.foldl holdLine s

/-- The translations of a hold's range are found first; a range without them is dropped whole. -/
def holdStep (ch : Fin 5) (x : Transfer) (s : State) : State :=
  let lines := (List.range ((x.desc.src.toNat % 64 + x.desc.len + 63) / 64)).map fun i =>
    (x.desc.src &&& ~~~63#64) + BitVec.ofNat 64 (64 * i)
  match if (rangeLines s s.blk x.desc.src x.desc.len).isSome then none else lines.find? fun va => translate s s.blk va .load == .miss with
  | some va => walkXfer (fun _ s => completeXfer (dropHint s) ch { x with walk := none } .done) ch x va .load s
  | none => completeXfer (holdRange s x) ch x .done

def transferComplete (ch : Fin 5) (x : Transfer) (s : State) : State :=
  match x.form with
  | .mem _ =>
    if isHold s ch x then holdStep ch x s
    else if x.put = allBytes x.size then completeXfer s ch x .done else s
  | .fromItem _ _ _ =>
    if x.srcDone ∧ x.off then completeXfer s ch x .done
    else if x.srcDone ∧ x.srcVoid then completeXfer s ch x .fromVoid
    else if x.srcDone ∧ x.put = allBytes x.size then completeXfer s ch x .done
    else s
  | _ => s

def execTransferComplete (b : Nat) (ch : Fin 5) (id : Nat) (s : State) : Host.Outcome State Fault Refusal :=
  .next (withXfer s b ch id (transferComplete ch))

end Sys2Proof.Machine
end

