-- ==== Sys2Proof/Machine/Rings.lean ====
section
/-! DEFINITION. What Weld knows of a stage: its rings, its instances, its points, and whether its sources of work are exhausted
(spec/14_cluster_scheduling_and_coverage.md R253, R254). -/

namespace Sys2Proof.Machine

/-! ## Stage rings (R253) -/

/-- What Weld reads of a ring: published entries, occupancy, watermarks, CLOSED. -/
structure RingView where
  head : Word
  occ : Nat
  full : Bool
  hwm : Nat
  lwm : Nat
  closed : Bool
  deriving DecidableEq, Repr

/-- A ring header, or an empty ring where its address does not translate. -/
def ringView (s : State) (p : Partition) (va : Word) : RingView :=
  match readBytes s p va 64 with
  | none => ⟨0, 0, false, 0, 0, false⟩
  | some (v, _) =>
    let q (n : Nat) : Nat := v / 2 ^ (64 * n) % 2 ^ 64
    let occ := (BitVec.ofNat 64 (q 3) - BitVec.ofNat 64 (q 4)).toNat
    ⟨BitVec.ofNat 64 (q 3), min occ (q 1), decide (q 1 < occ), q 5 / 2 ^ 32, q 5 % 2 ^ 32, q 7 != 0⟩

/-- The ring at an address, if there is one. -/
def ringAt (s : State) (p : Partition) (va : Word) : Option RingView := if va = 0 then none else some (ringView s p va)

/-! ## Stages and their sources of work (R254) -/

/-- The blocks of a stage that have not ended. -/
def stageBlocks (s : State) (lid st : Nat) : List (Nat × Block) :=
  s.blocks.filter fun p => p.2.launch == lid && p.2.stage == st && p.2.status != .ended

/-- A stage's instances: its blocks and the requests for more. -/
def stageCount (s : State) (lid st : Nat) : Nat :=
  (stageBlocks s lid st).length + (s.requests.filter fun r => r.launch == lid && r.stage == st && r.block.isNone).length

/-- Points of the stage posted and not claimed. -/
def postedPoints (s : State) (lid st : Nat) : Bool :=
  (stageBlocks s lid st).any fun p => match (s.launch? lid).bind (·.stages[st]?) with
    | some x => match x.walker with
      | some w => ((p.2.ports[0].res.drop p.2.ports[0].resClaims).any fun e => w.handed.any fun h =>
          h.block == p.1 && h.point == e.1 && !h.reported)
      | none => false
    | none => false

/-- Is every source of the stage's work exhausted? -/
def stageFinished (s : State) (lid no : Nat) (l : Launch) (st : Stage) : Bool :=
  st.finished ||
    (let ring := ringAt s (s.part l.part) st.inRing
     let gridDone := st.walker.isNone || (!st.pointsLeft l && !postedPoints s lid no)
     let ringDone := match ring with
       | some r => r.closed && r.occ == 0
       | none => true
     let bare := st.walker.isNone && ring.isNone
     gridDone && ringDone && (!bare || decide (max st.minInst 1 ≤ st.placed)))

/-- An operation on a stage of a launch. -/
def setStage (s : State) (lid no : Nat) (f : Stage → Stage) : State :=
  match s.launch? lid with
  | some l => s.setLaunch lid { l with stages := l.stages.modify no f }
  | none => s

/-- The pages of a stage's ring headers. -/
def Stage.ringPages (st : Stage) : List Word := [st.inRing, st.outRing].flatMap fun va => if va = 0 then [] else pagesOf va 64

/-- A read of a stage's rings has the host give up their lines (R247). -/
def snoopRings (s : State) (p : Partition) (st : Stage) : State :=
  [st.inRing, st.outRing].foldl (fun s va => if va = 0 then s else s.snoopRead p va 64) s

/-- A finished stage has no request left for an instance. -/
def finishStage (s : State) (lid no : Nat) (started : Bool) : State :=
  setStage { s with requests := s.requests.filter fun r => !(r.launch == lid && r.stage == no && r.block.isNone) } lid no
    fun x => { x with started := started, finished := true }

end Sys2Proof.Machine
end

