-- ==== Sys2Proof/Machine/Place.lean ====
section
/-! DEFINITION. Where Weld puts blocks: placement, pre-emption, resumption and the slices of sliced children
(spec/14_cluster_scheduling_and_coverage.md R255 to R257, spec/08 R173, R174, spec/21 R333, R335, spec/20 R365). -/

namespace Sys2Proof.Machine

/-! ## The stop of a block at word boundaries (R173, R306, R310) -/

/-- Is the long instruction the agent has in progress at a place where a pre-emption or a migration may stop it? -/
def longMayStop (ochre : Bool) (a : Agent) : Bool :=
  match a.long with
  | none => a.walk.isNone || walkBefore a
  | some l => match l.i with
    | .vgath .. | .vscat .. => true
    | .tlds .. => l.begun
    | _ => l.begun && l.unit % (if ochre then 4 else 8) == 0

/-- The agent stopped: a translation that no effect has followed is dropped, and a long instruction leaves its progress
in PIDX (R132, R175). -/
def pauseAgent (a : Agent) : Agent :=
  match a.long with
  | none => { a with walk := none }
  | some l =>
    let a := match l.i with
      | .vgath .. | .vscat .. => gatherDeliver a l
      | _ => a.setRecord (some l)
    { a with long := none, walk := none, ctl := { a.ctl with prog := BitVec.ofNat 16 l.unit } }

/-- May agent w stop now? The MP's stop waits for no pending mark. -/
def mayStop (ochre : Bool) (w : Nat) (a : Agent) : Bool :=
  a.run != .running ||
    (a.trap.isNone && a.nan.isNone && longMayStop ochre a && (w == 4 || (pauseAgent a).pend.isEmpty))

/-- A word with NT = 1 holds one of the block's streams (R186). -/
def holdsStream (c : Core) (id : Nat) (b : Block) : Bool :=
  let held (j : Option Job) : Bool := match j with
    | some x => x.block == id && x.hold
    | none => false
  held c.matrix || held c.tile || b.works.any (·.hold)

/-- May every agent of a block stop now, with no timed region open (R290)? -/
def blockMayStop (s : State) (id : Nat) (b : Block) : Bool :=
  b.agents.toList.zipIdx.all (fun p => mayStop (isOchre b.core) p.2 p.1 && p.1.ctl.tslip.region.isNone) &&
    !holdsStream (s.core b.core) id b

def Block.paused (b : Block) : Block := { b with agents := b.agents.map pauseAgent }

/-! ## Context slots -/

/-- The first free context slot of a core. -/
def Core.freeSlot (c : Core) : Option Nat := (c.slots.toList.zipIdx.find? fun p => p.1.isNone).map (·.2)

/-- A block takes a slot and runs in it; no lease outlives the block before it. -/
def Core.takeSlot (c : Core) (slot id : Nat) : Core :=
  { c with slots := c.slots.set (slot % 4) (some id) (Nat.mod_lt _ (by decide)), leases := []
           ctxv := putBit c.ctxv (slot % 4) true, ctx := BitVec.ofNat 2 slot }

/-- The block leaves its slot, and its banks with it (R226). -/
def Core.vacate (c : Core) (slot : Nat) : Core :=
  let c := c.dropSlot slot
  { c with slots := c.slots.set (slot % 4) none (Nat.mod_lt _ (by decide)), ctxv := putBit c.ctxv (slot % 4) false }

/-! ## A block placed fresh (R70, R152, R174, R203, R255, R284, R300, R320, R365) -/

/-- Bytes of a memory from `lo`, `n` of them, moved to address 0. -/
def Memory.window (m : Memory) (lo n : Nat) : Memory :=
  (m.filter fun c => decide (lo ≤ c.1) && decide (c.1 < lo + n)).map fun c => (c.1 - lo, c.2)

/-- What the frames of the slot that a launch runs hold, and the two frames of each page. -/
def State.imageOf (s : State) (l : Launch) : Memory × List (Nat × Nat) :=
  match getKey (s.part l.part).slots l.slot with
  | some x => (x.image, x.frames)
  | none => ([], [])

/-- A section of the image takes effect on a block (R365). -/
def applySection (image : Memory) (prog : Nat) (b : Block) (x : Section) : Block :=
  let base := prog + x.off
  match x.kind with
  | 2 => { b with pad := b.pad.copyIn x.addr.toNat (image.window base x.size) x.size 0 }
  | 3 =>
    let m : Store := ⟨image, []⟩
    b.setTile x.addr.toNat ⟨Meta.ofWord x.info, BitVec.ofNat 16384 (m.readLE base 2048),
      BitVec.ofNat 1024 (m.readLE (base + 2048) 128), false, none⟩
  | 4 =>
    let a := b.agents[x.agent % 5]'(Nat.mod_lt _ (by decide))
    let a := a.setHandle (Fin.ofNat 32 x.num) (Handle.ofScalars x.addr (x.info &&& 0xFFFF))
    { b with agents := b.agents.set (x.agent % 5) a (Nat.mod_lt _ (by decide)) }
  | _ => b

/-- An agent in launch state, at its entry if the image gives it a program. -/
def Stage.agentAt (st : Stage) (priv : Bool) (limit : BitVec 16) (w : Nat) : Agent :=
  if st.agents.getLsbD w then
    { Agent.reset with
      run := .running, pc := st.entry[w % 5]'(Nat.mod_lt _ (by decide))
      ctl := { Ctl.reset with pm := priv && w != 4, tslip := { Tslip.reset with limit := limit } } }
  else Agent.reset

/-- The relocation registers of a block (R300, R320). -/
def Launch.relocFor (l : Launch) (st : Nat) : Vector Word 16 :=
  match l.bucket with
  | some (k, _, x) => if k = st then l.reloc.set 15 x else l.reloc
  | none => l.reloc

/-- MIGCTL at placement (R303). -/
def migAt (home core : Nat) : MigCtl :=
  ⟨BitVec.ofNat 10 core, 0, if home = 2 then isOchre core else home == 1, false, false, false⟩

/-- A fresh block of a stage on a core. -/
def freshBlock (s : State) (lid stage : Nat) (l : Launch) (st : Stage) (core slot : Nat) : Block :=
  let limit : BitVec 16 := match l.bucket with
    | some (k, _, _) => if k = stage then l.limit else 0
    | none => 0
  let priv := (s.part l.part).priv
  let (image, frames) := s.imageOf l
  let n := s.now core
  let b : Block := { Block.reset with
    launch := lid, stage := stage, inst := st.placed, part := l.part, tenant := l.tenant, isa := l.isa, prio := st.prio
    core := core, slot := slot, status := .running, placed := s.nextBlock
    agents := Vector.ofFn fun w : Fin 5 => st.agentAt priv limit w.val
    sprows := st.sprows, mig := migAt st.home core, reloc := l.relocFor stage
    textVa := st.textVa, textSize := st.textSize, text := image.window (st.prog + st.textOff) st.textSize
    textFrames := (frames.drop ((st.prog + st.textOff) / 4096)).take (st.textSize / 4096)
    startTick := match l.tick with
      | some t => if reached n t then none else some t
      | none => none }
  let b := st.sections.foldl (applySection image st.prog) b
  { b with replay := some { b.record b.agents n with tiles := b.tiles, pad := b.pad } }

/-- A requested instance is placed. -/
def placeFresh (s : State) (r : Request) (l : Launch) (st : Stage) (core slot : Nat) : State :=
  let id := s.nextBlock
  let late := match l.tick with
    | some t => if reached (s.now core) t then (s.now core - t).toNat else 0
    | none => 0
  let l' := { l with late := max l.late late, stages := l.stages.modify r.stage fun x => { x with placed := x.placed + 1 } }
  let s := ({ s with nextBlock := id + 1, requests := s.requests.erase r }.setLaunch r.launch l').setCore core
    ((s.core core).takeSlot slot id)
  let s := s.setBlock id (freshBlock s r.launch r.stage l st core slot)
  if st.agents = 0 then withAgent s id 0 endBlock else s

/-! ## Launches that a rung stops (R341) -/

/-- The launches a rung abandons. -/
def Rung.takes (r : Rung) (lid : Nat) (l : Launch) : Bool :=
  match r.n with
  | 1 => l.fn == r.fn && l.q == r.q
  | 2 => r.launch == some lid
  | 5 => true
  | _ => l.part == r.part

/-- A launch that a rung under way abandons: nothing is placed, filled, measured or retired for it any more. -/
def rungStops (s : State) (lid : Nat) : Bool :=
  match s.launch? lid with
  | some l => s.rungs.any fun r => r.begun && r.takes lid l
  | none => false

/-- The blocks of a partition with their ids. -/
def State.blocksOf (s : State) (part : Nat) : List (Nat × Block) := s.blocks.filter fun p => p.2.part == part

/-! ## The queue of requests (R256) -/

/-- Does a request stand strictly before another? Requests made together have no order. -/
def Request.before (a b : Request) : Bool :=
  decide (b.prio < a.prio) || (a.prio == b.prio &&
    (decide (a.launch < b.launch) || (a.launch == b.launch &&
      (decide (a.stage < b.stage) || (a.stage == b.stage && decide (a.made < b.made))))))

def insertRequest (r : Request) : List Request → List Request
  | [] => [r]
  | x :: l => if r.before x then r :: x :: l else x :: insertRequest r l

/-- A waiting block still stands at a word that its die class lacks, and R304 lets it move: PIN is 0, no region is open,
and the other class has the next word of every stream. -/
def wantsCore (s : State) (id : Nat) : Bool :=
  match getKey s.blocks id with
  | none => false
  | some b =>
    let t := enter s id 0
    b.status == .running && b.migrating.isNone && b.mig.wait && !b.mig.pin && !anyRegion t &&
      ((List.range 4).any (absentNext t (isOchre b.core))) && !moveRefused t !isOchre b.core

/-- The queue of a partition, in the order in which Weld serves it. -/
def queueOf (s : State) (part : Nat) : List Request :=
  (s.requests.filter fun r => r.part == part && match r.block with
    | some id => wantsCore s id
    | none => true).foldl (fun acc r => insertRequest r acc) []

/-- The die class a request needs, or either. -/
def requestClass (s : State) (r : Request) : Option Bool :=
  match r.block with
  | some id => some !isOchre (s.block id).core
  | none => match (s.launch? r.launch).bind (·.stages[r.stage]?) with
    | some st => if st.home = 2 then none else some (st.home == 1)
    | none => none

/-- The free core that a request would get. -/
def freeFor (s : State) (r : Request) : Option Nat :=
  chooseCore s (s.part r.part) (freeCores s (s.part r.part) r.launch r.block (requestClass s r))

/-- A request gets a core and a slot of it: an instance is placed, or a block that waits migrates there (R305). -/
def grant (s : State) (r : Request) (core : Nat) : State :=
  match r.block with
  | some id => { s with requests := s.requests.erase r }.setBlock id { s.block id with migrating := some core }
  | none => match (s.launch? r.launch).bind fun l => (l.stages[r.stage]?).map (l, ·), (s.core core).freeSlot with
    | some (l, st), some slot => placeFresh s r l st core slot
    | _, _ => s

/-- A request is served by `go`, once Weld has seen that its stage has not finished: a finished stage receives no further
instance (R254). -/
def serve (s : State) (r : Request) (go : State → State) : State :=
  match r.block, (s.launch? r.launch).bind fun l => (l.stages[r.stage]?).map (l, ·) with
  | none, some (l, st) =>
    withWalks s (s.part r.part) st.ringPages fun s =>
      let s := snoopRings s (s.part r.part) st
      if stageFinished s r.launch r.stage l st then finishStage s r.launch r.stage st.started else go s
  | _, _ => go s

/-- The first request of the queue that finds a free core is served. -/
def execBlockPlace (part : Nat) (s : State) : Host.Outcome State Fault Refusal :=
  .next (if !(s.part part).active then s
    else match (queueOf s part).findSome? fun r => (freeFor s r).map (r, ·) with
      | some (r, c) => serve s r fun s => grant s r c
      | none => s)

/-! ## Pre-emption and resumption (R173, R256, R257) -/

/-- The block that runs on a core. -/
def State.runner (s : State) (core : Nat) : Option (Nat × Block) :=
  (s.core core).slots.toList.findSome? fun x => match x with
    | some id => match getKey s.blocks id with
      | some b => if b.status = .running then some (id, b) else none
      | none => none
    | none => none

/-- The block that a request would pre-empt. -/
def victimFor (s : State) (r : Request) : Option (Nat × Block) :=
  let cls := requestClass s r
  let ok (c : Nat) : Option (Nat × Block) :=
    if (match cls with | some k => isOchre c == k | none => true) && (s.core c).freeSlot.isSome && !(s.core c).out &&
        !barred s r.launch r.block c && !coreReserved s c
    then (s.runner c).bind fun v => if v.2.part = r.part ∧ v.2.prio < r.prio then some v else none
    else none
  ((s.part r.part).cores.filterMap ok).foldl (fun best v => match best with
    | none => some v
    | some w => if v.2.prio < w.2.prio ∨ (v.2.prio = w.2.prio ∧ w.2.placed < v.2.placed) then some v else some w) none

/-- A suspended block as the request that it competes as, made when it was suspended (R257). -/
def Block.asRequest (b : Block) : Request := ⟨b.part, b.launch, b.stage, b.prio, none, b.suspended⟩

/-- Does a suspended block stand before a request? -/
def suspendedFirst (s : State) (r : Request) : Bool :=
  (s.blocksOf r.part).any fun p => p.2.status == .suspended && !r.before p.2.asRequest

/-- The oldest request of the highest priority finds no free core: the block it pre-empts is suspended, and the request
takes a free slot of its core. While a suspended block stands before it, it waits. -/
def execPreempt (part : Nat) (s : State) : Host.Outcome State Fault Refusal :=
  .next (if !(s.part part).active then s
    else match queueOf s part with
      | [] => s
      | r :: _ =>
        if (freeFor s r).isSome || suspendedFirst s r then s
        else match victimFor s r with
          | some (id, b) =>
            if b.migrating.isNone && blockMayStop s id b then
              serve s r fun s => grant (s.setBlock id { b.paused with status := .suspended, suspended := nextStamp s }) r b.core
            else s
          | none => s)

/-- The suspended block of a core that resumes first. -/
def nextResume (s : State) (core : Nat) : Option (Nat × Block) :=
  ((s.core core).slots.toList.filterMap fun x => x.bind fun id => (getKey s.blocks id).bind fun b =>
    if b.status = .suspended then some (id, b) else none).foldl (fun best v => match best with
      | none => some v
      | some w => if w.2.prio < v.2.prio ∨ (w.2.prio = v.2.prio ∧ v.2.suspended < w.2.suspended) then some v else some w) none

/-- Can a request that stands before a suspended block be served? It then is, first (R256, R257). -/
def servedBefore (s : State) (b : Block) : Bool :=
  let q := queueOf s b.part
  (q.any fun r => r.before b.asRequest && (freeFor s r).isSome) || match q with
    | r :: _ => r.before b.asRequest && !suspendedFirst s r && (victimFor s r).isSome
    | [] => false

/-- A block that has stopped at the end of its slice stays on the core until the slice ends (R335). -/
def sliceHeld (s : State) (core : Nat) : Bool :=
  (s.core core).slots.toList.any fun x => x.any fun id => (s.block id).status == .sliced

/-- A core without a running block resumes a suspended one. -/
def execBlockResume (core : Nat) (s : State) : Host.Outcome State Fault Refusal :=
  .next (if (s.runner core).isSome || sliceHeld s core || (s.core core).out || coreReserved s core then s
    else match nextResume s core with
      | some (id, b) =>
        if (s.part b.part).active && !servedBefore s b then
          (s.setBlock id { b with status := .running }).setCore core ((s.core core).takeSlot b.slot id)
        else s
      | none => s)

/-! ## Slices (R333, R335) -/

/-- The sliced children that share the cluster set of one of them, by rising id. -/
def sliceGroup (s : State) (part : Nat) : List Nat :=
  let p := s.part part
  (s.parts.filter fun q => q.2.sliced && q.2.parent == p.parent && q.2.clusters == p.clusters).map (·.1)

/-- The child whose turn is next. -/
def nextChild (s : State) (part : Nat) : Nat :=
  let g := sliceGroup s part
  match g.find? fun q => decide (part < q) with
  | some q => q
  | none => g.headD part

/-- The length of a child's slice in ticks, its overshoot subtracted. -/
def sliceTicks (s : State) (part : Nat) : Nat :=
  let total := ((sliceGroup s part).map fun q => (s.part q).tweight).sum
  (s.part part).tweight * 8000000 / max 1 total - (s.part part).overshoot

/-- A core at a slice switch: no lease and no translation of the outgoing child. -/
def Core.switch (c : Core) (part : Nat) : Core := { c with leases := [], tlb := c.tlb.filter fun e => e.part != part }

/-- A block of the outgoing child leaves its core; what it holds waits with it. -/
def slotOut (s : State) (p : Nat × Block) : State :=
  if ((s.core p.2.core).slots[p.2.slot % 4]'(Nat.mod_lt _ (by decide))) = some p.1 then
    s.setCore p.2.core ((s.core p.2.core).vacate p.2.slot)
  else s

/-- A block of the incoming child takes a slot of its core again. -/
def slotIn (s : State) (p : Nat × Block) : State :=
  let go (status : BlockStatus) : State := match (s.core p.2.core).freeSlot with
    | some slot => (s.setBlock p.1 { p.2 with status := status, slot := slot }).setCore p.2.core
        ((s.core p.2.core).takeSlot slot p.1)
    | none => s
  match p.2.status with
  | .sliced => go .running
  | .suspended => go .suspended
  | _ => s

/-- A new round begins: quotas that wait for it take effect (R340); the controller then writes REPORT. -/
def Partition.nextRound (p : Partition) (now : Word) : Partition :=
  match p.quota with
  | some q =>
    if q.due.isSome then p
    else { p with tweight := q.tweight, chrate := q.chrate, links := q.links, linkrate := q.linkrate,
                  quota := some { q with due := some now } }
  | none => p

/-- The first child's slice begins a round of its group. -/
def beginRound (s : State) (part : Nat) : State :=
  let g := sliceGroup s part
  if g.head? = some part then
    { s with parts := s.parts.map fun q => (q.1, if g.contains q.1 then q.2.nextRound (s.now 0) else q.2) }
  else s

/-- The next child's slice begins: its suspended blocks take their slots, then those that run. -/
def beginSlice (s : State) (part : Nat) : State :=
  let s := beginRound s part
  let p := s.part part
  let s := s.setPart part { p with active := true, overshoot := 0, stoppedAt := none,
                                   sliceEnd := some (s.now 0 + BitVec.ofNat 64 (sliceTicks s part)) }
  let s := ((s.blocksOf part).filter fun q => q.2.status == .suspended).foldl slotIn s
  ((s.blocksOf part).filter fun q => q.2.status == .sliced).foldl slotIn s

/-- The time from a slice's nominal end to the last boundary that stopped a block (R333). -/
def Partition.overshot (p : Partition) (nominal : Word) : Nat :=
  match p.stoppedAt with
  | some t => if reached t nominal then (t - nominal).toNat else 0
  | none => 0

/-- A slice ends when every running block of the child has stopped at its operator boundary, and every failed one has been
replayed and has stopped there (R333, R336). -/
def execSliceEnd (part : Nat) (s : State) : Host.Outcome State Fault Refusal :=
  .next (let p := s.part part
    match p.sliceEnd with
    | some t =>
      if p.sliced && p.active && reached (s.now 0) t && (s.blocksOf part).all (fun q => q.2.status != .running && q.2.status != .failed) then
        let s := s.setPart part { p with active := false, sliceEnd := none, overshoot := p.overshot t }
        let s := ((s.blocksOf part).filter fun q => q.2.status != .ended).foldl slotOut s
        let s := p.cores.foldl (fun s c => s.setCore c ((s.core c).switch part)) s
        beginSlice s (nextChild s part)
      else s
    | none => s)

end Sys2Proof.Machine
end

