-- ==== Sys2Proof/Machine/Sched.lean ====
section
/-! DEFINITION. Weld's evaluation of stages, the block walker and the reconstruction unit
(spec/14_cluster_scheduling_and_coverage.md R253, R254, R258 to R262, R267, R268). -/

namespace Sys2Proof.Machine

/-- Line 6 becomes pending in the streams of a block (R259). -/
def raiseLine6 (b : Block) : Block :=
  { b with agents := b.agents.mapIdx fun w a => if w < 4 then { a with ctl := { a.ctl with line6 := true } } else a }
/-- Line 5 becomes pending in the streams of a block (R259). -/
def raiseLine5 (b : Block) : Block :=
  { b with agents := b.agents.mapIdx fun w a => if w < 4 then { a with ctl := { a.ctl with line5 := true } } else a }

/-- An operation on the blocks of a launch. -/
def mapBlocks (s : State) (pick : Block → Bool) (f : Block → Block) : State :=
  { s with blocks := s.blocks.map fun p => (p.1, if pick p.2 then f p.2 else p.2) }

/-- How many instances Weld requests for a stage at a tick. -/
def wanted (s : State) (lid no : Nat) (l : Launch) (st : Stage) : Nat :=
  let p := s.part l.part
  let n := stageCount s lid no
  let ring := ringAt s p st.inRing
  let ask (f : RingView → Bool) : Bool := match ring with
    | some r => f r
    | none => false
  if n < st.minInst then st.minInst - n
  else if n == 0 && ask (fun r => decide (1 ≤ r.occ) && r.closed) then 1
  else if ask (fun r => decide (r.occ ≤ r.lwm)) then 0
  else
    let work := ask (fun r => decide (r.hwm ≤ r.occ) || r.full) || st.pointsLeft l
    let room := match ringAt s p st.outRing with
      | some r => decide (r.occ < r.hwm) && !r.full
      | none => true
    if work && room && decide (n < st.maxInst) then 1 else 0

def addRequests (s : State) (lid no : Nat) (l : Launch) (st : Stage) (n : Nat) : State :=
  { s with requests := s.requests ++ List.replicate n ⟨l.part, lid, no, st.prio, none, nextStamp s⟩ }

/-- One stage is evaluated. A finished one receives no further instance. -/
def evalStage (s : State) (lid no : Nat) : State :=
  match (s.launch? lid).bind fun l => (l.stages[no]?).map (l, ·) with
  | none => s
  | some (l, st) =>
    let p := s.part l.part
    let s := snoopRings s p st
    let ring := ringAt s p st.inRing
    let closed := match ring with
      | some r => r.closed
      | none => false
    let started := st.started || match ring with
      | some r => r.head != 0
      | none => true
    let s := if closed && !st.closed then
        mapBlocks (setStage s lid no fun x => { x with closed := true })
          (fun b => b.launch == lid && b.stage == no && b.status != .ended) raiseLine6
      else s
    if stageFinished s lid no l st then
      finishStage s lid no started
    else
      let s := setStage s lid no fun x => { x with started := started }
      if started then addRequests s lid no l st (wanted s lid no l st) else s

/-- Weld evaluates the stages of its partition, at each tick that is a multiple of 16,384: it walks to their rings first. -/
def execWeldTick (part : Nat) (s : State) : Host.Outcome State Fault Refusal :=
  .next (let p := s.part part
    let now := s.now 0
    let l := s.launches.filter fun q => q.2.part == part && !rungStops s q.1
    if p.weldOpen || (p.active && now.toNat % 16384 == 0 && p.weldAt != some now) then
      let s := s.setPart part { p with weldAt := if p.weldOpen then p.weldAt else some now, weldOpen := true }
      withWalks s p (l.flatMap fun q => q.2.stages.flatMap Stage.ringPages) fun s =>
        let s := s.setPart part { s.part part with weldOpen := false }
        l.foldl (fun s q => (List.range q.2.stages.length).foldl (fun s no => evalStage s q.1 no) s) s
    else s)

/-! ## The block walker (R258, R266 to R268) -/

/-- The stage of a block, when it has a grid. -/
def gridOf (s : State) (b : Block) : Option (Launch × Stage × Walker) :=
  (s.launch? b.launch).bind fun l => (l.stages[b.stage]?).bind fun st => st.walker.map (l, st, ·)

/-- A point's linear index. -/
def Walker.pidxOf (w : Walker) (point : Word) : Nat :=
  ((point.extractLsb' 48 15).toNat * w.gy + (point.extractLsb' 24 24).toNat) * w.gx + (point.extractLsb' 0 24).toNat

/-- The smallest hand-out index among points taken back. -/
def firstReturned (w : Walker) : Option (Nat × Word) :=
  w.returned.foldl (fun best x => match best with
    | none => some x
    | some y => if x.1 < y.1 then some x else some y) none

/-- The value that the walker would post, the walker after it, or none while it waits. -/
def nextPost (id : Nat) (l : Launch) (st : Stage) (w : Walker) (empty : Bool) : Option (Word × Walker) :=
  match firstReturned w with
  | some (idx, v) => some (v, { w with returned := w.returned.erase (idx, v), handed := w.handed ++ [⟨idx, v, id, false, none⟩] })
  | none => match l.next st w with
    | .point pidx audit w' =>
      let v := pointValue (w.point pidx) audit
      some (v, { w' with handed := w'.handed ++ [⟨w.idx, v, id, false, none⟩] })
    | .awaits => none
    | .done => if empty then some (BitVec.allOnes 64, w) else none

/-- Post an element into a block's port 0. -/
def postPort0 (b : Block) (v : Word) : Block := b.setPort 0 { b.ports[0] with res := b.ports[0].res ++ [(v, false)] }

/-- Post for a running block: a point while fewer than two are unclaimed, else the done value when none is left. -/
def walkerPost (s : State) (id : Nat) : State :=
  match getKey s.blocks id with
  | none => s
  | some b =>
    let p := b.ports[0]
    let unclaimed := p.res.length - p.resClaims
    if b.status ≠ .running ∨ 2 ≤ unclaimed ∨ 16 ≤ p.res.length then s
    else match gridOf s b with
      | none => if unclaimed = 0 then s.setBlock id (postPort0 b (BitVec.allOnes 64)) else s
      | some (l, st, w) => match nextPost id l st w (unclaimed == 0) with
        | some (v, w') => (setStage s b.launch b.stage fun x => { x with walker := some w' }).setBlock id (postPort0 b v)
        | none => s

def execWalkerPost (b : Nat) (s : State) : Host.Outcome State Fault Refusal := .next (walkerPost s b)

/-! ## Reports (R260, R262, R267) -/

/-- Has the report of a kept point been taken? -/
def Walker.reported (w : Walker) (p : Point) : Bool := w.handed.any fun h => h.reported && h.point == pointValue p false

/-- The axes of a skipped point, once every neighbour has been reported. -/
def readyAxes (c : CovRec) (w : Walker) (pidx : Nat) : Option (List Axis) :=
  let p := w.point pidx
  match w.planes[p.z]? with
  | none => none
  | some f =>
    let axes := axesOf c w f p
    if axes.all fun x => w.reported x.a && w.reported x.b then some axes else none

/-- The error of an audit point that has been reported, as its neighbours have (notes/assumptions/30.md). -/
def auditError (tr : Word → Use → Tr) (s : State) (c : CovRec) (w : Walker) (h : Handed) : Option Nat :=
  match readyAxes c w (w.pidxOf h.point) with
  | none => none
  | some axes => match reconPoint (readBy tr s) c axes (w.point (w.pidxOf h.point)) with
    | none => some (Config.auditError h.idx)
    | some rows =>
      let own := rows.map fun r => (r, readBy tr s r.va r.out.rowBytes)
      if own.any fun q => q.2.isNone then some (Config.auditError h.idx)
      else some (pointError (own.map fun q => (q.1, (q.2.map (·.1)).getD 0)))

/-- An audit point that has been reported and not been measured. -/
def Handed.unmeasured (h : Handed) : Bool := h.point.getLsbD 63 && h.reported && h.error.isNone

/-- The rows that the audit points which can be measured now read. -/
def auditRows (s : State) (lid no : Nat) : List (Word × Nat) :=
  match (s.launch? lid).bind (·.stages[no]?) with
  | none => []
  | some st => match st.walker, st.cov with
    | some w, some c => (w.handed.filter Handed.unmeasured).flatMap fun h =>
      match readyAxes c w (w.pidxOf h.point) with
      | some axes => neighbourRows c axes ++ ownRows c (w.point (w.pidxOf h.point))
      | none => []
    | _, _ => []

/-- Measure every audit point that can be measured now. -/
def measureAudits (s : State) (lid no : Nat) : State :=
  match (s.launch? lid).bind fun l => (l.stages[no]?).map (l, ·) with
  | none => s
  | some (l, st) => match st.walker, st.cov with
    | some w, some c =>
      let tr := engTr s (s.part l.part)
      let one (h : Handed) : Handed := if h.unmeasured then { h with error := auditError tr s c w h } else h
      let s := (auditRows s lid no).foldl (snoopBy tr) s
      setStage s lid no fun x => { x with walker := some { w with handed := w.handed.map one } }
    | _, _ => s

/-- An invalid report (R260). -/
def badReport (s : State) (lid : Nat) : State :=
  match s.launch? lid with
  | some l => s.setLaunch lid { l with badrep := l.badrep + 1 }
  | none => s

/-- A report leaves a block's port 1. One repeated in a replay is not counted (R336). -/
def takeReport (s : State) (id : Nat) (b : Block) (v : Word) (r : List Word) : State :=
  let s := s.setBlock id (b.setPort 1 { b.ports[1] with cmd := r })
  match gridOf s b with
  | none => badReport s b.launch
  | some (_, _, w) =>
    if w.handed.any fun h => h.point == v && h.block == id && !h.reported then
      let w' := { w with handed := w.handed.map fun h =>
        if h.point = v ∧ h.block = id then { h with reported := true } else h }
      setStage s b.launch b.stage fun x => { x with walker := some w' }
    else if b.replaying && w.handed.any fun h => h.point == v && h.block == id then s
    else badReport s b.launch

/-- The unit takes the oldest command of a block's port 1, once it has walked to the rows that it then measures. -/
def reportTake (s : State) (id : Nat) : State :=
  match getKey s.blocks id with
  | none => s
  | some b => match b.ports[1].cmd with
    | [] => s
    | v :: r =>
      let rows := auditRows (takeReport s id b v r) b.launch b.stage
      withWalks s (s.part b.part) (rows.flatMap fun x => pagesOf x.1 x.2) fun s =>
        measureAudits (takeReport s id b v r) b.launch b.stage

def execReportTake (b : Nat) (s : State) : Host.Outcome State Fault Refusal := .next (reportTake s b)

/-! ## Fills (R261 to R263) -/

/-- A point that the walker has passed and that the pattern skips, neither handed out nor filled. -/
def toFill (l : Launch) (st : Stage) (w : Walker) (pidx : Nat) : Option CovRec :=
  match st.cov with
  | none => none
  | some c =>
    let p := w.point pidx
    match w.planes[p.z]? with
    | none => none
    | some f =>
      if pidx < w.pidx ∧ !keptUnder c w f p ∧ !auditPoint c l.lnum pidx l.covctl ∧ !w.filled.contains pidx then some c
      else none

/-- The pages of a fill: its neighbours', which are read, and its own, which are written. -/
def fillPages (c : CovRec) (axes : List Axis) (pt : Point) : List (Word × Use) :=
  ((neighbourRows c axes).flatMap fun x => (pagesOf x.1 x.2).map fun va => (va, Use.load)) ++
    (ownRows c pt).flatMap fun x => (pagesOf x.1 x.2).map fun va => (va, Use.store)

/-- What is left of a fill of a point: nothing once it is filled. -/
def Walker.put (w : Walker) (pidx : Nat) : Option Fill → Walker
  | some f => { w with filling := f :: w.filling.filter (·.pidx != pidx) }
  | none => { w with filling := w.filling.filter (·.pidx != pidx), filled := natInsert w.filled pidx }

/-- A fill goes on, once it has its translations: a Data read or a Data write. Where a page does not translate it writes nothing.
Its translations end with it. -/
def fillGo (s : State) (p : Partition) (c : CovRec) (axes : List Axis) (pt : Point) (f : Fill) : State × Option Fill :=
  let pages := fillPages c axes pt
  match pages.find? fun x => engTr s p x.1 x.2 == .miss with
  | some x => (engStep s p x.1, some f)
  | none =>
    let r := if pages.all fun x => match engTr s p x.1 x.2 with | .ok _ => true | _ => false
      then fillStep (engTr s p) s c axes pt f else (s, none)
    if r.2.isSome then r
    else ({ r.1 with engWalks := r.1.engWalks.filter fun k => !pages.any fun x => k.serves p x.1 }, none)

/-- A step of the fill of a point of a stage, if it is one to fill and its neighbours have been reported. `bad` tells of an error
in the unit's buffer, which poisons what the fill writes from then on (R270). -/
def fillPoint (s : State) (lid no pidx : Nat) (l : Launch) (st : Stage) (bad : Bool) : State :=
  match st.walker with
  | none => s
  | some w => match toFill l st w pidx with
    | none => s
    | some c => match readyAxes c w pidx with
      | none => s
      | some axes =>
        let f := (w.filling.find? (·.pidx == pidx)).getD ⟨pidx, 0, [], 0, false⟩
        let r := fillGo s (s.part l.part) c axes (w.point pidx) { f with bad := f.bad || bad }
        setStage r.1 lid no fun x => { x with walker := some (w.put pidx r.2) }

/-- A step of the fill of a point of a launch. -/
def fill (s : State) (launch pidx : Nat) (bad : Bool) : State :=
  match s.launch? launch with
  | none => s
  | some l => match l.stages.zipIdx.find? fun p => p.1.cov.isSome with
    | some (st, no) => if rungStops s launch then s else fillPoint s launch no pidx l st bad
    | none => s

def execFill (launch pidx : Nat) (s : State) : Host.Outcome State Fault Refusal := .next (fill s launch pidx false)

/-! ## Updates of the fraction (R268) -/

/-- The errors of audit points with hand-out indices in a range, by rising index. -/
def errorsIn (w : Walker) (lo hi : Nat) : List Nat :=
  let l := w.handed.filter fun h => h.point.getLsbD 63 && decide (lo ≤ h.idx) && decide (h.idx < hi)
  ((l.foldl (fun acc h => putKey acc h.idx h) []).filterMap fun p => p.2.error)

/-- Every audit point with a hand-out index below a bound has been handed out and measured. -/
def auditsDone (w : Walker) (hi : Nat) : Bool :=
  decide (hi ≤ w.idx) && (w.returned.all fun r => decide (hi ≤ r.1)) &&
    w.handed.all fun h => decide (hi ≤ h.idx) || !h.point.getLsbD 63 || h.error.isSome

/-- The fraction that the last update has left. -/
def lastFraction (w : Walker) : Nat := (w.updates.getLast?).getD w.fstart

/-- The update during a launch that is due: its stage, the walker, and the fraction that it makes. -/
def updateDue (l : Launch) : Option (Nat × Walker × Nat) :=
  (l.stages.zipIdx.find? fun p => p.1.cov.isSome).bind fun p => match p.1.walker, p.1.cov with
    | some w, some c =>
      let n := w.updates.length + 1
      if l.covctl.getLsbD 15 && !c.fixed && auditsDone w (4096 * n) then
        some (p.2, w, updateOver l.covctl (lastFraction w) (errorsIn w (4096 * (n - 1)) (4096 * n)))
      else none
    | _, _ => none

/-- The next update during the launch. -/
def execCoverageUpdate (launch : Nat) (s : State) : Host.Outcome State Fault Refusal :=
  .next (match (s.launch? launch).bind updateDue with
    | none => s
    | some (no, w, f) =>
      if rungStops s launch then s
      else
        let t := setStage s launch no fun x => { x with walker := some { w with updates := w.updates ++ [f] } }
        if f = lastFraction w then t else mapBlocks t (fun b => b.launch == launch && b.status != .ended) raiseLine5)

end Sys2Proof.Machine
end

