-- ==== Sys2Proof/Machine/Ladder.lean ====
section
/-! DEFINITION. Completions, and the reset ladder (spec/20_package_host_and_commands.md R323,
spec/21_package_partitions_and_failure.md R333, R341, R342, spec/13 R251, spec/23 R354, R356). -/

namespace Sys2Proof.Machine

/-! ## Release stores of Madder (R317, R323) -/

/-- Is this a host physical address inside a host window of the partition (R229, R326)? -/
def inHostWindow (s : State) (p : Partition) (pa : Nat) : Bool :=
  decide (0x1_0000_0000_0000 ≤ pa) && decide (pa < 0x8_0000_0000_0000) && paAllowed s p pa

/-- The physical place of an address that a packet gives: bit 63 marks a device virtual address (R317). -/
def packetPa (s : State) (p : Partition) (addr : Word) (use : Use) : Option Nat :=
  if addr.getLsbD 63 then
    match engTr s p (addr &&& ~~~(1#64 <<< 63)) use with
    | .ok (.phys pa) => some pa
    | _ => none
  else if inHostWindow s p addr.toNat then some addr.toNat else none

/-- The pages of `n` bytes at an address of a packet. -/
def packetPages (addr : Word) (n : Nat) : List Word := if addr.getLsbD 63 then pagesOf (addr &&& ~~~(1#64 <<< 63)) n else []

/-- Write aligned bytes at an address of a packet, or none where the write cannot be made. -/
def packetWrite (s : State) (p : Partition) (addr : Word) (n v : Nat) : Option State :=
  (packetPa s p addr .store).map fun pa => writeLoc s (.phys pa) (n / 4) v false

/-- The completion record (R323). -/
def Completion.record (c : Completion) : Nat :=
  c.seq.toNat + c.status * 2 ^ 32 + c.late % 2 ^ 64 * 2 ^ 64 + min c.badrep 0xFFFFFFFF * 2 ^ 128 + c.slips % 2 ^ 32 * 2 ^ 160 +
    c.frac * 2 ^ 192 + c.tstart.toNat * 2 ^ 256 + c.tend.toNat * 2 ^ 320

/-- A queue's key. -/
def queueKey (fn q : Nat) : Nat := 4 * fn + q

/-- QERR ← (code, seq). -/
def setQerr (s : State) (key : Nat) (code : BitVec 8) (seq : BitVec 32) : State :=
  s.setQueue key { s.queue key with errCode := code, errSeq := seq }

/-- The record and then the signal; a write that cannot be made is dropped alone. -/
def writeCompletion (s : State) (c : Completion) : State :=
  let p := s.part c.part
  let key := queueKey c.fn c.q
  let try_ (s : State) (on : Bool) (addr : Word) (n v : Nat) : State :=
    if on then (packetWrite s p addr n v).getD (setQerr s key 7 c.seq) else s
  try_ (try_ s (c.statAddr != 0) c.statAddr 64 c.record) c.sig c.sigAddr 8 c.sigVal.toNat

/-- The pages that a completion writes. -/
def Completion.pages (c : Completion) : List Word :=
  (if c.statAddr = 0 then [] else packetPages c.statAddr 64) ++ if c.sig then packetPages c.sigAddr 8 else []

/-- The pages that Madder needs to signal some completions: none while a reload holds them. -/
def signalPages (s : State) (l : List Completion) : List (Partition × Word) :=
  if s.reloading then [] else l.flatMap fun c => c.pages.map fun va => (s.part c.part, va)

/-- A packet completes; during a reload its completion is held (R325). -/
def complete (s : State) (c : Completion) : State :=
  if s.reloading then { s with completions := s.completions ++ [c] } else writeCompletion s c

/-- The completion of a launch. -/
def Launch.completion (l : Launch) (status frac : Nat) (now : Word) : Completion :=
  ⟨l.part, l.fn, l.q, l.seq, l.statAddr, l.sig, l.sigAddr, l.sigVal, status, l.late, l.badrep, l.slips, frac,
    l.tstart.getD 0, now⟩

/-! ## The end of a launch -/

/-- A launch leaves the machine: its blocks, its forwarding records, its holds, its requests (R275, R309). -/
def dropLaunch (s : State) (lid : Nat) : State :=
  { s with
    blocks := s.blocks.filter fun p => p.2.launch != lid
    launches := dropKey s.launches lid
    requests := s.requests.filter fun r => r.launch != lid
    members := s.members.filter fun m => m.remote.isSome || (s.block m.block).launch != lid
    posts := s.posts.filter fun p => (s.block p.1).launch != lid
    holds := s.holds.filter fun h => h.2 != lid
    cores := s.cores.map fun p => (p.1, { p.2 with forwards := p.2.forwards.filter fun f => f.launch != lid }) }

/-- A transfer that a stopped block lets drain: one that needs no item of the block any more, and stands behind no fault. -/
def drains (x : Transfer) : Bool :=
  x.st == .active && match x.form with
    | .mem _ => true
    | .fromItem .. => x.srcDone
    | .xfer _ i => x.srcDone && i.cls == 2
    | .toItem .. => false

/-- The copies of a block that can read their items now do so. -/
def readItems (id : Nat) (b : Block) (s : State) : State :=
  (List.finRange 5).foldl (fun s ch => b.chans[ch].xfers.foldl (fun s x => copyReadOf id ch x.id.toNat s) s) s

/-- A block is stopped for good: its slips are counted, its context is discarded and its slot freed; `keep` lets its copies
drain (R300, R341). -/
def stopBlock (keep : Bool) (s : State) (p : Nat × Block) : State :=
  let s := if keep then readItems p.1 p.2 s else s
  let b := s.block p.1
  let s := if b.status = .ended then s else countSlips s b b.agents.toList
  let chans := b.chans.map fun c => { c with xfers := if keep then c.xfers.filter drains else [] }
  let mine (j : Option Job) : Option Job := j.filter fun x => x.block != p.1
  let c := s.core b.core
  let c := if c.slots[b.slot % 4]'(Nat.mod_lt _ (by decide)) = some p.1 then c.vacate b.slot else c
  (s.setCore b.core { c with matrix := mine c.matrix, tile := mine c.tile }).setBlock p.1
    { b with status := .ended, agents := Vector.replicate 5 Agent.reset, chans := chans, migrating := none, tiles := [], accs := [],
             pad := Store.empty, works := [], savedTiles := [], savedAccs := [], savedVecs := [], replay := none }

/-- An abandoned launch completes with status 6 (R341). -/
def abandon (s : State) (p : Nat × Launch) : State := complete (dropLaunch s p.1) (p.2.completion 6 0xFF (s.now 0))

/-! ## Bring-up begins again (R354) -/

/-- The pages of the completions that a device rung signals. -/
def resetPages (s : State) : List (Partition × Word) :=
  let s := { s with reloading := false }
  signalPages s (s.completions ++ s.launches.map fun p => p.2.completion 6 0xFF (s.now 0))

/-- The device rung: completions that a reload held are signalled, the launches are abandoned, and everything but what lies
outside the package starts from phase 1. -/
def deviceReset (s : State) (cause : BitVec 8) : State :=
  let s := s.completions.foldl writeCompletion { s with reloading := false, completions := [] }
  let s := s.blocks.foldl (stopBlock false) s
  let s := s.launches.foldl abandon s
  { State.reset with
    mem := s.mem, dev := { Device.reset with cause := cause }, outbox := s.outbox, free := s.free, agenda := s.agenda }

/-! ## Rungs (R341) -/

/-- Do two rungs have one scope? -/
def Rung.sameScope (a b : Rung) : Bool :=
  match a.n, b.n with
  | 1, 1 => a.fn == b.fn && a.q == b.q
  | 2, 2 => a.launch == b.launch
  | n, m => decide (3 ≤ n) && decide (3 ≤ m) && a.part == b.part

/-- The time limit in ticks. -/
def Rung.limit (r : Rung) : Nat :=
  match r.n with
  | 1 => 1000000
  | 2 => 4000000
  | 3 => 16000000
  | _ => 64000000

/-- The keys of the queues of a partition's functions. -/
def queuesOf (s : State) (part : Nat) : List Nat :=
  (List.range 193).flatMap fun fn =>
    if (if fn = 0 then 1 else (getKey s.vfmap fn).getD 1) = part then (List.range 4).map (queueKey fn) else []

/-- EN ← 0. -/
def disableQueue (s : State) (key : Nat) : State :=
  if (getKey s.queues key).isSome then
    s.setQueue key { s.queue key with en := false, matched := false, since := none }
  else s

/-- A core of a partition whose caches are emptied. -/
def emptyCaches (part : Nat) (s : State) (c : Nat) : State := s.setCore c ((s.core c).switch part)

/-- What a rung does at once: it stops the blocks of its launches, and its queues. -/
def actRung (s : State) (r : Rung) : State :=
  let lids := (s.launches.filter fun p => r.takes p.1 p.2).map (·.1)
  let s := if r.n = 1 then disableQueue s (queueKey r.fn r.q) else s
  let s := (s.blocks.filter fun p => lids.contains p.2.launch).foldl (stopBlock (decide (r.n < 3))) s
  let s := { s with requests := s.requests.filter fun q => !lids.contains q.launch }
  let s := if 3 ≤ r.n then
      { s with members := s.members.filter fun m => m.part != r.part, engWalks := s.engWalks.filter fun k => k.part != r.part
               stalled := s.stalled.filter fun x => x.1 != r.part } else s
  if r.n = 4 then ((s.part r.part).cores.foldl (emptyCaches r.part) ((queuesOf s r.part).foldl disableQueue s)) else s

/-- The cause of a device rung: asked for through FRESET, or the ladder's (R357). -/
def Rung.cause (r : Rung) : BitVec 8 := if r.by_.isEmpty then 3 else 1

/-- A device rung takes the package through bring-up. -/
def deviceRung (s : State) (r : Rung) : State := withPages s (resetPages s) fun s => deviceReset s r.cause

/-- The device rung begins: it stops every block, and takes the package through bring-up once the completions of the launches
can be written, at once where none waits for a walk. -/
def beginDevice (s : State) (r : Rung) : State :=
  if (resetPages s).all fun x => engTr s x.1 x.2 .load != .miss then deviceReset s r.cause
  else if s.rungs.any fun x => decide (5 ≤ x.n) then s
  else
    let r := { r with begun := true, since := s.now 0 }
    actRung { s with rungs := s.rungs ++ [r] } r

/-- A rung is asked for. It joins an equal or higher one on its scope, with the command that waits for it, waits for a lower
one, or begins (R342). -/
def startRung (s : State) (r : Rung) : State :=
  if 5 ≤ r.n then beginDevice s r
  else match s.rungs.find? fun x => x.sameScope r && decide (r.n ≤ x.n) with
    | some x => { s with rungs := s.rungs.map fun y => if y = x then { y with by_ := y.by_ ++ r.by_, report := y.report.or r.report } else y }
    | none =>
      if s.rungs.any fun x => x.sameScope r && x.begun then
        { s with rungs := s.rungs ++ [{ r with begun := false, since := s.now 0 }] }
      else
        let r := { r with begun := true, since := s.now 0 }
        actRung { s with rungs := s.rungs ++ [r] } r

def rungOf (n part : Nat) : Rung := ⟨n, part, 0, 0, none, 0, false, [], none⟩
def queueRung (s : State) (fn q : Nat) : Rung := { rungOf 1 (if fn = 0 then 1 else (getKey s.vfmap fn).getD 1) with fn := fn, q := q }
def contextRung (s : State) (lid : Nat) : Rung :=
  { rungOf 2 ((s.launch? lid).map (·.part) |>.getD 1) with launch := some lid }

/-- A rung of a number over a whole partition: over each of its queues or launches for the two lowest (R340, R342). -/
def rungsOver (s : State) (n part : Nat) : List Rung :=
  match n with
  | 1 => (queuesOf s part).map fun k => queueRung s (k / 4) (k % 4)
  | 2 => ((s.launches.filter fun p => p.2.part == part).map (·.1)).map (contextRung s)
  | _ => [rungOf n part]

def startRungs (s : State) (l : List Rung) : State := l.foldl startRung s

/-- A rung that waits begins when no rung under way is left on its scope. -/
def beginOne (s : State) : State :=
  match s.rungs.find? fun r => !r.begun && !(s.rungs.any fun x => x.begun && x.sameScope r) with
  | none => s
  | some r =>
    let r' := { r with begun := true, since := s.now 0 }
    actRung { s with rungs := s.rungs.map fun x => if x = r then r' else x } r'

/-- So do all that can. -/
def beginWaiting (s : State) : State := (List.range s.rungs.length).foldl (fun s _ => beginOne s) s

/-- Have the copies that a rung lets drain ended? -/
def rungDrained (s : State) (r : Rung) : Bool :=
  s.blocks.all fun p => match s.launch? p.2.launch with
    | some l => !r.takes p.2.launch l || p.2.chans.toList.all fun c => c.xfers.all fun x => x.st != .active
    | none => true

/-- One more range for a range set in rising order, joined with those it touches. -/
def joinRange : List (Nat × Nat) → Nat × Nat → List (Nat × Nat)
  | [], x => [x]
  | y :: r, x =>
    if y.2 < x.1 then y :: joinRange r x
    else if x.2 < y.1 then x :: y :: r
    else joinRange r (min x.1 y.1, max x.2 y.2)

/-- How many of a partition's cores are out of service (R328). -/
def offlineCount (s : State) (p : Partition) : Nat := (p.cores.filter fun c => (s.core c).out).length

/-- Every partition counts its cores out of service; sliced siblings share theirs. -/
def State.recount (s : State) : State :=
  { s with parts := s.parts.map fun q => (q.1, { q.2 with offline := offlineCount s q.2 }) }

/-- The siblings of a sliced child, itself left out (R327). -/
def siblings (s : State) (n : Nat) : List Nat := (sliceGroup s n).erase n

/-- The partition that a partition's resources came from: its parent, or partition 1 (R327, R340). -/
def Partition.giver (p : Partition) : Nat := if p.parent = 0 then 1 else p.parent

/-- A partition's clusters and ranges go back to its giver (R340). The host windows of its number stay (R326). A sliced child's
clusters go back with the last of its siblings. -/
def takeBack (s : State) (n : Nat) : State :=
  let p := s.part n
  let shared := p.sliced && !(siblings s n).isEmpty
  let q := s.part p.giver
  let q := { q with
    ranges := p.ranges.foldl joinRange q.ranges
    clusters := if shared then q.clusters else p.clusters.foldl natInsert q.clusters }
  { s with parts := dropKey (putKey s.parts p.giver { q with offline := offlineCount s q }) n
           keptWindows := putKey s.keptWindows n p.windows }

/-- A partition is removed after its DESTROY's rung, and the giver's capability block is rewritten (R329, R340). -/
def removePartition (s : State) (n : Nat) : State :=
  let p := s.part n
  let t := writeCap (takeBack s n) p.giver
  if p.sliced && !(siblings s n).isEmpty && p.active then beginSlice t (nextChild s n) else t

/-- REPORT ← status, as a release store under the issuing partition's table (R339). -/
def writeReport (s : State) (c : Pcmd) (status : Nat) : State :=
  match engTr s (s.part c.part) (c.va + 0xE8) .store with
  | .ok l => writeLoc s l 2 status false
  | _ => s

/-- A rung's action is complete. A function's request has completed with the last of its rungs; a cluster that is down
serves again once the rung of every partition that holds it is over (R251, R342). -/
def finishRung (s : State) (r : Rung) : State :=
  let left := s.rungs.erase r
  let holds (x : Rung) (g : Nat) : Bool := x.n == 4 && (s.part x.part).clusters.contains g
  let s := { s with
    rungs := left
    rungDone := (r.by_.filter fun f => !left.any fun x => x.by_.contains f).foldl natInsert s.rungDone
    downClusters := s.downClusters.filter fun g => !(holds r g && !left.any fun x => holds x g) }
  let s := (s.launches.filter fun p => r.takes p.1 p.2).foldl abandon s
  let s := match r.report with
    | some c => writeReport (removePartition s r.part) c 0
    | none => s
  beginWaiting s

/-- The page of a command's REPORT. -/
def reportPages (s : State) (c : Pcmd) : List (Partition × Word) := (pagesOf (c.va + 0xE8) 8).map fun va => (s.part c.part, va)

/-- The pages that the end of a rung needs. -/
def rungPages (s : State) (r : Rung) : List (Partition × Word) :=
  signalPages s ((s.launches.filter fun p => r.takes p.1 p.2).map fun p => p.2.completion 6 0xFF (s.now 0)) ++
    match r.report with
    | some c => capPages ((takeBack s r.part).part (s.part r.part).giver) ++ reportPages s c
    | none => []

def execRungComplete (n : Nat) (s : State) : Host.Outcome State Fault Refusal :=
  .next (match s.rungs[n]? with
    | some r =>
      if 5 ≤ r.n then deviceRung s r
      else if r.begun && rungDrained s r then withPages s (rungPages s r) fun s => finishRung s r else s
    | none => s)

/-- The rung over the scope that contains this one's (notes/assumptions/33.md). -/
def nextRungs (s : State) (r : Rung) : List Rung :=
  let up (x : Rung) : Rung := { x with by_ := r.by_, report := r.report }
  match r.n with
  | 1 =>
    let l := (s.launches.filter fun p => r.takes p.1 p.2).map fun p => up (contextRung s p.1)
    if l.isEmpty then [up (rungOf 3 r.part)] else l
  | 4 => [rungOf 5 r.part]
  | n => [up (rungOf (n + 1) r.part)]

/-- A rung has not completed within its limit; the device rung has none. What waited for it, or for the scope of the next, begins
if it now can. -/
def execRungEscalate (n : Nat) (s : State) : Host.Outcome State Fault Refusal :=
  .next (match s.rungs[n]? with
    | some r =>
      if r.begun && decide (r.n < 5) && decide (r.limit ≤ (s.now 0 - r.since).toNat) then
        beginWaiting (startRungs { s with rungs := s.rungs.erase r } (nextRungs s r))
      else s
    | none => s)

/-! ## FRESET (R342, R356) -/

/-- The partition of a function (R332). -/
def partOf (s : State) (fn : Nat) : Nat := if fn = 0 then 1 else (getKey s.vfmap fn).getD 1

/-- A request through FRESET that is permitted begins its rungs; FRSTAT's bit 8 is clear until they have completed, and the
rungs of an earlier request no longer count. -/
def freset (s : State) (fn : Nat) (l : List Rung) : State :=
  let s := { s with rungDone := natErase s.rungDone fn
                    rungs := s.rungs.map fun r => { r with by_ := r.by_.filter (· != fn) } }
  let s := startRungs s (l.map fun r => { r with by_ := [fn] })
  if l.isEmpty then { s with rungDone := natInsert s.rungDone fn } else s

/-- FRSTAT: the highest rung under way on the function's partition, on any for PF0, and whether its last request has
completed. -/
def frstatWord (s : State) (fn : Nat) : Word :=
  let mine := s.rungs.filter fun r => r.begun && (fn == 0 || r.part == partOf s fn)
  BitVec.ofNat 64 (mine.foldl (fun n r => max n r.n) 0 + if s.rungDone.contains fn then 256 else 0)

/-- PF0 may name any partition that exists; a VF acts in its own. -/
def fresetPart (s : State) (fn part : Nat) : Option Nat :=
  if !s.dev.ready then none
  else if fn = 0 then (if (getKey s.parts part).isSome then some part else none)
  else if fn ≤ 192 then some (partOf s fn) else none

/-- A VF names its own queue; PF0 names the queue of that number of every function of the partition. -/
def execFresetQueue (fn : Fn) (part : Nat) (q : Fin 4) (s : State) : Host.Outcome State Fault Refusal :=
  .next (match fresetPart s fn part with
    | none => s
    | some p =>
      if fn ≠ 0 then freset s fn [queueRung s fn q.val]
      else freset s fn (((queuesOf s p).filter fun k => k % 4 == q.val).map fun k => queueRung s (k / 4) q.val))

/-- The launch is named by its queue and its SEQ. -/
def execFresetContext (fn : Fn) (part seq : Nat) (q : Fin 4) (s : State) : Host.Outcome State Fault Refusal :=
  .next (match fresetPart s fn part with
    | none => s
    | some p => freset s fn ((s.launches.filter fun x => x.2.part == p && x.2.q == q.val && x.2.seq.toNat == seq % 2 ^ 32 &&
        (fn == 0 || x.2.fn == fn)).map fun x => contextRung s x.1))

def execFresetEngine (fn : Fn) (part : Nat) (s : State) : Host.Outcome State Fault Refusal :=
  .next (if fn ≠ 0 then s else match fresetPart s fn part with
    | none => s
    | some p => freset s fn [rungOf 3 p])

def execFresetPartition (fn : Fn) (part : Nat) (s : State) : Host.Outcome State Fault Refusal :=
  .next (if fn ≠ 0 then s else match fresetPart s fn part with
    | none => s
    | some p => freset s fn [rungOf 4 p])

/-- BAR0 answers from phase 2 on (R354). -/
def barAnswers (s : State) : Bool := s.dev.power && decide (2 ≤ s.dev.phase.toNat)

/-- Before READY too, PF0's request restarts the sequence at phase 1; a package that has stopped takes it in any phase. -/
def execFresetDevice (fn : Fn) (s : State) : Host.Outcome State Fault Refusal :=
  .next (if fn = 0 ∧ (barAnswers s ∨ (s.dev.power ∧ s.dev.stuck)) then beginDevice s { rungOf 5 1 with by_ := [0] } else s)

/-! ## Rungs that failures start (R251, R333) -/

/-- The partitions that own a cluster: one, or the sliced children that share it. -/
def ownersOf (s : State) (g : Nat) : List Nat := (s.parts.filter fun p => p.2.clusters.contains g).map (·.1)

/-- A cluster fault: requests to its range are refused, and its partitions take the partition rung, which stops their
blocks. -/
def execClusterFault (g : Nat) (s : State) : Host.Outcome State Fault Refusal :=
  .next (if 88 ≤ g then s
    else startRungs { s with downClusters := natInsert s.downClusters g } ((ownersOf s g).map (rungOf 4)))

/-- A block, running or failed and not yet replayed, that reaches no boundary within 1 ms of its slice's nominal end. -/
def execSliceOvershootTimeout (b : Nat) (s : State) : Host.Outcome State Fault Refusal :=
  .next (match getKey s.blocks b with
    | none => s
    | some x =>
      let p := s.part x.part
      match p.sliceEnd with
      | some t =>
        if p.sliced && p.active && (x.status == .running || x.status == .failed) && reached (s.now 0) (t + 1000000) then
          startRung s (contextRung s x.launch)
        else s
      | none => s)

end Sys2Proof.Machine
end

