-- ==== Sys2Proof/Machine/Migrate.lean ====
section
/-! DEFINITION. Blocks that leave their core: migration and the home-biased return (spec/18_die_classes_and_migration.md
R304 to R314), core faults, and operator replay (spec/08 R176, spec/21 R336, R337). -/

namespace Sys2Proof.Machine

/-! ## Migration (R306 to R310, R314) -/

/-- The banks that are live for a slot, as kind and number. -/
def Core.liveBanks (c : Core) (slot : Nat) : List (Nat × Nat) :=
  (([(0, 8), (1, 8), (2, 4)] : List (Nat × Nat)).flatMap fun p => (List.range p.2).map (p.1, ·)).filter fun p =>
    c.bankLive p.1 p.2 && c.bankOwner p.1 p.2 == slot

/-- The context that holds a bank of a core, if another slot's. -/
def otherOwner (s : State) (core slot : Nat) (p : Nat × Nat) : Option (Nat × Block) :=
  let c := s.core core
  if c.bankLive p.1 p.2 ∧ c.bankOwner p.1 p.2 ≠ slot then
    (c.slots[c.bankOwner p.1 p.2]?).join.bind fun id => (getKey s.blocks id).map (id, ·)
  else none

/-- A bank of the arriving block goes to the target core; the context that holds it there spills it (R172). -/
def bringBank (core slot : Nat) (s : State) (p : Nat × Nat) : State :=
  let s := match otherOwner s core slot p with
    | some (id, b) =>
      let a := b.agents[p.2 % 5]'(Nat.mod_lt _ (by decide))
      s.setBlock id (b.saveBank p.1 p.2 (a.v, a.vPoison))
    | none => s
  s.setCore core ((s.core core).setBank p.1 p.2 slot true)

/-- Does a copy or an instruction of another context hold a bank that must come to the target core? -/
def bankBlocked (s : State) (core slot : Nat) (p : Nat × Nat) : Bool :=
  match otherOwner s core slot p with
  | some (id, b) => bankHeld s core id b b.agentList p.1 p.2
  | none => false

/-- The forwarding records once a block has moved from one core to another: those that name it follow it, the core it
leaves installs one, and the core it reaches holds none of it. -/
def forwardTo (s : State) (id launch old new : Nat) : State :=
  let cores := s.cores.map fun p =>
    (p.1, { p.2 with forwards := (p.2.forwards.filter fun f => !(p.1 == new && f.block == id && f.launch == launch)).map fun f =>
      if f.block = id ∧ f.launch = launch then { f with core := new } else f })
  let s := { s with cores := cores }
  let c := s.core old
  s.setCore old { c with forwards := ⟨launch, id, new⟩ :: c.forwards.filter fun f => !(f.block == id && f.launch == launch) }

/-- The moved block takes its slot, with its banks. -/
def moveBlock (s : State) (id : Nat) (b : Block) (core slot : Nat) : State :=
  let old := s.core b.core
  let banks := old.liveBanks b.slot
  let s := s.setCore b.core { old.vacate b.slot with
    tile := old.tile.filter (·.block != id), waiters := old.waiters.filter (·.block != id) }
  let s := s.setCore core ((s.core core).takeSlot slot id)
  let s := banks.foldl (bringBank core slot) s
  let s := forwardTo s id b.launch b.core core
  let mig := { b.mig with mcnt := if b.mig.mcnt = 0xFFFF then b.mig.mcnt else b.mig.mcnt + 1 }
  { s with
    requests := s.requests.filter fun r => r.block != some id
    outbox := s.outbox ++ [Out.migrated id b.core core] }.setBlock id
      { b.paused with core := core, slot := slot, mig := mig, migrating := none, trigger := none, migChecked := false }

/-- A copy of the block's MP is under way, or a copy holds an item of the block. -/
def copiesOpen (b : Block) : Bool :=
  ((List.range 4).any fun n => match b.chans[n]? with | some c => c.busy | none => false) ||
    b.chans[4].xfers.any fun x => x.outstanding && match x.form with | .toItem .. => true | _ => false

/-- A unit of the core works on a word of the block, other than a long tile word that stops between units (R310). -/
def unitHolds (c : Core) (id : Nat) (b : Block) : Bool :=
  c.matrix.any (·.block == id) ||
    c.tile.any fun x => x.block == id && !(b.agents[x.agent % 5]'(Nat.mod_lt _ (by decide))).longTile

/-- May the block leave its core now (R306 step 3)? -/
def mayLeave (s : State) (id : Nat) (b : Block) : Bool := !copiesOpen b && !unitHolds (s.core b.core) id b

/-- May the block arrive on the core? -/
def mayArrive (s : State) (b : Block) (core : Nat) : Bool :=
  (s.part b.part).cores.contains core && !(s.core core).out && (s.runner core).isNone && (s.core core).freeSlot.isSome

/-- The block stays where it is. -/
def Block.stays (b : Block) : Block := { b with migrating := none, trigger := none, migChecked := false }

/-- The move is refused: the triggering word raises NOCAP, with the word in TVAL. -/
def refuseMove (s : State) (id w : Nat) : State :=
  withAgent s id w fun s =>
    let pc := s.ag.pc
    let s := s.setBlk s.blk.stays
    { s with cur := { s.cur with pc := pc } }.raise cNOCAP (fetchWord s s.blk pc).2

/-- Is the move of a block to the class refused by R308? -/
def refused (s : State) (id : Nat) (ochre : Bool) : Bool := moveRefused (enter s id 0) ochre

/-- The move of R306 to the core that Weld has chosen: the streams stop, the check of R308 follows at once, and the block
moves when step 3 lets it, and when the new core's time has reached the old one's, since no sample of an agent is less than an
earlier one (R281). A core that can no longer take the block is given up. -/
def migrateBlock (s : State) (id : Nat) (b : Block) (core : Nat) : State :=
  if !mayArrive s b core then s.setBlock id b.stays
  else if !blockMayStop s id b || !reached (s.now core) (s.now b.core) then s
  else if !b.migChecked && refused s id (isOchre core) then
    match b.trigger with
    | some w => refuseMove s id w
    | none => s.setBlock id b.stays
  else if !mayLeave s id b then s.setBlock id { b with migChecked := true }
  else match (s.core core).freeSlot with
    | some slot =>
      if ((s.core b.core).liveBanks b.slot).any (bankBlocked s core slot) then s.setBlock id { b with migChecked := true }
      else moveBlock s id b core slot
    | none => s

/-- A running block that is to move. -/
def withMigrating (s : State) (id : Nat) (f : Block → Nat → State) : State :=
  match getKey s.blocks id with
  | none => s
  | some b => match b.migrating with
    | none => s
    | some core => if b.status = .running then f b core else s

/-- A block whose next word its class lacks moves to a core of the other class. -/
def execMigrate (b : Nat) (s : State) : Host.Outcome State Fault Refusal :=
  .next (withMigrating s b fun x core => if x.trigger.isSome then migrateBlock s b x core else s)

/-- A home-biased block goes back to its home class after a MARK. A move that nothing asks for any more is given up. -/
def execHomeReturn (b : Nat) (s : State) : Host.Outcome State Fault Refusal :=
  .next (withMigrating s b fun x core =>
    if x.trigger.isSome then s
    else if x.mig.hb && isOchre core == x.mig.homec then migrateBlock s b x core
    else s.setBlock b x.stays)

/-! ## Core faults (R176, R313) -/

/-- The block whose state is on its way to a core. -/
def comingTo (s : State) (core : Nat) : Option (Nat × Block) :=
  s.blocks.find? fun p => p.2.migrating == some core && p.2.status == .running

/-- An uncorrectable error of the core, where a core fault is its effect: the running block stops until it is replayed, and
so does a block whose state, on its way to the core, holds the error (R313). -/
def execCoreFault (core : Nat) (fcode : BitVec 8) (s : State) : Host.Outcome State Fault Refusal :=
  .next (if coreExists core && [1, 3, 4].contains fcode.toNat then
      let s := s.setCore core { s.core core with fcode := fcode }
      match s.runner core, if fcode = 4 then comingTo s core else none with
      | some (id, b), _ => s.setBlock id { b.stays with status := .failed, faultCore := some core }
      | none, some (id, b) => s.setBlock id { b.stays with status := .failed, faultCore := some core }
      | none, none => s
    else s)

/-! ## Operator replay (R336, R337) -/

/-- Has the block a reason to be replayed: it has failed, or a stream has halted, or its MP has stopped? -/
def needsReplay (b : Block) : Bool :=
  b.status == .failed || (b.status == .running && b.agents.toList.any fun a => a.run == .halted || a.run == .mpStopped)

/-- Umber's moves for a replay: those fired after the boundary are forgotten, and one that an error of the engine ended
starts again (notes/assumptions/35.md). -/
def replayMoves (fired : List Nat) (c : Chan) : Chan :=
  let old (x : Transfer) : Bool := decide (x.desc.param2.toNat < fired.getD x.desc.param.toNat 0)
  { c with xfers := (c.xfers.filter old).map fun x =>
      if x.st = .faulted 3 then { Transfer.start x.id x.form with size := x.size, desc := x.desc, order := x.order } else x }

/-- Port 0 of a replay: the points the failed attempt claimed come first (R336). -/
def replayPorts (r : Replay) (b : Block) : Vector Port 4 :=
  let p := r.ports[0]
  r.ports.set 0 { p with res := ((b.claimed.filter (· != BitVec.allOnes 64)).map fun v => (v, false)) ++ b.ports[0].res }

/-- The commands of a block that the collective engine holds from the attempt that failed, and has not started, are dropped:
the replay pushes them again (notes/assumptions/35.md). -/
def dropCommands (s : State) (id : Nat) (r : Replay) : State :=
  { s with members := s.members.filter fun m => !(m.block == id && m.remote.isNone && !m.started && reached m.arrived r.tick) }

/-- The block as it resumes from its record, with dead storage scrubbed. -/
def Block.replayed (b : Block) (r : Replay) (core slot : Nat) : Block :=
  let ch := r.chans.set 4 (replayMoves r.ttF b.chans[4])
  { b with
    core := core, slot := slot, status := .running, agents := r.agents, ports := replayPorts r b, chans := ch, mig := r.mig
    reloc := r.reloc, ttF := r.ttF, ttC := r.ttC, tiles := r.tiles, accs := [], pad := r.pad, savedTiles := [], savedAccs := []
    savedVecs := [], works := [], replaying := true, failures := b.failures + 1, claimed := [], faultCore := none }.stays

/-- The core that failed under a block: its own, or the one that its state was on its way to (R313). -/
def Block.failedCore (b : Block) : Nat := b.faultCore.getD b.core

/-- The block leaves its slot, if it still holds it, and the failed core goes out of service. -/
def retireCore (s : State) (id : Nat) (b : Block) : State :=
  let mine (j : Option Job) : Option Job := j.filter fun x => x.block != id
  let s := slotOut s (id, b)
  let c := s.core b.core
  let s := s.setCore b.core { c with matrix := mine c.matrix, tile := mine c.tile }
  (s.setCore b.failedCore { s.core b.failedCore with out := true }).recount

/-- The cores on which a failed block may resume: free, of its class, not the failed one, and with no forwarding record of
its launch, even its own, since a replay is no migration (R309, R314). -/
def replayCores (s : State) (b : Block) : List Nat :=
  (freeCores s (s.part b.part) b.launch none (some (isOchre b.core))).filter (· != b.failedCore)

/-- The block resumes on another core of its class, a sliced child's in its slice (R333), once that core's time has reached the
old one's (R281); an operator that fails a fourth
time starts the partition rung. -/
def execOperatorReplay (b : Nat) (s : State) : Host.Outcome State Fault Refusal :=
  .next (match getKey s.blocks b with
    | none => s
    | some x =>
      if !needsReplay x || !(s.part x.part).active then s
      else if 3 ≤ x.failures then startRung (s.setBlock b { x with failures := 4 }) (rungOf 4 x.part)
      else match x.replay, chooseCore s (s.part x.part) (replayCores s x) with
        | some r, some core =>
          if !reached (s.now core) (s.now x.core) then s else
          let s := dropCommands (retireCore s b x) b r
          let slot := ((s.core core).freeSlot).getD 0
          let s := s.setCore core ((s.core core).takeSlot slot b)
          { s with requests := s.requests.filter fun q => q.block != some b }.setBlock b (x.replayed r core slot)
        | _, _ => s)

/-- A tested core passes and returns to service. -/
def execBuiltInTestPass (core : Nat) (s : State) : Host.Outcome State Fault Refusal :=
  .next (let c := s.core core
    if !c.out then s else (s.setCore core { c with out := false }).recount)

end Sys2Proof.Machine
end

