-- ==== Sys2Proof/Machine/Packet.lean ====
section
/-! DEFINITION. What Madder reads and checks at a LOAD and a LAUNCH: packets, slot images, stage records, block images,
bucket tables, timetables and coverage records (spec/20 R317, R320, R321, spec/14 R252, R264, spec/15 R272 to R275,
spec/16 R299, R300, spec/20 R363, R365). -/

namespace Sys2Proof.Machine

/-- `n` bytes of a record from byte `off`. -/
def fld (x off n : Nat) : Nat := x / 2 ^ (8 * off) % 2 ^ (8 * n)

/-- A 64-bit field. -/
def quad (x off : Nat) : Word := BitVec.ofNat 64 (fld x off 8)

/-- Bytes lo to hi, both inclusive, are zero. -/
def zeroFrom (x lo hi : Nat) : Bool := fld x lo (hi + 1 - lo) == 0

/-! ## Packets (R317, R319) -/

def Pkt.type (x : Nat) : Nat := fld x 4 1
def Pkt.barrier (x : Nat) : Bool := (fld x 5 1).testBit 2
def Pkt.slot (x : Nat) : Nat := fld x 8 4

/-- What R317 marks for every type. -/
def Pkt.commonOk (x : Nat) : Bool :=
  decide (fld x 5 1 < 8) && fld x 0x18 8 % 8 == 0 && fld x 0x28 8 % 64 == 0 &&
    ((fld x 5 1).testBit 0 || fld x 0x18 8 == 0)

/-- The fields that a NOP, a LOAD, a LAUNCH and an EVICT leave zero, and their limits. -/
def Pkt.nopOk (x : Nat) : Bool := Pkt.commonOk x && zeroFrom x 6 0x17 && zeroFrom x 0x30 0xFF
def Pkt.loadOk (x : Nat) : Bool :=
  Pkt.commonOk x && zeroFrom x 6 7 && decide (Pkt.slot x ≤ 1023) && zeroFrom x 0xC 0xF && zeroFrom x 0x30 0x37 && zeroFrom x 0x40 0xFF
def Pkt.evictOk (x : Nat) : Bool := Pkt.loadOk x && zeroFrom x 0x38 0x3F
def Pkt.launchOk (x : Nat) : Bool :=
  let ns := fld x 6 1
  let nb := fld x 7 1
  Pkt.commonOk x && decide (1 ≤ ns) && decide (ns ≤ 8) && decide (nb ≤ 16) && decide (Pkt.slot x ≤ 1023) &&
    zeroFrom x 0x38 0x3F && (ns == 8 || zeroFrom x (0x40 + 8 * ns) 0x7F) && (nb == 16 || zeroFrom x (0x80 + 8 * nb) 0xFF)

/-- The completion of a packet at once. -/
def Pkt.completion (part fn q x status : Nat) (now : Word) : Completion :=
  ⟨part, fn, q, BitVec.ofNat 32 (fld x 0 4), quad x 0x28, (fld x 5 1).testBit 0, quad x 0x18, quad x 0x20, status, 0, 0, 0, 0xFF, 0, now⟩

/-! ## Bytes that a packet names -/

/-- A byte at an address of a packet (R317). -/
def packetByte (s : State) (p : Partition) (addr : Word) : Option Byte := (packetPa s p addr .load).map s.mem.byte

/-- The bytes of an image, from offset i on, as a memory. -/
def readImage (s : State) (p : Partition) (addr : Word) : Nat → Nat → Option Memory
  | 0, _ => some []
  | n + 1, i => match packetByte s p (addr + BitVec.ofNat 64 i), readImage s p addr n (i + 1) with
    | some b, some m => some (if b = unlisted then m else (i, b) :: m)
    | _, _ => none

/-- Bytes of an image as a number. -/
def imageNum (m : Memory) (off n : Nat) : Nat := (Store.mk m []).readLE off n

/-- One bit of CRC-32C, reflected (notes/assumptions/36.md). -/
def crcBit (c : BitVec 32) : BitVec 32 := if c.getLsbD 0 then (c >>> 1) ^^^ 0x82F63B78#32 else c >>> 1
def crcByte (c : BitVec 32) (b : Byte) : BitVec 32 :=
  crcBit (crcBit (crcBit (crcBit (crcBit (crcBit (crcBit (crcBit (c ^^^ b.setWidth 32))))))))
/-- CRC-32C of `n` bytes from `off`. -/
def crcFrom (m : Memory) : Nat → Nat → BitVec 32 → BitVec 32
  | 0, _, c => c
  | n + 1, off, c => crcFrom m n (off + 1) (crcByte c (m.read off))
def crc32c (m : Memory) (off n : Nat) : BitVec 32 := ~~~(crcFrom m n off 0xFFFFFFFF#32)

/-- The header of a slot image (R321). -/
def imageHeaderOk (h : Nat) : Bool :=
  let size := fld h 0 8
  size % 4096 == 0 && decide (4096 ≤ size) && decide (size ≤ 2 ^ 40) && decide (fld h 8 1 ≤ 16) && decide (fld h 9 1 < 2) &&
    zeroFrom h 0xA 0xF && (fld h 9 1 == 1 || fld h 0x10 8 == 0) && zeroFrom h 0x1C 0x3F

/-- How many bytes of the image at an address a LOAD reads: its header, or all of it once the header keeps to R321. -/
def imageReach (s : State) (p : Partition) (addr : Word) : Nat :=
  match readImage s p addr 64 0 with
  | none => 64
  | some m =>
    let h := imageNum m 0 64
    if imageHeaderOk h then fld h 0 8 else 64

/-- The image at an address, if it keeps to R321. -/
def loadImage (s : State) (p : Partition) (addr : Word) : Option Memory :=
  match readImage s p addr (imageReach s p addr) 0 with
  | none => none
  | some m =>
    let h := imageNum m 0 64
    if imageHeaderOk h && crc32c m 0x40 (fld h 0 8 - 0x40) == BitVec.ofNat 32 (fld h 0x18 4) then some m else none

/-- A slot that a LOAD fills. -/
def Slot.ofImage (m : Memory) (frames : List (Nat × Nat)) (c : Completion) : Slot :=
  let h := imageNum m 0 64
  { st := .loading, owners := [c], evicts := [], size := fld h 0 8, nbuf := fld h 8 1, buckets := fld h 9 1 == 1, bkt := fld h 0x10 8,
    image := m, frames := frames, maps := [], lnum := 0, fracs := [] }

/-! ## The frames of a slot (R296, R321; notes/assumptions/7.md) -/

/-- A stretch of frames on one die, `last` not included. -/
structure Chunk where
  die : Nat
  first : Nat
  last : Nat
  deriving DecidableEq, Repr

/-- The die of a cluster's stack (R230). -/
def dieOf (g : Nat) : Nat := if g < 72 then g / 12 else 6 + (g - 72) / 8

/-- The frames of a partition's memory, cluster by cluster. -/
def frameChunks (p : Partition) : List Chunk :=
  p.ranges.flatMap fun r => ((List.range 88).map fun g =>
    (⟨dieOf g, (max r.1 (g * 2 ^ 32) + 4095) / 4096, min r.2 ((g + 1) * 2 ^ 32) / 4096⟩ : Chunk)).filter fun c =>
      decide (c.first < c.last)

def frameCount (l : List Chunk) : Nat := (l.map fun c => c.last - c.first).sum

/-- Frame `n` of some stretches, with its die. -/
def frameNo : List Chunk → Nat → Option (Nat × Nat)
  | [], _ => none
  | c :: r, n => if n < c.last - c.first then some (c.die, c.first + n) else frameNo r (n - (c.last - c.first))

/-- The first frame that no page has, downwards from where Madder begins. -/
def pickFrame (l : List Chunk) (used : List Nat) (start : Nat) : Option (Nat × Nat) :=
  let t := frameCount l
  (List.range (min t (used.length + 1))).findSome? fun i =>
    (frameNo l (t - 1 - (start + i) % t)).filter fun f => !used.contains f.2

/-- Two frames for each of `n` pages, on stacks of different dies where the partition has such; `k` counts Madder's choices. -/
def takeFrames (l : List Chunk) : Nat → Nat → List Nat → List (Nat × Nat)
  | 0, _, _ => []
  | n + 1, k, used =>
    match pickFrame l used (Config.frameAt k) with
    | none => []
    | some (d, a) =>
      match (pickFrame (l.filter fun c => c.die != d) (a :: used) (Config.frameAt (k + 1))).or
          (pickFrame l (a :: used) (Config.frameAt (k + 1))) with
      | none => []
      | some (_, b) => (4096 * a, 4096 * b) :: takeFrames l n (k + 2) (b :: a :: used)

/-- The addresses of the frames that slots hold. -/
def slotFrames (s : State) : List Nat :=
  s.parts.flatMap fun p => p.2.slots.flatMap fun x => x.2.frames.flatMap fun f => [f.1, f.2]

/-- The pages of an image are written, each at its two places. -/
def writeFrames (m : Memory) : Nat → List (Nat × Nat) → State → State
  | _, [], s => s
  | i, (a, b) :: r, s =>
    let x := m.window (4096 * i) 4096
    let t := (s.snoop a 4096).snoop b 4096
    writeFrames m (i + 1) r { t with mem := (t.mem.copyIn a x 4096 0).copyIn b x 4096 0 }

/-- An image is copied into its partition's memory; the frames it takes. -/
def placeImage (s : State) (p : Partition) (m : Memory) : State × List (Nat × Nat) :=
  let frames := takeFrames (frameChunks p) (fld (imageNum m 0 64) 0 8 / 4096) s.free ((slotFrames s).map (· / 4096))
  ({ writeFrames m 0 frames s with free := s.free + 2 * frames.length }, frames)

/-! ## Buckets (R299, R300) -/

def bucketOk (x : Nat) : Bool :=
  let len := fld x 0 4
  zeroFrom x 0x1B 0x1F && (len == 0 || (len % 16 == 0 && decide (16 ≤ len) && decide (len ≤ 1048576) &&
    fld x 0x10 8 % 4096 == 0 && decide (fld x 0x1A 1 ≤ 7)))

/-- The lengths rise, and end with zeros. -/
def bucketsRise : List Nat → Bool
  | a :: b :: r => (decide (a < b) && a != 0 || b == 0) && bucketsRise (b :: r)
  | _ => true

/-- The record that a length selects, with its index: none where the table breaks R299 or no record fits. -/
def chooseBucket (m : Memory) (bkt n : Nat) : Option (Nat × Nat) :=
  let l := (List.range 6).map fun i => imageNum m (bkt + 32 * i) 32
  if n = 0 ∨ !(l.all bucketOk) ∨ !(bucketsRise (l.map (fld · 0 4))) then none
  else (l.zipIdx.find? fun p => decide (n ≤ fld p.1 0 4))

/-! ## Timetables (R272 to R275) -/

def ttEntryOk (x : Nat) : Bool :=
  let kind := fld x 8 1 / 4 % 16
  let dst := fld x 0x18 8
  decide (fld x 0 4 < 2 ^ 31) && decide (fld x 4 4 < 2 ^ 31) && fld x 0 4 != fld x 4 4 && decide (fld x 8 1 < 64) &&
    decide (kind ≤ 3) && decide (fld x 9 1 < 32) && decide (fld x 0xA 1 < 32) && zeroFrom x 0xB 0xB &&
    decide (1 ≤ fld x 0xC 4) && decide (fld x 0xC 4 ≤ 1048576) && zeroFrom x 0x30 0x3F &&
    (kind != 1 || (fld x 0xC 4 == 2304 && BitVec.ofNat 64 dst &&& ~~~0xF_FFFF_01FF#64 == 0 && fld x 0x28 8 == 0)) &&
    (kind < 2 || (fld x 0xA 1 == 0 && dst == 0))

def relocField (x : Nat) : Option (Fin 16) := if x.testBit 4 then some (Fin.ofNat 16 x) else none

def ttEntryOf (x : Nat) : TtEntry where
  trig := fld x 0 4
  need := fld x 4 4
  stream := fld x 8 1 % 4
  kind := fld x 8 1 / 4 % 16
  rsrc := relocField (fld x 9 1)
  rdst := relocField (fld x 0xA 1)
  len := fld x 0xC 4
  src := quad x 0x10
  dst := quad x 0x18
  sstep := quad x 0x20
  dstep := quad x 0x28

/-- A list of options, all present. -/
def allSome {α : Type} : List (Option α) → Option (List α)
  | [] => some []
  | some x :: r => (allSome r).map (x :: ·)
  | none :: _ => none

/-- The timetable at an address, or none where it breaks a rule; address 0 is no timetable. -/
def readTimetable (s : State) (p : Partition) (va : Word) : Option (List TtEntry) :=
  if va = 0 then some []
  else match readBytes s p va 64 with
    | none => none
    | some (h, _) =>
      let n := fld h 0 4
      if n = 0 ∨ 4096 < n ∨ !zeroFrom h 4 0x3F then none
      else allSome ((List.range n).map fun i => (readBytes s p (va + BitVec.ofNat 64 (64 + 64 * i)) 64).bind fun x =>
        if ttEntryOk x.1 then some (ttEntryOf x.1) else none)

/-! ## Coverage records (R264) -/

def covOutOk (x : Nat) : Bool :=
  let tag : BitVec 8 := BitVec.ofNat 8 (fld x 0x30 1)
  decide (1 ≤ fld x 0x28 4) && decide (fld x 0x28 4 ≤ 4096) && decide (1 ≤ fld x 0x2C 4) && decide (fld x 0x2C 4 ≤ 65536) &&
    tagValid tag.toNat && zeroFrom x 0x31 0x3F && (!tagScaled tag || fld x 0x2C 4 % 32 == 0)

def covOutOf (x : Nat) : CovOut where
  base := quad x 0
  sx := quad x 8
  sy := quad x 0x10
  sz := quad x 0x18
  rs := quad x 0x20
  pr := fld x 0x28 4
  pe := fld x 0x2C 4
  tag := BitVec.ofNat 8 (fld x 0x30 1)

def readCoverage (s : State) (p : Partition) (va : Word) : Option CovRec :=
  match readBytes s p va 64 with
  | none => none
  | some (h, _) =>
    let n := fld h 3 1
    if patternInvalid (BitVec.ofNat 8 (fld h 0 1)) || decide (2 ≤ fld h 2 1) || n == 0 || decide (4 < n) || !zeroFrom h 4 7 ||
        !zeroFrom h 0x10 0x3F then none
    else (allSome ((List.range n).map fun j => (readBytes s p (va + BitVec.ofNat 64 (64 + 64 * j)) 64).bind fun x =>
      if covOutOk x.1 then some (covOutOf x.1) else none)).map fun outs =>
        ⟨BitVec.ofNat 8 (fld h 0 1), BitVec.ofNat 8 (fld h 1 1), fld h 2 1 == 1, quad h 8, outs⟩

/-! ## The bytes that a check reads (R236, R247) -/

/-- A record of 64 bytes, and the entries of 64 bytes after it, whose number is in bytes `off` on of the record. -/
def tableReads (s : State) (p : Partition) (va : Word) (off n : Nat) : List (Word × Nat) :=
  if va = 0 then []
  else match readBytes s p va 64 with
    | some (h, _) => [(va, 64 + 64 * min (fld h off n) 4096)]
    | none => [(va, 64)]

/-- A launch's stage records, timetables and coverage records; those that a record names once it is at hand. -/
def launchReads (s : State) (p : Partition) (x : Nat) (extra : List Word) : List (Word × Nat) :=
  let recs := quad x 0x30
  (recs, 64 * fld x 6 1) :: ((List.range (fld x 6 1)).flatMap fun i =>
    tableReads s p (quad x (0x40 + 8 * i)) 0 4 ++ match readBytes s p (recs + BitVec.ofNat 64 (64 * i)) 64 with
      | some (r, _) => if (fld r 0x10 1).testBit 3 then tableReads s p (quad r 0x38) 3 1 else []
      | none => []) ++ extra.flatMap fun va => tableReads s p va 0 4

/-! ## Block images (R363, R365) -/

/-- Does an address lie in the text that a header gives? -/
def inTextOf (h : Nat) (va : Nat) : Bool :=
  decide (fld h 8 8 ≤ va) && decide (va < fld h 8 8 + fld h 0x18 8) && va % 8 == 0

/-- The header of a block image at `prog` of a slot image of `size` bytes. -/
def blockHeaderOk (h prog size : Nat) : Bool :=
  let va := fld h 8 8
  let last := va + fld h 0x18 8 - 1
  fld h 0 4 == 0x31494B42 && decide (fld h 4 1 < 32) && zeroFrom h 5 7 && va % 4096 == 0 &&
    decide (last < 2 ^ 64) && canonical (BitVec.ofNat 64 va) && canonical (BitVec.ofNat 64 last) &&
    !inWindow (BitVec.ofNat 64 va) && !inWindow (BitVec.ofNat 64 last) && fld h 0x10 8 % 4096 == 0 &&
    fld h 0x18 8 % 4096 == 0 && decide (4096 ≤ fld h 0x18 8) && decide (fld h 0x18 8 ≤ 2 ^ 32) &&
    ((List.range 5).all fun w => if (fld h 4 1).testBit w then inTextOf h (fld h (0x20 + 8 * w) 8) else fld h (0x20 + 8 * w) 8 == 0) &&
    decide (fld h 0x48 4 ≤ 65536) && zeroFrom h 0x4C 0x4F && fld h 0x50 8 % 32 == 0 && zeroFrom h 0x58 0xFF &&
    decide (prog + fld h 0x10 8 + fld h 0x18 8 ≤ size) && decide (prog + fld h 0x50 8 + 32 * fld h 0x48 4 ≤ size)

/-- A section record. -/
def sectionOk (x prog size sprows : Nat) : Bool :=
  let kind := fld x 0 1
  let handle := kind == 4
  let meta_ := quad x 0x18
  decide (1 ≤ kind) && decide (kind ≤ 4) && zeroFrom x 3 3 &&
    (if handle then decide (fld x 1 1 ≤ 4) && decide (fld x 2 1 ≤ 31) else zeroFrom x 1 2) &&
    (match kind with
      | 1 => decide (1 ≤ fld x 4 4) && meta_ == 0
      | 2 => decide (1 ≤ fld x 4 4) && fld x 8 8 % 256 == 0 && decide ((fld x 8 8 + fld x 4 4 - 1) / 256 < sprows) && meta_ == 0
      | 3 => fld x 4 4 == 2176 && decide (fld x 8 8 ≤ 511) && meta_ &&& 0xFFFF_FF00_FC00_0000#64 == 0 &&
          tagValid (meta_.extractLsb' 32 8).toNat
      | _ => fld x 4 4 == 0 && fld x 0x10 8 == 0 && meta_ >>> 16 == 0 && !hsetRefused (fld x 1 1 == 4) (quad x 8) meta_) &&
    (handle || decide (prog + fld x 0x10 8 + fld x 4 4 ≤ size))

def sectionOf (x : Nat) : Section where
  kind := fld x 0 1
  agent := fld x 1 1
  num := fld x 2 1
  addr := quad x 8
  size := fld x 4 4
  off := fld x 0x10 8
  info := quad x 0x18

/-! ## Stage records (R252) -/

def gridOk (x : Nat) (on : Bool) : Bool :=
  if on then
    decide (1 ≤ fld x 0x28 4) && decide (fld x 0x28 4 ≤ 16777214) && decide (1 ≤ fld x 0x2C 4) &&
      decide (fld x 0x2C 4 ≤ 16777214) && decide (1 ≤ fld x 0x30 2) && decide (fld x 0x30 2 ≤ 32767)
  else zeroFrom x 0x28 0x31

def stageRecOk (x : Nat) : Bool :=
  let ctl := fld x 0x10 1
  fld x 0 8 % 4096 == 0 && decide (fld x 8 4 ≤ fld x 0xC 4) && decide (1 ≤ fld x 0xC 4) && decide (fld x 0xC 4 ≤ 704) &&
    decide (ctl < 64) && ctl / 16 != 3 && (!ctl.testBit 3 || ctl.testBit 2) && zeroFrom x 0x11 0x11 &&
    decide (fld x 0x12 2 ≤ 8192) && zeroFrom x 0x14 0x17 && zeroFrom x 0x32 0x37 && gridOk x (ctl.testBit 2)

/-- A stage, from its record with PROG and timetable as the bucket may replace them, or none where a rule is broken. -/
def readStage (s : State) (p : Partition) (slot : Slot) (x prog : Nat) (ttab : Word) : Option Stage :=
  let ctl := fld x 0x10 1
  let h := imageNum slot.image prog 256
  let sprows := if fld x 0x12 2 = 0 then 8192 else fld x 0x12 2
  let secs := (List.range (fld h 0x48 4)).map fun i => imageNum slot.image (prog + fld h 0x50 8 + 32 * i) 32
  if !stageRecOk x || prog % 4096 != 0 || decide (slot.size < prog + 256) || !blockHeaderOk h prog slot.size then none
  else if !secs.all fun y => sectionOk y prog slot.size sprows then none
  else match readTimetable s p ttab with
    | none => none
    | some tt =>
      let cov := if ctl.testBit 3 then (readCoverage s p (quad x 0x38)).map some else some none
      cov.map fun cov => {
        prog := prog, minInst := fld x 8 4, maxInst := fld x 0xC 4, prio := ctl % 4, home := ctl / 16, sprows := sprows
        inRing := quad x 0x18, outRing := quad x 0x20
        walker := if ctl.testBit 2 then some ⟨fld x 0x28 4, fld x 0x2C 4, fld x 0x30 2, 0, 0, [], [], [], [], 256, [], []⟩ else none
        cov := cov, tt := tt, agents := BitVec.ofNat 8 (fld h 4 1), textVa := quad h 8, textOff := fld h 0x10 8
        textSize := fld h 0x18 8, entry := Vector.ofFn fun w : Fin 5 => quad h (0x20 + 8 * w.val)
        sections := secs.map sectionOf, started := fld x 0x18 8 == 0, finished := false, closed := false, placed := 0 }

end Sys2Proof.Machine
end

