-- ==== Sys2Proof/Machine/Queue.lean ====
section
/-! DEFINITION. The host's queues and Madder: kicks, packets, slots, launches from their packet to their retirement, and
Madder's reload (spec/20_package_host_and_commands.md R316 to R325, spec/14 R254, R261, R268, spec/15 R284, spec/16 R300). -/

namespace Sys2Proof.Machine

/-! ## QCTL and QKICK (R316, R318, R356) -/

/-- QCTL as the host reads it. -/
def Queue.ctlWord (q : Queue) : Word :=
  BitVec.ofNat 64 (q.tenant.toNat * 2 ^ 16 + q.log2 * 16 + q.loc.toNat * 2 + q.en.toNat)

/-- A write of QCTL; TENANT is written only through PF0's path to a VF's queue. -/
def Queue.writeCtl (q : Queue) (tenantPath ready : Bool) (v : Word) : Queue :=
  let l := (v.extractLsb' 4 4).toNat
  let q := if tenantPath then { q with tenant := v.extractLsb' 16 8 } else q
  let q := if q.en then q else { q with log2 := if l < 4 then 4 else l, loc := v.getLsbD 1 }
  if v.getLsbD 0 then
    if ready then
      { q with en := true, done := 0, errCode := 0, errSeq := 0, k := 0xFFFFFFFF, n := 0, since := none, matched := false }
    else { q with en := false }
  else { q with en := false, since := none, matched := false }

/-- P1ROOT becomes read-only when a queue of partition 1 is first enabled (R357). A kick latched before the write announces
nothing any more (R318, R325). -/
def writeQctl (s : State) (tenantPath : Bool) (fn q : Nat) (v : Word) : State :=
  let key := queueKey fn q
  let x := (s.queue key).writeCtl tenantPath s.dev.ready v
  { s.setQueue key x with p1used := s.p1used || (x.en && partOf s fn == 1), latched := dropKey s.latched key }

def execQctlWrite (pf0 : Bool) (fn : Fn) (q : Fin 4) (v : Word) (s : State) : Host.Outcome State Fault Refusal :=
  .next (if fn ≤ 192 ∧ barAnswers s then writeQctl s (pf0 && fn != 0) fn q.val v else s)

/-- A kick of k replaces K when it lies ahead. -/
def kicked (old k : BitVec 32) : BitVec 32 :=
  let d := (k - old).toNat
  if 1 ≤ d ∧ d < 2 ^ 31 then k else old

/-- During a reload the latest kick is latched (R325). -/
def kick (s : State) (key : Nat) (k : BitVec 32) : State :=
  let q := s.queue key
  if !s.dev.ready || !q.en then s
  else if s.reloading then { s with latched := putKey s.latched key (kicked ((getKey s.latched key).getD q.k) k) }
  else s.setQueue key { q with k := kicked q.k k }

def execQkick (fn : Fn) (q : Fin 4) (k : Word) (s : State) : Host.Outcome State Fault Refusal :=
  .next (if fn ≤ 192 then kick s (queueKey fn q.val) (k.setWidth 32) else s)

/-! ## Packets read (R317, R318) -/

/-- The address of the packet slot of N. -/
def Queue.slotAddr (q : Queue) : Word := q.base + BitVec.ofNat 64 (256 * (q.n.toNat % 2 ^ q.log2))

/-- The physical place of the packet slot of N. -/
def slotPlace (s : State) (fn : Nat) (q : Queue) : Option Nat :=
  let p := s.part (partOf s fn)
  if q.loc then
    match engTr s p q.slotAddr .load with
    | .ok (.phys pa) => some pa
    | _ => none
  else if inHostWindow s p q.slotAddr.toNat then some q.slotAddr.toNat else none

/-- The pages of the first `n` bytes of the packet slot of N. -/
def slotPages (q : Queue) (n : Nat) : List Word := if q.loc then pagesOf q.slotAddr n else []

/-- `n` bytes of the packet of N. -/
def readPacket (s : State) (fn : Nat) (q : Queue) (n : Nat) : Option Nat :=
  (slotPlace s fn q).map fun pa => s.mem.readLE pa n

/-- Does SEQ read as N? -/
def seqMatches (s : State) (fn : Nat) (q : Queue) : Bool := readPacket s fn q 4 == some q.n.toNat

/-- Is N at or before K? -/
def Queue.announced (q : Queue) : Bool := decide ((q.k - q.n).toNat < 2 ^ 31)

/-- Madder is at work on an enabled queue. -/
def madderOn (s : State) (q : Queue) : Bool := s.dev.ready && !s.reloading && q.en && s.rungs.all fun r => decide (r.n < 5)

/-- A read of `n` bytes of the packet slot has the host give up their lines (R247). -/
def snoopPacket (s : State) (fn : Nat) (q : Queue) (n : Nat) : State :=
  if q.loc then s.snoopRead (s.part (partOf s fn)) q.slotAddr n else s

/-- Madder reads SEQ, once it has walked to its page. -/
def seqRead (s : State) (fn key : Nat) (q : Queue) : State :=
  withWalks s (s.part (partOf s fn)) (slotPages q 4) fun s =>
    let s := snoopPacket s fn q 4
    if seqMatches s fn q then s.setQueue key { q with matched := true, since := none }
    else s.setQueue key { q with since := some (q.since.getD (s.now 0)) }

def execSeqRead (fn : Fn) (q : Fin 4) (s : State) : Host.Outcome State Fault Refusal :=
  .next (let key := queueKey fn q.val
    let x := s.queue key
    if madderOn s x && x.announced && !x.matched && x.since.isNone then seqRead s fn key x else s)

/-- Ticks since the first read of a SEQ that did not match. -/
def waited (s : State) (q : Queue) : Nat :=
  match q.since with
  | some t => (s.now 0 - t).toNat
  | none => 0

def execSeqReread (fn : Fn) (q : Fin 4) (s : State) : Host.Outcome State Fault Refusal :=
  .next (let key := queueKey fn q.val
    let x := s.queue key
    if madderOn s x && !x.matched && x.since.isSome && decide (1000 ≤ waited s x) then seqRead s fn key x else s)

def execSeqTimeout (fn : Fn) (q : Fin 4) (s : State) : Host.Outcome State Fault Refusal :=
  .next (let key := queueKey fn q.val
    let x := s.queue key
    if madderOn s x && !x.matched && x.since.isSome && decide (1000000 ≤ waited s x) then
      startRung (disableQueue (setQerr s key 5 x.n) key) (queueRung s fn q.val)
    else s)

/-! ## Packets taken (R319) -/

/-- Every earlier packet of the queue has completed. -/
def queueClear (s : State) (fn q : Nat) : Bool :=
  (s.launches.all fun p => !(p.2.fn == fn && p.2.q == q)) && (s.completions.all fun c => !(c.fn == fn && c.q == q)) &&
    s.parts.all fun p => p.2.slots.all fun x => (x.2.owners ++ x.2.evicts).all fun c => !(c.fn == fn && c.q == q)

/-- The slot of a packet. -/
def slotOf (s : State) (fn p : Nat) : Option Slot := getKey (s.part (partOf s fn)).slots (Pkt.slot p)

/-- A rung under way holds new launches back. -/
def launchHeld (s : State) (fn q : Nat) : Bool :=
  s.thermalHold || s.rungs.any fun r => r.begun && (if r.n = 1 then r.fn == fn && r.q == q else decide (3 ≤ r.n) && r.part == partOf s fn)

/-- A LAUNCH waits while launches are held, and while its slot loads. -/
def launchWaits (s : State) (fn q x : Nat) : Bool :=
  Pkt.type x == 2 && (launchHeld s fn q || (Pkt.launchOk x && (slotOf s fn x).any (fun y => y.st == .loading)))

/-- May the packet of N of a queue be taken, as far as its queue goes? One that Madder has not walked to has its turn as well. -/
def takeable (s : State) (key : Nat) : Bool :=
  let fn := key / 4
  let q := s.queue key
  madderOn s q && q.matched && match readPacket s fn q 256 with
    | some x => (!Pkt.barrier x || queueClear s fn (key % 4)) && !launchWaits s fn (key % 4) x
    | none => true

/-- The queue whose packet Madder takes next: among those with one to take, the first after the queue it took from last. -/
def nextQueue (s : State) : Option Nat :=
  let l := (s.queues.map (·.1)).filter (takeable s)
  match s.served with
  | some k => (l.find? fun x => decide (k < x)).or l.head?
  | none => l.head?

/-- The packet is taken: N and QDONE advance. -/
def takePacket (s : State) (key : Nat) : State :=
  let q := s.queue key
  { s with served := some key }.setQueue key { q with n := q.n + 1, done := q.n + 1, matched := false, since := none }

/-- An event of a packet whose SEQ has been read as N, and whose type is one of those given, when its queue's turn has come:
Madder walks to the packet, then to `pages` and to where its completion goes, and acts. A slot that it cannot read loses its
turn. -/
def withPacket (fn : Nat) (q : Fin 4) (type : Nat → Bool) (s : State) (pages : Nat → List Word) (f : Nat → State → State) :
    State :=
  let key := queueKey fn q.val
  let x := s.queue key
  let part := s.part (partOf s fn)
  if nextQueue s = some key then
    match readPacket s fn x 256 with
    | none => withWalks s part (slotPages x 256) fun s => { s with served := some key }
    | some p =>
      if type (Pkt.type p) then
        let p := p / 2 ^ 32 * 2 ^ 32 + x.n.toNat
        withWalks s part (slotPages x 256 ++ pages p ++ (Pkt.completion (partOf s fn) fn q.val p 0 0).pages) fun s =>
          f p (snoopPacket s fn x 256)
      else s
  else s

/-- A packet is taken and completes at once. -/
def completeNow (s : State) (fn : Nat) (q : Fin 4) (p status : Nat) : State :=
  complete (takePacket s (queueKey fn q.val)) (Pkt.completion (partOf s fn) fn q.val p status (s.now 0))

/-- A NOP, or a packet whose TYPE is not defined. -/
def execNopPacket (fn : Fn) (q : Fin 4) (s : State) : Host.Outcome State Fault Refusal :=
  .next (withPacket fn q (fun t => t == 0 || decide (3 < t)) s (fun _ => []) fun p s =>
    completeNow s fn q p (if Pkt.type p = 0 && Pkt.nopOk p then 0 else 4))

def setSlot (s : State) (part n : Nat) (x : Slot) : State :=
  let p := s.part part
  s.setPart part { p with slots := putKey p.slots n x }

/-- The pages of the image of a LOAD that Madder reads. -/
def loadPages (s : State) (fn : Nat) (p : Nat) : List Word :=
  if !Pkt.loadOk p || (slotOf s fn p).isSome then []
  else packetPages (quad p 0x38) (imageReach s (s.part (partOf s fn)) (quad p 0x38))

/-- A LOAD fills an empty slot: it copies the image into the partition's memory (R321). -/
def execLoadPacket (fn : Fn) (q : Fin 4) (s : State) : Host.Outcome State Fault Refusal :=
  .next (withPacket fn q (· == 1) s (loadPages s fn) fun p s =>
    if !Pkt.loadOk p then completeNow s fn q p 4
    else if (slotOf s fn p).isSome then completeNow s fn q p 2
    else
      let part := partOf s fn
      let at_ := quad p 0x38
      let t := if at_.getLsbD 63 then
          s.snoopRead (s.part part) (at_ &&& ~~~(1#64 <<< 63)) (imageReach s (s.part part) at_) else s
      match loadImage s (s.part part) at_ with
      | none => completeNow t fn q p 1
      | some m =>
        let (t, frames) := placeImage t (s.part part) m
        setSlot (takePacket t (queueKey fn q.val)) part (Pkt.slot p) (Slot.ofImage m frames (Pkt.completion part fn q.val p 0 0)))

/-- The packets in progress on a slot complete. -/
def completeOwners (s : State) (l : List Completion) : State := l.foldl (fun s c => complete s { c with tend := s.now 0 }) s

/-- The image is resident in both copies; an EVICT taken meanwhile goes on. -/
def execLoadComplete (part slot : Nat) (s : State) : Host.Outcome State Fault Refusal :=
  .next (match getKey (s.part part).slots slot with
    | some x =>
      if x.st = .loading ∧ !s.reloading then
        withPages s (signalPages s x.owners) fun s => completeOwners (setSlot s part slot
          { x with st := if x.evicts.isEmpty then .resident else .evicting, owners := x.evicts, evicts := [] }) x.owners
      else s
    | none => s)

/-- An EVICT is taken at once; the slot takes no further launch. -/
def execEvictPacket (fn : Fn) (q : Fin 4) (s : State) : Host.Outcome State Fault Refusal :=
  .next (withPacket fn q (· == 3) s (fun _ => []) fun p s =>
    if !Pkt.evictOk p then completeNow s fn q p 4
    else match slotOf s fn p with
      | none => completeNow s fn q p 2
      | some x =>
        let part := partOf s fn
        let c := Pkt.completion part fn q.val p 0 0
        setSlot (takePacket s (queueKey fn q.val)) part (Pkt.slot p)
          (if x.st = .loading then { x with evicts := x.evicts ++ [c] }
           else { x with st := .evicting, owners := x.owners ++ [c] }))

/-- The launches of a slot have retired; the slot is empty, and its image and fractions are gone. -/
def execEvictComplete (part slot : Nat) (s : State) : Host.Outcome State Fault Refusal :=
  .next (match getKey (s.part part).slots slot with
    | some x =>
      if x.st = .evicting ∧ !s.reloading ∧ (s.launches.all fun l => !(l.2.part == part && l.2.slot == slot)) then
        withPages s (signalPages s x.owners) fun s =>
          completeOwners (s.setPart part { s.part part with slots := dropKey (s.part part).slots slot }) x.owners
      else s
    | none => s)

/-! ## A launch (R252, R254, R268, R284, R300, R320, R365) -/

/-- Does a buffer lie in the partition's memory or in a host window (R320 check 3)? The check asks for no permission of its page. -/
def bufferOk (s : State) (p : Partition) (b : Word) : Bool :=
  if b.getLsbD 63 then
    let va := b &&& ~~~(1#64 <<< 63)
    canonical va && !inWindow va && match (s.engWalks.find? (·.serves p va)).bind (·.found) with
      | some (.leaf e) =>
        let pa := e.frame * 4096 + va.toNat % (e.pages * 4096)
        paAllowed s p pa && decide (pa < 0x8_0000_0000_0000)
      | _ => false
  else inHostWindow s p b.toNat

/-- The stage records of a LAUNCH. -/
def stageRecs (s : State) (p : Partition) (x : Nat) : Option (List Nat) :=
  allSome ((List.range (fld x 6 1)).map fun i => (readBytes s p (quad x 0x30 + BitVec.ofNat 64 (64 * i)) 64).map (·.1))

/-- What the bucket of a LAUNCH replaces: the record and its index; `some none` for a slot without buckets. -/
def launchBucket (slot : Slot) (x : Nat) : Option (Option (Nat × Nat)) :=
  if slot.buckets then
    match chooseBucket slot.image slot.bkt (fld x 0xC 4) with
    | some r => if fld r.1 0x1A 1 < fld x 6 1 then some (some r) else none
    | none => none
  else if fld x 0xC 4 = 0 then some none else none

/-- The stages of a LAUNCH, or none where a rule is broken (R320 check 4). -/
def launchStages (s : State) (p : Partition) (slot : Slot) (x : Nat) (bkt : Option (Nat × Nat)) : Option (List Stage) :=
  match stageRecs s p x with
  | none => none
  | some recs =>
    let one (r no : Nat) : Option Stage :=
      match bkt with
      | some (b, _) => if fld b 0x1A 1 = no then readStage s p slot r (fld b 0x10 8) (quad b 8)
          else readStage s p slot r (fld r 0 8) (quad x (0x40 + 8 * no))
      | none => readStage s p slot r (fld r 0 8) (quad x (0x40 + 8 * no))
    match allSome (recs.zipIdx.map fun r => one r.1 r.2) with
    | some l => if 1 < (l.filter fun st => st.cov.isSome).length then none else some l
    | none => none

/-- The starting fraction of each stage with a coverage record. -/
def startFractions (slot : Slot) (l : List Stage) : List Stage :=
  l.zipIdx.map fun p => match p.1.walker, p.1.cov with
    | some w, some c =>
      let f := if c.inherit then (getKey slot.fracs p.2).getD (c.fstart.toNat + 1) else c.fstart.toNat + 1
      { p.1 with walker := some { w with fstart := if c.fixed then 256 else f } }
    | _, _ => p.1

/-- A data section is copied to its address; none where a byte meets PAGE or PROT, with what was written before. -/
def copyData (p : Partition) (image : Memory) (va : Word) : Nat → Nat → State → State × Bool
  | 0, _, s => (s, true)
  | n + 1, off, s => match engTr s p va .store with
    | .ok (.phys pa) => copyData p image (va + 1) n (off + 1) (s.write pa 1 fun m => m.writeByte pa (image.read off))
    | _ => (s, false)

/-- The data sections of a launch's stages, with the offset of each stage's block image. -/
def dataSections (l : List Stage) : List (Nat × Section) :=
  l.flatMap fun st => (st.sections.filter fun x => x.kind == 1).map fun x => (st.prog, x)

/-- They are copied in their order (R365). -/
def copySections (p : Partition) (image : Memory) (l : List Stage) (s : State) : State × Bool :=
  (dataSections l).foldl
    (fun acc q => if acc.2 then copyData p image q.2.addr q.2.size (q.1 + q.2.off) acc.1 else acc) (s, true)

/-- How many instances a stage has requested at launch (R254). -/
def firstRequests (s : State) (p : Partition) (st : Stage) : Nat :=
  if st.walker.isSome then
    min st.maxInst (freeCores s p s.nextLaunch none (if st.home = 2 then none else some (st.home == 1))).length
  else if st.inRing = 0 then max st.minInst 1 else 0

/-- The launch that a checked packet begins. -/
def launchOf (s : State) (fn : Nat) (q : Fin 4) (x : Nat) (slot : Slot) (stages : List Stage) (bkt : Option (Nat × Nat)) :
    Launch where
  part := partOf s fn
  fn := fn
  q := q.val
  seq := BitVec.ofNat 32 (fld x 0 4)
  slot := Pkt.slot x
  tenant := (s.queue (queueKey fn q.val)).tenant
  isa := (s.part (partOf s fn)).isa
  sig := (fld x 5 1).testBit 0
  sigAddr := quad x 0x18
  sigVal := quad x 0x20
  statAddr := quad x 0x28
  tick := if (fld x 5 1).testBit 1 && !reached (s.now 0) (quad x 0x10) then some (quad x 0x10) else none
  stages := startFractions slot stages
  reloc := Vector.ofFn fun n : Fin 16 => if n.val < slot.nbuf then quad x (0x80 + 8 * n.val) &&& ~~~(1#64 <<< 63) else 0
  bucket := bkt.map fun b => (fld b.1 0x1A 1, b.2, BitVec.ofNat 64 (fld x 0xC 4 + b.2 * 2 ^ 32))
  limit := match bkt with
    | some b => BitVec.ofNat 16 (fld b.1 0x18 2)
    | none => 0
  lnum := slot.lnum
  covctl := (s.part (partOf s fn)).covctl
  late := 0
  badrep := 0
  slips := 0
  frac := 0
  tstart := none

/-- The text map of a stage's block image, if its slot has none yet (R364). -/
def addMap (l : List TextMap) (st : Stage) : List TextMap :=
  let m : TextMap := ⟨st.textVa, st.textSize, st.prog + st.textOff⟩
  if l.contains m then l else l ++ [m]

/-- The launch begins: its data sections are copied, and its first instances are requested. -/
def beginLaunch (s : State) (fn : Nat) (q : Fin 4) (x : Nat) (slot : Slot) (stages : List Stage) (bkt : Option (Nat × Nat)) :
    State :=
  let part := partOf s fn
  let (s, ok) := copySections (s.part part) slot.image stages s
  if !ok then completeNow s fn q x 3
  else
    let l := launchOf s fn q x slot stages bkt
    let lid := s.nextLaunch
    let want := stages.map (firstRequests s (s.part part))
    let s := setSlot (takePacket s (queueKey fn q.val)) part (Pkt.slot x)
      { slot with lnum := slot.lnum + 1, maps := stages.foldl addMap slot.maps }
    let s := { s with nextLaunch := lid + 1, launched := true }.setLaunch lid l
    (stages.zip want).zipIdx.foldl (fun s p => addRequests s lid p.2 l p.1.1 p.1.2) s

/-- The residency check of R320, in its order. -/
def checkLaunch (s : State) (fn : Nat) (x : Nat) : Except Nat (Slot × List Stage × Option (Nat × Nat)) :=
  let p := s.part (partOf s fn)
  if !Pkt.launchOk x then .error 4
  else match slotOf s fn x with
    | none => .error 2
    | some slot =>
      if slot.st ≠ .resident then .error 2
      else if fld x 7 1 ≠ slot.nbuf ∨ (slot.buckets ∧ 15 < slot.nbuf) then .error 4
      else if !(List.range slot.nbuf).all fun n => bufferOk s p (quad x (0x80 + 8 * n)) then .error 3
      else match launchBucket slot x with
        | none => .error 1
        | some bkt => match launchStages s p slot x bkt with
          | none => .error 1
          | some l => .ok (slot, l, bkt)

/-- The bytes that the check of a LAUNCH reads. -/
def checkReads (s : State) (fn : Nat) (x : Nat) : List (Word × Nat) :=
  let bucket := match slotOf s fn x with
    | some slot => match launchBucket slot x with
      | some (some b) => [quad b.1 8]
      | _ => []
    | none => []
  launchReads s (s.part (partOf s fn)) x bucket

/-- The lines that the check of a LAUNCH has read are the device's. -/
def snoopCheck (s : State) (fn : Nat) (x : Nat) : State :=
  (checkReads s fn x).foldl (fun s r => s.snoopRead (s.part (partOf s fn)) r.1 r.2) s

/-- The pages that a LAUNCH needs: those of its buffers, of what its check reads, and of its data sections. -/
def launchPages (s : State) (fn : Nat) (x : Nat) : List Word :=
  if !Pkt.launchOk x then []
  else
    ((List.range (fld x 7 1)).flatMap fun n => packetPages (quad x (0x80 + 8 * n)) 1) ++
      ((checkReads s fn x).flatMap fun r => pagesOf r.1 r.2) ++
      match checkLaunch s fn x with
      | .ok (_, l, _) => (dataSections l).flatMap fun q => pagesOf q.2.addr q.2.size
      | .error _ => []

/-- A LAUNCH is checked and begins. -/
def execLaunchPacket (fn : Fn) (q : Fin 4) (s : State) : Host.Outcome State Fault Refusal :=
  .next (withPacket fn q (· == 2) s (launchPages s fn) fun x s =>
    match checkLaunch s fn x with
      | .error n => completeNow (snoopCheck s fn x) fn q x n
      | .ok (slot, l, bkt) => beginLaunch (snoopCheck s fn x) fn q x slot l bkt)

/-! ## Retirement (R261, R268, R323) -/

/-- Every point of a stage's grid has been reported or filled. -/
def gridDone (w : Walker) : Bool :=
  w.returned.isEmpty && w.handed.all (·.reported) && w.handed.length + w.filled.length == w.total

/-- May the launch retire? An update that is due comes first (R268). -/
def mayRetire (s : State) (lid : Nat) (l : Launch) : Bool :=
  (updateDue l).isNone &&
  (l.stages.zipIdx.all fun p => stageFinished s lid p.2 l p.1 && match p.1.walker with | some w => gridDone w | none => true) &&
    (s.requests.all fun r => !(r.launch == lid)) &&
    s.blocks.all fun b => !(b.2.launch == lid) || (b.2.status == .ended && !b.2.chans[4].busy)

/-- The update at retirement: the stage, and the fraction that Madder retains. -/
def lastUpdate (l : Launch) : Option (Nat × Nat) :=
  (l.stages.zipIdx.find? fun p => p.1.cov.isSome).bind fun p => match p.1.walker, p.1.cov with
    | some w, some c =>
      if c.fixed then none
      else some (p.2, updateOver l.covctl (lastFraction w) (errorsIn w (4096 * w.updates.length) (w.idx + 1)))
    | _, _ => none

/-- The slot keeps the fraction of a stage. -/
def retain (s : State) (l : Launch) : State :=
  match lastUpdate l, getKey (s.part l.part).slots l.slot with
  | some (no, f), some x => setSlot s l.part l.slot { x with fracs := putKey x.fracs no f }
  | _, _ => s

/-- The completion of a launch that retires. -/
def Launch.retired (l : Launch) (now : Word) : Completion :=
  l.completion 0 (match lastUpdate l with | some (_, f) => f - 1 | none => 0xFF) now

/-- The pages that a retirement needs: the rings of the stages that Weld has not seen finished, and where the completion goes. -/
def retirePages (s : State) (lid : Nat) (l : Launch) : List (Partition × Word) :=
  ((l.stages.filter fun st => !st.finished).flatMap fun st => st.ringPages.map fun va => (s.part l.part, va)) ++
    if mayRetire s lid l then signalPages s [l.retired (s.now 0)] else []

def execLaunchRetire (launch : Nat) (s : State) : Host.Outcome State Fault Refusal :=
  .next (match s.launch? launch with
    | none => s
    | some l =>
      if rungStops s launch then s
      else withPages s (retirePages s launch l) fun s =>
        let s := (l.stages.filter fun st => !st.finished).foldl (fun s st => snoopRings s (s.part l.part) st) s
        if mayRetire s launch l then complete (dropLaunch (retain s l) launch) (l.retired (s.now 0)) else s)

/-! ## Madder's reload (R325) -/

def execMadderReload (s : State) : Host.Outcome State Fault Refusal := .next { s with reloading := s.dev.ready }

/-- A queue whose table is lost in both copies: QERR 6, and the queue rung. -/
def loseTable (s : State) (key : Nat) : State :=
  startRung (setQerr s key 6 (s.queue key).n) (queueRung s (key / 4) (key % 4))

/-- The tables are rebuilt, the latched kicks processed and the held completions signalled. -/
def execMadderReloadEnd (s : State) : Host.Outcome State Fault Refusal :=
  .next (if !s.reloading then s
    else
      let kicks := s.latched
      let held := s.completions
      let lost := (s.queues.filter fun p => p.2.en && Config.tableLost s.free p.1).map (·.1)
      withPages s (signalPages { s with reloading := false } held) fun s =>
        let s := { s with reloading := false, latched := [], completions := [], free := s.free + 1 }
        let s := lost.foldl loseTable s
        let s := kicks.foldl (fun s p => kick s p.1 p.2) s
        held.foldl writeCompletion s)

end Sys2Proof.Machine
end

