-- ==== Sys2Proof/Machine/Run.lean ====
section
/-! DEFINITION. One issue of a word: fetch, decode, the word's effect, and what follows it: the stream cycles of R75, the
repetitions of R82, the region of R285 and the abandoned long instruction of R175. The effect of one instruction is a
parameter, which Step.lean and Words.lean supply. -/

namespace Sys2Proof.Machine

/-- What follows the word's effect. -/
def finish (s : State) : State :=
  match s.cur.disp with
  | .issued => noteStart (s.setAg ({ s.ag with started := true }.pass s.cur.hdr.w.val s.cur.next))
  | .done => noteStart (s.setAg { s.ag with started := true })
  | .interlock => s.setAg s.ag.tick
  | .waits => s.setAg (slipOne s.ag)
  | .walking => noteStart s
  | .idle | .stopped => s

/-- Does this word resume a stopped instruction (R175)? -/
def resumes (s : State) (l : Line) (k : Long) : Bool :=
  match l.body with
  | .one i => k.pc == s.cur.pc && k.i == i && s.ag.ctl.prog != 0 && guardTrue s.ag s.cur.hdr
  | _ => false

/-- A TIMED word. -/
def lineTimed (l : Line) : Bool := match l.body with | .one i => opensRegion i | _ => false

/-- What a word does to the stream before its own effect, if it issues: a stopped long instruction is abandoned, and a
region that it lies outside of closes (R175, R285); a TIMED finds the region still open (R290). -/
def beforeWord (s : State) (l : Line) : State :=
  let s := if s.ag.ctl.inh then s else abandonStopped (resumes s l) s
  match s.ag.ctl.tslip.region with
  | some (lo, hi) =>
    if (lo.toNat ≤ s.cur.pc.toNat ∧ s.cur.pc.toNat < hi.toNat) ∨ lineTimed l then s
    else s.setCtl { s.ag.ctl with tslip := s.ag.ctl.tslip.close false }
  | none => s

/-- The instructions of a line take effect; a PAIR word's halves only together (R54, R68). -/
def runBody (ex : Instr → State → State) (s : State) (l : Line) : State :=
  match l.body with
  | .one i => ex i s
  | .pair sh vh =>
    match verdict vh s, verdict sh s with
    | .off, .off | .go, .go =>
      let t := ex vh s
      if t.cur.disp = .issued then ex sh t else t
    | .off, v | .go, v => settleVerdict v s
    | v, _ => settleVerdict v s

/-- Did the word issue? -/
def Disp.passed : Disp → Bool
  | .issued | .walking | .done => true
  | _ => false

/-- A decoded line runs. -/
def runLine (ex : Instr → State → State) (s : State) (l : Line) : State :=
  let t := runBody ex (beforeWord s l) l
  finish (if t.cur.disp.passed then t else runBody ex s l)

/-- A word that is not an instruction is refused (R67). Where an MFC or MTC names an unassigned register, TVAL holds the
register's number (R63), also where the word stands after a REP, for which R106 has TVAL hold the word
(notes/assumptions/62.md). -/
def refuse (s : State) (r : Reject) : State :=
  let priv (i : Instr) : Bool := i.privileged && (s.isMP || !s.ag.ctl.pm)
  match r with
  | .resFmt => s.raise cRESFMT s.cur.raw
  | .illegalOp => s.raise cILLEGAL s.cur.raw
  | .resFld i => s.raise (if priv i then cPRIV else cRESFLD) s.cur.raw
  | .illegalFld i =>
    s.raise (if priv i then cPRIV else if boReserved s.ag i then cRESFLD else cILLEGAL) s.cur.raw
  | .illegalReg n => s.raiseNat cILLEGAL n

/-- A skipped word under REP 0 (R106): control passes beyond it and its literal. -/
def skipWord (s : State) (raw : Word) : State :=
  s.setAg { s.ag with rep := none, pc := s.ag.pc + (if raw.getLsbD 52 then 16 else 8) }

/-- Fetch the word at the program counter and its literal (R50), decode it and run it. Poison found in an item that an earlier
check operation was admitted to read is raised first (R167, notes/assumptions/66.md). -/
def issueAt (ex : Instr → State → State) (s : State) (sync : Bool) : State :=
  let pc := s.ag.pc
  let s := { s with cur := { s.cur with pc := pc, next := pc + 8, sync := sync } }
  match if s.ag.ctl.inh then none else s.ag.spoiled, fetchWord s s.blk pc with
  | some r, _ => (s.setAg { s.ag with spoiled := none }).raiseNat cPOISON r
  | none, (.fault c, _) => s.raise c pc
  | none, (.miss, _) => startWalk s pc .fetch none none false
  | none, (.ok l, raw) =>
    let s := s.snoopLoc l 8
    if s.ag.rep = some 0 ∧ !rawControl raw then skipWord s raw
    else
      let run (s : State) (lit : Word) : State :=
        let s := { s with cur := { s.cur with raw := raw, next := if raw.getLsbD 52 then pc + 16 else pc + 8 } }
        match decode s.isMP raw lit with
        | .error r => refuse s r
        | .ok l => runLine ex { s with cur := { s.cur with hdr := l.hdr } } l
      if raw.getLsbD 52 then
        match fetchWord s s.blk (pc + 8) with
        | (.fault c, _) => s.raise c (pc + 8)
        | (.miss, _) => startWalk s (pc + 8) .fetch none none false
        | (.ok l, lit) => run (s.snoopLoc l 8) lit
      else run s 0

/-- An Issue move of an agent of a block (R90). A cycle in which the stream cannot issue is a slip cycle, also while a TSLIPT
that is due waits for a store's translation; at a word boundary that TSLIPT is raised at once (R286, R288, R289). -/
def issueStep (ex : Instr → State → State) (s : State) (b w : Nat) : State :=
  withAgent s b w fun s =>
    if !mayIssue s then
      (if s.ag.run == .running && s.ag.trap.isNone && !(slipStops s.ag && atBoundary s) then s.setAg (slipOne s.ag) else s)
    else if !waitOver s then s.setAg (slipOne s.ag)
    else issueAt ex (s.setAg { s.ag with wait := 0 }) false

end Sys2Proof.Machine
end

