-- ==== Sys2Proof/Machine/Control.lean ====
section
/-! DEFINITION. The CONTROL format: transfers, REP, SYNCM, WAITT, MARK, TIMED and EXIT
(spec/05_scalar_control_system_instructions.md R104 to R111, spec/15 R276 and R285 to R290, spec/21 R334). -/

namespace Sys2Proof.Machine

/-! ## Transfers (R104, R105) -/

/-- A target with bits 2:0 cleared. -/
def targetOf (base : Word) (off : BitVec 34) : Word := (base + 8 * off.signExtend 64) &&& ~~~7#64

/-- Control goes to a target when the word has passed. -/
def State.goto (s : State) (t : Word) : State := { s with cur := { s.cur with next := t } }

def execBr (off : BitVec 34) (s : State) : Host.Outcome State Fault Refusal :=
  .next (issueWord (.br off) s fun s => (s.goto (targetOf s.cur.pc off)).issued)

def execJmp (a : SReg) (off : BitVec 34) (s : State) : Host.Outcome State Fault Refusal :=
  .next (issueWord (.jmp a off) s fun s => s.checkPoison [.s a] fun s => (s.goto (targetOf (s.sReg a) off)).issued)

def execCall (off : BitVec 34) (s : State) : Host.Outcome State Fault Refusal :=
  .next (issueWord (.call off) s fun s => (s.goto (targetOf s.cur.pc off)).putS 31 (s.cur.pc + 8) [])

def execRet (s : State) : Host.Outcome State Fault Refusal :=
  .next (issueWord .ret s fun s => s.checkPoison [.s 31] fun s => (s.goto (targetOf (s.sReg 31) 0)).issued)

def execLoop (a : SReg) (off : BitVec 34) (s : State) : Host.Outcome State Fault Refusal :=
  .next (issueWord (.loop a off) s fun s => s.checkPoison [.s a] fun s =>
    let c := s.sReg a - 1
    (if c = 0 then s else s.goto (targetOf s.cur.pc off)).putS a c [])

/-! ## REP and SYNCM (R106, R107) -/

/-- The word has passed, with its own cycle and stall, before what follows it. -/
def State.passed (s : State) : State := (s.setAg (s.ag.pass s.cur.hdr.w.val s.cur.next)).setDisp .done

def execRep (a : SReg) (s : State) : Host.Outcome State Fault Refusal :=
  .next (issueWord (.rep a) s fun s => s.checkPoison [.s a] fun s =>
    let n := (s.sReg a).toNat % 2 ^ 32
    let t := s.passed
    t.setAg { t.ag with rep := some n })

def execSyncm (mask : BitVec 4) (s : State) : Host.Outcome State Fault Refusal :=
  .next (issueWord (.syncm mask) s fun s => (s.setCtl { s.ag.ctl with syncmsk := mask }).issued)

/-! ## WAITT and TIMED (R108, R110, R285, R286) -/

def execWaitt (a : SReg) (s : State) : Host.Outcome State Fault Refusal :=
  .next (issueWord (.waitt a) s fun s => s.checkPoison [.s a] fun s =>
    if reached s.tbase (s.sReg a) then s.issued else s.waits)

/-- A region opens from the next word to the target; it is late when the start tick is more than 4 ns past. -/
def openRegion (s : State) (start : Word) (off : BitVec 34) : State :=
  if off.slt 2 then s
  else
    let t := s.ag.ctl.tslip
    s.setCtl { s.ag.ctl with tslip := { t with
      cur := 0, region := some (s.cur.next, targetOf s.cur.pc off),
      late := t.late || decide (4 < (s.tbase - start).toNat), due := none } }

def execTimed (a : SReg) (off : BitVec 34) (s : State) : Host.Outcome State Fault Refusal :=
  .next (issueWord (.timed a off) s fun s => s.checkPoison [.s a] fun s =>
    if reached s.tbase (s.sReg a) then (openRegion s (s.sReg a) off).issued else s.waits)

/-! ## MARK (R109, R276, R277, R334) -/

/-- Earlier accesses performed and no pending mark (R109). -/
def State.quiet (s : State) : Bool := s.ag.accs.isEmpty && s.ag.pend.isEmpty

/-- SCHMISS at the MARK; STATE 3 has the operator replayed (R277, R336). -/
def raiseMiss (s : State) (miss : Nat × Nat) (m : BitVec 32) : State :=
  let t := s.raise cSCHMISS (missWord miss m)
  if miss.2 = 3 then t.setBlk { t.blk with status := .failed } else t

/-- The marker number takes no account of bit 31 (R274). -/
def markerOf (m : BitVec 32) : Nat := m.toNat % 2 ^ 31

/-- A MARK that is no operator boundary. -/
def plainMark (m : BitVec 32) (s : State) : State :=
  if !s.quiet then s.waits
  else match timetableMiss s.blk s.cur.w (markerOf m) (s.timetable s.blk) with
    | some miss => raiseMiss s miss m
    | none => testHome (markEffects s s.cur.w (markerOf m)).passed

/-- The boundary MARK that a stream stands at, ready to issue but for the others (R334 step 1). -/
def boundaryAt (s : State) (w : Nat) : Option (Hdr × BitVec 32) :=
  let a := s.agent w
  match peek s s.blk w a.pc with
  | some ⟨h, .one (.mark m)⟩ =>
    if m.getLsbD 31 && guardTrue a h && !a.poisoned (.p h.g) && a.latches.isEmpty && a.accs.isEmpty && a.pend.isEmpty &&
        a.walk.isNone && a.long.isNone && a.trap.isNone && a.nan.isNone && a.spoiled.isNone && a.rep.isNone &&
        !slipStops a &&
        (a.wait == 0 || (ipend s.blk w a.ctl &&& a.wait) != 0)
    then some (h, m) else none
  | _ => none

/-- The running compute streams of the block. -/
def runningStreams (s : State) : List Nat := (List.range 4).filter fun w => (s.agent w).run == .running

/-- A sync bit on a boundary MARK: the streams it names stand at sync words with the same mask (R80). -/
def syncAgrees (s : State) (w : Nat) (h : Hdr) : Bool :=
  !h.s || (List.range 4).all fun v =>
    let m := (s.agent w).ctl.syncmsk
    !m.getLsbD v || ((s.agent v).ctl.syncmsk == m && match boundaryAt s v with | some (k, _) => k.s | none => false)

/-- No agent of the block has stopped for a replay: a halted stream or a stopped MP keeps the others from the boundary
(R206, R337). -/
def noneStopped (s : State) : Bool := s.agentList.all fun a => a.run != .halted && a.run != .mpStopped

/-- The block is at its operator boundary. -/
def boundaryReady (s : State) : Bool :=
  noneStopped s &&
  (runningStreams s).all (fun w => match boundaryAt s w with
    | some (h, _) => syncAgrees s w h
    | none => false) &&
  (List.range 4).all fun n => match s.blk.chans[n]? with
    | some c => !c.busy
    | none => true

/-- Another stream of the block into focus, and back. -/
def asStream (s : State) (w : Nat) (f : State → State) : State :=
  let cur := s.cur
  let b := { s.blk with agents := s.agentVec }
  let t := f { s with blk := b, ag := b.agents[w % 5]'(Nat.mod_lt _ (by decide)), cur := { cur with w := w } }
  let b' := { t.blk with agents := t.agentVec }
  { t with blk := b', ag := b'.agents[cur.w % 5]'(Nat.mod_lt _ (by decide)), cur := cur }

/-- One stream's boundary MARK issues. -/
def boundaryOne (s : State) (w : Nat) : State :=
  match boundaryAt s w with
  | none => s
  | some (h, m) =>
    asStream s w fun s =>
      let s := { s with cur := { s.cur with pc := s.ag.pc, next := s.ag.pc + 8, hdr := h } }
      let s := beforeWord s ⟨h, .one (.mark m)⟩
      let s := markEffects s w (markerOf m)
      s.setAg ({ s.ag with started := true, wait := 0 }.pass h.w.val s.cur.next)

/-- A slice has reached its nominal end (R333). -/
def sliceOver (s : State) : Bool :=
  let p := s.part s.blk.part
  p.sliced && match p.sliceEnd with
    | some t => reached s.tbase t
    | none => false

/-- At the end of a slice the block stops at its boundary, and its core is scrubbed (R335). It leaves its slot when the slice
ends. -/
def stopSlice (s : State) : State :=
  let s := s.setPart s.blk.part { s.part s.blk.part with stoppedAt := some s.tbase }
  (s.setBlk { s.blk.scrubbed with status := .sliced }).setAg
    { s.ag with v := Vector.replicate 16 0, vPoison := 0 }

/-- All the boundary MARKs of the block issue: the record, then the end of a slice or a return home. -/
def boundaryIssue (s : State) : State :=
  let t := commitOperator ((runningStreams s).foldl boundaryOne s)
  (if sliceOver t then stopSlice t else testHome t).setDisp .done

/-- The boundary MARK of the stream in focus: it waits for the others, and then all issue in one step. -/
def boundaryMark (m : BitVec 32) (s : State) : State :=
  if !s.quiet || !boundaryReady s then s.waits
  else
    let tt := s.timetable s.blk
    let miss (w : Nat) : Option (Nat × Nat) := (boundaryAt s w).bind fun x => timetableMiss s.blk w (markerOf x.2) tt
    match miss s.cur.w with
    | some k => raiseMiss s k m
    | none =>
      if (runningStreams s).any fun w => (miss w).isSome then s.waits
      else boundaryIssue s

/-- A boundary MARK waits for its block and not, besides, for SYNC_ISSUE. -/
def issueBoundary (m : BitVec 32) (s : State) : State :=
  match verdict (.mark m) s with
  | .off => issueWord (.mark m) s State.waits
  | .go =>
    match if s.cur.hdr.s then syncFault s else none with
    | some tv => s.raise cSYNCFAIL tv
    | none => boundaryMark m s
  | v => settleVerdict v s

def execMark (m : BitVec 32) (s : State) : Host.Outcome State Fault Refusal :=
  .next (if m.getLsbD 31 then issueBoundary m s else issueWord (.mark m) s (plainMark m))

/-! ## EXIT (R111, R204) -/

def execExit (s : State) : Host.Outcome State Fault Refusal :=
  .next (issueWord .exit s fun s =>
    if !s.ag.accs.isEmpty then s.waits
    else if s.isMP && (List.range 4).any (fun n => match s.blk.chans[n]? with | some c => c.busy | none => false) then s.waits
    else (exitAgent s).setDisp .done)

end Sys2Proof.Machine
end

