-- ==== Sys2Proof/Machine/System.lean ====
section
/-! DEFINITION. The SYSTEM format: control registers, TRAP, ERET, FENCEH, WAITI, SEED, TLBINV, bank saves and PCMD
(spec/05_scalar_control_system_instructions.md R112 to R120, and the layouts R72, R155 to R158, R205, R269, R287, R303,
R322, R328). -/

namespace Sys2Proof.Machine

/-! ## Control registers as MFC reads them -/

/-- SID (R72, R205). -/
def sidWord (core w : Nat) : Word := BitVec.ofNat 64 (core * 4 + (if w = 4 then 2 ^ 12 else w))

/-- TSLIP (R287). -/
def Tslip.word (t : Tslip) : Word :=
  BitVec.ofNat 64 (t.limit.toNat * 2 ^ 48 + t.last.toNat * 2 ^ 32 + t.cur.toNat * 2 ^ 16 + t.scount.toNat * 2 ^ 8 +
    t.freq.toNat * 16 + t.late.toNat * 8 + t.trapd.toNat * 4 + t.slipped.toNat * 2 + t.region.isSome.toNat)

/-- CORESTAT (R156). -/
def Core.statWord (c : Core) : Word :=
  BitVec.ofNat 64 (c.cecnt.toNat * 2 ^ 16 + c.fcode.toNat * 2 ^ 8 + c.ctxv.toNat * 2 ^ 4 + c.ctx.toNat)

/-- BANKOWN (R157). -/
def Core.ownWord (c : Core) : Word :=
  BitVec.ofNat 64 (c.live.toNat * 2 ^ 40 + c.vown.toNat * 2 ^ 32 + c.aown.toNat * 2 ^ 16 + c.town.toNat)

/-- MIGCTL (R303). -/
def Block.migWord (b : Block) : Word :=
  BitVec.ofNat 64 (b.mig.lcore.toNat * 2 ^ 32 + b.mig.mcnt.toNat * 2 ^ 16 + b.away.toNat * 2 ^ 6 +
    (isOchre b.core).toNat * 2 ^ 5 + b.mig.homec.toNat * 2 ^ 4 + b.mig.wait.toNat * 4 + b.mig.hb.toNat * 2 + b.mig.pin.toNat)

/-- MPSTAT (R158). -/
def mpstatWord (b : Block) (c : Core) : Word :=
  BitVec.ofNat 64 (((List.range 4).map fun n =>
      match b.chans[n]? with
      | some x => x.busy.toNat * 2 ^ (32 + n)
      | none => 0).sum + c.hdrop.toNat)

/-- PARTID (R328). -/
def Partition.idWord (p : Partition) : Word :=
  BitVec.ofNat 64 (min p.offline 255 * 2 ^ 32 + p.sliced.toNat * 2 ^ 18 + p.level * 2 ^ 16 + p.parent * 2 ^ 8 + p.id)

/-- A per-core or per-partition register (R155, R112). -/
def sharedCr (s : State) (n : Nat) : Word :=
  let b := s.blk
  let c := s.core b.core
  let p := s.part b.part
  if n = 0x100 then c.statWord
  else if n = 0x101 then c.ownWord
  else if n = 0x102 then b.migWord
  else if n = 0x103 then mpstatWord b c
  else if n < 0x120 then (match b.chans[n - 0x110]? with | some x => x.wmark.setWidth 64 | none => 0)
  else if n < 0x130 then b.reloc[n % 16]'(Nat.mod_lt _ (by decide))
  else if n = 0x200 then p.idWord
  else if n = 0x201 then p.capb
  else if n = 0x202 then p.covctl
  else p.ttroot.setWidth 64 <<< 12

/-- The value of a control register (R71, R205). -/
def readCr (s : State) (n : Nat) : Word :=
  let c := s.ag.ctl
  match n with
  | 0x000 => sidWord s.blk.core s.cur.w
  | 0x001 => sstatWord s.blk s.cur.w c
  | 0x002 => fctlWord c
  | 0x003 => c.syncmsk.setWidth 64
  | 0x004 => c.prog.setWidth 64
  | 0x005 => c.gseed[0]
  | 0x006 => c.gctr[0]
  | 0x007 => c.gseed[1]
  | 0x008 => c.gctr[1]
  | 0x010 => c.tcause.setWidth 64
  | 0x011 => c.epc
  | 0x012 => c.tval
  | 0x013 => c.tframe.setWidth 64 <<< 4
  | 0x014 => c.tvec
  | 0x015 => c.mptxid
  | 0x018 => c.ncoord
  | 0x019 => c.nidx
  | 0x01A => c.nfmt
  | 0x020 => s.tbase
  | 0x021 => c.tslip.word
  | 0x022 => c.tcmp
  | n => sharedCr s n

def execMfc (d : SReg) (cr : BitVec 12) (s : State) : Host.Outcome State Fault Refusal :=
  .next (issueWord (.mfc d cr) s fun s => s.putS d (readCr s cr.toNat) [])

/-! ## MTC (R71, R112) -/

/-- MTC to TSLIP: LIMIT and SCOUNT are written, sticky bits written as 0 clear (R287). -/
def Tslip.written (t : Tslip) (x : Word) : Tslip :=
  { t with limit := x.extractLsb' 48 16, scount := x.extractLsb' 8 8, freq := t.freq && x.getLsbD 4,
           late := t.late && x.getLsbD 3, trapd := t.trapd && x.getLsbD 2, slipped := t.slipped && x.getLsbD 1 }

/-- MTC to a per-stream register of a compute stream. -/
def Ctl.writeCr (c : Ctl) (n : Nat) (x : Word) : Ctl :=
  match n with
  | 0x002 => c.setFctl x
  | 0x003 => { c with syncmsk := x.setWidth 4 }
  | 0x004 => { c with prog := x.setWidth 16 }
  | 0x005 => { c with gseed := c.gseed.set 0 x }
  | 0x006 => { c with gctr := c.gctr.set 0 x }
  | 0x007 => { c with gseed := c.gseed.set 1 x }
  | 0x008 => { c with gctr := c.gctr.set 1 x }
  | 0x010 => { c with tcause := x.setWidth 10 }
  | 0x011 => { c with epc := x }
  | 0x012 => { c with tval := x }
  | 0x013 => { c with tframe := x.extractLsb' 4 9 }
  | 0x014 => { c with tvec := x &&& ~~~7#64 }
  | 0x021 => { c with tslip := c.tslip.written x }
  | _ => c

/-- MTC to a shared register from a privileged stream; the others change nothing. -/
def writeShared (s : State) (n : Nat) (x : Word) : State :=
  if n = 0x102 then
    s.setBlk { s.blk with mig := { s.blk.mig with wait := x.getLsbD 2, hb := x.getLsbD 1, pin := x.getLsbD 0 } }
  else if n = 0x103 then s.setCore s.blk.core { s.core s.blk.core with hdrop := x.setWidth 32 }
  else if n = 0x202 then s.setPart s.blk.part { s.part s.blk.part with covctl := x &&& ~~~0x800#64 }
  else s

/-- Registers that only a privileged stream may write (R71). -/
def privilegedCr (n : Nat) : Bool := decide (0x010 ≤ n) && decide (n ≤ 0x014)

/-- MTC (R71, R112). A poisoned source raises POISON before any PRIV of the register named, an order that the spec leaves
open (notes/assumptions/61.md). -/
def execMtc (a : SReg) (cr : BitVec 12) (s : State) : Host.Outcome State Fault Refusal :=
  .next (issueWord (.mtc a cr) s fun s => s.checkPoison [.s a] fun s =>
    let n := cr.toNat
    let priv := !s.isMP && s.ag.ctl.pm
    if 0x100 ≤ n then (if priv then (writeShared s n (s.sReg a)).issued else s.raiseNat cPRIV n)
    else if s.isMP then s.issued
    else if privilegedCr n && !priv then s.raiseNat cPRIV n
    else (s.setCtl (s.ag.ctl.writeCr n (s.sReg a))).issued)

/-- MTC to TCMP arms line 0, and line 0 is pending at once when the tick is not ahead (R84). -/
def execMtcTcmp (a : SReg) (s : State) : Host.Outcome State Fault Refusal :=
  .next (issueWord (.mtcTcmp a) s fun s => s.checkPoison [.s a] fun s =>
    let c := { s.ag.ctl with tcmp := s.sReg a, armed := true }
    (s.setCtl { c with line0 := timerDue s.tbase c }).issued)

/-- MTC to SSTAT (R73, R112), POISON before PRIV (notes/assumptions/61.md); on the MP only IMASK bit 16 is written (R205). -/
def execMtcSstat (a : SReg) (s : State) : Host.Outcome State Fault Refusal :=
  .next (issueWord (.mtcSstat a) s fun s => s.checkPoison [.s a] fun s =>
    let x := s.sReg a
    let c := s.ag.ctl
    if s.isMP then (s.setCtl { c with imask := (x.extractLsb' 16 1).setWidth 8 }).issued
    else if !c.pm && x.getLsbD 1 != c.ie then s.raiseNat cPRIV 1
    else (s.setCtl { c with imask := x.extractLsb' 16 8, vs := c.vs && x.getLsbD 3, ie := x.getLsbD 1 }).issued)

/-! ## TRAP and ERET (R113, R114) -/

def execTrap (code : BitVec 22) (s : State) : Host.Outcome State Fault Refusal :=
  .next (issueWord (.trap code) s fun s =>
    (raiseNext s.passed cSWTRAP false s.cur.next (code.setWidth 64)).setDisp .done)

def execEret (s : State) : Host.Outcome State Fault Refusal :=
  .next (issueWord .eret s fun s =>
    if !s.ag.ctl.inh then s.raise cILLEGAL s.cur.raw
    else if !s.ag.pend.isEmpty then s.waits
    else
      let t := returnTrap s
      (t.setAg t.ag.tick).setDisp .done)

/-! ## FENCEH, WAITI, SEED (R115 to R117) -/

/-- The model's memory has one order for every observer, so earlier accesses that have performed are visible. -/
def execFenceh (s : State) : Host.Outcome State Fault Refusal :=
  .next (issueWord .fenceh s fun s => if s.ag.accs.isEmpty then s.issued else s.waits)

def execWaiti (mask : BitVec 8) (s : State) : Host.Outcome State Fault Refusal :=
  .next (issueWord (.waiti mask) s fun s => (s.setAg { s.ag with wait := mask }).issued)

def execSeed (n : Fin 2) (a : SReg) (s : State) : Host.Outcome State Fault Refusal :=
  .next (issueWord (.seed n a) s fun s => s.checkPoison [.s a] fun s =>
    let c := s.ag.ctl
    (s.setCtl { c with gseed := c.gseed.set n (s.sReg a), gctr := c.gctr.set n 0 }).issued)

/-! ## TLBINV (R118, R237) -/

/-- Does a page number of a partition fall within a TLBINV's scope? -/
def inScope (scope : Fin 4) (va : Word) (e : TlbEntry) (part : Nat) : Bool :=
  e.part == part && (decide (2 ≤ scope.val) || e.covers part va)

/-- The cores a TLBINV names. -/
def scopeCores (s : State) (scope : Fin 4) : List Nat :=
  if scope.val % 2 = 1 then s.blk.core :: (s.part s.blk.part).cores.filter (· != s.blk.core) else [s.blk.core]

/-- A block with those agents waits for a walk that counts, for an agent or a copy, or an access of it has been translated and has
not performed (R237). `counts` is told the level, whether the walk has ended, and the address. -/
def Block.walkOpen (b : Block) (agents : List Agent) (counts : Nat → Bool → Word → Bool) : Bool :=
  b.status != .failed &&
    ((agents.any fun a => (a.walk.any fun k => counts k.level k.found.isSome k.va) || !a.accs.isEmpty || a.long.any (·.first.isSome)) ||
      b.chans.toList.any fun c => c.xfers.any fun x => x.walk.any fun k => counts k.level k.found.isSome k.va)

/-- A hint of a partition's block on some cores waits for such a walk. -/
def hintsOpen (s : State) (part : Nat) (cores : List Nat) (counts : Nat → Bool → Word → Bool) : Bool :=
  cores.any fun c => (s.core c).hints.any fun h =>
    (s.block h.block).part == part && h.walk.any fun k => counts k.level k.found.isSome k.va

/-- A walk that may have read an entry of the scope is in progress on a named core, or an access there has been translated and
has not performed. -/
def walkOpen (s : State) (scope : Fin 4) (va : Word) (cores : List Nat) : Bool :=
  let counts (level : Nat) (ended : Bool) (x : Word) : Bool :=
    (decide (level < 4) || ended) && (decide (2 ≤ scope.val) || pageNo x / 512 == pageNo va / 512)
  let live (b : Block) (agents : List Agent) : Bool :=
    b.part == s.blk.part && cores.contains b.core && b.walkOpen agents counts
  live s.blk s.agentList || (s.blocks.any fun p => p.1 != s.cur.b && live p.2 p.2.agents.toList) ||
    hintsOpen s s.blk.part cores counts

def execTlbinv (a : SReg) (scope : Fin 4) (s : State) : Host.Outcome State Fault Refusal :=
  .next (issueWord (.tlbinv a scope) s fun s => s.checkPoison [.s a] fun s =>
    let cores := scopeCores s scope
    if !s.ag.accs.isEmpty || walkOpen s scope (s.sReg a) cores then s.waits
    else
      let part := s.blk.part
      let drop (s : State) (c : Nat) : State :=
        let x := s.core c
        s.setCore c { x with tlb := x.tlb.filter fun e => !inScope scope (s.sReg a) e part }
      (cores.foldl drop { s with engWalks := s.engWalks.filter fun k => k.part != part }).issued)

/-! ## BANKSV, BANKLD, PCMD (R119, R120, R172) -/

/-- The bank is claimed and held by no instruction of the block; then its copy is written or taken. -/
def withBank (bank kind : Nat) (s : State) (f : State → State) : State :=
  let c := s.core s.blk.core
  if bankHeld s s.blk.core s.cur.b s.blk s.agentList kind bank || s.blk.worksHold kind bank then s.waits
  else match c.claim? s.blk.slot kind bank with
    | none => s.waits
    | some c' => f (s.setCore s.blk.core c')

def execBanksv (bank : Fin 16) (kind : Fin 4) (s : State) : Host.Outcome State Fault Refusal :=
  .next (issueWord (.banksv bank kind) s fun s => withBank bank.val kind.val s fun s =>
    let a := s.agent bank.val
    (s.setBlk (s.blk.saveBank kind.val bank.val (a.v, a.vPoison))).issued)

/-- A stream's vector registers from the save area, or in launch state. -/
def loadVectors (s : State) (bank : Nat) : State :=
  let (v, p) := (getKey s.blk.savedVecs bank).getD (Vector.replicate 16 0, 0)
  if bank = s.cur.w then s.setAg { s.ag with v := v, vPoison := p }
  else
    let a := s.agent bank
    s.setBlk { s.blk with agents := s.blk.agents.set (bank % 5) { a with v := v, vPoison := p } (Nat.mod_lt _ (by decide)) }

def execBankld (bank : Fin 16) (kind : Fin 4) (s : State) : Host.Outcome State Fault Refusal :=
  .next (issueWord (.bankld bank kind) s fun s => withBank bank.val kind.val s fun s =>
    (if kind.val = 2 then loadVectors s bank.val else s.setBlk (s.blk.loadBank kind.val bank.val)).issued)

/-- The command's place is checked at issue (R338), and its address goes to the partition controller. -/
def execPcmd (a : SReg) (s : State) : Host.Outcome State Fault Refusal :=
  .next (issueWord (.pcmd a) s fun s => s.checkPoison [.s a] fun s =>
    let va := s.sReg a
    let c : Pcmd := ⟨s.blk.part, va⟩
    if !s.ag.accs.isEmpty then s.waits
    else if va.toNat % 256 ≠ 0 ∨ (canonical va ∧ inWindow va) then s.raise cPROT va
    else match translate s s.blk va .load with
      | .fault c => s.raise c va
      | .miss => (startWalk s va .load none none false).waits
      | .ok l =>
        let s := s.snoopLoc l 256
        if (readLoc s l 256).2 then s.raise cPOISON va
        else { s with pcmds := s.pcmds ++ [c] }.issued)

end Sys2Proof.Machine
end

