-- ==== Sys2Proof/Machine/Parts.lean ====
section
/-! DEFINITION. The partition controller: its commands, the partitions they make and change, capability blocks and handle
tables (spec/21_package_partitions_and_failure.md R327 to R332, R338 to R340, spec/16 R293, spec/23 R355). -/

namespace Sys2Proof.Machine

/-! ## Handle tables (R293) -/

/-- The limits of the header. -/
def headerOk (x : Nat) : Bool :=
  let flog := fld x 0x18 1
  decide (8 ≤ flog) && decide (flog ≤ 20) && fld x 0 8 % 2 ^ flog == 0 && fld x 8 8 % 2 ^ flog == 0 &&
    decide (1 ≤ fld x 0x10 4) && decide (fld x 0x10 4 ≤ 16777216) && decide (1 ≤ fld x 0x14 4) &&
    decide (fld x 0x14 4 ≤ 16777216) && zeroFrom x 0x19 0x1F && zeroFrom x 0x28 0x3F

/-- The table at an address under a partition's page table: none where its header cannot be read or breaks a limit. -/
def readTable (s : State) (p : Partition) (addr : Word) : Option HandleTable :=
  match readBytes s p addr 64 with
  | some (x, false) =>
    if headerOk x then
      some ⟨addr, quad x 0, quad x 8, fld x 0x10 4, fld x 0x14 4, fld x 0x18 1, quad x 0x20⟩
    else none
  | _ => none

/-- A partition under a TTBASE. -/
def Partition.under (p : Partition) (ttbase : Word) : Partition := { p with ttroot := ttbase.extractLsb' 12 40 }

/-- A partition with a TTBASE and a handle table; address 0 is no table. -/
def withTable (s : State) (p : Partition) (ttbase addr : Word) : Option Partition :=
  let p := p.under ttbase
  if addr = 0 then some { p with table := none }
  else (readTable s p addr).map fun t => { p with table := some t }

/-- The pages of a handle table's header, under the table that the command names. -/
def tablePages (p : Partition) (ttbase addr : Word) : List (Partition × Word) :=
  if addr = 0 then [] else (pagesOf addr 64).map fun va => (p.under ttbase, va)

/-- A read of the header has the host give up its lines (R247). -/
def snoopHeader (s : State) (p : Partition) (ttbase addr : Word) : State :=
  if addr = 0 then s else s.snoopRead (p.under ttbase) addr 64

/-- Scope 3 of R118 over a partition. -/
def dropTranslations (s : State) (n : Nat) : State :=
  (s.part n).cores.foldl (fun s c => s.setCore c { s.core c with tlb := (s.core c).tlb.filter fun e => e.part != n })
    { s with engWalks := s.engWalks.filter fun k => k.part != n }

/-! ## Partition 1 (R355) -/

def firstPartition (s : State) : Partition :=
  { Partition.reset with
    clusters := List.range 88, ranges := [(0, 0x58_0000_0000)], isa := 0x7F, priv := true, links := 0xFFFF
    ttroot := s.p1root, capb := capAddr 1
    windows := (getKey s.keptWindows 1).getD (s.part 1).windows }

/-- Its capability block is written as soon as the controller has walked to its pages. -/
def createFirst (s : State) : State := { s.setPart 1 (firstPartition s) with capDue := [1] }

/-! ## Commands (R338) -/

/-- The bytes of a command up to REPORT, read under the issuing partition's table. -/
def readCommand (s : State) (c : Pcmd) : Option Nat := (readBytes s (s.part c.part) c.va 0xE8).map (·.1)

def Cmd.op (x : Nat) : Nat := fld x 0 1
def Cmd.target (x : Nat) : Nat := fld x 1 1
def Cmd.parent (x : Nat) : Nat := fld x 2 1
def Cmd.nonce (x : Nat) : Word := quad x 8
def Cmd.sliced (x : Nat) : Bool := (fld x 0x10 1).testBit 0
def Cmd.priv (x : Nat) : Bool := (fld x 0x10 1).testBit 1
def Cmd.tweight (x : Nat) : Nat := fld x 0x12 1
def Cmd.rung (x : Nat) : Nat := fld x 0x13 1
def Cmd.clusters (x : Nat) : List Nat := (List.range 88).filter fun g => (fld x 0x14 12).testBit g
def Cmd.isa (x : Nat) : Word := quad x 0x20
def Cmd.ttbase (x : Nat) : Word := quad x 0x28
def Cmd.htbl (x : Nat) : Word := quad x 0x30
def Cmd.chrate (x : Nat) : Nat := fld x 0x38 2
def Cmd.links (x : Nat) : BitVec 16 := BitVec.ofNat 16 (fld x 0x3A 2)
def Cmd.linkrate (x : Nat) : Nat := fld x 0x3C 2
def Cmd.vfs (x : Nat) : List Nat := (List.range 193).filter fun v => v != 0 && (fld x 0x40 24).testBit (v - 1)
def Cmd.ranges (x : Nat) : List (Nat × Nat) :=
  (List.range (fld x 0x11 1)).map fun i => (fld x (0x58 + 16 * i) 8, fld x (0x60 + 16 * i) 8)

/-- The bytes that a code uses beyond OP, TARGET and NONCE, as offset and length (R340). -/
def cmdUses (op : Nat) : List (Nat × Nat) :=
  match op with
  | 1 => [(2, 1), (0x10, 3), (0x14, 42), (0x58, 80)]
  | 3 => [(0x12, 1), (0x38, 6)]
  | 4 => [(0x40, 24)]
  | 5 => [(0x28, 16)]
  | 6 => [(0x13, 1)]
  | 7 => [(0x20, 8)]
  | _ => []

/-- Every byte up to SIG that the code does not use is zero. -/
def unusedZero (x : Nat) : Bool :=
  (List.range 0xA8).all fun i =>
    decide (i < 2) || (decide (8 ≤ i) && decide (i < 16)) ||
      (cmdUses (Cmd.op x)).any (fun u => decide (u.1 ≤ i) && decide (i < u.1 + u.2)) || fld x i 1 == 0

/-- A range of device DRAM from a multiple of 2 MiB to a later one (R332). -/
def rangeOk (r : Nat × Nat) : Bool :=
  r.1 % 0x200000 == 0 && r.2 % 0x200000 == 0 && decide (r.1 < r.2) && decide (r.2 ≤ 0x58_0000_0000)

/-- The fields keep to R338 and R340. -/
def fieldsOk (s : State) (x : Nat) : Bool :=
  let weight (sliced : Bool) : Bool := (Cmd.tweight x != 0) == sliced
  unusedZero x && decide (2 ≤ Cmd.target x) && match Cmd.op x with
    | 1 =>
      decide (fld x 0x10 1 < 4) && decide (fld x 0x11 1 ≤ 5) && weight (Cmd.sliced x) &&
        !(Cmd.sliced x && Cmd.parent x == 0) && decide (fld x 0x14 12 < 2 ^ 88) && decide (fld x 0x20 8 < 128) &&
        (fld x 0x11 1 == 5 || zeroFrom x (0x58 + 16 * fld x 0x11 1) 0xA7) && (Cmd.ranges x).all rangeOk
    | 2 | 4 | 5 => true
    | 3 => weight (s.part (Cmd.target x)).sliced
    | 6 => decide (1 ≤ Cmd.rung x) && decide (Cmd.rung x ≤ 4)
    | 7 => decide (fld x 0x20 8 < 128)
    | _ => false

/-- Is a partition, or the one that CREATE would make, below the issuing one? -/
def below (s : State) (issuer x : Nat) : Bool :=
  issuer == 1 || (if Cmd.op x = 1 then Cmd.parent x else (s.part (Cmd.target x)).parent) == issuer

/-- The first check of R339 that a command fails, of its first four. -/
def checkCommand (s : State) (c : Pcmd) (x : Nat) : Option Nat :=
  if !s.hypLock || !Config.sigVerifies s.hypKey (toBytes (fld x 0 0xA8) 0xA8) (toBytes (fld x 0xA8 64) 64) then some 1
  else if (match s.nonce with | some n => decide (Cmd.nonce x ≤ n) | none => false) then some 2
  else if !fieldsOk s x then some 3
  else if !below s c.part x then some 5
  else none

/-- The controller is still at work on a command, which takes effect later: a DESTROY or a SETQUOTA. -/
def controllerBusy (s : State) : Bool := s.rungs.any (·.report.isSome) || s.parts.any (·.2.quota.isSome)

/-- Take the next command, if its code is one of those given: the controller walks to its page, and then to the pages that the
command needs beside it. `f` answers the new state, or the status of a command that fails a later check and changes nothing. -/
def takeCommand (ops : Nat → Bool) (s : State) (pages : Nat → List (Partition × Word))
    (f : Pcmd → Nat → State → Except Nat State) : State :=
  if controllerBusy s then s
  else match s.pcmds with
  | [] => s
  | c :: rest =>
    let own := (pagesOf c.va 0xF0).map fun va => (s.part c.part, va)
    match readCommand s c with
    | none => withPages s own fun s => if ops 0 then writeReport { s with pcmds := rest } c 1 else s
    | some x =>
      if !ops (Cmd.op x) then s
      else withPages s (own ++ if (checkCommand s c x).isSome then [] else pages x) fun s =>
        let s' := { s.snoopRead (s.part c.part) c.va 0xE8 with pcmds := rest }
        match checkCommand s c x with
        | some n => writeReport s' c n
        | none => match f c x { s' with nonce := some (Cmd.nonce x) } with
          | .ok t => t
          | .error n => writeReport s' c n

/-- A command that takes effect at once, with its REPORT. -/
def withCommand (ops : Nat → Bool) (s : State) (pages : Nat → List (Partition × Word)) (f : Nat → State → Except Nat State) :
    State :=
  takeCommand ops s pages fun c x s => (f x s).map fun t => writeReport t c 0

/-! ## Resources (R327, R331, R332) -/

/-- The home range of a cluster (R230). -/
def homeRange (g : Nat) : Nat × Nat := (g * 2 ^ 32, (g + 1) * 2 ^ 32)

/-- Does a set of disjoint, joined ranges hold a range? -/
def holdsRange (l : List (Nat × Nat)) (r : Nat × Nat) : Bool := l.any fun y => decide (y.1 ≤ r.1) && decide (r.2 ≤ y.2)

/-- A range set without a range. -/
def cutRange (l : List (Nat × Nat)) (r : Nat × Nat) : List (Nat × Nat) :=
  l.flatMap fun y =>
    if y.2 ≤ r.1 ∨ r.2 ≤ y.1 then [y]
    else (if y.1 < r.1 then [(y.1, r.1)] else []) ++ (if r.2 < y.2 then [(r.2, y.2)] else [])

/-- No block of any kind stands on a core of the cluster. -/
def clusterIdle (s : State) (g : Nat) : Bool :=
  (coresOf g).all fun c => (s.core c).slots.toList.all Option.isNone

def subMask (a b : Word) : Bool := a &&& ~~~b == 0
def subLinks (a b : BitVec 16) : Bool := a &&& ~~~b == 0

/-- The children of a partition. -/
def childrenOf (s : State) (n : Nat) : List (Nat × Partition) := s.parts.filter fun p => p.2.parent == n

/-- The children's CHRATE values, with one of them replaced, stay within a capped parent's. -/
def rateFits (s : State) (parent child rate : Nat) : Bool :=
  let cap := (s.part parent).chrate
  parent == 0 || cap == 0 ||
    decide ((((childrenOf s parent).filter fun p => p.1 != child).map fun p => p.2.chrate).sum + rate ≤ cap)

/-- The sliced children of a parent on a set of clusters. -/
def sharers (s : State) (parent : Nat) (clusters : List Nat) : List (Nat × Partition) :=
  (childrenOf s parent).filter fun p => p.2.sliced && p.2.clusters == clusters

/-- The memory range set of a new partition: its ranges, with the home ranges of the clusters it holds alone. -/
def Cmd.rangeSet (x : Nat) : List (Nat × Nat) :=
  (Cmd.ranges x ++ if Cmd.sliced x then [] else (Cmd.clusters x).map homeRange).foldl joinRange []

/-- The partition that a CREATE takes its resources from. -/
def Cmd.giver (x : Nat) : Nat := if Cmd.parent x = 0 then 1 else Cmd.parent x

/-- Does a new sliced child join a set that others share? -/
def Cmd.joins (s : State) (x : Nat) : Bool := Cmd.sliced x && !(sharers s (Cmd.parent x) (Cmd.clusters x)).isEmpty

/-- The resources of a CREATE are free and idle. -/
def createFree (s : State) (x : Nat) : Bool :=
  let p := s.part (Cmd.giver x)
  (getKey s.parts (Cmd.target x)).isNone && (getKey s.parts (Cmd.giver x)).isSome && p.level == 1 &&
    (if Cmd.joins s x then decide ((sharers s (Cmd.parent x) (Cmd.clusters x)).length < 8)
     else (Cmd.clusters x).all fun g => p.clusters.contains g && clusterIdle s g) &&
    (Cmd.rangeSet x).all (holdsRange p.ranges) && subMask (Cmd.isa x) p.isa && subLinks (Cmd.links x) p.links &&
    rateFits s (Cmd.parent x) (Cmd.target x) (Cmd.chrate x)

/-! ## The commands (R340) -/

/-- The partition that a CREATE makes, before its tables. -/
def newPartition (s : State) (x : Nat) : Partition :=
  let p : Partition := { Partition.reset with
    id := Cmd.target x, level := if Cmd.parent x = 0 then 1 else 2, parent := Cmd.parent x, sliced := Cmd.sliced x
    clusters := Cmd.clusters x, ranges := Cmd.rangeSet x, isa := Cmd.isa x, priv := Cmd.priv x
    capb := capAddr (Cmd.target x), chrate := Cmd.chrate x, links := Cmd.links x, linkrate := Cmd.linkrate x
    tweight := Cmd.tweight x, active := !Cmd.joins s x
    windows := (getKey s.keptWindows (Cmd.target x)).getD Partition.reset.windows }
  { p with offline := offlineCount s p }

/-- The giver without what it gives. -/
def givenFrom (s : State) (x : Nat) : Partition :=
  let p := s.part (Cmd.giver x)
  let p := { p with
    clusters := if Cmd.joins s x then p.clusters else p.clusters.filter fun g => !(Cmd.clusters x).contains g
    ranges := (Cmd.rangeSet x).foldl cutRange p.ranges }
  { p with offline := offlineCount s p }

/-- The pages of a CREATE: the table's header, and the two capability blocks that are written. -/
def createPages (s : State) (x : Nat) : List (Partition × Word) :=
  if !createFree s x then []
  else tablePages (newPartition s x) (Cmd.ttbase x) (Cmd.htbl x) ++ capPages ((newPartition s x).under (Cmd.ttbase x)) ++
    capPages (givenFrom s x)

/-- CREATE. A sliced child that is alone on its set begins its slice. -/
def createPartition (x : Nat) (s : State) : Except Nat State :=
  if !createFree s x then .error 4
  else match withTable s (newPartition s x) (Cmd.ttbase x) (Cmd.htbl x) with
    | none => .error 3
    | some p =>
      let n := Cmd.target x
      let s := snoopHeader s (newPartition s x) (Cmd.ttbase x) (Cmd.htbl x)
      let s' := ({ s with keptWindows := dropKey s.keptWindows n }.setPart (Cmd.giver x) (givenFrom s x)).setPart n p
      let s' := if p.sliced && p.active then beginSlice s' n else s'
      .ok (writeCap (writeCap s' n) (Cmd.giver x))

/-- CREATE's event takes as well a command whose code is no command's, which fails a check. -/
def execPcCreate (s : State) : Host.Outcome State Fault Refusal :=
  .next (withCommand (fun op => op == 1 || op == 0 || decide (7 < op)) s (createPages s) createPartition)

/-- The target exists, and is not partition 1. -/
def cmdTarget (s : State) (x : Nat) : Option Partition := if Cmd.target x = 1 then none else getKey s.parts (Cmd.target x)

/-- DESTROY. Its REPORT follows the rung. -/
def execPcDestroy (s : State) : Host.Outcome State Fault Refusal :=
  .next (takeCommand (· == 2) s (fun _ => []) fun c x s =>
    let n := Cmd.target x
    if (cmdTarget s x).isNone || !(childrenOf s n).isEmpty || s.vfmap.any (fun v => v.2 == n) then .error 4
    else .ok (startRung s { rungOf 4 n with report := some c }))

/-- A quota may change: it stays within the parent's, and its children stay within it. -/
def quotaFits (s : State) (x : Nat) (p : Partition) : Bool :=
  let n := Cmd.target x
  rateFits s p.parent n (Cmd.chrate x) && subLinks (Cmd.links x) (s.part p.giver).links &&
    (childrenOf s n).all (fun q => subLinks q.2.links (Cmd.links x)) &&
    (Cmd.chrate x == 0 || decide (((childrenOf s n).map fun q => q.2.chrate).sum ≤ Cmd.chrate x))

/-- The partition whose quotas have taken effect, or do so now: their round has begun, or 10 µs have passed. -/
def quotaDue (s : State) : Option (Nat × Partition × Quota) :=
  s.parts.findSome? fun p => p.2.quota.bind fun q => q.due.bind fun t =>
    if reached (s.now 0) t then some (p.1, p.2, q) else none

/-- A partition with its quotas in force. -/
def Partition.withQuota (p : Partition) (q : Quota) : Partition :=
  { p with tweight := q.tweight, chrate := q.chrate, links := q.links, linkrate := q.linkrate, quota := none }

/-- The pages of its capability block and of the command's REPORT. -/
def quotaPages (s : State) (p : Partition) (q : Quota) : List (Partition × Word) :=
  capPages (p.withQuota q) ++ reportPages s ⟨q.report.1, q.report.2⟩

/-- The quotas are in force: the capability block is rewritten, and REPORT follows. -/
def finishQuota (s : State) (n : Nat) (p : Partition) (q : Quota) : State :=
  let s := s.setPart n (p.withQuota q)
  writeReport (writeCap s n) ⟨q.report.1, q.report.2⟩ 0

/-- SETQUOTA: it takes effect from the target's next round, or after 10 µs where it is not sliced, and reports then. -/
def execPcSetquota (s : State) : Host.Outcome State Fault Refusal :=
  .next (match quotaDue s with
    | some (n, p, q) => withPages s (quotaPages s p q) fun s => finishQuota s n p q
    | none => takeCommand (· == 3) s (fun _ => []) fun c x s => match cmdTarget s x with
      | none => .error 4
      | some p =>
        if !quotaFits s x p then .error 4
        else
          let due := if p.sliced then none else some (s.now 0 + 10000)
          let q : Quota := ⟨Cmd.tweight x, Cmd.chrate x, Cmd.links x, Cmd.linkrate x, due, (c.part, c.va)⟩
          .ok (s.setPart (Cmd.target x) { p with quota := some q }))

/-- MAPVF: every queue of each named function has EN = 0. -/
def execPcMapvf (s : State) : Host.Outcome State Fault Refusal :=
  .next (withCommand (· == 4) s (fun _ => []) fun x s =>
    let idle (v : Nat) : Bool := (List.range 4).all fun q => !(s.queue (queueKey v q)).en
    if (cmdTarget s x).isNone || !(Cmd.vfs x).all idle then .error 4
    else .ok { s with vfmap := (Cmd.vfs x).foldl (fun l v => putKey l v (Cmd.target x)) s.vfmap })

/-- A walk for the partition is in progress, or an access of it has been translated and has not performed (R237). -/
def walksOpen (s : State) (n : Nat) : Bool :=
  let all (_ : Nat) (_ : Bool) (_ : Word) : Bool := true
  ((s.blocksOf n).any fun b => b.2.walkOpen b.2.agents.toList all) || hintsOpen s n (s.part n).cores all

/-- The pages of a SETTABLE. -/
def settablePages (s : State) (x : Nat) : List (Partition × Word) :=
  match cmdTarget s x with
  | some p => tablePages p (Cmd.ttbase x) (Cmd.htbl x)
  | none => []

/-- SETTABLE waits for the walks and the accesses in progress. -/
def execPcSettable (s : State) : Host.Outcome State Fault Refusal :=
  .next (if walksOpen s (match s.pcmds.head?.bind (readCommand s) with | some x => Cmd.target x | none => 0) then s else
    withCommand (· == 5) s (settablePages s) fun x s => match cmdTarget s x with
    | none => .error 4
    | some p => match withTable s p (Cmd.ttbase x) (Cmd.htbl x) with
      | none => .error 3
      | some q =>
        let s := snoopHeader s p (Cmd.ttbase x) (Cmd.htbl x)
        .ok (dropTranslations (s.setPart (Cmd.target x) q) (Cmd.target x)))

def execPcReset (s : State) : Host.Outcome State Fault Refusal :=
  .next (withCommand (· == 6) s (fun _ => []) fun x s =>
    if (cmdTarget s x).isNone then .error 4 else .ok (startRungs s (rungsOver s (Cmd.rung x) (Cmd.target x))))

def execPcSetisa (s : State) : Host.Outcome State Fault Refusal :=
  .next (withCommand (· == 7) s (fun x => capPages { s.part (Cmd.target x) with isa := Cmd.isa x }) fun x s => match cmdTarget s x with
    | none => .error 4
    | some p =>
      let n := Cmd.target x
      if !subMask (Cmd.isa x) (s.part p.giver).isa || !(childrenOf s n).all (fun q => subMask q.2.isa (Cmd.isa x)) then .error 4
      else .ok (writeCap (s.setPart n { p with isa := Cmd.isa x }) n))

end Sys2Proof.Machine
end

