-- ==== Sys2Proof/Machine/Words.lean ====
section
/-! DEFINITION. The effect of a word of a stream, for the streams that issue together, and SYNC_ISSUE
(spec/04_stream_execution.md R80, R90). An event is no word and has no effect here. -/

namespace Sys2Proof.Machine

/-- The state an outcome gives, or the one it started from. -/
def stateOr (s : State) (o : Host.Outcome State Fault Refusal) : State :=
  match o with
  | .next t => t
  | _ => s

/-- The meaning of a word. -/
def wordOutcome (i : Instr) (s : State) : Host.Outcome State Fault Refusal :=
  match i with
  | .snop => execSnop s
  | .add d a b => execAdd d a b s
  | .sub d a b => execSub d a b s
  | .mul d a b => execMul d a b s
  | .mulh d a b => execMulh d a b s
  | .mulhn d a b => execMulhn d a b s
  | .and d a b => execAnd d a b s
  | .or d a b => execOr d a b s
  | .xor d a b => execXor d a b s
  | .andn d a b => execAndn d a b s
  | .shl d a b => execShl d a b s
  | .shr d a b => execShr d a b s
  | .sar d a b => execSar d a b s
  | .ror d a b => execRor d a b s
  | .min d a b => execMin d a b s
  | .max d a b => execMax d a b s
  | .minn d a b => execMinn d a b s
  | .maxn d a b => execMaxn d a b s
  | .seq d a b => execSeq d a b s
  | .slt d a b => execSlt d a b s
  | .sltn d a b => execSltn d a b s
  | .clz d a => execClz d a s
  | .popc d a => execPopc d a s
  | .mov d a => execMov d a s
  | .addi d a y => execAddi d a y s
  | .andi d a y => execAndi d a y s
  | .ori d a y => execOri d a y s
  | .xori d a y => execXori d a y s
  | .shli d a y => execShli d a y s
  | .shri d a y => execShri d a y s
  | .sari d a y => execSari d a y s
  | .rori d a y => execRori d a y s
  | .slti d a y => execSlti d a y s
  | .movi d y => execMovi d y s
  | .peq d a b => execPeq d a b s
  | .pne d a b => execPne d a b s
  | .plt d a b => execPlt d a b s
  | .pge d a b => execPge d a b s
  | .pltn d a b => execPltn d a b s
  | .pgen d a b => execPgen d a b s
  | .ptst d a b => execPtst d a b s
  | .pand d a b => execPand d a b s
  | .por d a b => execPor d a b s
  | .pxor d a b => execPxor d a b s
  | .pnot d a => execPnot d a s
  | .vnop => execVnop s
  | .vadd vd va vb m t => execVadd vd va vb m t s
  | .vsub vd va vb m t => execVsub vd va vb m t s
  | .vmul vd va vb m t => execVmul vd va vb m t s
  | .vfma vd va vb m t => execVfma vd va vb m t s
  | .vfms vd va vb m t => execVfms vd va vb m t s
  | .vmin vd va vb m t => execVmin vd va vb m t s
  | .vmax vd va vb m t => execVmax vd va vb m t s
  | .vabs vd va m t => execVabs vd va m t s
  | .vneg vd va m t => execVneg vd va m t s
  | .viadd vd va vb t => execViadd vd va vb t s
  | .visub vd va vb t => execVisub vd va vb t s
  | .vimul vd va vb t => execVimul vd va vb t s
  | .vimin vd va vb t => execVimin vd va vb t s
  | .vimax vd va vb t => execVimax vd va vb t s
  | .vand vd va vb => execVand vd va vb s
  | .vor vd va vb => execVor vd va vb s
  | .vxor vd va vb => execVxor vd va vb s
  | .vshl vd va vb t => execVshl vd va vb t s
  | .vshr vd va vb t => execVshr vd va vb t s
  | .vsar vd va vb t => execVsar vd va vb t s
  | .vmov vd va => execVmov vd va s
  | .vrcp vd va m t => execVrcp vd va m t s
  | .vrsq vd va m t => execVrsq vd va m t s
  | .vsqrt vd va m t => execVsqrt vd va m t s
  | .vex2 vd va m t => execVex2 vd va m t s
  | .vlg2 vd va m t => execVlg2 vd va m t s
  | .vtanh vd va m t => execVtanh vd va m t s
  | .div d a b => execDiv d a b s
  | .divn d a b => execDivn d a b s
  | .rem d a b => execRem d a b s
  | .remn d a b => execRemn d a b s
  | .ld d a off => execLd d a off s
  | .st d a off => execSt d a off s
  | .lds d a off => execLds d a off s
  | .chk a => execChk a s
  | .aadd d a b off => execAadd d a b off s
  | .amin d a b off => execAmin d a b off s
  | .amax d a b off => execAmax d a b off s
  | .aand d a b off => execAand d a b off s
  | .aor d a b off => execAor d a b off s
  | .axor d a b off => execAxor d a b off s
  | .aswp d a b off => execAswp d a b off s
  | .acas d a b off => execAcas d a b off s
  | .extr d a pos len1 => execExtr d a pos len1 s
  | .insr d a pos len1 => execInsr d a pos len1 s
  | .fpush a port => execFpush a port s
  | .fpop d port => execFpop d port s
  | .hset h a b => execHset h a b s
  | .hget d h cursor => execHget d h cursor s
  | .hadv h n => execHadv h n s
  | .hwait h o => execHwait h o s
  | .trel h o => execTrel h o s
  | .tvoid d h o => execTvoid d h o s
  | .tgen d h o => execTgen d h o s
  | .tsetc a b => execTsetc a b s
  | .vld vd base k off => execVld vd base k off s
  | .vlds vd base k off => execVlds vd base k off s
  | .vst vd base k off => execVst vd base k off s
  | .vchk vd => execVchk vd s
  | .vgath vd vi base k off => execVgath vd vi base k off s
  | .vscat vd vi base k off => execVscat vd vi base k off s
  | .vcmp vd va vb fi t c => execVcmp vd va vb fi t c s
  | .vsel vd va vb kc => execVsel vd va vb kc s
  | .vbcst vd t src => execVbcst vd t src s
  | .vext x va t lane => execVext x va t lane s
  | .vidx vd t start => execVidx vd t start s
  | .vperm vd va vb => execVperm vd va vb s
  | .vrotm vd va kc r => execVrotm vd va kc r s
  | .vcvt vd va m t code sat => execVcvt vd va m t code sat s
  | .vred vd va m t op => execVred vd va m t op s
  | .vscan vd va m t op => execVscan vd va m t op s
  | .vtopk vd va vb t k => execVtopk vd va vb t k s
  | .vpushc va kc t x => execVpushc va kc t x s
  | .vpopc vd t x => execVpopc vd t x s
  | .kand d a b => execKand d a b s
  | .kor d a b => execKor d a b s
  | .kxor d a b => execKxor d a b s
  | .knot d a => execKnot d a s
  | .kcnt x a => execKcnt x a s
  | .kmovToMask d x => execKmovToMask d x s
  | .kmovFromMask x a => execKmovFromMask x a s
  | .tzero d => execTzero d s
  | .tmov d a => execTmov d a s
  | .tfromv d z => execTfromv d z s
  | .ttov a z => execTtov a z s
  | .tlds d c => execTlds d c s
  | .tsts a c => execTsts a c s
  | .tsta a c mask => execTsta a c mask s
  | .tgath d a c mask => execTgath d a c mask s
  | .tadd d a b m => execTadd d a b m s
  | .tmul d a b m => execTmul d a b m s
  | .tmax d a b m => execTmax d a b m s
  | .tscal d a b m => execTscal d a b m s
  | .ttrn d a => execTtrn d a s
  | .tred d a m => execTred d a m s
  | .tacc d a c z m => execTacc d a c z m s
  | .mmbi d a b c z m => execMmbi d a b c z m s
  | .mmf d a b c z m => execMmf d a b c z m s
  | .mmf32 d a b c z m => execMmf32 d a b c z m s
  | .mmd d a b c z m => execMmd d a b c z m s
  | .tcvt d a tag part merge sat m => execTcvt d a tag part merge sat m s
  | .tcvtPageAppend d a tag slot sat m => execTcvtPageAppend d a tag slot sat m s
  | .br off => execBr off s
  | .jmp a off => execJmp a off s
  | .call off => execCall off s
  | .ret => execRet s
  | .loop a off => execLoop a off s
  | .rep a => execRep a s
  | .syncm mask => execSyncm mask s
  | .waitt a => execWaitt a s
  | .mark m => execMark m s
  | .timed a off => execTimed a off s
  | .exit => execExit s
  | .mfc d cr => execMfc d cr s
  | .mtc a cr => execMtc a cr s
  | .mtcTcmp a => execMtcTcmp a s
  | .mtcSstat a => execMtcSstat a s
  | .trap code => execTrap code s
  | .eret => execEret s
  | .fenceh => execFenceh s
  | .waiti mask => execWaiti mask s
  | .seed n a => execSeed n a s
  | .tlbinv a scope => execTlbinv a scope s
  | .banksv bank kind => execBanksv bank kind s
  | .bankld bank kind => execBankld bank kind s
  | .pcmd a => execPcmd a s
  | .copy t f ch geo adv => execCopy t f ch geo adv s
  | .copytIn t f ch item tag img bo geo adv => execCopytIn t f ch item tag img bo geo adv s
  | .copytOut t f ch item img geo adv => execCopytOut t f ch item img geo adv s
  | .copytXfer t ch item src bo adv => execCopytXfer t ch item src bo adv s
  | .cwait t ch => execCwait t ch s
  | .cstat t f ch => execCstat t f ch s
  | .prefL2 f len1 => execPrefL2 f len1 s
  | .prefLease f len1 => execPrefLease f len1 s
  | .prefDemote f len1 => execPrefDemote f len1 s
  | .mwait p all chans mbox => execMwait p all chans mbox s
  | .syncIssue .. | .perform .. | .deliver .. | .latchLand .. | .tileDataComplete .. | .nantrap ..
  | .longUnitComplete .. | .trapEntry .. | .timerCompare .. | .interruptAccept .. | .tslipt .. | .take ..
  | .post .. | .copyRead .. | .dataRead .. | .dataWrite .. | .copyWrite .. | .remoteWriteArrival ..
  | .remoteResend .. | .transferComplete .. | .mpTrap .. | .mpResume .. | .bankClaim .. | .preempt ..
  | .blockPlace .. | .blockResume .. | .weldTick .. | .walkerPost .. | .reportTake .. | .fill ..
  | .coverageUpdate .. | .launchRetire .. | .homeReturn .. | .migrate .. | .operatorReplay ..
  | .builtInTestPass .. | .sliceEnd .. | .sliceOvershootTimeout .. | .coreFault .. | .correctedError ..
  | .scrub .. | .dramUncorrectable .. | .clusterFault .. | .walkEntryRead .. | .walkComplete .. | .leaseLapse ..
  | .hostMemRead .. | .hostMemWrite .. | .qkick .. | .qctlWrite .. | .barRegWrite .. | .seqRead ..
  | .seqReread .. | .seqTimeout .. | .nopPacket .. | .loadPacket .. | .loadComplete .. | .launchPacket ..
  | .evictPacket .. | .evictComplete .. | .madderReload | .windowLock .. | .hypkeyLock .. | .p1rootWrite ..
  | .fabidWrite .. | .pcCreate | .pcDestroy | .pcSetquota | .pcMapvf | .pcSettable | .pcReset | .pcSetisa
  | .fresetQueue .. | .fresetContext .. | .fresetEngine .. | .fresetPartition .. | .fresetDevice ..
  | .rungComplete .. | .rungEscalate .. | .powerOn | .phaseComplete | .phaseTimeout | .governorWindow ..
  | .packageStepDown .. | .deferralExpire .. | .thermalThrottle .. | .thermalPartitionRung | .thermalTrip
  | .timebaseReceiverLoss .. | .umberUncorrectable .. | .flitReceive .. | .flitResend .. | .linkRetrain ..
  | .retrainComplete .. | .remoteRequest .. | .remoteRouteTimeout .. | .timeSyncFlit .. | .timesyncLoss
  | .collectiveStart .. | .collectiveComplete .. | .pldmRequest .. | .spdmRequest .. | .powerRemoval
  | .linkTraining .. | .madderReloadEnd | .thermalLaunchHoldEnd => .next s

def wordEffect (i : Instr) (s : State) : State := stateOr s (wordOutcome i s)

/-! ## SYNC_ISSUE (R80, R90, R240) -/

/-- The stream in focus stands at a sync word of the group, and may issue it but for the word's own conditions. A
boundary MARK whose guard is true issues with its block's boundary and not here (R334). -/
def syncReady (s : State) (mask : BitVec 4) : Bool :=
  let a := s.ag
  a.ctl.syncmsk == mask && mayIssue s && waitOver s && a.accs.isEmpty && a.rep != some 0 &&
    match peek s s.blk s.cur.w a.pc with
    | some l => l.hdr.s && (match l.body with
        | .one (.mark m) => !(m.getLsbD 31 && guardTrue a l.hdr)
        | _ => true)
    | none => false

/-- Bring another agent of the block into focus. -/
def focusOn (s : State) (w : Nat) : State :=
  let b := { s.blk with agents := s.agentVec }
  { s with blk := b, ag := b.agents[w % 5]'(Nat.mod_lt _ (by decide)), cur := { IssueCtx.reset with b := s.cur.b, w := w } }

/-- A stream of the group issues its word, or the whole step does not take place. -/
def syncOne (acc : Option State) (w : Nat) : Option State :=
  acc.bind fun s =>
    let s := focusOn s w
    let t := issueAt wordEffect (s.setAg { s.ag with wait := 0 }) true
    if t.cur.disp.passed then some t else none

def execSyncIssue (b : Nat) (mask : BitVec 4) (s : State) : Host.Outcome State Fault Refusal :=
  .next (withAgent s b 0 fun s =>
    let group := (List.range 4).filter mask.getLsbD
    if group.all fun w => syncReady (focusOn s w) mask then (group.foldl syncOne (some s)).getD s else s)

end Sys2Proof.Machine
end

