-- ==== Sys2Proof/Machine/HostMem.lean ====
section
/-! DEFINITION. The host's accesses: device memory over CXL.mem, and the registers of BAR0
(spec/13_cluster_memory_and_ordering.md R246, R247, R249, spec/20 R316, R326, spec/21 R338, R342, spec/22 R346, R347,
spec/23 R356, R357). -/

namespace Sys2Proof.Machine

/-! ## CXL.mem (R246 to R249, R251, R356) -/

/-- Does the package serve a host request to a line of its DRAM? -/
def hostServed (s : State) (pa : Nat) : Bool :=
  s.dev.ready && decide (pa < 0x58_0000_0000) && !s.downClusters.contains (pa / 2 ^ 32)

/-- A read of one 64-byte line, which the host may then hold. -/
def execHostMemRead (pa : Nat) (s : State) : Host.Outcome State Fault Refusal :=
  .next (let line := pa / 64 * 64
    if hostServed s line then
      { s with
        hostLines := natInsert s.hostLines (line / 64)
        outbox := s.outbox ++ [.hostData line ((List.range 64).map fun i => s.mem.byte (line + i)) (s.mem.anyPoison (line / 4) 16)] }
    else { s with outbox := s.outbox ++ [.unsupported line] })

/-- The enabled bytes of a line, each of whose granules takes the request's poison indication. -/
def writeEnabled (poison : Bool) : Nat → List (Byte × Bool) → Store → Store
  | _, [], m => m
  | a, (b, e) :: r, m =>
    writeEnabled poison (a + 1) r (if e then (m.setByte a b).setGranule (a / 4) poison else m)

/-- A write of a line. One to a slot's frames completes with no effect (R364). -/
def execHostMemWrite (pa : Nat) (data : List Byte) (enables : List Bool) (poison : Bool) (s : State) :
    Host.Outcome State Fault Refusal :=
  .next (let line := pa / 64 * 64
    if hostServed s line then if inSlotFrame s line then s else { s with mem := writeEnabled poison line ((data.zip enables).take 64) s.mem }
    else { s with outbox := s.outbox ++ [.unsupported line] })

/-! ## Host windows and the hypervisor key (R326, R338) -/

/-- A host window of a partition number, whether the partition exists or not. -/
def setWindow (s : State) (part : Nat) (win : Fin 16) (f : Window → Window) : State :=
  match getKey s.parts part with
  | some p => s.setPart part { p with windows := p.windows.set win (f p.windows[win]) }
  | none =>
    if 1 ≤ part ∧ part ≤ 255 then
      let w := (getKey s.keptWindows part).getD Partition.reset.windows
      { s with keptWindows := putKey s.keptWindows part (w.set win (f w[win])) }
    else s

def execWindowLock (part : Nat) (win : Fin 16) (s : State) : Host.Outcome State Fault Refusal :=
  .next (setWindow s part win fun w => { w with lock := true })

/-- A word of a window; a locked window keeps its base and limit. -/
def Window.put (word : Nat) (v : Word) (w : Window) : Window :=
  match word with
  | 0 => if w.lock then w else { w with base := v &&& ~~~0xFFF#64 }
  | 1 => if w.lock then w else { w with limit := v &&& ~~~0xFFF#64 }
  | _ => { w with lock := w.lock || v.getLsbD 0 }

def execHypkeyLock (key : List Byte) (s : State) : Host.Outcome State Fault Refusal :=
  .next (if s.hypLock then s else { s with hypKey := key, hypLock := true })

/-! ## DSTAT and P1ROOT (R355, R357) -/

/-- DSTAT (R357). -/
def Device.word (d : Device) : Word :=
  BitVec.ofNat 64 (d.cause.toNat * 2 ^ 32 + d.failph.toNat * 2 ^ 24 + d.phase.toNat * 2 ^ 8 + d.ready.toNat)

/-- A write of P1ROOT: partition 1's root follows it, and its capability block is due under the new root
(notes/assumptions/59.md). -/
def p1rootWrite (s : State) (v : Word) : State :=
  if s.p1used then s
  else
    let root := v.extractLsb' 12 40
    let s := { s with p1root := root }
    match getKey s.parts 1 with
    | some p => { dropTranslations (s.setPart 1 { p with ttroot := root }) 1 with capDue := [1] }
    | none => s

def execP1rootWrite (v : Word) (s : State) : Host.Outcome State Fault Refusal :=
  .next (if barAnswers s then p1rootWrite s v else s)

/-! ## FABID, FROUTEp and the export table (R346, R347) -/

def fabidWrite (s : State) (v : Word) : State :=
  if s.fabLock then s else { s with fabid := v.extractLsb' 0 8, fabLock := v.getLsbD 8 }

def execFabidWrite (v : Word) (s : State) : Host.Outcome State Fault Refusal :=
  .next (if barAnswers s then fabidWrite s v else s)

def frouteWrite (s : State) (p : Nat) (v : Word) : State :=
  if s.fabLock then s else { s with froutes := putKey s.froutes p (v.setWidth 32) }

/-- A word of an entry of the export table. -/
def Export.put (word : Nat) (v : Word) (e : Export) : Export :=
  match word with
  | 0 =>
    { e with srcPkg := v.toNat % 256, srcPart := v.toNat / 2 ^ 8 % 256, dstPart := v.toNat / 2 ^ 16 % 256,
             w := v.toNat / 2 ^ 24 % 256 == 1 }
  | 1 => { e with base := v }
  | 2 => { e with limit := v }
  | _ => e

def exportWrite (s : State) (n word : Nat) (v : Word) : State :=
  { s with exports := putKey s.exports n (((getKey s.exports n).getD Export.reset).put word v) }

/-! ## BAR0 (R316, R318, R342) -/

/-- QBASE is writable while EN = 0. -/
def qbaseWrite (s : State) (key : Nat) (v : Word) : State :=
  let q := s.queue key
  if q.en then s else s.setQueue key { q with base := v &&& ~~~0xFF#64 }

/-- FRESET. -/
def fresetWrite (s : State) (fn : Nat) (v : Word) : State :=
  let q := Fin.ofNat 4 (v.extractLsb' 8 2).toNat
  let part := (v.extractLsb' 16 8).toNat
  match (v.extractLsb' 0 3).toNat with
  | 1 => stateOr s (execFresetQueue fn part q s)
  | 2 => stateOr s (execFresetContext fn part (v.extractLsb' 32 32).toNat q s)
  | 3 => stateOr s (execFresetEngine fn part s)
  | 4 => stateOr s (execFresetPartition fn part s)
  | 5 => stateOr s (execFresetDevice fn s)
  | _ => s

/-- Registers that only PF0's BAR0 holds. -/
def pf0Write (s : State) (off : Nat) (v : Word) : State :=
  if off = 0x3800 then s
  else if off = 0x3808 then p1rootWrite s v
  else if off = 0x3F00 then fabidWrite s v
  else if 0x4000 ≤ off ∧ off < 0x4800 then frouteWrite s ((off - 0x4000) / 8) v
  else if 0x6000 ≤ off ∧ off < 0x6800 then exportWrite s ((off - 0x6000) / 32) ((off - 0x6000) / 8 % 4) v
  else if 0x10000 ≤ off ∧ off < 0x10000 + 0x400 * 192 ∧ off % 0x100 = 0 then
    writeQctl s true ((off - 0x10000) / 0x400 + 1) ((off - 0x10000) / 0x100 % 4) v
  else match Config.windowAt off with
    | some (part, win, word) => setWindow s part win (Window.put word v)
    | none => s

/-- The aligned 8-byte write of a register of a function's BAR0. Nothing is written before BAR0 answers, but that FRESET takes a
package that has stopped through bring-up again (R354). -/
def barWrite (s : State) (fn off : Nat) (v : Word) : State :=
  if 192 < fn ∨ off % 8 ≠ 0 then s
  else if !barAnswers s then (if off = 0x800 then fresetWrite s fn v else s)
  else if off < 0x400 then
    let key := queueKey fn (off / 0x100)
    match off % 0x100 with
    | 0x00 => qbaseWrite s key v
    | 0x08 => writeQctl s false fn (off / 0x100) v
    | 0x10 => kick s key (v.setWidth 32)
    | _ => s
  else if off = 0x800 then fresetWrite s fn v
  else if fn = 0 then pf0Write s off v
  else s

/-! ## Reads of BAR0 (R316, R342, R346, R347, R354, R357) -/

/-- QERR. -/
def Queue.errWord (q : Queue) : Word := BitVec.ofNat 64 (q.errCode.toNat * 2 ^ 32 + q.errSeq.toNat)

/-- Traffic to a package is on ALTERNATE. -/
def altUse (s : State) (pkg : Nat) : Bool :=
  let r := (getKey s.froutes pkg).getD 0
  (r.setWidth 16 &&& upLinks s) == 0 && ((r >>> 16).setWidth 16 &&& upLinks s) != 0

def frouteWord (s : State) (pkg : Nat) : Word :=
  BitVec.ofNat 64 (((getKey s.froutes pkg).getD 0).toNat + if altUse s pkg then 2 ^ 32 else 0)

def Export.word (e : Export) (word : Nat) : Word :=
  match word with
  | 0 => BitVec.ofNat 64 (e.srcPkg + e.srcPart * 2 ^ 8 + e.dstPart * 2 ^ 16 + e.w.toNat * 2 ^ 24)
  | 1 => e.base
  | 2 => e.limit
  | _ => 0

def Window.word (w : Window) (word : Nat) : Word :=
  match word with
  | 0 => w.base
  | 1 => w.limit
  | _ => BitVec.ofNat 64 w.lock.toNat

/-- The windows of a partition number. -/
def windowsOf (s : State) (part : Nat) : Vector Window 16 :=
  match getKey s.parts part with
  | some p => p.windows
  | none => (getKey s.keptWindows part).getD Partition.reset.windows

/-- A register of a queue. -/
def queueWord (q : Queue) (off : Nat) : Word :=
  match off with
  | 0x00 => q.base
  | 0x08 => q.ctlWord
  | 0x18 => q.done.setWidth 64
  | 0x20 => q.errWord
  | _ => 0

/-- Registers that only PF0's BAR0 holds. -/
def pf0Word (s : State) (off : Nat) : Word :=
  if off = 0x3F00 then BitVec.ofNat 64 (s.fabid.toNat + if s.fabLock then 256 else 0)
  else if 0x4000 ≤ off ∧ off < 0x4800 then frouteWord s ((off - 0x4000) / 8)
  else if 0x6000 ≤ off ∧ off < 0x6800 then
    ((getKey s.exports ((off - 0x6000) / 32)).getD Export.reset).word ((off - 0x6000) / 8 % 4)
  else if 0x10000 ≤ off ∧ off < 0x10000 + 0x400 * 192 then
    if off % 0x100 = 0 then (s.queue (queueKey ((off - 0x10000) / 0x400 + 1) ((off - 0x10000) / 0x100 % 4))).ctlWord else 0
  else match Config.windowAt off with
    | some (part, win, word) => (windowsOf s part)[win].word word
    | none => 0

/-- An 8-byte read of BAR0 of a function. Until the package is ready, only DSTAT and P1ROOT read as what they hold, from
phase 2 on. -/
def barRead (s : State) (fn off : Nat) : Word :=
  if 192 < fn ∨ off % 8 ≠ 0 ∨ !barAnswers s then 0
  else if fn = 0 ∧ off = 0x3800 then s.dev.word
  else if fn = 0 ∧ off = 0x3808 then s.p1root.setWidth 64 <<< 12
  else if !s.dev.ready then 0
  else if off < 0x400 then queueWord (s.queue (queueKey fn (off / 0x100))) (off % 0x100)
  else if off = 0x808 then frstatWord s fn
  else if fn = 0 then pf0Word s off else 0

def execBarRegWrite (fn : Fn) (off : Nat) (v : Word) (s : State) : Host.Outcome State Fault Refusal :=
  .next (barWrite s fn off v)

end Sys2Proof.Machine
end

