-- ==== Sys2Proof/Machine/Fabric.lean ====
section
/-! DEFINITION. The fabric: links and flits, remote requests, and fabric time (spec/22_fabric.md R344 to R349, R353,
spec/15 R281, spec/23 R354). -/

namespace Sys2Proof.Machine

/-! ## Flits as bytes (R344) -/

/-- The header. -/
def flitHeader (f : Flit) : Nat :=
  f.dst % 2 ^ 8 * 2 ^ 56 + f.src % 2 ^ 8 * 2 ^ 48 + f.kind % 2 ^ 4 * 2 ^ 44 + f.vc % 2 ^ 2 * 2 ^ 42 + f.seq % 2 ^ 12 * 2 ^ 30 +
    f.ack % 2 ^ 12 * 2 ^ 18

/-- Bytes 0 to 251: the header, and the payload with zeros after it. -/
def flitBody (f : Flit) : List Byte :=
  toBytes (flitHeader f) 8 ++ f.payload.take 244 ++ List.replicate (244 - f.payload.length) 0

/-- CRC-32C over some bytes. -/
def crcOf (l : List Byte) : BitVec 32 := ~~~(l.foldl crcByte 0xFFFFFFFF#32)

/-- The 256 bytes of a flit. -/
def flitBytes (f : Flit) : List Byte := flitBody f ++ toBytes (crcOf (flitBody f)).toNat 4

/-- Bytes as a number, little-endian. -/
def bytesNum : List Byte → Nat
  | [] => 0
  | b :: r => b.toNat + 256 * bytesNum r

/-- The flit that 256 bytes hold, and whether its CRC holds. -/
def flitOf (l : List Byte) : Flit :=
  let h := bytesNum (l.take 8)
  ⟨h / 2 ^ 56 % 2 ^ 8, h / 2 ^ 48 % 2 ^ 8, h / 2 ^ 44 % 2 ^ 4, h / 2 ^ 42 % 2 ^ 2, h / 2 ^ 30 % 2 ^ 12, h / 2 ^ 18 % 2 ^ 12,
    decide ((crcOf (l.take 252)).toNat = bytesNum ((l.drop 252).take 4)), (l.drop 8).take 244⟩

/-! ## Links (R345) -/

/-- A flit that an acknowledge up to `ack` covers. -/
def ackCovers (ack : Nat) (f : Flit) : Bool := decide ((ack + 4096 - f.seq % 4096) % 4096 < 2048)

/-- The replay buffer without the flits acknowledged. -/
def Link.acked (l : Link) (ack : Nat) : Link :=
  let r := l.buffer.filter fun f => !ackCovers ack f.1
  { l with buffer := r, resends := if r.length = l.buffer.length then l.resends else 0 }

/-- The acknowledge flit that names the last good SEQ leaves, as far as the link has room (notes/assumptions/37.md). -/
def sendAck (s : State) (i : Fin 16) (dst : Nat) : State :=
  if s.links[i].room then sendOn s i 0xFFFF ⟨dst, s.fabid.toNat, 6, 1, 0, 0, true, []⟩ else s

/-! ## FLIT_RECEIVE (R344, R345, R346) -/

/-- Any route toward a package is named (R347, R353). -/
def routeKnown (s : State) (pkg : Nat) : Bool := (getKey s.froutes pkg).getD 0 != 0

/-- The refusal of a request goes back to its package (R347). -/
def refuseRequest (s : State) (pkg : Nat) : State :=
  sendTo { s with outbox := s.outbox ++ [.remote true [] 0] } 0xFFFF (ownFlit s pkg 2 1 [1])

/-- A flit for another package goes on along its route; a request toward a package without a route onward is refused. -/
def forwardFlit (s : State) (f : Flit) : State :=
  if f.kind = 1 ∧ !routeKnown s f.dst then refuseRequest s f.src else sendTo s 0xFFFF f

/-- A member of another package, as its flit gives it. -/
def remoteMember (s : State) (f : Flit) : Option Member :=
  (Config.collectiveFlit f.payload).map fun x =>
    ⟨0, x.1[8], x.1[0], x.1[1], BitVec.ofNat 32 x.1[2], BitVec.ofNat 64 x.1[3], x.1[4], 0, 0, BitVec.ofNat 64 x.1[5], x.1[6],
      x.1[7], s.now 0, false, some (f.src, x.2), []⟩

/-- Does a flit go on to another package? Idle, time sync, acknowledge and link control flits are of one link. -/
def passesOn (s : State) (f : Flit) : Bool :=
  f.dst != s.fabid.toNat && (f.kind == 1 || f.kind == 2 || f.kind == 3 || f.kind == 5)

/-- A flit accepted in order takes effect. What a request, a response or a time sync carries is an event of its own. -/
def deliverFlit (s : State) (f : Flit) : State :=
  if passesOn s f then forwardFlit s f
  else if f.kind = 5 then
    match remoteMember s f with
    | some m => { s with members := s.members ++ [m] }
    | none => s
  else s

/-- A flit arrives: one whose CRC fails or whose SEQ is not the next is answered by an acknowledge; a reserved KIND is
discarded and counted. -/
def flitReceive (s : State) (i : Fin 16) (f : Flit) : State :=
  let l := s.links[i]
  if !l.up || l.retraining then s
  else if !f.crcOk then sendAck s i f.src
  else
    let l := l.acked f.ack
    let l := if 8 ≤ f.kind then { l with errors := l.errors + 1 } else l
    if f.seq % 4096 ≠ l.rxSeq.toNat then flush (sendAck (s.setLink i l) i f.src)
    else
      let t := s.setLink i { l with rxSeq := l.rxSeq + 1 }
      flush (if 8 ≤ f.kind then t else deliverFlit t f)

def execFlitReceive (link : Fin 16) (f : Flit) (s : State) : Host.Outcome State Fault Refusal := .next (flitReceive s link f)

/-- The flits after an acknowledged SEQ are sent again, in order. -/
def execFlitResend (link : Fin 16) (fromSeq : Nat) (s : State) : Host.Outcome State Fault Refusal :=
  .next (let l := s.links[link]
    match l.buffer with
    | [] => s
    | f :: _ =>
      if l.up && !l.retraining && decide (l.resends < 16) && f.1.seq == (fromSeq + 1) % 4096 then
        { s.setLink link { l with resends := l.resends + 1 } with
          outbox := s.outbox ++ l.buffer.map fun f => .flit link { f.1 with ack := l.good.toNat } }
      else s)

/-- After 16 resends of one flit the link retrains. -/
def execLinkRetrain (link : Fin 16) (s : State) : Host.Outcome State Fault Refusal :=
  .next (let l := s.links[link]
    if l.up && !l.retraining && decide (16 ≤ l.resends) then s.setLink link { l with retraining := true } else s)

/-! ## Links that go down and come up (R345, R346, R353, R354) -/

/-- A wait for a route ends when a link of it is up. -/
def clearStalls (s : State) : State :=
  { s with stalled := s.stalled.filter fun x => (routeLink s (s.part x.1).links x.2.1).isNone }

/-- The flits of a link that is down go, in order, to the links that may take them (R346, R353). Those of one link alone,
idle, time sync, acknowledge and link control, end with it. -/
def moveTraffic (s : State) (old : Fin 16) : State :=
  let l := s.links[old]
  let go := l.buffer.filter fun f => f.1.kind == 1 || f.1.kind == 2 || f.1.kind == 3 || f.1.kind == 5
  flush { s.setLink old { l with buffer := [] } with outgoing := (go.map fun f => (f.2, f.1)) ++ s.outgoing }

/-- A retrain succeeds, or fails: the third failure in succession marks the link down and moves its traffic. -/
def execRetrainComplete (link : Fin 16) (ok : Bool) (s : State) : Host.Outcome State Fault Refusal :=
  .next (let l := s.links[link]
    if !l.retraining then s
    else if ok then flush (s.setLink link { l with retraining := false, resends := 0, fails := 0 })
    else if l.fails < 2 then s.setLink link { l with fails := l.fails + 1 }
    else moveTraffic (s.setLink link { l with up := false, down := true, retraining := false, resends := 0, fails := 0 }) link)

/-- A link that comes up begins again at SEQ 0 at both ends, with nothing to replay (notes/assumptions/37.md). -/
def Link.trained (l : Link) : Link :=
  let l := if l.up then l else { l with txSeq := 0, rxSeq := 0, buffer := [] }
  { l with up := true, down := false, retraining := false, resends := 0, fails := 0 }

def execLinkTraining (link : Fin 16) (s : State) : Host.Outcome State Fault Refusal :=
  .next (if s.dev.ready then flush (clearStalls (s.setLink link s.links[link].trained)) else s)

/-! ## Remote requests (R347, R348) -/

/-- Does an entry of the export table pass a request? -/
def Export.passes (s : State) (r : RemoteReq) (e : Export) : Bool :=
  e.srcPkg == r.srcPkg && e.srcPart == r.srcPart && decide (e.base.toNat ≤ r.off) && decide (r.off + r.len ≤ e.limit.toNat) &&
    (e.w || (r.write.isNone && r.rmw.isNone)) && match getKey s.parts e.dstPart with
      | some p => p.ranges.any fun y => decide (y.1 ≤ r.off) && decide (r.off + r.len ≤ y.2)
      | none => false

/-- Bytes of a write request in its enabled granules, with the poison that each takes (R249); `first` is the number of the
granule that holds its first byte. -/
def writeRequest (lanes poison first : Nat) : Nat → List Byte → Store → Store
  | _, [], m => m
  | a, b :: r, m =>
    let g := a / 4 - first
    writeRequest lanes poison first (a + 1) r
      (if lanes.testBit g then (m.setByte a b).setGranule (a / 4) (poison.testBit g) else m)

/-- The answer to a request, which goes back to its package: the bytes, and the poison of each granule. -/
def answerRequest (s : State) (pkg : Nat) (d : List Byte) (poison : Nat) : State :=
  sendTo { s with outbox := s.outbox ++ [.remote false d poison] } 0xFFFF (ownFlit s pkg 2 1 (0 :: poison :: d.map BitVec.toNat))

/-- The bytes of a request's enabled granules as they stand, and the poison of each. -/
def requestRead (s : State) (r : RemoteReq) : List Byte × Nat :=
  let first := r.off / 4
  ((List.range r.len).map fun i => if r.lanes.testBit ((r.off + i) / 4 - first) then s.mem.byte (r.off + i) else 0,
    bitsOf ((List.range ((r.off % 4 + r.len + 3) / 4)).filter fun g => r.lanes.testBit g && s.mem.granule (first + g)))

/-- A request that passes, as one step at the home (R239, R348). -/
def serveRequest (s : State) (r : RemoteReq) : State :=
  let s := s.snoop r.off r.len
  let (old, bad) := requestRead s r
  match r.rmw with
  | some (op, y, cmp) =>
    let s := if bad ≠ 0 then s else match atomNew op (BitVec.ofNat 64 (s.mem.readLE r.off 8)) y cmp with
      | some v => s.write r.off 8 fun m => m.writeWords r.off 2 v.toNat (r.poison != 0)
      | none => s
    answerRequest s r.srcPkg old bad
  | none => match r.write with
    | none => answerRequest s r.srcPkg old bad
    | some d => answerRequest (s.write r.off r.len fun m => writeRequest r.lanes r.poison (r.off / 4) r.off (d.take r.len) m) r.srcPkg [] 0

def execRemoteRequest (r : RemoteReq) (s : State) : Host.Outcome State Fault Refusal :=
  .next (if !s.dev.ready || s.downClusters.contains (r.off / 2 ^ 32) || !s.exports.any (fun e => e.2.passes s r) then
      refuseRequest s r.srcPkg
    else serveRequest s r)

/-- 10 ms without a link of the route: the partition rung. -/
def execRemoteRouteTimeout (part pkg : Nat) (s : State) : Host.Outcome State Fault Refusal :=
  .next (match s.stalled.find? fun x => x.1 == part && x.2.1 == pkg with
    | none => s
    | some x =>
      if (routeLink s (s.part part).links pkg).isNone && decide (10000000 ≤ (s.now 0 - x.2.2).toNat) then
        startRung { s with stalled := s.stalled.erase x } (rungOf 4 part)
      else s)

/-! ## Fabric time (R349, R353, R281) -/

/-- The step of the count when the package joins. No ticks pass in it, so the next time-sync flits and the next slew keep their
distance. -/
def joinTime (s : State) (count : Word) : State :=
  let step (t : Word) : Word := if !s.launched || decide (t.toNat ≤ count.toNat) then count else t
  let d := step (s.now 0) - s.now 0
  sampleTimers { s with joined := true, time := s.time.map step, lastSent := s.lastSent + d, lastSlew := s.lastSlew + d }

/-- One tick of slewing toward package 0's count. -/
def slew (s : State) (count : Word) : State :=
  let d := (count - s.now 0).toInt
  if 0 < d then sampleTimers { s with time := s.time.map (· + 1), lastSlew := s.now 0 }
  else if d < 0 then { s with withheld := true, lastSlew := s.now 0 }
  else s

/-- The count lies within 25 ns of package 0's. -/
def agrees (s : State) (count : Word) : Bool := decide ((count - s.now 0).toInt.natAbs ≤ 25)

/-- The link lies on a shortest up path to package 0. -/
def shortest (s : State) (link : Fin 16) : Bool :=
  s.links.toList.all fun l => !l.up || decide (s.links[link].hops ≤ l.hops)

/-- A time-sync flit, with the count of package 0 as its sender had it: the link's delay is added (R349). One that comes by
another than a shortest path steers nothing, and is received all the same (R353). -/
def timeSync (s : State) (link : Fin 16) (count : Word) : State :=
  if !s.dev.ready || !s.links[link].up || s.fabid == 0 then s
  else if !shortest s link then { s with lastSync := s.now 0 }
  else
    let count := count + BitVec.ofNat 64 s.links[link].delay
    let t :=
      if !s.joined then joinTime s count
      else if 1024 ≤ (s.now 0 - s.lastSlew).toNat then slew s count
      else s
    { t with lastSync := t.now 0, synced := agrees t count }

def execTimeSyncFlit (link : Fin 16) (count : Word) (s : State) : Host.Outcome State Fault Refusal := .next (timeSync s link count)

/-- No time-sync flit for 1 ms: the count runs free. -/
def execTimesyncLoss (s : State) : Host.Outcome State Fault Refusal :=
  .next (if s.joined && decide (1000000 ≤ (s.now 0 - s.lastSync).toNat) then { s with synced := false, withheld := false } else s)

end Sys2Proof.Machine
end

