-- ==== Sys2Proof/Machine/Collective.lean ====
section
/-! DEFINITION. What the engines take from a block's ports and post into them, and the collective engine
(spec/08_core_tile_store_and_counts.md R170, spec/22_fabric.md R350 to R352). -/

namespace Sys2Proof.Machine

/-! ## The engine's view of a block's memory -/

/-- The place of an address that a descriptor of the block names. The engine reaches the physical core that a window address
names, not the block through the window of its launch core (R309). -/
def engPlace (s : State) (b : Block) (va : Word) (use : Use) : Option Place :=
  if inWindow va then (windowPlace s b false va).filter fun p => match p with | .pad _ | .other .. => true | _ => false
  else match engTr s (s.part b.part) va use with
    | .ok (.phys pa) => some (.phys pa)
    | _ => none

/-- The pages of a range that lie outside the windows. -/
def engPages (va : Word) (n : Nat) : List Word := if inWindow va then [] else pagesOf va n

/-- The lines of a range outside the windows are the device's. -/
def engSnoop (p : Partition) (s : State) (x : Word × Nat) : State := if inWindow x.1 then s else snoopBy (engTr s p) s x

/-- Bytes at an address, and whether a granule of theirs is poisoned. -/
def engRead (s : State) (b : Block) (va : Word) : Nat → Option (Nat × Bool)
  | 0 => some (0, false)
  | n + 1 => match engPlace s b va .load, engRead s b (va + 1) n with
    | some (.pad o), some (v, q) => some ((b.pad.byte o).toNat + 256 * v, q || b.pad.granule (o / 4))
    | some (.other id o), some (v, q) => let m := (s.block id).pad; some ((m.byte o).toNat + 256 * v, q || m.granule (o / 4))
    | some (.phys pa), some (v, q) => some ((s.mem.byte pa).toNat + 256 * v, q || s.mem.granule (pa / 4))
    | _, _ => none

/-- Bytes written at an address of a block; a byte whose address no longer translates is left out. -/
def engWrite (id : Nat) (poison : Bool) : List Byte → Word → State → State
  | [], _, s => s
  | x :: r, va, s =>
    let b := s.block id
    engWrite id poison r (va + 1) (match engPlace s b va .store with
      | some (.pad o) => s.setBlock id { b with pad := (b.pad.setByte o x).setGranule (o / 4) poison }
      | some (.other k o) => let y := s.block k; s.setBlock k { y with pad := (y.pad.setByte o x).setGranule (o / 4) poison }
      | some (.phys pa) => s.write pa 1 fun m => (m.setByte pa x).setGranule (pa / 4) poison
      | _ => s)

/-- Does every page of a range translate? -/
def engMapped (s : State) (b : Block) (va : Word) (n : Nat) (use : Use) : Bool :=
  n == 0 || ((List.range ((n + 4095) / 4096)).all fun i => (engPlace s b (va + BitVec.ofNat 64 (4096 * i)) use).isSome) &&
    (engPlace s b (va + BitVec.ofNat 64 (n - 1)) use).isSome

/-! ## Descriptors and groups (R350) -/

/-- The size of an element of a TYPE, in bytes. -/
def typeBytes (ty : Nat) : Nat := if ty = 0 ∨ ty = 3 then 4 else if ty = 7 then 8 else 2

/-- The elements that the member of a rank receives, as first and count (R350; a reduce-scatter by
notes/assumptions/38.md). -/
def dstElems (op count nmem rank : Nat) : Nat × Nat :=
  match op with
  | 0 => (0, 0)
  | 4 => (0, nmem * count)
  | 5 => (rank * count / nmem, (rank + 1) * count / nmem - rank * count / nmem)
  | _ => (0, count)

/-- The members of a group, as package and core, in rank order. -/
def groupOf (s : State) (b : Block) (group : Word) : Option (List (Nat × Nat)) :=
  match engRead s b group 8 with
  | some (h, false) =>
    let n := fld h 0 4
    if fld h 4 4 ≠ 0 ∨ n < 2 ∨ 1024 < n then none
    else match engRead s b (group + 8) (4 * n) with
      | some (x, false) =>
        let l := (List.range n).map fun i => fld x (4 * i) 4
        if l.all fun e => decide (e < 2 ^ 18) then some (l.map fun e => (e % 256, e / 256)) else none
      | _ => none
  | _ => none

/-- The fields of a descriptor that R350 limits. -/
def descOk (x : Nat) : Bool :=
  decide (fld x 0 1 ≤ 5) && (decide (fld x 1 1 ≤ 3) || fld x 1 1 == 7) && zeroFrom x 2 3 &&
    decide (1 ≤ fld x 0x10 8) && decide (fld x 0x10 8 ≤ 2 ^ 24) && zeroFrom x 0x30 0x3F

/-- The member that a good descriptor of a block makes. -/
def memberOf (s : State) (id : Nat) (b : Block) (x : Nat) : Option Member :=
  if !descOk x then none
  else match groupOf s b (quad x 8) with
    | none => none
    | some g =>
      let op := fld x 0 1
      let size := typeBytes (fld x 1 1)
      let count := fld x 0x10 8
      match g.findIdx? fun e => e.1 == s.fabid.toNat && e.2 == b.mig.lcore.toNat with
      | none => none
      | some rank =>
        let reads := if op = 0 ∨ (op = 1 ∧ rank ≠ 0) then 0 else size * count
        if engMapped s b (quad x 0x18) reads .load && engMapped s b (quad x 0x20) (size * (dstElems op count g.length rank).2) .store then
          some ⟨id, b.part, op, fld x 1 1, BitVec.ofNat 32 (fld x 4 4), quad x 8, count, quad x 0x18, quad x 0x20, quad x 0x28,
            rank, g.length, s.now b.core, false, none, g⟩
        else none

/-- A result element. -/
def resultWord (status : Nat) (tag : BitVec 32) : Word := BitVec.ofNat 64 (status * 2 ^ 56 + tag.toNat)

/-- TAG where the push names no descriptor: free, as R350 states none. -/
def freeTag (s : State) : BitVec 32 := Config.freeByte s.free ++ (Config.freeByte (s.free + 1) ++
  (Config.freeByte (s.free + 2) ++ Config.freeByte (s.free + 3)))

/-! ## TAKE and POST (R170, R258, R350) -/

/-- Does an element name a descriptor in the scratchpad of the block's core? -/
def descAt (b : Block) (v : Word) : Bool :=
  v.toNat % 64 == 0 && inWindow v && windowCore v == b.core && (padOffset b v).isSome && (padOffset b (v + 63)).isSome

/-- How many bytes of a group record are read. -/
def groupBytes (s : State) (b : Block) (group : Word) : Nat :=
  8 + 4 * match engRead s b group 8 with
    | some (h, false) => min (fld h 0 4) 1024
    | _ => 0

/-- The pages that the check of a command needs: those of its group record, and then those of its input and output. -/
def cmdPages (s : State) (b : Block) (v : Word) : List Word :=
  if !descAt b v then []
  else match engRead s b v 64 with
    | none => []
    | some (x, _) =>
      if !descOk x then []
      else
        engPages (quad x 8) (groupBytes s b (quad x 8)) ++ match groupOf s b (quad x 8) with
          | none => []
          | some g =>
            let size := typeBytes (fld x 1 1) * fld x 0x10 8
            engPages (quad x 0x18) size ++ engPages (quad x 0x20) (if fld x 0 1 = 4 then g.length * size else size)

/-- The bytes of a member's input. -/
def Member.inputBytes (m : Member) : Nat := if m.op = 0 ∨ (m.op = 1 ∧ m.rank ≠ 0) then 0 else typeBytes m.ty * m.count

/-- The flit that tells another package of a command, with the member's input (R344). -/
def collectiveFlit (s : State) (b : Block) (m : Member) (pkg : Nat) : Flit :=
  let x := ((engRead s b m.src m.inputBytes).map (·.1)).getD 0
  ownFlit s pkg 5 2 ([m.op, m.ty, m.tag.toNat, m.group.toNat, m.count, m.tick.toNat, m.rank, m.nmem, m.part] ++
    (toBytes x m.inputBytes).map BitVec.toNat)

/-- The packages of the other members learn of a command. -/
def tellOthers (s : State) (b : Block) (m : Member) : State :=
  (((m.ranks.map (·.1)).filter (· != s.fabid.toNat)).eraseDups).foldl (fun t pkg =>
    sendTo t (t.part b.part).links (collectiveFlit s b m pkg)) s

/-- The collective engine takes an element: it holds the command of a good descriptor, and answers any other. -/
def takeCollective (s : State) (id : Nat) (b : Block) (v : Word) : State :=
  let bad (s : State) (tag : BitVec 32) : State := { s with posts := s.posts ++ [(id, resultWord 1 tag)] }
  if !descAt b v then { bad s (freeTag s) with free := s.free + 4 }
  else match engRead s b v 64 with
    | none => s
    | some (x, _) =>
      let p := s.part b.part
      let t := if descOk x then engSnoop p s (quad x 8, groupBytes s b (quad x 8)) else s
      match memberOf s id b x with
      | none => bad t (BitVec.ofNat 32 (fld x 4 4))
      | some m => tellOthers { engSnoop p t (m.src, m.inputBytes) with members := s.members ++ [m] } b m

/-- The engine of a port removes the oldest command. The walker discards it, the reconstruction unit and the collective
engine act on it; the mailbox's engine is the MP, which takes by FPOP. -/
def takePort (s : State) (id : Nat) (port : Fin 4) : State :=
  match getKey s.blocks id with
  | none => s
  | some b =>
    if port = 1 then reportTake s id
    else if port = 3 then s
    else match b.ports[port].cmd with
      | [] => s
      | v :: r =>
        let x := b.setPort port { b.ports[port] with cmd := r }
        if port = 2 then
          withWalks s (s.part b.part) (cmdPages s b v) fun s => takeCollective (s.setBlock id x) id x v
        else s.setBlock id x

def execTake (b : Nat) (port : Fin 4) (s : State) : Host.Outcome State Fault Refusal := .next (takePort s b port)

/-- Room for an element in the result FIFO. -/
def Port.resRoom (p : Port) : Bool := decide (p.res.length + p.resSlots < 16)

/-- The engine of a port appends one result: a point, or a collective's. It holds the result of a block that does not run (R173). -/
def postPort (s : State) (id : Nat) (port : Fin 4) : State :=
  if port = 0 then walkerPost s id
  else if port = 2 then
    match s.posts.find? (fun p => p.1 == id), getKey s.blocks id with
    | some p, some b =>
      if b.status == .running && b.ports[2].resRoom then
        { s with posts := s.posts.erase p }.setBlock id (b.setPort 2 { b.ports[2] with res := b.ports[2].res ++ [(p.2, false)] })
      else s
    | _, _ => s
  else s

def execPost (b : Nat) (port : Fin 4) (s : State) : Host.Outcome State Fault Refusal := .next (postPort s b port)

/-! ## COLLECTIVE_START (R352, R353) -/

/-- A command for a group and tag, that has started or not. -/
def Member.isFor (m : Member) (group tag : Nat) (started : Bool) : Bool :=
  m.group.toNat == group && m.tag.toNat == tag && m.started == started

/-- The first command of each rank. -/
def firstOfRank (l : List Member) : List Member :=
  l.foldl (fun acc m => if acc.any fun x => x.rank == m.rank then acc else acc ++ [m]) []

/-- A command that belongs to a partition's collective: a block's of that partition, or another package's, whatever number its
own package gives its partition (notes/assumptions/38.md). -/
def Member.inPart (m : Member) (part : Nat) : Bool := m.remote.isSome || m.part == part

/-- The commands of one collective: a group and tag in a partition. -/
def membersOf (s : State) (group tag part : Nat) (started : Bool) : List Member :=
  firstOfRank (s.members.filter fun m => m.isFor group tag started && m.inPart part)

/-- The partitions in which a block of this package has a command for a group and tag. -/
def groupParts (s : State) (group tag : Nat) (started : Bool) : List Nat :=
  ((s.members.filter fun m => m.isFor group tag started && m.remote.isNone).map (·.part)).eraseDups

/-- The first of some commands that a block of this package gave. -/
def leader (l : List Member) : Option Member := l.find? fun m => m.remote.isNone

/-- The ranks of a group that hold no command. -/
def missing (l : List Member) (m : Member) : List Nat := (List.range m.nmem).filter fun r => !l.any fun x => x.rank == r

/-- No route toward the member's package exists, or its core does not. -/
def unreachable (s : State) (m : Member) (rank : Nat) : Bool :=
  match m.ranks[rank]? with
  | none => true
  | some (pkg, core) =>
    if pkg = s.fabid.toNat then !coreExists core else !routeNamed s (s.part m.part) pkg

/-- Every link of the route of a member's package is down: the collective waits (R353). -/
def waitsFor (s : State) (m : Member) (rank : Nat) : Option Nat :=
  match m.ranks[rank]? with
  | none => none
  | some (pkg, _) =>
    if pkg ≠ s.fabid.toNat ∧ routeNamed s (s.part m.part) pkg ∧ (routeLink s (s.part m.part).links pkg).isNone then some pkg
    else none

/-- The first command of each rank starts. -/
def startFirst (pick : Member → Bool) : List Nat → List Member → List Member
  | _, [] => []
  | seen, m :: r =>
    if pick m && !seen.contains m.rank then { m with started := true } :: startFirst pick (m.rank :: seen) r
    else m :: startFirst pick seen r

/-- The collective of a partition starts once every reachable member's command is held and TICK has been sampled, and the one
before it under the same group and tag is over; while the links to a member's package are down it waits. -/
def startIn (s : State) (group tag part : Nat) : Option State :=
  let l := membersOf s group tag part false
  match leader l with
  | none => none
  | some m =>
    if !(membersOf s group tag part true).isEmpty then none
    else
      let miss := missing l m
      match (List.range m.nmem).findSome? (waitsFor s m) with
      | some pkg => some (s.stall m.part pkg)
      | none =>
        if miss.all (unreachable s m) && l.all fun x => x.tick == 0 || reached (s.now (s.block x.block).core) x.tick then
          some { s with members := startFirst (fun x => x.isFor group tag false && x.inPart part) [] s.members }
        else none

def execCollectiveStart (group tag : Nat) (s : State) : Host.Outcome State Fault Refusal :=
  .next (((groupParts s group tag false).findSome? (startIn s group tag)).getD s)

/-! ## The values (R351) -/

/-- A running element: a value of the working format, or the cause of a generated NaN. -/
inductive Run where
  | val (x : Fp)
  | gen (c : Nat)
  deriving DecidableEq, Repr

def tyFmt (ty : Nat) : Fmt := if ty = 1 then bf16 else if ty = 2 then fp16 else if ty = 7 then fp64 else fp32
def workFmt (ty : Nat) : Fmt := if ty = 7 then fp64 else fp32

/-- One step of the sum or the maximum of floating-point elements. -/
def runStep (op ty : Nat) (run : Run) (x : Fp) : Run :=
  match run with
  | .gen c => .gen c
  | .val a =>
    let v := if op = 3 then maxVal a x else sumVal false a x
    match v with
    | .gen c => .gen c
    | v => .val (decodeFp (workFmt ty) false (putVal (workFmt ty) .rne false false v).1)

/-- The combination of one element of every rank, in rank order. -/
def combine (op ty : Nat) (l : List Nat) : Nat :=
  match l with
  | [] => 0
  | a :: r =>
    if ty = 3 then
      if op = 3 then r.foldl (fun m x => if signedOf 32 m < signedOf 32 x then x else m) a else (r.foldl (· + ·) a) % 2 ^ 32
    else
      let f := tyFmt ty
      let xs := (a :: r).map (decodeFp f false)
      if xs.any Fp.isNan then genNan f 1
      else match (xs.drop 1).foldl (runStep op ty) (.val (xs.headD (.fin Dy.zero))) with
        | .gen c => genNan f c
        | .val v => (convertFp (workFmt ty) f .rne false false v).1

/-! ## COLLECTIVE_COMPLETE (R350 to R352) -/

/-- A member's input, and whether a granule of it is poisoned. -/
def inputOf (s : State) (m : Member) : Nat × Bool :=
  match m.remote with
  | some (_, d) => (bytesNum d, false)
  | none => (engRead s (s.block m.block) m.src (typeBytes m.ty * m.count)).getD (0, false)

/-- The elements of the whole result, before a reduce-scatter divides it. -/
def wholeResult (op ty count : Nat) (inputs : List Nat) : List Nat :=
  let size := typeBytes ty
  let elem (x e : Nat) : Nat := fld x (size * e) size
  match op with
  | 0 => []
  | 1 => (List.range count).map (elem (inputs.headD 0))
  | 4 => inputs.flatMap fun x => (List.range count).map (elem x)
  | _ => (List.range count).map fun e => combine op ty (inputs.map fun x => elem x e)

/-- The command of a rank. -/
def holder (l : List Member) (rank : Nat) : Option Member := l.find? fun m => m.rank == rank

/-- The members agree on OP, TYPE and COUNT. -/
def agreed (l : List Member) (m : Member) : Bool := l.all fun x => x.op == m.op && x.ty == m.ty && x.count == m.count

/-- The collective started after TICK, or ran while the count did not agree with package 0's (R349, R353). -/
def lateStart (s : State) (l : List Member) : Bool :=
  l.any fun m => m.tick != 0 && ((reached m.arrived m.tick && m.arrived != m.tick) || (s.fabid != 0 && !s.synced))

/-- A member's output is written. -/
def deliverResult (op ty nmem : Nat) (out : List Nat) (poison : Bool) (s : State) (m : Member) : State :=
  let d := dstElems op m.count nmem m.rank
  let bytes := ((out.drop d.1).take d.2).flatMap fun e => toBytes e (typeBytes ty)
  engWrite m.block poison bytes m.dst s

/-- A member's output is undefined: free bytes. -/
def deliverFree (nmem : Nat) (s : State) (m : Member) : State :=
  let n := typeBytes m.ty * (dstElems m.op m.count nmem m.rank).2
  let t := engWrite m.block false ((List.range n).map fun i => Config.freeByte (s.free + i)) m.dst s
  { t with free := s.free + n }

/-- The data of a collective whose members all hold commands that agree. -/
def moveData (s : State) (l : List Member) (m : Member) : State :=
  let ranked := (List.range m.nmem).filterMap (holder l)
  let inputs := if m.op = 0 then [] else if m.op = 1 then (ranked.take 1).map (inputOf s) else ranked.map (inputOf s)
  let out := wholeResult m.op m.ty m.count (inputs.map (·.1))
  (l.filter fun x => x.remote.isNone).foldl (deliverResult m.op m.ty m.nmem out (inputs.any (·.2))) s

/-- STATUS, and the state with the data moved. -/
def finishCollective (s : State) (l : List Member) (m : Member) : Nat × State :=
  if !agreed l m then (2, s)
  else if !(missing l m).isEmpty then (4, (l.filter fun x => x.remote.isNone).foldl (deliverFree m.nmem) s)
  else (if lateStart s l then 3 else 0, moveData s l m)

/-- The pages of the inputs and outputs of the members of this package. -/
def dataPages (l : List Member) : List Word :=
  (l.filter fun x => x.remote.isNone).flatMap fun x =>
    engPages x.src x.inputBytes ++ engPages x.dst (typeBytes x.ty * (dstElems x.op x.count x.nmem x.rank).2)

/-- The results: each follows its member's data, into its FIFO where that has room. -/
def postResults (s : State) (l : List Member) (m : Member) : State :=
  let s := (l.filter fun x => x.remote.isNone).foldl (fun s x => engSnoop (s.part m.part) s (x.src, x.inputBytes)) s
  let (status, t) := finishCollective s l m
  let t := { t with members := t.members.filter fun x => !(x.isFor m.group.toNat m.tag.toNat true && x.inPart m.part) }
  (l.filter fun x => x.remote.isNone).foldl (fun t x =>
    postPort { t with posts := t.posts ++ [(x.block, resultWord status x.tag)] } x.block 2) t

/-- A collective that has started completes, once the pages of its members have been walked. -/
def execCollectiveComplete (group tag : Nat) (s : State) : Host.Outcome State Fault Refusal :=
  .next (match (groupParts s group tag true).head? with
    | none => s
    | some part =>
      let l := membersOf s group tag part true
      match leader l with
      | none => s
      | some m => withWalks s (s.part part) (dataPages l) fun s => postResults s l m)

end Sys2Proof.Machine
end

