-- ==== Sys2Proof/Machine/Power.lean ====
section
/-! DEFINITION. Bring-up, power, cooling, management, and the soft errors of the die and the cluster
(spec/23_bringup_power_cooling.md R354 to R361, spec/15 R291, R292, spec/13 R248, R250, spec/08 R176). -/

namespace Sys2Proof.Machine

/-! ## Bring-up (R354, R355) -/

/-- Memory outside the package's DRAM. -/
def Store.outside (m : Store) : Store :=
  ⟨m.cells.filter fun c => decide (0x58_0000_0000 ≤ c.1), m.poison.filter fun g => decide (0x58_0000_0000 ≤ 4 * g)⟩

/-- The package with its state lost: what lies outside it stays. -/
def unpowered (s : State) (d : Device) : State :=
  { State.reset with mem := s.mem.outside, dev := d, outbox := s.outbox, free := s.free, agenda := s.agenda }

/-- Power-on of a package without power: phase 1 begins. The cause is what removed it (R357, R360). -/
def execPowerOn (s : State) : Host.Outcome State Fault Refusal :=
  .next (if s.dev.power then s else { s with dev := { Device.reset with cause := s.dev.cause, began := s.now 0 } })

/-- Power is removed from outside; the next power-on has CAUSE 0. -/
def execPowerRemoval (s : State) : Host.Outcome State Fault Refusal :=
  .next (if s.dev.power then unpowered s { Device.reset with power := false } else s)

/-- 115 °C: the hardware removes power; the next power-on has CAUSE 2. -/
def execThermalTrip (s : State) : Host.Outcome State Fault Refusal :=
  .next (if s.dev.power then unpowered s { Device.reset with power := false, cause := 2 } else s)

/-- A frequency step on every island. -/
def allSteps (s : State) (n : Fin 4) : State := { s with islands := s.islands.map fun i => { i with step := n } }

/-- What a phase does. -/
def runPhase (s : State) (n : Nat) : State :=
  match n with
  | 1 => allSteps s 0
  | 4 => { s with mem := s.mem.outside }
  | 5 => { s with time := Vector.replicate 8 0 }
  | 6 =>
    let s := allSteps (createFirst s) 3
    { s with rungDone := if s.dev.cause = 1 then [0] else [] }
  | _ => s

/-- The time limit of a phase, in ticks. -/
def phaseLimit (n : Nat) : Nat :=
  match n with
  | 1 => 10000000
  | 2 => 100000000
  | 3 => 20000000
  | 4 => 60000000
  | _ => 5000000

/-- Has the phase in progress ended as it should: within its limit, and in phase 3 with an image whose signature verifies? -/
def phaseOk (s : State) (n : Nat) : Bool :=
  decide ((s.now 0 - s.dev.began).toNat ≤ phaseLimit n) &&
    (n != 3 || Config.sigVerifies Config.romKey Config.romImage Config.romSignature)

/-- The phase in progress fails: it runs once more, and then the package stops. -/
def failPhase (s : State) : State :=
  if s.dev.second then { s with dev := { s.dev with stuck := true, failph := s.dev.phase } }
  else { s with dev := { s.dev with second := true, began := s.now 0 } }

/-- A phase is in progress. -/
def inPhase (s : State) : Bool := s.dev.power && !s.dev.ready && !s.dev.stuck

/-- The phase in progress ends; after phase 6 the package is ready. -/
def execPhaseComplete (s : State) : Host.Outcome State Fault Refusal :=
  .next (let n := s.dev.phase.toNat
    if !inPhase s then s
    else if !phaseOk s n then failPhase s
    else
      let t := runPhase s n
      { t with dev := { t.dev with phase := BitVec.ofNat 8 (n + 1), second := false, ready := n == 6, began := t.now 0 } })

def execPhaseTimeout (s : State) : Host.Outcome State Fault Refusal := .next (if inPhase s then failPhase s else s)

/-! ## Islands (R358) -/

/-- The compute island of a core. -/
def islandOf (core : Nat) : Nat :=
  if core < 768 then 6 * (core / 128) + core / 8 % 16 / 2 else 36 + 4 * (core / 128 - 6) + core / 8 % 16 / 2

/-- The cap of an island, in milliwatts. -/
def islandCap (i : Nat) : Nat :=
  if i < 36 then 70000 else if i < 44 then 60000 else if i < 52 then 12000 else if i < 60 then 25000 else 30000

/-- Does a stream of a core in the island have a timed region open (R291)? -/
def regionOpen (s : State) (i : Nat) : Bool :=
  decide (i < 44) && s.blocks.any fun p => islandOf p.2.core == i && p.2.status == .running &&
    p.2.agents.toList.any fun a => a.ctl.tslip.region.isSome

def State.island (s : State) (i : Nat) : Island := s.islands[i % 64]'(Nat.mod_lt _ (by decide))
def State.setIsland (s : State) (i : Nat) (x : Island) : State :=
  { s with islands := s.islands.set (i % 64) x (Nat.mod_lt _ (by decide)) }

/-- A change of an island's step is made, or deferred while a region is open; a change already deferred stays. -/
def changeStep (s : State) (i : Nat) (n : Fin 4) : State :=
  let x := s.island i
  if x.deferred.isSome ∨ n = x.step then s
  else if regionOpen s i then s.setIsland i { x with deferred := some (n, s.now 0) }
  else s.setIsland i { x with step := n }

def stepDown (s : State) (i : Nat) : State := changeStep s i (Fin.ofNat 4 ((s.island i).step.val - 1))
def stepUp (s : State) (i : Nat) : State := changeStep s i (Fin.ofNat 4 (min 3 ((s.island i).step.val + 1)))

/-- A forced change of an island that has a region open: FREQ is set, and TSLIPT falls due where LIMIT ≠ 0 (R291). -/
def markFreq (i : Nat) (b : Block) : Block :=
  if islandOf b.core = i ∧ b.status = .running then
    { b with agents := b.agents.map fun a =>
        let t := a.ctl.tslip
        if t.region.isSome then
          { a with ctl := { a.ctl with tslip := { t with freq := true, due := if t.limit = 0 then t.due else some 0xFFFF } } }
        else a }
  else b

/-- A deferred change is made once no region is open, or after 50 µs. -/
def execDeferralExpire (island : Nat) (s : State) : Host.Outcome State Fault Refusal :=
  .next (let i := island % 64
    let x := s.island i
    match x.deferred with
    | none => s
    | some (n, t) =>
      let open_ := regionOpen s i
      if !open_ || decide (50000 ≤ (s.now 0 - t).toNat) then
        let s := s.setIsland i { x with deferred := none, step := n, heat := false }
        if open_ then { s with blocks := s.blocks.map fun p => (p.1, markFreq i p.2) } else s
      else s)

/-! ## The power governor (R359) -/

/-- The package's cap and its 95 %, over the windows of the last millisecond. -/
def overCap (s : State) : Bool := decide (3400000 * s.totals.length < s.totals.sum)
def underCap (s : State) : Bool := decide (s.totals.sum * 100 < 95 * 3400000 * s.totals.length)

/-- Is a deferred change still needed: a step down above a cap, or one that a throttle asked for, and a step up below 90 % of
the island's cap and 95 % of the package's (R291)? -/
def stillNeeded (s : State) (x : Island) (n : Fin 4) (above below : Nat) : Bool :=
  if n < x.step then x.heat || above != 0 || overCap s else below != 0 && underCap s

/-- A cap is exceeded with every compute island at 2.0 GHz: the matrix datapaths of the compute islands run with idle cycles. -/
def mustIdle (s : State) (power : List Nat) : Bool :=
  ((List.range 44).all fun i => (s.island i).step == 0) &&
    (overCap s || (List.range 64).any fun i => decide (islandCap i < power.getD i 0))

/-- One island's counts in a window, its deferral where the change is no longer needed, and its steps. -/
def governIsland (power : List Nat) (s : State) (i : Nat) : State :=
  let p := power.getD i 0
  let cap := islandCap i
  let x := s.island i
  let above := if cap < p then x.above + 1 else 0
  let below := if p * 100 < 90 * cap then min 100 (x.below + 1) else 0
  let deferred := x.deferred.filter fun d => stillNeeded s x d.1 above below
  let s := s.setIsland i { x with above := above, below := below, deferred := deferred, heat := x.heat && deferred.isSome, power := p }
  if 3 ≤ above then stepDown (s.setIsland i { s.island i with above := 0 }) i
  else if 100 ≤ below && underCap s then stepUp (s.setIsland i { s.island i with below := 0 }) i
  else s

/-- Have some ticks passed since an earlier one? -/
def since (s : State) (t : Option Word) (n : Nat) : Bool :=
  match t with
  | none => true
  | some t => decide (n ≤ (s.now 0 - t).toNat)

/-- A window of 10 µs, with the milliwatts measured for each island. -/
def execGovernorWindow (power : List Nat) (s : State) : Host.Outcome State Fault Refusal :=
  .next (if s.dev.ready && since s s.windowAt 10000 then
      let total := (power.take 64).sum
      let s := { s with windowAt := some (s.now 0), totals := (total :: s.totals).take 100 }
      let s := (List.range 64).foldl (governIsland power) s
      let idles := mustIdle s power
      (List.range 44).foldl (fun s i => s.setIsland i { s.island i with idles := idles }) s
    else s)

/-- The compute islands that can step down, in descending measured power. -/
def insertPower (power : List Nat) (i : Nat) : List Nat → List Nat
  | [] => [i]
  | x :: r => if power.getD x 0 < power.getD i 0 then i :: x :: r else x :: insertPower power i r

/-- The island that a package step takes: none with a region open, until no other is left. -/
def packageChoice (s : State) (power : List Nat) : Option Nat :=
  let l := ((List.range 44).filter fun i => (s.island i).step != 0 && (s.island i).deferred.isNone).foldl
    (fun l i => insertPower power i l) []
  match l.find? fun i => !regionOpen s i with
  | some i => some i
  | none => l.head?

def execPackageStepDown (power : List Nat) (s : State) : Host.Outcome State Fault Refusal :=
  .next (if s.dev.ready && overCap s && since s s.stepAt 100000 then
      match packageChoice s power with
      | some i => stepDown { s with stepAt := some (s.now 0) } i
      | none => s
    else s)

/-! ## Cooling (R360) -/

/-- A step up that is deferred gives way to a throttle's step down, at the same deferral's end. -/
def coolDeferral (x : Island) : Option (Fin 4 × Word) :=
  match x.deferred with
  | some (n, t) => if x.step < n then (if x.step = 0 then none else some (Fin.ofNat 4 (x.step.val - 1), t)) else some (n, t)
  | none => none

/-- 100 °C in an island: one step down, once every 100 µs. One that meets a deferral is made when the deferral ends. -/
def execThermalThrottle (island : Nat) (s : State) : Host.Outcome State Fault Refusal :=
  .next (let i := island % 64
    if s.dev.power && since s (s.island i).heatAt 100000 then
      let x := s.island i
      let s := stepDown (s.setIsland i { x with heatAt := some (s.now 0), deferred := coolDeferral x }) i
      let x := s.island i
      s.setIsland i { x with heat := x.heat || x.deferred.any fun d => decide (d.1 < x.step) }
    else s)

/-- The partition rung on every partition. -/
def everyPartition (s : State) (l : List Nat) : State := l.foldl (fun s n => startRung s (rungOf 4 n)) s

/-- 110 °C for 1 ms: every partition takes the partition rung, and new launches are held. -/
def execThermalPartitionRung (s : State) : Host.Outcome State Fault Refusal :=
  .next (if s.dev.ready then { everyPartition s (s.parts.map (·.1)) with thermalHold := true } else s)

def execThermalLaunchHoldEnd (s : State) : Host.Outcome State Fault Refusal := .next { s with thermalHold := false }

/-! ## Failures in the die and the cluster (R176, R248, R250, R292) -/

/-- Weld counts a corrected error of its cluster. -/
def countCorrected (s : State) (g : Nat) : State :=
  { s with corrected := s.corrected + 1, weldCounts := putKey s.weldCounts g ((getKey s.weldCounts g).getD 0 + 1) }

/-- A correctable error of a core is corrected and counted. -/
def execCorrectedError (core : Nat) (s : State) : Host.Outcome State Fault Refusal :=
  .next (if coreExists core then
      let c := s.core core
      countCorrected (s.setCore core { c with cecnt := if c.cecnt = 0xFFFF then c.cecnt else c.cecnt + 1 }) (clusterOf core)
    else s)

/-- The scrubber corrects an error in place: no value changes, and Weld counts it. -/
def execScrub (pa : Nat) (s : State) : Host.Outcome State Fault Refusal :=
  .next (if pa < 0x58_0000_0000 then countCorrected s (pa / 2 ^ 32) else s)

/-- An uncorrectable error poisons the sixteen granules of a line. -/
def execDramUncorrectable (pa : Nat) (s : State) : Host.Outcome State Fault Refusal :=
  .next (let line := pa / 64 * 64
    if line < 0x8_0000_0000_0000 then { s.snoop line 64 with mem := s.mem.setGranules (line / 4) true 16 } else s)

/-- A die loses a time-base receiver; with both gone, every partition with a core on the die takes the partition rung. -/
def execTimebaseReceiverLoss (die : Nat) (s : State) : Host.Outcome State Fault Refusal :=
  .next (if h : die < 8 then
      let n := s.receivers[die]
      let s := { s with receivers := s.receivers.set die (n - 1) }
      if n = 0 then { s with receivers := s.receivers.set die 0 }
      else if n = 1 then everyPartition s ((s.parts.filter fun p => p.2.cores.any fun c => c / 128 == die).map (·.1))
      else s
    else s)

/-- An uncorrectable error in a block's timetable state: its unchecked firings become complete with STATE 3. -/
def execUmberUncorrectable (b : Nat) (s : State) : Host.Outcome State Fault Refusal :=
  .next (match getKey s.blocks b with
    | none => s
    | some x =>
      let c := x.chans[4]
      s.setBlock b (x.setChan 4 { c with xfers := c.xfers.map fun y => { y with st := .faulted 3 } }))

/-! ## Management (R361) -/

/-- A sensor read, of what the sensors hold. -/
def execPldmRequest (r : Nat) (s : State) : Host.Outcome State Fault Refusal :=
  .next { s with outbox := s.outbox ++
    [.pldm (Config.pldmAnswer r (s.islands.toList.map fun i => (i.power, i.step.val, i.temp)) s.coolants.toList s.dev.word.toNat
      s.weldCounts)] }

def execSpdmRequest (r : Nat) (s : State) : Host.Outcome State Fault Refusal :=
  .next { s with outbox := s.outbox ++ [.spdm (Config.spdmAnswer r)] }

end Sys2Proof.Machine
end

