-- ==== Sys2Proof/Machine/Dispatch.lean ====
section
/-! DEFINITION. One arm for every constructor of Instr: a direct call of its meaning. -/

namespace Sys2Proof.Machine

def exec (i : Instr) (s : State) : Host.Outcome State Fault Refusal :=
  match i with
  | .snop => Sys2Proof.Machine.execSnop s
  | .add d a b => Sys2Proof.Machine.execAdd d a b s
  | .sub d a b => Sys2Proof.Machine.execSub d a b s
  | .mul d a b => Sys2Proof.Machine.execMul d a b s
  | .mulh d a b => Sys2Proof.Machine.execMulh d a b s
  | .mulhn d a b => Sys2Proof.Machine.execMulhn d a b s
  | .and d a b => Sys2Proof.Machine.execAnd d a b s
  | .or d a b => Sys2Proof.Machine.execOr d a b s
  | .xor d a b => Sys2Proof.Machine.execXor d a b s
  | .andn d a b => Sys2Proof.Machine.execAndn d a b s
  | .shl d a b => Sys2Proof.Machine.execShl d a b s
  | .shr d a b => Sys2Proof.Machine.execShr d a b s
  | .sar d a b => Sys2Proof.Machine.execSar d a b s
  | .ror d a b => Sys2Proof.Machine.execRor d a b s
  | .min d a b => Sys2Proof.Machine.execMin d a b s
  | .max d a b => Sys2Proof.Machine.execMax d a b s
  | .minn d a b => Sys2Proof.Machine.execMinn d a b s
  | .maxn d a b => Sys2Proof.Machine.execMaxn d a b s
  | .seq d a b => Sys2Proof.Machine.execSeq d a b s
  | .slt d a b => Sys2Proof.Machine.execSlt d a b s
  | .sltn d a b => Sys2Proof.Machine.execSltn d a b s
  | .clz d a => Sys2Proof.Machine.execClz d a s
  | .popc d a => Sys2Proof.Machine.execPopc d a s
  | .mov d a => Sys2Proof.Machine.execMov d a s
  | .addi d a y => Sys2Proof.Machine.execAddi d a y s
  | .andi d a y => Sys2Proof.Machine.execAndi d a y s
  | .ori d a y => Sys2Proof.Machine.execOri d a y s
  | .xori d a y => Sys2Proof.Machine.execXori d a y s
  | .shli d a y => Sys2Proof.Machine.execShli d a y s
  | .shri d a y => Sys2Proof.Machine.execShri d a y s
  | .sari d a y => Sys2Proof.Machine.execSari d a y s
  | .rori d a y => Sys2Proof.Machine.execRori d a y s
  | .slti d a y => Sys2Proof.Machine.execSlti d a y s
  | .movi d y => Sys2Proof.Machine.execMovi d y s
  | .peq d a b => Sys2Proof.Machine.execPeq d a b s
  | .pne d a b => Sys2Proof.Machine.execPne d a b s
  | .plt d a b => Sys2Proof.Machine.execPlt d a b s
  | .pge d a b => Sys2Proof.Machine.execPge d a b s
  | .pltn d a b => Sys2Proof.Machine.execPltn d a b s
  | .pgen d a b => Sys2Proof.Machine.execPgen d a b s
  | .ptst d a b => Sys2Proof.Machine.execPtst d a b s
  | .pand d a b => Sys2Proof.Machine.execPand d a b s
  | .por d a b => Sys2Proof.Machine.execPor d a b s
  | .pxor d a b => Sys2Proof.Machine.execPxor d a b s
  | .pnot d a => Sys2Proof.Machine.execPnot d a s
  | .vnop => Sys2Proof.Machine.execVnop s
  | .vadd vd va vb m t => Sys2Proof.Machine.execVadd vd va vb m t s
  | .vsub vd va vb m t => Sys2Proof.Machine.execVsub vd va vb m t s
  | .vmul vd va vb m t => Sys2Proof.Machine.execVmul vd va vb m t s
  | .vfma vd va vb m t => Sys2Proof.Machine.execVfma vd va vb m t s
  | .vfms vd va vb m t => Sys2Proof.Machine.execVfms vd va vb m t s
  | .vmin vd va vb m t => Sys2Proof.Machine.execVmin vd va vb m t s
  | .vmax vd va vb m t => Sys2Proof.Machine.execVmax vd va vb m t s
  | .vabs vd va m t => Sys2Proof.Machine.execVabs vd va m t s
  | .vneg vd va m t => Sys2Proof.Machine.execVneg vd va m t s
  | .viadd vd va vb t => Sys2Proof.Machine.execViadd vd va vb t s
  | .visub vd va vb t => Sys2Proof.Machine.execVisub vd va vb t s
  | .vimul vd va vb t => Sys2Proof.Machine.execVimul vd va vb t s
  | .vimin vd va vb t => Sys2Proof.Machine.execVimin vd va vb t s
  | .vimax vd va vb t => Sys2Proof.Machine.execVimax vd va vb t s
  | .vand vd va vb => Sys2Proof.Machine.execVand vd va vb s
  | .vor vd va vb => Sys2Proof.Machine.execVor vd va vb s
  | .vxor vd va vb => Sys2Proof.Machine.execVxor vd va vb s
  | .vshl vd va vb t => Sys2Proof.Machine.execVshl vd va vb t s
  | .vshr vd va vb t => Sys2Proof.Machine.execVshr vd va vb t s
  | .vsar vd va vb t => Sys2Proof.Machine.execVsar vd va vb t s
  | .vmov vd va => Sys2Proof.Machine.execVmov vd va s
  | .vrcp vd va m t => Sys2Proof.Machine.execVrcp vd va m t s
  | .vrsq vd va m t => Sys2Proof.Machine.execVrsq vd va m t s
  | .vsqrt vd va m t => Sys2Proof.Machine.execVsqrt vd va m t s
  | .vex2 vd va m t => Sys2Proof.Machine.execVex2 vd va m t s
  | .vlg2 vd va m t => Sys2Proof.Machine.execVlg2 vd va m t s
  | .vtanh vd va m t => Sys2Proof.Machine.execVtanh vd va m t s
  | .div d a b => Sys2Proof.Machine.execDiv d a b s
  | .divn d a b => Sys2Proof.Machine.execDivn d a b s
  | .rem d a b => Sys2Proof.Machine.execRem d a b s
  | .remn d a b => Sys2Proof.Machine.execRemn d a b s
  | .ld d a off => Sys2Proof.Machine.execLd d a off s
  | .st d a off => Sys2Proof.Machine.execSt d a off s
  | .lds d a off => Sys2Proof.Machine.execLds d a off s
  | .chk a => Sys2Proof.Machine.execChk a s
  | .aadd d a b off => Sys2Proof.Machine.execAadd d a b off s
  | .amin d a b off => Sys2Proof.Machine.execAmin d a b off s
  | .amax d a b off => Sys2Proof.Machine.execAmax d a b off s
  | .aand d a b off => Sys2Proof.Machine.execAand d a b off s
  | .aor d a b off => Sys2Proof.Machine.execAor d a b off s
  | .axor d a b off => Sys2Proof.Machine.execAxor d a b off s
  | .aswp d a b off => Sys2Proof.Machine.execAswp d a b off s
  | .acas d a b off => Sys2Proof.Machine.execAcas d a b off s
  | .extr d a pos len1 => Sys2Proof.Machine.execExtr d a pos len1 s
  | .insr d a pos len1 => Sys2Proof.Machine.execInsr d a pos len1 s
  | .fpush a port => Sys2Proof.Machine.execFpush a port s
  | .fpop d port => Sys2Proof.Machine.execFpop d port s
  | .hset h a b => Sys2Proof.Machine.execHset h a b s
  | .hget d h cursor => Sys2Proof.Machine.execHget d h cursor s
  | .hadv h n => Sys2Proof.Machine.execHadv h n s
  | .hwait h o => Sys2Proof.Machine.execHwait h o s
  | .trel h o => Sys2Proof.Machine.execTrel h o s
  | .tvoid d h o => Sys2Proof.Machine.execTvoid d h o s
  | .tgen d h o => Sys2Proof.Machine.execTgen d h o s
  | .tsetc a b => Sys2Proof.Machine.execTsetc a b s
  | .vld vd base k off => Sys2Proof.Machine.execVld vd base k off s
  | .vlds vd base k off => Sys2Proof.Machine.execVlds vd base k off s
  | .vst vd base k off => Sys2Proof.Machine.execVst vd base k off s
  | .vchk vd => Sys2Proof.Machine.execVchk vd s
  | .vgath vd vi base k off => Sys2Proof.Machine.execVgath vd vi base k off s
  | .vscat vd vi base k off => Sys2Proof.Machine.execVscat vd vi base k off s
  | .vcmp vd va vb fi t c => Sys2Proof.Machine.execVcmp vd va vb fi t c s
  | .vsel vd va vb kc => Sys2Proof.Machine.execVsel vd va vb kc s
  | .vbcst vd t src => Sys2Proof.Machine.execVbcst vd t src s
  | .vext x va t lane => Sys2Proof.Machine.execVext x va t lane s
  | .vidx vd t start => Sys2Proof.Machine.execVidx vd t start s
  | .vperm vd va vb => Sys2Proof.Machine.execVperm vd va vb s
  | .vrotm vd va kc r => Sys2Proof.Machine.execVrotm vd va kc r s
  | .vcvt vd va m t code sat => Sys2Proof.Machine.execVcvt vd va m t code sat s
  | .vred vd va m t op => Sys2Proof.Machine.execVred vd va m t op s
  | .vscan vd va m t op => Sys2Proof.Machine.execVscan vd va m t op s
  | .vtopk vd va vb t k => Sys2Proof.Machine.execVtopk vd va vb t k s
  | .vpushc va kc t x => Sys2Proof.Machine.execVpushc va kc t x s
  | .vpopc vd t x => Sys2Proof.Machine.execVpopc vd t x s
  | .kand d a b => Sys2Proof.Machine.execKand d a b s
  | .kor d a b => Sys2Proof.Machine.execKor d a b s
  | .kxor d a b => Sys2Proof.Machine.execKxor d a b s
  | .knot d a => Sys2Proof.Machine.execKnot d a s
  | .kcnt x a => Sys2Proof.Machine.execKcnt x a s
  | .kmovToMask d x => Sys2Proof.Machine.execKmovToMask d x s
  | .kmovFromMask x a => Sys2Proof.Machine.execKmovFromMask x a s
  | .tzero d => Sys2Proof.Machine.execTzero d s
  | .tmov d a => Sys2Proof.Machine.execTmov d a s
  | .tfromv d z => Sys2Proof.Machine.execTfromv d z s
  | .ttov a z => Sys2Proof.Machine.execTtov a z s
  | .tlds d c => Sys2Proof.Machine.execTlds d c s
  | .tsts a c => Sys2Proof.Machine.execTsts a c s
  | .tsta a c mask => Sys2Proof.Machine.execTsta a c mask s
  | .tgath d a c mask => Sys2Proof.Machine.execTgath d a c mask s
  | .tadd d a b m => Sys2Proof.Machine.execTadd d a b m s
  | .tmul d a b m => Sys2Proof.Machine.execTmul d a b m s
  | .tmax d a b m => Sys2Proof.Machine.execTmax d a b m s
  | .tscal d a b m => Sys2Proof.Machine.execTscal d a b m s
  | .ttrn d a => Sys2Proof.Machine.execTtrn d a s
  | .tred d a m => Sys2Proof.Machine.execTred d a m s
  | .tacc d a c z m => Sys2Proof.Machine.execTacc d a c z m s
  | .mmbi d a b c z m => Sys2Proof.Machine.execMmbi d a b c z m s
  | .mmf d a b c z m => Sys2Proof.Machine.execMmf d a b c z m s
  | .mmf32 d a b c z m => Sys2Proof.Machine.execMmf32 d a b c z m s
  | .mmd d a b c z m => Sys2Proof.Machine.execMmd d a b c z m s
  | .tcvt d a tag part merge sat m => Sys2Proof.Machine.execTcvt d a tag part merge sat m s
  | .tcvtPageAppend d a tag slot sat m => Sys2Proof.Machine.execTcvtPageAppend d a tag slot sat m s
  | .br off => Sys2Proof.Machine.execBr off s
  | .jmp a off => Sys2Proof.Machine.execJmp a off s
  | .call off => Sys2Proof.Machine.execCall off s
  | .ret => Sys2Proof.Machine.execRet s
  | .loop a off => Sys2Proof.Machine.execLoop a off s
  | .rep a => Sys2Proof.Machine.execRep a s
  | .syncm mask => Sys2Proof.Machine.execSyncm mask s
  | .waitt a => Sys2Proof.Machine.execWaitt a s
  | .mark m => Sys2Proof.Machine.execMark m s
  | .timed a off => Sys2Proof.Machine.execTimed a off s
  | .exit => Sys2Proof.Machine.execExit s
  | .mfc d cr => Sys2Proof.Machine.execMfc d cr s
  | .mtc a cr => Sys2Proof.Machine.execMtc a cr s
  | .mtcTcmp a => Sys2Proof.Machine.execMtcTcmp a s
  | .mtcSstat a => Sys2Proof.Machine.execMtcSstat a s
  | .trap code => Sys2Proof.Machine.execTrap code s
  | .eret => Sys2Proof.Machine.execEret s
  | .fenceh => Sys2Proof.Machine.execFenceh s
  | .waiti mask => Sys2Proof.Machine.execWaiti mask s
  | .seed n a => Sys2Proof.Machine.execSeed n a s
  | .tlbinv a scope => Sys2Proof.Machine.execTlbinv a scope s
  | .banksv bank kind => Sys2Proof.Machine.execBanksv bank kind s
  | .bankld bank kind => Sys2Proof.Machine.execBankld bank kind s
  | .pcmd a => Sys2Proof.Machine.execPcmd a s
  | .copy t f ch geo adv => Sys2Proof.Machine.execCopy t f ch geo adv s
  | .copytIn t f ch item tag img bo geo adv => Sys2Proof.Machine.execCopytIn t f ch item tag img bo geo adv s
  | .copytOut t f ch item img geo adv => Sys2Proof.Machine.execCopytOut t f ch item img geo adv s
  | .copytXfer t ch item src bo adv => Sys2Proof.Machine.execCopytXfer t ch item src bo adv s
  | .cwait t ch => Sys2Proof.Machine.execCwait t ch s
  | .cstat t f ch => Sys2Proof.Machine.execCstat t f ch s
  | .prefL2 f len1 => Sys2Proof.Machine.execPrefL2 f len1 s
  | .prefLease f len1 => Sys2Proof.Machine.execPrefLease f len1 s
  | .prefDemote f len1 => Sys2Proof.Machine.execPrefDemote f len1 s
  | .mwait p all chans mbox => Sys2Proof.Machine.execMwait p all chans mbox s
  | .syncIssue b mask => Sys2Proof.Machine.execSyncIssue b mask s
  | .perform b w => Sys2Proof.Machine.execPerform b w s
  | .deliver b w k => Sys2Proof.Machine.execDeliver b w k s
  | .latchLand b w => Sys2Proof.Machine.execLatchLand b w s
  | .tileDataComplete core matrix => Sys2Proof.Machine.execTileDataComplete core matrix s
  | .nantrap b w => Sys2Proof.Machine.execNantrap b w s
  | .longUnitComplete b w => Sys2Proof.Machine.execLongUnitComplete b w s
  | .trapEntry b w => Sys2Proof.Machine.execTrapEntry b w s
  | .timerCompare b w => Sys2Proof.Machine.execTimerCompare b w s
  | .interruptAccept b w => Sys2Proof.Machine.execInterruptAccept b w s
  | .tslipt b w => Sys2Proof.Machine.execTslipt b w s
  | .take b port => Sys2Proof.Machine.execTake b port s
  | .post b port => Sys2Proof.Machine.execPost b port s
  | .copyRead b ch id => Sys2Proof.Machine.execCopyRead b ch id s
  | .dataRead b ch id n => Sys2Proof.Machine.execDataRead b ch id n s
  | .dataWrite b ch id n => Sys2Proof.Machine.execDataWrite b ch id n s
  | .copyWrite b ch id => Sys2Proof.Machine.execCopyWrite b ch id s
  | .remoteWriteArrival b ch id => Sys2Proof.Machine.execRemoteWriteArrival b ch id s
  | .remoteResend b ch => Sys2Proof.Machine.execRemoteResend b ch s
  | .transferComplete b ch id => Sys2Proof.Machine.execTransferComplete b ch id s
  | .mpTrap b => Sys2Proof.Machine.execMpTrap b s
  | .mpResume b => Sys2Proof.Machine.execMpResume b s
  | .bankClaim b kind bank => Sys2Proof.Machine.execBankClaim b kind bank s
  | .preempt part => Sys2Proof.Machine.execPreempt part s
  | .blockPlace part => Sys2Proof.Machine.execBlockPlace part s
  | .blockResume core => Sys2Proof.Machine.execBlockResume core s
  | .weldTick part => Sys2Proof.Machine.execWeldTick part s
  | .walkerPost b => Sys2Proof.Machine.execWalkerPost b s
  | .reportTake b => Sys2Proof.Machine.execReportTake b s
  | .fill launch pidx => Sys2Proof.Machine.execFill launch pidx s
  | .coverageUpdate launch => Sys2Proof.Machine.execCoverageUpdate launch s
  | .launchRetire launch => Sys2Proof.Machine.execLaunchRetire launch s
  | .homeReturn b => Sys2Proof.Machine.execHomeReturn b s
  | .migrate b => Sys2Proof.Machine.execMigrate b s
  | .operatorReplay b => Sys2Proof.Machine.execOperatorReplay b s
  | .builtInTestPass core => Sys2Proof.Machine.execBuiltInTestPass core s
  | .sliceEnd part => Sys2Proof.Machine.execSliceEnd part s
  | .sliceOvershootTimeout b => Sys2Proof.Machine.execSliceOvershootTimeout b s
  | .coreFault core fcode => Sys2Proof.Machine.execCoreFault core fcode s
  | .correctedError core => Sys2Proof.Machine.execCorrectedError core s
  | .scrub pa => Sys2Proof.Machine.execScrub pa s
  | .dramUncorrectable pa => Sys2Proof.Machine.execDramUncorrectable pa s
  | .clusterFault g => Sys2Proof.Machine.execClusterFault g s
  | .walkEntryRead b w => Sys2Proof.Machine.execWalkEntryRead b w s
  | .walkComplete b w => Sys2Proof.Machine.execWalkComplete b w s
  | .leaseLapse core line => Sys2Proof.Machine.execLeaseLapse core line s
  | .hostMemRead pa => Sys2Proof.Machine.execHostMemRead pa s
  | .hostMemWrite pa data enables poison => Sys2Proof.Machine.execHostMemWrite pa data enables poison s
  | .qkick fn q k => Sys2Proof.Machine.execQkick fn q k s
  | .qctlWrite pf0 fn q v => Sys2Proof.Machine.execQctlWrite pf0 fn q v s
  | .barRegWrite fn off v => Sys2Proof.Machine.execBarRegWrite fn off v s
  | .seqRead fn q => Sys2Proof.Machine.execSeqRead fn q s
  | .seqReread fn q => Sys2Proof.Machine.execSeqReread fn q s
  | .seqTimeout fn q => Sys2Proof.Machine.execSeqTimeout fn q s
  | .nopPacket fn q => Sys2Proof.Machine.execNopPacket fn q s
  | .loadPacket fn q => Sys2Proof.Machine.execLoadPacket fn q s
  | .loadComplete part slot => Sys2Proof.Machine.execLoadComplete part slot s
  | .launchPacket fn q => Sys2Proof.Machine.execLaunchPacket fn q s
  | .evictPacket fn q => Sys2Proof.Machine.execEvictPacket fn q s
  | .evictComplete part slot => Sys2Proof.Machine.execEvictComplete part slot s
  | .madderReload => Sys2Proof.Machine.execMadderReload s
  | .windowLock part win => Sys2Proof.Machine.execWindowLock part win s
  | .hypkeyLock key => Sys2Proof.Machine.execHypkeyLock key s
  | .p1rootWrite v => Sys2Proof.Machine.execP1rootWrite v s
  | .fabidWrite v => Sys2Proof.Machine.execFabidWrite v s
  | .pcCreate => Sys2Proof.Machine.execPcCreate s
  | .pcDestroy => Sys2Proof.Machine.execPcDestroy s
  | .pcSetquota => Sys2Proof.Machine.execPcSetquota s
  | .pcMapvf => Sys2Proof.Machine.execPcMapvf s
  | .pcSettable => Sys2Proof.Machine.execPcSettable s
  | .pcReset => Sys2Proof.Machine.execPcReset s
  | .pcSetisa => Sys2Proof.Machine.execPcSetisa s
  | .fresetQueue fn part q => Sys2Proof.Machine.execFresetQueue fn part q s
  | .fresetContext fn part seq q => Sys2Proof.Machine.execFresetContext fn part seq q s
  | .fresetEngine fn part => Sys2Proof.Machine.execFresetEngine fn part s
  | .fresetPartition fn part => Sys2Proof.Machine.execFresetPartition fn part s
  | .fresetDevice fn => Sys2Proof.Machine.execFresetDevice fn s
  | .rungComplete n => Sys2Proof.Machine.execRungComplete n s
  | .rungEscalate n => Sys2Proof.Machine.execRungEscalate n s
  | .powerOn => Sys2Proof.Machine.execPowerOn s
  | .phaseComplete => Sys2Proof.Machine.execPhaseComplete s
  | .phaseTimeout => Sys2Proof.Machine.execPhaseTimeout s
  | .governorWindow power => Sys2Proof.Machine.execGovernorWindow power s
  | .packageStepDown power => Sys2Proof.Machine.execPackageStepDown power s
  | .deferralExpire island => Sys2Proof.Machine.execDeferralExpire island s
  | .thermalThrottle island => Sys2Proof.Machine.execThermalThrottle island s
  | .thermalPartitionRung => Sys2Proof.Machine.execThermalPartitionRung s
  | .thermalTrip => Sys2Proof.Machine.execThermalTrip s
  | .timebaseReceiverLoss die => Sys2Proof.Machine.execTimebaseReceiverLoss die s
  | .umberUncorrectable b => Sys2Proof.Machine.execUmberUncorrectable b s
  | .flitReceive link f => Sys2Proof.Machine.execFlitReceive link f s
  | .flitResend link fromSeq => Sys2Proof.Machine.execFlitResend link fromSeq s
  | .linkRetrain link => Sys2Proof.Machine.execLinkRetrain link s
  | .retrainComplete link ok => Sys2Proof.Machine.execRetrainComplete link ok s
  | .remoteRequest r => Sys2Proof.Machine.execRemoteRequest r s
  | .remoteRouteTimeout part pkg => Sys2Proof.Machine.execRemoteRouteTimeout part pkg s
  | .timeSyncFlit link count => Sys2Proof.Machine.execTimeSyncFlit link count s
  | .timesyncLoss => Sys2Proof.Machine.execTimesyncLoss s
  | .collectiveStart group tag => Sys2Proof.Machine.execCollectiveStart group tag s
  | .collectiveComplete group tag => Sys2Proof.Machine.execCollectiveComplete group tag s
  | .pldmRequest r => Sys2Proof.Machine.execPldmRequest r s
  | .spdmRequest r => Sys2Proof.Machine.execSpdmRequest r s
  | .powerRemoval => Sys2Proof.Machine.execPowerRemoval s
  | .linkTraining link => Sys2Proof.Machine.execLinkTraining link s
  | .madderReloadEnd => Sys2Proof.Machine.execMadderReloadEnd s
  | .thermalLaunchHoldEnd => Sys2Proof.Machine.execThermalLaunchHoldEnd s

end Sys2Proof.Machine
end

