-- ==== Sys2Proof/Machine/Hints.lean ====
section
/-! DEFINITION. The hints of a core, and Umber's releases, that wait for translations or bring lines into the lease cache
(spec/10_movement_processor_and_copies.md R221, spec/13 R236, R241, R247, spec/15 R275, R279). -/

namespace Sys2Proof.Machine

/-- The oldest hint of the core in focus is done with, or goes on. -/
def setHint (s : State) (h : Option Hint) : State :=
  let c := s.core s.blk.core
  s.setCore s.blk.core { c with hints := h.toList ++ c.hints.drop 1 }

/-- One entry of the walk that the hint waits for is read; a walk that finds no page drops the hint. -/
def walkHint (s : State) (h : Hint) (va : Word) : State :=
  let k : EngWalk := match h.walk.filter fun k => pageNo k.va == pageNo va with
    | some k => k
    | none => let at_ := walkStart s va; ⟨s.blk.part, va, at_.1, at_.2, none, walkRoot (s.part s.blk.part)⟩
  let r : State × EngWalk := if k.found.isSome then (s, k) else readEntry (setHint s (some { h with walk := some k })) k
  match r.2.found with
  | none => setHint r.1 (some { h with walk := some r.2 })
  | some .page => dropHint (setHint r.1 none)
  | some (.leaf e) =>
    let t := setHint r.1 (some { h with walk := none })
    match checkLeaf t (t.part t.blk.part) e va .load with
    | .ok _ => t.setCore t.blk.core ((t.core t.blk.core).cache e)
    | .miss => stallLeaf (setHint r.1 (some { h with walk := some r.2 })) (t.part t.blk.part) e va
    | .fault _ => match demoteTr t (t.part t.blk.part) e va with
      | .ok _ => if h.kind = .demote then t.setCore t.blk.core ((t.core t.blk.core).cache e) else dropHint (setHint t none)
      | .miss => stallLeaf (setHint r.1 (some { h with walk := some r.2 })) (t.part t.blk.part) e va
      | .fault _ => dropHint (setHint t none)

/-- The next line of a LEASE page enters the lease cache, from its home. -/
def grantLine (s : State) (h : Hint) : State :=
  if h.size * h.count ≤ 64 * h.taken then setHint s none
  else
    let t := setHint s (some { h with taken := h.taken + 1 })
    match translate s s.blk (h.va + BitVec.ofNat 64 (64 * h.taken)) .load with
    | .ok (.lease pa) => ((t.settle t.blk.core).snoop pa 64).grantLeases t.blk.core [pa / 64]
    | _ => t

/-- One step of a hint. -/
def hintGo (s : State) (h : Hint) : State :=
  if hintFault s s.blk h then dropHint (setHint s none)
  else match hintMiss s s.blk h with
    | some va => walkHint s h va
    | none => match h.kind with
      | .l2 | .demote => setHint s none
      | .lease => grantLine s h
      | .release => releaseHolds (setHint s none) h.va (h.size * h.count)

/-- The oldest hint of a core goes on; it ends with its block's stay on the core. -/
def hintStep (s : State) (core : Nat) : State :=
  match (s.core core).hints with
  | [] => s
  | h :: rest =>
    let b := s.block h.block
    if b.core = core ∧ b.status ≠ .failed ∧ b.status ≠ .ended then withAgent s h.block 4 fun s => hintGo s h
    else s.setCore core { s.core core with hints := rest }

end Sys2Proof.Machine
end

