-- ==== Sys2Proof/Machine/Turn.lean ====
section
/-! DEFINITION. The order in which the model takes the moves of the abstract machine (R90) when the agenda names none
(notes/assumptions/1.md), and the passing of time (R281). -/

namespace Sys2Proof.Machine

/-- The time-sync flits that fall due leave on each up link (R349). -/
def sendSyncs (s : State) : State :=
  let k := (s.now 0 - s.lastSent).toNat / 1024
  if !s.dev.ready || k == 0 then s
  else
    let last := s.lastSent + BitVec.ofNat 64 (1024 * k)
    if upLinks s == 0 then { s with lastSent := last }
    else
      let one (s : State) : State := (List.finRange 16).foldl (fun s i =>
        if s.links[i].room then sendOn s i 0xFFFF (ownFlit s 0 4 3 [(s.now 0).toNat]) else s) s
      (List.range (min k 128)).foldl (fun s _ => one s) { s with lastSent := last }

/-- Ticks pass on every die alike, less the one that slewing leaves out (R281); every line 0 is sampled (R84). Skew between
the dies comes from `skewTime` alone (notes/assumptions/56.md), and any number of ticks may pass while a word could issue,
so that R283's upper bound of 4 ns is left out (notes/assumptions/63.md). -/
def passTime (n : Nat) (s : State) : State :=
  let s :=
    if s.withheld && n != 0 then { s with withheld := false, time := s.time.map (· + BitVec.ofNat 64 (n - 1)) }
    else { s with time := s.time.map (· + BitVec.ofNat 64 n) }
  sendSyncs (sampleTimers s)

/-- At most 4 ticks pass on one die alone, as long as no two counts then differ by more than 2 ns: the model fixes no skew between
the dies (R7, R281, notes/assumptions/56.md). -/
def skewTime (die : Fin 8) (n : Nat) (s : State) : State :=
  let time := s.time.set die (s.time[die] + BitVec.ofNat 64 n)
  let near (x y : Word) : Bool := decide ((x - y).toInt.natAbs ≤ 2)
  if n ≤ 4 ∧ time.toList.all fun x => time.toList.all (near x) then sampleTimers { s with time := time } else s

/-- The move of an agent that the model takes by itself: a capability block that is due, a TSLIPT that has fallen due, a hint of the core, a faulted transfer that
the MP is to raise, its oldest access, a result, a walk, a trap, a unit of a long
instruction, the data of its word, else the issue of its next word. -/
def autoMove (s : State) (b w : Nat) : Choice :=
  let blk := s.block b
  let a := blk.agents[w % 5]'(Nat.mod_lt _ (by decide))
  let c := s.core blk.core
  let mine (j : Option Job) : Bool := match j with | some x => x.block == b && x.agent == w | none => false
  if !s.capDue.isEmpty then .input .capBlock
  else if slipStops a && atBoundary (enter s b w) then .event (.tslipt b w)
  else if w == 4 && !c.hints.isEmpty then .input (.hint blk.core)
  else if w == 4 && a.run == .running && a.walk.isNone && (oldestFault blk).isSome then .event (.mpTrap b)
  else if !a.accs.isEmpty then .event (.perform b w)
  else if !a.ready.isEmpty then .event (.deliver b w 0)
  else if a.walk.any (·.found.isNone) then .event (.walkEntryRead b w)
  else if a.walk.isSome then .event (.walkComplete b w)
  else if a.long.isSome then .event (.longUnitComplete b w)
  else if a.nan.isSome then .event (.nantrap b w)
  else if a.trap.isSome then .event (.trapEntry b w)
  else if mine c.matrix then .event (.tileDataComplete blk.core true)
  else if mine c.tile then .event (.tileDataComplete blk.core false)
  else .issue b w

/-- The agent after one in the order of blocks and agents. -/
def nextTurn (s : State) (t : Nat × Nat) : Nat × Nat :=
  if t.2 < 4 then (t.1, t.2 + 1)
  else match s.blocks.find? fun p => decide (t.1 < p.1) with
    | some p => (p.1, 0)
    | none => match s.blocks with
      | [] => (0, 0)
      | p :: _ => (p.1, 0)

/-- The next choice and the state with it taken off. -/
def takeChoice (s : State) : Choice × State :=
  match s.agenda with
  | c :: r => (c, { s with agenda := r })
  | [] => (autoMove s s.turn.1 s.turn.2, { s with turn := nextTurn s s.turn })

end Sys2Proof.Machine
end

