-- ==== Sys2Proof/Machine/Input.lean ====
section
/-! DEFINITION. What reaches the machine beside the events of the opcode table: soft errors that no core fault answers, what
the host, other packages and the sensors do, and Madder's command links (spec/08 R176, spec/13 R236, R247, R251, spec/14
R270, spec/15 R281, R292, spec/16 R298, spec/20 R324, spec/22 R344, R348, R349, spec/23 R359, R361; notes/assumptions/60.md). -/

namespace Sys2Proof.Machine

/-- An operation on a block that exists. -/
def onBlock (s : State) (b : Nat) (f : Block → Block) : State :=
  match getKey s.blocks b with
  | some x => s.setBlock b (f x)
  | none => s

/-! ## Soft errors (R166, R176, R251, R270, R292, R298) -/

def Meta.bad (m : Meta) : Meta := { m with poison := true }

/-- The content of an item with P = 1. -/
def Content.bad : Content → Content
  | .tile t => .tile { t with md := t.md.bad }
  | .acc a b => .acc { a with md := a.md.bad } b

def Source.bad (r : Nat) (x : Source) : Source := if x.reg = r then { x with val := x.val.bad } else x

/-- A long instruction that is bringing the tile. -/
def Long.bad (r : Nat) (l : Long) : Long :=
  match l.i with
  | .tlds .. | .tgath .. => if l.reg = r then { l with tile := { l.tile with md := l.tile.md.bad } } else l
  | _ => l

/-- P becomes 1 in an item, in what a word that waits for its data has captured of it, in a copy's source, and in a tile
still on its way. -/
def itemError (r : Nat) (b : Block) : Block :=
  let b := b.setMd r (b.md r).bad
  { b with
    works := b.works.map fun w => { w with srcs := w.srcs.map (Source.bad r) }
    chans := b.chans.map fun c => { c with xfers := c.xfers.map fun x => { x with src := x.src.map (Source.bad r) } }
    agents := b.agents.map fun a => { a with
      long := a.long.map (Long.bad r), stopped := a.stopped.map (Long.bad r), stoppedIn := a.stoppedIn.map (Long.bad r) } }

/-- A transfer of a block that has not ended. -/
def onXfer (s : State) (b : Nat) (ch : Fin 5) (id : Nat) (f : Transfer → Transfer) : State :=
  onBlock s b fun x =>
    let c := x.chans[ch]
    x.setChan ch { c with xfers := c.xfers.map fun y => if y.id.toNat = id ∧ y.outstanding then f y else y }

/-- The unit's own error in a row: the row faults with POISON, as an entry held once does (R298). -/
def handleError (s : State) (b : Nat) (ch : Fin 5) (id row : Nat) : State :=
  withXfer s b ch id fun x s =>
    match getKey x.handles row, (s.part s.blk.part).table with
    | some h, some t =>
      if (getKey x.pages row).isSome then s
      else faultXfer s ch x cPOISON (t.addr + BitVec.ofNat 64 (64 + 16 * (h.extractLsb' 16 24).toNat))
    | _, _ => s

/-- A walk starts again at the root. -/
def restartWalk (root : Nat) (a : Agent) : Agent :=
  { a with walk := a.walk.map fun k => { k with level := 4, table := root, found := none } }

/-! ## The host, other packages, the governor (R247, R344, R348, R349, R359) -/

/-- The host gives up a line that it held, with what it had written there. -/
def hostGives (s : State) (line : Nat) (data : List Byte) : State :=
  if s.hostLines.contains line then
    let t := { s with hostLines := s.hostLines.filter (· != line) }
    if inSlotFrame s (64 * line) then t
    else { t with mem := writeEnabled false (64 * line) ((data.take 64).map fun b => (b, true)) t.mem }
  else s

/-- The host's processors write host memory; device agents read it as it then stands (R242). -/
def hostStores (s : State) (pa : Nat) (data : List Byte) : State :=
  if 0x1_0000_0000_0000 ≤ pa ∧ pa + data.length ≤ 0x8_0000_0000_0000 then
    { s with mem := writeEnabled false pa (data.map fun b => (b, true)) s.mem }
  else s

/-- Another package writes its own memory. -/
def remoteWrites (s : State) (pa : Nat) (data : List Byte) (poison : Bool) : State :=
  if (remotePkg pa).isSome ∧ (remotePkg (pa + data.length - 1)).isSome then
    { s with mem := writeEnabled poison pa (data.map fun b => (b, true)) s.mem }
  else s

/-- An idle cycle that the governor puts before a matrix word is a wait at issue. -/
def idleCycle (s : State) (b w : Nat) : State :=
  withAgent s b w fun s =>
    let waits := match nextLine s s.blk w s.ag with
      | some l => (match l.body with | .one i => onMatrix i | .pair .. => false)
      | none => false
    if (s.island (islandOf s.blk.core)).idles && mayIssue s && waits then s.setAg (slipOne s.ag) else s

/-- A command on the link to a Weld controller: Madder holds eight permits for each (R324). -/
def sendCommand (s : State) (g : Nat) : State :=
  let n := (getKey s.unTaken g).getD 0
  if g < 88 ∧ n < 8 then { s with unTaken := putKey s.unTaken g (n + 1) } else s
def takeOffLink (s : State) (g : Nat) : State :=
  let n := (getKey s.unTaken g).getD 0
  if n = 0 then s else { s with unTaken := putKey s.unTaken g (n - 1) }

def State.say (s : State) (o : Out) : State := { s with outbox := s.outbox ++ [o] }

/-- An input takes effect. -/
def takeInput (x : Input) (s : State) : State :=
  match x with
  | .skew die n => skewTime die n s
  | .itemError b r => if r < 576 then onBlock s b (itemError r) else s
  | .padError b g => onBlock s b fun x => if g < 64 * x.sprows then { x with pad := x.pad.setGranule g true } else x
  | .moveError b ch id n => onXfer s b ch id fun y => { y with pois := y.pois ||| 2 ^ n }
  | .handleError b ch id row => handleError s b ch id row
  | .fillError launch pidx => fill s launch pidx true
  | .walkError b w => withAgent s b w fun s => s.setAg (restartWalk (walkRoot (s.part s.blk.part)) s.ag)
  | .copyWalkError b ch id => onXfer s b ch id fun y => { y with walk := none }
  | .engineWalkError n => { s with engWalks := s.engWalks.modify n fun k =>
      { k with level := 4, table := k.root, found := none } }
  | .hintWalkError core => let c := s.core core
    s.setCore core { c with hints := c.hints.modifyHead fun h => { h with walk := none } }
  | .hint core => hintStep s core
  | .capBlock => capStep s
  | .evict core n => s.setCore core { s.core core with tlb := (s.core core).tlb.eraseIdx n }
  | .hostData line data => hostGives s line data
  | .idle b w => idleCycle s b w
  | .sensor i temp => s.setIsland i { s.island i with temp := temp }
  | .coolant plate temp => { s with coolants := s.coolants.set plate temp }
  | .barRead fn off => s.say (.barData fn off (barRead s fn off))
  | .keyRead => s.say (.pubKey Config.attestationKey)
  | .command g => sendCommand s g
  | .commandTaken g => takeOffLink s g
  | .hostStore pa data => hostStores s pa data
  | .remoteMem pa data poison => remoteWrites s pa data poison
  | .path link hops roundTrip => s.setLink link { s.links[link] with hops := hops, delay := roundTrip / 2 }
  | .wire link bytes => flitReceive s link (flitOf bytes)

end Sys2Proof.Machine
end

