-- ==== Sys2Proof/Machine/Step.lean ====
section
/-! DEFINITION. One step: the next choice of the abstract machine (R90) is an agent's issue, an event, an input, or the
passing of time. -/

namespace Sys2Proof.Machine

/-- The effect of an instruction as a state. -/
def effect (i : Instr) (s : State) : State :=
  match exec i s with
  | .next t => t
  | _ => s

def step (s : State) : Host.Outcome State Fault Refusal :=
  if !s.dev.power && s.agenda.isEmpty then .fault .unpowered
  else
    let p := takeChoice s
    match p.1 with
    | .issue b w => .next (issueStep effect p.2 b w)
    | .event i => exec i p.2
    | .input x => .next (takeInput x p.2)
    | .time n => .next (passTime n p.2)

/-- The state in which the very next step issues the word: a block on core 0 whose text map holds the word, and the turn
at its stream 0, or at its MP for a MOVE word (notes/assumptions/11.md). -/
def State.withFetchWord (s : State) (nbits w : Nat) : State :=
  let v := w % 2 ^ nbits
  let who := if wordIsMove (BitVec.ofNat 64 v) then 4 else 0
  let text := (List.range 16).foldl (fun (m : Memory) i => m.write i (BitVec.ofNat 8 (v / 2 ^ (8 * i)))) []
  let agent : Agent := { Agent.reset with run := .running }
  let blk : Block := { Block.reset with
    status := .running, isa := 0x7F, textVa := 0, textSize := 4096, text := text,
    agents := Block.reset.agents.set who agent (by show (if _ then 4 else 0) < 5; split <;> decide) }
  let part : Partition := { Partition.reset with isa := 0x7F, clusters := List.range 88, ranges := [(0, 0x58_0000_0000)] }
  let core : Core := { Core.reset with slots := Core.reset.slots.set 0 (some 0), ctxv := 1 }
  { s with
    blocks := putKey s.blocks 0 blk, cores := putKey s.cores 0 core, parts := putKey s.parts 1 part,
    agenda := [], turn := (0, who) }

end Sys2Proof.Machine
end

