-- ==== Sys2Proof/Safety.lean ====
section
/-! DEFINITION. The terms in which claims are stated: what holds of the machine between steps, the conditions on which a
word has its effect, and the shapes its effect takes. -/

namespace Sys2Proof.Machine

/-! ## Memories (R154, R238) -/

/-- The memories a block holds are in canonical form: its scratchpad, its program text, and the copy its replay
keeps. -/
def Block.memOk (b : Block) : Bool :=
  b.pad.wf && b.text.wf && (match b.replay with | some r => r.pad.wf | none => true)

/-- The images in a partition's slots are in canonical form (R320). -/
def Partition.memOk (p : Partition) : Bool := p.slots.all fun q => q.2.image.wf

/-- Every memory of the machine is in canonical form. -/
def State.memOk (s : State) : Bool :=
  s.mem.wf && s.blk.memOk && (s.blocks.all fun p => p.2.memOk) && s.parts.all fun p => p.2.memOk

/-! ## When a word has its effect (R67, R68, R74, R77, R78, R80, R81, R83) -/

/-- A word of the agent in focus issues and has its effect: it passes the checks of R67 that the agent's state decides, its
die class has it (R66), none of its registers carries a pending mark (R77), no flag or VS it names is still to
come (R164), no interlock holds it (R78), its guard is
neither poisoned (R83) nor false (R81), and the streams it waits for issue with it (R80). -/
structure Runs (i : Instr) (s : State) : Prop where
  checked : checks i s = none
  present : absentOn (isOchre s.blk.core) i = false
  settled : ((markRegs i s).any fun r => s.ag.pend.contains r) = false
  told : ctlPending i s = false
  landed : latchedDest i s = false
  clean : s.ag.poisoned (.p s.cur.hdr.g) = false
  guarded : guardTrue s.ag s.cur.hdr = true
  free : interlocked i s = false
  together : (s.cur.hdr.s && !s.cur.sync) = false

/-- The same, but for a guard that is false (R81). -/
structure Skips (i : Instr) (s : State) : Prop where
  checked : checks i s = none
  present : absentOn (isOchre s.blk.core) i = false
  settled : ((markRegs i s).any fun r => s.ag.pend.contains r) = false
  told : ctlPending i s = false
  landed : latchedDest i s = false
  clean : s.ag.poisoned (.p s.cur.hdr.g) = false
  unguarded : guardTrue s.ag s.cur.hdr = false
  together : (s.cur.hdr.s && !s.cur.sync) = false

/-- The state after the claims of the banks a word accesses, where every claim succeeds (R172). -/
def claimed (i : Instr) (off : Bool) (s : State) : Option State :=
  match banksOf s.cur.w s.ag i off with
  | [] => some s
  | l => ((s.core s.blk.core).claimAll? s.blk.slot l).map (s.setCore s.blk.core)

/-! ## The shapes of an effect -/

/-- s0, p0 and k0 hold constants (R70). -/
def RegName.fixed : RegName → Bool
  | .s n => n == 0
  | .v _ => false
  | .p n => n == 0
  | .k n => n == 0

/-- A latch that a result of latency 1 overtakes: it would land on the same register no later (R78). -/
def overtaken (a : Agent) (r : RegName) (l : Latch) : Bool := l.reg == r && decide (l.tag ≤ a.cyc + 1)

/-- `t` is `s` after a word that wrote one register and nothing else: the register, but a fixed one, reads as `v` with
the poison bit `p` (R70, R91), flags are set (R38), an overtaken latch is gone with its flags set (R78), and every other
register and everything else is as it was. -/
structure Wrote (s t : State) (r : RegName) (v : VWord) (p : Bool) (f : Flags) : Prop where
  value : t.ag.value r = if r.fixed then s.ag.value r else v
  poison : t.ag.poisoned r = (!r.fixed && p)
  others : ∀ q, q ≠ r → t.ag.value q = s.ag.value q ∧ t.ag.poisoned q = s.ag.poisoned q
  latches : t.ag.latches = s.ag.latches.filter fun l => !overtaken s.ag r l
  flags : t.ag.ctl.flags =
    (s.ag.ctl.flags.or f).or ((s.ag.latches.filter (overtaken s.ag r)).foldl (fun x l => x.or l.flags) Flags.none)
  frame : t = { s with
    ag := { s.ag with
      s := t.ag.s
      v := t.ag.v
      p := t.ag.p
      k := t.ag.k
      sPoison := t.ag.sPoison
      vPoison := t.ag.vPoison
      pPoison := t.ag.pPoison
      kPoison := t.ag.kPoison
      latches := t.ag.latches
      ctl := { s.ag.ctl with flags := t.ag.ctl.flags } }
    cur := { s.cur with disp := .issued } }

/-- The state after a word whose only effects are a latched result, visible from its exposed latency on (R76), and the
advance of the generator it names (R35). -/
def latched (s : State) (r : RegName) (v : VWord) (lat : Nat) (f : Flags) (p : Bool) (m : Option Rm) : State :=
  { s with
    ag := ({ s.ag with latches := s.ag.latches ++ [⟨r, v, s.ag.cyc + lat, f, p⟩] } : Agent).advanceGen m
    cur := { s.cur with disp := .issued } }

/-- The state after a word whose only effects are changes of the agent and the block in focus. -/
def blockDid (s : State) (a : Agent) (b : Block) : State := { s with ag := a, blk := b, cur := { s.cur with disp := .issued } }

/-- The state after a word whose only effect is a change of the agent in focus. -/
def agentDid (s : State) (a : Agent) : State := { s with ag := a, cur := { s.cur with disp := .issued } }

/-! ## TILE words (R162 to R169, R185, R186) -/

/-- The items of a TILE word let it take its tile issue move: none lies in a fault range, none keeps it waiting, and its
unit is free (R164, R185). -/
structure Ready (i : Instr) (u : State) : Prop where
  noFault : (itemsOf u.ag i).fault? u.blk = none
  noWait : (itemsOf u.ag i).wait u.blk = false
  unitFree : unitBusy i u = false

/-- The data of every item that a TILE word reads is produced, so that its result comes with its move (R164). -/
def Produced (i : Instr) (u : State) : Prop := (itemsOf u.ag i).late i u.blk = false

/-- The job that a TILE word leaves with its unit: a void result has no flags (R185). -/
def tileJob (i : Instr) (u : State) (void : Bool) (r : TileRes) (hold : Bool) (report : Option NanReport) : Job :=
  { plainJob (itemsOf u.ag i) u with
    flags := if void then Flags.none else r.flags
    hold := hold
    report := report }

/-- The state after the tile issue move of a TILE word that is not long and not guarded off, with the result `r`. -/
def tileMoved (i : Instr) (u : State) (void : Bool) (r : TileRes) (hold : Bool) (report : Option NanReport) : State :=
  let it := itemsOf u.ag i
  advanceGen i (occupy i (tileJob i u void r hold report)
    (commitItems it false void (it.poison u.blk || r.poison) r (advancesOf i) u)).issued

/-- The mask scalar's options of a TILE word whose move does not wait for the data of its items (R164, R184): none for a
word of another kind, none inside for a word without a mask scalar. -/
def laterMode : Instr → Option (Option TMode)
  | .tmov .. | .ttrn .. => some none
  | .tadd _ _ _ m | .tmul _ _ _ m | .tmax _ _ _ m | .tscal _ _ _ m | .tred _ _ m | .tacc _ _ _ _ m
  | .mmbi _ _ _ _ _ m | .mmf _ _ _ _ _ m | .mmf32 _ _ _ _ _ m | .mmd _ _ _ _ _ m
  | .tcvt _ _ _ _ _ _ m | .tcvtPageAppend _ _ _ _ _ m => some (some m)
  | _ => none

/-- The state after the tile issue move of a TILE word of which an item's data is still being produced: its counts, its
destination's metadata and its post-advances are as for any other, and the word waits for the data (R164). -/
def tileWaiting (i : Instr) (u : State) (nt : Bool) (mask : Word) (void : Bool) (r : TileRes) : State :=
  let it := itemsOf u.ag i
  let t := commitItems it false void (it.poison u.blk || r.poison) { r with late := true } (advancesOf i) u
  advanceGen i (occupy i (plainJob it u) (t.setBlk { t.blk with
    works := t.blk.works ++ [pendingWork i (nt && !void) mask void it u] })).issued

end Sys2Proof.Machine
end

