-- ==== Sys2Proof/WellFormed.lean ====
section
/-! DEFINITION. Well-formed words: the checks of R67 that the word alone decides, on decoded syntax. -/

namespace Sys2Proof

/-- A scalar half of a PAIR word (R55). -/
def Instr.isScalarHalf (i : Instr) : Bool := (encScalarHalf i).isSome

/-- A vector half of a PAIR word (R56). -/
def Instr.isVectorHalf (i : Instr) : Bool := (encVectorHalf i).isSome

/-- An instruction that is a word of its own in some format other than PAIR (R57 to R64). -/
def Instr.isOneWord (i : Instr) : Bool := (encOne i).isSome

/-- The instructions only the MP executes (R64). -/
def Instr.isMove : Instr → Bool
  | .copy .. | .copytIn .. | .copytOut .. | .copytXfer .. | .cwait .. | .cstat .. | .prefL2 .. | .prefLease ..
  | .prefDemote .. | .mwait .. => true
  | _ => false

/-- Does this agent execute the instruction at all (R52, R62 to R65)? The format of `encOne` says which. -/
def Instr.agentOk (isMP : Bool) (i : Instr) : Bool :=
  match i with
  | .rep _ | .syncm _ | .mark _ | .timed _ _ | .trap _ | .eret | .seed _ _ | .tlbinv _ _ | .banksv _ _ | .bankld _ _
  | .pcmd _ => !isMP
  | _ =>
    match encOne i with
    | some e => if e.fmt = 2 ∨ e.fmt = 3 then !isMP else if e.fmt = 6 then isMP else true
    | none => !isMP

/-- The two register numbers of MTC that have instructions of their own. -/
def Instr.namedMtc : Instr → Bool
  | .mtc _ cr => cr != 0x022 && cr != 0x001
  | _ => true

/-- What the word alone must satisfy: checks 2, 4 and 5 of R67. -/
def Instr.wf (isMP : Bool) (i : Instr) : Bool :=
  i.agentOk isMP && i.reservedOk && i.fieldsOk isMP && i.namedMtc

/-- A well-formed line: the format fits the body, S is 0 on the MP (R65), and each instruction is well formed. -/
def Line.wf (isMP : Bool) (l : Line) : Bool :=
  match l.body with
  | .pair sh vh => !isMP && sh.isScalarHalf && vh.isVectorHalf && sh.wf false && vh.wf false
  | .one i => i.isOneWord && i.wf isMP && !(isMP && l.hdr.s)

end Sys2Proof
end

