-- ==== Sys2Proof/Certificates/Slice0/Obligations.lean ====
section
/-! DEFINITION. The statements for the provers, and the few terms they share. A word's statement holds on the state that
the word issues from: `Runs` collects the conditions under which it issues and has its effect, and `claimed` gives the
state after the claims of the banks it accesses. -/

open Sys2Proof Sys2Proof.Machine

namespace Sys2Proof.Machine

/-- The word's only effect is a scalar result of latency 1, poisoned where one of the sources named is (R91). -/
def ScalarResult (s : State) (i : Instr) (d : SReg) (x : Word) (srcs : List RegName) : Prop :=
  Runs i s → ∃ t, exec i s = .next t ∧ Wrote s t (.s d) (x.setWidth 2048) (s.ag.anyPoisoned srcs) Flags.none

/-- The same for a predicate (R95). -/
def PredicateResult (s : State) (i : Instr) (d : PReg) (x : Bool) (srcs : List RegName) : Prop :=
  Runs i s → ∃ t, exec i s = .next t ∧ Wrote s t (.p d) ((BitVec.ofBool x).setWidth 2048) (s.ag.anyPoisoned srcs) Flags.none

end Sys2Proof.Machine

/-! ## Values and rounding -/

namespace Sys2Proof.Machine

/-- The number that a dyadic value stands for. -/
def Dy.val (d : Dy) : ℚ := (if d.neg then -1 else 1) * d.m * 2 ^ d.e

/-- R25: the number that the encoding of a finite element stands for. -/
def Fmt.value (f : Fmt) (x : Nat) : ℚ :=
  let ex := x / 2 ^ f.fbits % 2 ^ f.ebits
  let frac : ℚ := (x % 2 ^ f.fbits : Nat) / 2 ^ f.fbits
  (if x / 2 ^ (f.ebits + f.fbits) % 2 = 1 then -1 else 1) *
    if ex = 0 then frac * 2 ^ (1 - (f.bias : Int)) else (1 + frac) * 2 ^ ((ex : Int) - f.bias)

/-- R31, R33: z is v rounded to a multiple of u in the mode. -/
def RoundsTo (md : RMode) (u v z : ℚ) : Prop :=
  ∃ k : Int, z = k * u ∧ 0 ≤ z * v ∧ match md with
    | .rne => |z - v| ≤ u / 2 ∧ (|z - v| = u / 2 → k % 2 = 0)
    | .rtz => |z| ≤ |v| ∧ |v| < |z| + u
    | .rdn => z ≤ v ∧ v < z + u
    | .rup => v ≤ z ∧ z < v + u
    | .rna => |z - v| ≤ u / 2 ∧ (|z - v| = u / 2 → |v| < |z|)
    | .sr rnd => |z| = (⌊((⌊|v| / u * 65536⌋ + rnd : Int) : ℚ) / 65536⌋ : Int) * u

end Sys2Proof.Machine

/-- R25 to R28, R34, R37, R47: the formats. The table of R25, and what an element's encoding stands for after FI; the
generated NaNs of R27; the first NaN among the sources, quieted, with NV where it signalled; a NaN that changes its
format keeps its sign and cause; an infinity, in saturating mode the largest value with OF; the modes of a rounding,
with the random value that Mix draws. The conversion of an infinite source to E4M3 outside saturating mode as an overflow of
that mode is the model's choice (notes/assumptions/49.md). -/
def Obligations.NumberFormats : Prop :=
  (∀ r ∈ ([(fp64, 64, (2 - 2 ^ (-52 : Int)) * 2 ^ 1023), (fp32, 32, (2 - 2 ^ (-23 : Int)) * 2 ^ 127), (fp16, 16, 65504),
      (bf16, 16, (2 - 2 ^ (-7 : Int)) * 2 ^ 127), (e5m2, 8, 57344), (e4m3, 8, 448), (e2m1, 4, 6)] : List (Fmt × Nat × ℚ)),
    r.1.width = r.2.1 ∧ r.1.value r.1.maxFinite = r.2.2 ∧
    ∀ (x : Nat) (fi : Bool), x < 2 ^ r.1.width →
      let neg := decide (2 ^ (r.1.width - 1) ≤ x)
      let ones := x / 2 ^ r.1.fbits % 2 ^ r.1.ebits = 2 ^ r.1.ebits - 1
      let frac := x % 2 ^ r.1.fbits
      let sub := x / 2 ^ r.1.fbits % 2 ^ r.1.ebits = 0
      if r.1.special = .ieee ∧ ones then
        decodeFp r.1 fi x = if frac = 0 then .inf neg else .nan neg (decide (frac < 2 ^ (r.1.fbits - 1))) frac
      else if r.1.special = .e4m3 ∧ ones ∧ frac = 7 then decodeFp r.1 fi x = .nan neg false frac
      else ∃ d : Dy, decodeFp r.1 fi x = .fin d ∧ d.neg = neg ∧ d.val = if fi = true ∧ sub then 0 else r.1.value x) ∧
  (∀ c < 6, genNan fp64 c = 0x7FF8000000000000 + c ∧ genNan fp32 c = 0x7FC00000 + c ∧ genNan fp16 c = 0x7E00 + c ∧
    genNan bf16 c = 0x7FC0 + c ∧ genNan e5m2 c = 0x7E + c % 2 ∧ genNan e4m3 c = 0x7F ∧
    ∀ (f : Fmt) (md : RMode) (fo sat : Bool), putVal f md fo sat (.gen c) = (genNan f c, Flags.invalid)) ∧
  (∀ (f : Fmt) (srcs : List Fp) (v : Val), f ∈ [fp64, fp32, fp16, bf16, e5m2] →
    ((∀ x ∈ srcs, x.isNan = false) → elementwise f srcs v = (v, Flags.none)) ∧
    ∀ (l r : List Fp) (n sig : Bool) (fr : Nat) (md : RMode) (fo : Bool), srcs = l ++ .nan n sig fr :: r →
      (∀ x ∈ l, x.isNan = false) → fr < 2 ^ f.fbits → (sig = true ↔ fr < 2 ^ (f.fbits - 1)) →
      roundElem f md fo (elementwise f srcs v) =
        ((if n then 2 ^ (f.width - 1) else 0) + (2 ^ f.ebits - 1) * 2 ^ f.fbits + (fr ||| 2 ^ (f.fbits - 1)),
          if sig then Flags.invalid else Flags.none)) ∧
  (∀ (src dst : Fmt) (md : RMode) (fo sat n sig : Bool) (fr c : Nat),
    (src ∈ [fp64, fp32, fp16, bf16] ∧ c = fr % 8 ∨ src = e5m2 ∧ c = fr % 2 ∨ src = e4m3 ∧ c = 0) →
    dst ∈ [fp64, fp32, fp16, bf16, e5m2, e4m3, e2m1] → fr < 2 ^ src.fbits → (sig = true ↔ fr < 2 ^ (src.fbits - 1)) →
    convertFp src dst md fo sat (.nan n sig fr) =
      if dst = e2m1 then (0, Flags.invalid)
      else ((if n then 2 ^ (dst.width - 1) else 0) +
        (if dst = src then (2 ^ src.ebits - 1) * 2 ^ src.fbits + (fr ||| 2 ^ (src.fbits - 1)) else genNan dst c),
        if sig then Flags.invalid else Flags.none)) ∧
  (∀ (src f : Fmt) (md : RMode) (fo sat n : Bool), f ∈ [fp64, fp32, fp16, bf16, e5m2, e4m3, e2m1] →
    let sgn := if n then 2 ^ (f.width - 1) else 0
    (∀ d, convertFp src f md fo sat (.fin d) = roundFin f md fo sat d) ∧
    convertFp src f md fo sat (.inf n) =
      if f.special = .ieee ∧ sat = false then (sgn + (2 ^ f.ebits - 1) * 2 ^ f.fbits, Flags.none)
      else overflowResult f md sat n) ∧
  ∀ (c : Ctl) (rm : Rm) (idx : Nat),
    let e := if rm = .dyn then Rm.ofCode c.rm.toNat else rm
    let draw (seed ctr : Word) : Nat :=
      let z := seed.toNat ^^^ (ctr.toNat * 0x9E6B3A51C2F47D19 % 2 ^ 64) ^^^ (idx * 0x5C8E21F7A93D0B65 % 2 ^ 64)
      let z := (z ^^^ (z / 2 ^ 31)) * 0xE4A196C37F05B2D9 % 2 ^ 64
      let z := (z ^^^ (z / 2 ^ 29)) * 0x83F25D0BC6A7194F % 2 ^ 64
      (z ^^^ (z / 2 ^ 32)) / 2 ^ 48
    e ≠ .dyn →
    (rounder c rm).at idx = match e with
      | .rtz => .rtz
      | .rdn => .rdn
      | .rup => .rup
      | .rna => .rna
      | .sr0 => .sr (draw c.gseed[0] c.gctr[0])
      | .sr1 => .sr (draw c.gseed[1] c.gctr[1])
      | _ => .rne

/-- R30 to R33, R37, R47, R48: rounding. A non-zero value is rounded with the ulp of its exponent, that of the subnormals
below the smallest normal; a result above the largest finite value gives what the table of R32 says, with OF and NX;
NX is set where the result differs, UF where it is also subnormal or zero; FO replaces a subnormal by zero of its sign. A
zero keeps its sign. A conversion to an integer rounds with ulp 1 and clamps, with NV, or with OF for a block integer. The
scale of a block is that of R48, and an element is rounded after the division by it. That a result that FO flushes sets NX too,
and that a value that rounds to zero keeps its sign, are the model's choices (notes/assumptions/49.md). -/
def Obligations.Rounding : Prop :=
  (∀ (f : Fmt) (md : RMode) (fo sat : Bool) (d : Dy) (top : Int) (z : ℚ),
    f ∈ [fp64, fp32, fp16, bf16, e5m2, e4m3, e2m1] → (∀ rnd, md = .sr rnd → rnd < 65536) →
    2 ^ top ≤ |d.val| → |d.val| < 2 ^ (top + 1) →
    RoundsTo md (2 ^ (max top (1 - (f.bias : Int)) - f.fbits)) d.val z →
    let sgn := if d.neg then 2 ^ (f.width - 1) else 0
    let inexact := decide (z ≠ d.val)
    let small := decide (|z| < 2 ^ (1 - (f.bias : Int)))
    let large := sgn + f.maxFinite
    let beyond := sgn + (if f.special = .ieee then (2 ^ f.ebits - 1) * 2 ^ f.fbits else 0x7F)
    if f.value f.maxFinite < |z| then
      roundFin f md fo sat d = (if sat = true ∨ f = e2m1 then large else match md with
        | .rtz => large
        | .rdn => if d.neg then beyond else large
        | .rup => if d.neg then large else beyond
        | _ => beyond, Flags.overflow)
    else if fo = true ∧ z ≠ 0 ∧ small then roundFin f md fo sat d = (sgn, ⟨true, true, false, false, false⟩)
    else ∃ x, roundFin f md fo sat d = (x, ⟨inexact, inexact && small, false, false, false⟩) ∧ x < 2 ^ f.width ∧
      x % 2 ^ (f.width - 1) ≤ f.maxFinite ∧ f.value x = z ∧ (2 ^ (f.width - 1) ≤ x ↔ d.neg = true)) ∧
  (∀ (f : Fmt) (md : RMode) (fo sat n : Bool) (e : Int),
    roundFin f md fo sat ⟨n, 0, e⟩ = (if n then 2 ^ (f.width - 1) else 0, Flags.none)) ∧
  (∀ (g : NumFmt) (md : RMode) (d : Dy) (n : Int) (lo hi : Int) (clamp : Flags),
    (g, lo, hi, clamp) ∈ [(NumFmt.int 32, -2 ^ 31, 2 ^ 31 - 1, (⟨true, false, false, false, true⟩ : Flags)),
      (.nat 32, 0, 2 ^ 32 - 1, ⟨true, false, false, false, true⟩), (.int 16, -2 ^ 15, 2 ^ 15 - 1, ⟨true, false, false, false, true⟩),
      (.int 8, -2 ^ 7, 2 ^ 7 - 1, ⟨true, false, false, false, true⟩), (.bi 2, -1, 1, Flags.overflow), (.bi 3, -3, 3, Flags.overflow),
      (.bi 4, -7, 7, Flags.overflow), (.bi 5, -15, 15, Flags.overflow), (.bi 6, -31, 31, Flags.overflow),
      (.bi 7, -63, 63, Flags.overflow), (.bi 8, -127, 127, Flags.overflow)] →
    (∀ rnd, md = .sr rnd → rnd < 65536) → RoundsTo md 1 d.val n →
    let elem (x : Int) : Nat := (x % 2 ^ g.bits).toNat
    toInteger g md (.fin d) = (if n < lo then (elem lo, clamp) else if hi < n then (elem hi, clamp)
      else (elem n, ⟨decide ((n : ℚ) ≠ d.val), false, false, false, false⟩)) ∧
    (∀ neg, toInteger g md (.inf neg) = (elem (if neg then lo else hi), clamp)) ∧
    ∀ neg sig fr, toInteger g md (.nan neg sig fr) = (0, Flags.invalid)) ∧
  ∀ (tag : BitVec 8) (emax : Int), (tag, emax) ∈ [((0x71 : BitVec 8), (2 : Int)), (0x51, 8), (0x61, 15), (0x91, 0), (0x83, 0),
      (0x85, 1), (0x87, 2), (0x89, 3), (0x8B, 4), (0x8D, 5), (0x8F, 6)] →
    (∀ (sat n : Bool), quantSource sat (.inf n) = if sat then .fin ⟨n, 2 ^ 24 - 1, 104⟩ else .inf n) ∧
    (∀ xs : List Fp,
      ((∃ x ∈ xs, x.isNan = true ∨ x.isInf = true ∧ tag ≠ 0x61) → chooseScale tag xs = none) ∧
      ((∀ x ∈ xs, x.isNan = false ∧ (x.isInf = true → tag = 0x61)) →
        ((∀ d, .fin d ∈ xs → d.val = 0) → chooseScale tag xs = some 0) ∧
        ∀ (top : Int) (d : Dy), .fin d ∈ xs → 2 ^ top ≤ |d.val| → (∀ y, .fin y ∈ xs → |y.val| < 2 ^ (top + 1)) →
          chooseScale tag xs = some (min (max (top - emax) (-127)) 127 + 127).toNat)) ∧
    ∀ (k : Nat) (md : RMode) (fo sat : Bool) (d : Dy), k < 255 →
      ∃ y : Dy, y.neg = d.neg ∧ y.val = d.val * 2 ^ ((if tag = 0x91 then 133 else 127 : Int) - k) ∧
        quantElem tag k md fo sat (.fin d) = match tagNum tag with
          | .float f => roundFin f md fo true y
          | g => ((signedOf g.bits (toInteger g md (.fin y)).1 % 2 ^ tagCont tag).toNat, (toInteger g md (.fin y)).2)

/-! ## Scalar words -/

/-- R94: the register and immediate forms of the scalar half, and their codes. A word that runs writes the result of the table to s[d],
poisoned where a source is, and nothing else changes: no other register, no flag but those of an overtaken latch, no
memory. In the immediate forms y is the sign-extended field, or the literal where the word carries one. -/
def Obligations.ScalarForms : Prop :=
  (∀ (s : State) (d a b : SReg),
      ScalarResult s (.add d a b) d (s.sReg a + s.sReg b) [.s a, .s b] ∧
      ScalarResult s (.sub d a b) d (s.sReg a - s.sReg b) [.s a, .s b] ∧
      ScalarResult s (.mul d a b) d (BitVec.ofInt 64 ((s.sReg a).toInt * (s.sReg b).toInt)) [.s a, .s b] ∧
      ScalarResult s (.mulh d a b) d (BitVec.ofInt 64 ((s.sReg a).toInt * (s.sReg b).toInt / 2 ^ 64)) [.s a, .s b] ∧
      ScalarResult s (.mulhn d a b) d (BitVec.ofNat 64 ((s.sReg a).toNat * (s.sReg b).toNat / 2 ^ 64)) [.s a, .s b] ∧
      ScalarResult s (.and d a b) d (s.sReg a &&& s.sReg b) [.s a, .s b] ∧
      ScalarResult s (.or d a b) d (s.sReg a ||| s.sReg b) [.s a, .s b] ∧
      ScalarResult s (.xor d a b) d (s.sReg a ^^^ s.sReg b) [.s a, .s b] ∧
      ScalarResult s (.andn d a b) d (s.sReg a &&& ~~~s.sReg b) [.s a, .s b] ∧
      ScalarResult s (.shl d a b) d (s.sReg a <<< ((s.sReg b).toNat % 64)) [.s a, .s b] ∧
      ScalarResult s (.shr d a b) d (s.sReg a >>> ((s.sReg b).toNat % 64)) [.s a, .s b] ∧
      ScalarResult s (.sar d a b) d (BitVec.ofInt 64 ((s.sReg a).toInt / 2 ^ ((s.sReg b).toNat % 64))) [.s a, .s b] ∧
      ScalarResult s (.ror d a b) d
        (s.sReg a >>> ((s.sReg b).toNat % 64) ||| s.sReg a <<< (64 - (s.sReg b).toNat % 64)) [.s a, .s b] ∧
      ScalarResult s (.min d a b) d (BitVec.ofInt 64 (min (s.sReg a).toInt (s.sReg b).toInt)) [.s a, .s b] ∧
      ScalarResult s (.max d a b) d (BitVec.ofInt 64 (max (s.sReg a).toInt (s.sReg b).toInt)) [.s a, .s b] ∧
      ScalarResult s (.minn d a b) d (BitVec.ofNat 64 (min (s.sReg a).toNat (s.sReg b).toNat)) [.s a, .s b] ∧
      ScalarResult s (.maxn d a b) d (BitVec.ofNat 64 (max (s.sReg a).toNat (s.sReg b).toNat)) [.s a, .s b] ∧
      ScalarResult s (.seq d a b) d (if s.sReg a = s.sReg b then 1 else 0) [.s a, .s b] ∧
      ScalarResult s (.slt d a b) d (if (s.sReg a).toInt < (s.sReg b).toInt then 1 else 0) [.s a, .s b] ∧
      ScalarResult s (.sltn d a b) d (if (s.sReg a).toNat < (s.sReg b).toNat then 1 else 0) [.s a, .s b] ∧
      (∀ n, n ≤ 64 → (∀ j < 64, (s.sReg a).getLsbD (63 - j) = true → n ≤ j) →
        (n = 64 ∨ (s.sReg a).getLsbD (63 - n) = true) → ScalarResult s (.clz d a) d (BitVec.ofNat 64 n) [.s a]) ∧
      ScalarResult s (.popc d a) d
        (BitVec.ofNat 64 ((List.range 64).map fun j => ((s.sReg a).getLsbD j).toNat).sum) [.s a] ∧
      ScalarResult s (.mov d a) d (s.sReg a) [.s a]) ∧
  (∀ (s : State) (d a : SReg) (im : Imm 10) (y : Word),
      (match im with | .short v => y.toInt = v.toInt | .lit v => y = v) →
      ScalarResult s (.addi d a im) d (s.sReg a + y) [.s a] ∧
      ScalarResult s (.andi d a im) d (s.sReg a &&& y) [.s a] ∧
      ScalarResult s (.ori d a im) d (s.sReg a ||| y) [.s a] ∧
      ScalarResult s (.xori d a im) d (s.sReg a ^^^ y) [.s a] ∧
      ScalarResult s (.shli d a im) d (s.sReg a <<< (y.toNat % 64)) [.s a] ∧
      ScalarResult s (.shri d a im) d (s.sReg a >>> (y.toNat % 64)) [.s a] ∧
      ScalarResult s (.sari d a im) d (BitVec.ofInt 64 ((s.sReg a).toInt / 2 ^ (y.toNat % 64))) [.s a] ∧
      ScalarResult s (.rori d a im) d (s.sReg a >>> (y.toNat % 64) ||| s.sReg a <<< (64 - y.toNat % 64)) [.s a] ∧
      ScalarResult s (.slti d a im) d (if (s.sReg a).toInt < y.toInt then 1 else 0) [.s a] ∧
      ScalarResult s (.movi d im) d y []) ∧
  (∀ (d a b : SReg) (y : Imm 10), ∀ p ∈ ([(.add d a b, 0x01), (.sub d a b, 0x02), (.mul d a b, 0x03), (.mulh d a b, 0x04),
      (.mulhn d a b, 0x05), (.and d a b, 0x06), (.or d a b, 0x07), (.xor d a b, 0x08), (.andn d a b, 0x09), (.shl d a b, 0x0A),
      (.shr d a b, 0x0B), (.sar d a b, 0x0C), (.ror d a b, 0x0D), (.min d a b, 0x0E), (.max d a b, 0x0F), (.minn d a b, 0x10),
      (.maxn d a b, 0x11), (.seq d a b, 0x12), (.slt d a b, 0x13), (.sltn d a b, 0x14), (.clz d a, 0x15), (.popc d a, 0x16),
      (.mov d a, 0x17), (.addi d a y, 0x20), (.andi d a y, 0x21), (.ori d a y, 0x22), (.xori d a y, 0x23), (.shli d a y, 0x24),
      (.shri d a y, 0x25), (.sari d a y, 0x26), (.rori d a y, 0x27), (.slti d a y, 0x28), (.movi d y, 0x29)] : List (Instr × Nat)),
    (encScalarHalf p.1).map (·.1.getLast?) = some (some p.2)) ∧
  (∀ z b a d lit x, a ≠ 0 → decScalarHalf z b a d 0x29 lit = some x → x.zero = false)

/-- R95: the predicate forms, their codes, and the two words that the rule writes out. A predicate is written at once, so it
guards words from the next stream cycle on.
R102: EXTR reads bits above 63 as zero; INSR replaces the bits from pos, and reads s[d] as a source. R96: division.
The result, poisoned where a source is, waits for its delivery, and the destination carries a pending mark; nothing
else changes. -/
def Obligations.PredicatesAndBitFields : Prop :=
  ((∀ (s : State) (d : PReg) (a b : SReg),
     PredicateResult s (.peq d a b) d (decide (s.sReg a = s.sReg b)) [.s a, .s b] ∧
     PredicateResult s (.pne d a b) d (decide (s.sReg a ≠ s.sReg b)) [.s a, .s b] ∧
     PredicateResult s (.plt d a b) d (decide ((s.sReg a).toInt < (s.sReg b).toInt)) [.s a, .s b] ∧
     PredicateResult s (.pge d a b) d (decide ((s.sReg b).toInt ≤ (s.sReg a).toInt)) [.s a, .s b] ∧
     PredicateResult s (.pltn d a b) d (decide ((s.sReg a).toNat < (s.sReg b).toNat)) [.s a, .s b] ∧
     PredicateResult s (.pgen d a b) d (decide ((s.sReg b).toNat ≤ (s.sReg a).toNat)) [.s a, .s b] ∧
     PredicateResult s (.ptst d a b) d (decide (s.sReg a &&& s.sReg b ≠ 0)) [.s a, .s b]) ∧
   (∀ (s : State) (d a b : PReg),
     PredicateResult s (.pand d a b) d (s.pReg a && s.pReg b) [.p a, .p b] ∧
     PredicateResult s (.por d a b) d (s.pReg a || s.pReg b) [.p a, .p b] ∧
     PredicateResult s (.pxor d a b) d (s.pReg a != s.pReg b) [.p a, .p b] ∧
     PredicateResult s (.pnot d a) d (!s.pReg a) [.p a]) ∧
   (∀ (d p q : PReg) (a b : SReg), ∀ x ∈ ([(.peq d a b, 0x30), (.pne d a b, 0x31), (.plt d a b, 0x32), (.pge d a b, 0x33),
       (.pltn d a b, 0x34), (.pgen d a b, 0x35), (.ptst d a b, 0x36), (.pand d p q, 0x38), (.por d p q, 0x39), (.pxor d p q, 0x3A),
       (.pnot d p, 0x3B)] : List (Instr × Nat)), (encScalarHalf x.1).map (·.1.getLast?) = some (some x.2)) ∧
   decode false 0x000C_0453_0000_0000 0 = .ok ⟨Hdr.default, .pair (.peq 2 5 6) .vnop⟩ ∧
   decode false 0x0008_063F_E000_0000 0 = .ok ⟨Hdr.default, .pair (.addi 3 3 (.short (-8))) .vnop⟩) ∧
  ((∀ (s : State) (d a : SReg) (pos len1 : Fin 64) (x : Word),
       ((∀ j < 64, x.getLsbD j = (decide (j ≤ len1.val) && (s.sReg a).getLsbD (pos.val + j))) →
         ScalarResult s (.extr d a pos len1) d x [.s a]) ∧
       ((∀ j < 64, x.getLsbD j =
           if pos.val ≤ j ∧ j ≤ pos.val + len1.val then (s.sReg a).getLsbD (j - pos.val) else (s.sReg d).getLsbD j) →
         ScalarResult s (.insr d a pos len1) d x [.s a, .s d])) ∧
   (∀ (s : State) (d a b : SReg),
       let x := s.sReg a
       let y := s.sReg b
       let Later (i : Instr) (q : Word) : Prop := Runs i s → exec i s = .next (agentDid s { s.ag with
         pend := s.ag.pend ++ [.s d]
         ready := s.ag.ready ++ [⟨.s d, q.setWidth 2048, BitVec.allOnes 64, s.ag.anyPoisoned [.s a, .s b]⟩] })
       Later (.div d a b) (if y = 0 then BitVec.allOnes 64 else BitVec.ofInt 64 (x.toInt.tdiv y.toInt)) ∧
       Later (.divn d a b) (if y = 0 then BitVec.allOnes 64 else BitVec.ofNat 64 (x.toNat / y.toNat)) ∧
       Later (.rem d a b) (if y = 0 then x else BitVec.ofInt 64 (x.toInt - y.toInt * x.toInt.tdiv y.toInt)) ∧
       Later (.remn d a b) (if y = 0 then x else BitVec.ofNat 64 (x.toNat % y.toNat))))

/-- R81, R100, R116, R131, R180: words that end without an effect of their own. SNOP, VNOP, a CHK or VCHK of a register
that is not poisoned, and an HWAIT on a generation that is present only issue, with the bank they name claimed. -/
def Obligations.WordsWithoutEffect : Prop :=
  ∀ s u : State,
    (Runs .snop s → exec .snop s = .next (agentDid s s.ag)) ∧
    (Runs .vnop s → exec .vnop s = .next (agentDid s s.ag)) ∧
    (∀ a, Runs (.chk a) s → s.ag.poisoned (.s a) = false → exec (.chk a) s = .next (agentDid s s.ag)) ∧
    (∀ v, Runs (.vchk v) s → claimed (.vchk v) false s = some u → s.ag.poisoned (.v v) = false →
      exec (.vchk v) s = .next (agentDid u s.ag)) ∧
    (∀ h o, Runs (.hwait h o) s → claimed (.hwait h o) false s = some u → (s.ag.h[h]).cls ≠ 2 →
      (s.blk.md (s.ag.opnd ⟨h, o, false⟩).r).wc = (s.ag.opnd ⟨h, o, false⟩).x →
      exec (.hwait h o) s = .next (agentDid u s.ag))

/-- R90, R97 to R99, R101: a scalar access whose base is clean and whose address is translated issues: its access, of the 8
bytes at the address with bits 2:0 cleared, joins those the agent has still to perform, with the data and the compare
value read now, and a load or atomic marks its destination. Nothing else changes. R92, R97, R99: where a scalar access
traps. A poisoned base raises POISON with the register number; an address whose translation fails raises the cause it
fails with, TVAL holding the address; LDS instead delivers 0 with the poison bit, performs nothing and raises nothing. The oldest access of an
agent performs: of a load, the eight bytes and their poison join its results, and no memory changes. -/
def Obligations.ScalarAccesses : Prop :=
  (∀ (s : State) (d a b : SReg) (off : Imm 29) (ea : Word) (l : Loc),
      (match off with | .short v => ea.toNat = ((s.sReg a).toNat + 2 ^ 64 + v.toInt).toNat % 2 ^ 64
                      | .lit v => ea = s.sReg a + v) →
      s.ag.poisoned (.s a) = false →
      let Issues (i : Instr) (use : Use) (kind : AccessKind) (marks : List RegName) : Prop :=
        Runs i s → translate s s.blk ea use = .ok l →
        exec i s = .next (agentDid s { s.ag with
          pend := s.ag.pend ++ marks
          accs := s.ag.accs ++ [⟨kind, l.alignDown 8⟩] })
      let Atom (op : AtomOp) : AccessKind :=
        .atomic op d (s.sReg b) (s.sReg d) (s.ag.poisoned (.s b)) (s.ag.poisoned (.s d))
      Issues (.ld d a off) .load (.load d) [.s d] ∧
      Issues (.lds d a off) .load (.load d) [.s d] ∧
      Issues (.st d a off) .store (.store (s.sReg d) (s.ag.poisoned (.s d))) [] ∧
      Issues (.aadd d a b off) .atomic (Atom .add) [.s d] ∧
      Issues (.amin d a b off) .atomic (Atom .min) [.s d] ∧
      Issues (.amax d a b off) .atomic (Atom .max) [.s d] ∧
      Issues (.aand d a b off) .atomic (Atom .and) [.s d] ∧
      Issues (.aor d a b off) .atomic (Atom .or) [.s d] ∧
      Issues (.axor d a b off) .atomic (Atom .xor) [.s d] ∧
      Issues (.aswp d a b off) .atomic (Atom .swp) [.s d] ∧
      Issues (.acas d a b off) .atomic (Atom .cas) [.s d]) ∧
  (∀ (s : State) (d a b : SReg) (off : Imm 29) (ea : Word) (c : BitVec 8) (i : Instr) (use : Use),
      (match off with | .short v => ea.toNat = ((s.sReg a).toNat + 2 ^ 64 + v.toInt).toNat % 2 ^ 64
                      | .lit v => ea = s.sReg a + v) →
      (i, use) ∈ [(Instr.ld d a off, Use.load), (.lds d a off, .load), (.st d a off, .store), (.aadd d a b off, .atomic),
        (.amin d a b off, .atomic), (.amax d a b off, .atomic), (.aand d a b off, .atomic), (.aor d a b off, .atomic),
        (.axor d a b off, .atomic), (.aswp d a b off, .atomic), (.acas d a b off, .atomic)] →
      Runs i s →
      (s.ag.poisoned (.s a) = true → exec i s = .next (s.raise cPOISON (BitVec.ofNat 64 a.val))) ∧
      (s.ag.poisoned (.s a) = false → translate s s.blk ea use = .fault c →
        exec i s = .next (if i = .lds d a off then agentDid s { s.ag with
            pend := s.ag.pend ++ [.s d]
            ready := s.ag.ready ++ [⟨.s d, 0, BitVec.allOnes 64, true⟩] }
          else s.raise c ea))) ∧
  (∀ (s : State) (b w pa : Nat) (B : Block) (d : SReg) (r : List Access), getKey s.blocks b = some B → B.status ≠ .failed →
      let u := enter s b w
      u.ag.accs = ⟨.load d, .phys pa⟩ :: r → remotePkg pa = none →
      ∃ t, exec (.perform b w) s = .next (leave t) ∧ t.ag = { u.ag with
          accs := r
          ready := u.ag.ready ++ [⟨.s d, BitVec.ofNat 2048 (u.mem.readLE pa 8), BitVec.allOnes 64,
            u.mem.granule (pa / 4) || u.mem.granule (pa / 4 + 1)⟩] } ∧
        t.mem = u.mem ∧ t.blk = u.blk ∧ t.cur = u.cur)

/-- R97, R129, R229, R364: the rules of an address that no page decides. An address that is not canonical is PAGE; inside
the window range only the scratchpad of the block's own window is reached, up to the rows the block may use; program text
is read and fetched, and never written, and so are the other texts that the block's slot maps. The model's choice, from
notes/assumptions/45.md: a fetch from a window raises PROT, and the window of the launch core (LCORE, R303, R309) is
reached like that of the block's own core. -/
def Obligations.AddressRules : Prop :=
  ∀ (s : State) (b : Block) (va : Word) (use : Use),
    (va.extractLsb' 55 9 ≠ 0 → va.extractLsb' 55 9 ≠ 0x1FF → translate s b va use = .fault cPAGE) ∧
    (0xF_0000_0000_0000 ≤ va.toNat → va.toNat ≤ 0xF_FFFF_FFFF_FFFF →
      let core := (va.extractLsb' 24 24).toNat
      let off := (va.extractLsb' 0 24).toNat
      translate s b va use =
        if use ≠ .fetch ∧ (core = b.core ∨ core = b.mig.lcore.toNat) ∧ 0x200000 ≤ off ∧ off < 0x400000 ∧
            (off - 0x200000) / 256 < b.sprows
        then .ok (.pad (off - 0x200000)) else .fault cPROT) ∧
    (canonical va = true → va.toNat / 2 ^ 48 ≠ 15 → b.textVa.toNat ≤ va.toNat → va.toNat < b.textVa.toNat + b.textSize →
      translate s b va use = match use with
        | .fetch | .load => .ok (.text (va.toNat - b.textVa.toNat))
        | .store | .atomic => .fault cPROT) ∧
    (∀ x m, canonical va = true → va.toNat / 2 ^ 48 ≠ 15 → slotOfBlock s b = some x → m ∈ x.maps →
      m.va.toNat ≤ va.toNat → va.toNat < m.va.toNat + m.size →
      (use = .fetch ∨ use = .load → ∃ o, translate s b va use = .ok (.text o)) ∧
      (use = .store ∨ use = .atomic → translate s b va use = .fault cPROT))

/-- R103, R204: ports. A stream pushes to the command FIFO and pops from the result FIFO, the MP the other way round. A
push reserves a place where fewer than 16 are taken; a pop claims an element that no earlier pop has claimed, and marks
its destination; either is an access still to be performed. A poisoned operand of FPUSH raises POISON. -/
def Obligations.EnginePorts : Prop :=
  ∀ (s : State) (r : SReg) (n : Fin 4),
    let p := s.blk.ports[n]
    let Ports (x : Port) : Block := { s.blk with ports := s.blk.ports.set n x }
    (Runs (.fpush r n) s → s.ag.poisoned (.s r) = false →
      (if s.cur.w = 4 then p.res.length + p.resSlots else p.cmd.length + p.cmdSlots) < 16 →
      exec (.fpush r n) s = .next (blockDid s { s.ag with accs := s.ag.accs ++ [⟨.push n (s.sReg r), .phys 0⟩] }
        (Ports (if s.cur.w = 4 then { p with resSlots := p.resSlots + 1 } else { p with cmdSlots := p.cmdSlots + 1 })))) ∧
    (Runs (.fpush r n) s → s.ag.poisoned (.s r) = true →
      exec (.fpush r n) s = .next (s.raise cPOISON (BitVec.ofNat 64 r.val))) ∧
    (Runs (.fpop r n) s →
      (if s.cur.w = 4 then p.cmdClaims < p.cmd.length else p.resClaims < p.res.length) →
      exec (.fpop r n) s = .next (blockDid s { s.ag with
          pend := s.ag.pend ++ [.s r]
          accs := s.ag.accs ++ [⟨.pop n r, .phys 0⟩] }
        (Ports (if s.cur.w = 4 then { p with cmdClaims := p.cmdClaims + 1 } else { p with resClaims := p.resClaims + 1 })))) ∧
    (Runs (.fpush r n) s → s.ag.poisoned (.s r) = false →
      16 ≤ (if s.cur.w = 4 then p.res.length + p.resSlots else p.cmd.length + p.cmdSlots) →
      exec (.fpush r n) s = .next { s with cur := { s.cur with disp := .waits } })

/-- R160, R161, R179: HSET takes a handle's fields from two scalars, HGET returns them in the same packing or returns the
cursor, and HADV moves the cursor on by n slots, one generation for each time round the ring. -/
def Obligations.Handles : Prop :=
  (∀ (s : State) (h : HReg) (a b : SReg) (x : Handle),
    s.ag.poisoned (.s a) = false → s.ag.poisoned (.s b) = false → Runs (.hset h a b) s →
    (s.sReg a).toNat = x.cls.toNat + 4 * x.base.toNat + 2 ^ 11 * x.len1.toNat + 2 ^ 17 * x.q.toNat + 2 ^ 21 * x.core.toNat →
    (s.sReg b).toNat < 2 ^ 16 →
    x.s = 0 → x.e.toNat = ((s.sReg b).toNat + 1) % 2 ^ 16 →
    (x.cls = 0 ∧ x.base.toNat + x.len1.toNat ≤ 511 ∧ x.core = 0 ∨
      x.cls = 1 ∧ x.base.toNat + x.len1.toNat ≤ 63 ∧ x.core = 0 ∨
      x.cls = 2 ∧ x.base.toNat + x.len1.toNat ≤ 511 ∧ s.cur.w = 4 ∧ coreExists x.core.toNat = true) →
    exec (.hset h a b) s = .next (agentDid s { s.ag with h := s.ag.h.set h x })) ∧
  (∀ (s : State) (d : SReg) (h : HReg),
    let x := s.ag.h[h]
    ScalarResult s (.hget d h false) d (BitVec.ofNat 64
      (x.cls.toNat + 4 * x.base.toNat + 2 ^ 11 * x.len1.toNat + 2 ^ 17 * x.q.toNat + 2 ^ 21 * x.core.toNat)) [] ∧
    ScalarResult s (.hget d h true) d (BitVec.ofNat 64 (x.e.toNat + 2 ^ 16 * x.s.toNat)) []) ∧
  ∀ (s : State) (h : HReg) (n : BitVec 16),
    let x := s.ag.h[h]
    let k := x.s.toNat + n.toNat
    let len := x.len1.toNat + 1
    x.s ≤ x.len1 → Runs (.hadv h n) s →
    exec (.hadv h n) s = .next (agentDid s { s.ag with
      h := s.ag.h.set h { x with s := BitVec.ofNat 6 (k % len), e := x.e + BitVec.ofNat 16 (k / len) } })

/-- R23, R177, R180, R181: the count instructions on a generation that is present. TREL counts a read and moves nothing;
TVOID writes the item's void bit to a predicate with its poison; TGEN samples the generation and the metadata without a
wait; TSETC writes a metadata word and leaves the data. Data, side-bands and every other register's metadata stay. -/
def Obligations.CountInstructions : Prop :=
  ∀ (s u : State) (h : HReg) (o : Fin 4),
    let p := s.ag.opnd ⟨h, o, false⟩
    let m := s.blk.md p.r
    ((s.ag.h[h]).cls ≠ 2 → m.wc = p.x → Runs (.trel h o) s → claimed (.trel h o) false s = some u →
      exec (.trel h o) s = .next (blockDid u
        (if m.void ∧ s.cur.w ≠ 4 then { s.ag with ctl := { s.ag.ctl with vs := true } } else s.ag)
        (s.blk.setMd p.r { m with rc := BitVec.ofNat 4 (min (m.rc.toNat + 1) 15) }))) ∧
    (∀ d, (s.ag.h[h]).cls ≠ 2 → m.wc = p.x → Runs (.tvoid d h o) s → claimed (.tvoid d h o) false s = some u →
      ∃ t, exec (.tvoid d h o) s = .next t ∧
        Wrote u t (.p d) ((BitVec.ofBool m.void).setWidth 2048) m.poison Flags.none) ∧
    (∀ (d : SReg) (x : Word), (s.ag.h[h]).cls ≠ 2 → Runs (.tgen d h o) s → claimed (.tgen d h o) false s = some u →
      x.extractLsb' 48 16 = p.x → x.extractLsb' 0 16 = m.wc → x.extractLsb' 16 4 = m.q → x.extractLsb' 20 4 = m.rc →
      x.getLsbD 24 = m.void → x.getLsbD 25 = m.poison → x.extractLsb' 26 6 = 0 → x.extractLsb' 32 8 = m.tag →
      x.extractLsb' 40 8 = 0 →
      exec (.tgen d h o) s = .next (agentDid u { s.ag with
        pend := s.ag.pend ++ [.s d]
        ready := s.ag.ready ++ [⟨.s d, x.setWidth 2048, BitVec.allOnes 64, false⟩] })) ∧
    (∀ a b, s.ag.poisoned (.s a) = false → s.ag.poisoned (.s b) = false → Runs (.tsetc a b) s →
      claimed (.tsetc a b) false s = some u →
      let n := (s.sReg a).toNat
      let w := s.sReg b
      let v : Meta := ⟨w.extractLsb' 0 16, w.extractLsb' 16 4, w.extractLsb' 20 4, w.getLsbD 24, w.getLsbD 25, w.extractLsb' 32 8⟩
      w.extractLsb' 26 6 = 0 → w.extractLsb' 40 24 = 0 →
      (n < 512 ∧ tagValid v.tag.toNat = true ∨ 512 ≤ n ∧ n < 576 ∧ (v.tag = 0x10 ∨ v.tag = 0x40)) →
      ∃ t, exec (.tsetc a b) s = .next t ∧ t = blockDid u s.ag t.blk ∧
        (∀ r, t.blk.md r = if r = n then v else s.blk.md r) ∧
        (∀ r, (t.blk.tile r).data = (s.blk.tile r).data ∧ (t.blk.tile r).side = (s.blk.tile r).side ∧
          (t.blk.acc r).data = (s.blk.acc r).data) ∧
        t.blk = { s.blk with tiles := t.blk.tiles, accs := t.blk.accs })

/-! ## Vector words -/

namespace Sys2Proof.Machine

/-- The word's only effect is a vector result of latency 1: element e of the n elements of width w is `elem e`, reduced to
its width, and bits above the last are zero (R121). -/
def VectorNow (s : State) (i : Instr) (vd : VReg) (w n : Nat) (elem : Nat → Nat) (srcs : List RegName) : Prop :=
  ∀ u, Runs i s → claimed i false s = some u →
    ∃ t v, exec i s = .next t ∧ Wrote u t (.v vd) v (s.ag.anyPoisoned srcs) Flags.none ∧
      ∀ e, elemOf v w e = if e < n then elem e % 2 ^ w else 0

/-- The word's only effects are a vector result in a latch, visible after `lat` stream cycles with the flags of all its
elements, and the advance of the generator it names (R76, R38, R35). -/
def VectorLater (s : State) (i : Instr) (vd : VReg) (w n lat : Nat) (elem : Nat → Nat × Flags) (srcs : List RegName)
    (m : Option Rm) : Prop :=
  ∀ u, Runs i s → claimed i false s = some u →
    ∃ v, exec i s = .next (latched u (.v vd) v lat (((List.range n).map fun e => (elem e).2).foldl Flags.or Flags.none)
        (s.ag.anyPoisoned srcs) m) ∧
      ∀ e, elemOf v w e = if e < n then (elem e).1 % 2 ^ w else 0

end Sys2Proof.Machine

/-- R123, R76: the arithmetic of the vector half. Each element is the exact result of its own source elements (after FI),
rounded once under the effective mode, or what R28 gives a NaN or an invalid operation; the latency is 4, or 6 for
f64. R124: VABS and VNEG act on the sign bit, after FI has replaced a subnormal by a zero of its sign, and set no
flag. R126: a transcendental of any type completes with a latched result, of latency 8. -/
def Obligations.VectorArithmetic : Prop :=
  (∀ (s : State) (vd va vb : VReg) (m : FMode) (t : VTy),
      let r := rounder s.ag.ctl m.rm
      let a (e : Nat) : Fp := decodeFp t.fmt m.fi (elemOf (s.vReg va) t.bits e)
      let b (e : Nat) : Fp := decodeFp t.fmt m.fi (elemOf (s.vReg vb) t.bits e)
      let c (e : Nat) : Fp := decodeFp t.fmt m.fi (elemOf (s.vReg vd) t.bits e)
      let Word2 (i : Instr) (x : Nat → Val) : Prop := VectorLater s i vd t.bits t.count (if t = .f64 then 6 else 4)
        (fun e => roundElem t.fmt (r.at (vecIdx t.bits e)) m.fo (elementwise t.fmt [a e, b e] (x e))) [.v va, .v vb] (some m.rm)
      let Word3 (i : Instr) (x : Nat → Val) : Prop := VectorLater s i vd t.bits t.count (if t = .f64 then 6 else 4)
        (fun e => roundElem t.fmt (r.at (vecIdx t.bits e)) m.fo (elementwise t.fmt [a e, b e, c e] (x e)))
        [.v va, .v vb, .v vd] (some m.rm)
      Word2 (.vadd vd va vb m t) (fun e => sumVal r.isRdn (a e) (b e)) ∧
      Word2 (.vsub vd va vb m t) (fun e => sumVal r.isRdn (a e) (b e).negate) ∧
      Word2 (.vmul vd va vb m t) (fun e => mulVal (a e) (b e)) ∧
      Word3 (.vfma vd va vb m t) (fun e => fmaVal r.isRdn (a e) (b e) (c e)) ∧
      Word3 (.vfms vd va vb m t) (fun e => fmaVal r.isRdn (a e).negate (b e) (c e)) ∧
      Word2 (.vmin vd va vb m t) (fun e => minVal (a e) (b e)) ∧
      Word2 (.vmax vd va vb m t) (fun e => maxVal (a e) (b e))) ∧
  (∀ (s : State) (vd va : VReg) (m : FMode) (t : VTy),
      let w := t.bits
      let x (e : Nat) : Nat := elemOf (s.vReg va) w e
      let sign (e : Nat) : Nat := x e / 2 ^ (w - 1)
      let mag (e : Nat) : Nat := if m.fi = true ∧ x e / 2 ^ t.fmt.fbits % 2 ^ t.fmt.ebits = 0 then 0 else x e % 2 ^ (w - 1)
      VectorLater s (.vabs vd va m t) vd w t.count (if t = .f64 then 6 else 4) (fun e => (mag e, Flags.none)) [.v va] (some m.rm) ∧
      VectorLater s (.vneg vd va m t) vd w t.count (if t = .f64 then 6 else 4)
        (fun e => (mag e + (1 - sign e) * 2 ^ (w - 1), Flags.none)) [.v va] (some m.rm)) ∧
  ∀ (s u : State) (vd va : VReg) (m : FMode) (t : VTy) (i : Instr),
    i ∈ [Instr.vrcp vd va m t, .vrsq vd va m t, .vsqrt vd va m t, .vex2 vd va m t, .vlg2 vd va m t, .vtanh vd va m t] →
    Runs i s → claimed i false s = some u →
    ∃ v f, exec i s = .next (latched u (.v vd) v 8 f (s.ag.anyPoisoned [.v va]) (some m.rm))

/-- R125: the integer operations, element by element modulo 2^w, and the operations on whole registers. -/
def Obligations.VectorIntegers : Prop :=
  ∀ (s : State) (vd va vb : VReg) (t : VTy),
    let w := t.bits
    let a (e : Nat) : Nat := elemOf (s.vReg va) w e
    let b (e : Nat) : Nat := elemOf (s.vReg vb) w e
    let signed (x : Nat) : Int := if x < 2 ^ (w - 1) then x else (x : Int) - 2 ^ w
    let less (x y : Nat) : Prop := if t = .n32 then x < y else signed x < signed y
    let Elems (i : Instr) (f : Nat → Nat) : Prop := VectorNow s i vd w t.count f [.v va, .v vb]
    let Whole (i : Instr) (v : VWord) (srcs : List RegName) : Prop := ∀ u, Runs i s → claimed i false s = some u →
      ∃ t, exec i s = .next t ∧ Wrote u t (.v vd) v (s.ag.anyPoisoned srcs) Flags.none
    Elems (.viadd vd va vb t) (fun e => a e + b e) ∧
    Elems (.visub vd va vb t) (fun e => a e + 2 ^ w - b e) ∧
    Elems (.vimul vd va vb t) (fun e => a e * b e) ∧
    (∀ f : Nat → Nat, (∀ e, f e = a e ∨ f e = b e) → (∀ e, ¬ less (a e) (f e) ∧ ¬ less (b e) (f e)) →
      Elems (.vimin vd va vb t) f) ∧
    (∀ f : Nat → Nat, (∀ e, f e = a e ∨ f e = b e) → (∀ e, ¬ less (f e) (a e) ∧ ¬ less (f e) (b e)) →
      Elems (.vimax vd va vb t) f) ∧
    Elems (.vshl vd va vb t) (fun e => a e * 2 ^ (b e % w)) ∧
    Elems (.vshr vd va vb t) (fun e => a e / 2 ^ (b e % w)) ∧
    Elems (.vsar vd va vb t) (fun e => (signed (a e) / 2 ^ (b e % w) + 2 ^ w).toNat) ∧
    Whole (.vand vd va vb) (s.vReg va &&& s.vReg vb) [.v va, .v vb] ∧
    Whole (.vor vd va vb) (s.vReg va ||| s.vReg vb) [.v va, .v vb] ∧
    Whole (.vxor vd va vb) (s.vReg va ^^^ s.vReg vb) [.v va, .v vb] ∧
    Whole (.vmov vd va) (s.vReg va) [.v va]

/-- R126, R127: the transcendentals. A NaN propagates by R28; every other element gives the intermediate of its function,
rounded to the type under the mode; the latency is 8. The rows ±0, ±∞, finite < 0 and +1 of R127 are spelled out, zeros
and ones of every representation. -/
def Obligations.Transcendentals : Prop :=
  (∀ (s : State) (vd va : VReg) (m : FMode) (t : VTy),
    let r := rounder s.ag.ctl m.rm
    let x (e : Nat) : Nat := elemOf (s.vReg va) t.bits e
    let a (e : Nat) : Fp := decodeFp t.fmt m.fi (x e)
    let Fn (i : Instr) (f : TransFn) : Prop := VectorLater s i vd t.bits t.count 8
      (fun e => roundElem t.fmt (r.at (vecIdx t.bits e)) m.fo ((firstNan t.fmt [a e]).getD (f (x e) (a e)))) [.v va] (some m.rm)
    Fn (.vrcp vd va m t) rcpFn ∧ Fn (.vrsq vd va m t) rsqFn ∧ Fn (.vsqrt vd va m t) sqrtFn ∧
    Fn (.vex2 vd va m t) ex2Fn ∧ Fn (.vlg2 vd va m t) lg2Fn ∧ Fn (.vtanh vd va m t) tanhFn) ∧
  ∀ (bits : Nat) (n : Bool),
    let nan5 : Val × Flags := (.gen 5, Flags.none)
    (∀ e : Int,
      rcpFn bits (.fin ⟨n, 0, e⟩) = (.inf n, dzFlag) ∧ rsqFn bits (.fin ⟨n, 0, e⟩) = (.inf n, Flags.none) ∧
      sqrtFn bits (.fin ⟨n, 0, e⟩) = (.fin ⟨n, 0, 0⟩, Flags.none) ∧
      ex2Fn bits (.fin ⟨n, 0, e⟩) = (.fin ⟨false, 1, 0⟩, Flags.none) ∧
      lg2Fn bits (.fin ⟨n, 0, e⟩) = (.inf true, dzFlag) ∧ tanhFn bits (.fin ⟨n, 0, e⟩) = (.fin ⟨n, 0, 0⟩, Flags.none)) ∧
    (∀ k : Nat, k ≤ 52 → ∀ f ∈ [(rcpFn, (1 : ℚ)), (rsqFn, 1), (sqrtFn, 1), (ex2Fn, 2), (lg2Fn, 0)],
      ∃ y : Dy, f.1 bits (.fin ⟨false, 2 ^ k, -(k : Int)⟩) = (.fin y, Flags.none) ∧ y.neg = false ∧ y.val = f.2) ∧
    rcpFn bits (.inf n) = (.fin ⟨n, 0, 0⟩, Flags.none) ∧
    rsqFn bits (.inf n) = (if n then nan5 else (.fin ⟨false, 0, 0⟩, Flags.none)) ∧
    sqrtFn bits (.inf n) = (if n then nan5 else (.inf false, Flags.none)) ∧
    ex2Fn bits (.inf n) = (if n then (.fin ⟨false, 0, 0⟩, Flags.none) else (.inf false, Flags.none)) ∧
    lg2Fn bits (.inf n) = (if n then nan5 else (.inf false, Flags.none)) ∧
    tanhFn bits (.inf n) = (.fin ⟨n, 1, 0⟩, Flags.none) ∧
    ∀ (k : Nat) (e : Int), 0 < k →
      rsqFn bits (.fin ⟨true, k, e⟩) = nan5 ∧ sqrtFn bits (.fin ⟨true, k, e⟩) = nan5 ∧ lg2Fn bits (.fin ⟨true, k, e⟩) = nan5

/-- R136, R137, R142, R146: selection and movement of lanes, and the lane masks. R146, R76: lane-mask logic and the moves
between lane masks and scalars, of latency 1. -/
def Obligations.LanesAndMasks : Prop :=
  (∀ (s : State) (vd va vb : VReg) (kc : KReg) (t : VTy),
      let A (i : Nat) : Nat := elemOf (s.vReg va) 32 i
      let B (i : Nat) : Nat := elemOf (s.vReg vb) 32 i
      let on (i : Nat) : Bool := (s.kReg kc).getLsbD i
      VectorNow s (.vsel vd va vb kc) vd 32 64 (fun i => if on i then A i else B i) [.v va, .v vb, .k kc] ∧
      (∀ n, VectorNow s (.vbcst vd t (.reg n)) vd t.bits t.count (fun _ => (s.sReg n).toNat) [.s n]) ∧
      (∀ x, VectorNow s (.vbcst vd t (.lit x)) vd t.bits t.count (fun _ => x.toNat) []) ∧
      (∀ (n : SReg) (lane : Fin 64) (u : State) (x : Word), Runs (.vext n va t lane) s →
        claimed (.vext n va t lane) false s = some u →
        (match t with
          | .f64 => x.toNat = elemOf (s.vReg va) 64 lane.val
          | .i32 => x.toInt = if A lane.val < 2 ^ 31 then (A lane.val : Int) else (A lane.val : Int) - 2 ^ 32
          | _ => x.toNat = A lane.val) →
        ∃ y, exec (.vext n va t lane) s = .next y ∧
          Wrote u y (.s n) (x.setWidth 2048) (s.ag.anyPoisoned [.v va]) Flags.none) ∧
      (∀ start : BitVec 20, VectorNow s (.vidx vd t start) vd t.bits t.count
        (fun e => ((start.toInt + e) % 2 ^ t.bits).toNat) []) ∧
      VectorLater s (.vperm vd va vb) vd 32 64 2 (fun i => (A (B i % 64), Flags.none)) [.v va, .v vb] none ∧
      (∀ r : Fin 64, VectorLater s (.vrotm vd va kc r) vd 32 64 2
        (fun i => (if on i then A ((i + 64 - r.val) % 64) else elemOf (s.vReg vd) 32 i, Flags.none)) [.v va, .k kc, .v vd] none)) ∧
  (∀ (s : State) (d a b : KReg) (n : SReg),
      let Mask (i : Instr) (x : Word) (srcs : List RegName) : Prop := Runs i s →
        ∃ t, exec i s = .next t ∧ Wrote s t (.k d) (x.setWidth 2048) (s.ag.anyPoisoned srcs) Flags.none
      Mask (.kand d a b) (s.kReg a &&& s.kReg b) [.k a, .k b] ∧
      Mask (.kor d a b) (s.kReg a ||| s.kReg b) [.k a, .k b] ∧
      Mask (.kxor d a b) (s.kReg a ^^^ s.kReg b) [.k a, .k b] ∧
      Mask (.knot d a) (~~~s.kReg a) [.k a] ∧
      Mask (.kmovToMask d n) (s.sReg n) [.s n] ∧
      ScalarResult s (.kmovFromMask n a) n (s.kReg a) [.k a] ∧
      ScalarResult s (.kcnt n a) n (BitVec.ofNat 64 ((List.range 64).map fun j => ((s.kReg a).getLsbD j).toNat).sum) [.k a])

/-- R135: VCMP writes a lane mask, in which every lane of an element holds its result, and sets NV where the condition is
an ordered one and an operand is a NaN, or an operand is signalling.
R142: VTOPK orders the 64 lanes by key, the larger first, an FP32 NaN below every number, and equal keys by lane; it writes
the first k payloads of vb and all ones above them. -/
def Obligations.CompareAndTopK : Prop :=
  (∀ (s u : State) (vd : KReg) (va vb : VReg) (fi : Bool) (t : VTy) (c : Cond) (x : Word),
     t = .f32 ∨ t = .i32 ∨ t = .n32 ∨ t = .f64 →
     let w := t.bits
     let isFloat := t = .f32 ∨ t = .f64
     let a (e : Nat) : Nat := elemOf (s.vReg va) w e
     let b (e : Nat) : Nat := elemOf (s.vReg vb) w e
     let num (y : Nat) : Int := if t = .i32 ∧ 2 ^ 31 ≤ y then (y : Int) - 2 ^ 32 else y
     let fa (e : Nat) : Fp := decodeFp t.fmt fi (a e)
     let fb (e : Nat) : Fp := decodeFp t.fmt fi (b e)
     let lt (e : Nat) : Prop := if isFloat then (fa e).lt (fb e) = true else num (a e) < num (b e)
     let gt (e : Nat) : Prop := if isFloat then (fb e).lt (fa e) = true else num (b e) < num (a e)
     let un (e : Nat) : Prop := isFloat ∧ ((fa e).isNan = true ∨ (fb e).isNan = true)
     let holds (e : Nat) : Prop := match c with
       | .eq => ¬ un e ∧ ¬ lt e ∧ ¬ gt e
       | .ne => un e ∨ lt e ∨ gt e
       | .lt => ¬ un e ∧ lt e
       | .le => ¬ un e ∧ ¬ gt e
       | .gt => ¬ un e ∧ gt e
       | .ge => ¬ un e ∧ ¬ lt e
       | .un => un e
       | .ord => ¬ un e
     let signals (e : Nat) : Prop := isFloat ∧ (nanSignals (fa e) = true ∨ nanSignals (fb e) = true ∨
       (c = .lt ∨ c = .le ∨ c = .gt ∨ c = .ge) ∧ un e)
     (∀ i < 64, (x.getLsbD i = true ↔ holds (i / (w / 32)))) →
     Runs (.vcmp vd va vb fi t c) s → claimed (.vcmp vd va vb fi t c) false s = some u →
     ∃ f, exec (.vcmp vd va vb fi t c) s = .next (latched u (.k vd) (x.setWidth 2048) (if t = .f64 then 6 else 4) f
         (s.ag.anyPoisoned [.v va, .v vb]) none) ∧
       (f = Flags.invalid ∧ (∃ e < t.count, signals e) ∨ f = Flags.none ∧ ¬ ∃ e < t.count, signals e)) ∧
  (∀ (s : State) (vd va vb : VReg) (t : VTy) (k : Fin 128) (order : List Nat),
     t = .f32 ∨ t = .i32 ∨ t = .n32 →
     let x (i : Nat) : Nat := elemOf (s.vReg va) 32 i
     let num (i : Nat) : Int := if t = .i32 ∧ 2 ^ 31 ≤ x i then (x i : Int) - 2 ^ 32 else x i
     let key (i : Nat) : Fp := decodeFp fp32 false (x i)
     let above (i j : Nat) : Prop := if t = .f32 then (key i).isNan = false ∧ ((key j).isNan = true ∨ (key j).lt (key i) = true)
       else num j < num i
     order.Perm (List.range 64) →
     order.Pairwise (fun i j => above i j ∨ ¬ above j i ∧ i < j) →
     VectorLater s (.vtopk vd va vb t k) vd 32 64 8
       (fun i => (if i < k.val then elemOf (s.vReg vb) 32 (order.getD i 0) else 0xFFFFFFFF, Flags.none)) [.v va, .v vb] none)

/-- R138, R139: VCVT converts the first n elements, n the smaller count of the two widths, and zeroes the rest. R140, R141:
integers: VRED leaves the combination of all elements in element 0 and zero above it; VSCAN leaves in each element the
combination of the elements up to it. Floating-point types: the result and its flags are latched, with the latency of
R141. The result of VRED is that of the halving tree, each step rounded to the working format under its own rounding
number and the last value to the type; that of VSCAN follows the ascending order. R29: a NaN among the contributors gives
a generated NaN of cause 1, an invalid operation one of cause 3, and both set NV. -/
def Obligations.ConversionsAndReductions : Prop :=
  ((∀ (s : State) (vd va : VReg) (m : FMode) (t : VTy) (code : Fin 16) (sat : Bool),
     let src := (cvtFormats t code sat).1
     let dst := (cvtFormats t code sat).2
     VectorLater s (.vcvt vd va m t code sat) vd dst.bits (min (2048 / src.bits) (2048 / dst.bits))
       (if t = .f64 ∨ code = 7 then 6 else 4)
       (fun e => convertElem src dst ((rounder s.ag.ctl m.rm).at (vecIdx dst.bits e)) m.fi m.fo (sat && code.val != 15)
         (elemOf (s.vReg va) src.bits e)) [.v va] (some m.rm))) ∧
  ((∀ (s : State) (vd va : VReg) (m : FMode) (t : VTy) (op : RedOp) (f : Nat → Nat),
       t = .i32 ∨ t = .n32 ∨ t = .i16 ∨ t = .i8 →
       let w := t.bits
       let a (e : Nat) : Nat := elemOf (s.vReg va) w e
       let num (y : Nat) : Int := if t ≠ .n32 ∧ 2 ^ (w - 1) ≤ y then (y : Int) - 2 ^ w else y
       (∀ e < t.count, match op with
         | .add => f e = ((List.range (e + 1)).map a).sum % 2 ^ w
         | .min => (∃ j ≤ e, f e = a j) ∧ ∀ j ≤ e, num (f e) ≤ num (a j)
         | .max => (∃ j ≤ e, f e = a j) ∧ ∀ j ≤ e, num (a j) ≤ num (f e)
         | .and => f e = ((List.range (e + 1)).map a).foldl (· &&& ·) (2 ^ w - 1)
         | .or => f e = ((List.range (e + 1)).map a).foldl (· ||| ·) 0
         | .xor => f e = ((List.range (e + 1)).map a).foldl (· ^^^ ·) 0) →
       VectorLater s (.vred vd va m t op) vd w 1 3 (fun _ => (f (t.count - 1), Flags.none)) [.v va] (some m.rm) ∧
       VectorLater s (.vscan vd va m t op) vd w t.count 4 (fun e => (f e, Flags.none)) [.v va] (some m.rm)) ∧
   (∀ (s u : State) (vd va : VReg) (m : FMode) (t : VTy) (op : RedOp),
       t = .f32 ∨ t = .bf16 ∨ t = .f16 ∨ t = .f64 →
       let r := rounder s.ag.ctl m.rm
       (Runs (.vred vd va m t op) s → claimed (.vred vd va m t op) false s = some u →
         exec (.vred vd va m t op) s = .next (latched u (.v vd) (redElems t m r op (s.vReg va)).1 (if t = .f64 then 12 else 10)
           (redElems t m r op (s.vReg va)).2 (s.ag.anyPoisoned [.v va]) (some m.rm))) ∧
       (Runs (.vscan vd va m t op) s → claimed (.vscan vd va m t op) false s = some u →
         exec (.vscan vd va m t op) s = .next (latched u (.v vd) (scanElems t m r op (s.vReg va)).1 12
           (scanElems t m r op (s.vReg va)).2 (s.ag.anyPoisoned [.v va]) (some m.rm))))) ∧
  ∀ (t : VTy) (m : FMode) (r : Rounder) (op : RedOp) (v : VWord),
    t = .f32 ∨ t = .bf16 ∨ t = .f16 ∨ t = .f64 → op = .add ∨ op = .min ∨ op = .max →
    let work := if t = .f64 then fp64 else fp32
    let src (e : Nat) : Fp := decodeFp t.fmt m.fi (elemOf v t.bits e)
    let Op (a b : Fp) : Val := match op with
      | .add => sumVal r.isRdn a b
      | .min => minVal a b
      | _ => maxVal a b
    let Step (a b : Fp) (idx : Nat) (x : Fp) (f : Flags) : Prop :=
      (∀ c, Op a b ≠ .gen c) ∧ x = decodeFp work false (putVal work (r.at idx) m.fo false (Op a b)).1 ∧
        f = (putVal work (r.at idx) m.fo false (Op a b)).2
    let all (l : List Flags) : Flags := l.foldl Flags.or Flags.none
    (let levels := Nat.log2 t.count
     ((∃ e < t.count, (src e).isNan = true) → redElems t m r op v = (ofElems t.bits [genNan t.fmt 1], Flags.invalid)) ∧
     ∀ (x : Nat → Nat → Fp) (f : Nat → Nat → Flags), (∀ e < t.count, (src e).isNan = false) → (∀ e, x 0 e = src e) →
       let half (q : Nat) : Nat := t.count / 2 ^ (q + 1)
       let Level (q : Nat) : Prop := ∀ e < half q,
         Step (x q e) (x q (e + half q)) (vecIdx t.bits e + q * 2 ^ 32) (x (q + 1) e) (f q e)
       ((∀ q < levels, Level q) →
         let last := putVal t.fmt (r.at (levels * 2 ^ 32)) m.fo false (x levels 0).toVal
         redElems t m r op v = (ofElems t.bits [last.1],
           (all ((List.range levels).flatMap fun q => (List.range (half q)).map (f q))).or last.2)) ∧
       ∀ q < levels, (∀ j < q, Level j) → (∃ e < half q, ∃ c, Op (x q e) (x q (e + half q)) = .gen c) →
         redElems t m r op v = (ofElems t.bits [genNan t.fmt 3], Flags.invalid)) ∧
    ∀ (run : Nat → Fp) (f : Nat → Flags), run 0 = src 0 → f 0 = Flags.none →
      let Reached (e : Nat) : Prop := (∀ j ≤ e, (src j).isNan = false) ∧
        ∀ j < e, Step (run j) (src (j + 1)) (vecIdx t.bits (j + 1)) (run (j + 1)) (f (j + 1))
      let out (e : Nat) : Nat × Flags := putVal t.fmt (r.at (vecIdx t.bits e + 2 ^ 32)) m.fo false (run e).toVal
      let res := scanElems t m r op v
      (∀ e < t.count, Reached e → elemOf res.1 t.bits e = (out e).1 % 2 ^ t.bits) ∧
      (Reached (t.count - 1) → res.2 = all ((List.range t.count).map fun e => (f e).or (out e).2)) ∧
      (∀ e < t.count, (∃ j ≤ e, (src j).isNan = true) → elemOf res.1 t.bits e = genNan t.fmt 1 ∧ res.2.nv = true) ∧
      ∀ e < t.count, (∀ j ≤ e, (src j).isNan = false) →
        (∃ j < e, Reached j ∧ ∃ c, Op (run j) (src (j + 1)) = .gen c) → elemOf res.1 t.bits e = genNan t.fmt 3 ∧ res.2.nv = true

/-- R121, R129, R130: a row access. With a clean base and mask and a lane enabled, VLD, VLDS and VST issue one access of
the 256-byte row that holds the address, under the mask and with the data as they are now; a load marks its
destination. With no lane enabled they only issue. A failed translation raises its cause with the address, but a VLDS
delivers a poisoned register of zeros. R132, R175: VGATH and VSCAT issue from lane PIDX<5:0> on. With an enabled lane
left, the word becomes the agent's long instruction, with its base, indices, mask and data captured, at the first such
lane; with none left it is complete, and PIDX is 0. -/
def Obligations.VectorAccesses : Prop :=
  (∀ (s u : State) (v : VReg) (base : SReg) (k : KReg) (off : BitVec 27),
      let ea : Word := s.sReg base + off.signExtend 64
      let mask := s.kReg k
      let load : AccessKind := .vload v mask (s.ag.poisoned (.v v) && mask != BitVec.allOnes 64)
      let clean := s.ag.poisoned (.s base) = false ∧ s.ag.poisoned (.k k) = false
      let Issues (i : Instr) (use : Use) (kind : AccessKind) (marks : List RegName) : Prop :=
        clean → Runs i s → claimed i false s = some u →
        (mask = 0 → exec i s = .next (agentDid u s.ag)) ∧
        (∀ l, mask ≠ 0 → translate u u.blk ea use = .ok l → exec i s = .next (agentDid u { s.ag with
          pend := s.ag.pend ++ marks
          accs := s.ag.accs ++ [⟨kind, l.alignDown 256⟩] }))
      let Raises (i : Instr) (use : Use) : Prop := clean → Runs i s → claimed i false s = some u →
        ∀ c, mask ≠ 0 → translate u u.blk ea use = .fault c → exec i s = .next (u.raise c ea)
      Issues (.vld v base k off) .load load [.v v] ∧
      Issues (.vlds v base k off) .load load [.v v] ∧
      Issues (.vst v base k off) .store (.vstore (s.vReg v) mask (s.ag.poisoned (.v v))) [] ∧
      Raises (.vld v base k off) .load ∧
      Raises (.vst v base k off) .store ∧
      (clean → Runs (.vlds v base k off) s → claimed (.vlds v base k off) false s = some u →
        ∀ c, mask ≠ 0 → translate u u.blk ea .load = .fault c →
        exec (.vlds v base k off) s = .next (agentDid u { s.ag with
          pend := s.ag.pend ++ [.v v]
          ready := s.ag.ready ++ [⟨.v v, 0, BitVec.allOnes 64, true⟩] }))) ∧
  (∀ (s u : State) (v vi : VReg) (base : SReg) (k : KReg) (off : BitVec 27) (i : Instr) (lane : Nat),
      i = .vgath v vi base k off ∨ i = .vscat v vi base k off →
      let load := i = .vgath v vi base k off
      let start := s.ag.ctl.prog.toNat % 64
      let mask := s.kReg k
      let old := s.ag.poisoned (.v v)
      s.ag.poisoned (.s base) = false → s.ag.poisoned (.v vi) = false → s.ag.poisoned (.k k) = false →
      Runs i s → claimed i false s = some u →
      ((∀ j, start ≤ j → mask.getLsbD j = false) →
        exec i s = .next (agentDid u { s.ag with ctl := { s.ag.ctl with prog := 0 } })) ∧
      (start ≤ lane → lane < 64 → mask.getLsbD lane = true → (∀ j, start ≤ j → j < lane → mask.getLsbD j = false) →
        exec i s = .next { u with
          ag := { s.ag with
            pend := s.ag.pend ++ (if load then [.v v] else [])
            long := some {
              pc := s.cur.pc
              next := s.cur.next
              w := s.cur.hdr.w.val
              rep := s.ag.rep.isSome
              i := i
              unit := lane
              last := 63
              base := s.sReg base + off.signExtend 64
              stride := 0
              enables := 0
              cols := 0
              reg := v.val
              gen := 0
              idx := (s.vReg vi).setWidth 16384
              data := (s.vReg v).setWidth 65536
              tag := 0
              mask := mask
              poison := if load then old && (start != 0 || mask != BitVec.allOnes 64) else old
              advance := []
              first := none
              begun := false
              tile := Tile.reset } }
          cur := { s.cur with disp := .walking } }))

/-- R143 to R145: ring compaction. On a ring whose descriptor passes its checks, with every earlier access performed, VPUSHC
writes the enabled lanes of va in ascending order from HEAD on, poisoned with va, and advances HEAD; VPOPC delivers up to
64 elements from TAIL on, all ones above them, poisoned where an element is, and advances TAIL. No byte outside the ring
and the count changes. -/
def Obligations.RingCompaction : Prop :=
  ∀ (s u : State) (v : VReg) (k : KReg) (ty : VTy) (n : SReg) (r : Ring),
    s.ag.accs = [] → s.ag.poisoned (.s n) = false → checkRing s.blk (s.sReg n) = .ok r → s.blk.pad.wf = true →
    r.desc + 32 ≤ r.slot0 ∨ r.slot0 + 4 * r.cap ≤ r.desc →
    let pad := s.blk.pad
    let mask := s.kReg k
    let below (i : Nat) : Nat := ((List.range i).filter mask.getLsbD).length
    let count := (r.head - r.tail).toNat
    let slot (m : Word) : Nat := r.slot0 + 4 * (m.toNat % r.cap)
    (s.ag.poisoned (.k k) = false → Runs (.vpushc v k ty n) s → claimed (.vpushc v k ty n) false s = some u →
      below 64 ≤ r.cap - count →
      ∃ t, exec (.vpushc v k ty n) s = .next t ∧ t = blockDid u s.ag { s.blk with pad := t.blk.pad } ∧
        (below 64 = 0 → t.blk.pad = pad) ∧
        (0 < below 64 → t.blk.pad.readLE (r.desc + 16) 8 = (r.head + BitVec.ofNat 64 (below 64)).toNat) ∧
        (∀ i < 64, mask.getLsbD i = true →
          t.blk.pad.readLE (slot (r.head + BitVec.ofNat 64 (below i))) 4 = elemOf (s.vReg v) 32 i ∧
          t.blk.pad.granule (slot (r.head + BitVec.ofNat 64 (below i)) / 4) = s.ag.poisoned (.v v)) ∧
        ∀ a, (a < r.desc + 16 ∨ r.desc + 24 ≤ a) → (∀ j < below 64, a / 4 ≠ slot (r.head + BitVec.ofNat 64 j) / 4) →
          t.blk.pad.byte a = pad.byte a) ∧
    (Runs (.vpopc v ty n) s → claimed (.vpopc v ty n) false s = some u →
      let c := min 64 count
      ∃ t x, exec (.vpopc v ty n) s = .next t ∧
        t = blockDid u { s.ag with
            pend := s.ag.pend ++ [.v v]
            ready := s.ag.ready ++ [⟨.v v, x, BitVec.allOnes 64,
              (List.range c).any fun i => pad.granule (slot (r.tail + BitVec.ofNat 64 i) / 4)⟩] }
          { s.blk with pad := t.blk.pad } ∧
        (∀ i < 64, elemOf x 32 i = if i < c then pad.readLE (slot (r.tail + BitVec.ofNat 64 i)) 4 else 0xFFFFFFFF) ∧
        (c = 0 → t.blk.pad = pad) ∧
        (0 < c → t.blk.pad.readLE (r.desc + 24) 8 = (r.tail + BitVec.ofNat 64 c).toNat) ∧
        ∀ a, (a < r.desc + 24 ∨ r.desc + 32 ≤ a) → t.blk.pad.byte a = pad.byte a)

/-! ## TILE words -/

/-- R163 to R166, R169, R185: what the tile issue move of a word leaves. Every register read counts one read, up to 15. The
destination has the new generation, its quota, no reads, the void and poison bits, and the new tag unless it is void; a
void write leaves data and side-band, and so does one whose data comes later. Other registers keep data, side-band and
metadata. Each handle that carries a post-advance moves once. The unit holds the word's job, and the stream no longer waits
for it; a void item sets SSTAT.VS, and nothing else changes. R164: the move does not wait for data. A word that reads a register whose data is still being
produced takes the same move, leaves its destination's data to come, and joins the words that wait for data.
R153, R165, R166: a TILE word whose destination is an accumulator pair writes the metadata of both accumulators, each
with its half of the data; no other register's data or side-band changes, and of the others only the items read count
their reads. -/
def Obligations.TileIssueMove : Prop :=
  ((∀ (i : Instr) (s u : State) (m : Option TMode) (r : TileRes) (v : Bool),
     laterMode i = some m → Runs i s → claimed i false s = some u → Ready i u → ¬ Produced i u →
     let x : Word := match m with | some tm => u.sReg tm.mask | none => 0
     let nt : Bool := match m with | some tm => tm.nt | none => false
     let wide : Bool := match i with | .tcvt .. | .tcvtPageAppend .. => true | _ => false
     (∀ tm, m = some tm → u.ag.poisoned (.s tm.mask) = false ∧ x &&& ~~~(if onMatrix i then 0xFFFFFF#64 else 0xFFFF#64) = 0 ∧
       (x.extractLsb' 0 8).toNat ≤ 32 ∧ (wide = true ∨ (x.extractLsb' 8 8).toNat ≤ 32) ∧ pastRowOfA i (maskCounts x) u = false) →
     tileComp i (maskCounts x) (itemsOf u.ag i) u = .res r v →
     exec i s = .next (tileWaiting i u nt x (v || (itemsOf u.ag i).void u.blk) r) ∧
     ∀ d, (itemsOf u.ag i).dst = some d → (d.r < 576 → r.pair = false →
       let t := tileWaiting i u nt x (v || (itemsOf u.ag i).void u.blk) r
       t.blk.filling d.r = true ∧ (t.blk.md d.r).wc = d.x ∧ (t.blk.md d.r).rc = 0)) ∧
   ∀ (i : Instr) (u : State) (void : Bool) (r : TileRes) (hold : Bool) (report : Option NanReport),
     Ready i u → u.cur.w < 4 → r.pair = false →
     let it := itemsOf u.ag i
     let t := tileMoved i u void r hold report
     let read (n : Nat) : Bool := it.src.any fun p => p.r == n
     let dest (n : Nat) : Bool := it.dst.any fun d => d.r == n
     (∀ n, dest n = false → t.blk.md n =
       if read n then { u.blk.md n with rc := BitVec.ofNat 4 (min ((u.blk.md n).rc.toNat + 1) 15) } else u.blk.md n) ∧
     (∀ n, dest n = false → (t.blk.tile n).data = (u.blk.tile n).data ∧ (t.blk.tile n).side = (u.blk.tile n).side) ∧
     (∀ n, dest (n + 512) = false → (t.blk.acc n).data = (u.blk.acc n).data) ∧
     (∀ d, it.dst = some d →
       t.blk.md d.r = { wc := d.x, q := d.q, rc := 0, void := void, poison := it.poison u.blk || r.poison,
                        tag := if void then (u.blk.md d.r).tag else r.tag.getD (u.blk.md d.r).tag } ∧
       (d.r < 512 → (t.blk.tile d.r).filling = r.late ∧ (t.blk.tile d.r).data =
           (if void || r.late then (u.blk.tile d.r).data else (r.data.map (BitVec.ofNat 16384)).getD (u.blk.tile d.r).data) ∧
         (t.blk.tile d.r).side = if void || r.late then (u.blk.tile d.r).side else r.side.getD (u.blk.tile d.r).side) ∧
       (512 ≤ d.r → (t.blk.acc (d.r - 512)).filling = r.late ∧ (t.blk.acc (d.r - 512)).data =
         if void || r.late then (u.blk.acc (d.r - 512)).data else (r.data.map (BitVec.ofNat 32768)).getD (u.blk.acc (d.r - 512)).data)) ∧
     (∀ h, t.ag.h[h] = if h ∈ advancesOf i then (u.ag.h[h]).advance else u.ag.h[h]) ∧
     t.core u.blk.core = { (u.core u.blk.core).setUnit (onMatrix i) (some (tileJob i u void r hold report)) with
       waiters := (u.core u.blk.core).waiters.filter fun x => !(x.block == u.cur.b && x.agent == u.cur.w) } ∧
     (∀ c, c ≠ u.blk.core → t.core c = u.core c) ∧
     t = { u with
       ag := ({ u.ag with h := t.ag.h, ctl := { u.ag.ctl with vs := u.ag.ctl.vs || void } } : Agent).advanceGen (rmOf i)
       blk := { u.blk with tiles := t.blk.tiles, accs := t.blk.accs }
       cores := t.cores
       cur := { u.cur with disp := .issued } }) ∧
  (∀ (i : Instr) (u : State) (void : Bool) (r : TileRes) (hold : Bool) (report : Option NanReport) (d : Opnd),
     let it := itemsOf u.ag i
     let t := tileMoved i u void r hold report
     let n := d.r - 512
     Ready i u → r.pair = true → it.dst = some d → 512 ≤ d.r → d.r < 575 →
     let md : Meta := { wc := d.x, q := d.q, rc := 0, void := void, poison := it.poison u.blk || r.poison,
                        tag := if void then (u.blk.md d.r).tag else r.tag.getD (u.blk.md d.r).tag }
     t.blk.acc n = ⟨md, if void || r.late then (u.blk.acc n).data
       else (r.data.map (BitVec.ofNat 32768)).getD (u.blk.acc n).data, r.late, none⟩ ∧
     t.blk.acc (n + 1) = ⟨md, if void || r.late then (u.blk.acc (n + 1)).data
       else (r.data.map fun x => BitVec.ofNat 32768 (x / 2 ^ 32768)).getD (u.blk.acc (n + 1)).data, r.late, none⟩ ∧
     (∀ k, k ≠ n → k ≠ n + 1 → (t.blk.acc k).data = (u.blk.acc k).data) ∧
     (∀ k, (t.blk.tile k).data = (u.blk.tile k).data ∧ (t.blk.tile k).side = (u.blk.tile k).side) ∧
     (∀ k, k ≠ d.r → k ≠ d.r + 1 → t.blk.md k = if it.src.any fun p => p.r == k then
       { u.blk.md k with rc := BitVec.ofNat 4 (min ((u.blk.md k).rc.toNat + 1) 15) } else u.blk.md k))

/-- R187, R188, R193: the words that move or rearrange a tile. TZERO writes zeros, TMOV copies data, side-band and tag,
TFROMV packs eight vector registers, TTRN transposes 16-bit elements; each takes its tile issue move with that result.
TTOV delivers the rows of a tile to eight vector registers, which carry marks until the data is complete. R189: TSTS
reads its item in the tile issue move and stores the image of nine rows in one access; a void item stores nothing.
TLDS checks its rows and the image's tag, writes the new generation with that tag, and holds the stream while it fills
the item, a row in each unit. -/
def Obligations.TileMoves : Prop :=
  (∀ (s u : State) (d a : TileOp) (z : Bool) (i : Instr),
      Runs i s → claimed i false s = some u → Ready i u → Produced i u →
      let it := itemsOf u.ag i
      let A := it.a.r
      let m := u.blk.md A
      let Moves (r : TileRes) : Prop := exec i s = .next (tileMoved i u (it.void u.blk) r false none)
      (i = .tzero d → Moves { TileRes.plain with
        data := some 0
        side := some 0
        tag := if it.d.r < 512 then none else some 0x10 }) ∧
      (i = .tmov d a → A < 512 → m.void = true ∨ tagValid m.tag.toNat = true → Moves { TileRes.plain with
        data := some (u.blk.tile A).data.toNat
        side := some (u.blk.tile A).side
        tag := some m.tag }) ∧
      (i = .tmov d a → 512 ≤ A → m.void = true ∨ m.tag = 0x10 → Moves { TileRes.plain with
        data := some (u.blk.acc (A - 512)).data.toNat
        tag := some 0x10 }) ∧
      (i = .tfromv d z → ∃ x : Nat,
        (∀ j < 8, x / 2 ^ (2048 * j) % 2 ^ 2048 = (s.vReg (Fin.ofNat 16 (8 * z.toNat + j))).toNat) ∧ x < 2 ^ 16384 ∧
        Moves { TileRes.plain with
          data := some x
          poison := s.ag.anyPoisoned ((List.range 8).map fun j => .v (Fin.ofNat 16 (8 * z.toNat + j))) }) ∧
      (i = .ttrn d a → m.void = true ∨ m.tag = 0x20 ∨ m.tag = 0x30 → ∃ x : Nat, x < 2 ^ 16384 ∧
        (∀ row < 32, ∀ col < 32, rawElem x 16 (32 * row + col) = rawElem (u.blk.tile A).data.toNat 16 (32 * col + row)) ∧
        Moves { TileRes.plain with
          data := some x
          side := some 0
          tag := some m.tag }) ∧
      (i = .ttov a z → m.poison = false → m.void = true ∨ tagValid m.tag.toNat = true →
        let results : List Result := if m.void then [] else (List.range 8).map fun j =>
          ⟨.v (Fin.ofNat 16 (8 * z.toNat + j)), (u.blk.tile A).data.extractLsb' (2048 * j) 2048, BitVec.allOnes 64, false⟩
        let t := commitItems it false m.void false TileRes.plain (advancesOf i) u
        exec i s = .next (occupy i { plainJob it u with results := results }
          { t with
            ag := { t.ag with pend := u.ag.pend ++ results.map (·.reg) }
            cur := { u.cur with disp := .issued } }))) ∧
  (∀ (s u : State) (o : TileOp) (c : SReg) (row : Nat),
      (s.sReg c).toNat = row → s.ag.poisoned (.s c) = false → row + 9 ≤ s.blk.sprows → row ≤ 8183 →
      (∀ i, i = .tsts o c → Runs i s → claimed i false s = some u → Ready i u → Produced i u →
        let it := itemsOf u.ag i
        let x := u.blk.tile it.a.r
        let t := occupy i (plainJob it u) (commitItems it false x.md.void false TileRes.plain (advancesOf i) u)
        (u.blk.md it.a.r).poison = false → it.a.r < 512 → x.md.void = true ∨ tagValid x.md.tag.toNat = true →
        exec i s = .next { t with
          ag := { t.ag with accs := u.ag.accs ++ (if x.md.void then [] else
            [⟨.rows (BitVec.ofNat 18432 (x.data.toNat + 2 ^ 16384 * x.side.toNat + 2 ^ 17408 * x.md.tag.toNat)), .pad (256 * row)⟩]) }
          cur := { u.cur with disp := .issued } }) ∧
      ∀ i, i = .tlds o c → Runs i s → claimed i false s = some u → Ready i u → s.ag.ctl.prog = 0 →
        let it := itemsOf u.ag i
        let tag := u.blk.pad.byte (256 * (row + 8) + 128)
        tagValid tag.toNat = true → it.d.r < 512 →
        ∃ t l, exec i s = .next t ∧ t.ag.long = some l ∧
          l.i = i ∧ l.unit = 0 ∧ l.last = 8 ∧ l.base.toNat = row ∧ l.reg = it.d.r ∧ l.gen = it.d.x ∧ l.advance = advancesOf i ∧
          l.begun = false ∧ l.tile = t.blk.tile it.d.r ∧
          (t.blk.tile it.d.r).filling = true ∧ (t.blk.tile it.d.r).md = ⟨it.d.x, it.d.q, 0, false, false, tag⟩ ∧
          (∀ n, n ≠ it.d.r → t.blk.tile n = u.blk.tile n) ∧
          t = { occupy i (plainJob it u) u with
            ag := { u.ag.setRecord none with long := some l }
            blk := { u.blk with tiles := t.blk.tiles }
            cur := { u.cur with disp := .walking } })

/-- R190, R191, R228, R175: TSTA captures an accumulator and TGATH an index tile in their tile issue moves, and hold the
stream while their rows are stored or gathered; the first row's places are known before the move. -/
def Obligations.RowStoresAndGathers : Prop :=
  ∀ (s u : State) (d a : TileOp) (c k : SReg) (la lb : Loc),
    let va := s.sReg c
    let x := s.sReg k
    let rows := (x.extractLsb' 0 8).toNat
    s.ag.poisoned (.s c) = false → s.ag.poisoned (.s k) = false → s.ag.ctl.prog = 0 → rows ≤ 32 →
    (∀ i, i = .tsta a c k → Runs i s → claimed i false s = some u → Ready i u → Produced i u →
      let it := itemsOf u.ag i
      let md := u.blk.md it.a.r
      let e := if md.tag = 0x40 then 8 else 4
      let cols := if (x.extractLsb' 8 8).toNat = 0 then 32 else (x.extractLsb' 8 8).toNat
      let stride := if (x.extractLsb' 32 24).toNat = 0 then 32 * e else (x.extractLsb' 32 24).toNat
      md.poison = false → md.void = false → md.tag = 0x10 ∨ md.tag = 0x40 ∧ it.a.r % 2 = 0 →
      x &&& 0xFF00_0000_00FF_0000#64 = 0 → cols ≤ 32 → va.toNat % e = 0 → stride % e = 0 →
      (x.extractLsb' 24 8).toNat < 2 ^ e → spanOf u va (cols * e) .store = .ok la lb →
      ∃ t l, exec i s = .next t ∧ t.ag.long = some l ∧
        l.i = i ∧ l.unit = 0 ∧ l.last + 1 = (if rows = 0 then 32 else rows) ∧ l.base = va ∧ l.stride = stride ∧ l.cols = cols ∧
        l.enables = (if (x.extractLsb' 24 8).toNat = 0 then 2 ^ e - 1 else (x.extractLsb' 24 8).toNat) ∧ l.tag = md.tag ∧
        l.first = some (la, lb) ∧ l.advance = advancesOf i ∧
        t = { occupy i (plainJob it u) (commitItems it false false false TileRes.plain [] u) with
          ag := { u.ag.setRecord none with long := some l }
          cur := { u.cur with disp := .walking } }) ∧
    ∀ i, i = .tgath d a c k → Runs i s → claimed i false s = some u → Ready i u → Produced i u →
      let it := itemsOf u.ag i
      let md := u.blk.md it.a.r
      let tag := x.extractLsb' 32 8
      md.void = false → md.tag = 0xC0 → it.a.r < 512 → it.d.r < 512 → x &&& 0xFFFF_FF00_FFFF_FF00#64 = 0 →
      tagValid tag.toNat = true → tagScaled tag = false →
      va.toNat % 64 = 0 → spanOf u (va + 64 * ((u.blk.tile it.a.r).data.extractLsb' 0 32).signExtend 64) 64 .load = .ok la lb →
      ∃ t l, exec i s = .next t ∧ t.ag.long = some l ∧
        l.i = i ∧ l.unit = 0 ∧ l.last + 1 = (if rows = 0 then 32 else rows) ∧ l.base = va ∧
        l.idx = (u.blk.tile it.a.r).data ∧ l.reg = it.d.r ∧ l.gen = it.d.x ∧ l.first = some (la, lb) ∧ l.advance = advancesOf i ∧
        (t.blk.tile it.d.r).filling = true ∧ (t.blk.tile it.d.r).md = ⟨it.d.x, it.d.q, 0, false, md.poison, tag⟩ ∧
        l.tile = ⟨⟨it.d.x, it.d.q, 0, false, md.poison, tag⟩, 0, 0, true, none⟩ ∧
        (∀ n, (t.blk.tile n).data = (u.blk.tile n).data ∧ (t.blk.tile n).side = (u.blk.tile n).side) ∧
        (∀ n, n ≠ it.d.r → t.blk.md n = if n = it.a.r then { md with rc := BitVec.ofNat 4 (min (md.rc.toNat + 1) 15) } else u.blk.md n) ∧
        t = { occupy i (plainJob it u) u with
          ag := { u.ag.setRecord none with long := some l }
          blk := { u.blk with tiles := t.blk.tiles }
          cur := { u.cur with disp := .walking } }

/-! ## TILE words that compute -/

namespace Sys2Proof.Machine

/-- A TILE word takes its tile issue move, void where `void` says so, with a result that has `poison` and for which `P`
holds; with NT it holds its stream and reports the result's first NaN (R185, R186). -/
def TileComputed (s u : State) (i : Instr) (nt void poison : Bool) (P : TileRes → Prop) : Prop :=
  ∃ r, exec i s = .next (tileMoved i u void r (nt && !void)
      (if nt && !void then r.nan.map fun n => nanReport r n (itemsOf u.ag i).d.r (u.ag.after u.cur.next) else none)) ∧
    r.poison = poison ∧ (void = false → P r)

/-- The data of a result, element by element: `total` elements of format `f`, `k` in a row; element n is `elem n`, of
which only the active ones have flags and count for NT's report: the first active NaN in row-major order. -/
structure ByElement (r : TileRes) (f : Fmt) (k total : Nat) (active : Nat → Prop) [DecidablePred active]
    (elem : Nat → Nat × Flags) : Prop where
  data : ∃ x, r.data = some x ∧ x < 2 ^ (f.width * total) ∧ ∀ n < total, rawElem x f.width n = (elem n).1 % 2 ^ f.width
  flags : r.flags = ((List.range total).map fun n => if active n then (elem n).2 else Flags.none).foldl Flags.or Flags.none
  noNan : (∀ n < total, active n → (decodeFp f false (elem n).1).isNan = false) → r.nan = none
  nan : ∀ n < total, active n → (decodeFp f false (elem n).1).isNan = true →
    (∀ j < n, active j → (decodeFp f false (elem j).1).isNan = false) →
    ∃ p, r.nan = some p ∧ p.row = n / k ∧ p.col = n % k ∧ p.cause = nanCause f ((elem n).1 % 2 ^ f.fbits)

/-- A mask scalar that its word accepts: no bit outside those it uses, and counts within the extents (R184). -/
structure MaskOk (s : State) (m : TMode) (bits : Word) (cols : Nat) : Prop where
  clean : s.ag.poisoned (.s m.mask) = false
  bits : s.sReg m.mask &&& ~~~bits = 0
  rows : ((s.sReg m.mask).extractLsb' 0 8).toNat ≤ 32
  cols : ((s.sReg m.mask).extractLsb' 8 8).toNat ≤ cols

/-- A count of a mask scalar; 0 stands for the full extent (R184). -/
def maskCount (s : State) (m : TMode) (at_ full : Nat) : Nat :=
  let n := ((s.sReg m.mask).extractLsb' at_ 8).toNat
  if n = 0 then full else n

/-- The tag of an item, and whether a tag is one of those of the floating-point elementwise words (R192). -/
def floatTag (t : BitVec 8) : Prop := t = 0x10 ∨ t = 0x20 ∨ t = 0x30 ∨ t = 0x40

end Sys2Proof.Machine

/-- R192: TADD, TMUL, TMAX and TSCAL. An active element is the exact sum, product or maximum of its sources, rounded once
to A's format under RM with the element's number, or what R28 gives NaNs; TSCAL takes element `row` of B for the whole
row. An inactive element keeps A's bits. The result has A's tag and a side-band of zeros. -/
def Obligations.TileArithmetic : Prop :=
  ∀ (s u : State) (d a b : TileOp) (m : TMode) (i : Instr),
    i = .tadd d a b m ∨ i = .tmul d a b m ∨ i = .tmax d a b m ∨ i = .tscal d a b m →
    let scal := i = .tscal d a b m
    Runs i s → claimed i false s = some u → Ready i u → Produced i u →
    let it := itemsOf u.ag i
    let A := u.blk.tile it.a.r
    let B := u.blk.tile it.b.r
    let mA := u.blk.md it.a.r
    let mB := u.blk.md it.b.r
    let k := tagRow A.md.tag
    mA.void = true ∨ floatTag mA.tag →
    mB.void = true ∨ (if mA.void then (if scal then mB.tag = 0x10 ∨ mB.tag = 0x40 else floatTag mB.tag)
      else if scal then mB.tag = (if mA.tag = 0x40 then 0x40 else 0x10) else mB.tag = mA.tag) →
    MaskOk s m 0xFFFF (if mA.void then 32 else min 32 (tagRow mA.tag)) →
    TileComputed s u i m.nt (mA.void || mB.void) false fun r =>
      it.a.r < 512 → it.b.r < 512 →
      let f := tagFmt A.md.tag
      let fb := tagFmt B.md.tag
      let rd := rounder s.ag.ctl m.fm.rm
      let x (n : Nat) : Fp := decodeFp f m.fm.fi (rawElem A.data.toNat f.width n)
      let y (n : Nat) : Fp := decodeFp fb m.fm.fi (rawElem B.data.toNat fb.width (if scal then n / k else n))
      let v (n : Nat) : Val :=
        if i = .tadd d a b m then sumVal rd.isRdn (x n) (y n)
        else if i = .tmax d a b m then maxVal (x n) (y n) else mulVal (x n) (y n)
      let active (n : Nat) : Prop := n / k < maskCount s m 0 32 ∧ n % k < maskCount s m 8 k
      ByElement r f k (32 * k) active (fun n =>
        if active n then
          if (x n).isNan = false ∧ (y n).isNan = true then convertFp fb f (rd.at n) m.fm.fo false (y n)
          else roundElem f (rd.at n) m.fm.fo (elementwise f [x n] (v n))
        else (rawElem A.data.toNat f.width n, Flags.none)) ∧
      r.side = some 0 ∧ r.tag = some A.md.tag

/-- R194, R29: TRED. Without a NaN and without an invalid addition, element `row` of D is the sum of the active elements
of its row, each addition rounded in the working format; a row with a NaN gives the NaN of cause 1; every other element
is zero. The result is FP32, or FP64 for an fp64 source. -/
def Obligations.TileReduction : Prop :=
  ∀ (s u : State) (d a : TileOp) (m : TMode),
    let i := Instr.tred d a m
    Runs i s → claimed i false s = some u → Ready i u → Produced i u →
    let it := itemsOf u.ag i
    let mA := u.blk.md it.a.r
    let acc := 512 ≤ it.a.r
    let k := if acc then 32 else tagRow mA.tag
    mA.void = true ∨ (if acc then mA.tag = 0x10 else floatTag mA.tag) →
    MaskOk s m 0xFFFF (if mA.void then 32 else min 32 k) →
    TileComputed s u i m.nt mA.void false fun r =>
      let fa := tagFmt mA.tag
      let f := if mA.tag = 0x40 then fp64 else fp32
      let data := if acc then (u.blk.acc (it.a.r - 512)).data.toNat else (u.blk.tile it.a.r).data.toNat
      let rows := maskCount s m 0 32
      let cols := maskCount s m 8 k
      let x (row col : Nat) : Fp := decodeFp fa m.fm.fi (rawElem data fa.width (row * k + col))
      let rd := rounder s.ag.ctl m.fm.rm
      (∃ D, r.data = some D ∧ D < 2 ^ 16384 ∧
        (∀ n, rows ≤ n → n < 16384 / f.width → rawElem D f.width n = 0) ∧
        ∀ row < rows,
          ((∃ col < cols, (x row col).isNan = true) → rawElem D f.width row = genNan f 1) ∧
          ∀ run : Nat → Fp, (∀ col < cols, (x row col).isNan = false) → run 0 = x row 0 →
            (∀ n, n + 1 < cols → (∀ c, sumVal rd.isRdn (run n) (x row (n + 1)) ≠ .gen c) ∧
              run (n + 1) = decodeFp f false
                (putVal f (rd.at (roundIdx row n)) m.fm.fo false (sumVal rd.isRdn (run n) (x row (n + 1)))).1) →
            rawElem D f.width row = (putVal f .rne false false (run (cols - 1)).toVal).1 % 2 ^ f.width) ∧
      r.side = some 0 ∧ r.tag = some (if mA.tag = 0x40 then 0x40 else 0x10)

/-- R195, R153: TACC. An active element is the sum of A's and C's, or A's and +0 with Z, rounded once to A's format; an
inactive one keeps C's bits, or +0. The result has A's tag; of tag 0x40, it is a pair of 32 × 32 FP64 elements. -/
def Obligations.AccumulatorSums : Prop :=
  ∀ (s u : State) (d a c : TileOp) (z : Bool) (m : TMode),
    let i := Instr.tacc d a c z m
    Runs i s → claimed i false s = some u → Ready i u → Produced i u →
    let it := itemsOf u.ag i
    let mA := u.blk.md it.a.r
    let prior : Option Opnd := if z then none else some it.b
    let void := mA.void || prior.any fun p => (u.blk.md p.r).void
    let pair : Bool := mA.tag == 0x40
    mA.void = true ∨ mA.tag = 0x10 ∨ mA.tag = 0x40 →
    (∀ p ∈ prior, (u.blk.md p.r).void = true ∨
      (if mA.void then (u.blk.md p.r).tag = 0x10 ∨ (u.blk.md p.r).tag = 0x40 else (u.blk.md p.r).tag = mA.tag)) →
    (pair = true → it.a.r % 2 = 0 ∧ it.d.r % 2 = 0 ∧ ∀ p ∈ prior, p.r % 2 = 0) →
    MaskOk s m 0xFFFF 32 →
    TileComputed s u i m.nt void false fun r =>
      let f := tagFmt mA.tag
      let data (n : Nat) : Nat :=
        (u.blk.acc (n - 512)).data.toNat + if pair then 2 ^ 32768 * (u.blk.acc (n - 511)).data.toNat else 0
      let C := match prior with | some p => data p.r | none => 0
      let rd := rounder s.ag.ctl m.fm.rm
      let x (n : Nat) : Fp := decodeFp f m.fm.fi (rawElem (data it.a.r) f.width n)
      let y (n : Nat) : Fp := decodeFp f m.fm.fi (rawElem C f.width n)
      let active (n : Nat) : Prop := n / 32 < maskCount s m 0 32 ∧ n % 32 < maskCount s m 8 32
      512 ≤ it.a.r → (∀ p ∈ prior, 512 ≤ p.r) →
      ByElement r f 32 1024 active (fun n =>
        if active n then
          if (x n).isNan = false ∧ (y n).isNan = true then convertFp f f (rd.at n) m.fm.fo false (y n)
          else roundElem f (rd.at n) m.fm.fo (elementwise f [x n] (sumVal rd.isRdn (x n) (y n)))
        else (rawElem C f.width n, Flags.none)) ∧
      r.side = none ∧ r.tag = some mA.tag ∧ r.pair = pair

namespace Sys2Proof.Machine

/-- A valid value rounded to a format, with its flags. -/
def rounded (f : Fmt) (md : RMode) (fo : Bool) : Val → Option (Fp × Flags)
  | .gen _ => none
  | v => some (decodeFp f false (putVal f md fo false v).1, (putVal f md fo false v).2)

/-- The exact sum of the values 0 to n, where no operation is invalid. -/
def exactSum (rdn : Bool) (p : Nat → Val) : Nat → Option Val
  | 0 => match p 0 with
    | .gen _ => none
    | v => some v
  | n + 1 => match exactSum rdn p n, p (n + 1) with
    | some _, .gen _ => none
    | some q, v => match sumVal rdn q.operand v.operand with
      | .gen _ => none
      | w => some w
    | none, _ => none

/-- The value and the flags of an accumulation after n steps, where each is valid. -/
def accumulated (c : Fp) (next : Nat → Fp → Option (Fp × Flags)) : Nat → Option (Fp × Flags)
  | 0 => some (c, Flags.none)
  | n + 1 => (accumulated c next n).bind fun p => (next n p.1).map fun q => (q.1, p.2.or q.2)

end Sys2Proof.Machine

/-- R196 to R199, R29, R362: the matrix products. An inactive output keeps C's bits, or +0 with Z. An active output whose
active elements and prior value hold no NaN is the accumulation of its instruction, where that meets no invalid operation:
MMBI adds each block's exact sum of products and rounds once; MMF rounds each group's exact sum and then the accumulator;
MMF32 and MMD take fused multiply-adds in ascending k. An active element that is a NaN gives the NaN of cause 1, unless a
block's scale is 0xFF, which gives cause 2. D's tag is 0x10, or 0x40 for MMD's pair. -/
def Obligations.MatrixProducts : Prop :=
  ∀ (s u : State) (d a b c : TileOp) (z : Bool) (m : TMode) (i : Instr),
    i = .mmbi d a b c z m ∨ i = .mmf d a b c z m ∨ i = .mmf32 d a b c z m ∨ i = .mmd d a b c z m →
    Runs i s → claimed i false s = some u → Ready i u → Produced i u →
    let it := itemsOf u.ag i
    let A := u.blk.tile it.a.r
    let B := u.blk.tile it.b.r
    let prior : Option Opnd := if z then none else some ((it.src.drop 2).headD ⟨0, 0, 0⟩)
    let void := A.md.void || B.md.void || prior.any fun p => (u.blk.md p.r).void
    let pair := i = .mmd d a b c z m
    let k := tagRow A.md.tag
    let fp8 (t : BitVec 8) : Prop := t = 0x50 ∨ t = 0x51 ∨ t = 0x60 ∨ t = 0x61
    let bi (t : BitVec 8) : Prop :=
      t = 0x83 ∨ t = 0x85 ∨ t = 0x87 ∨ t = 0x89 ∨ t = 0x8B ∨ t = 0x8D ∨ t = 0x8F ∨ t = 0x91 ∨ t = 0x71
    let ok (t : BitVec 8) : Prop :=
      (i = .mmbi d a b c z m → bi t) ∧
      (i = .mmf d a b c z m → fp8 t ∧ s.blk.isa.getLsbD 1 = true ∧ isOchre s.blk.core = false ∨ t = 0x20 ∨ t = 0x30) ∧
      (i = .mmf32 d a b c z m → t = 0x10) ∧ (pair → t = 0x40)
    it.a.r < 512 → it.b.r < 512 →
    A.md.void = true ∨ ok A.md.tag → B.md.void = true ∨ ok B.md.tag →
    A.md.void = true ∨ B.md.void = true ∨
      (i = .mmbi d a b c z m → tagCont A.md.tag = tagCont B.md.tag) ∧ (i = .mmf d a b c z m → (fp8 A.md.tag ↔ fp8 B.md.tag)) →
    (∀ p ∈ prior, 512 ≤ p.r ∧ ((u.blk.md p.r).void = true ∨ (u.blk.md p.r).tag = if pair then 0x40 else 0x10)) →
    (pair → it.d.r % 2 = 0 ∧ ∀ p ∈ prior, p.r % 2 = 0) →
    MaskOk s m 0xFFFFFF 32 → A.md.void = true ∨ ((s.sReg m.mask).extractLsb' 16 8).toNat ≤ k →
    TileComputed s u i m.nt void false fun r =>
      let f := if pair then fp64 else fp32
      let data (n : Nat) : Nat :=
        (u.blk.acc (n - 512)).data.toNat + if pair then 2 ^ 32768 * (u.blk.acc (n - 511)).data.toNat else 0
      let C := match prior with | some p => data p.r | none => 0
      let rd := rounder s.ag.ctl m.fm.rm
      let md (n j : Nat) : RMode := rd.at (roundIdx n j)
      let depth := maskCount s m 16 k
      let x (row j : Nat) : Fp := (tileElem A.md.tag A.data.toNat A.side m.fm.fi row j).1
      let y (row j : Nat) : Fp := (tileElem B.md.tag B.data.toNat B.side m.fm.fi row j).1
      let noScale (t : Tile) (row : Nat) : Prop :=
        tagScaled t.md.tag = true ∧ ∃ j < depth, blockScale t.md.tag t.side row (j / 32) = none
      let g := if i = .mmbi d a b c z m then 32 else if i = .mmf d a b c z m then (if fp8 A.md.tag then 8 else 4) else 1
      let next (n j : Nat) (acc : Fp) : Option (Fp × Flags) :=
        let p (e : Nat) : Val := mulVal (x (n / 32) (g * j + e)) (y (n % 32) (g * j + e))
        let last := min g (depth - g * j) - 1
        if i = .mmbi d a b c z m then
          (exactSum false p last).bind fun q => rounded f (md n j) m.fm.fo (sumVal rd.isRdn acc (positiveZero q).operand)
        else if i = .mmf d a b c z m then
          (exactSum rd.isRdn p last).bind fun q => (rounded f (md n (2 * j)) m.fm.fo q).bind fun h =>
            (rounded f (md n (2 * j + 1)) m.fm.fo (sumVal rd.isRdn acc h.1)).map fun w => (w.1, h.2.or w.2)
        else rounded f (md n j) m.fm.fo (fmaVal rd.isRdn (x (n / 32) j) (y (n % 32) j) acc)
      (∃ D, r.data = some D ∧ D < 2 ^ (f.width * 1024) ∧ ∀ n < 1024,
        let prev := rawElem C f.width n
        let active := n / 32 < maskCount s m 0 32 ∧ n % 32 < maskCount s m 8 32
        (¬ active → rawElem D f.width n = prev) ∧
        (active → noScale A (n / 32) ∨ noScale B (n % 32) → rawElem D f.width n = genNan f 2) ∧
        (active → ¬ (noScale A (n / 32) ∨ noScale B (n % 32)) →
          (∃ j < depth, (x (n / 32) j).isNan = true ∨ (y (n % 32) j).isNan = true) → rawElem D f.width n = genNan f 1) ∧
        (active → (∀ j < depth, (x (n / 32) j).isNan = false ∧ (y (n % 32) j).isNan = false) →
          (decodeFp f m.fm.fi prev).isNan = false →
          ∀ v, accumulated (decodeFp f m.fm.fi prev) (next n) ((depth + g - 1) / g) = some v →
            rawElem D f.width n = (putVal f .rne false false v.1.toVal).1 % 2 ^ f.width)) ∧
      r.side = none ∧ r.tag = some (if pair then 0x40 else 0x10) ∧ r.pair = pair

/-- R200, R201, R46 to R49: TCVT. Destination element i takes the source element that the part
gives it, as +0 outside the masks; the others are zero, or with merge keep the previous generation, which carries the
target's tag. A target without scales converts or rounds each element; a scaled one quantises each block that is written
under the scale its elements choose, and a block whose elements hold a NaN gets scale 0xFF and zeros. A bi2 row has one
base and 3-bit offsets, and a row that holds a NaN gets base 0xFF and zeros. That the zeros of an all-zero or 0xFF-scaled
block are +0, and that a bi2 row with an infinity is taken as one with a NaN, are the model's choices
(notes/assumptions/49.md). -/
def Obligations.TileConversion : Prop :=
  ∀ (s u : State) (d a : TileOp) (tag : BitVec 8) (part : Fin 4) (merge sat : Bool) (m : TMode),
    let i := Instr.tcvt d a tag part merge sat m
    Runs i s → claimed i false s = some u → Ready i u → Produced i u →
    let it := itemsOf u.ag i
    let mA := u.blk.md it.a.r
    let acc := 512 ≤ it.a.r
    let old := u.blk.tile it.d.r
    let ks := if acc then 32 else tagRow mA.tag
    let kd := tagRow tag
    let ns := 32 * ks
    let nd := 32 * kd
    it.d.r < 512 → merge = false ∨ tag ≠ 0x83 →
    mA.void = true ∨ (if acc then mA.tag = 0x10 else tagValid mA.tag.toNat = true ∧ mA.tag ≠ 0x00 ∧ mA.tag ≠ 0xC0) →
    mA.void = true ∨ narrowTag mA.tag = false ∨ s.blk.isa.getLsbD 2 = true ∧ isOchre s.blk.core = false →
    merge = false ∨ old.md.void = true ∨ old.md.tag = tag →
    mA.void = true ∨ part.val < max ns nd / min ns nd →
    MaskOk s m 0xFFFF (if mA.void then 255 else ks) →
    TileComputed s u i m.nt (mA.void || merge && old.md.void) (merge && old.md.poison) fun r =>
      let A := u.blk.tile it.a.r
      let rd := rounder s.ag.ctl m.fm.rm
      let src (n : Nat) : Fp × Fmt :=
        if n / ks < maskCount s m 0 32 ∧ n % ks < maskCount s m 8 ks then
          if acc then (decodeFp fp32 m.fm.fi (rawElem (u.blk.acc (it.a.r - 512)).data.toNat 32 n), fp32)
          else tileElem mA.tag A.data.toNat A.side m.fm.fi (n / ks) (n % ks)
        else (.fin Dy.zero, fp32)
      let from_ (n : Nat) : Option Nat :=
        if nd ≤ ns then some (part.val * nd + n)
        else if part.val * ns ≤ n ∧ n < part.val * ns + ns then some (n - part.val * ns) else none
      let kept (n : Nat) : Nat := if merge then rawElem old.data.toNat (tagCont tag) n else 0
      (tagScaled tag = false → ∃ x, r.data = some x ∧ x < 2 ^ 16384 ∧ r.side = some 0 ∧ r.tag = some tag ∧
        ∀ n < nd, rawElem x (tagCont tag) n = match from_ n with
          | none => kept n
          | some j => (match tagNum tag with
            | .float f => (convertFp (src j).2 f (rd.at n) m.fm.fo sat (src j).1).1
            | g => (toInteger g (rd.at n) (src j).1).1) % 2 ^ tagCont tag) ∧
      (tagScaled tag = true → tag ≠ 0x83 → ∃ x side, r.data = some x ∧ x < 2 ^ 16384 ∧ r.side = some side ∧ r.tag = some tag ∧
        ∀ b < kd,
          let v (e : Nat) : Fp := match from_ (32 * b + e) with
            | some j => (src j).1
            | none => .fin Dy.zero
          let scale := chooseScale tag ((List.range 32).map fun e => quantSource sat (v e))
          let written := (from_ (32 * b)).isSome = true ∨ merge = false
          (written → sideByte side b = scale.getD 0xFF) ∧
          (¬ written → sideByte side b = sideByte old.side b) ∧
          ∀ e < 32, rawElem x (tagCont tag) (32 * b + e) =
            if written then match scale with
              | none => 0
              | some k => if (∀ j < 32, (v j).log2? = none ∧ (v j).isInf = false) then 0
                else (quantElem tag k (rd.at (32 * b + e)) m.fm.fo sat (v e)).1 % 2 ^ tagCont tag
            else rawElem old.data.toNat (tagCont tag) (32 * b + e)) ∧
      (tag = 0x83 → ∃ x side, r.data = some x ∧ x < 2 ^ 16384 ∧ r.side = some side ∧ r.tag = some tag ∧
        ∀ row < 32,
          let v (n : Nat) : Fp := match from_ (256 * row + n) with
            | some j => (src j).1
            | none => .fin Dy.zero
          let own (b : Nat) : Option Nat := chooseScale 0x83 ((List.range 32).map fun e => quantSource sat (v (32 * b + e)))
          let offset (b : Nat) : Nat := (side.extractLsb' (256 + 24 * row + 3 * b) 3).toNat
          let base := sideByte side row
          ((∃ b < 8, own b = none) → base = 0xFF ∧ (∀ b < 8, offset b = 0) ∧ ∀ n < 256, rawElem x 2 (256 * row + n) = 0) ∧
          ∀ k : Nat → Nat, (∀ b < 8, own b = some (k b)) →
            (∀ b < 8, k b ≤ base + 7) ∧ (base = 0 ∨ ∃ b < 8, k b = base + 7) ∧
            ∀ b < 8, base + offset b = max (k b) base ∧ ∀ e < 32, rawElem x 2 (256 * row + 32 * b + e) =
              if (∀ j < 32, (v (32 * b + j)).log2? = none ∧ (v (32 * b + j)).isInf = false) then 0
              else (quantElem 0x83 (max (k b) base) (rd.at (256 * row + 32 * b + e)) m.fm.fo sat (v (32 * b + e))).1 % 4)

/-- R202: TCVT with page-append. Row j of the page takes the token, quantised block by block under a scale shared by rows
0 to 15; the first token zeroes the other rows; a later one keeps the rows after it, and rescales the rows before it by
the growth of the block's scale, or zeroes them where the shared scale becomes 0xFF. -/
def Obligations.PageAppend : Prop :=
  ∀ (s u : State) (d a : TileOp) (tag : BitVec 8) (slot : Fin 16) (sat : Bool) (m : TMode),
    let i := Instr.tcvtPageAppend d a tag slot sat m
    Runs i s → claimed i false s = some u → Ready i u → Produced i u →
    let it := itemsOf u.ag i
    let mA := u.blk.md it.a.r
    let acc := 512 ≤ it.a.r
    let old := u.blk.tile it.d.r
    let ks := if acc then 32 else tagRow mA.tag
    let kd := tagRow tag
    let j := slot.val
    it.d.r < 512 →
    tag = 0x85 ∨ tag = 0x87 ∨ tag = 0x89 ∨ tag = 0x8B ∨ tag = 0x8D ∨ tag = 0x8F ∨ tag = 0x91 →
    mA.void = true ∨ (if acc then mA.tag = 0x10 else tagValid mA.tag.toNat = true ∧ mA.tag ≠ 0x00 ∧ mA.tag ≠ 0xC0) →
    mA.void = true ∨ narrowTag mA.tag = false ∨ s.blk.isa.getLsbD 2 = true ∧ isOchre s.blk.core = false →
    j = 0 ∨ old.md.void = true ∨ old.md.tag = tag →
    MaskOk s m 0xFFFF (if mA.void then 255 else ks) →
    TileComputed s u i m.nt (mA.void || old.md.void) old.md.poison fun r =>
      let A := u.blk.tile it.a.r
      let rd := rounder s.ag.ctl m.fm.rm
      let src (n : Nat) : Fp :=
        if n / ks < maskCount s m 0 32 ∧ n % ks < maskCount s m 8 ks then
          if acc then decodeFp fp32 m.fm.fi (rawElem (u.blk.acc (it.a.r - 512)).data.toNat 32 n)
          else (tileElem mA.tag A.data.toNat A.side m.fm.fi (n / ks) (n % ks)).1
        else .fin Dy.zero
      let w := (tagNum tag).bits
      let cont := tagCont tag
      let signed (x : Nat) : Int := if x % 2 ^ w < 2 ^ (w - 1) then (x % 2 ^ w : Nat) else ((x % 2 ^ w : Nat) : Int) - 2 ^ w
      ∃ x side, r.data = some x ∧ x < 2 ^ 16384 ∧ r.side = some side ∧ r.tag = some tag ∧
        ∀ b < kd / 32,
          let v (e : Nat) : Fp := src (32 * b + e)
          let new := (chooseScale tag ((List.range 32).map fun e => quantSource sat (v e))).getD 0xFF
          let before := sideByte old.side b
          let scale := if j = 0 then new else if before = 0xFF ∨ new = 0xFF then 0xFF else max before new
          let at_ (row e : Nat) : Nat := kd * row + 32 * b + e
          (∀ row < 32, sideByte side (row * (kd / 32) + b) = if row < 16 then scale else 0) ∧
          ∀ e < 32,
            rawElem x cont (at_ j e) = (if scale = 0xFF then 0
              else (quantElem tag scale (rd.at (at_ j e)) m.fm.fo sat (v e)).1 % 2 ^ cont) ∧
            (∀ row, j < row → row < 32 →
              rawElem x cont (at_ row e) = if j = 0 ∨ 16 ≤ row then 0 else rawElem old.data.toNat cont (at_ row e)) ∧
            ∀ row < j, ∀ q : Int, (scale = 0xFF → q = 0) →
              (scale ≠ 0xFF → 
                let t := signed (rawElem old.data.toNat cont (at_ row e))
                let k : Int := 2 ^ (scale - before)
                |2 * (t - q * k)| ≤ k ∧ (|2 * (t - q * k)| = k → q % 2 = 0)) →
              (rawElem x cont (at_ row e) : Int) = q % 2 ^ cont

/-! ## Control and system words -/

/-- R104, R105, R107: the transfers. A target is the base plus 8 times the offset with bits 2:0 cleared; CALL leaves the
address of the next word in s31; LOOP writes the count less one and stays when that is 0.
R106 to R108, R110, R115 to R117, R285: the words that steer the stream itself. REP passes and leaves the count of its
next word; SYNCM, WAITI and SEED write their register; WAITT and FENCEH issue once their condition holds and wait until
then; TIMED then opens a region from the next word to its target, unless its offset is below 2. -/
def Obligations.TransfersAndStreamWords : Prop :=
  (∀ (s : State) (a : SReg) (off : BitVec 34),
     let goal (base : Word) (o : BitVec 34) : Word := (base + 8 * o.signExtend 64) &&& ~~~7#64
     let at_ (t : Word) : State := { s with cur := { s.cur with next := t } }
     let Goes (i : Instr) (t : Word) : Prop := exec i s = .next (agentDid (at_ t) s.ag)
     let Links (i : Instr) (t : Word) (r : SReg) (x : Word) : Prop :=
       ∃ v, exec i s = .next v ∧ Wrote (at_ t) v (.s r) (x.setWidth 2048) false Flags.none
     (Runs (.br off) s → Goes (.br off) (goal s.cur.pc off)) ∧
     (Runs (.jmp a off) s → s.ag.poisoned (.s a) = false → Goes (.jmp a off) (goal (s.sReg a) off)) ∧
     (Runs .ret s → s.ag.poisoned (.s 31) = false → Goes .ret (goal (s.sReg 31) 0)) ∧
     (Runs (.call off) s → Links (.call off) (goal s.cur.pc off) 31 (s.cur.pc + 8)) ∧
     (Runs (.loop a off) s → s.ag.poisoned (.s a) = false →
       Links (.loop a off) (if s.sReg a = 1 then s.cur.next else goal s.cur.pc off) a (s.sReg a - 1))) ∧
  (∀ (s : State) (a : SReg) (off : BitVec 34) (m4 : BitVec 4) (m8 : BitVec 8) (n : Fin 2),
     let c := s.ag.ctl
     let x := s.sReg a
     let clean := s.ag.poisoned (.s a) = false
     let now := (s.tbase - x).toNat < 2 ^ 63
     let Sets (i : Instr) (c : Ctl) : Prop := exec i s = .next (agentDid s { s.ag with ctl := c })
     let Waits (i : Instr) : Prop := exec i s = .next { s with cur := { s.cur with disp := .waits } }
     (clean → Runs (.rep a) s → exec (.rep a) s = .next { s with
       ag := { s.ag.ticks (1 + s.cur.hdr.w.val) with
         pc := s.cur.next
         rep := some (x.toNat % 2 ^ 32) }
       cur := { s.cur with disp := .done } }) ∧
     (Runs (.syncm m4) s → Sets (.syncm m4) { c with syncmsk := m4 }) ∧
     (Runs (.waiti m8) s → exec (.waiti m8) s = .next (agentDid s { s.ag with wait := m8 })) ∧
     (clean → Runs (.seed n a) s → Sets (.seed n a) { c with
       gseed := c.gseed.set n x
       gctr := c.gctr.set n 0 }) ∧
     (clean → Runs (.waitt a) s → (now → Sets (.waitt a) c) ∧ (¬ now → Waits (.waitt a))) ∧
     (clean → Runs (.timed a off) s →
       (now → off.toInt < 2 → Sets (.timed a off) c) ∧
       (now → 2 ≤ off.toInt → Sets (.timed a off) { c with
         tslip := { c.tslip with
           cur := 0
           region := some (s.cur.next, (s.cur.pc + 8 * off.signExtend 64) &&& ~~~7#64)
           late := c.tslip.late || decide (4 < (s.tbase - x).toNat)
           due := none } }) ∧
       (¬ now → Waits (.timed a off))) ∧
     (Runs .fenceh s → (s.ag.accs = [] → Sets .fenceh c) ∧ (s.ag.accs ≠ [] → Waits .fenceh)))

/-- R71 to R73, R37, R112, R155 to R158, R205, R287, R303, R328: MFC writes the value its register has at issue, with latency
1, and nothing else. The plain registers read as they are held, the others field by field. -/
def Obligations.ControlRegisterReads : Prop :=
  ∀ (s : State) (d : SReg) (cr : BitVec 12), ∃ x, ScalarResult s (.mfc d cr) d x [] ∧
    let c := s.ag.ctl
    let b := s.blk
    let co := s.core b.core
    let p := s.part b.part
    let bits (lo n : Nat) : Nat := (x.extractLsb' lo n).toNat
    let plain := [(0x004, c.prog.setWidth 64), (0x005, c.gseed[0]), (0x006, c.gctr[0]), (0x007, c.gseed[1]), (0x008, c.gctr[1]),
      (0x011, c.epc), (0x012, c.tval), (0x014, c.tvec), (0x015, c.mptxid), (0x018, c.ncoord), (0x019, c.nidx),
      (0x01A, c.nfmt), (0x020, s.tbase), (0x022, c.tcmp), (0x003, c.syncmsk.setWidth 64), (0x010, c.tcause.setWidth 64),
      (0x110, b.chans[0].wmark.setWidth 64), (0x111, b.chans[1].wmark.setWidth 64), (0x112, b.chans[2].wmark.setWidth 64),
      (0x113, b.chans[3].wmark.setWidth 64), (0x201, p.capb), (0x202, p.covctl)]
    (∀ q ∈ plain, cr = BitVec.ofNat 12 q.1 → x = q.2) ∧
    (∀ k : Fin 16, cr = BitVec.ofNat 12 (0x120 + k.val) → x = b.reloc[k]) ∧
    (cr = 0x203 → x = p.ttroot.setWidth 64 <<< 12) ∧ (cr = 0x013 → x = c.tframe.setWidth 64 <<< 4) ∧
    (cr = 0x000 → b.core < 1024 → bits 2 10 = b.core ∧ bits 13 51 = 0 ∧
      (s.cur.w < 4 → bits 0 2 = s.cur.w ∧ bits 12 1 = 0) ∧ (s.cur.w = 4 → bits 0 2 = 0 ∧ bits 12 1 = 1)) ∧
    (cr = 0x001 → s.cur.w < 4 → bits 32 32 = 0 ∧ bits 24 8 = (ipend b s.cur.w c).toNat ∧ bits 16 8 = c.imask.toNat ∧
      bits 4 12 = 0 ∧ bits 3 1 = c.vs.toNat ∧ bits 2 1 = c.inh.toNat ∧ bits 1 1 = c.ie.toNat ∧ bits 0 1 = c.pm.toNat) ∧
    (cr = 0x001 → s.cur.w = 4 → bits 25 39 = 0 ∧ bits 24 1 = c.line0.toNat ∧ bits 17 7 = 0 ∧
      bits 16 1 = (c.imask.getLsbD 0).toNat ∧ bits 0 16 = 0) ∧
    (cr = 0x002 → bits 13 51 = 0 ∧ bits 12 1 = c.flags.nx.toNat ∧ bits 11 1 = c.flags.uf.toNat ∧ bits 10 1 = c.flags.of.toNat ∧
      bits 9 1 = c.flags.dz.toNat ∧ bits 8 1 = c.flags.nv.toNat ∧ bits 3 5 = 0 ∧ bits 0 3 = c.rm.toNat) ∧
    (cr = 0x021 → bits 48 16 = c.tslip.limit.toNat ∧ bits 32 16 = c.tslip.last.toNat ∧ bits 16 16 = c.tslip.cur.toNat ∧
      bits 8 8 = c.tslip.scount.toNat ∧ bits 5 3 = 0 ∧ bits 4 1 = c.tslip.freq.toNat ∧ bits 3 1 = c.tslip.late.toNat ∧
      bits 2 1 = c.tslip.trapd.toNat ∧ bits 1 1 = c.tslip.slipped.toNat ∧ bits 0 1 = c.tslip.region.isSome.toNat) ∧
    (cr = 0x100 → bits 32 32 = 0 ∧ bits 16 16 = co.cecnt.toNat ∧ bits 8 8 = co.fcode.toNat ∧ bits 4 4 = co.ctxv.toNat ∧
      bits 2 2 = 0 ∧ bits 0 2 = co.ctx.toNat) ∧
    (cr = 0x101 → bits 60 4 = 0 ∧ bits 40 20 = co.live.toNat ∧ bits 32 8 = co.vown.toNat ∧ bits 16 16 = co.aown.toNat ∧
      bits 0 16 = co.town.toNat) ∧
    (cr = 0x102 → bits 42 22 = 0 ∧ bits 32 10 = b.mig.lcore.toNat ∧ bits 16 16 = b.mig.mcnt.toNat ∧ bits 7 9 = 0 ∧
      bits 6 1 = (if isOchre b.core = b.mig.homec then 0 else 1) ∧ bits 5 1 = (isOchre b.core).toNat ∧
      bits 4 1 = b.mig.homec.toNat ∧ bits 3 1 = 0 ∧ bits 2 1 = b.mig.wait.toNat ∧ bits 1 1 = b.mig.hb.toNat ∧
      bits 0 1 = b.mig.pin.toNat) ∧
    (cr = 0x103 → bits 36 28 = 0 ∧ bits 32 1 = b.chans[0].busy.toNat ∧ bits 33 1 = b.chans[1].busy.toNat ∧
      bits 34 1 = b.chans[2].busy.toNat ∧ bits 35 1 = b.chans[3].busy.toNat ∧ bits 0 32 = co.hdrop.toNat) ∧
    (cr = 0x200 → p.id < 256 → p.parent < 256 → p.level < 4 → bits 0 8 = p.id ∧ bits 8 8 = p.parent ∧ bits 16 2 = p.level ∧
      bits 18 1 = p.sliced.toNat ∧ bits 19 13 = 0 ∧ bits 32 8 = min p.offline 255 ∧ bits 40 24 = 0)

/-- R71, R73, R37, R84, R112, R205, R287, R303: MTC. A writable register takes the value of s[a]; a sticky field is cleared where
the value has 0 and never set; reserved and read-only fields, and read-only registers, change nothing; an unprivileged
write of a privileged register, of SSTAT.IE, or of a shared register raises PRIV with the number. -/
def Obligations.ControlRegisterWrites : Prop :=
  ∀ (s : State) (a : SReg), s.ag.poisoned (.s a) = false →
    let c := s.ag.ctl
    let x := s.sReg a
    let bit (n : Nat) : Bool := x.getLsbD n
    let mp := s.cur.w = 4
    let b := s.blk
    let Sets (i : Instr) (c : Ctl) : Prop := exec i s = .next (agentDid s { s.ag with ctl := c })
    let To (n : Nat) (c : Ctl) : Prop := Runs (.mtc a (BitVec.ofNat 12 n)) s → Sets (.mtc a (BitVec.ofNat 12 n)) c
    let Priv (i : Instr) (n : Nat) : Prop := exec i s = .next (s.raise cPRIV (BitVec.ofNat 64 n))
    (¬ mp →
      To 0x002 { c with
        flags := ⟨c.flags.nx && bit 12, c.flags.uf && bit 11, c.flags.of && bit 10, c.flags.dz && bit 9, c.flags.nv && bit 8⟩
        rm := if x.extractLsb' 0 3 = 7 then 0 else x.extractLsb' 0 3 } ∧
      To 0x003 { c with syncmsk := x.setWidth 4 } ∧ To 0x004 { c with prog := x.setWidth 16 } ∧
      To 0x005 { c with gseed := c.gseed.set 0 x } ∧ To 0x006 { c with gctr := c.gctr.set 0 x } ∧
      To 0x007 { c with gseed := c.gseed.set 1 x } ∧ To 0x008 { c with gctr := c.gctr.set 1 x } ∧
      To 0x021 { c with tslip := { c.tslip with
        limit := x.extractLsb' 48 16
        scount := x.extractLsb' 8 8
        freq := c.tslip.freq && bit 4
        late := c.tslip.late && bit 3
        trapd := c.tslip.trapd && bit 2
        slipped := c.tslip.slipped && bit 1 } } ∧
      (∀ n ∈ [0x000, 0x018, 0x019, 0x01A, 0x020], To n c) ∧
      (c.pm = true →
        To 0x010 { c with tcause := x.setWidth 10 } ∧ To 0x011 { c with epc := x } ∧ To 0x012 { c with tval := x } ∧
        To 0x013 { c with tframe := x.extractLsb' 4 9 } ∧ To 0x014 { c with tvec := x &&& ~~~7#64 }) ∧
      (c.pm = false → ∀ n ∈ [0x010, 0x011, 0x012, 0x013, 0x014], Runs (.mtc a (BitVec.ofNat 12 n)) s →
        Priv (.mtc a (BitVec.ofNat 12 n)) n) ∧
      (Runs (.mtcSstat a) s →
        (c.pm = true ∨ bit 1 = c.ie → Sets (.mtcSstat a) { c with
          imask := x.extractLsb' 16 8
          vs := c.vs && bit 3
          ie := bit 1 }) ∧
        (c.pm = false → bit 1 ≠ c.ie → Priv (.mtcSstat a) 1))) ∧
    (mp → Runs (.mtcSstat a) s → Sets (.mtcSstat a) { c with imask := (x.extractLsb' 16 1).setWidth 8 }) ∧
    (Runs (.mtcTcmp a) s → Sets (.mtcTcmp a) { c with
      tcmp := x
      armed := true
      line0 := decide ((s.tbase - x).toNat < 2 ^ 63) }) ∧
    ∀ n, 0x100 ≤ n → n < 0x1000 → Runs (.mtc a (BitVec.ofNat 12 n)) s →
      (mp ∨ c.pm = false → Priv (.mtc a (BitVec.ofNat 12 n)) n) ∧
      (¬ mp → c.pm = true → exec (.mtc a (BitVec.ofNat 12 n)) s = .next (
        if n = 0x102 then blockDid s s.ag { b with mig := { b.mig with
          wait := bit 2
          hb := bit 1
          pin := bit 0 } }
        else if n = 0x103 then agentDid (s.setCore b.core { s.core b.core with hdrop := x.setWidth 32 }) s.ag
        else if n = 0x202 then agentDid (s.setPart b.part { s.part b.part with covctl := x &&& ~~~0x800#64 }) s.ag
        else agentDid s s.ag))

namespace Sys2Proof.Machine

/-- `t` is `s` after trap entry (R86 steps 3 to 5, R87): the frame's header and descriptors in the scratchpad, the trap
registers and SSTAT, no latch left, the open region closed, and the stream at its handler. -/
structure Entered (s t : State) (cause : BitVec 10) (epc tval : Word) (rep : Nat) : Prop where
  control : t.ag.ctl = { s.ag.ctl with
    tcause := cause
    epc := epc
    tval := tval
    pm := true
    inh := true
    ie := false
    tslip := t.ag.ctl.tslip }
  region : t.ag.ctl.tslip.region = none ∧ (s.ag.ctl.tslip.region = none → t.ag.ctl.tslip = s.ag.ctl.tslip)
  header : let at_ (o n : Nat) : Nat := t.blk.pad.readLE (4096 * s.ag.ctl.tframe.toNat + o) n
    at_ 0x00 8 = epc.toNat ∧ at_ 0x08 8 = cause.toNat ∧ at_ 0x10 8 = tval.toNat ∧
    at_ 0x18 8 = (sstatWord s.blk s.cur.w s.ag.ctl).toNat ∧ at_ 0x20 8 = rep % 2 ^ 32 ∧
    (s.ag.shadow = none → at_ 0x28 24 = 0) ∧
    (∀ k, s.ag.shadow = some k → k.w < 8 → at_ 0x28 8 = k.pc.toNat ∧ at_ 0x30 8 = k.va.toNat ∧
      at_ 0x38 8 = 2 ^ 63 + 2 ^ 16 * k.w + 2 ^ 8 * k.rep.toNat + k.code.toNat) ∧
    (s.ag.latches.length ≤ 12 → at_ 0x40 192 = s.ag.latches.length)
  descriptors : s.ag.latches.length ≤ 12 → (∀ l ∈ s.ag.latches, l.tag - s.ag.cyc < 256) →
    ∀ l ∈ s.ag.latches, ∃ i < s.ag.latches.length,
      let d := 4096 * s.ag.ctl.tframe.toNat + 256 + 16 * i
      let at_ (o n : Nat) : Nat := t.blk.pad.readLE (d + o) n
      at_ 8 1 = l.reg.kindByte ∧ at_ 9 1 = l.reg.numByte ∧ at_ 10 1 = l.tag - s.ag.cyc ∧ at_ 11 1 = l.flags.toNat ∧
      at_ 12 1 = l.poison.toNat ∧ at_ 13 3 = 0 ∧
      (match l.reg with
        | .v _ => at_ 0 8 = 0 ∧ t.blk.pad.readLE (4096 * s.ag.ctl.tframe.toNat + 256 * (2 + i)) 256 = l.val.toNat
        | _ => at_ 0 8 = l.val.toNat % 2 ^ 64)
  outside : ∀ a, a < 4096 * s.ag.ctl.tframe.toNat ∨ 4096 * s.ag.ctl.tframe.toNat + 14 * 256 ≤ a →
    t.blk.pad.byte a = s.blk.pad.byte a ∧ t.blk.pad.granule (a / 4) = s.blk.pad.granule (a / 4)
  frame : t = { s with
    blk := { s.blk with pad := t.blk.pad }
    ag := { s.ag with
      ctl := t.ag.ctl
      latches := []
      rep := none
      wait := 0
      trap := none
      shadow := none
      pc := s.ag.ctl.tvec }
    cur := t.cur }

/-- The interlock cycles that pass before the word at which the agent `x` of the state would go on (R147): `n`, of at most
12, and none where a result is pending, a translation is open, or the agent is the MP. -/
def PassesInterlocks (u : State) (x : Agent) (n : Nat) : Prop :=
  if x.pend = [] ∧ x.walk = none ∧ u.cur.w ≠ 4 then
    n ≤ 12 ∧ (∀ j < n, nextInterlocked { u with ag := x.ticks j } = true) ∧
      (n < 12 → nextInterlocked { u with ag := x.ticks n } = false)
  else n = 0

/-- The stream can enter its handler: it runs none, has one, and the frame lies within the block's rows. -/
structure CanEnter (s : State) : Prop where
  stream : s.cur.w < 4
  outside : s.ag.ctl.inh = false
  handler : s.ag.ctl.tvec ≠ 0
  rows : 16 * s.ag.ctl.tframe.toNat + 14 ≤ s.blk.sprows
  pad : s.blk.pad.wf = true

end Sys2Proof.Machine

/-- R86, R87, R113, R206, R337: raising a trap and TRAP. A trap of a word is entered at once where no result is pending, with the
word's address in EPC and the repetitions still to issue in REPLEFT; otherwise it is recorded, an open region closes
(R285), and the stream issues nothing. In a handler it is a core fault of code 2; with TVEC 0 it halts the stream; the MP stops with the cause. TRAP
passes, and then raises SWTRAP with its code at the next word, whose interlock cycles pass first (R147). -/
def Obligations.Traps : Prop :=
  ∀ (s : State) (code : BitVec 8) (late : Bool) (epc tval : Word) (rep : Nat) (c22 : BitVec 22),
    let r := raiseAt s code late epc tval rep
    let cause := BitVec.ofNat 10 (code.toNat + 256 * late.toNat)
    let passed : State := { s with
      ag := { s.ag.ticks (1 + s.cur.hdr.w.val) with pc := s.cur.next }
      cur := { s.cur with disp := .done } }
    (s.raise code tval = raiseAt s code false s.cur.pc tval (s.ag.rep.getD 0)) ∧
    (CanEnter s → s.ag.pend = [] → s.ag.walk = none → Entered s r cause epc tval rep) ∧
    (s.cur.w < 4 → s.ag.ctl.inh = false → s.ag.ctl.tvec ≠ 0 → s.ag.pend ≠ [] ∨ s.ag.walk ≠ none →
      r = { s with
        ag := { s.ag with
          trap := some ⟨code, late, epc, tval, rep⟩
          ctl := { s.ag.ctl with tslip := s.ag.ctl.tslip.close true } }
        cur := { s.cur with disp := .stopped } }) ∧
    (s.cur.w < 4 → s.ag.ctl.inh = true → r.blk.status = .failed ∧ (r.core s.blk.core).fcode = 2 ∧ r.ag = s.ag) ∧
    (s.cur.w < 4 → s.ag.ctl.inh = false → s.ag.ctl.tvec = 0 →
      r = { s with
        ag := { s.ag with run := .halted }
        cur := { s.cur with disp := .stopped } }) ∧
    (s.cur.w = 4 → r = { s with
      ag := { s.ag with
        run := .mpStopped
        ctl := { s.ag.ctl with
          tcause := BitVec.ofNat 10 code.toNat
          epc := epc
          tval := tval
          mptxid := 0 } }
      cur := { s.cur with disp := .stopped } }) ∧
    (Runs (.trap c22) s → CanEnter passed → passed.ag.pend = [] → passed.ag.walk = none →
      ∃ t n, exec (.trap c22) s = .next t ∧ PassesInterlocks passed passed.ag n ∧
        Entered { passed with ag := passed.ag.ticks n } t (BitVec.ofNat 10 cSWTRAP.toNat) s.cur.next (c22.setWidth 64) 0)

/-- R50, R88, R89, R114: ERET. With INH clear it raises ILLEGAL. In a handler without a pending mark it reads SSTAT, the pc, the
repetitions and the latches back from the frame and clears INH, and one stream cycle passes; with SFINFO valid it enters
the handler again for the shadow fault instead, with SFPC and SFADDR of the frame unchanged, SFINFO zero, REPLEFT as
SFINFO bit 8 has it, and the REM of every descriptor of a latch greater by 1 + W. The model's choice, from
notes/assumptions/54.md: a REG beyond the registers of its KIND names one modulo their number. -/
def Obligations.ExceptionReturn : Prop :=
  ∀ s : State, Runs .eret s →
    let a := s.ag
    let base := 4096 * a.ctl.tframe.toNat
    let at_ (o n : Nat) : Nat := s.blk.pad.readLE (base + o) n
    let sstat := BitVec.ofNat 64 (at_ 0x18 8)
    let sf := BitVec.ofNat 64 (at_ 0x38 8)
    let n := min (at_ 0x40 8 % 16) 12
    let c : Ctl := { a.ctl with
      imask := sstat.extractLsb' 16 8
      vs := sstat.getLsbD 3
      inh := false
      ie := sstat.getLsbD 1
      pm := sstat.getLsbD 0 }
    (a.ctl.inh = false → exec .eret s = .next (s.raise cILLEGAL s.cur.raw)) ∧
    (a.ctl.inh = true → a.pend ≠ [] → exec .eret s = .next { s with cur := { s.cur with disp := .waits } }) ∧
    (a.ctl.inh = true → a.pend = [] → sf.getLsbD 63 = false → ∃ l,
      exec .eret s = .next { s with
        ag := ({ a with
          pc := BitVec.ofNat 64 (at_ 0x00 8) &&& ~~~7#64
          ctl := c
          rep := if at_ 0x20 4 = 0 then none else some (at_ 0x20 4)
          latches := l } : Agent).tick
        cur := { s.cur with disp := .done } } ∧
      ∀ x, x ∈ l ↔ ∃ i < n,
        let d := 0x100 + 16 * i
        (at_ (d + 8) 1 = 1 ∧ x.reg = .s (Fin.ofNat 32 (at_ (d + 9) 1)) ∨ at_ (d + 8) 1 = 2 ∧ x.reg = .v (Fin.ofNat 16 (at_ (d + 9) 1)) ∨
          at_ (d + 8) 1 = 3 ∧ x.reg = .p (Fin.ofNat 8 (at_ (d + 9) 1)) ∨ at_ (d + 8) 1 = 4 ∧ x.reg = .k (Fin.ofNat 8 (at_ (d + 9) 1))) ∧
        x.val = BitVec.ofNat 2048 (if at_ (d + 8) 1 = 2 then at_ (256 * (2 + i)) 256 else at_ d 8) ∧
        x.tag = a.cyc + 1 + min (max (at_ (d + 10) 1) 1) 11 ∧ x.flags.toNat = at_ (d + 11) 1 % 32 ∧
        x.poison = decide (at_ (d + 12) 1 % 2 = 1)) ∧
    (a.ctl.inh = true → a.pend = [] → sf.getLsbD 63 = true → c.tvec ≠ 0 → s.blk.pad.wf = true →
      ∃ t, exec .eret s = .next t ∧
        let cause : BitVec 10 := BitVec.ofNat 10 (512 + (sf.extractLsb' 0 8).toNat)
        let back (o n : Nat) : Nat := t.blk.pad.readLE (base + o) n
        t = { s with
          ag := ({ a with
            pc := c.tvec
            rep := none
            ctl := { c with
              tcause := cause
              epc := BitVec.ofNat 64 (at_ 0x28 8)
              tval := BitVec.ofNat 64 (at_ 0x30 8)
              pm := true
              inh := true
              ie := false
              tslip := c.tslip.close true } } : Agent).tick
          blk := { s.blk with pad := t.blk.pad }
          cur := { s.cur with disp := .done } } ∧
        back 0x00 8 = at_ 0x28 8 ∧ back 0x08 8 = cause.toNat ∧ back 0x10 8 = at_ 0x30 8 ∧
        back 0x18 8 = (sstatWord s.blk s.cur.w c).toNat ∧ back 0x38 8 = 0 ∧
        back 0x28 8 = at_ 0x28 8 ∧ back 0x30 8 = at_ 0x30 8 ∧
        back 0x20 8 = (at_ 0x20 4 + if sf.getLsbD 8 then 1 else 0) % 2 ^ 32 ∧
        (∀ i < 12, back (0x100 + 16 * i + 10) 1 = if at_ (0x100 + 16 * i + 8) 1 = 0 then at_ (0x100 + 16 * i + 10) 1
          else (at_ (0x100 + 16 * i + 10) 1 + 1 + (sf.extractLsb' 16 3).toNat) % 256) ∧
        (∀ o, 0x100 ≤ o → o < 0x200 → o % 16 ≠ 10 ∨ 0x1C0 ≤ o → back o 1 = at_ o 1) ∧
        ∀ o, o < base ∨ base + 512 ≤ o → t.blk.pad.byte o = s.blk.pad.byte o)

/-- R118 to R120, R237, R337, R338: TLBINV drops the named translations of the block's partition on the named cores and has
its collective engine walk anew, BANKSV and
BANKLD claim a bank that no instruction of the block holds and write or take its saved copy (launch state where there is
none), and PCMD hands the address of a readable command to the partition controller, its lines given up by the host (R247). -/
def Obligations.SystemWords : Prop :=
  ∀ (s : State) (a : SReg) (scope kind : Fin 4) (bank : Fin 16),
    let b := s.blk
    let va := s.sReg a
    (∀ i, i = .tlbinv a scope → Runs i s → s.ag.poisoned (.s a) = false → s.ag.accs = [] →
      let named (c : Nat) : Prop := c = b.core ∨ scope.val % 2 = 1 ∧ c ∈ (s.part b.part).cores
      walkOpen s scope va (scopeCores s scope) = false →
      ∃ t, exec i s = .next t ∧
        (∀ c e, named c → (e ∈ (t.core c).tlb ↔ e ∈ (s.core c).tlb ∧
          ¬ (e.part = b.part ∧ (2 ≤ scope.val ∨ e.covers b.part va = true)))) ∧
        (∀ c, ¬ named c → t.core c = s.core c) ∧ (∀ c, t.core c = { s.core c with tlb := (t.core c).tlb }) ∧
        t = { s with
          cores := t.cores
          engWalks := s.engWalks.filter fun k => k.part != b.part
          cur := { s.cur with disp := .issued } }) ∧
    (∀ c, bankHeld s b.core s.cur.b b s.agentList kind.val bank.val = false → b.worksHold kind.val bank.val = false →
      (s.core b.core).claim? b.slot kind.val bank.val = some c →
      let u := s.setCore b.core c
      (Runs (.banksv bank kind) s → exec (.banksv bank kind) s = .next (blockDid u s.ag
        (if kind = 0 then { b with savedTiles := putKey b.savedTiles bank.val (b.tiles.filter fun p => p.1 / 64 == bank.val) }
        else if kind = 1 then { b with savedAccs := putKey b.savedAccs bank.val (b.accs.filter fun p => p.1 / 8 == bank.val) }
        else { b with savedVecs := putKey b.savedVecs bank.val ((s.agent bank.val).v, (s.agent bank.val).vPoison) }))) ∧
      (Runs (.bankld bank kind) s →
        (kind = 0 → ∃ t, exec (.bankld bank kind) s = .next (blockDid u s.ag { b with tiles := t }) ∧
          (getKey b.savedTiles bank.val = none → ∀ n, getKey t n = if n / 64 = bank.val then none else getKey b.tiles n) ∧
          ∀ l, getKey b.savedTiles bank.val = some l → (l.map (·.1)).Nodup → (∀ p ∈ l, p.1 / 64 = bank.val) →
            ∀ n, getKey t n = if n / 64 = bank.val then getKey l n else getKey b.tiles n) ∧
        (kind = 1 → ∃ t, exec (.bankld bank kind) s = .next (blockDid u s.ag { b with accs := t }) ∧
          (getKey b.savedAccs bank.val = none → ∀ n, getKey t n = if n / 8 = bank.val then none else getKey b.accs n) ∧
          ∀ l, getKey b.savedAccs bank.val = some l → (l.map (·.1)).Nodup → (∀ p ∈ l, p.1 / 8 = bank.val) →
            ∀ n, getKey t n = if n / 8 = bank.val then getKey l n else getKey b.accs n) ∧
        (kind = 2 → bank.val = s.cur.w → exec (.bankld bank kind) s = .next (agentDid u { s.ag with
          v := ((getKey b.savedVecs bank.val).getD (Vector.replicate 16 0, 0)).1
          vPoison := ((getKey b.savedVecs bank.val).getD (Vector.replicate 16 0, 0)).2 })) ∧
        (kind = 2 → bank.val ≠ s.cur.w → ∃ t, exec (.bankld bank kind) s = .next t ∧
          t = blockDid u s.ag { b with agents := t.blk.agents } ∧
          ∀ w : Fin 5, t.blk.agents[w] = if w.val = bank.val % 5 then { s.agent bank.val with
            v := ((getKey b.savedVecs bank.val).getD (Vector.replicate 16 0, 0)).1
            vPoison := ((getKey b.savedVecs bank.val).getD (Vector.replicate 16 0, 0)).2 } else b.agents[w]))) ∧
    (∀ i l, i = .pcmd a → Runs i s → s.ag.poisoned (.s a) = false → s.ag.accs = [] →
      (va.toNat % 256 ≠ 0 → exec i s = .next (s.raise cPROT va)) ∧
      (canonical va = true → inWindow va = true → exec i s = .next (s.raise cPROT va)) ∧
      (∀ c, va.toNat % 256 = 0 → (canonical va && inWindow va) = false → translate s b va .load = .fault c →
        exec i s = .next (s.raise c va)) ∧
      (va.toNat % 256 = 0 → (canonical va && inWindow va) = false → translate s b va .load = .ok l →
        ((readLoc s l 256).2 = true → exec i s = .next ((s.snoopLoc l 256).raise cPOISON va)) ∧
        ((readLoc s l 256).2 = false → exec i s = .next { s.snoopLoc l 256 with
          pcmds := s.pcmds ++ [⟨b.part, va⟩]
          cur := { s.cur with disp := .issued } })))

/-- R109, R274 to R277: a MARK that is no operator boundary, of a stream with every access performed and no result
pending, passes where no timetable entry misses: each entry of its stream with NEED at the marker counts one check
more, each with TRIG at it fires once more, a copy it fires starts with its addresses stepped and relocated, and a release
joins the core's hints, to take effect once its range is translated. A
boundary MARK of the only running stream, with the copy channels idle, also writes the replay record of the block as
it then stands. R111, R226: EXIT ends the stream once its accesses have performed, and on the MP its channels are
idle: latches and pending results, a unit's among them, are discarded and an open region closes. With the last agent gone the block has
ended and has left its slot. -/
def Obligations.MarksAndExit : Prop :=
  (∀ (s : State) (m : BitVec 32), 
      let b := s.blk
      let w := s.cur.w
      let tt := s.timetable b
      let F (j : Nat) : Nat := b.ttF.getD j 0
      let C (j : Nat) : Nat := b.ttC.getD j 0
      let marker := m.toNat % 2 ^ 31
      let needs (e : TtEntry) : Prop := e.stream = w ∧ e.need = marker ∧ e.need ≠ 0x7FFFFFFF
      let fires (e : TtEntry) : Prop := e.stream = w ∧ e.trig = marker
      Runs (.mark m) s → s.ag.accs = [] → s.ag.pend = [] →
      (∀ (j : Nat) (e : TtEntry), tt[j]? = some e →
        (needs e → F j ≠ C j ∧ ∀ x ∈ b.chans[4].xfers, isFiring j (C j) x = true → x.st = .done) ∧
        (fires e → e.need ≠ 0x7FFFFFFF → (F j + 2 ^ 32 - C j) % 2 ^ 32 ≠ 4)) →
      let Effects (t : State) : Prop :=
        (∀ (j : Nat) (e : TtEntry), tt[j]? = some e → needs e → fires e → False) →
        (∀ j, t.blk.ttC.getD j 0 = if ∃ e, tt[j]? = some e ∧ needs e then (C j + 1) % 2 ^ 32 else C j) ∧
        (∀ j, t.blk.ttF.getD j 0 = if ∃ e, tt[j]? = some e ∧ fires e then (F j + 1) % 2 ^ 32 else F j) ∧
        (∀ (j : Nat) (e : TtEntry), tt[j]? = some e → fires e → e.kind ≠ 3 → tt.length ≤ 4096 → F j < 2 ^ 32 → ∃ x ∈ t.blk.chans[4].xfers,
          x.st = .active ∧ isFiring j (F j) x = true ∧ x.size = e.len ∧
          x.desc.src = e.src + BitVec.ofNat 64 (F j) * e.sstep + (match e.rsrc with | some k => b.reloc[k] | none => 0) ∧
          (e.kind = 0 →
            x.desc.dst = e.dst + BitVec.ofNat 64 (F j) * e.dstep + match e.rdst with | some k => b.reloc[k] | none => 0))
      (m.getLsbD 31 = false → ∃ t, exec (.mark m) s = .next t ∧ Effects t ∧
        (b.mig.hb = false → t.blk.migrating = b.migrating ∧ t.blk.trigger = b.trigger ∧ t.blk.migChecked = b.migChecked) ∧ (∀ n : Fin 5, n ≠ 4 → t.blk.chans[n] = b.chans[n]) ∧
        (∀ c, c ≠ b.core → t.core c = s.core c) ∧
        t.core b.core = { s.core b.core with hints := (s.core b.core).hints ++
          (tt.zipIdx.filter fun q => decide (fires q.1) && q.1.kind == 3).map fun q =>
            let src := q.1.src + BitVec.ofNat 64 (F q.2) * q.1.sstep + (match q.1.rsrc with | some k => b.reloc[k] | none => 0)
            ⟨s.cur.b, .release, src &&& ~~~63#64, 64, (src.toNat % 64 + q.1.len + 63) / 64, 0, none⟩ } ∧
        t = { s with
          ag := { s.ag.ticks (1 + s.cur.hdr.w.val) with pc := s.cur.next }
          blk := { b with
            chans := t.blk.chans
            ttF := t.blk.ttF
            ttC := t.blk.ttC
            migrating := t.blk.migrating
            trigger := t.blk.trigger
            migChecked := t.blk.migChecked }
          cores := t.cores
          cur := { s.cur with disp := .done } }) ∧
      (m.getLsbD 31 = true → s.cur.hdr.s = false → w < 4 → s.ag.run = .running → s.ag.stopped = none →
        s.ag.stoppedIn = none → noneStopped s = true → (∀ v < 4, v ≠ w → (s.agent v).run ≠ .running) → (∀ n : Fin 4, b.chans[n].busy = false) →
        boundaryAt s w = some (s.cur.hdr, m) → s.cur.pc = s.ag.pc → s.cur.next = s.ag.pc + 8 → sliceOver s = false → 
        ∃ t r, exec (.mark m) s = .next t ∧ Effects t ∧ t.blk.replay = some r ∧
          r.chans = t.blk.chans ∧ r.ports = b.ports ∧ r.mig = b.mig ∧ r.reloc = b.reloc ∧ r.ttF = t.blk.ttF ∧ r.ttC = t.blk.ttC ∧
          (∀ k : Fin 5, k.val = w → r.agents[k] = { t.ag with
            v := Vector.replicate 16 0
            vPoison := 0 }) ∧
          t.ag.pc = s.cur.next ∧ t.blk.failures = 0 ∧ t.blk.replaying = false ∧ t.blk.status = b.status ∧
          t.blk.tiles = b.tiles ∧ t.blk.accs = b.accs ∧ t.blk.pad = b.pad ∧ t.mem = s.mem)) ∧
  (∀ s : State, Runs .exit s → s.ag.accs = [] → s.cur.w < 5 → (s.cur.w = 4 → ∀ n : Fin 4, s.blk.chans[n].busy = false) →
      ∃ t, exec .exit s = .next t ∧
        t.ag = { s.ag with
          run := .exited
          latches := []
          pend := []
          ready := []
          stopped := none
          stoppedIn := none
          ctl := { s.ag.ctl with tslip := s.ag.ctl.tslip.close false } } ∧
        let dropped (j : Option Job) : Option Job :=
          j.map fun x => if x.block = s.cur.b ∧ x.agent = s.cur.w then { x with results := [] } else x
        (∀ c, c ≠ s.blk.core → t.core c = s.core c) ∧
        (t.core s.blk.core).matrix = dropped (s.core s.blk.core).matrix ∧
        (t.core s.blk.core).tile = dropped (s.core s.blk.core).tile ∧
        let last := ∀ w < 5, w ≠ s.cur.w → (s.agent w).run = .exited ∨ (s.agent w).run = .noProgram
        (¬ last → t = { s with
            ag := t.ag
            cores := t.cores
            cur := { s.cur with disp := .done } } ∧
          t.core s.blk.core = { s.core s.blk.core with
            matrix := (t.core s.blk.core).matrix
            tile := (t.core s.blk.core).tile }) ∧
        (last → s.blk.slot < 4 → t.blk.status = .ended ∧ (t.core s.blk.core).slots[s.blk.slot % 4]'(Nat.mod_lt _ (by decide)) = none ∧
          (t.core s.blk.core).ctxv.getLsbD s.blk.slot = false ∧
          (∀ r ∈ t.requests, r.block ≠ some s.cur.b) ∧ t.mem = s.mem ∧ t.parts = s.parts ∧
          ((∀ e ∈ s.blk.ports[0].res.drop s.blk.ports[0].resClaims, e.1 = BitVec.allOnes 64) → t.blocks = s.blocks) ∧
          t.blk = { s.blk with
            status := .ended
            chans := t.blk.chans }))

/-! ## MOVE words -/

namespace Sys2Proof.Machine

/-- The MP's state once a channel has started a transfer: it has the channel's next id, the scalar named carries a mark
until it completes (R216), the transfer is held where an earlier one is stopped by a fault (R217), and the post-advances
of its items are applied (R214). -/
def transferStarted (s : State) (ch : Fin 4) (k : SReg) (x : Transfer) (adv : List HReg) : State :=
  let c := s.blk.chans[ch.val]
  let x' := { x with
    id := c.next
    token := some k
    order := s.blk.copies
    st := if ∃ y ∈ c.xfers, y.st = .held ∨ y.faulted = true then .held else x.st }
  let c' : Chan := { c with
    next := c.next + 1
    xfers := c.xfers ++ [x'] }
  { s with
    ag := ({ s.ag with pend := s.ag.pend ++ [.s k] } : Agent).advance adv
    blk := { s.blk with
      copies := s.blk.copies + 1
      chans := s.blk.chans.set ch.val { c' with xfers := c'.xfers.filter fun y =>
        y.outstanding || (decide (1 ≤ (c'.next - y.id).toNat) && decide ((c'.next - y.id).toNat ≤ 16)) } } }

/-- The fields of the descriptor at a scratchpad offset (R207). -/
def descFields (s : State) (o : Nat) : Desc :=
  let q (n k : Nat) : Nat := s.blk.pad.readLE (o + n) k
  let i (n : Nat) : Int := (BitVec.ofNat 32 (q n 4)).toInt
  ⟨BitVec.ofNat 64 (q 0 8), BitVec.ofNat 64 (q 8 8), q 16 4, q 20 2, q 22 2, i 24, i 28, i 32, i 36, BitVec.ofNat 64 (q 40 8),
    BitVec.ofNat 64 (q 48 8)⟩

/-- The descriptor that s[f] names can be read: the scalar is clean, it lies in the block's rows, and none of its
granules is poisoned (R207). -/
structure DescOk (s : State) (f : SReg) (o : Nat) (geo : Geo) : Prop where
  performed : s.ag.accs = []
  clean : s.ag.poisoned (.s f) = false
  place : ownPad s.blk (s.sReg f &&& ~~~63#64) = some o
  rows : o / 256 < s.blk.sprows
  data : s.blk.pad.anyPoison (o / 4) 16 = false
  fields : (descFields s o).ok geo = true

/-- The word's only other effect is that it has issued. -/
def plainly (s : State) : State := agentDid s s.ag

/-- A word that starts a transfer of the size of its descriptor; with ADV the scalar takes the descriptor's NEXT (R209). -/
def StartsCopy (i : Instr) (s u : State) (f : SReg) (o : Nat) (adv : Bool) : Prop :=
  (adv = false → exec i s = .next (agentDid u u.ag)) ∧
  (adv = true → ∃ t, exec i s = .next t ∧
    Wrote u t (.s f) ((BitVec.ofNat 64 (s.blk.pad.readLE (o + 56) 8)).setWidth 2048) false Flags.none)

end Sys2Proof.Machine

/-- R207 to R209, R213 to R218, R223: the copies. On a channel with room, with a descriptor that holds, COPY and COPYT start a
transfer of the descriptor's size, which for an item is the size of its image; a remote destination is another core of
the partition. A copy between items has no descriptor. A channel with 16 transfers outstanding keeps the word waiting.
A guarded-off COPYT starts its transfer all the same, marked so. -/
def Obligations.CopyWords : Prop :=
  ∀ (s u : State) (t f : SReg) (ch : Fin 4) (geo : Geo) (adv img : Bool) (item src : TileOp) (tag : BitVec 8) (bo : Fin 16)
    (o : Nat),
    let room (v : State) : Prop := (v.blk.chans[ch.val].xfers.filter (·.outstanding)).length < 16
    let id := s.blk.chans[ch.val].next
    let ref (x : TileOp) : ItemRef :=
      ⟨(s.ag.h[x.h]).cls, (resolve (s.ag.h[x.h]) x.o.val).1, (resolve (s.ag.h[x.h]) x.o.val).2, (s.ag.h[x.h]).q, (s.ag.h[x.h]).core⟩
    let it := ref item
    let reach := it.cls = 2 → it.core.toNat ∈ (s.part s.blk.part).cores ∧ it.core.toNat ≠ s.blk.core
    let image := if it.cls = 1 then 4096 else if img then 2304 else 2048
    let d := descFields s o
    let start (form : CopyForm) : Transfer := { Transfer.start id form with
      desc := d
      size := d.size geo }
    let moved (x : TileOp) : List HReg := if x.adv then [x.h] else []
    (room s → DescOk s f o geo → Runs (.copy t f ch geo adv) s →
      StartsCopy (.copy t f ch geo adv) s (transferStarted s ch t (start (.mem geo)) []) f o adv) ∧
    (¬ room s → Runs (.copy t f ch geo adv) s →
      exec (.copy t f ch geo adv) s = .next { s with cur := { s.cur with disp := .waits } }) ∧
    (∀ i, i = .copytIn t f ch item tag img bo geo adv → reach → room s →
      (DescOk s f o geo → d.size geo = image → Runs i s → claimed i false s = some u →
        StartsCopy i s (transferStarted u ch t { start (.toItem geo it tag img) with bo := bo.val } (moved item)) f o adv) ∧
      (Skips i s → s.ag.accs = [] → claimed i true s = some u →
        exec i s = .next (plainly (transferStarted u ch t { Transfer.start id (.toItem geo it tag img) with off := true, bo := bo.val }
        (moved item))))) ∧
    (∀ i, i = .copytOut t f ch item img geo adv → room s →
      (DescOk s f o geo → d.size geo = image → Runs i s → claimed i false s = some u →
        StartsCopy i s (transferStarted u ch t (start (.fromItem geo it img)) (moved item)) f o adv) ∧
      (Skips i s → s.ag.accs = [] → claimed i true s = some u →
        exec i s = .next (plainly (transferStarted u ch t { Transfer.start id (.fromItem geo it img) with off := true }
        (moved item))))) ∧
    ∀ i off, i = .copytXfer t ch item src bo adv → reach → room s → s.ag.accs = [] → claimed i off s = some u →
      (if off then Skips i s else Runs i s) →
      exec i s = .next (plainly (transferStarted u ch t { Transfer.start id (.xfer (ref src) it) with off := off, bo := bo.val }
        (moved item ++ if src.adv ∧ src.h ∉ moved item then [src.h] else [])))

/-- R215, R219 to R222: the waits, the status and the hints of the MP. CWAIT issues once its id lies before the channel's
watermark, MWAIT once its tests hold; CSTAT writes the status of an id; a hint issues at once. Where its scalar is poisoned, or
a unit of its range is known to be out of reach, it is dropped and counted; a demotion asks no permission of a page.
Another joins the core's hints where a translation is missing (R236) or lines are to come into the lease cache (R241). -/
def Obligations.CopyWaitsAndHints : Prop :=
  ∀ (s : State) (t f : SReg) (p : PReg) (ch : Fin 4) (all mbox : Bool) (chans : BitVec 4) (len1 : BitVec 12),
    let c := s.blk.chans[ch.val]
    let mark : BitVec 32 := match c.xfers.find? (·.outstanding) with
      | some x => x.id
      | none => c.next
    let ahead (x : Word) : Nat := (mark - x.setWidth 32).toNat
    let box := decide (s.blk.ports[3].cmdClaims < s.blk.ports[3].cmd.length)
    let tests := (if mbox then [box] else []) ++ ((List.finRange 4).filter fun n => chans.getLsbD n.val).map fun n => !s.blk.chans[n.val].busy
    let holds : Prop := tests = [] ∨ if all then ∀ x ∈ tests, x = true else true ∈ tests
    let units := (List.range (len1.toNat + 1)).map fun n => (s.sReg f &&& ~~~255#64) + BitVec.ofNat 64 (256 * n)
    let out (kind : HintKind) : Prop := ∃ va ∈ units, ∃ c, hintTr s s.blk kind va = .fault c
    let known (kind : HintKind) : Prop := ∀ va ∈ units, hintTr s s.blk kind va ≠ .miss
    let joined (kind : HintKind) : State := s.setCore s.blk.core { s.core s.blk.core with
      hints := (s.core s.blk.core).hints ++ [⟨s.cur.b, kind, s.sReg f &&& ~~~255#64, 256, len1.toNat + 1, 0, none⟩] }
    let dropped : State := s.setCore s.blk.core { s.core s.blk.core with
      hdrop := if (s.core s.blk.core).hdrop = 0xFFFFFFFF then (s.core s.blk.core).hdrop else (s.core s.blk.core).hdrop + 1 }
    let Hint (i : Instr) (kind : HintKind) : Prop := Runs i s →
      (s.ag.poisoned (.s f) = true ∨ out kind → exec i s = .next (agentDid dropped s.ag)) ∧
      (s.ag.poisoned (.s f) = false → ¬ out kind → known kind → kind ≠ .lease → exec i s = .next (agentDid s s.ag)) ∧
      (s.ag.poisoned (.s f) = false → ¬ out kind → ¬ known kind ∨ kind = .lease → exec i s = .next (agentDid (joined kind) s.ag))
    (Runs (.cwait t ch) s →
      (1 ≤ ahead (s.sReg t) → ahead (s.sReg t) < 2 ^ 31 → exec (.cwait t ch) s = .next (agentDid s s.ag)) ∧
      (ahead (s.sReg t) = 0 ∨ 2 ^ 31 ≤ ahead (s.sReg t) →
        exec (.cwait t ch) s = .next { s with cur := { s.cur with disp := .waits } })) ∧
    (let id : BitVec 32 := (s.sReg f).setWidth 32
     let recent := 1 ≤ (c.next - id).toNat ∧ (c.next - id).toNat ≤ 16
     (∀ x, recent → c.xfers.find? (fun x => x.id == id) = some x → ScalarResult s (.cstat t f ch) t
       (BitVec.ofNat 64 (2 ^ 63 + x.st.code.toNat * 2 ^ 48 + min x.pads 65535 * 2 ^ 32 + id.toNat)) [.s f]) ∧
     (¬ recent ∨ c.xfers.find? (fun x => x.id == id) = none → ScalarResult s (.cstat t f ch) t (id.setWidth 64) [.s f])) ∧
    Hint (.prefL2 f len1) .l2 ∧ Hint (.prefDemote f len1) .demote ∧ Hint (.prefLease f len1) .lease ∧
    (∀ va e, canonical va = true → inWindow va = false → textOffset s s.blk va = none →
      ((s.core s.blk.core).tlb.find? fun e => e.covers s.blk.part va) = some e →
      let pa := e.frame * 4096 + va.toNat % (e.pages * 4096)
      hintTr s s.blk .l2 va = hintTr s s.blk .lease va ∧
      (remotePkg pa = none → hintTr s s.blk .demote va =
        if paAllowed s (s.part s.blk.part) pa = true then .ok (.phys pa) else .fault cPROT) ∧
      (remotePkg pa = none → hintTr s s.blk .l2 va =
        if e.bits.getLsbD 2 = true ∧ paAllowed s (s.part s.blk.part) pa = true then .ok (.phys pa) else .fault cPROT)) ∧
    (holds → PredicateResult s (.mwait p all chans mbox) p box []) ∧
    (¬ holds → Runs (.mwait p all chans mbox) s →
      exec (.mwait p all chans mbox) s = .next { s with cur := { s.cur with disp := .waits } })

/-! ## Words that do not run -/

/-- R67, R68, R71, R77, R78, R81, R83, R35: what holds of every word that its agent decodes (R52, R63 to R65) and that does not run. A check that fails raises its cause with
the word in TVAL and has no other effect: a privileged word of an unprivileged stream or of the MP raises PRIV. A pending
mark on a register of the word keeps it waiting, and so does a flag or VS that the word names and that an earlier TILE word of
its stream may still set (R164, R185; the model's reading, notes/assumptions/18.md); a latched destination costs an interlock cycle; a poisoned guard raises
POISON. A word guarded off issues without an effect but the advance of the generator it names, TILE, handle, count and
copy words apart. -/
def Obligations.WordsHeldBack : Prop :=
  ∀ (i : Instr) (s : State), i.isOneWord = true ∨ i.isScalarHalf = true ∨ i.isVectorHalf = true →
    i.agentOk (s.cur.w == 4) = true →
    let Stops (d : Disp) : Prop := exec i s = .next { s with cur := { s.cur with disp := d } }
    (∀ c, checks i s = some c → exec i s = .next (s.raise c s.cur.raw)) ∧
    (i.privileged = true → s.cur.w = 4 ∨ s.ag.ctl.pm = false → exec i s = .next (s.raise cPRIV s.cur.raw)) ∧
    (checks i s = none → absentOn (isOchre s.blk.core) i = false →
      ((∃ r ∈ markRegs i s, r ∈ s.ag.pend) → Stops .waits) ∧ (ctlPending i s = true → Stops .waits) ∧
      ((∀ r ∈ markRegs i s, r ∉ s.ag.pend) → ctlPending i s = false →
        (latchedDest i s = true → Stops .interlock) ∧
        (latchedDest i s = false → s.ag.poisoned (.p s.cur.hdr.g) = true →
          exec i s = .next (s.raise cPOISON (BitVec.ofNat 64 s.cur.hdr.g.val))))) ∧
    (Skips i s → itemOps i = [] → ∀ u, claimed i true s = some u →
      (∀ t f ch x y z w g a, i ≠ .copytIn t f ch x y z w g a) → (∀ t f ch x y g a, i ≠ .copytOut t f ch x y g a) →
      (∀ t ch x y z a, i ≠ .copytXfer t ch x y z a) →
      exec i s = .next (agentDid u (s.ag.advanceGen (rmOf i))))

/-- R168: a TILE word that is guarded off. Its reads count, its destination receives a void generation, its post-advances and
its generator advance, its unit is busy; no data, side-band, tag, flag, VS or other state changes. -/
def Obligations.GuardedOffTiles : Prop :=
  ∀ (i : Instr) (s u : State), 0 < (tileHandles i).length → Skips i s → claimed i true s = some u → Ready i u →
    let it := itemsOf u.ag i
    ∃ t, exec i s = .next t ∧
      (∀ n, (it.dst.any fun d => d.r == n || (d.r + 1 == n && decide (512 ≤ d.r))) = false → t.blk.md n =
        if it.src.any fun p => p.r == n then { u.blk.md n with rc := BitVec.ofNat 4 (min ((u.blk.md n).rc.toNat + 1) 15) }
        else u.blk.md n) ∧
      (∀ d, it.dst = some d → ∃ p, t.blk.md d.r =
          { wc := d.x, q := d.q, rc := 0, void := true, poison := p, tag := (u.blk.md d.r).tag } ∧
        (it.poison u.blk = true → p = true)) ∧
      (∀ n, (t.blk.tile n).data = (u.blk.tile n).data ∧ (t.blk.tile n).side = (u.blk.tile n).side ∧
        (t.blk.acc n).data = (u.blk.acc n).data) ∧
      (∀ h, t.ag.h[h] = if h ∈ advancesOf i then (u.ag.h[h]).advance else u.ag.h[h]) ∧
      (∀ c, t.core c = if c = u.blk.core then { (u.core c).setUnit (onMatrix i) (some (plainJob it u)) with
          waiters := (u.core c).waiters.filter fun x => !(x.block == u.cur.b && x.agent == u.cur.w) }
        else u.core c) ∧
      t = { u with
        ag := ({ u.ag with h := t.ag.h } : Agent).advanceGen (rmOf i)
        blk := { u.blk with tiles := t.blk.tiles, accs := t.blk.accs }
        cores := t.cores
        cur := { u.cur with disp := .issued } }

/-- R143, R161 to R167, R177, R181, R183, R184, R80: the checks that stop a handle, count, TILE or ring word, each with its cause
and TVAL. An item that has been overwritten raises OVRN, and a generation already written DWRT, for the first such item in
the order A, B, C, D, before any wait. A poisoned scalar raises POISON; a mask scalar with a count above its extent or a bit outside
its fields HBOUND; a row beyond an image's rows HBOUND. A check operation of a poisoned item raises POISON, and a source
whose tag is not accepted ILLEGAL, with the register and the tag. HSET, TSETC and the descriptor of a ring are refused as
R161, R181 and R143 say, and nothing is written. A sync word that names a stream that can not meet it raises SYNCFAIL. That a
poisoned source is reported before its tag, and the zero bits of SYNCFAIL's TVAL where no stream or no mask is at fault, are
the model's choices (notes/assumptions/64.md, notes/assumptions/16.md). -/
def Obligations.TileChecks : Prop :=
  (∀ (i : Instr) (s u : State) (off : Bool),
    let tile (m : TMode) : Prop := MaskOk u m (if onMatrix i then 0xFFFFFF else 0xFFFF)
      (match i with | .tcvt .. | .tcvtPageAppend .. => 255 | _ => 32) ∧ pastRowOfA i (maskCounts (u.sReg m.mask)) u = false
    (off = true ∧ Skips i s ∧ 0 < (tileHandles i).length ∨ off = false ∧ Runs i s ∧
      ((∃ d a z, i = .tzero d ∨ i = .tfromv d z ∨ i = .ttov a z) ∨ ∃ m, laterMode i = some m ∧ ∀ tm, m = some tm → tile tm)) →
    claimed i off s = some u →
    let it := itemsOf u.ag i
    let passed (wc x : BitVec 16) : Prop := 1 ≤ (wc - x).toNat ∧ (wc - x).toNat ≤ 32767
    (∀ l p r, it.src = l ++ p :: r → passed (u.blk.md p.r).wc p.x → (∀ q ∈ l, ¬ passed (u.blk.md q.r).wc q.x) →
      exec i s = .next (u.raise cOVRN (BitVec.ofNat 64 p.r))) ∧
    (∀ d, it.dst = some d → passed (u.blk.md d.r).wc (d.x - 1) → (∀ q ∈ it.src, ¬ passed (u.blk.md q.r).wc q.x) →
      exec i s = .next (u.raise cDWRT (BitVec.ofNat 64 d.r)))) ∧
  (∀ (i : Instr) (s u : State) (m : TMode), laterMode i = some (some m) → Runs i s → claimed i false s = some u →
    let x := u.sReg m.mask
    let count (n : Nat) : Nat := (x.extractLsb' n 8).toNat
    let wide : Prop := match i with | .tcvt .. | .tcvtPageAppend .. => True | _ => False
    let extent (k : Nat) : Prop := ∃ p ∈ (itemsOf u.ag i).src.head?, (u.blk.md p.r).wc = p.x ∧ (u.blk.md p.r).void = false ∧
      tagValid (u.blk.md p.r).tag.toNat = true ∧ (u.blk.md p.r).tag ≠ 0 ∧
      k = if p.r < 512 then tagRow (u.blk.md p.r).tag else 32
    (u.ag.poisoned (.s m.mask) = true → exec i s = .next (u.raise cPOISON (BitVec.ofNat 64 m.mask.val))) ∧
    (u.ag.poisoned (.s m.mask) = false →
      (x &&& ~~~(if onMatrix i then 0xFFFFFF#64 else 0xFFFF#64) ≠ 0 ∨ 32 < count 0 ∨ ¬ wide ∧ 32 < count 8 ∨
        ∃ k, extent k ∧ k < if onMatrix i then count 16 else count 8) →
      exec i s = .next (u.raise cHBOUND x))) ∧
  (∀ (i : Instr) (s u : State) (o : TileOp) (c : SReg), i = .tlds o c ∨ i = .tsts o c → Runs i s → claimed i false s = some u →
    (u.ag.poisoned (.s c) = true → exec i s = .next (u.raise cPOISON (BitVec.ofNat 64 c.val))) ∧
    (u.ag.poisoned (.s c) = false → 8183 < (u.sReg c).toNat → exec i s = .next (u.raise cHBOUND (u.sReg c))) ∧
    (i = .tlds o c → u.ag.poisoned (.s c) = false → (u.sReg c).toNat ≤ 8183 → u.blk.sprows ≤ (u.sReg c).toNat → u.ag.ctl.prog = 0 →
      exec i s = .next (u.raise cPROT (padVa u.blk (256 * (u.sReg c).toNat))))) ∧
  (∀ (i : Instr) (s u : State) (d a b : TileOp) (c : SReg) (z : Bool) (m : TMode), Runs i s → claimed i false s = some u → Ready i u →
    let it := itemsOf u.ag i
    let mA := u.blk.md it.a.r
    let mB := u.blk.md it.b.r
    let acc := 512 ≤ it.a.r
    let bad (p : Opnd) : Prop := exec i s = .next (u.raise cILLEGAL (BitVec.ofNat 64 (p.r + 2 ^ 16 * (u.blk.md p.r).tag.toNat)))
    let elementwise := i = .tadd d a b m ∨ i = .tmul d a b m ∨ i = .tmax d a b m
    let mask : Prop := MaskOk u m 0xFFFF 32 ∧ pastRowOfA i (maskCounts (u.sReg m.mask)) u = false
    it.a.r < 1024 → it.b.r < 1024 →
    (mA.poison = true → i = .ttov a z ∨ i = .tsts a c ∧ u.ag.poisoned (.s c) = false ∧ (u.sReg c).toNat ≤ 8183 →
      exec i s = .next (u.raise cPOISON (BitVec.ofNat 64 it.a.r))) ∧
    (mA.void = false →
      (mA.poison = false → tagValid mA.tag.toNat = false →
        i = .ttov a z ∨ i = .tsts a c ∧ u.ag.poisoned (.s c) = false ∧ (u.sReg c).toNat ≤ 8183 → bad it.a) ∧
      (i = .tmov d a → (if acc then mA.tag ≠ 0x10 else tagValid mA.tag.toNat = false) → bad it.a) ∧
      (i = .ttrn d a → mA.tag ≠ 0x20 → mA.tag ≠ 0x30 → bad it.a) ∧
      (elementwise → mask → ¬ floatTag mA.tag → bad it.a) ∧
      (elementwise → mask → floatTag mA.tag → mB.void = false → mB.tag ≠ mA.tag → bad it.b) ∧
      (i = .tscal d a b m → mask → ¬ floatTag mA.tag → bad it.a) ∧
      (i = .tscal d a b m → mask → floatTag mA.tag → mB.void = false → mB.tag ≠ (if mA.tag = 0x40 then 0x40 else 0x10) → bad it.b) ∧
      (i = .tred d a m → mask → (if acc then mA.tag ≠ 0x10 else ¬ floatTag mA.tag) → bad it.a) ∧
      (∀ co, i = .tacc d a co z m → mask → mA.tag ≠ 0x10 → mA.tag ≠ 0x40 → bad it.a) ∧
      (∀ co, i = .tacc d a co false m → mask → mA.tag = 0x10 ∨ mA.tag = 0x40 → mB.void = false → mB.tag ≠ mA.tag → bad it.b))) ∧
  (∀ (s : State) (h : HReg) (a b : SReg), Runs (.hset h a b) s →
    let x := s.sReg a
    let field (lo n : Nat) : Nat := x.toNat / 2 ^ lo % 2 ^ n
    let cls := field 0 2
    (s.ag.poisoned (.s a) = true → exec (.hset h a b) s = .next (s.raise cPOISON (BitVec.ofNat 64 a.val))) ∧
    (s.ag.poisoned (.s a) = false → s.ag.poisoned (.s b) = true →
      exec (.hset h a b) s = .next (s.raise cPOISON (BitVec.ofNat 64 b.val))) ∧
    (s.ag.poisoned (.s a) = false → s.ag.poisoned (.s b) = false →
      cls = 3 ∨ cls = 2 ∧ s.cur.w ≠ 4 ∨ (cls = 0 ∨ cls = 2) ∧ 511 < field 2 9 + field 11 6 ∨ cls = 1 ∧ 63 < field 2 9 + field 11 6 ∨
        (cls = 0 ∨ cls = 1) ∧ field 21 10 ≠ 0 ∨ cls = 2 ∧ coreExists (field 21 10) = false ∨ 2 ^ 31 ≤ x.toNat ∨
        2 ^ 16 ≤ (s.sReg b).toNat →
      exec (.hset h a b) s = .next (s.raise cHBOUND x))) ∧
  (∀ (s u : State) (a b : SReg), Runs (.tsetc a b) s → claimed (.tsetc a b) false s = some u →
    let n := (u.sReg a).toNat
    let w := u.sReg b
    let tag := w.extractLsb' 32 8
    u.ag.poisoned (.s a) = false → u.ag.poisoned (.s b) = false →
    ¬ (w.extractLsb' 26 6 = 0 ∧ w.extractLsb' 40 24 = 0 ∧
      (n < 512 ∧ tagValid tag.toNat = true ∨ 512 ≤ n ∧ n < 576 ∧ (tag = 0x10 ∨ tag = 0x40))) →
    exec (.tsetc a b) s = .next (u.raise cHBOUND (u.sReg a))) ∧
  (∀ (i : Instr) (s u : State) (d : PReg) (h : HReg) (o : Fin 4),
    i = .hwait h o ∨ i = .trel h o ∨ i = .tvoid d h o → Runs i s → claimed i false s = some u →
    let p := u.ag.opnd ⟨h, o, false⟩
    let behind := ((u.blk.md p.r).wc - p.x).toNat
    ((u.ag.h[h]).cls = 2 → exec i s = .next (u.raise cHBOUND (BitVec.ofNat 64 h.val))) ∧
    ((u.ag.h[h]).cls ≠ 2 → 1 ≤ behind → behind ≤ 32767 → exec i s = .next (u.raise cOVRN (BitVec.ofNat 64 p.r))) ∧
    ((u.ag.h[h]).cls ≠ 2 → 32768 ≤ behind → exec i s = .next { u with cur := { u.cur with disp := .waits } })) ∧
  (∀ (i : Instr) (s u : State) (v : VReg) (k : KReg) (ty : VTy) (n : SReg),
    i = .vpushc v k ty n ∨ i = .vpopc v ty n → Runs i s → claimed i false s = some u →
    let x := u.sReg n
    let at_ := ownPad u.blk (x &&& ~~~31#64)
    let stops (c : BitVec 8) (tv : Word) : Prop := exec i s = .next (u.raise c tv)
    (i = .vpushc v k ty n → u.ag.poisoned (.k k) = false) →
    (u.ag.poisoned (.s n) = true → stops cPOISON (BitVec.ofNat 64 n.val)) ∧
    (u.ag.poisoned (.s n) = false → u.ag.accs = [] →
      (at_ = none → stops cPROT x) ∧
      ∀ d, at_ = some d → (u.blk.sprows * 256 ≤ d → stops cPROT x) ∧
        (d < u.blk.sprows * 256 →
          let q (j : Nat) : Nat := u.blk.pad.readLE (d + 8 * j) 8
          let base := BitVec.ofNat 64 (q 0)
          let capOk := 64 ≤ q 1 ∧ q 1 ≤ 524288 ∧ ∃ j, q 1 = 2 ^ j
          let used := (q 2 + 2 ^ 64 - q 3) % 2 ^ 64
          (ownPad u.blk base = none → stops cHBOUND x) ∧
          ∀ o0, ownPad u.blk base = some o0 →
            (o0 % 256 ≠ 0 ∨ ¬ capOk ∨ 0x200000 < o0 + 4 * q 1 ∨ q 1 < used → stops cHBOUND x) ∧
            (o0 % 256 = 0 → capOk → o0 + 4 * q 1 ≤ 0x200000 → used ≤ q 1 →
              (u.blk.sprows * 256 < o0 + 4 * q 1 →
                stops cPROT (base + BitVec.ofNat 64 (u.blk.sprows * 256 - o0))) ∧
              (o0 + 4 * q 1 ≤ u.blk.sprows * 256 → i = .vpushc v k ty n →
                q 1 - used < ((List.range 64).filter (u.kReg k).getLsbD).length → stops cHBOUND x))))) ∧
  ∀ (i : Instr) (s : State), i.isOneWord = true ∨ i.isScalarHalf = true ∨ i.isVectorHalf = true → (∀ m, i ≠ .mark m) →
    Runs i { s with cur := { s.cur with sync := true } } → s.cur.hdr.s = true → s.cur.sync = false →
    let m := s.ag.ctl.syncmsk
    let named (w : Nat) : Prop := w < 4 ∧ w ≠ s.cur.w ∧ m.getLsbD w = true
    let ended (w : Nat) : Prop := named w ∧ (s.agent w).run ≠ .running
    let differs (w : Nat) : Prop := named w ∧ (s.agent w).ctl.syncmsk ≠ m ∧ atSync s w (s.agent w) = true
    let fails (other : BitVec 4) (w : Nat) : Prop :=
      exec i s = .next (s.raise cSYNCFAIL (BitVec.ofNat 64 (m.toNat + 16 * other.toNat + 256 * w)))
    (m.getLsbD s.cur.w = false → fails 0 0) ∧
    (m.getLsbD s.cur.w = true →
      (∀ w, ended w → (∀ j < w, ¬ ended j) → fails 0 w) ∧
      ((∀ w, ¬ ended w) →
        (∀ w, differs w → (∀ j < w, ¬ differs j) → fails (s.agent w).ctl.syncmsk w) ∧
        ((∀ w, ¬ differs w) → ∃ t, exec i s = .next t ∧ t.cur.disp ≠ .issued)))

/-! ## The moves of an agent -/

namespace Sys2Proof.Machine

/-- An event of an agent of a block that no failure has stopped takes the state with the agent in focus to one for which `P`
holds, and puts the agent back: in the result the agent is the one in focus, and every other agent, block and part of the
state is as it was. Of a block that a failure has stopped no event changes anything (R176). -/
def Moves (i : Instr) (s : State) (b w : Nat) (P : State → State → Prop) : Prop :=
  ∀ B, getKey s.blocks b = some B →
    (B.status ≠ .failed → ∃ t, exec i s = .next (leave t) ∧ P (enter s b w) t) ∧
    (B.status = .failed → exec i s = .next s)

/-- A place whatever its page's LEASE bit. -/
def Loc.plain : Loc → Loc
  | .lease pa => .phys pa
  | l => l

/-- `n` bytes and their granules at a place hold `v` with the poison `p`, and every other byte and its poison are as they
were; the poison of a text byte is that of its frames (R364). -/
structure Stored (s t : State) (l : Loc) (n v : Nat) (p : Bool) : Prop where
  bytes : ∀ j < n, (readLoc t (l.plus j) 1).1 = v / 2 ^ (8 * j) % 256
  poison : ∀ j < n, (readLoc t (l.plus j) 1).2 = p
  others : ∀ q : Loc, (∀ j < n, q.plain ≠ (l.plus j).plain) → (∀ o, q ≠ .text o) → readLoc t q 1 = readLoc s q 1

/-- Of the cores, only the leases of one may differ (R241). -/
structure LeasesMay (s t : State) (core : Nat) : Prop where
  others : ∀ c, c ≠ core → t.core c = s.core c
  one : t.core core = { s.core core with leases := (t.core core).leases }

/-- Of the cores, one may have lost leases on lines that have changed, and nothing else differs (R241). -/
structure LeasesLapse (s t : State) (core : Nat) : Prop extends LeasesMay s t core where
  fewer : ∀ x ∈ (t.core core).leases, x ∈ (s.core core).leases

/-- The state's memories may differ, the host may have given up lines (R247), and leases may have lapsed; nothing else. -/
def onlyMemory (s t : State) : State :=
  { s with
    blk := { s.blk with pad := t.blk.pad }
    mem := t.mem
    hostLines := t.hostLines
    cores := t.cores }

/-- What an atomic leaves in memory, if it writes (R101). -/
def atomWrites (op : AtomOp) (old y cmp new : Word) : Prop :=
  match op with
  | .add => new = old + y
  | .min => new = if old.toInt < y.toInt then old else y
  | .max => new = if old.toInt < y.toInt then y else old
  | .and => new = old &&& y
  | .or => new = old ||| y
  | .xor => new = old ^^^ y
  | .swp => new = y
  | .cas => old = cmp ∧ new = y

end Sys2Proof.Machine

/-- R90, R97, R101, R103, R130, R189, R241: PERFORM. The oldest access of an agent takes effect in one step: a load or an
atomic reads its bytes and its poison as a result still to be delivered, a store writes its bytes with its poison, an
atomic writes what its operation says unless the old value is poisoned, a push adds its element and a pop takes the oldest
one. A load of a LEASE page may be served from the core's lease cache, and then nothing else happens. Nothing else changes,
but that leases may lapse. A write to a frame of a resident slot changes no memory (R364): the model's choice, from
notes/assumptions/7.md; so is the element that a pop removes, from notes/assumptions/65.md. -/
def Obligations.AccessesPerform : Prop :=
  ∀ (s : State) (b w : Nat), Moves (.perform b w) s b w fun u t => ∀ x r, u.ag.accs = x :: r →
    u.mem.wf = true → u.blk.pad.wf = true → x.loc = x.loc.alignDown x.kind.align → (∀ pa, x.loc = .phys pa → remotePkg pa = none) →
    let frozen := ∃ pa, x.loc.plain = .phys pa ∧ inSlotFrame u pa = true
    let rest : Agent := { u.ag with accs := r }
    let more (d : RegName) (v : VWord) (lanes : Word) (p : Bool) : Agent :=
      { rest with ready := u.ag.ready ++ [⟨d, v, lanes, p⟩] }
    let all := BitVec.allOnes 64
    let reads (a : Agent) : Prop := LeasesMay u t u.blk.core ∧ t = { u with
      ag := a
      cores := t.cores
      hostLines := t.hostLines }
    let stores (a : Agent) : Prop := LeasesLapse u t u.blk.core ∧ t = onlyMemory { u with ag := a } t
    let moves (a : Agent) (y : Block) : Prop := LeasesLapse u t u.blk.core ∧ t = { u with
      ag := a
      blk := y
      cores := t.cores }
    let onText := ∃ o, x.loc = .text o
    (∀ d, x.kind = .load d →
      (leaseRead u x.loc 8 = none →
        reads (more (.s d) (BitVec.ofNat 2048 (readLoc u x.loc 8).1) all (readLoc u x.loc 8).2)) ∧
      ∀ v p, leaseRead u x.loc 8 = some (v, p) →
        t = { u with ag := more (.s d) (BitVec.ofNat 2048 v) all (p % 4 != 0) }) ∧
    (∀ d mask old, x.kind = .vload d mask old →
      (leaseRead u x.loc 256 = none →
        reads (more (.v d) (BitVec.ofNat 2048 (readLoc u x.loc 256).1) mask (lanesPoisonLoc u x.loc mask.toNat || old))) ∧
      ∀ v p, leaseRead u x.loc 256 = some (v, p) →
        t = { u with ag := more (.v d) (BitVec.ofNat 2048 v) mask (p &&& mask.toNat != 0 || old) }) ∧
    (∀ v p, x.kind = .store v p → ¬ onText → ¬ frozen → Stored u t x.loc 8 v.toNat p ∧ stores rest) ∧
    (∀ v mask p, x.kind = .vstore v mask p → ¬ onText → ¬ frozen → stores rest ∧
      (∀ e < 64, mask.getLsbD e = true → (readLoc t (x.loc.plus (4 * e)) 4) = (elemOf v 32 e, p)) ∧
      ∀ q : Loc, (∀ j < 256, mask.getLsbD (j / 4) = true → q.plain ≠ (x.loc.plus j).plain) → (∀ o, q ≠ .text o) →
        readLoc t q 1 = readLoc u q 1) ∧
    (∀ v o, x.kind = .rows v → x.loc = .pad (256 * o) → Stored u t x.loc 2304 v.toNat false ∧ stores rest) ∧
    (frozen → (∀ n v, x.kind ≠ .push n v) → (∀ n d, x.kind ≠ .pop n d) → t.mem = u.mem ∧ t.blk = u.blk) ∧
    (∀ op d y cmp yp cp, x.kind = .atomic op d y cmp yp cp → ¬ onText → ¬ frozen →
      let old := BitVec.ofNat 64 (readLoc u x.loc 8).1
      stores (more (.s d) (old.setWidth 2048) all (readLoc u x.loc 8).2) ∧
      (∀ v, (readLoc u x.loc 8).2 = false → atomWrites op old y cmp v →
        Stored u t x.loc 8 v.toNat (yp || decide (op = .cas) && cp)) ∧
      ((readLoc u x.loc 8).2 = true ∨ op = .cas ∧ old ≠ cmp → t.mem = u.mem ∧ t.blk = u.blk)) ∧
    (∀ n v, x.kind = .push n v → moves rest { u.blk with ports := u.blk.ports.set n (if w = 4 then { u.blk.ports[n] with
          res := u.blk.ports[n].res ++ [(v, false)]
          resSlots := u.blk.ports[n].resSlots - 1 }
        else { u.blk.ports[n] with
          cmd := u.blk.ports[n].cmd ++ [v]
          cmdSlots := u.blk.ports[n].cmdSlots - 1 }) }) ∧
    (∀ n d v q l, x.kind = .pop n d → w ≠ 4 → u.blk.ports[n].res = (v, q) :: l →
      moves (more (.s d) (v.setWidth 2048) all q) { u.blk with
        ports := u.blk.ports.set n { u.blk.ports[n] with
          res := l
          resClaims := u.blk.ports[n].resClaims - 1 }
        claimed := if n = 0 then u.blk.claimed ++ [v] else u.blk.claimed }) ∧
    (∀ n d v l, x.kind = .pop n d → w = 4 → u.blk.ports[n].cmd = v :: l →
      moves (more (.s d) (v.setWidth 2048) all false) { u.blk with ports := u.blk.ports.set n { u.blk.ports[n] with
        cmd := l
        cmdClaims := u.blk.ports[n].cmdClaims - 1 } })

/-- R76 to R80, R84, R86, R90, R132, R175, R185, R186, R189, R191, R234 to R236, R241: the other moves of an agent. A result is
written to its lanes and its mark goes; latches land when their cycle has come; a unit's data comes to be complete; a
NaN report raises NANTRAP; a unit of a long word is performed, once the tile unit takes the word; a walk that is among the
64 of its cluster reads one entry, with every other walk of the core to the page, and ends in a translation or a fault,
or waits for a route; a waiting trap is entered once the interlock cycles of the word at EPC have passed (R147); line 0 is sampled; a lease lapses; sync words issue together or not at all. -/
def Obligations.AgentMoves : Prop :=
  ∀ (s : State) (b w k core line : Nat) (matrix : Bool) (mask : BitVec 4),
    Moves (.deliver b w k) s b w (fun u t => ∀ x, u.ag.ready[k]? = some x →
      (∀ q, q ≠ x.reg ∨ x.lanes = 0 → t.ag.value q = u.ag.value q ∧ t.ag.poisoned q = u.ag.poisoned q) ∧
      (x.lanes ≠ 0 → x.reg.fixed = false → t.ag.poisoned x.reg = x.poison ∧
        (∀ d e, x.reg = .v d → e < 64 → elemOf (t.vReg d) 32 e = if x.lanes.getLsbD e then elemOf x.val 32 e else elemOf (u.vReg d) 32 e) ∧
        (∀ d, x.reg = .s d → t.sReg d = x.val.setWidth 64)) ∧
      t = { u with ag := { u.ag with
        s := t.ag.s
        v := t.ag.v
        p := t.ag.p
        k := t.ag.k
        sPoison := t.ag.sPoison
        vPoison := t.ag.vPoison
        pPoison := t.ag.pPoison
        kPoison := t.ag.kPoison
        ready := u.ag.ready.eraseIdx k
        pend := u.ag.pend.erase x.reg } }) ∧
    Moves (.latchLand b w) s b w (fun u t =>
      let due := u.ag.latches.filter fun l => decide (l.tag ≤ u.ag.cyc)
      t.ag.latches = (u.ag.latches.filter fun l => decide (u.ag.cyc < l.tag)) ∧
      t.ag.ctl = { u.ag.ctl with flags := due.foldl (fun f l => f.or l.flags) u.ag.ctl.flags } ∧
      (∀ q, (∀ l ∈ due, l.reg ≠ q) → t.ag.value q = u.ag.value q ∧ t.ag.poisoned q = u.ag.poisoned q) ∧
      (∀ l pre post, due = pre ++ l :: post → (∀ x ∈ post, x.reg ≠ l.reg) → l.reg.fixed = false →
        (∀ d, l.reg = .s d → t.sReg d = l.val.setWidth 64) ∧ (∀ d, l.reg = .v d → t.vReg d = l.val) ∧
        t.ag.poisoned l.reg = l.poison) ∧
      t = { u with ag := { u.ag with
        s := t.ag.s
        v := t.ag.v
        p := t.ag.p
        k := t.ag.k
        sPoison := t.ag.sPoison
        vPoison := t.ag.vPoison
        pPoison := t.ag.pPoison
        kPoison := t.ag.kPoison
        latches := t.ag.latches
        ctl := t.ag.ctl } }) ∧
    (∀ j B, (s.core core).unit matrix = some j → getKey s.blocks j.block = some B → B.status ≠ .failed →
      let long (a : Agent) : Prop := a.longTile = true
      let keeps := matrix = false ∧ long (B.agents[j.agent % 5]'(Nat.mod_lt _ (by decide))) ∨
        (∃ x ∈ B.works, x.agent = j.agent ∧ onMatrix x.i = matrix ∧ (x.items.src ++ x.items.dst.toList).map (·.r) = j.regs) ∧
          ∃ a ∈ B.agents.toList, long a
      (keeps → exec (.tileDataComplete core matrix) s = .next s) ∧
      (¬ keeps →
      let u := enter (s.setCore core ((s.core core).setUnit matrix none)) j.block j.agent
      exec (.tileDataComplete core matrix) s = .next (leave { u with ag := { u.ag with
        ctl := { u.ag.ctl with flags := u.ag.ctl.flags.or j.flags }
        ready := u.ag.ready ++ j.results
        nan := if j.report.isSome then j.report else u.ag.nan } }))) ∧
    Moves (.nantrap b w) s b w (fun u t => ∀ r, u.ag.nan = some r →
      let x : Agent := { u.ag with
        nan := none
        ctl := { u.ag.ctl with
          ncoord := r.coord
          nidx := r.idx
          nfmt := r.fmt } }
      ∃ n, PassesInterlocks u x n ∧
        t = raiseAt { u with ag := x.ticks n } cNANTRAP false r.epc r.tval (u.ag.rep.getD 0)) ∧
    Moves (.longUnitComplete b w) s b w (fun u t => ∀ l, u.ag.long = some l → u.ag.walk = none → u.ag.accs = [] →
      let x := u.blk.tile l.reg
      let done (a : Agent) : Agent := if u.ag.trap.isSome then a else a.pass l.w l.next
      let idle (a : Agent) : Agent := { a with
        long := none
        ctl := { a.ctl with prog := 0 } }
      let here (loc : Loc) : Prop := ∀ pa, loc = .phys pa → remotePkg pa = none
      let va := (l.base + 4 * (l.idx.extractLsb' (32 * l.unit) 32).signExtend 64) &&& ~~~3#64
      let last := ∀ j, l.unit < j → l.mask.getLsbD j = false
      (∀ d n a k o loc, l.i = .vgath d n a k o → l.unit < 64 → translate u u.blk va .load = .ok loc → here loc →
        let v := (loadFrom u loc 4 1).2.1
        let p := l.poison || (loadFrom u loc 4 1).2.2
        LeasesMay u t u.blk.core ∧
        (last → ∃ data : BitVec 65536, (∀ e < 64, data.extractLsb' (32 * e) 32 =
            if e = l.unit then BitVec.ofNat 32 v else l.data.extractLsb' (32 * e) 32) ∧
          t = { u with
            ag := done (idle { (u.ag.setReg (.v (Fin.ofNat 16 l.reg)) (data.setWidth 2048) p) with
              pend := u.ag.pend.erase (.v (Fin.ofNat 16 l.reg)) })
            cores := t.cores
            hostLines := t.hostLines }) ∧
        (¬ last → ∃ (m : Nat) (data : BitVec 65536), l.mask.getLsbD m = true ∧ l.unit < m ∧ (∀ j, l.unit < j → j < m → l.mask.getLsbD j = false) ∧
          (∀ e < 64, data.extractLsb' (32 * e) 32 = if e = l.unit then BitVec.ofNat 32 v else l.data.extractLsb' (32 * e) 32) ∧
          t = { u with
            ag := { u.ag with long := some { l with
              unit := m
              data := data
              poison := p
              begun := true } }
            cores := t.cores
            hostLines := t.hostLines })) ∧
      (∀ d n a k o loc, l.i = .vscat d n a k o → l.unit < 64 → translate u u.blk va .store = .ok loc → here loc → u.mem.wf = true →
        u.blk.pad.wf = true → loc = loc.alignDown 4 → (∀ q, loc ≠ .text q) →
        (∀ pa, loc.plain = .phys pa → inSlotFrame u pa = false) →
        Stored u t loc 4 (l.data.extractLsb' (32 * l.unit) 32).toNat l.poison ∧ LeasesLapse u t u.blk.core ∧
        (last → t = onlyMemory { u with ag := done (idle u.ag).keepSlip } t) ∧
        (¬ last → ∃ m, l.mask.getLsbD m = true ∧ l.unit < m ∧ t = onlyMemory { u with ag := { u.ag with long := some { l with
          unit := m
          begun := true } } } t)) ∧
      (∀ o c, l.i = .tlds o c → l.base.toNat + l.unit < u.blk.sprows → l.reg < 512 → l.unit ≤ l.last →
        (∀ j, (u.core u.blk.core).tile = some j → j.block = u.cur.b ∧ j.agent = u.cur.w) →
        let v : State := if (u.core u.blk.core).tile.isSome then u
          else occupy l.i ⟨u.cur.b, u.cur.w, [l.reg], Flags.none, [], false, none⟩ u
        LeasesLapse v t u.blk.core ∧
        let row := 256 * (l.base.toNat + l.unit)
        let md := { l.tile.md with poison := l.tile.md.poison || u.blk.pad.anyPoison (row / 4) 64 }
        (l.unit < 8 → l.unit < l.last → ∃ y, t = { v with
              ag := { u.ag with long := some { l with
                unit := l.unit + 1
                first := none
                begun := true
                tile := y } }
              cores := t.cores } ∧
          y.md = md ∧ y.side = l.tile.side ∧
          ∀ e < 8, y.data.extractLsb' (2048 * e) 2048 =
            if e = l.unit then BitVec.ofNat 2048 (u.blk.pad.readLE row 256) else l.tile.data.extractLsb' (2048 * e) 2048) ∧
        (l.unit = 8 → l.last = 8 → x.filling = true → x.md.wc = l.gen → u.blk.works = [] → t.ag.long = none ∧ t.ag.ctl.prog = 0 ∧
          t.blk.tile l.reg = ⟨match x.edited with
            | none => { md with
              wc := x.md.wc
              q := x.md.q
              rc := x.md.rc }
            | some e => { x.md with
              void := x.md.void || (md.void && !e.1)
              poison := x.md.poison || (md.poison && !e.2) },
            l.tile.data, BitVec.ofNat 1024 (u.blk.pad.readLE row 256), false, none⟩ ∧
          ∀ n, n ≠ l.reg → t.blk.tile n = u.blk.tile n)) ∧
      (∀ j o c, l.i = .tlds o c → l.unit ≤ l.last → (u.core u.blk.core).tile = some j → ¬ (j.block = u.cur.b ∧ j.agent = u.cur.w) → t = u)) ∧
    Moves (.walkEntryRead b w) s b w (fun u t => ∀ y, u.ag.walk = some y → y.found = none → y.level ≤ 4 →
      let page := y.va.toNat % 2 ^ 56 / 4096
      let at_ := y.table + 8 * (page / 512 ^ y.level % 512)
      let e := BitVec.ofNat 64 (u.mem.readLE at_ 8)
      let pfn := (e.extractLsb' 12 40).toNat
      let inRange := y.table < 0x58_0000_0000 ∧ ∃ q ∈ (u.part u.blk.part).ranges, q.1 ≤ y.table ∧ y.table < q.2
      let clean := u.mem.anyPoison (at_ / 4) 2 = false
      let join (z k : Walk) : Walk := if pageNo k.va = pageNo y.va ∧ k.found = none then { k with
        level := z.level
        table := z.table
        found := z.found } else k
      let joinEng (z : Walk) (k : EngWalk) : EngWalk := if pageNo k.va = pageNo y.va ∧ k.found = none then { k with
        level := z.level
        table := z.table
        found := z.found } else k
      let core := u.blk.core
      let before := (u.walkQueue.takeWhile (· != (core, pageNo y.va))).filter fun x =>
        clusterOf x.1 == clusterOf core && stillMissed u x
      let Next (z : Walk) : Prop := (∃ h, t = { u with
        ag := { u.ag with walk := some z }
        blk := { u.blk with
          agents := u.blk.agents.map fun a => { a with walk := a.walk.map (join z) }
          chans := u.blk.chans.map fun c => { c with xfers := c.xfers.map fun x => { x with walk := x.walk.map (joinEng z) } } }
        cores := t.cores
        hostLines := h }) ∧ (∀ c, c ≠ core → t.core c = u.core c) ∧
        t.core core = { u.core core with hints := (u.core core).hints.map fun h => { h with walk := h.walk.map (joinEng z) } }
      (64 ≤ before.length → t = { u with walkQueue := t.walkQueue } ∧ (core, pageNo y.va) ∈ t.walkQueue) ∧
      (before.length < 64 →
      (¬ inRange → Next { y with found := some .page }) ∧
      (inRange → clean ∧ e.getLsbD 0 = false ∨ u.mem.anyPoison (at_ / 4) 2 = true → Next { y with found := some .page }) ∧
      (inRange → clean → e.getLsbD 0 = true → e &&& 0xFFF0_0000_0000_0E60#64 = 0 →
        (e.getLsbD 1 = true → 0 < y.level → e.getLsbD 7 = false → Next { y with
          level := y.level - 1
          table := pfn * 4096 }) ∧
        (e.getLsbD 1 = false → (e.getLsbD 3 = true → e.getLsbD 2 = true) → e.getLsbD 7 = false →
          (y.level = 0 → Next { y with found := some (.leaf ⟨(u.part u.blk.part).id, page, 1, pfn, e⟩) }) ∧
          (y.level = 1 → pfn % 512 = 0 → Next { y with
            found := some (.leaf ⟨(u.part u.blk.part).id, page / 512 * 512, 512, pfn, e⟩) })) ∧
        (2 ≤ y.level → e.getLsbD 1 = false → Next { y with found := some .page })))) ∧
    Moves (.walkComplete b w) s b w (fun u t => ∀ y, u.ag.walk = some y →
      (∀ e l, y.found = some (.leaf e) → leased e y.use (checkLeaf u (u.part u.blk.part) e y.va y.use) = .ok l →
        (∃ z, z ∈ (t.core u.blk.core).tlb ∧ z = e) ∧ (∀ c, c ≠ u.blk.core → t.core c = u.core c) ∧
        (∀ x ∈ (t.core u.blk.core).tlb, x = e ∨ x ∈ (u.core u.blk.core).tlb) ∧
        t = { u with
          cores := t.cores
          ag := match y.access with
            | none => { u.ag with walk := none }
            | some x =>
              let a := { u.ag with
                walk := none
                accs := u.ag.accs ++ [⟨x.kind, l.alignDown x.kind.align⟩] }
              if u.ag.trap.isSome then a else (if y.use = .load then a else a.keepSlip).pass y.w y.next }) ∧
      (∀ e, y.found = some (.leaf e) → checkLeaf u (u.part u.blk.part) e y.va y.use = .miss → t = { u with stalled := t.stalled } ∧
        ∀ x ∈ u.stalled, x ∈ t.stalled) ∧
      (y.found = some .page → y.access = none → u.ag.long = none →
        t = raiseAt { u with ag := { u.ag with walk := none } } cPAGE false y.pc y.va (u.ag.rep.getD 0)) ∧
      (∀ x, y.found = some .page → y.access = some x → y.spec = false → u.ag.trap = none →
        t = raiseAt { u with ag := { u.ag with
          walk := none
          pend := match y.reg with | some r => u.ag.pend.erase r | none => u.ag.pend } }
          cPAGE false y.pc y.va (u.ag.rep.getD 0)) ∧
      (∀ x, y.found = some .page → y.access = some x → y.spec = false → u.ag.trap ≠ none →
        t = { u with ag := { u.ag with
          walk := none
          pend := match y.reg with | some r => u.ag.pend.erase r | none => u.ag.pend
          shadow := some ⟨y.pc, y.va, cPAGE, y.w, y.rep⟩ } })) ∧
    Moves (.trapEntry b w) s b w (fun u t => ∀ x, u.ag.trap = some x → u.ag.pend = [] → u.ag.walk = none → u.ag.long = none →
      16 * u.ag.ctl.tframe.toNat + 14 ≤ u.blk.sprows → u.blk.pad.wf = true → u.cur.w ≠ 4 →
      ∃ n, (u.ag.shadow = none → PassesInterlocks u u.ag n) ∧ (u.ag.shadow ≠ none → n = 0) ∧
      Entered { u with ag := u.ag.ticks n } t (BitVec.ofNat 10 (x.code.toNat + 256 * x.isAsync.toNat)) x.epc x.tval x.rep) ∧
    Moves (.timerCompare b w) s b w (fun u t => t = { u with ag := { u.ag with ctl := { u.ag.ctl with
      line0 := u.ag.ctl.armed && decide ((u.tbase - u.ag.ctl.tcmp).toNat < 2 ^ 63) } } }) ∧
    ((∃ x ∈ (s.core core).leases, x.line = line) → ∃ t, exec (.leaseLapse core line) s = .next t ∧ (∀ c, c ≠ core → t.core c = s.core c) ∧
      t.core core = { s.core core with leases := (t.core core).leases } ∧
      (∀ x, x ∈ (t.core core).leases ↔ x ∈ (s.core core).leases ∧ x.line ≠ line) ∧
      t = { s with cores := t.cores }) ∧
    Moves (.syncIssue b mask) s b 0 (fun u t =>
      let group := (List.range 4).filter fun n => mask.getLsbD n
      let all := ∀ n ∈ group, syncReady (focusOn u n) mask = true
      (¬ all → t = u) ∧
      (all → ∀ v, group.foldl syncOne (some u) = some v → t = v) ∧
      (all → group.foldl syncOne (some u) = none → t = u))

/-- R84, R86, R89, R172, R206, R217, R259, R286 to R290: interrupts and TSLIPT are taken at a word boundary, the lowest
pending and enabled line first, and a word that waits for its load's translation passes before, and so do the interlock
cycles of the next one (R147). The MP stops for its oldest faulted transfer, and Weld resumes it at EPC with the transfer that
it had raised; one refused as a double write is complete and not sent again (R223). A bank that is live for another slot passes to the
running context whose next word or copy accesses it, its state saved. -/
def Obligations.InterruptsStopsAndClaims : Prop :=
  ∀ (s : State) (b w bank : Nat) (kind : Fin 3),
    let pass (a : Agent) (k w : Nat) (next : Word) : Agent := if k = 0 then a else a.pass w next
    let between (u : State) (a : Agent) (x : Agent) : Prop :=
      (u.ag.long = none → u.ag.walk = none → x = a) ∧
      (∀ k, u.ag.long = none → u.ag.walk = some k → x = if k.access = none then { a with walk := none } else pass a 1 k.w k.next) ∧
      (∀ l, u.ag.long = some l → x = pass a 1 l.w l.next)
    let free (u : State) : Prop := u.ag.run = .running ∧ u.ag.trap = none ∧ u.ag.nan = none ∧ u.ag.spoiled = none ∧ u.blk.status = .running ∧
      u.blk.migrating = none ∧ u.ag.rep ≠ some 0 ∧ w < 4 ∧
      (∀ l, u.ag.long = some l → l.isGather = true) ∧
      (∀ k, u.ag.long = none → u.ag.walk = some k → k.access = none ∨ k.use = .load) ∧
      (∀ j, (u.core u.blk.core).matrix = some j ∨ (u.core u.blk.core).tile = some j → ¬ (j.block = b ∧ j.agent = w ∧ j.hold = true)) ∧
      ∀ x ∈ u.blk.works, ¬ (x.agent = w ∧ x.hold = true)
    Moves (.interruptAccept b w) s b w (fun u t =>
      (∀ n < 8, free u → u.ag.ctl.ie = true → u.ag.ctl.inh = false → u.ag.ctl.tslip.region = none →
        (ipend u.blk w u.ag.ctl &&& u.ag.ctl.imask).getLsbD n = true →
        (∀ m < n, (ipend u.blk w u.ag.ctl &&& u.ag.ctl.imask).getLsbD m = false) →
        ∃ x k, between u { u.ag with ctl := { u.ag.ctl with
            line5 := u.ag.ctl.line5 && n != 5
            line6 := u.ag.ctl.line6 && n != 6 } } x ∧ PassesInterlocks u x k ∧
          t = raiseAt { u with ag := x.ticks k } (if n = 0 then cTIMER else cINTERRUPT) true x.pc (BitVec.ofNat 64 n) (x.rep.getD 0)) ∧
      (u.ag.ctl.ie = false ∨ u.ag.ctl.inh = true ∨ ipend u.blk w u.ag.ctl &&& u.ag.ctl.imask = 0 → t = u)) ∧
    Moves (.tslipt b w) s b w (fun u t => ∀ v, free u → u.ag.ctl.tslip.region.isSome = true →
      (u.ag.ctl.tslip.due = some v ∨
        u.ag.ctl.tslip.due = none ∧ u.ag.ctl.tslip.limit ≠ 0 ∧ u.ag.ctl.tslip.limit.toNat < u.ag.ctl.tslip.cur.toNat ∧ v = u.ag.ctl.tslip.cur) →
      ∃ x k, between u u.ag x ∧ PassesInterlocks u x k ∧ t = raiseAt { u with ag := x.ticks k } cTSLIPT false x.pc (v.setWidth 64) (x.rep.getD 0)) ∧
    Moves (.mpTrap b) s b 4 (fun u t => ∀ (n : Fin 4) x c, u.ag.run = .running → u.ag.walk = none →
      x ∈ u.blk.chans[n].xfers → x.st = .faulted c →
      (∀ (m : Fin 4) y e, y ∈ u.blk.chans[m].xfers → y.st = .faulted e → y = x ∧ m = n ∨ x.order < y.order) →
      t = { u with ag := { u.ag with
        run := .mpStopped
        ctl := { u.ag.ctl with
          tcause := BitVec.ofNat 10 c.toNat
          epc := u.ag.pc
          tval := x.tval
          mptxid := BitVec.ofNat 64 (n.val * 2 ^ 32 + x.id.toNat) } } }) ∧
    Moves (.mpResume b) s b 4 (fun u t => u.ag.run = .mpStopped → u.blk.status = .running →
      (∀ n : Fin 4, (u.blk.chans[n].xfers.map (·.id)).Nodup) →
      let ctl := u.ag.ctl
      let ch : Fin 5 := Fin.ofNat 5 (ctl.mptxid.toNat / 2 ^ 32 % 4)
      let raised (x : Transfer) : Prop := x ∈ u.blk.chans[ch].xfers ∧ x.id.toNat = ctl.mptxid.toNat % 2 ^ 32 ∧ x.tval = ctl.tval ∧
        ∃ c, x.st = .faulted c ∧ ctl.tcause.toNat = c.toNat
      let remote (x : Transfer) : Prop := match x.form with
        | .toItem _ i _ _ | .xfer _ i => i.cls = 2
        | _ => False
      let on : Agent := { u.ag with
        run := .running
        pc := ctl.epc }
      t.ag.run = .running ∧ t.ag.pc = ctl.epc ∧ (∀ n : Fin 5, n ≠ ch → t.blk.chans[n] = u.blk.chans[n]) ∧
      ((∀ x, ¬ raised x) → t = { u with ag := on }) ∧
      (∀ x, raised x → ¬ (x.st = .faulted cDWRT ∧ remote x) → t = { u with
        ag := on
        blk := { u.blk with chans := u.blk.chans.set ch { u.blk.chans[ch] with xfers := u.blk.chans[ch].xfers.map fun y =>
          if y.id = x.id then { x with
            st := .active
            tval := 0 } else y } } }) ∧
      (∀ x, raised x → x.st = .faulted cDWRT → remote x →
        ∀ y ∈ t.blk.chans[ch].xfers, y.id = x.id → y.st = .ended cDWRT)) ∧
    (∀ B, getKey s.blocks b = some B → bank < (if kind = 2 then 4 else 8) → B.status = .running →
      let c := s.core B.core
      let o := c.bankOwner kind.val bank
      c.bankLive kind.val bank = true → o ≠ B.slot → B.slot < 4 → wantsBank s B kind.val bank = true →
      ∃ t, exec (.bankClaim b kind bank) s = .next t ∧
        let passed := (t.core B.core).bankLive kind.val bank = true ∧ (t.core B.core).bankOwner kind.val bank = B.slot ∧
          (∀ (k : Fin 3) n, n < (if k = 2 then 4 else 8) → ¬ (k = kind ∧ n = bank) →
            (t.core B.core).bankLive k.val n = c.bankLive k.val n ∧ (t.core B.core).bankOwner k.val n = c.bankOwner k.val n) ∧
          ∀ n, n ≠ B.core → t.core n = s.core n
        (c.slots[o]? = some none → passed ∧ t = { s with cores := t.cores }) ∧
        (∀ oid O, c.slots[o]? = some (some oid) → oid ≠ b → getKey s.blocks oid = some O →
          (bankHeld s B.core oid O O.agentList kind.val bank = false → passed ∧
            (t.block oid = if kind = 0 then { O with savedTiles := putKey O.savedTiles bank (O.tiles.filter fun p => p.1 / 64 == bank) }
              else if kind = 1 then { O with savedAccs := putKey O.savedAccs bank (O.accs.filter fun p => p.1 / 8 == bank) }
              else { O with savedVecs := putKey O.savedVecs bank ((O.agents[bank % 5]'(Nat.mod_lt _ (by decide))).v,
                (O.agents[bank % 5]'(Nat.mod_lt _ (by decide))).vPoison) }) ∧
            (∀ n, n ≠ oid → t.block n = s.block n) ∧ t = { s with
              cores := t.cores
              blocks := t.blocks }) ∧
          (bankHeld s B.core oid O O.agentList kind.val bank = true → t = s)))

/-! ## The moves of transfers and engines -/

namespace Sys2Proof.Machine

/-- The transfer of an id changes to one for which `P` holds; every other transfer of every channel is as it was. -/
structure XferTo (u t : State) (ch : Fin 5) (x : Transfer) (P : Transfer → Prop) : Prop where
  one : ∃ y ∈ t.blk.chans[ch].xfers, y.id = x.id ∧ P y
  rest : ∀ y, y.id ≠ x.id → (y ∈ t.blk.chans[ch].xfers ↔ y ∈ u.blk.chans[ch].xfers)
  others : ∀ n : Fin 5, n ≠ ch → t.blk.chans[n] = u.blk.chans[n]

/-- A transfer is complete: it has its code, it is forgotten once 16 later ids have been issued, and its token's register
has the id and loses its mark (R215, R216). -/
structure XferDone (u t : State) (ch : Fin 5) (x : Transfer) (code : Progress) : Prop where
  gone : ∀ y ∈ t.blk.chans[ch].xfers, y.id = x.id → y.st = code
  others : ∀ n : Fin 5, n ≠ ch → t.blk.chans[n] = u.blk.chans[n]
  token : ∀ k, x.token = some k → k ≠ 0 → t.sReg k = x.id.setWidth 64 ∧ t.ag.poisoned (.s k) = false ∧ t.ag.pend = u.ag.pend.erase (.s k)
  scalars : ∀ k, x.token ≠ some k → t.sReg k = u.sReg k
  agent : t.ag = { u.ag with
    s := t.ag.s
    sPoison := t.ag.sPoison
    pend := t.ag.pend }

/-- What one step of a side moves with byte `n` (R225): bytes of the transfer, `n` among them, that lie in the aligned 8-byte
word of the step's address, each at its place there and no two at one place; and every byte of the transfer in that
word, in whatever row, where no two of the side's bytes have one address. -/
structure OneWord (pos : Nat → SidePos) (x : Transfer) (n : Nat) (w : CopyStep) : Prop where
  self : n ∈ w.nums
  inside : ∀ q ∈ w.l, q.1 < x.size ∧ ∃ va, (pos q.1).va q.1 = some va ∧ va.toNat / 8 = w.va.toNat / 8 ∧ q.2 = va.toNat % 8
  apart : w.l.Pairwise fun p q => p.1 ≠ q.1 ∧ p.2 ≠ q.2
  whole : (∀ g, x.form.srcGeo = some g ∨ x.form.dstGeo = some g → x.size = x.desc.size g) → x.size ≤ 2 ^ 20 →
    (∀ i < x.size, ∀ j < x.size, ∀ va, (pos i).va i = some va → (pos j).va j = some va → i = j) →
    ∀ j < x.size, ∀ va, (pos j).va j = some va → va.toNat / 8 = w.va.toNat / 8 → j ∈ w.nums

/-- The result of an event of a block's MP channel: `P` holds where the transfer of the id is active. -/
def XferMoves (i : Instr) (s : State) (b : Nat) (ch : Fin 5) (id : Nat) (P : State → State → Transfer → Prop) : Prop :=
  Moves i s b 4 fun u t => ∀ x, (u.blk.chans[ch].xfers.find? fun x => x.id.toNat == id && x.st == .active) = some x → P u t x

end Sys2Proof.Machine

/-- R163, R166, R167, R170, R171, R208, R210, R213 to R217, R223 to R225, R275: the moves of a transfer. COPY_READ counts one read of
a source item that is present, and takes its image once the generation's data is produced; DATA_READ takes the bytes of one aligned word with their poison;
DATA_WRITE writes the bytes of one aligned word that have been read; COPY_WRITE writes the item with its metadata in one
step, which completes the transfer, with CODE 2 where its source was void; a remote write that the receiver accepts does the same there, and one that it refuses
backs off; a resend ends the back-off; a transfer to memory with every byte written completes. A source that is poisoned
faults the transfer and holds the later ones of its channel. -/
def Obligations.TransferMoves : Prop :=
  ∀ (s : State) (b id n : Nat) (ch : Fin 5) (c4 : Fin 4),
    let number (i : ItemRef) : Nat := if i.cls = 1 then 512 + i.t else i.t
    let onlyBlock (u t : State) : Prop := t = { u with
      cores := t.cores
      blk := { u.blk with
        tiles := t.blk.tiles
        accs := t.blk.accs
        chans := t.blk.chans } }
    XferMoves (.copyRead b ch id) s b ch id (fun u t x => ∀ i c,
      (∃ g img, x.form = .fromItem g i img) ∨ (∃ d, x.form = .xfer i d) →
      let r := number i
      let m := u.blk.md r
      x.srcDone = false → x.counted = false → m.wc = i.x → i.cls = 0 ∧ i.t < 512 ∨ i.cls = 1 ∧ i.t < 64 →
      (u.core u.blk.core).claim? u.blk.slot (if r < 512 then 0 else 1) (if r < 512 then r / 64 else (r - 512) / 8) = some c →
      onlyBlock u t ∧ (∃ l, t.core u.blk.core = { c with leases := l }) ∧ (∀ k, k ≠ u.blk.core → t.core k = u.core k) ∧
      t.blk.md r = { m with rc := BitVec.ofNat 4 (min (m.rc.toNat + 1) 15) } ∧ (∀ k, k ≠ r → t.blk.md k = u.blk.md k) ∧
      (∀ k, (t.blk.tile k).data = (u.blk.tile k).data ∧ (t.blk.tile k).side = (u.blk.tile k).side ∧
        (t.blk.acc k).data = (u.blk.acc k).data) ∧
      (u.blk.filling r = true → XferTo u t ch x fun y => y.srcDone = false ∧ y.counted = true ∧ y.st = x.st) ∧ (u.blk.filling r = false →
      (x.off = true → XferTo u t ch x fun y => y.srcDone = true ∧ y.srcVoid = true ∧ y.srcPoison = m.poison ∧ y.counted = true) ∧
      (x.off = false → m.poison = false → m.void = true → XferTo u t ch x fun y => y.srcDone = true ∧ y.srcVoid = true) ∧
      (x.off = false → m.poison = false → m.void = false → r < 512 → XferTo u t ch x fun y =>
        y.srcDone = true ∧ y.srcVoid = x.srcVoid ∧ y.tag = m.tag ∧ y.got = 2 ^ 2304 - 1 ∧
        (∀ j < 2048, (y.buf.read j).toNat = (u.blk.tile r).data.toNat / 2 ^ (8 * j) % 256) ∧
        (∀ j < 128, (y.buf.read (2048 + j)).toNat = (u.blk.tile r).side.toNat / 2 ^ (8 * j) % 256) ∧ y.buf.read 2176 = m.tag) ∧
      (x.off = false → m.poison = false → m.void = false → 512 ≤ r → m.tag = 0x10 → XferTo u t ch x fun y =>
        y.srcDone = true ∧ y.got = 2 ^ 4096 - 1 ∧
        ∀ j < 4096, (y.buf.read j).toNat = (u.blk.acc (r - 512)).data.toNat / 2 ^ (8 * j) % 256) ∧
      (x.off = false → m.poison = true → ∃ y ∈ t.blk.chans[ch].xfers, y.id = x.id ∧ y.st = .faulted cPOISON ∧ y.tval = BitVec.ofNat 64 r))) ∧
    XferMoves (.dataRead b ch id n) s b ch id (fun u t x => ∀ g seg pa,
      (x.form = .mem g ∧ g ≠ .btdst ∨ ∃ i tag, x.form = .toItem g i tag false) → x.off = false → n < x.size → x.got.testBit n = false →
      isHold u ch x = false → srcPos x.desc g n = .mem seg → x.buf.wf = true →
      let w := stepAt (srcPos x.desc g) (nearBytes x.desc g x.size n) n
      placeOf u u.blk (ch != 4) w.va .load = .ok (.phys pa) → remotePkg pa = none →
      OneWord (srcPos x.desc g) x n w ∧
      XferTo u t ch x (fun y =>
        (∀ q ∈ w.l, y.buf.read q.1 = u.mem.byte (pa / 8 * 8 + q.2) ∧ y.got.testBit q.1 = true ∧
          y.pois.testBit q.1 = (x.pois.testBit q.1 || u.mem.granule ((pa / 8 * 8 + q.2) / 4))) ∧
        (∀ j, j ∉ w.nums → y.buf.read j = x.buf.read j ∧ y.got.testBit j = x.got.testBit j ∧
          y.pois.testBit j = x.pois.testBit j) ∧ y.put = x.put ∧ y.st = .active ∧ y.form = x.form) ∧
      LeasesLapse u t u.blk.core ∧ t = { u with
        blk := { u.blk with chans := t.blk.chans }
        cores := t.cores
        hostLines := t.hostLines }) ∧
    XferMoves (.dataWrite b ch id n) s b ch id (fun u t x => ∀ g seg pa,
      (x.form = .mem g ∨ ∃ i img, x.form = .fromItem g i img) → x.off = false → x.srcVoid = false → n < x.size →
      x.put.testBit n = false → isHold u ch x = false → dstPos x.desc g n = .mem seg → u.mem.wf = true →
      let w := stepAt (dstPos x.desc g) (nearBytes x.desc g x.size n) n
      let at_ (q : Nat × Nat) : Nat := pa / 8 * 8 + q.2
      (∀ j ∈ w.nums, x.got.testBit j = true) →
      placeOf u u.blk (ch != 4) w.va .store = .ok (.phys pa) → remotePkg pa = none → inSlotFrame u pa = false →
      OneWord (dstPos x.desc g) x n w ∧
      (∀ q ∈ w.l, x.put.testBit q.1 = false → t.mem.byte (at_ q) = x.buf.read q.1 ∧
        (t.mem.granule (at_ q / 4) = true ↔ ∃ k ∈ w.l, k.2 / 4 = q.2 / 4 ∧ x.pois.testBit k.1 = true)) ∧
      (∀ a, (∀ q ∈ w.l, x.put.testBit q.1 = false → a ≠ at_ q) → t.mem.byte a = u.mem.byte a) ∧
      (∀ k, (∀ q ∈ w.l, x.put.testBit q.1 = false → k ≠ at_ q / 4) → t.mem.granule k = u.mem.granule k) ∧
      XferTo u t ch x (fun y => y.buf = x.buf ∧ y.got = x.got ∧ y.st = .active ∧
        ∀ j, y.put.testBit j = (x.put.testBit j || decide (j ∈ w.nums))) ∧
      LeasesLapse u t u.blk.core ∧ t = { u with
        blk := { u.blk with chans := t.blk.chans }
        mem := t.mem
        cores := t.cores
        hostLines := t.hostLines }) ∧
    XferMoves (.copyWrite b ch id) s b ch id (fun u t x => ∀ i c,
      (∃ g tag img, x.form = .toItem g i tag img ∧ (x.off = true ∨ x.got = 2 ^ x.size - 1)) ∨ (∃ a, x.form = .xfer a i ∧ x.srcDone = true) →
      let r := number i
      let m := u.blk.md r
      let void := x.off || x.srcVoid
      i.cls = 0 ∧ i.t < 512 ∨ i.cls = 1 ∧ i.t < 64 → m.wc + 1 = i.x → m.q = 0 ∨ m.q.toNat ≤ m.rc.toNat → x.off = true ∨ r < 512 ∨ m.tag ≠ 0x40 →
      (u.core u.blk.core).claim? u.blk.slot (if r < 512 then 0 else 1) (if r < 512 then r / 64 else (r - 512) / 8) = some c →
      XferDone u t ch x (if x.srcVoid = true ∧ x.off = false then .fromVoid else .done) ∧
      (∃ p tag, t.blk.md r = ⟨i.x, i.q, 0, void, p, tag⟩ ∧ p = (x.srcPoison || x.pois != 0) ∧ (void = true → tag = m.tag) ∧
        (∀ g y z, void = false → r < 512 → x.form = .toItem g y z false → tag = z) ∧
        (∀ a, void = false → r < 512 → x.form = .xfer a i → x.buf.wf = true → tag = x.buf.read 2176) ∧
        (void = false → 512 ≤ r → tag = 0x10)) ∧
      (r < 512 → ∀ j < 2048, ((t.blk.tile r).data.extractLsb' (8 * j) 8) =
        if void then (u.blk.tile r).data.extractLsb' (8 * j) 8 else x.buf.read j) ∧
      (512 ≤ r → ∀ j < 4096, ((t.blk.acc (r - 512)).data.extractLsb' (8 * j) 8) =
        if void then (u.blk.acc (r - 512)).data.extractLsb' (8 * j) 8 else x.buf.read j) ∧
      (∀ k, k ≠ r → t.blk.md k = u.blk.md k ∧ (k < 512 → t.blk.tile k = u.blk.tile k) ∧ (512 ≤ k → t.blk.acc (k - 512) = u.blk.acc (k - 512))) ∧
      t = { u with
        ag := t.ag
        cores := t.cores
        blk := { u.blk with
          tiles := t.blk.tiles
          accs := t.blk.accs
          chans := t.blk.chans } }) ∧
    (let n5 : Fin 5 := ⟨c4.val, by omega⟩
     XferMoves (.remoteWriteArrival b c4 id) s b n5 id (fun u t x => ∀ i oid,
       (∃ g tag img, x.form = .toItem g i tag img ∧ (x.off = true ∨ x.got = 2 ^ x.size - 1)) ∨ (∃ a, x.form = .xfer a i ∧ x.srcDone = true) →
       i.cls = 2 → u.blk.chans[n5].resendAt = none → earlierRemote u.blk.chans[n5] x = false →
       let c := u.core i.core.toNat
       let O := u.block oid
       let m := (O.tile i.t).md
       let void := x.off || x.srcVoid
       oid ≠ b → (getKey u.blocks oid).isSome = true → c.bankLive 0 (i.t / 64) = true →
       c.slots[c.bankOwner 0 (i.t / 64)]? = some (some oid) → O.launch = u.blk.launch → O.status = .running → i.t < 512 →
       (m.wc + 1 = i.x → m.q = 0 ∨ m.q.toNat ≤ m.rc.toNat →
         XferDone u t n5 x (if x.srcVoid = true ∧ x.off = false then .fromVoid else .done) ∧
         (∃ p tag, ((t.block oid).tile i.t).md = ⟨i.x, i.q, 0, void, p, tag⟩ ∧ p = (x.srcPoison || x.pois != 0) ∧ (void = true → tag = m.tag)) ∧
         (∀ j < 2048, ((t.block oid).tile i.t).data.extractLsb' (8 * j) 8 =
           if void then (O.tile i.t).data.extractLsb' (8 * j) 8 else x.buf.read j) ∧
         (∀ k, k ≠ i.t → (t.block oid).tile k = O.tile k) ∧ (∀ k, k ≠ oid → t.block k = u.block k) ∧
         t.block oid = { O with tiles := (t.block oid).tiles } ∧
         (∀ k, t.core k = { u.core k with leases := (t.core k).leases }) ∧
         t = { u with
           ag := t.ag
           blocks := t.blocks
           cores := t.cores
           blk := { u.blk with chans := t.blk.chans } }) ∧
       (m.wc + 1 = i.x → m.q ≠ 0 → m.rc.toNat < m.q.toNat → LeasesLapse u t u.blk.core ∧ t = { u with
         cores := t.cores
         blk := { u.blk with
           chans := u.blk.chans.set n5 { u.blk.chans[n5] with resendAt := some (u.tbase.toNat + 64 * 2 ^ x.bo) } } })) ∧
     Moves (.remoteResend b c4) s b 4 (fun u t => ∀ k, u.blk.chans[n5].resendAt = some k → k ≤ u.tbase.toNat →
       t = { u with blk := { u.blk with chans := u.blk.chans.set n5 { u.blk.chans[n5] with resendAt := none } } })) ∧
    XferMoves (.transferComplete b ch id) s b ch id (fun u t x =>
      let frame := LeasesLapse u t u.blk.core ∧ t = { u with
        ag := t.ag
        cores := t.cores
        blk := { u.blk with chans := t.blk.chans } }
      (∀ g, x.form = .mem g → ch ≠ 4 → x.put = 2 ^ x.size - 1 → XferDone u t ch x .done ∧ frame) ∧
      (∀ g, x.form = .mem g → ch ≠ 4 → x.put ≠ 2 ^ x.size - 1 → LeasesLapse u t u.blk.core ∧ t = { u with cores := t.cores }) ∧
      (∀ g i img, x.form = .fromItem g i img → x.srcDone = true → x.off = false → x.srcVoid = true → XferDone u t ch x .fromVoid ∧ frame) ∧
      (∀ g i img, x.form = .fromItem g i img → x.srcDone = true → x.off = true ∨ x.srcVoid = false ∧ x.put = 2 ^ x.size - 1 →
        XferDone u t ch x .done ∧ frame))

namespace Sys2Proof.Machine

/-- R217: the transfer has its cause and TVAL and keeps what it has moved, every later active transfer of its channel is held,
every other one is as it was, and the token stays pending. -/
structure XferFaults (u t : State) (ch : Fin 5) (x : Transfer) (c : BitVec 8) (tval : Word) : Prop where
  ids : t.blk.chans[ch].xfers.map (·.id) = u.blk.chans[ch].xfers.map (·.id)
  one : ∃ y ∈ t.blk.chans[ch].xfers, y.id = x.id ∧ y.st = .faulted c ∧ y.tval = tval ∧ y.got = x.got ∧ y.put = x.put ∧ y.buf = x.buf
  rest : ∀ y ∈ t.blk.chans[ch].xfers, y.id = x.id ∨ ∃ z ∈ u.blk.chans[ch].xfers,
    y = if z.st = .active ∧ x.order < z.order then { z with st := .held } else z
  others : ∀ n : Fin 5, n ≠ ch → t.blk.chans[n] = u.blk.chans[n]
  agent : t.ag = u.ag

/-- Of the state, only the block's channels, the core's leases and banks, and the lines the host holds may differ. -/
def OnlyChans (u t : State) : Prop := t = { u with
  blk := { u.blk with chans := t.blk.chans }
  cores := t.cores
  hostLines := t.hostLines }

/-- `n` bytes from an address on lie one after another in the package's own memory, for a copy of the MP. -/
def InMemory (u : State) (va : Word) (n pa : Nat) (use : Use) : Prop :=
  remotePkg pa = none ∧ ∀ k < n, placeOf u u.blk true (va + BitVec.ofNat 64 k) use = .ok (.phys (pa + k))

/-- R295: the checks that a handle passes on its entry. -/
def EntryOk (t : HandleTable) (tenant : BitVec 8) (h w0 w1 : Word) (off len : Nat) (write : Bool) : Prop :=
  let bound := h.toNat % 2 ^ 16
  let limit := w1.toNat / 2 ^ 48
  let frame := w0.toNat / 2 ^ 16 % 2 ^ 24
  h.toNat / 2 ^ 56 = w0.toNat / 2 ^ 56 ∧ h.toNat / 2 ^ 56 = tenant.toNat ∧ h.toNat / 2 ^ 40 % 2 ^ 16 = w0.toNat / 2 ^ 40 % 2 ^ 16 ∧
  limit ≠ 0 ∧ bound ≠ 0 ∧ bound ≤ limit ∧ off + len ≤ 64 * bound ∧ limit * 64 ≤ 2 ^ t.flog ∧ frame < t.nframe ∧
  w1.toNat / 4 % 2 ^ 46 = 0 ∧ (w1.toNat % 2 = 1 → t.mpool ≠ 0) ∧ (write = true → w1.toNat / 2 % 2 = 0)

end Sys2Proof.Machine

/-- R163, R167, R210 to R213, R217, R294 to R296, R298: what stops a transfer, and block tables and pads. An item overwritten
raises OVRN, one already written DWRT, an accumulator of a pair's tag or an invalid image tag ILLEGAL, a poisoned item
POISON; an address that is not canonical, or whose walk finds no leaf, raises PAGE, and a window address that names
nothing, or a leaf without the permission, what `placeOf` and `checkLeaf` say. A row's handle is read first, then its entry, in
the second copy where the first is poisoned; an entry that a check of R295 refuses raises KVFAULT with the handle, and one
that passes gives the page and, for DUP, its mirror. A page with a mirror is written at P and then at M, and a byte poisoned
at P is read again at M. R211: an im2col byte lies where its kernel tap puts it, or is PAD, and a pad row counts once it is
written whole (that it counts then is the model's reading, notes/assumptions/41.md). -/
def Obligations.TransferFaults : Prop :=
  ∀ (s : State) (b id n : Nat) (ch : Fin 5), ch ≠ 4 →
    let number (i : ItemRef) : Nat := if i.cls = 1 then 512 + i.t else i.t
    let inStore (i : ItemRef) : Prop := i.cls = 0 ∧ i.t < 512 ∨ i.cls = 1 ∧ i.t < 64
    let mine (u : State) (r : Nat) : Prop :=
      ((u.core u.blk.core).claim? u.blk.slot (if r < 512 then 0 else 1) (if r < 512 then r / 64 else (r - 512) / 8)).isSome = true
    let Faults (u t : State) (x : Transfer) (c : BitVec 8) (tv : Word) : Prop := XferFaults u t ch x c tv ∧ OnlyChans u t
    XferMoves (.copyRead b ch id) s b ch id (fun u t x => ∀ i,
      (∃ g img, x.form = .fromItem g i img) ∨ (∃ d, x.form = .xfer i d) → inStore i → mine u (number i) →
      x.srcDone = false → x.counted = false →
      let m := u.blk.md (number i)
      (1 ≤ (m.wc - i.x).toNat → (m.wc - i.x).toNat ≤ 32767 → Faults u t x cOVRN (BitVec.ofNat 64 (number i))) ∧
      (m.wc = i.x → u.blk.filling (number i) = false → x.off = false → m.poison = false → m.void = false → i.cls = 1 → m.tag = 0x40 →
        ∃ y ∈ t.blk.chans[ch].xfers, y.id = x.id ∧ y.st = .faulted cILLEGAL ∧ y.tval = BitVec.ofNat 64 (number i))) ∧
    XferMoves (.copyWrite b ch id) s b ch id (fun u t x => ∀ i,
      (∃ g tag img, x.form = .toItem g i tag img ∧ (x.off = true ∨ x.got = 2 ^ x.size - 1)) ∨ (∃ a, x.form = .xfer a i ∧ x.srcDone = true) →
      inStore i → mine u (number i) →
      let m := u.blk.md (number i)
      let d := (m.wc - (i.x - 1)).toNat
      (1 ≤ d → d ≤ 32767 → Faults u t x cDWRT (BitVec.ofNat 64 (number i))) ∧
      (d = 0 → m.q = 0 ∨ m.q.toNat ≤ m.rc.toNat → i.cls = 1 → m.tag = 0x40 → x.off = false →
        Faults u t x cILLEGAL (BitVec.ofNat 64 (number i)))) ∧
    (∀ (i : Instr) (use : Use), i = .dataRead b ch id n ∧ use = .load ∨ i = .dataWrite b ch id n ∧ use = .store →
      XferMoves i s b ch id (fun u t x => ∀ g seg,
        let pos := if use = .load then srcPos x.desc g else dstPos x.desc g
        let w := stepAt pos (nearBytes x.desc g x.size n) n
        g ≠ .btdst ∧ (x.form = .mem g ∨ (if use = .load then ∃ i tag img, x.form = .toItem g i tag img else ∃ i img, x.form = .fromItem g i img)) →
        x.off = false → x.srcVoid = false → n < x.size → (if use = .load then x.got else x.put).testBit n = false → pos n = .mem seg →
        (use = .store → ∀ j ∈ w.nums, x.got.testBit j = true) →
        (canonical w.va = false → Faults u t x cPAGE w.va) ∧
        (∀ c, placeOf u u.blk true w.va use = .fault c → Faults u t x c w.va) ∧
        (canonical w.va = true → inWindow w.va = true → windowPlace u u.blk true w.va = none → Faults u t x cPROT w.va) ∧
        (∀ k, placeOf u u.blk true w.va use = .miss → x.walk = some k → pageNo k.va = pageNo w.va →
          (k.found = some .page → XferFaults u t ch x cPAGE w.va) ∧
          (∀ e c, k.found = some (.leaf e) → checkLeaf u (u.part u.blk.part) e w.va use = .fault c → XferFaults u t ch x c w.va)) ∧
        (∀ p r, use = .load → placeOf u u.blk true w.va use = .ok p → p.item = some r → mine u r → (u.blk.md r).poison = true →
          Faults u t x cPOISON (BitVec.ofNat 64 r)))) ∧
    XferMoves (.dataRead b ch id n) s b ch id (fun u t x => ∀ g i tag seg pa,
      let w := stepAt (srcPos x.desc g) (nearBytes x.desc g x.size n) n
      x.form = .toItem g i tag true → x.off = false → n < x.size → x.got.testBit n = false → srcPos x.desc g n = .mem seg →
      placeOf u u.blk true w.va .load = .ok (.phys pa) → remotePkg pa = none →
      (∃ q ∈ w.l, q.1 = 2176 ∧ tagValid (u.mem.byte (pa / 8 * 8 + q.2)).toNat = false) →
      Faults u t x cILLEGAL (BitVec.ofNat 64 i.t)) ∧
    (∀ (i : Instr) (write : Bool), i = .dataRead b ch id n ∨ i = .dataWrite b ch id n →
      XferMoves i s b ch id (fun u t x =>
        let row := n / x.desc.len
        let base := if write then x.desc.dst else x.desc.src
        x.off = false → x.srcVoid = false → n < x.size → (if i = .dataRead b ch id n then x.got else x.put).testBit n = false →
        (i = .dataRead b ch id n ∧ write = false ∧ (x.form = .mem .btsrc ∨ ∃ j tag img, x.form = .toItem .btsrc j tag img) ∨
          i = .dataRead b ch id n ∧ write = true ∧ x.form = .mem .btdst ∨
          i = .dataWrite b ch id n ∧ write = true ∧ (x.form = .mem .btdst ∨ ∃ j img, x.form = .fromItem .btdst j img)) →
        getKey x.pages row = none →
        let va := base + BitVec.ofNat 64 (8 * row)
        (∀ pa, getKey x.handles row = none → InMemory u va 8 pa .load →
          ((∃ k < 8, u.mem.granule ((pa + k) / 4) = true) → Faults u t x cPOISON va) ∧
          ((∀ k < 8, u.mem.granule ((pa + k) / 4) = false) → OnlyChans u t ∧ ∀ h : Word,
            (∀ k < 8, u.mem.byte (pa + k) = h.extractLsb' (8 * k) 8) →
            XferTo u t ch x fun y => y = { x with handles := putKey x.handles row h })) ∧
        ∀ h, getKey x.handles row = some h →
          let index := h.toNat / 2 ^ 16 % 2 ^ 24
          ((u.part u.blk.part).table = none → Faults u t x cKVFAULT h) ∧
          ∀ tab, (u.part u.blk.part).table = some tab →
            (tab.nent ≤ index → Faults u t x cKVFAULT h) ∧
            ∀ pa, index < tab.nent →
              let first := tab.addr + BitVec.ofNat 64 (64 + 16 * index)
              let at_ := if row ∈ x.second then tab.tbl2 + BitVec.ofNat 64 (16 * index) else first
              let poisoned := ∃ k < 16, u.mem.granule ((pa + k) / 4) = true
              InMemory u at_ 16 pa .load →
              (poisoned → tab.tbl2 = 0 ∨ row ∈ x.second → Faults u t x cPOISON first) ∧
              (poisoned → tab.tbl2 ≠ 0 → row ∉ x.second →
                OnlyChans u t ∧ XferTo u t ch x fun y => y = { x with second := row :: x.second }) ∧
              ∀ w0 w1 : Word, ¬ poisoned → (∀ k < 8, u.mem.byte (pa + k) = w0.extractLsb' (8 * k) 8) →
                (∀ k < 8, u.mem.byte (pa + 8 + k) = w1.extractLsb' (8 * k) 8) →
                let ok := EntryOk tab u.blk.tenant h w0 w1 (x.desc.param.toNat % 2 ^ 32) x.desc.len write
                let o := BitVec.ofNat 64 (w0.toNat / 2 ^ 16 % 2 ^ 24 * 2 ^ tab.flog)
                (¬ ok → Faults u t x cKVFAULT h) ∧
                (ok → OnlyChans u t ∧ XferTo u t ch x fun y => y = { x with
                  pages := putKey x.pages row (tab.pool + o, if w1.toNat % 2 = 1 then some (tab.mpool + o) else none) }))) ∧
    XferMoves (.dataRead b ch id n) s b ch id (fun u t x => ∀ (P : Word) (M : Option Word) (pa : Nat),
      let row := n / x.desc.len
      let off := BitVec.ofNat 64 (x.desc.param.toNat % 2 ^ 32)
      let again := x.again.testBit n
      let w := ({ va := (if again then M.getD P else P) + off, start := row * x.desc.len, len := x.desc.len } : Seg).step n
      x.form = .mem .btsrc ∨ (∃ j tag, x.form = .toItem .btsrc j tag false) → x.off = false → n < x.size → x.got.testBit n = false →
      getKey x.pages row = some (P, M) → (again = true → M.isSome = true) →
      placeOf u u.blk true w.va .load = .ok (.phys pa) → remotePkg pa = none → x.buf.wf = true →
      let poison (q : Nat × Nat) : Bool := u.mem.granule ((pa / 8 * 8 + q.2) / 4)
      let taken (q : Nat × Nat) : Prop := if again then x.again.testBit q.1 = true else M.isSome = true → poison q = false
      XferTo u t ch x (fun y =>
        (∀ q ∈ w.l, taken q → y.buf.read q.1 = u.mem.byte (pa / 8 * 8 + q.2) ∧ y.got.testBit q.1 = true ∧
          y.pois.testBit q.1 = (x.pois.testBit q.1 || poison q) ∧ (again = true → y.again.testBit q.1 = false)) ∧
        (∀ q ∈ w.l, ¬ taken q → again = false → y.again.testBit q.1 = true ∧ y.got.testBit q.1 = x.got.testBit q.1)) ∧
      t.mirrorReads = u.mirrorReads + (if again then 1 else 0) ∧ OnlyChans { u with mirrorReads := t.mirrorReads } t) ∧
    XferMoves (.dataWrite b ch id n) s b ch id (fun u t x => ∀ (P M : Word) (pa : Nat),
      let row := n / x.desc.len
      let off := BitVec.ofNat 64 (x.desc.param.toNat % 2 ^ 32)
      let w := ({ va := P + off, start := row * x.desc.len, len := x.desc.len } : Seg).step n
      let wM := ({ va := M + off, start := row * x.desc.len, len := x.desc.len } : Seg).step n
      let wNow := if x.mirrored.testBit n then wM else w
      x.form = .mem .btdst ∨ (∃ j img, x.form = .fromItem .btdst j img) → x.off = false → x.srcVoid = false → n < x.size →
      x.put.testBit n = false → getKey x.pages row = some (P, some M) → (∀ j ∈ w.nums, x.got.testBit j = true) →
      placeOf u u.blk true wNow.va .store = .ok (.phys pa) → remotePkg pa = none → inSlotFrame u pa = false → u.mem.wf = true →
      (∀ q ∈ wNow.l, x.put.testBit q.1 = false → t.mem.byte (pa / 8 * 8 + q.2) = x.buf.read q.1) ∧
      (∀ a, (∀ q ∈ wNow.l, a ≠ pa / 8 * 8 + q.2) → t.mem.byte a = u.mem.byte a) ∧
      XferTo u t ch x (fun y => ∀ j,
        y.mirrored.testBit j = (x.mirrored.testBit j || (!x.mirrored.testBit n && decide (j ∈ w.nums))) ∧
        y.put.testBit j = (x.put.testBit j || (x.mirrored.testBit n && decide (j ∈ wM.nums))))) ∧
    (∀ (d : Desc) (r ky kx c : Nat),
      let k := d.im2col
      let q := k.first + r
      let iy : Int := (q / k.ow % k.oh * k.ksy + ky : Nat) - (k.pt : Int)
      let ix : Int := (q % k.ow * k.ksx + kx : Nat) - (k.pl : Int)
      let byte := ((r * k.kh + ky) * k.kw + kx) * d.len + c
      ky < k.kh → kx < k.kw → c < d.len →
      (k.n ≤ q / (k.oh * k.ow) → srcPos d .im2col byte = .pad k.pad true) ∧
      (q / (k.oh * k.ow) < k.n → 0 ≤ iy → iy < k.h → 0 ≤ ix → ix < k.w → (srcPos d .im2col byte).va byte =
        some (d.src + BitVec.ofInt 64 ((q / (k.oh * k.ow) : Nat) * d.sz + iy * d.sy + ix * d.len + c))) ∧
      (q / (k.oh * k.ow) < k.n → iy < 0 ∨ k.h ≤ iy ∨ ix < 0 ∨ k.w ≤ ix → srcPos d .im2col byte = .pad k.pad false)) ∧
    XferMoves (.dataRead b ch id n) s b ch id (fun u t x => ∀ g v row,
      x.form = .mem g ∨ (∃ i tag, x.form = .toItem g i tag false) → x.off = false → n < x.size → x.got.testBit n = false →
      srcPos x.desc g n = .pad v row → x.buf.wf = true →
      OnlyChans u t ∧ XferTo u t ch x fun y => y.buf.read n = v ∧ y.got = x.got ||| 2 ^ n ∧ y.pois = x.pois ∧ y.st = .active) ∧
    XferMoves (.dataWrite b ch id n) s b ch id (fun u t x => ∀ seg pa,
      let d := x.desc
      let len := d.rowLen .im2col
      let w := stepAt (dstPos d .im2col) (nearBytes d .im2col x.size n) n
      x.form = .mem .im2col → x.size = len * d.ny → x.off = false → x.srcVoid = false → n < x.size → x.put.testBit n = false →
      dstPos d .im2col n = .mem seg → (∀ j ∈ w.nums, x.got.testBit j = true) →
      placeOf u u.blk true w.va .store = .ok (.phys pa) → remotePkg pa = none →
      XferTo u t ch x fun y =>
        let whole (bits r : Nat) : Bool := (List.range len).all fun k => bits.testBit (r * len + k)
        let padRow (r : Nat) : Bool := decide (d.im2col.n ≤ (d.im2col.first + r) / (d.im2col.oh * d.im2col.ow))
        y.pads = x.pads + ((List.range d.ny).filter fun r => padRow r && whole y.put r && !whole x.put r).length)

/-! ## The machine as a whole -/

/-- R50 to R53, R67, R74, R75, R82, R90: a step. Where the next choice is the issue of an agent that may issue, and the word at its
program counter (with its literal) decodes to a line, the step is `exec` of the line's instruction, put between what
precedes a word (the lines of its bytes given up by the host, a stopped instruction abandoned, a region closed) and what follows it (its stream cycles pass, and the
program counter goes to the next word); the halves of a PAIR word take effect together, the vector half first; a word
that does not issue leaves what precedes it undone. An agent that may not issue changes at most the slip count of its open
region. Where the next choice is an event, the step is `exec` of it; where it is an input, the input takes effect; where it
is time, that many ticks pass; without power and without a choice the machine stands still. -/
def Obligations.StepRunsDecoded : Prop :=
  ∀ (s : State) (b w n : Nat) (inp : Input) (i j : Instr) (hdr : Hdr) (loc loc2 : Loc) (raw lit : Word) (c : Choice) (rest : List Choice),
    (s.agenda = c :: rest → takeChoice s = (c, { s with agenda := rest })) ∧
    (s.dev.power = false → s.agenda = [] → step s = .fault .unpowered) ∧
    (s.dev.power = true ∨ s.agenda ≠ [] →
      let p := (takeChoice s).2
      ((takeChoice s).1 = .event i → step s = exec i p) ∧
      ((takeChoice s).1 = .input inp → step s = .next (takeInput inp p)) ∧
      ((takeChoice s).1 = .issue b w → ∀ x, getKey p.blocks b = some x → x.status ≠ .failed → mayIssue (enter p b w) = false →
        step s = .next (leave (enter p b w)) ∨
        step s = .next (leave { enter p b w with ag := slipOne (enter p b w).ag })) ∧
      ((takeChoice s).1 = .time n → step s = .next (passTime n p)) ∧
      ((takeChoice s).1 = .issue b w → ∀ x, getKey p.blocks b = some x → x.status ≠ .failed →
        let u := enter p b w
        let pc := u.ag.pc
        let u' : State := { u with
          ag := { u.ag with wait := 0 }
          cur := { u.cur with
            pc := pc
            next := pc + 8
            sync := false } }
        let f : State := if raw.getLsbD 52 then (u'.snoopLoc loc 8).snoopLoc loc2 8 else u'.snoopLoc loc 8
        let v : State := { f with cur := { u'.cur with
          raw := raw
          next := if raw.getLsbD 52 then pc + 16 else pc + 8
          hdr := hdr } }
        mayIssue u = true → waitOver u = true → u.ag.rep ≠ some 0 → u.ag.spoiled = none ∨ u.ag.ctl.inh = true →
        fetchWord u' u'.blk pc = (.ok loc, raw) →
        (if raw.getLsbD 52 then fetchWord u' u'.blk (pc + 8) = (.ok loc2, lit) else lit = 0) →
        (decode (u.cur.w == 4) raw lit = .ok ⟨hdr, .one i⟩ →
          (∀ t, exec i (beforeWord v ⟨hdr, .one i⟩) = .next t → t.cur.disp.passed = true → step s = .next (leave (finish t))) ∧
          (∀ t t', exec i (beforeWord v ⟨hdr, .one i⟩) = .next t → t.cur.disp.passed = false → exec i v = .next t' →
            step s = .next (leave (finish t')))) ∧
        (decode (u.cur.w == 4) raw lit = .ok ⟨hdr, .pair i j⟩ → ∀ x t t',
          x = beforeWord v ⟨hdr, .pair i j⟩ → verdict i x = .go → verdict j x = .go → exec j x = .next t → t.cur.disp = .issued →
          exec i t = .next t' → t'.cur.disp = .issued → step s = .next (leave (finish t'))))) ∧
    (s.cur.disp = .issued → s.ag.rep = none → (finish s).ag.pc = s.cur.next ∧ (finish s).ag.cyc = s.ag.cyc + 1 + s.cur.hdr.w.val ∧
      (finish s).ag.started = true ∧ (finish s).blk = s.blk ∧ (finish s).mem = s.mem)

/-- R50 to R65: the words that the specification writes out decode to the instructions it writes them for. -/
def Obligations.SpecWordsDecode : Prop :=
  let one (w : Word) (i : Instr) : Prop := decode (wordIsMove w) w 0 = .ok ⟨Hdr.default, .one i⟩
  let half (w : Word) (i j : Instr) : Prop := decode false w 0 = .ok ⟨Hdr.default, .pair i j⟩
  half 0x000C_0453_0000_0000 (.peq 2 5 6) .vnop ∧
  half 0x0008_063F_E000_0000 (.addi 3 3 (.short (-8))) .vnop ∧
  half 0x0000_0000_0217_8020 .snop (.vrsq 7 8 ⟨.rtz, false, false⟩ .f32) ∧
  half 0x0000_0000_0015_6707 .snop (.vadd 5 6 7 ⟨.rne, false, false⟩ .f64) ∧
  one 0x0104_0214_C000_0000 (.hset 4 5 6) ∧
  one 0x0104_3010_0000_0002 (.hwait 4 2) ∧
  one 0x0200_1522_0000_0100 (.vld 5 4 2 256) ∧
  one 0x0201_0312_0000_0002 (.vcmp 3 1 2 false .f32 .lt) ∧
  one 0x0201_7620_0000_0018 (.vcvt 6 2 ⟨.rne, false, false⟩ .f32 8 true) ∧
  one 0x0300_4001_0000_0800 (.ttov ⟨2, 0, false⟩ true) ∧
  one 0x0400_5283_FFFF_FFFD (.loop 5 (-3)) ∧
  one 0x0400_A000_0000_0001 (.mark 1) ∧
  one 0x0500_2050_4080_0000 (.mtc 20 0x102) ∧
  one 0x0500_1A80_4080_0000 (.mfc 21 0x102) ∧
  one 0x0501_3010_0000_0000 (.pcmd 4)

/-- R50 to R65: the encodings agree with the decoder. The word that the tables give a well-formed line, with its literal where
it carries one, decodes to that line, with every operand at every value that its field admits. -/
def Obligations.DecodeOfEncode : Prop :=
  ∀ (isMP : Bool) (l : Line) (x : Word), l.wf isMP = true →
    ∃ w lit, encode l = some (w, lit) ∧ hasLiteral w = lit.isSome ∧ decode isMP w (lit.getD x) = .ok l

/-- R50 to R67: a word has one reading. What the decoder accepts is well formed, and its encoding is the word that was read. -/
def Obligations.EncodeOfDecode : Prop :=
  ∀ (isMP : Bool) (w lit : Word) (l : Line), decode isMP w lit = .ok l →
    l.wf isMP = true ∧ encode l = some (w, if hasLiteral w then some lit else none)

/-- R22, R154, R238, R249: every memory that the machine holds keeps its canonical form: a step that answers a next state from a
state whose memories are canonical leaves them canonical, whatever the instruction or the event. -/
def Obligations.MemoriesStayCanonical : Prop :=
  ∀ s t : State, s.memOk = true → step s = .next t → t.memOk = true

/-- R70, R73, R152, R159, R203, R281, R316, R328, R346, R354, R356, R357: the machine at power-on. Bring-up is in phase 1 and the
package not ready, with DSTAT.CAUSE 0; the count is 0 on every die; no partition, launch or block exists; FABID, FROUTE and
P1ROOT are 0 and QCTL's LOG2 is 4 with EN 0; an agent, a tile register and an accumulator in launch state hold what the
rules give them; every memory is in canonical form. The values of registers for which the rules give none are the
model's (notes/assumptions/4.md) and are not stated here. -/
def Obligations.PowerOnState : Prop :=
  let s := State.reset
  s.dev.power = true ∧ s.dev.ready = false ∧ s.dev.phase = 1 ∧ s.dev.cause = 0 ∧ s.dev.failph = 0 ∧
  (∀ d : Fin 8, s.time[d] = 0) ∧ s.parts = [] ∧ s.launches = [] ∧ s.blocks = [] ∧ s.fabid = 0 ∧ s.fabLock = false ∧
  s.froutes = [] ∧ s.p1root = 0 ∧ s.joined = false ∧ (∀ k, (s.queue k).en = false ∧ (s.queue k).log2 = 4) ∧
  (∀ i : Fin 64, s.islands[i].step = 0) ∧
  (∀ c, (s.core c).cecnt = 0 ∧ (s.core c).ctxv = 0 ∧ (s.core c).fcode = 0) ∧
  (let a := Agent.reset
   (∀ n, a.getS n = 0) ∧ (∀ n, a.getV n = 0) ∧ (∀ n : PReg, n ≠ 0 → a.getP n = false) ∧ a.getP 0 = true ∧
   (∀ r, a.poisoned r = false) ∧ a.pend = [] ∧ a.latches = [] ∧ a.ctl.ie = false ∧ a.ctl.inh = false ∧ a.ctl.flags = Flags.none) ∧
  (Tile.reset.md = ⟨0, 0, 0, false, false, 0x00⟩ ∧ Tile.reset.data = 0 ∧ Tile.reset.side = 0 ∧
    Accum.reset.md = ⟨0, 0, 0, false, false, 0x10⟩ ∧ Accum.reset.data = 0) ∧
  (Partition.reset.id = 1 ∧ Partition.reset.level = 1 ∧ Partition.reset.parent = 0 ∧ Partition.reset.offline = 0) ∧
  s.memOk = true

/-! ## Weld, the walker and the reconstruction unit -/

namespace Sys2Proof.Machine

/-- An engine that needs some pages of a partition has walked to all of them (R236). -/
def Walked (s : State) (p : Partition) (pages : List Word) : Prop := ∀ va ∈ pages, engTr s p va .load ≠ .miss

/-- A step reads an entry of the walk to the first of some pages that has not been walked to (R236). -/
def WalksOn (s : State) (p : Partition) (pages : List Word) (e : Instr) : Prop :=
  ∀ va, pages.find? (fun va => engTr s p va .load == .miss) = some va → exec e s = .next (engStep s p va)

/-- A unit that needs some pages of partitions has walked to all of them. -/
def WalkedAll (s : State) (pages : List (Partition × Word)) : Prop := ∀ x ∈ pages, engTr s x.1 x.2 .load ≠ .miss

/-- A step reads an entry of the walk to the first of some pages of partitions that has not been walked to. -/
def WalksAll (s : State) (pages : List (Partition × Word)) (e : Instr) : Prop :=
  ∀ x, pages.find? (fun x => engTr s x.1 x.2 .load == .miss) = some x → exec e s = .next (engStep s x.1 x.2)

/-- A block of a stage stands fresh on a free core: its context slot 0 is the block's, each agent that the image gives a
program stands at its entry in launch state, and nothing else of the machine changes but the request and the counters of
the launch (R203, R252, R255, R303). -/
structure Placed (s t : State) (r : Request) (l : Launch) (st : Stage) (core slot : Nat) : Prop where
  slots : t.core core = { s.core core with
    slots := (s.core core).slots.set (slot % 4) (some s.nextBlock) (Nat.mod_lt _ (by decide))
    leases := []
    ctxv := (s.core core).ctxv ||| 1#4 <<< (slot % 4)
    ctx := BitVec.ofNat 2 slot }
  cores : ∀ c, c ≠ core → t.core c = s.core c
  blocks : ∀ b, b ≠ s.nextBlock → t.block b = s.block b
  queue : t.requests = s.requests.erase r
  launch : ∃ l', t.launch? r.launch = some l' ∧ l' = { l with
      late := l'.late
      stages := l'.stages } ∧
    (∀ n, l'.stages[n]? = if n = r.stage then some { st with placed := st.placed + 1 } else l.stages[n]?) ∧
    (∀ k, l.tick = some k → reached (s.now core) k = true → l'.late = max l.late (s.now core - k).toNat) ∧
    ((∀ k, l.tick = some k → reached (s.now core) k = false) → l'.late = l.late)
  launches : ∀ n, n ≠ r.launch → t.launch? n = s.launch? n
  owner : let b := t.block s.nextBlock
    b.launch = r.launch ∧ b.stage = r.stage ∧ b.inst = st.placed ∧ b.part = l.part ∧ b.tenant = l.tenant ∧ b.prio = st.prio ∧
    b.core = core ∧ b.slot = slot ∧ b.status = .running ∧ b.sprows = st.sprows ∧ b.isa = l.isa ∧ b.replay.isSome = true ∧
    b.accs = [] ∧ b.replaying = false ∧ b.failures = 0 ∧ b.migrating = none ∧ b.ports = Vector.replicate 4 Port.reset ∧
    b.chans = Vector.replicate 5 Chan.reset
  home : let m := (t.block s.nextBlock).mig
    m.lcore = BitVec.ofNat 10 core ∧ m.mcnt = 0 ∧ m.wait = false ∧ m.hb = false ∧ m.pin = false ∧
    m.homec = if st.home = 2 then isOchre core else decide (st.home = 1)
  start : ∀ k, (t.block s.nextBlock).startTick = some k ↔ l.tick = some k ∧ reached (s.now core) k = false
  agents : ∀ w : Fin 5, let a := (t.block s.nextBlock).agents[w]
    (st.agents.getLsbD w = true → a.run = .running ∧ a.pc = st.entry[w] ∧
      a.ctl.pm = ((s.part l.part).priv && decide (w ≠ 4)) ∧ a.ctl.ie = false ∧ a.ctl.inh = false ∧ a.ctl.tvec = 0) ∧
    (st.agents.getLsbD w = false → a.run = .noProgram) ∧
    a.s = Agent.reset.s ∧ a.v = Agent.reset.v ∧ a.p = Agent.reset.p ∧ a.k = Agent.reset.k ∧ a.pend = [] ∧ a.latches = []
  frame : t = { s with
    blocks := t.blocks
    cores := t.cores
    requests := t.requests
    launches := t.launches
    nextBlock := s.nextBlock + 1 }

/-- The slot is the first free one of a core. -/
def FirstFree (c : Core) (slot : Nat) : Prop :=
  c.slots[slot]? = some none ∧ ∀ n, n < slot → c.slots[n]? ≠ some none

/-- A block has moved from its core to another (R306, R309, R314). -/
structure Migrated (s t : State) (id : Nat) (b : Block) (core slot : Nat) : Prop where
  block : t.block id = { b.paused with
    core := core
    slot := slot
    mig := { b.mig with mcnt := if b.mig.mcnt = 0xFFFF then 0xFFFF else b.mig.mcnt + 1 }
    migrating := none
    trigger := none
    migChecked := false }
  others : ∀ x, x ≠ id → (t.block x).agents = (s.block x).agents ∧ (t.block x).core = (s.block x).core ∧
    (t.block x).slot = (s.block x).slot ∧ (t.block x).status = (s.block x).status ∧ (t.block x).pad = (s.block x).pad
  slots : (t.core core).slots[slot]? = some (some id) ∧ (t.core b.core).slots[b.slot % 4]? = some none
  cores : ∀ c, c ≠ core → c ≠ b.core → t.core c = { s.core c with forwards := (t.core c).forwards }
  left : ∀ f ∈ (t.core b.core).forwards, f.launch = b.launch → f.block = id → f.core = core
  record : (⟨b.launch, id, core⟩ : Forward) ∈ (t.core b.core).forwards
  reached : ∀ f ∈ (t.core core).forwards, ¬ (f.launch = b.launch ∧ f.block = id)
  trace : t.outbox = s.outbox ++ [Out.migrated id b.core core]
  queue : t.requests = s.requests.filter fun r => decide (r.block ≠ some id)
  frame : t = { s with
    blocks := t.blocks
    cores := t.cores
    requests := t.requests
    outbox := t.outbox }

end Sys2Proof.Machine

/-- R172 to R174, R203, R255 to R257, R302 to R306, R308, R309, R311, R312, R314, R333, R335: where blocks stand. The first
request that finds a free core is served, by the keys of R255; the oldest request of the highest priority that finds none
suspends the block it pre-empts, unless a suspended block stands before it; a stage whose work is exhausted receives no
instance then (R254), which Weld finds in the stage's rings; a core without a running block resumes a
suspended one that no request stands before; a slice that is over, with no block running or failed, passes the
cores to the next child, whose slice is shorter by its last overshoot; a block that is to move leaves its core once R306 lets it, with the forwarding records of R309
and R314, and where R308 refuses the move its word raises NOCAP.
These clauses are the model's choice: that a failed block holds its child's slice open and that a request without a core does
not hold up those behind it (notes/assumptions/21.md); that a target which can no longer take the block is given up, and when
the check of R308 is made (notes/assumptions/22.md); that requests made together have no order, and a suspended block competes
with the date of its suspension (notes/assumptions/58.md); and that a move waits for the new core's count
(notes/assumptions/56.md). -/
def Obligations.Placement : Prop :=
  ∀ (s : State) (part id core slot : Nat) (B : Block) (r : Request) (q : List Request) (l : Launch) (st : Stage),
    let p := s.part part
    (p.active = false ∨ (∀ x ∈ queueOf s part, freeFor s x = none) → exec (.blockPlace part) s = .next s) ∧
    (p.active = true → queueOf s part = r :: q → freeFor s r = some core →
      (let cands := freeCores s (s.part r.part) r.launch r.block (requestClass s r)
       let free (c : Nat) : Nat := ((s.part r.part).cores.filter fun x => decide (clusterOf x = clusterOf c) && coreFree s x).length
       core ∈ cands ∧ ∀ c ∈ cands, free c < free core ∨ free c = free core ∧
         (clusterOf core < clusterOf c ∨ clusterOf core = clusterOf c ∧ core ≤ c)) ∧
      (r.block = none → s.launch? r.launch = some l → l.stages[r.stage]? = some st →
        WalksOn s (s.part r.part) st.ringPages (.blockPlace part) ∧
        (Walked s (s.part r.part) st.ringPages → stageFinished s r.launch r.stage l st = true →
          ∃ t, exec (.blockPlace part) s = .next t ∧
            t.requests = s.requests.filter (fun x => !(x.launch == r.launch && x.stage == r.stage && x.block.isNone)) ∧
            (∃ l' x, t.launch? r.launch = some l' ∧ l'.stages[r.stage]? = some x ∧ x = { st with finished := true }) ∧ t = { s with
              requests := t.requests
              launches := t.launches
              hostLines := t.hostLines
              engWalks := t.engWalks }) ∧
        (st.agents ≠ 0 → Walked s (s.part r.part) st.ringPages → stageFinished s r.launch r.stage l st = false →
          ∃ t, exec (.blockPlace part) s = .next t ∧ Placed { s with
            hostLines := t.hostLines
            engWalks := t.engWalks } t r l st core 0)) ∧
      (r.block = some id → exec (.blockPlace part) s = .next { s with
        requests := s.requests.erase r
        blocks := putKey s.blocks id { s.block id with migrating := some core } })) ∧
    (p.active = true → queueOf s part = r :: q → freeFor s r = none → victimFor s r = some (id, B) → B.migrating = none →
      suspendedFirst s r = false → blockMayStop s id B = true → r.block = none → s.launch? r.launch = some l →
      l.stages[r.stage]? = some st → st.agents ≠ 0 → FirstFree (s.core B.core) slot → id ≠ s.nextBlock →
      Walked s (s.part r.part) st.ringPages → stageFinished s r.launch r.stage l st = false →
      B.status = .running ∧ B.part = r.part ∧ B.prio < r.prio ∧ ∃ t n, exec (.preempt part) s = .next t ∧
        (∀ x ∈ s.blocks, x.2.suspended < n) ∧ (∀ x ∈ s.requests, x.made < n) ∧
        Placed ({ s with
          hostLines := t.hostLines
          engWalks := t.engWalks }.setBlock id { B.paused with
            status := .suspended
            suspended := n }) t r l st B.core slot) ∧
    (p.active = true → queueOf s part = r :: q →
      freeFor s r ≠ none ∨ victimFor s r = none ∨
        (∃ x b, getKey s.blocks x = some b ∧ b.part = r.part ∧ b.status = .suspended ∧ r.before b.asRequest = false) →
      exec (.preempt part) s = .next s) ∧
    (∀ n : Fin 4, (s.core core).slots[n] = some id → getKey s.blocks id = some B → B.status = .suspended →
      (∀ (m : Fin 4) x b, (s.core core).slots[m] = some x → getKey s.blocks x = some b → b.status ≠ .running ∧ b.status ≠ .sliced ∧
        (b.status = .suspended → x ≠ id → b.prio < B.prio ∨ b.prio = B.prio ∧ B.suspended < b.suspended)) →
      (s.core core).out = false → coreReserved s core = false → (s.part B.part).active = true → servedBefore s B = false →
      ∃ t, exec (.blockResume core) s = .next t ∧ t.block id = { B with status := .running } ∧ (∀ x, x ≠ id → t.block x = s.block x) ∧
        t.core core = { s.core core with
          slots := (s.core core).slots.set (B.slot % 4) (some id) (Nat.mod_lt _ (by decide))
          leases := []
          ctxv := (s.core core).ctxv ||| 1#4 <<< (B.slot % 4)
          ctx := BitVec.ofNat 2 B.slot } ∧
        (∀ c, c ≠ core → t.core c = s.core c) ∧ t = { s with
          blocks := t.blocks
          cores := t.cores }) ∧
    (∀ e, p.sliceEnd = some e → p.sliced = true → p.active = true → natSetFrom 0 (s.parts.map (·.1)) = true →
      natSetFrom 0 (s.blocks.map (·.1)) = true →
      (reached (s.now 0) e = false → exec (.sliceEnd part) s = .next s) ∧
      ((∃ x ∈ s.blocks, x.2.part = part ∧ (x.2.status = .running ∨ x.2.status = .failed)) → exec (.sliceEnd part) s = .next s) ∧
      (reached (s.now 0) e = true → (∀ x ∈ s.blocks, x.2.part = part → x.2.status ≠ .running ∧ x.2.status ≠ .failed) →
        (∀ c ∈ sliceGroup s part, (s.part c).quota = none) →
        let n := nextChild s part
        let overrun := match p.stoppedAt with
          | some k => if reached k e then (k - e).toNat else 0
          | none => 0
        let total := ((sliceGroup s part).map fun c => (s.part c).tweight).sum
        let excess := if n = part then overrun else (s.part n).overshoot
        ∃ t, exec (.sliceEnd part) s = .next t ∧
          t.part n = { s.part n with
            active := true
            overshoot := 0
            stoppedAt := none
            sliceEnd := some (s.now 0 + BitVec.ofNat 64 ((s.part n).tweight * 8000000 / max 1 total - excess)) } ∧
          (n ≠ part → t.part part = { p with
            active := false
            sliceEnd := none
            overshoot := overrun }) ∧
          (∀ c ∈ p.cores, (t.core c).leases = [] ∧ ∀ x ∈ (t.core c).tlb, x.part ≠ part) ∧
          (∀ x b, getKey s.blocks x = some b → b.part ≠ n → t.block x = b) ∧ t = { s with
            parts := t.parts
            blocks := t.blocks
            cores := t.cores })) ∧
    (∀ e, getKey s.blocks id = some B → B.status = .running ∨ B.status = .failed → (s.part B.part).sliceEnd = some e → (s.part B.part).sliced = true →
      (s.part B.part).active = true →
      (reached (s.now 0) (e + 1000000) = false → exec (.sliceOvershootTimeout id) s = .next s) ∧
      (reached (s.now 0) (e + 1000000) = true → s.rungs = [] → (s.launch? B.launch).isSome = true →
        natSetFrom 0 (s.blocks.map (·.1)) = true → ∃ t x, exec (.sliceOvershootTimeout id) s = .next t ∧
        t.rungs = [x] ∧ x.n = 2 ∧ x.launch = some B.launch ∧ x.begun = true ∧ x.since = s.now 0 ∧
        (∀ b y, getKey t.blocks b = some y → y.launch = B.launch → y.status = .ended) ∧ t.mem = s.mem)) ∧
    (getKey s.blocks id = some B → B.status = .running → B.migrating = some core → core ≠ B.core →
      let stay := exec (.migrate id) s = .next (s.setBlock id { B with
        migrating := none
        trigger := none
        migChecked := false })
      let goes := mayArrive s B core = true ∧ blockMayStop s id B = true ∧ reached (s.now core) (s.now B.core) = true
      let ok := B.migChecked = true ∨ refused s id (isOchre core) = false
      let banks := ((s.core B.core).liveBanks B.slot).any (bankBlocked s core slot)
      (∀ w, B.trigger = some w →
        (mayArrive s B core = false → stay) ∧
        (mayArrive s B core = true → blockMayStop s id B = false ∨ reached (s.now core) (s.now B.core) = false →
          exec (.migrate id) s = .next s) ∧
        (goes → ok → mayLeave s id B = false ∨ banks = true →
          exec (.migrate id) s = .next (s.setBlock id { B with migChecked := true })) ∧
        (goes → ¬ ok →
          let u := enter s id w
          let v := { u with blk := { u.blk with
            migrating := none
            trigger := none
            migChecked := false } }
          exec (.migrate id) s = .next (leave (raiseAt { v with cur := { v.cur with pc := u.ag.pc } } cNOCAP false u.ag.pc
            (fetchWord v v.blk u.ag.pc).2 (u.ag.rep.getD 0)))) ∧
        (goes → ok → mayLeave s id B = true → FirstFree (s.core core) slot → banks = false →
          ∃ t, exec (.migrate id) s = .next t ∧ Migrated s t id B core slot)) ∧
      (B.trigger = none → B.mig.hb = true → isOchre core = B.mig.homec →
        (goes → ¬ ok → exec (.homeReturn id) s = .next (s.setBlock id { B with
          migrating := none
          trigger := none
          migChecked := false })) ∧
        (goes → ok → mayLeave s id B = true → FirstFree (s.core core) slot → banks = false →
          ∃ t, exec (.homeReturn id) s = .next t ∧ Migrated s t id B core slot)))

namespace Sys2Proof.Machine

/-- A stage of a launch has another walker; every other stage and launch is as it was. -/
structure WalkerTo (s t : State) (lid no : Nat) (l : Launch) (P : Walker → Prop) : Prop where
  one : ∃ st w, l.stages[no]? = some st ∧ P w ∧ ∃ l', t.launch? lid = some l' ∧ l' = { l with stages := l'.stages } ∧
    ∀ n, l'.stages[n]? = if n = no then some { st with walker := some w } else l.stages[n]?
  others : ∀ n, n ≠ lid → t.launch? n = s.launch? n

/-- A walker after a report: the hand-outs that `mark` picks are reported, and nothing else has changed but the errors of
audit points that had none (R260, R267). -/
def Reported (w w' : Walker) (mark : Handed → Bool) : Prop :=
  w' = { w with handed := w'.handed } ∧
  w'.handed.map (fun h => { h with error := none }) = w.handed.map (fun h => { h with
    reported := h.reported || mark h
    error := none }) ∧
  ∀ (i : Nat) h h', w.handed[i]? = some h → w'.handed[i]? = some h' → h.error.isSome = true ∨ h.point.getLsbD 63 = false →
    h'.error = h.error

/-- A block's port has another content; every other block is as it was. -/
structure PortTo (s t : State) (id : Nat) (b : Block) (n : Fin 4) (x : Port) : Prop where
  one : t.block id = { b with ports := b.ports.set n x }
  others : ∀ k, k ≠ id → t.block k = s.block k

end Sys2Proof.Machine

/-- R103, R170, R173, R225, R236, R252 to R254, R258 to R262, R266 to R268, R323, R350: what Weld, the walker and the reconstruction unit
do for a launch. Weld evaluates the stages of an active partition at a multiple of 16,384 ticks, once it has walked to their
rings, and asks for instances by the five rules of R254, and line 6 becomes pending in the streams of a stage whose ring is found closed; the walker posts the points that are kept or audited in ascending index, those taken back first, and
the done value when none is left; a report marks its point, or is counted as invalid; a skipped point is filled once its
neighbours have been reported and the pages of its rows have been walked, by Data reads of its neighbours and then Data writes in
ascending address; an update of the fraction is made once its audit
points have been measured; a stage whose work is exhausted receives no further instance; a launch that
may retire leaves the machine and completes with status 0, and one that a rung abandons does not; it may retire once every stage has
finished, every point has been reported or filled, every block has executed EXIT and no update is due.
These clauses are the model's choice: that a finished stage's waiting requests are dropped, that each stage is evaluated once at each
multiple and in one step, and that a fill whose page does not translate writes nothing (notes/assumptions/23.md); and that the
done value may be posted ahead of a waiting FPOP (notes/assumptions/48.md). -/
def Obligations.LaunchProgress : Prop :=
  ∀ (s : State) (part lid no id : Nat) (l : Launch) (st : Stage) (w : Walker) (B : Block),
    let p := s.part part
    let now := s.now 0
    (p.weldOpen = false → p.active = false ∨ now.toNat % 16384 ≠ 0 ∨ p.weldAt = some now → exec (.weldTick part) s = .next s) ∧
    (p.weldOpen = true ∨ p.active = true ∧ now.toNat % 16384 = 0 ∧ p.weldAt ≠ some now →
      let u := s.setPart part { p with
        weldAt := if p.weldOpen = true then p.weldAt else some now
        weldOpen := true }
      let v := u.setPart part { u.part part with weldOpen := false }
      let rings := (s.launches.filter fun q => q.2.part == part && !rungStops s q.1).flatMap fun q => q.2.stages.flatMap Stage.ringPages
      (∀ va, rings.find? (fun va => engTr u p va .load == .miss) = some va → exec (.weldTick part) s = .next (engStep u p va)) ∧
      (Walked u p rings → ∃ t, exec (.weldTick part) s = .next t ∧
        (t.part part).weldAt = (u.part part).weldAt ∧ (t.part part).weldOpen = false ∧
        (s.launches = [(lid, l)] → l.part ≠ part ∨ rungStops s lid = true → t = v) ∧
        (s.launches = [(lid, l)] → l.part = part → rungStops s lid = false → l.stages = [st] → t = { evalStage v lid 0 with
          engWalks := t.engWalks }))) ∧
    (∀ va v e, readBytes s p va 64 = some (v, e) →
      let f (n : Nat) : Nat := v / 2 ^ (64 * n) % 2 ^ 64
      let occ := (f 3 + 2 ^ 64 - f 4) % 2 ^ 64
      ringView s p va = ⟨BitVec.ofNat 64 (f 3), min occ (f 1), decide (f 1 < occ), f 5 / 2 ^ 32, f 5 % 2 ^ 32, decide (f 7 ≠ 0)⟩) ∧
    (s.launch? lid = some l → l.stages[no]? = some st → stageFinished s lid no l st = true →
      (evalStage s lid no).requests = s.requests.filter (fun r => !(r.launch == lid && r.stage == no && r.block.isNone)) ∧
      ∃ l' x, (evalStage s lid no).launch? lid = some l' ∧ l'.stages[no]? = some x ∧ x.finished = true) ∧
    (∀ (have_ ask : Nat) (ring out : RingView), s.launch? lid = some l → l.stages[no]? = some st → st.finished = false →
      stageFinished s lid no l st = false → ring = ringView s (s.part l.part) st.inRing → out = ringView s (s.part l.part) st.outRing →
      have_ = stageCount s lid no →
      (ask = if have_ < st.minInst then st.minInst - have_
        else if have_ = 0 ∧ st.inRing ≠ 0 ∧ 1 ≤ ring.occ ∧ ring.closed = true then 1
        else if st.inRing ≠ 0 ∧ ring.occ ≤ ring.lwm then 0
        else if (st.inRing ≠ 0 ∧ (ring.hwm ≤ ring.occ ∨ ring.full = true) ∨ st.pointsLeft l = true) ∧
          (st.outRing = 0 ∨ out.occ < out.hwm ∧ out.full = false) ∧ have_ < st.maxInst then 1 else 0) →
      let t := evalStage s lid no
      let closing : Prop := st.inRing ≠ 0 ∧ ring.closed = true ∧ st.closed = false
      (st.started = true ∨ st.inRing = 0 ∨ ring.head ≠ 0 → ∃ n, (∀ x ∈ s.requests, x.made < n) ∧ (∀ x ∈ s.blocks, x.2.suspended < n) ∧
        t.requests = s.requests ++ List.replicate ask ⟨l.part, lid, no, st.prio, none, n⟩) ∧
      (st.started = false → st.inRing ≠ 0 → ring.head = 0 → t.requests = s.requests) ∧
      (∀ b x, getKey s.blocks b = some x → ∃ y, getKey t.blocks b = some y ∧ y = { x with agents := y.agents } ∧
        ∀ k : Fin 5, (closing ∧ x.launch = lid ∧ x.stage = no ∧ x.status ≠ .ended ∧ k ≠ 4 →
            y.agents[k] = { x.agents[k] with ctl := { x.agents[k].ctl with line6 := true } }) ∧
          (¬ (closing ∧ x.launch = lid ∧ x.stage = no ∧ x.status ≠ .ended ∧ k ≠ 4) → y.agents[k] = x.agents[k]))) ∧
    (getKey s.blocks id = some B → B.status = .running → B.ports[0].res.length - B.ports[0].resClaims < 2 → B.ports[0].res.length < 16 →
      let empty := B.ports[0].res.length - B.ports[0].resClaims = 0
      let gives (t : State) (v : Word) : Prop := PortTo s t id B 0 { B.ports[0] with res := B.ports[0].res ++ [(v, false)] } ∧ t = { s with
        blocks := t.blocks
        launches := t.launches }
      exec (.post id 0) s = exec (.walkerPost id) s ∧
      (gridOf s B = none → empty → ∃ t, exec (.walkerPost id) s = .next t ∧ gives t (BitVec.allOnes 64) ∧ t.launches = s.launches) ∧
      (gridOf s B = some (l, st, w) →
        (w.returned = [] → w.total ≤ w.pidx → empty → ∃ t, exec (.walkerPost id) s = .next t ∧ gives t (BitVec.allOnes 64) ∧
          WalkerTo s t B.launch B.stage l fun w' => w' = w) ∧
        (∀ x ∈ w.returned, (∀ y ∈ w.returned, y ≠ x → x.1 < y.1) → ∃ t, exec (.walkerPost id) s = .next t ∧ gives t x.2 ∧
          WalkerTo s t B.launch B.stage l fun w' => w' = { w with
            returned := w.returned.erase x
            handed := w.handed ++ [⟨x.1, x.2, id, false, none⟩] }) ∧
        (w.returned = [] → w.pidx < w.total → st.cov = none → ∃ t, exec (.walkerPost id) s = .next t ∧
          gives t (pointValue (w.point w.pidx) false) ∧ WalkerTo s t B.launch B.stage l fun w' => w' = { w with
            pidx := w.pidx + 1
            idx := w.idx + 1
            handed := w.handed ++ [⟨w.idx, pointValue (w.point w.pidx) false, id, false, none⟩] }) ∧
        (∀ c k, w.returned = [] → st.cov = some c → w.pidx ≤ k → k < w.total → (∀ j, j ≤ k → (w.point j).z < w.planes.length) →
          let kept (j : Nat) : Bool := keptUnder c w (w.planes.getD (w.point j).z 256) (w.point j)
          let audit (j : Nat) : Bool := auditPoint c l.lnum j l.covctl
          (∀ j, w.pidx ≤ j → j < k → kept j = false ∧ audit j = false) → kept k = true ∨ audit k = true →
          ∃ t, exec (.walkerPost id) s = .next t ∧ gives t (pointValue (w.point k) (!kept k)) ∧
            WalkerTo s t B.launch B.stage l fun w' => w' = { w with
              pidx := k + 1
              idx := w.idx + 1
              handed := w.handed ++ [⟨w.idx, pointValue (w.point k) (!kept k), id, false, none⟩] }))) ∧
    (∀ v r, getKey s.blocks id = some B → B.ports[1].cmd = v :: r →
      let taken (t : State) : Prop := PortTo s t id B 1 { B.ports[1] with cmd := r } ∧ t = { s with
        blocks := t.blocks
        launches := t.launches
        hostLines := t.hostLines
        engWalks := t.engWalks }
      let pages := (auditRows (takeReport s id B v r) B.launch B.stage).flatMap fun x => pagesOf x.1 x.2
      exec (.take id 1) s = exec (.reportTake id) s ∧
      WalksOn s (s.part B.part) pages (.reportTake id) ∧
      (gridOf s B = none → s.launch? B.launch = some l → ∃ t, exec (.reportTake id) s = .next t ∧ taken t ∧
        t.launches = putKey s.launches B.launch { l with badrep := l.badrep + 1 }) ∧
      (gridOf s B = some (l, st, w) → Walked s (s.part B.part) pages →
        ((∃ h ∈ w.handed, h.point = v ∧ h.block = id ∧ h.reported = false) → ∃ t, exec (.reportTake id) s = .next t ∧ taken t ∧
          WalkerTo s t B.launch B.stage l fun w' => Reported w w' fun h => h.point == v && h.block == id) ∧
        ((∀ h ∈ w.handed, h.point = v → h.block = id → h.reported = true) →
          ∃ t, exec (.reportTake id) s = .next t ∧ taken t ∧
            (B.replaying = true → (∃ h ∈ w.handed, h.point = v ∧ h.block = id) →
              WalkerTo s t B.launch B.stage l fun w' => Reported w w' fun _ => false) ∧
            (B.replaying = false ∨ (∀ h ∈ w.handed, h.point = v → h.block ≠ id) →
              WalkerTo s t B.launch B.stage { l with badrep := l.badrep + 1 } fun w' => Reported w w' fun _ => false)))) ∧
    (∀ v r, getKey s.blocks id = some B → exec (.take id 3) s = .next s ∧ exec (.post id 1) s = .next s ∧ exec (.post id 3) s = .next s ∧
      (B.ports[0].cmd = v :: r → exec (.take id 0) s = .next (s.setBlock id { B with ports := B.ports.set 0 { B.ports[0] with cmd := r } })) ∧
      (B.ports[2].cmd = v :: r →
        WalksOn s (s.part B.part) (cmdPages s B v) (.take id 2) ∧
        (Walked s (s.part B.part) (cmdPages s B v) → ∃ t, exec (.take id 2) s = .next t ∧ PortTo s t id B 2 { B.ports[2] with cmd := r } ∧
          (v.toNat % 64 ≠ 0 ∨ inWindow v = false → ∃ tag, t.posts = s.posts ++ [(id, resultWord 1 tag)]) ∧ t = { s with
            blocks := t.blocks
            members := t.members
            posts := t.posts
            links := t.links
            outgoing := t.outgoing
            outbox := t.outbox
            hostLines := t.hostLines
            engWalks := t.engWalks
            free := t.free })) ∧
      (B.status ≠ .running → exec (.post id 2) s = .next s) ∧
      (∀ x a b, s.posts = a ++ (id, x) :: b → (∀ y ∈ a, y.1 ≠ id) → B.status = .running → B.ports[2].res.length + B.ports[2].resSlots < 16 →
        ∃ t, exec (.post id 2) s = .next t ∧ PortTo s t id B 2 { B.ports[2] with res := B.ports[2].res ++ [(x, false)] } ∧ t = { s with
          blocks := t.blocks
          posts := a ++ b })) ∧
    (s.launch? lid = some l → (∀ n x, n < no → l.stages[n]? = some x → x.cov = none) → l.stages[no]? = some st → st.walker = some w →
      ∀ c, st.cov = some c → (rungStops s lid = true → ∀ pidx, exec (.fill lid pidx) s = .next s) ∧ (rungStops s lid = false →
      (∀ pidx axes, pidx < w.pidx → w.filled.contains pidx = false → auditPoint c l.lnum pidx l.covctl = false →
        (∃ f, w.planes[(w.point pidx).z]? = some f ∧ keptUnder c w f (w.point pidx) = false) → readyAxes c w pidx = some axes →
        let q := s.part l.part
        let pages := fillPages c axes (w.point pidx)
        let f := (w.filling.find? (·.pidx == pidx)).getD ⟨pidx, 0, [], 0, false⟩
        let reads := (neighbourRows c axes).flatMap fun x => wordsIn x.1 x.2
        let goesOn (w' : Walker) (f' : Fill) : Prop := w' = { w with filling := f' :: w.filling.filter (·.pidx != pidx) }
        let isFilled (w' : Walker) : Prop := w' = { w with
          filling := w.filling.filter (·.pidx != pidx)
          filled := natInsert w.filled pidx }
        let ends (t : State) (m : Store) : Prop := WalkerTo s t lid no l isFilled ∧ t.mem = m ∧ t = { s with
          launches := t.launches
          mem := t.mem
          hostLines := t.hostLines
          engWalks := t.engWalks }
        (∀ x, pages.find? (fun x => engTr s q x.1 x.2 == .miss) = some x → ∃ t, exec (.fill lid pidx) s = .next t ∧
          WalkerTo s t lid no l (fun w' => goesOn w' f) ∧ t = { engStep s q x.1 with launches := t.launches }) ∧
        ((∀ x ∈ pages, engTr s q x.1 x.2 ≠ .miss) → (∃ x ∈ pages, ∃ code, engTr s q x.1 x.2 = .fault code) →
          ∃ t, exec (.fill lid pidx) s = .next t ∧ ends t s.mem) ∧
        ((∀ x ∈ pages, ∃ y, engTr s q x.1 x.2 = .ok y) →
          (∀ va n v z, reads[f.reads]? = some (va, n) → readBytes s q va n = some (v, z) → ∃ t, exec (.fill lid pidx) s = .next t ∧
            WalkerTo s t lid no l (fun w' => goesOn w' { f with
              reads := f.reads + 1
              got := f.got ++ spread va v z n }) ∧ t = { s with
                launches := t.launches
                hostLines := t.hostLines }) ∧
          (∀ rows va n v z u, reads.length ≤ f.reads → reconPoint (readSeen f.got) c axes (w.point pidx) = some rows →
            (rowWrites rows)[f.puts]? = some (va, n, v, z) → writeBytes s q va v (z || f.bad) n = some u →
            ∃ t, exec (.fill lid pidx) s = .next t ∧
              (f.puts + 1 = (rowWrites rows).length → ends t u.mem) ∧
              (f.puts + 1 ≠ (rowWrites rows).length → WalkerTo s t lid no l (fun w' => goesOn w' { f with puts := f.puts + 1 }) ∧
                t.mem = u.mem ∧ t = { s with
                  launches := t.launches
                  mem := t.mem
                  hostLines := t.hostLines })))) ∧
      (∀ pidx, w.pidx ≤ pidx ∨ readyAxes c w pidx = none ∨ auditPoint c l.lnum pidx l.covctl = true → exec (.fill lid pidx) s = .next s) ∧
      (let n := w.updates.length + 1
       let f := updateOver l.covctl (lastFraction w) (errorsIn w (4096 * (n - 1)) (4096 * n))
       let due := l.covctl.getLsbD 15 = true ∧ c.fixed = false ∧ auditsDone w (4096 * n) = true
       (¬ due → exec (.coverageUpdate lid) s = .next s) ∧
       (due → ∃ t, exec (.coverageUpdate lid) s = .next t ∧ WalkerTo s t lid no l (fun w' => w' = { w with updates := w.updates ++ [f] }) ∧
         (errorsIn w (4096 * (n - 1)) (4096 * n) = [] → covFmin l.covctl + 1 ≤ lastFraction w → lastFraction w ≤ covFmax l.covctl + 1 →
           f = lastFraction w ∧ t.blocks = s.blocks) ∧
         (covFmin l.covctl ≤ covFmax l.covctl → covFmin l.covctl + 1 ≤ f ∧ f ≤ covFmax l.covctl + 1) ∧
         (∀ b x, getKey s.blocks b = some x → ∃ y, getKey t.blocks b = some y ∧ y = { x with agents := y.agents } ∧
           ∀ k : Fin 5, y.agents[k] = if f ≠ lastFraction w ∧ x.launch = lid ∧ x.status ≠ .ended ∧ k ≠ 4 then
             { x.agents[k] with ctl := { x.agents[k].ctl with line5 := true } } else x.agents[k]) ∧ t = { s with
               launches := t.launches
               blocks := t.blocks })))) ∧
    (s.launch? lid = some l →
      (mayRetire s lid l = true ↔ updateDue l = none ∧ (∀ x ∈ s.requests, x.launch ≠ lid) ∧
        (∀ x ∈ s.blocks, x.2.launch = lid → x.2.status = .ended ∧ x.2.chans[4].busy = false) ∧
        ∀ n x, l.stages[n]? = some x → stageFinished s lid n l x = true ∧ ∀ y, x.walker = some y →
          y.returned = [] ∧ (∀ h ∈ y.handed, h.reported = true) ∧ y.handed.length + y.filled.length = y.total) ∧
      (rungStops s lid = true → exec (.launchRetire lid) s = .next s) ∧
      (rungStops s lid = false → WalksAll s (retirePages s lid l) (.launchRetire lid)) ∧
      (WalkedAll s (retirePages s lid l) → mayRetire s lid l = false → rungStops s lid = false →
        ∃ t, exec (.launchRetire lid) s = .next t ∧ t = { s with
          hostLines := t.hostLines
          engWalks := t.engWalks }) ∧
      (WalkedAll s (retirePages s lid l) → mayRetire s lid l = true → rungStops s lid = false → ∃ t c, exec (.launchRetire lid) s = .next t ∧ t.launch? lid = none ∧
        (∀ x ∈ t.blocks, x.2.launch ≠ lid) ∧ (∀ x ∈ t.requests, x.launch ≠ lid) ∧
        c.status = 0 ∧ c.late = l.late ∧ c.badrep = l.badrep ∧ c.slips = l.slips ∧ c.seq = l.seq ∧ c.tend = s.now 0 ∧
        (lastUpdate l = none → c.frac = 0xFF) ∧
        (s.reloading = true → t.completions = s.completions ++ [c] ∧ t.mem = s.mem) ∧
        (s.reloading = false → t.completions = s.completions ∧
          (l.statAddr = 0 → l.sig = false → t.mem = s.mem) ∧
          (∀ pa, inSlotFrame s pa = false → l.statAddr ≠ 0 → l.sig = false → packetPa s (s.part l.part) l.statAddr .store = some pa → pa % 64 = 0 → remotePkg pa = none →
            s.mem.wf = true → lastUpdate l = none → t.mem.readLE pa 64 = c.record))))

namespace Sys2Proof.Machine

/-- A finite value of the working format that a number rounds to, to nearest with ties to even (R31). -/
def Nearest (w : Fmt) (v : ℚ) (d : Dy) : Prop :=
  |d.val| ≤ w.value w.maxFinite ∧ (v = 0 ∧ d.val = 0 ∨ ∃ top : Int, 2 ^ top ≤ |v| ∧ |v| < 2 ^ (top + 1) ∧
    RoundsTo .rne (2 ^ (max top (1 - (w.bias : Int)) - w.fbits)) v d.val)

end Sys2Proof.Machine

/-- R262, R263, R265, R266: the pattern and the kernels of reconstruction. The rank of a point takes its bits from x′ and y as
R265 says; a point is kept where its family always keeps it or its rank is below K; the neighbours of a skipped point are
the nearest kept points along the axes of its family. Between two finite values the linear kernel rounds the quotient, the difference and the
fused sum to the working format, and with two axes halves the rounded sum of both; the first NaN of left, right, up and
down is the result; the nearest kernel takes the value at the smallest distance, the first on a tie. The kernel of an output is
that of its tag: an element is converted to a floating-point tag, or quantised in blocks of 32, or copied. -/
def Obligations.Reconstruction : Prop :=
  (∀ (c : CovRec) (w : Walker) (p : Point),
    let k := c.code.toNat % 16
    let family := c.code.toNat / 16 % 4
    let x := p.x + if c.code.getLsbD 7 then p.z else 0
    let edgeX := p.x = 0 ∨ p.x + 1 = w.gx
    let edgeY := p.y = 0 ∨ p.y + 1 = w.gy
    let always := if family = 0 then edgeX ∨ edgeY else if family = 1 then edgeY else edgeX
    let count := if family = 0 then 2 ^ k * 2 ^ k else 2 ^ k
    patternInvalid c.code = decide (family = 3 ∨ k = 0 ∧ family ≠ 0 ∨ k = 0 ∧ c.code.getLsbD 7 = true ∨ c.code.getLsbD 6 = true ∨ 4 < k) ∧
    (patternInvalid c.code = false → rankOf c p < count ∧ ∀ i < k,
      (family = 0 → rankOf c p / 4 ^ (k - 1 - i) % 4 = 2 * (x.testBit i != p.y.testBit i).toNat + (p.y.testBit i).toNat) ∧
      (family = 1 → (rankOf c p).testBit (k - 1 - i) = p.y.testBit i) ∧
      (family = 2 → (rankOf c p).testBit (k - 1 - i) = x.testBit i)) ∧
    ∀ f, (keptUnder c w f p = true ↔ c.code = 0 ∨ always ∨ 256 * rankOf c p < f * count) ∧
      (patternInvalid c.code = false → keptUnder c w f p = false → p.x < w.gx → p.y < w.gy →
        let line (vertical : Bool) (j : Nat) : Point := if vertical then { p with y := j } else { p with x := j }
        let at_ (vertical : Bool) : Nat := if vertical then p.y else p.x
        let between (vertical : Bool) (a : Axis) : Prop := a.a = line vertical a.ta ∧ a.b = line vertical a.tb ∧ a.t = at_ vertical ∧
          a.ta < a.t ∧ a.t < a.tb ∧ keptUnder c w f a.a = true ∧ keptUnder c w f a.b = true ∧
          ∀ j, a.ta < j → j < a.tb → keptUnder c w f (line vertical j) = false
        ∃ l, axesOf c w f p = l ∧ match family, l with
          | 0, [a, b] => between false a ∧ between true b
          | 1, [a] => between true a
          | 2, [a] => between false a
          | _, _ => False)) ∧
  (∀ (w : Fmt) (x y : Axis) (a b : Dy) (f : Fmt), w = fp32 ∨ w = fp64 → x.ta < x.t → x.t < x.tb → x.tb < 2 ^ 24 →
    let one := linearValue w [(x, (.fin a, f), (.fin b, f))]
    (∀ q d z : Dy, Nearest w (((x.t - x.ta : Nat) : ℚ) / ((x.tb - x.ta : Nat) : ℚ)) q → Nearest w (b.val - a.val) d →
      Nearest w (a.val + q.val * d.val) z → ∃ r, one = .fin r ∧ r.val = z.val) ∧
    (∀ (c e h v s z : Dy), one = .fin h → linearValue w [(y, (.fin c, f), (.fin e, f))] = .fin v →
      Nearest w (h.val + v.val) s → Nearest w (s.val / 2) z →
      ∃ r, linearValue w [(x, (.fin a, f), (.fin b, f)), (y, (.fin c, f), (.fin e, f))] = .fin r ∧ r.val = z.val)) ∧
  (∀ (w : Fmt) (l : List (Axis × (Fp × Fmt) × (Fp × Fmt))) (p r : List (Fp × Fmt)) (v : Fp × Fmt),
    (l.flatMap fun q => [q.2.1, q.2.2]) = p ++ v :: r → (∀ q ∈ p, q.1.isNan = false) → v.1.isNan = true →
    linearValue w l = decodeFp w false (convertFp v.2 w .rne false false v.1).1) ∧
  (∀ (l : List (Axis × Nat × Nat)) (p r : List (Nat × Nat)) (v : Nat × Nat),
    (l.flatMap fun q => [(q.1.t - q.1.ta, q.2.1), (q.1.tb - q.1.t, q.2.2)]) = p ++ v :: r →
    (∀ q ∈ p, v.1 < q.1) → (∀ q ∈ r, v.1 ≤ q.1) → nearestValue l = v.2) ∧
  ∀ (o : CovOut) (l : List (Axis × Nat × Nat)),
    let w := if o.tag = 0x40 then fp64 else fp32
    let lin (i : Nat) : Fp := linearValue w (l.map fun p => (p.1, covElem o p.2.1 i, covElem o p.2.2 i))
    let cont := tagCont o.tag
    (∀ f, o.tag ∈ ([0x10, 0x20, 0x30, 0x40, 0x50, 0x60] : List (BitVec 8)) → tagNum o.tag = .float f → ∀ i < o.pe,
      rawElem (fillRow o l) cont i = (convertFp w f .rne false false (lin i)).1 % 2 ^ cont) ∧
    (o.tag = 0xA0 ∨ o.tag = 0xB0 → ∀ i < o.pe, rawElem (fillRow o l) cont i =
      nearestValue (l.map fun p => (p.1, rawElem p.2.1 cont i, rawElem p.2.2 cont i)) % 2 ^ cont) ∧
    (tagScaled o.tag = true → tagValid o.tag.toNat = true → o.tag ≠ 0x83 → o.pe % 32 = 0 → ∀ b < o.pe / 32,
      let scale := chooseScale o.tag ((List.range 32).map fun n => quantSource true (lin (32 * b + n)))
      fillRow o l / 2 ^ (8 * o.dataBytes + 8 * b) % 256 = scale.getD 0xFF ∧
      ∀ n < 32, rawElem (fillRow o l) cont (32 * b + n) = match scale with
        | none => 0
        | some k => if (∀ j < 32, (lin (32 * b + j)).log2? = none ∧ (lin (32 * b + j)).isInf = false) then 0
          else (quantElem o.tag k .rne false true (lin (32 * b + n))).1 % 2 ^ cont)

/-! ## Failures and replay -/

namespace Sys2Proof.Machine

/-- Only one rung is under way, begun now: of the number given, over the partition; the blocks of the partition's launches
have ended, and at the partition rung its queues are disabled. No memory has changed, and no launch but for the slips of the
blocks that ended (R300, R341, R342). -/
structure RungBegun (s t : State) (n part : Nat) : Prop where
  one : ∃ r, t.rungs = [r] ∧ r.n = n ∧ r.part = part ∧ r.begun = true ∧ r.since = s.now 0
  blocks : ∀ b y l, getKey t.blocks b = some y → (y.launch, l) ∈ s.launches → l.part = part → y.status = .ended
  queues : n = 4 → ∀ k ∈ queuesOf s part, ∀ q, getKey t.queues k = some q → q.en = false
  memory : t.mem = s.mem ∧ t.launches.map (fun p => (p.1, { p.2 with slips := 0 })) = s.launches.map fun p => (p.1, { p.2 with slips := 0 })

/-- A block with a reason to be replayed: it has failed, or an agent of it has halted or its MP has stopped (R336). -/
def Fails (b : Block) : Prop :=
  b.status = .failed ∨ b.status = .running ∧ ∃ w : Fin 5, b.agents[w].run = .halted ∨ b.agents[w].run = .mpStopped

end Sys2Proof.Machine

/-- R176, R217, R248, R250, R251, R255, R277, R313, R334, R336, R343: failures. A core fault records FCODE and stops the block; a
block with a reason for a replay resumes from its record on another free core of its class, with the points it claimed
handed out again first, and the core that failed is out of service, in every partition that holds it; a sliced child's
block waits for its slice; an operator that fails a fourth time, and a cluster
fault, take the partition rung, the latter in every partition of the cluster; a tested core returns; corrected errors change no value; an uncorrectable error in memory
poisons its line and leaves its data; one in a block's timetable state ends its firings with STATE 3.
These clauses are the model's choice: which firings of Umber and which commands a replay drops, that a done value is not handed
out again as a point, and that a sliced child's block waits for its slice (notes/assumptions/35.md); the codes that the failure event
takes, what the errors count, and a DRAM error on any line below 0x8_0000_0000_0000 (notes/assumptions/32.md); and that a
replay waits until the new core's count has reached the old one's (notes/assumptions/56.md). -/
def Obligations.Failures : Prop :=
  ∀ (s : State) (id core pa g : Nat) (fcode : BitVec 8) (B : Block),
    (getKey s.blocks id = some B → (s.part B.part).active = false → exec (.operatorReplay id) s = .next s) ∧
    (getKey s.blocks id = some B → Fails B → (s.part B.part).active = true →
      let bad := B.faultCore.getD B.core
      (B.failures < 3 → chooseCore s (s.part B.part) (replayCores s B) = some core → reached (s.now core) (s.now B.core) = false →
        exec (.operatorReplay id) s = .next s) ∧
      (∀ R, B.failures < 3 → B.replay = some R → chooseCore s (s.part B.part) (replayCores s B) = some core → core ≠ B.core →
        reached (s.now core) (s.now B.core) = true → core ≠ bad ∧ (∀ f ∈ (s.core core).forwards, f.launch ≠ B.launch) ∧ isOchre core = isOchre B.core ∧ ∃ t, exec (.operatorReplay id) s = .next t ∧
          t.block id = { B with
            core := core
            slot := 0
            status := .running
            agents := R.agents
            ports := R.ports.set 0 { R.ports[0] with res := ((B.claimed.filter (· ≠ BitVec.allOnes 64)).map fun v => (v, false)) ++ B.ports[0].res }
            chans := (t.block id).chans
            mig := R.mig
            reloc := R.reloc
            ttF := R.ttF
            ttC := R.ttC
            tiles := R.tiles
            accs := []
            pad := R.pad
            savedTiles := []
            savedAccs := []
            savedVecs := []
            replaying := true
            failures := B.failures + 1
            claimed := []
            works := []
            faultCore := none
            migrating := none
            trigger := none
            migChecked := false } ∧
          (∀ n : Fin 5, n ≠ 4 → (t.block id).chans[n] = R.chans[n]) ∧
          (∀ y ∈ (t.block id).chans[4].xfers, ∃ x ∈ B.chans[4].xfers, y.id = x.id ∧
            x.desc.param2.toNat < R.ttF.getD x.desc.param.toNat 0 ∧ (x.st ≠ .faulted 3 → y = x) ∧ (x.st = .faulted 3 → y.st = .active)) ∧
          (t.core bad).out = true ∧ (t.core core).slots[0]? = some (some id) ∧
          ((s.core B.core).slots[B.slot % 4]? = some (some id) → (t.core B.core).slots[B.slot % 4]? = some none) ∧
          (∀ n p, getKey s.parts n = some p → t.part n = { p with
            offline := (p.cores.filter fun c => (s.core c).out || c == bad).length }) ∧
          (∀ m, m ∈ t.members ↔ m ∈ s.members ∧ ¬ (m.block = id ∧ m.remote = none ∧ m.started = false ∧ reached m.arrived R.tick = true)) ∧
          (∀ b, b ≠ id → t.block b = s.block b) ∧ t = { s with
            blocks := t.blocks
            cores := t.cores
            parts := t.parts
            members := t.members
            requests := t.requests }) ∧
      (3 ≤ B.failures → s.rungs = [] → natSetFrom 0 (s.blocks.map (·.1)) = true → natSetFrom 0 (s.launches.map (·.1)) = true →
        ∃ t, exec (.operatorReplay id) s = .next t ∧ RungBegun s t 4 B.part)) ∧
    (getKey s.blocks id = some B → ¬ Fails B → exec (.operatorReplay id) s = .next s) ∧
    (coreExists core = true → fcode = 1 ∨ fcode = 3 ∨ fcode = 4 → ∃ t, exec (.coreFault core fcode) s = .next t ∧
      t.core core = { s.core core with fcode := fcode } ∧ (∀ c, c ≠ core → t.core c = s.core c) ∧
      (s.runner core = none → fcode ≠ 4 ∨ comingTo s core = none → t.blocks = s.blocks) ∧
      (∀ b x, s.runner core = some (b, x) ∨ s.runner core = none ∧ fcode = 4 ∧ comingTo s core = some (b, x) → t.block b = { x with
          status := .failed
          faultCore := some core
          migrating := none
          trigger := none
          migChecked := false } ∧ ∀ k, k ≠ b → t.block k = s.block k) ∧
      (∀ b x, comingTo s core = some (b, x) → x.migrating = some core ∧ x.status = .running) ∧ t = { s with
        cores := t.cores
        blocks := t.blocks }) ∧
    (fcode ≠ 1 → fcode ≠ 3 → fcode ≠ 4 → exec (.coreFault core fcode) s = .next s) ∧
    ((s.core core).out = false → exec (.builtInTestPass core) s = .next s) ∧
    ((s.core core).out = true → ∃ t, exec (.builtInTestPass core) s = .next t ∧ t.core core = { s.core core with out := false } ∧
      (∀ c, c ≠ core → t.core c = s.core c) ∧
      (∀ n p, getKey s.parts n = some p → t.part n = { p with
        offline := (p.cores.filter fun c => (s.core c).out && c != core).length }) ∧ t = { s with
          cores := t.cores
          parts := t.parts }) ∧
    (coreExists core = true → ∃ t, exec (.correctedError core) s = .next t ∧
      t.core core = { s.core core with cecnt := if (s.core core).cecnt = 0xFFFF then 0xFFFF else (s.core core).cecnt + 1 } ∧
      (∀ c, c ≠ core → t.core c = s.core c) ∧ t = { s with
        cores := t.cores
        corrected := s.corrected + 1
        weldCounts := putKey s.weldCounts (clusterOf core) ((getKey s.weldCounts (clusterOf core)).getD 0 + 1) }) ∧
    (0x58_0000_0000 ≤ pa → exec (.scrub pa) s = .next s) ∧
    (pa < 0x58_0000_0000 → exec (.scrub pa) s = .next { s with
      corrected := s.corrected + 1
      weldCounts := putKey s.weldCounts (pa / 2 ^ 32) ((getKey s.weldCounts (pa / 2 ^ 32)).getD 0 + 1) }) ∧
    (pa < 0x8_0000_0000_0000 → natSetFrom 0 s.mem.poison = true → ∃ t, exec (.dramUncorrectable pa) s = .next t ∧
      (∀ a, t.mem.byte a = s.mem.byte a) ∧ (∀ q, t.mem.granule q = (s.mem.granule q || decide (q / 16 = pa / 64))) ∧
      (∀ x, x ∈ t.hostLines ↔ x ∈ s.hostLines ∧ x ≠ pa / 64) ∧ t = { s with
        mem := t.mem
        hostLines := t.hostLines }) ∧
    (0x8_0000_0000_0000 ≤ pa → exec (.dramUncorrectable pa) s = .next s) ∧
    (88 ≤ g → exec (.clusterFault g) s = .next s) ∧
    (g < 88 → (∃ t, exec (.clusterFault g) s = .next t ∧ g ∈ t.downClusters ∧ (∀ x ∈ s.downClusters, x ∈ t.downClusters) ∧
      (s.rungs = [] → ∀ p ∈ ownersOf s g, ∃ x ∈ t.rungs, x.n = 4 ∧ x.part = p ∧ x.begun = true)) ∧
      (ownersOf s g = [] → exec (.clusterFault g) s = .next { s with downClusters := natInsert s.downClusters g }) ∧
      (∀ p, ownersOf s g = [p] → s.rungs = [] → natSetFrom 0 (s.blocks.map (·.1)) = true → natSetFrom 0 (s.launches.map (·.1)) = true →
        ∃ t, exec (.clusterFault g) s = .next t ∧ RungBegun s t 4 p)) ∧
    (∀ p, p ∈ ownersOf s g ↔ ∃ x, (p, x) ∈ s.parts ∧ g ∈ x.clusters) ∧
    (getKey s.blocks id = some B → ∃ t, exec (.umberUncorrectable id) s = .next t ∧
      t.block id = { B with chans := B.chans.set 4 { B.chans[4] with xfers := B.chans[4].xfers.map fun y => { y with st := .faulted 3 } } } ∧
      (∀ b, b ≠ id → t.block b = s.block b) ∧ t = { s with blocks := t.blocks })

/-! ## The host and Madder -/

namespace Sys2Proof.Machine

/-- A packet that Madder may take: it is at work on the queue, SEQ has been read as N, the 256 bytes read are `p`, and
where BARRIER is set every earlier packet of the queue has completed; and the turn has come to its queue (R318, R319). -/
structure PacketAt (s : State) (fn : Nat) (q : Fin 4) (p : Nat) : Prop where
  work : s.dev.ready = true ∧ s.reloading = false ∧ (s.queue (queueKey fn q.val)).en = true
  matched : (s.queue (queueKey fn q.val)).matched = true
  bytes : readPacket s fn (s.queue (queueKey fn q.val)) 256 = some p
  barrier : Pkt.barrier p = true → queueClear s fn q.val = true
  turn : nextQueue s = some (queueKey fn q.val)

/-- The pages that Madder walks to before it acts on a packet: its slot's, those that the packet names, and those that its
completion writes. -/
def packetNeeds (s : State) (fn : Nat) (q : Fin 4) (p : Nat) : List Word :=
  slotPages (s.queue (queueKey fn q.val)) 256 ++
    (if Pkt.type p = 1 then loadPages s fn p else if Pkt.type p = 2 then launchPages s fn p else []) ++
    (Pkt.completion (partOf s fn) fn q.val p 0 0).pages

/-- The packet is taken: N and QDONE of its queue advance, and no other queue changes (R318). -/
structure Taken (s t : State) (fn : Nat) (q : Fin 4) : Prop where
  queue : let x := s.queue (queueKey fn q.val)
    (t.queue (queueKey fn q.val)).n = x.n + 1 ∧ (t.queue (queueKey fn q.val)).done = x.n + 1 ∧
      (t.queue (queueKey fn q.val)).matched = false ∧ (t.queue (queueKey fn q.val)).k = x.k
  others : ∀ k, k ≠ queueKey fn q.val → t.queue k = s.queue k

/-- A packet is taken and completes at once with a status (R323): nothing else changes but what its record and its signal
write. -/
structure Answered (s t : State) (fn : Nat) (q : Fin 4) (p status : Nat) : Prop where
  taken : Taken s t fn q
  record : ∃ c : Completion, c.status = status ∧ c.seq = (s.queue (queueKey fn q.val)).n ∧ c.statAddr = quad p 0x28 ∧
    c.sig = (fld p 5 1).testBit 0 ∧ c.sigAddr = quad p 0x18 ∧ c.sigVal = quad p 0x20 ∧ c.tend = s.now 0 ∧
    (c.statAddr = 0 → c.sig = false → t.mem = s.mem) ∧
    (∀ pa, c.statAddr = 0 → c.sig = true → packetPa s (s.part (partOf s fn)) c.sigAddr .store = some pa → pa % 8 = 0 →
      inSlotFrame s pa = false → remotePkg pa = none → s.mem.wf = true → t.mem.readLE pa 8 = c.sigVal.toNat ∧
        ∀ a, a < pa ∨ pa + 8 ≤ a → t.mem.byte a = s.mem.byte a) ∧
    (∀ pa, c.statAddr ≠ 0 → c.sig = false → packetPa s (s.part (partOf s fn)) c.statAddr .store = some pa → pa % 64 = 0 →
      inSlotFrame s pa = false → remotePkg pa = none → s.mem.wf = true → t.mem.readLE pa 64 = c.record ∧
        ∀ a, a < pa ∨ pa + 64 ≤ a → t.mem.byte a = s.mem.byte a)
  frame : t = { s with
    queues := t.queues
    mem := t.mem
    hostLines := t.hostLines
    engWalks := t.engWalks
    served := some (queueKey fn q.val) }

end Sys2Proof.Machine

/-- R246, R247, R249, R316 to R325, R332, R338, R342, R346, R347, R355 to R357, R364: the host's accesses and Madder's work. The host
reads and writes lines of memory once the package is ready, but for the frames of a slot, which its writes leave as they
are; QCTL, QKICK and the other registers of BAR0 act and read as their rules
say; Madder reads SEQ, again after 1 µs, and gives up after 1 ms; it serves the queues in turn; a packet that breaks R317 completes with status 4, a LOAD
of a slot in use with 2, of a bad image with 1; a LOAD copies its image to two frames for each page; a LAUNCH is checked
in the order of R320 and begins; an EVICT is taken at once, and completes
once its slot has loaded and the launches of it have retired; a reload holds completions and latches kicks. Madder walks to the
pages that its work needs first, an entry a step (R236).
These clauses are the model's choice: that the queues are served in rising order, when an image is copied, that a malformed LAUNCH
or LOAD completes with status 4 before residency is looked at, and what a record that cannot be read gives
(notes/assumptions/27.md); that BAR0 reads and writes act from phase 2 on, what reads as zero before READY, and bit 8 of
FRSTAT (notes/assumptions/26.md); and the order of a launch's first requests (notes/assumptions/58.md). -/
def Obligations.HostAndMadder : Prop :=
  ∀ (s : State) (pa fn off part slot : Nat) (q : Fin 4) (k v : Word) (data : List Byte) (enables : List Bool) (poison pf0 : Bool),
    let key := queueKey fn q.val
    let x := s.queue key
    let line := pa / 64 * 64
    let served := s.dev.ready = true ∧ line < 0x58_0000_0000 ∧ line / 2 ^ 32 ∉ s.downClusters
    (served → ∃ t bytes p, exec (.hostMemRead pa) s = .next t ∧ t.outbox = s.outbox ++ [.hostData line bytes p] ∧
      bytes.length = 64 ∧ (∀ i < 64, bytes[i]? = some (s.mem.byte (line + i))) ∧
      (p = true ↔ ∃ i < 16, s.mem.granule (line / 4 + i) = true) ∧ line / 64 ∈ t.hostLines ∧ t = { s with
        outbox := t.outbox
        hostLines := t.hostLines }) ∧
    (served → inSlotFrame s line = true → exec (.hostMemWrite pa data enables poison) s = .next s) ∧
    (served → inSlotFrame s line = false → data.length = 64 → enables.length = 64 → s.mem.wf = true → ∃ t, exec (.hostMemWrite pa data enables poison) s = .next t ∧
      (∀ i < 64, t.mem.byte (line + i) = if enables[i]? = some true then data.getD i 0 else s.mem.byte (line + i)) ∧
      (∀ i < 16, t.mem.granule (line / 4 + i) = if (∃ j < 4, enables[4 * i + j]? = some true) then poison else s.mem.granule (line / 4 + i)) ∧
      (∀ a, a < line ∨ line + 64 ≤ a → t.mem.byte a = s.mem.byte a ∧ t.mem.granule (a / 4) = s.mem.granule (a / 4)) ∧
      t = { s with mem := t.mem }) ∧
    (¬ served → exec (.hostMemRead pa) s = .next { s with outbox := s.outbox ++ [.unsupported line] } ∧
      exec (.hostMemWrite pa data enables poison) s = .next { s with outbox := s.outbox ++ [.unsupported line] }) ∧
    (let bar := s.dev.power = true ∧ 2 ≤ s.dev.phase.toNat
     fn ≤ 192 →
      (¬ bar → exec (.qctlWrite pf0 fn q v) s = .next s ∧ (off ≠ 0x800 → exec (.barRegWrite fn off v) s = .next s)) ∧
      (bar → ∃ t, exec (.qctlWrite pf0 fn q v) s = .next t ∧ (∀ j, j ≠ key → t.queue j = s.queue j) ∧
        (let y := t.queue key
         y.tenant = (if pf0 = true ∧ fn ≠ 0 then v.extractLsb' 16 8 else x.tenant) ∧
         (x.en = true → y.log2 = x.log2 ∧ y.loc = x.loc) ∧
         (x.en = false → y.loc = v.getLsbD 1 ∧ y.log2 = max 4 (v.extractLsb' 4 4).toNat) ∧
         y.en = (v.getLsbD 0 && s.dev.ready) ∧ y.base = x.base ∧
         (y.en = true → y.k = 0xFFFFFFFF ∧ y.n = 0 ∧ y.done = 0 ∧ y.errCode = 0 ∧ y.errSeq = 0)) ∧
        t = { s with
          queues := t.queues
          latched := dropKey s.latched key
          p1used := s.p1used || (v.getLsbD 0 && s.dev.ready && decide (partOf s fn = 1)) }) ∧
      (s.dev.ready = false ∨ x.en = false → exec (.qkick fn q k) s = .next s) ∧
      (s.dev.ready = true → x.en = true → let new := kicked x.k (k.setWidth 32)
        (1 ≤ ((k.setWidth 32) - x.k).toNat → ((k.setWidth 32) - x.k).toNat < 2 ^ 31 → new = k.setWidth 32) ∧
        (k.setWidth 32 = x.k ∨ 2 ^ 31 ≤ ((k.setWidth 32) - x.k).toNat → new = x.k) ∧
        (s.reloading = false → exec (.qkick fn q k) s = .next (s.setQueue key { x with k := new })) ∧
        (s.reloading = true → exec (.qkick fn q k) s = .next { s with
          latched := putKey s.latched key (kicked ((getKey s.latched key).getD x.k) (k.setWidth 32)) })) ∧
      (bar → off = 256 * q.val → exec (.barRegWrite fn off v) s = .next (if x.en then s else s.setQueue key { x with base := v &&& ~~~0xFF#64 })) ∧
      (bar → off = 256 * q.val + 8 → exec (.barRegWrite fn off v) s = exec (.qctlWrite false fn q v) s) ∧
      (bar → off = 256 * q.val + 16 → exec (.barRegWrite fn off v) s = exec (.qkick fn q v) s) ∧
      (let part := (v.extractLsb' 16 8).toNat
       let n := Fin.ofNat 4 (v.extractLsb' 8 2).toNat
       let asks (i : Instr) : Prop := exec (.barRegWrite fn 0x800 v) s = exec i s
       (v.extractLsb' 0 3 = 1 → asks (.fresetQueue fn part n)) ∧
       (v.extractLsb' 0 3 = 2 → asks (.fresetContext fn part (v.extractLsb' 32 32).toNat n)) ∧
       (v.extractLsb' 0 3 = 3 → asks (.fresetEngine fn part)) ∧ (v.extractLsb' 0 3 = 4 → asks (.fresetPartition fn part)) ∧
       (v.extractLsb' 0 3 = 5 → asks (.fresetDevice fn))) ∧
      (off % 8 ≠ 0 → exec (.barRegWrite fn off v) s = .next s) ∧
      (fn ≠ 0 → 0x400 ≤ off → off ≠ 0x800 → exec (.barRegWrite fn off v) s = .next s)) ∧
    (s.dev.power = true → 2 ≤ s.dev.phase.toNat → exec (.barRegWrite 0 0x3808 v) s = exec (.p1rootWrite v) s ∧ exec (.barRegWrite 0 0x3F00 v) s = exec (.fabidWrite v) s ∧
      (∀ n < 256, exec (.barRegWrite 0 (0x4000 + 8 * n) v) s = .next (if s.fabLock then s else
        { s with froutes := putKey s.froutes n (v.setWidth 32) })) ∧
      (1 ≤ fn → fn ≤ 192 → exec (.barRegWrite 0 (0x10000 + 0x400 * (fn - 1) + 0x100 * q.val) v) s = exec (.qctlWrite true fn q v) s) ∧
      exec (.barRegWrite 0 0x3800 v) s = .next s) ∧
    (takeInput (.barRead fn off) s = { s with outbox := s.outbox ++ [.barData fn off (barRead s fn off)] } ∧
      (s.dev.power = false ∨ s.dev.phase.toNat < 2 → barRead s fn off = 0) ∧
      (s.dev.power = true → 2 ≤ s.dev.phase.toNat →
        barRead s 0 0x3800 = s.dev.word ∧ (barRead s 0 0x3808).extractLsb' 12 40 = s.p1root ∧
        (s.dev.ready = false → ¬ (fn = 0 ∧ (off = 0x3800 ∨ off = 0x3808)) → barRead s fn off = 0) ∧
        (s.dev.ready = true → fn ≤ 192 →
          barRead s fn (256 * q.val) = x.base ∧ barRead s fn (256 * q.val + 8) = x.ctlWord ∧ barRead s fn (256 * q.val + 16) = 0 ∧
          barRead s fn (256 * q.val + 24) = x.done.setWidth 64 ∧ (barRead s fn (256 * q.val + 32)).extractLsb' 0 32 = x.errSeq ∧
          (barRead s fn (256 * q.val + 32)).extractLsb' 32 8 = x.errCode ∧
          (x.ctlWord.getLsbD 0 = x.en ∧ x.ctlWord.getLsbD 1 = x.loc) ∧ ((∀ r ∈ s.rungs, r.n ≤ 5) → ((barRead s fn 0x808).getLsbD 8 = true ↔ fn ∈ s.rungDone))))) ∧
    (natSetFrom 0 (s.queues.map (·.1)) = true → ∀ j, nextQueue s = some j →
      takeable s j = true ∧ (∀ i ∈ s.queues.map (·.1), takeable s i = true → s.served = none → j ≤ i) ∧
      ∀ c, s.served = some c → ∀ i ∈ s.queues.map (·.1), takeable s i = true →
        (c < i → c < j ∧ j ≤ i) ∧ (j ≤ c → j ≤ i ∧ i ≤ c)) ∧
    (let work := s.dev.ready = true ∧ s.reloading = false ∧ x.en = true ∧ ∀ r ∈ s.rungs, r.n < 5
     let here := slotPlace s fn x
     let P := s.part (partOf s fn)
     let seq (i : Instr) : Prop := WalksOn s P (slotPages x 4) i ∧ (Walked s P (slotPages x 4) → ∃ t, exec i s = .next t ∧ (∀ j, j ≠ key → t.queue j = s.queue j) ∧
       (∀ a, here = some a → s.mem.readLE a 4 = x.n.toNat → t.queue key = { x with
         matched := true
         since := none }) ∧
       (here = none ∨ (∃ a, here = some a ∧ s.mem.readLE a 4 ≠ x.n.toNat) → t.queue key = { x with since := some (x.since.getD (s.now 0)) }) ∧
       t = { s with
         queues := t.queues
         hostLines := t.hostLines
         engWalks := t.engWalks })
     (work → (x.k - x.n).toNat < 2 ^ 31 → x.matched = false → x.since = none → seq (.seqRead fn q)) ∧
     (2 ^ 31 ≤ (x.k - x.n).toNat ∨ ¬ work → exec (.seqRead fn q) s = .next s) ∧
     (∀ e, work → x.matched = false → x.since = some e →
       (1000 ≤ (s.now 0 - e).toNat → seq (.seqReread fn q)) ∧
       ((s.now 0 - e).toNat < 1000 → exec (.seqReread fn q) s = .next s) ∧
       ((s.now 0 - e).toNat < 1000000 → exec (.seqTimeout fn q) s = .next s) ∧
       (1000000 ≤ (s.now 0 - e).toNat → s.rungs = [] → (getKey s.queues key).isSome = true → ∃ t r, exec (.seqTimeout fn q) s = .next t ∧
         (t.queue key).errCode = 5 ∧ (t.queue key).errSeq = x.n ∧ (t.queue key).en = false ∧ t.rungs = [r] ∧ r.n = 1 ∧ r.fn = fn ∧
         r.q = q.val ∧ r.part = partOf s fn ∧ t.mem = s.mem))) ∧
    (∀ p, PacketAt s fn q p →
      let y := p / 2 ^ 32 * 2 ^ 32 + x.n.toNat
      let sl := slotOf s fn y
      let P := s.part (partOf s fn)
      let answers (i : Instr) (n : Nat) : Prop := ∃ t, exec i s = .next t ∧ Answered s t fn q y n
      (∀ i, i = (if Pkt.type p = 1 then .loadPacket fn q else if Pkt.type p = 2 then .launchPacket fn q
        else if Pkt.type p = 3 then .evictPacket fn q else .nopPacket fn q) → WalksOn s P (packetNeeds s fn q y) i) ∧
      (Walked s P (packetNeeds s fn q y) →
      (Pkt.type p = 0 → Pkt.nopOk y = true → answers (.nopPacket fn q) 0) ∧
      (Pkt.type p = 0 ∧ Pkt.nopOk y = false ∨ 3 < Pkt.type p → answers (.nopPacket fn q) 4) ∧
      (Pkt.type p = 1 →
        (Pkt.loadOk y = false → answers (.loadPacket fn q) 4) ∧
        (Pkt.loadOk y = true → sl.isSome = true → answers (.loadPacket fn q) 2) ∧
        (Pkt.loadOk y = true → sl = none → loadImage s P (quad y 0x38) = none → answers (.loadPacket fn q) 1) ∧
        (∀ m, Pkt.loadOk y = true → sl = none → loadImage s P (quad y 0x38) = some m →
          ∃ t z, exec (.loadPacket fn q) s = .next t ∧ Taken s t fn q ∧ getKey (t.part (partOf s fn)).slots (Pkt.slot y) = some z ∧
            z.st = .loading ∧ z.image = m ∧ z.maps = [] ∧ z.size = imageNum m 0 8 ∧ z.nbuf = imageNum m 8 1 ∧ z.lnum = 0 ∧ z.fracs = [] ∧
            z.owners.length = 1 ∧ z.evicts = [] ∧ (∀ f ∈ z.frames, f.1 ∉ slotFrames s ∧ f.2 ∉ slotFrames s ∧ f.1 ≠ f.2) ∧
            (s.mem.wf = true →
              (∀ (i : Nat) f, z.frames[i]? = some f → ∀ k < 4096, t.mem.byte (f.1 + k) = m.read (4096 * i + k) ∧
                t.mem.byte (f.2 + k) = m.read (4096 * i + k)) ∧
              ∀ a, (∀ f ∈ z.frames, f.1 ≠ a / 4096 * 4096 ∧ f.2 ≠ a / 4096 * 4096) → t.mem.byte a = s.mem.byte a))) ∧
      (Pkt.type p = 2 → launchHeld s fn q.val = false ∧
        (Pkt.launchOk y = false → answers (.launchPacket fn q) 4) ∧
        (Pkt.launchOk y = true → sl.all (fun z => decide (z.st ≠ .resident)) = true → answers (.launchPacket fn q) 2) ∧
        (∀ z, Pkt.launchOk y = true → sl = some z → z.st = .resident →
          let named := fld y 7 1 = z.nbuf ∧ (z.buckets = true → z.nbuf ≤ 15)
          let mapped := ∀ n < z.nbuf, let b := quad y (0x80 + 8 * n)
            let va := b &&& ~~~(1#64 <<< 63)
            (b.getLsbD 63 = false ∧ inHostWindow s P b.toNat = true) ∨ (b.getLsbD 63 = true ∧ canonical va = true ∧ inWindow va = false ∧
              ∃ e, (s.engWalks.find? (·.serves P va)).bind (·.found) = some (.leaf e) ∧
                let pa := e.frame * 4096 + va.toNat % (e.pages * 4096)
                paAllowed s P pa = true ∧ pa < 0x8_0000_0000_0000)
          (¬ named → answers (.launchPacket fn q) 4) ∧ (named → ¬ mapped → answers (.launchPacket fn q) 3) ∧
          (named → mapped → launchBucket z y = none → answers (.launchPacket fn q) 1) ∧
          (∀ b, named → mapped → launchBucket z y = some b →
            (launchStages s P z y b = none → answers (.launchPacket fn q) 1) ∧
            (∀ stages u, launchStages s P z y b = some stages → copySections P z.image stages s = (u, true) →
              ∃ t l, exec (.launchPacket fn q) s = .next t ∧ Taken s t fn q ∧ t.launch? s.nextLaunch = some l ∧
                l = launchOf u fn q y z stages b ∧ l.fn = fn ∧ l.q = q.val ∧ l.seq = x.n ∧ l.lnum = z.lnum ∧ l.tenant = x.tenant ∧
                l.isa = P.isa ∧ l.covctl = P.covctl ∧ l.stages.length = stages.length ∧
                t.nextLaunch = s.nextLaunch + 1 ∧ t.launched = true ∧ t.mem = u.mem ∧
                getKey (t.part (partOf s fn)).slots (Pkt.slot y) = some { z with
                  lnum := z.lnum + 1
                  maps := stages.foldl addMap z.maps } ∧
                ∃ made : Nat → Nat, (∀ n, ∀ r ∈ s.requests, r.made < made n) ∧ (∀ n, ∀ b ∈ s.blocks, b.2.suspended < made n) ∧
                  t.requests = s.requests ++ stages.zipIdx.flatMap fun e => List.replicate (firstRequests u P e.1)
                    ⟨partOf s fn, s.nextLaunch, e.2, e.1.prio, none, made e.2⟩)))) ∧
      (Pkt.type p = 3 →
        (Pkt.evictOk y = false → answers (.evictPacket fn q) 4) ∧
        (Pkt.evictOk y = true → sl = none → answers (.evictPacket fn q) 2) ∧
        (∀ z, Pkt.evictOk y = true → sl = some z → z.st ≠ .loading → ∃ t c, exec (.evictPacket fn q) s = .next t ∧ Taken s t fn q ∧
          getKey (t.part (partOf s fn)).slots (Pkt.slot y) = some { z with
            st := .evicting
            owners := z.owners ++ [c] } ∧ c.status = 0 ∧ c.seq = x.n ∧ t.mem = s.mem) ∧
        (∀ z, Pkt.evictOk y = true → sl = some z → z.st = .loading → ∃ t c, exec (.evictPacket fn q) s = .next t ∧ Taken s t fn q ∧
          getKey (t.part (partOf s fn)).slots (Pkt.slot y) = some { z with evicts := z.evicts ++ [c] } ∧ c.status = 0 ∧
          c.seq = x.n ∧ t.mem = s.mem)))) ∧
    (∀ z, getKey (s.part part).slots slot = some z → s.reloading = false →
      (z.st = .loading → WalksAll s (signalPages s z.owners) (.loadComplete part slot)) ∧
      (z.st = .loading → WalkedAll s (signalPages s z.owners) → ∃ t, exec (.loadComplete part slot) s = .next t ∧ getKey (t.part part).slots slot = some { z with
          st := if z.evicts = [] then .resident else .evicting
          owners := z.evicts
          evicts := [] } ∧ (z.owners.all (fun c => decide (c.statAddr = 0) && !c.sig) = true → t.mem = s.mem)) ∧
      (z.st = .evicting → (∀ l ∈ s.launches, ¬ (l.2.part = part ∧ l.2.slot = slot)) →
        WalksAll s (signalPages s z.owners) (.evictComplete part slot)) ∧
      (z.st = .evicting → (∀ l ∈ s.launches, ¬ (l.2.part = part ∧ l.2.slot = slot)) → WalkedAll s (signalPages s z.owners) → ∃ t, exec (.evictComplete part slot) s = .next t ∧
        getKey (t.part part).slots slot = none ∧ (∀ n, n ≠ slot → getKey (t.part part).slots n = getKey (s.part part).slots n) ∧
        (z.owners.all (fun c => decide (c.statAddr = 0) && !c.sig) = true → t.mem = s.mem)) ∧
      (z.st ≠ .loading → exec (.loadComplete part slot) s = .next s) ∧
      (z.st ≠ .evicting ∨ (∃ l ∈ s.launches, l.2.part = part ∧ l.2.slot = slot) → exec (.evictComplete part slot) s = .next s)) ∧
    exec .madderReload s = .next { s with reloading := s.dev.ready } ∧
    (s.reloading = false → exec .madderReloadEnd s = .next s) ∧
    (let held := signalPages { s with reloading := false } s.completions
     s.reloading = true → WalksAll s held .madderReloadEnd ∧ (WalkedAll s held → ∃ t, exec .madderReloadEnd s = .next t ∧ t.completions = [] ∧ t.latched = [] ∧
      (s.completions = [] → s.queues = [] → t.reloading = false ∧ t.mem = s.mem)))

/-! ## Partitions and the reset ladder -/

namespace Sys2Proof.Machine

/-- The event of a command code (R340). -/
def commandEvent (op : Nat) : Instr :=
  match op with
  | 2 => .pcDestroy
  | 3 => .pcSetquota
  | 4 => .pcMapvf
  | 5 => .pcSettable
  | 6 => .pcReset
  | 7 => .pcSetisa
  | _ => .pcCreate

/-- The pages that the controller walks to before it acts on a command: the command's own, and where it passes the checks those of
the handle table and the capability blocks that its code reads or writes. -/
def commandNeeds (s : State) (c : Pcmd) (x op : Nat) : List (Partition × Word) :=
  ((pagesOf c.va 0xF0).map fun va => (s.part c.part, va)) ++
    if (checkCommand s c x).isSome then []
    else if op = 1 then createPages s x
    else if op = 5 then settablePages s x
    else if op = 7 then capPages { s.part (Cmd.target x) with isa := Cmd.isa x }
    else []

/-- The controller's next command has passed the checks of R339 but that of its resources. -/
structure Passes (s : State) (c : Pcmd) (rest : List Pcmd) (x op : Nat) : Prop where
  next : s.pcmds = c :: rest
  free : controllerBusy s = false
  bytes : readCommand s c = some x
  code : Cmd.op x = op
  checks : checkCommand s c x = none
  walks : op = 5 → walksOpen s (Cmd.target x) = false
  walked : WalkedAll s (commandNeeds s c x op)

/-- A command has failed a check with the status `k`: nothing changes but its REPORT (R339). -/
def Refuses (s : State) (i : Instr) (c : Pcmd) (rest : List Pcmd) (k : Nat) : Prop :=
  ∃ t, exec i s = .next t ∧ t = { writeReport { s with pcmds := rest } c k with
    hostLines := t.hostLines
    engWalks := t.engWalks }

/-- A command has taken effect: it is no longer pending, its nonce is recorded, and of the rest of the state only what is
named changes, and memory (R338, R339). -/
def Effect (s t : State) (rest : List Pcmd) (x : Nat) (P : State → State) : Prop :=
  t = { P s with
    pcmds := rest
    nonce := some (Cmd.nonce x)
    mem := t.mem
    hostLines := t.hostLines
    engWalks := t.engWalks }

end Sys2Proof.Machine

/-- R118, R293, R326 to R332, R338 to R340, R346, R355, R357: the partition controller, a partition's capability block with its
header and its eight records, and the locks of PF0. A command is checked in
the order of R339, and one that fails a check changes nothing but its REPORT; each code has the effect of R340, its REPORT
0 at the end; SETQUOTA's takes effect after 10 µs or with the next round, and no command is taken before that, nor while a
DESTROY's rung runs; SETTABLE waits for the walks and the accesses in progress. The controller walks to the pages that its work
needs, an entry a step (R236). The registers that a lock protects keep their value once it is set.
These clauses are the model's choice: that a command fails the signature where no key is locked, that a handle-table header that
breaks a limit gives STATUS 3, and that CREATE's ancestor is its PARENT (notes/assumptions/24.md); that the controller takes
nothing while a SETQUOTA or a DESTROY is outstanding, and what SETTABLE waits for (notes/assumptions/25.md); and that a write
of P1ROOT has partition 1's capability block written again (notes/assumptions/59.md). -/
def Obligations.PartitionCommands : Prop :=
  ∀ (s : State) (c : Pcmd) (rest : List Pcmd) (x op part : Nat) (win : Fin 16) (keyBytes : List Byte) (v : Word),
    let n := Cmd.target x
    let p := s.part n
    (∀ pa k, k < 256 → engTr s (s.part c.part) (c.va + 0xE8) .store = .ok (.phys pa) → pa % 4 = 0 → inSlotFrame s pa = false →
      remotePkg pa = none →
      s.mem.wf = true → (writeReport s c k).mem.readLE pa 8 = k ∧
        ∀ a, a < pa ∨ pa + 8 ≤ a → (writeReport s c k).mem.byte a = s.mem.byte a) ∧
    (let signed := s.hypLock = true ∧ Config.sigVerifies s.hypKey (toBytes (fld x 0 0xA8) 0xA8) (toBytes (fld x 0xA8 64) 64) = true
     let fresh := ∀ k, s.nonce = some k → k.toNat < (quad x 8).toNat
     let related := c.part = 1 ∨ (if fld x 0 1 = 1 then fld x 2 1 = c.part else (s.part (fld x 1 1)).parent = c.part)
     (¬ signed → checkCommand s c x = some 1) ∧ (signed → ¬ fresh → checkCommand s c x = some 2) ∧
     (signed → fresh → fieldsOk s x = false → checkCommand s c x = some 3) ∧
     (signed → fresh → fieldsOk s x = true → ¬ related → checkCommand s c x = some 5) ∧
     (signed → fresh → fieldsOk s x = true → related → checkCommand s c x = none)) ∧
    (∀ k, s.pcmds = c :: rest → controllerBusy s = false → readCommand s c = some x → Cmd.op x = op → 1 ≤ op → op ≤ 7 →
      (op = 5 → walksOpen s n = false) → WalksAll s (commandNeeds s c x op) (commandEvent op) ∧
      (checkCommand s c x = some k → WalkedAll s (commandNeeds s c x op) → Refuses s (commandEvent op) c rest k)) ∧
    (s.pcmds = c :: rest → readCommand s c = some x → walksOpen s n = true → exec .pcSettable s = .next s) ∧
    (s.pcmds = [] ∨ controllerBusy s = true → op ≠ 3 ∨ quotaDue s = none → exec (commandEvent op) s = .next s) ∧
    (controllerBusy s = true ↔ (∃ r ∈ s.rungs, r.report.isSome = true) ∨ ∃ e ∈ s.parts, e.2.quota.isSome = true) ∧
    (Passes s c rest x 1 →
      (createFree s x = false → Refuses s .pcCreate c rest 4) ∧
      (createFree s x = true → withTable s (newPartition s x) (Cmd.ttbase x) (Cmd.htbl x) = none → Refuses s .pcCreate c rest 3) ∧
      (∀ q, createFree s x = true → withTable s (newPartition s x) (Cmd.ttbase x) (Cmd.htbl x) = some q →
        ∃ t, exec .pcCreate s = .next t ∧ t.part n = { q with sliceEnd := (t.part n).sliceEnd } ∧
          (q.id = n ∧ q.level = (if Cmd.parent x = 0 then 1 else 2) ∧ q.parent = Cmd.parent x ∧ q.sliced = Cmd.sliced x ∧
            q.clusters = Cmd.clusters x ∧ q.ranges = Cmd.rangeSet x ∧ q.isa = Cmd.isa x ∧ q.priv = Cmd.priv x ∧
            q.chrate = Cmd.chrate x ∧ q.links = Cmd.links x ∧ q.linkrate = Cmd.linkrate x ∧ q.tweight = Cmd.tweight x ∧
            q.ttroot = (Cmd.ttbase x).extractLsb' 12 40 ∧ q.slots = [] ∧ q.covctl = 0x00FF0000 ∧
            q.windows = (getKey s.keptWindows n).getD Partition.reset.windows) ∧
          (Cmd.joins s x = false → ∀ g, g ∈ (t.part (Cmd.giver x)).clusters ↔
            g ∈ (s.part (Cmd.giver x)).clusters ∧ g ∉ Cmd.clusters x) ∧
          (∀ m, m ≠ n → m ≠ Cmd.giver x → t.part m = s.part m) ∧
          Effect s t rest x fun s => { s with
            parts := t.parts
            cores := t.cores
            blocks := t.blocks
            keptWindows := dropKey s.keptWindows n })) ∧
    (Passes s c rest x 2 →
      let idle := n ≠ 1 ∧ (getKey s.parts n).isSome = true ∧ childrenOf s n = [] ∧ ∀ f ∈ s.vfmap, f.2 ≠ n
      (¬ idle → Refuses s .pcDestroy c rest 4) ∧
      (idle → s.rungs = [] → natSetFrom 0 (s.blocks.map (·.1)) = true → natSetFrom 0 (s.launches.map (·.1)) = true → ∃ t, exec .pcDestroy s = .next t ∧ RungBegun s t 4 n ∧
        t.nonce = some (Cmd.nonce x) ∧ t.pcmds = rest ∧ t.parts = s.parts ∧ ∀ r ∈ t.rungs, r.report = some c)) ∧
    (Passes s c rest x 3 → ∀ q, cmdTarget s x = some q →
      (quotaFits s x q = false → Refuses s .pcSetquota c rest 4) ∧
      (quotaFits s x q = true → ∃ t, exec .pcSetquota s = .next t ∧
        t = { s.setPart n { q with quota := some ⟨Cmd.tweight x, Cmd.chrate x, Cmd.links x, Cmd.linkrate x,
              if q.sliced = true then none else some (s.now 0 + 10000), (c.part, c.va)⟩ } with
          pcmds := rest
          nonce := some (Cmd.nonce x)
          hostLines := t.hostLines
          engWalks := t.engWalks })) ∧
    (∀ m q z, quotaDue s = some (m, q, z) → (m, q) ∈ s.parts ∧ q.quota = some z ∧ (∃ e, z.due = some e ∧ reached (s.now 0) e = true) ∧
      WalksAll s (quotaPages s q z) .pcSetquota ∧ (WalkedAll s (quotaPages s q z) → ∃ t, exec .pcSetquota s = .next t ∧ t.part m = { q with
          tweight := z.tweight
          chrate := z.chrate
          links := z.links
          linkrate := z.linkrate
          quota := none } ∧ (∀ k, k ≠ m → t.part k = s.part k) ∧ t = { s with
        parts := t.parts
        mem := t.mem
        hostLines := t.hostLines
        engWalks := t.engWalks })) ∧
    (∀ q z, p.quota = some q → q.due = none → p.nextRound z = { p with
      tweight := q.tweight
      chrate := q.chrate
      links := q.links
      linkrate := q.linkrate
      quota := some { q with due := some z } }) ∧
    (Passes s c rest x 4 →
      let idle := ∀ f ∈ Cmd.vfs x, ∀ q < 4, (s.queue (4 * f + q)).en = false
      (cmdTarget s x = none ∨ ¬ idle → Refuses s .pcMapvf c rest 4) ∧
      (cmdTarget s x ≠ none → idle → ∃ t, exec .pcMapvf s = .next t ∧
        (∀ f, getKey t.vfmap f = if f ∈ Cmd.vfs x then some n else getKey s.vfmap f) ∧
        Effect s t rest x fun s => { s with vfmap := t.vfmap })) ∧
    (Passes s c rest x 5 → ∀ q, cmdTarget s x = some q →
      (withTable s q (Cmd.ttbase x) (Cmd.htbl x) = none → Refuses s .pcSettable c rest 3) ∧
      (∀ q', withTable s q (Cmd.ttbase x) (Cmd.htbl x) = some q' → ∃ t, exec .pcSettable s = .next t ∧ t.part n = q' ∧
        q' = { q with
          ttroot := (Cmd.ttbase x).extractLsb' 12 40
          table := q'.table } ∧ (Cmd.htbl x = 0 → q'.table = none) ∧ (∀ m, m ≠ n → t.part m = s.part m) ∧
        (∀ k ∈ q.cores, ∀ e ∈ (t.core k).tlb, e.part ≠ n) ∧ (∀ k, (t.core k).leases = (s.core k).leases) ∧
        (∀ k ∈ t.engWalks, k.part ≠ n) ∧
        Effect s t rest x fun s => { s with
          parts := t.parts
          cores := t.cores })) ∧
    (Passes s c rest x 6 →
      (cmdTarget s x = none → Refuses s .pcReset c rest 4) ∧
      (cmdTarget s x ≠ none → 3 ≤ Cmd.rung x → Cmd.rung x ≤ 4 → s.rungs = [] → natSetFrom 0 (s.blocks.map (·.1)) = true →
        natSetFrom 0 (s.launches.map (·.1)) = true →
        ∃ t u, RungBegun s u (Cmd.rung x) n ∧ u.pcmds = rest ∧ u.nonce = some (Cmd.nonce x) ∧
          exec .pcReset s = .next t ∧ t = { writeReport u c 0 with engWalks := t.engWalks })) ∧
    (Passes s c rest x 7 → ∀ q, cmdTarget s x = some q →
      let within := Cmd.isa x &&& ~~~(s.part (if q.parent = 0 then 1 else q.parent)).isa = 0 ∧
        ∀ k ∈ childrenOf s n, k.2.isa &&& ~~~Cmd.isa x = 0
      (¬ within → Refuses s .pcSetisa c rest 4) ∧
      (within → ∃ t, exec .pcSetisa s = .next t ∧ Effect s t rest x fun s => s.setPart n { q with isa := Cmd.isa x })) ∧
    (∀ q, getKey s.parts part = some q →
      exec (.windowLock part win) s = .next (s.setPart part { q with windows := q.windows.set win { q.windows[win] with lock := true } }) ∧
      ∀ w word, q.windows[win].lock = true → word < 2 → (q.windows[win].put word w) = q.windows[win]) ∧
    (s.hypLock = true → exec (.hypkeyLock keyBytes) s = .next s) ∧
    (s.hypLock = false → exec (.hypkeyLock keyBytes) s = .next { s with
      hypKey := keyBytes
      hypLock := true }) ∧
    (let bar := s.dev.power = true ∧ 2 ≤ s.dev.phase.toNat
     (¬ bar → exec (.p1rootWrite v) s = .next s ∧ exec (.fabidWrite v) s = .next s) ∧
     (s.p1used = true → exec (.p1rootWrite v) s = .next s) ∧
     (bar → s.p1used = false → getKey s.parts 1 = none → exec (.p1rootWrite v) s = .next { s with p1root := v.extractLsb' 12 40 }) ∧
     (bar → s.p1used = false → (getKey s.parts 1).isSome = true → ∃ t, exec (.p1rootWrite v) s = .next t ∧ t.p1root = v.extractLsb' 12 40 ∧
      t.part 1 = { s.part 1 with ttroot := v.extractLsb' 12 40 } ∧ (∀ k ∈ (s.part 1).cores, ∀ e ∈ (t.core k).tlb, e.part ≠ 1) ∧
      t = { s with
        p1root := t.p1root
        parts := t.parts
        cores := t.cores
        engWalks := s.engWalks.filter fun k => decide (k.part ≠ 1)
        capDue := [1] }) ∧
     (s.fabLock = true → exec (.fabidWrite v) s = .next s) ∧
     (bar → s.fabLock = false → exec (.fabidWrite v) s = .next { s with
      fabid := v.extractLsb' 0 8
      fabLock := v.getLsbD 8 })) ∧
    (∀ m r, s.capDue = m :: r →
      (∀ y, (capPages (s.part m)).find? (fun y => engTr s y.1 y.2 .load == .miss) = some y → takeInput .capBlock s = engStep s y.1 y.2) ∧
      (WalkedAll s (capPages (s.part m)) → ∃ t, takeInput .capBlock s = t ∧ t = { writeCap { s with capDue := r } m with
        engWalks := t.engWalks })) ∧
    ∀ q : Partition,
      let m := capBlock q
      let f (at_ n : Nat) : Nat := ((List.range n).map fun i => ((m.drop at_).getD i 0).toNat * 256 ^ i).sum
      let record (at_ type len : Nat) : Prop := f at_ 2 = type ∧ f (at_ + 2) 2 = len % 2 ^ 16
      let r := 16 * q.ranges.length
      let e := r + 8 * Config.errata.length
      let indigo := (q.clusters.filter fun g => decide (g < 72)).length
      f 0 4 = 0x3838424E ∧ f 4 2 = 1 ∧ f 6 2 = 8 ∧ f 8 4 = m.length % 2 ^ 32 ∧ f 12 1 = q.id % 256 ∧ f 13 3 = 0 ∧ m.length = e + 184 ∧
      record 16 1 16 ∧ f 20 2 = 8 * indigo % 2 ^ 16 ∧ f 22 2 = 8 * (q.clusters.length - indigo) % 2 ^ 16 ∧
      (∀ g < 96, (f 24 12).testBit g = decide (g ∈ q.clusters)) ∧
      record 40 2 8 ∧ f 44 8 = q.isa.toNat ∧
      record 56 3 (8 + r) ∧ f 60 8 = q.ranges.length % 2 ^ 64 ∧
      (∀ i y, q.ranges[i]? = some y → f (68 + 16 * i) 8 = y.1 % 2 ^ 64 ∧ f (76 + 16 * i) 8 = y.2 % 2 ^ 64) ∧
      record (r + 72) 4 4 ∧ f (r + 76) 2 = q.links.toNat ∧ f (r + 78) 2 = q.linkrate % 2 ^ 16 ∧
      record (r + 80) 5 8 ∧ f (r + 84) 1 = q.tweight % 2 ^ 8 ∧ f (r + 85) 1 = 0 ∧ f (r + 86) 2 = q.chrate % 2 ^ 16 ∧
      f (r + 88) 4 = (if q.sliced then 8000 else 0) ∧
      record (r + 96) 6 (8 * Config.errata.length) ∧
      (∀ i y, Config.errata[i]? = some y → f (r + 100 + 8 * i) 4 = y.1.toNat ∧ f (r + 104 + 8 * i) 4 = y.2.toNat) ∧
      record (e + 104) 7 1 ∧ f (e + 108) 1 = q.priv.toNat ∧ record (e + 112) 0xFF 64 ∧
      (m.drop (e + 116)).take 64 = (Config.attestation (m.take (e + 112))).toList

/-- R323, R327, R339, R341, R342, R354, R356: the reset ladder. A permitted request begins its rung, which stops the blocks of its
scope at once; a request that is not permitted is ignored; a rung whose copies have drained completes, and the launches it
abandons complete with status 6, a partition that was destroyed leaves with its host windows kept, and its clusters serve
again; one that has not completed within its limit starts the next rung over the scope that
contains its own, with a request that waits for it; the device rung starts bring-up again, once the completions that it signals have been walked to.
These clauses are the model's choice: that PF0's queue request names that queue of every function of the partition, and that a late
queue rung becomes the contexts of its launches, or the engine rung where there is none (notes/assumptions/33.md); and that
the device rung waits for the walks of completions (notes/assumptions/29.md). -/
def Obligations.ResetLadder : Prop :=
  ∀ (s : State) (fn part seq n : Nat) (q : Fin 4) (r : Rung),
    let sorted := natSetFrom 0 (s.blocks.map (·.1)) = true ∧ natSetFrom 0 (s.launches.map (·.1)) = true
    let same (t : State) : Prop := t.mem = s.mem ∧
      t.launches.map (fun p => (p.1, { p.2 with slips := 0 })) = s.launches.map fun p => (p.1, { p.2 with slips := 0 })
    let named := if fn = 0 then part else partOf s fn
    let permitted := s.dev.ready = true ∧ fn ≤ 192 ∧ (fn = 0 → (getKey s.parts part).isSome = true)
    let again (t : State) (cause : BitVec 8) : Prop :=
      t.dev = { Device.reset with cause := cause } ∧ t.parts = [] ∧ t.blocks = [] ∧ t.cores = [] ∧ t.launches = [] ∧ t.queues = [] ∧
      t.rungs = [] ∧ t.vfmap = [] ∧ t.hypLock = false ∧ t.fabLock = false ∧ (s.launches = [] → s.completions = [] → t.mem = s.mem)
    (¬ permitted → exec (.fresetQueue fn part q) s = .next s ∧ exec (.fresetContext fn part seq q) s = .next s ∧
      exec (.fresetEngine fn part) s = .next s ∧ exec (.fresetPartition fn part) s = .next s) ∧
    (fn ≠ 0 → exec (.fresetEngine fn part) s = .next s ∧ exec (.fresetPartition fn part) s = .next s ∧
      exec (.fresetDevice fn) s = .next s) ∧
    (permitted → s.rungs = [] → sorted →
      (fn ≠ 0 → ∃ t x, exec (.fresetQueue fn part q) s = .next t ∧ t.rungs = [x] ∧ x.n = 1 ∧ x.fn = fn ∧ x.q = q.val ∧
        x.part = partOf s fn ∧ x.begun = true ∧ x.since = s.now 0 ∧ x.by_ = [fn] ∧ (t.queue (4 * fn + q.val)).en = false ∧
        (∀ k, k ≠ 4 * fn + q.val → t.queue k = s.queue k) ∧ same t ∧ (natSetFrom 0 s.rungDone = true → fn ∉ t.rungDone) ∧
        ∀ b y l, getKey t.blocks b = some y → (y.launch, l) ∈ s.launches → l.fn = fn → l.q = q.val → y.status = .ended) ∧
      (fn = 0 → ∃ t, exec (.fresetQueue fn part q) s = .next t ∧ same t ∧
        ∀ k ∈ queuesOf s part, k % 4 = q.val → (t.queue k).en = false) ∧
      (∀ lid l, (s.launches.filter fun y => y.2.part == named && y.2.q == q.val && y.2.seq.toNat == seq % 2 ^ 32 &&
          (fn == 0 || y.2.fn == fn)) = [(lid, l)] → ∃ t x, exec (.fresetContext fn part seq q) s = .next t ∧ t.rungs = [x] ∧
        x.n = 2 ∧ x.launch = some lid ∧ x.begun = true ∧ x.since = s.now 0 ∧ x.by_ = [fn] ∧ t.queues = s.queues ∧ t.mem = s.mem ∧
        ∀ b y, getKey t.blocks b = some y → y.launch = lid → y.status = .ended) ∧
      (fn = 0 → (∃ t, exec (.fresetEngine fn part) s = .next t ∧ RungBegun s t 3 part ∧ t.queues = s.queues) ∧
        ∃ t, exec (.fresetPartition fn part) s = .next t ∧ RungBegun s t 4 part)) ∧
    (let heard := s.dev.power = true ∧ (2 ≤ s.dev.phase.toNat ∨ s.dev.stuck = true)
     (¬ heard → exec (.fresetDevice 0) s = .next s) ∧
     (heard → WalkedAll s (resetPages s) → ∃ t, exec (.fresetDevice 0) s = .next t ∧ again t 1) ∧
     (heard → ¬ WalkedAll s (resetPages s) → s.rungs = [] → sorted → (∀ b ∈ s.blocks, (s.launch? b.2.launch).isSome = true) →
       ∃ t x, exec (.fresetDevice 0) s = .next t ∧ t.rungs = [x] ∧ x.n = 5 ∧ x.begun = true ∧ x.cause = 1 ∧ same t ∧
         ∀ b ∈ t.blocks, b.2.status = .ended)) ∧
    (s.rungs[n]? = some r → 5 ≤ r.n → WalksAll s (resetPages s) (.rungComplete n) ∧
      (WalkedAll s (resetPages s) → ∃ t, exec (.rungComplete n) s = .next t ∧ again t r.cause)) ∧
    (s.rungs[n]? = some r → r.n < 5 → r.begun = false ∨ rungDrained s r = false → exec (.rungComplete n) s = .next s) ∧
    (s.rungs = [r] → r.n < 5 → r.begun = true → rungDrained s r = true → WalksAll s (rungPages s r) (.rungComplete 0)) ∧
    (s.rungs = [r] → r.n < 5 → r.begun = true → rungDrained s r = true → WalkedAll s (rungPages s r) → ∃ t, exec (.rungComplete 0) s = .next t ∧ t.rungs = [] ∧
      (∀ f ∈ r.by_, f ∈ t.rungDone) ∧ (∀ lid l, (lid, l) ∈ s.launches → r.takes lid l = true → t.launch? lid = none) ∧
      (∀ lid, (∀ l, (lid, l) ∈ s.launches → r.takes lid l = false) → t.launch? lid = s.launch? lid) ∧
      (s.reloading = true → t.completions = s.completions ++ (s.launches.filter fun e => r.takes e.1 e.2).map fun e =>
        e.2.completion 6 0xFF (s.now 0)) ∧
      (r.report = none → t.parts = s.parts) ∧
      (∀ g, g ∈ t.downClusters ↔ g ∈ s.downClusters ∧ ¬ (r.n = 4 ∧ g ∈ (s.part r.part).clusters)) ∧
      (∀ c, r.report = some c → (s.part r.part).giver ≠ r.part → (s.part r.part).sliced = false → getKey t.parts r.part = none ∧
        getKey t.keptWindows r.part = some (s.part r.part).windows ∧ ∀ g ∈ (s.part r.part).clusters, g ∈ (t.part (s.part r.part).giver).clusters)) ∧
    (s.rungs = [r] → r.begun = true →
      let limit := if r.n = 1 then 1000000 else if r.n = 2 then 4000000 else if r.n = 3 then 16000000 else 64000000
      let late := (s.now 0 - r.since).toNat
      (late < limit → exec (.rungEscalate 0) s = .next s) ∧
      (limit ≤ late → sorted →
        (r.n = 1 → (∀ lid l, (lid, l) ∈ s.launches → r.takes lid l = false) → ∃ t, exec (.rungEscalate 0) s = .next t ∧ RungBegun s t 3 r.part) ∧
        (∀ lid l, r.n = 1 → (s.launches.filter fun e => r.takes e.1 e.2) = [(lid, l)] → ∃ t x, exec (.rungEscalate 0) s = .next t ∧
          t.rungs = [x] ∧ x.n = 2 ∧ x.launch = some lid ∧ x.by_ = r.by_ ∧ x.begun = true) ∧
        (r.n = 2 → ∃ t, exec (.rungEscalate 0) s = .next t ∧ RungBegun s t 3 r.part) ∧
        (r.n = 3 → ∃ t, exec (.rungEscalate 0) s = .next t ∧ RungBegun s t 4 r.part) ∧
        (r.n = 4 → WalkedAll s (resetPages s) → ∃ t, exec (.rungEscalate 0) s = .next t ∧ again t 3))) ∧
    (∀ w, s.rungs = [r, w] → r.begun = true → r.n = 3 → w.begun = false → w.n = 4 → w.part = r.part → w ≠ r →
      16000000 ≤ (s.now 0 - r.since).toNat → ∃ t x, exec (.rungEscalate 0) s = .next t ∧ t.rungs = [x] ∧ x.n = 4 ∧ x.part = r.part ∧
        x.begun = true ∧ x.since = s.now 0 ∧ x.by_ = w.by_ ++ r.by_)

/-! ## Bring-up, power and cooling -/

namespace Sys2Proof.Machine

/-- The step of an island changes, or is deferred where a stream of it has a timed region open; an island whose change is
already deferred is passed over (R291, R359). -/
def StepsTo (s : State) (i : Nat) (x y : Island) (n : Fin 4) : Prop :=
  if x.deferred.isSome = true ∨ n = x.step then y.step = x.step ∧ y.deferred = x.deferred
  else if regionOpen s i = true then y.step = x.step ∧ y.deferred = some (n, s.now 0)
  else y.step = n ∧ y.deferred = none

/-- One frequency step down and up, of steps 0 to 3. -/
def lower (n : Fin 4) : Fin 4 := if n = 0 then 0 else n - 1
def higher (n : Fin 4) : Fin 4 := if n = 3 then 3 else n + 1

end Sys2Proof.Machine

/-- R176, R281, R291, R292, R349, R354 to R361: bring-up, power, cooling, the receivers of the time base, and management. A phase
that ends within its limit has its effect and the next begins, phase 3 where the image's signature verifies; one that fails
runs once more and then the package stops; the governor
steps islands by their power, with the deferral of an open region, and gives up a deferred change that is no longer needed; each temperature has its action, and a
throttle that meets a deferred step up takes its place; management answers and changes nothing.
These clauses are the model's choice: which deferred changes are still needed, how a throttle meets a deferral, and the numbers of the islands
(notes/assumptions/28.md); and what each phase of bring-up changes, what a removal of power leaves, and the moment from which a phase
is timed (notes/assumptions/29.md). -/
def Obligations.PowerAndBringUp : Prop :=
  ∀ (s : State) (power : List Nat) (island die r : Nat),
    let on := s.dev.power = true
    let starting := on ∧ s.dev.ready = false ∧ s.dev.stuck = false
    let dram : Nat := 0x58_0000_0000
    let lost (t : State) (cause : BitVec 8) : Prop := t.dev.power = false ∧ t.dev.ready = false ∧ t.dev.cause = cause ∧ t.blocks = [] ∧
      t.parts = [] ∧ t.queues = [] ∧ t.launches = [] ∧ ∀ a, t.mem.byte a = if a < dram then 0 else s.mem.byte a
    (on → exec .powerOn s = .next s) ∧
    (¬ on → exec .powerOn s = .next { s with dev := { Device.reset with
      cause := s.dev.cause
      began := s.now 0 } }) ∧
    (on → s.mem.wf = true → (∃ t, exec .powerRemoval s = .next t ∧ lost t 0) ∧ ∃ t, exec .thermalTrip s = .next t ∧ lost t 2) ∧
    (¬ on → exec .powerRemoval s = .next s ∧ exec .thermalTrip s = .next s) ∧
    (¬ starting → exec .phaseComplete s = .next s ∧ exec .phaseTimeout s = .next s) ∧
    (let n := s.dev.phase.toNat
     (s.now 0 - s.dev.began).toNat ≤ (if n = 1 then 10000000 else if n = 2 then 100000000 else if n = 3 then 20000000
        else if n = 4 then 60000000 else 5000000) ∧
        (n = 3 → Config.sigVerifies Config.romKey Config.romImage Config.romSignature = true) ↔ phaseOk s n = true) ∧
    (starting → phaseOk s s.dev.phase.toNat = false → exec .phaseComplete s = exec .phaseTimeout s) ∧
    (starting → phaseOk s s.dev.phase.toNat = true → ∃ t, exec .phaseComplete s = .next t ∧ t.dev = { s.dev with
        phase := s.dev.phase + 1
        second := false
        ready := decide (s.dev.phase = 6)
        began := t.now 0 } ∧
      (s.dev.phase = 1 → ∀ i : Fin 64, t.islands[i] = { s.islands[i] with step := 0 }) ∧
      (s.dev.phase = 4 → s.mem.wf = true → ∀ a, t.mem.byte a = if a < dram then 0 else s.mem.byte a) ∧
      (s.dev.phase = 4 → ∀ g, 4 * g < dram → t.mem.granule g = false) ∧
      (s.dev.phase = 5 → ∀ d : Fin 8, t.time[d] = 0) ∧
      (s.dev.phase = 6 → (∀ i : Fin 64, t.islands[i] = { s.islands[i] with step := 3 }) ∧
        let p := t.part 1
        p.id = 1 ∧ p.level = 1 ∧ p.parent = 0 ∧ (∀ g, g ∈ p.clusters ↔ g < 88) ∧ p.ranges = [(0, dram)] ∧ p.isa = 0x7F ∧
        p.priv = true ∧ p.links = 0xFFFF ∧ p.chrate = 0 ∧ p.table = none ∧ p.ttroot = s.p1root ∧ t.capDue = [1]) ∧
      (s.dev.phase ≠ 6 → t.capDue = s.capDue) ∧
      (s.dev.phase ≠ 1 → s.dev.phase ≠ 6 → t.islands = s.islands) ∧ t = { s with
        dev := t.dev
        islands := t.islands
        mem := t.mem
        hostLines := t.hostLines
        time := t.time
        parts := t.parts
        capDue := t.capDue
        rungDone := t.rungDone }) ∧
    (starting → s.dev.second = false → exec .phaseTimeout s = .next { s with dev := { s.dev with
      second := true
      began := s.now 0 } }) ∧
    (starting → s.dev.second = true → exec .phaseTimeout s = .next { s with dev := { s.dev with
      stuck := true
      failph := s.dev.phase } }) ∧
    (let due := s.dev.ready = true ∧ ∀ k, s.windowAt = some k → 10000 ≤ (s.now 0 - k).toNat
     (¬ due → exec (.governorWindow power) s = .next s) ∧
     (due → ∃ t, exec (.governorWindow power) s = .next t ∧
       t.totals = ((power.take 64).sum :: s.totals).take 100 ∧ t.windowAt = some (s.now 0) ∧
       (∀ i : Fin 64, let x := s.islands[i]
         let y := t.islands[i]
         let p := power.getD i 0
         let high := if islandCap i < p then x.above + 1 else 0
         let low := if p * 100 < 90 * islandCap i then min 100 (x.below + 1) else 0
         let needed (d : Fin 4 × Word) : Prop := if d.1 < x.step then x.heat = true ∨ high ≠ 0 ∨ overCap t = true else low ≠ 0 ∧ underCap t = true
         ∀ kept, ((∃ d, x.deferred = some d ∧ needed d ∧ kept = some d) ∨ (∀ d, x.deferred = some d → ¬ needed d) ∧ kept = none) →
         y.power = p ∧ y.temp = x.temp ∧ y.heat = (x.heat && kept.isSome) ∧
         (i.val < 44 → (y.idles = true ↔ (∀ j : Fin 64, j.val < 44 → t.islands[j].step = 0) ∧
           (overCap t = true ∨ ∃ j : Fin 64, islandCap j < power.getD j 0))) ∧
         y.heatAt = x.heatAt ∧ y.above = (if 3 ≤ high then 0 else high) ∧
         (3 ≤ high → StepsTo s i { x with deferred := kept } y (lower x.step)) ∧
         (high < 3 → low = 100 → underCap t = true → y.below = 0 ∧ StepsTo s i { x with deferred := kept } y (higher x.step)) ∧
         (high < 3 → low < 100 ∨ underCap t = false → y.below = low ∧ y.step = x.step ∧ y.deferred = kept)) ∧
       t = { s with
         islands := t.islands
         windowAt := t.windowAt
         totals := t.totals })) ∧
    (let due := s.dev.ready = true ∧ 3400000 * s.totals.length < s.totals.sum ∧ ∀ k, s.stepAt = some k → 100000 ≤ (s.now 0 - k).toNat
     let may (i : Fin 64) : Prop := i.val < 44 ∧ s.islands[i].step ≠ 0 ∧ s.islands[i].deferred = none
     (¬ due → exec (.packageStepDown power) s = .next s) ∧
     (due → (∀ i, ¬ may i) → exec (.packageStepDown power) s = .next s) ∧
     (due → (∃ i, may i ∧ regionOpen s i = false) → ∃ t i, exec (.packageStepDown power) s = .next t ∧ may i ∧ regionOpen s i = false ∧
       (∀ j, may j → regionOpen s j = false → power.getD j 0 ≤ power.getD i 0) ∧
       t = { s with
         stepAt := some (s.now 0)
         islands := s.islands.set i { s.islands[i] with step := lower s.islands[i].step } })) ∧
    (let i : Fin 64 := ⟨island % 64, Nat.mod_lt _ (by decide)⟩
     let x := s.islands[i]
     (x.deferred = none → exec (.deferralExpire island) s = .next s) ∧
     (∀ n k, x.deferred = some (n, k) →
       let done : State := { s with islands := s.islands.set i { x with
         deferred := none
         heat := false
         step := n } }
       (regionOpen s i = true → (s.now 0 - k).toNat < 50000 → exec (.deferralExpire island) s = .next s) ∧
       (regionOpen s i = false → exec (.deferralExpire island) s = .next done) ∧
       (regionOpen s i = true → 50000 ≤ (s.now 0 - k).toNat → ∃ t, exec (.deferralExpire island) s = .next t ∧
         t = { done with blocks := t.blocks } ∧
         ∀ b B, getKey s.blocks b = some B → ∃ B', getKey t.blocks b = some B' ∧ B' = { B with agents := B'.agents } ∧
           ∀ w : Fin 5, let y := B.agents[w].ctl.tslip
             B'.agents[w] = if islandOf B.core = i.val ∧ B.status = .running ∧ y.region.isSome = true then
               { B.agents[w] with ctl := { B.agents[w].ctl with tslip := { y with
                 freq := true
                 due := if y.limit = 0 then y.due else some 0xFFFF } } }
             else B.agents[w])) ∧
     (let due := on ∧ ∀ k, x.heatAt = some k → 100000 ≤ (s.now 0 - k).toNat
      (¬ due → exec (.thermalThrottle island) s = .next s) ∧
      (due → ∃ t, exec (.thermalThrottle island) s = .next t ∧ t.islands[i].heatAt = some (s.now 0) ∧
        (∀ kept, (x.deferred = none ∧ kept = none ∨ ∃ n k, x.deferred = some (n, k) ∧
            kept = (if x.step < n then (if x.step = 0 then none else some (lower x.step, k)) else some (n, k))) →
          StepsTo s i { x with deferred := kept } t.islands[i] (lower x.step)) ∧
        (∀ d, t.islands[i].deferred = some d → d.1 < t.islands[i].step → t.islands[i].heat = true) ∧ (∀ j : Fin 64, j ≠ i → t.islands[j] = s.islands[j]) ∧
        t = { s with islands := t.islands }))) ∧
    (s.dev.ready = false → exec .thermalPartitionRung s = .next s) ∧
    (s.dev.ready = true → ∃ t, exec .thermalPartitionRung s = .next t ∧ t.thermalHold = true ∧ t.mem = s.mem ∧
      (s.rungs = [] → ∀ p ∈ s.parts, ∃ x ∈ t.rungs, x.n = 4 ∧ x.part = p.1 ∧ x.begun = true)) ∧
    exec .thermalLaunchHoldEnd s = .next { s with thermalHold := false } ∧
    (8 ≤ die → exec (.timebaseReceiverLoss die) s = .next s) ∧
    (∀ d : Fin 8, die = d.val →
      (s.receivers[d] = 2 → exec (.timebaseReceiverLoss die) s = .next { s with receivers := s.receivers.set d 1 }) ∧
      (s.receivers[d] = 1 → s.rungs = [] → ∃ t, exec (.timebaseReceiverLoss die) s = .next t ∧ t.receivers = s.receivers.set d 0 ∧
        t.time = s.time ∧ t.mem = s.mem ∧
        ∀ p ∈ s.parts, (∃ c ∈ p.2.cores, c / 128 = d.val) → ∃ x ∈ t.rungs, x.n = 4 ∧ x.part = p.1 ∧ x.begun = true)) ∧
    (∃ a, exec (.pldmRequest r) s = .next { s with outbox := s.outbox ++ [.pldm a] }) ∧
    (∃ a, exec (.spdmRequest r) s = .next { s with outbox := s.outbox ++ [.spdm a] })

/-! ## The fabric -/

/-- R344 to R349, R353: links, remote requests and fabric time. The 256 bytes of a flit give it back. A link accepts the flit
whose CRC holds and whose SEQ is next, and answers any other with an acknowledge that names the last good one; a reserved
kind is counted; a flit for another package goes on along its route, or waits for it; a flit that leaves gets the link's
next SEQ and stays in its replay buffer; the replay buffer is sent again in order; after 16 resends the link retrains, and
three failures in succession take it down and move its traffic. A remote request that the export table passes reads, writes
or combines the granules that it enables, each with its poison, and any other is refused. A time-sync flit leaves on each up link every
1,024 ticks; the count joins once, and is then slewed by at most a tick in 1,024; a flit that comes by another than a shortest path
is received and steers nothing.
These clauses are the model's choice: that a reserved kind in order consumes its SEQ and counts as an error out of order as well, which kinds
go on to another package, that a request without a route is refused, and that a link which comes up begins at SEQ 0
(notes/assumptions/37.md); and how many time-sync flits leave, that a slew back withholds a tick, and that the join moves the last
moments with the count (notes/assumptions/40.md). -/
def Obligations.LinksAndTime : Prop :=
  ∀ (s : State) (k : Fin 16) (f : Flit) (m : BitVec 16) (from_ part pkg n : Nat) (r : RemoteReq) (count : Word),
    let l := s.links[k]
    let good := (l.rxSeq - 1).toNat
    let ack : Flit := ⟨f.src, s.fabid.toNat, 6, 1, 0, 0, true, []⟩
    let here := l.acked f.ack
    let counted := { here with errors := if 8 ≤ f.kind then here.errors + 1 else here.errors }
    let onward := f.dst ≠ s.fabid.toNat ∧ (f.kind = 1 ∨ f.kind = 2 ∨ f.kind = 3 ∨ f.kind = 5)
    let took := s.setLink k { counted with rxSeq := counted.rxSeq + 1 }
    let recv (t : State) : Prop := exec (.flitReceive k f) s = .next t
    let quiet := s.outgoing = []
    (f.dst < 256 → f.src < 256 → f.kind < 16 → f.vc < 4 → f.seq < 4096 → f.ack < 4096 → f.payload.length = 244 →
      (flitBytes f).length = 256 ∧ flitOf (flitBytes f) = { f with crcOk := true }) ∧
    (sendOn s k m f = (let g : Flit := { f with
        seq := l.txSeq.toNat
        ack := good
        crcOk := true }
      { s.setLink k { l with
        txSeq := l.txSeq + 1
        buffer := l.buffer ++ [(g, m)] } with outbox := s.outbox ++ [.flit k g] })) ∧
    (here.buffer = l.buffer.filter (fun x => decide (2048 ≤ (f.ack + 4096 - x.1.seq % 4096) % 4096)) ∧ here = { l with
      buffer := here.buffer
      resends := if here.buffer.length = l.buffer.length then l.resends else 0 }) ∧
    (s.outgoing = [(m, f)] →
      (∀ i, routeLink s m f.dst = some i → pathClear s i f.dst f.vc = true → flush s = { sendOn s i m f with outgoing := [] }) ∧
      (routeLink s m f.dst = none ∨ (∀ i, routeLink s m f.dst = some i → pathClear s i f.dst f.vc = false) → flush s = s)) ∧
    (∀ i : Fin 16, pathClear s i pkg n = true ↔ s.links[i].up = true ∧ s.links[i].retraining = false ∧ s.links[i].buffer.length < 128 ∧
      ∀ j : Fin 16, j ≠ i → ∀ x ∈ s.links[j].buffer, ¬ (x.1.dst = pkg ∧ x.1.vc = n)) ∧
    (l.up = false ∨ l.retraining = true → recv s) ∧
    (l.up = true → l.retraining = false →
      (f.crcOk = false → recv (if l.buffer.length < 128 then sendOn s k 0xFFFF ack else s)) ∧
      (f.crcOk = true → quiet →
        (f.seq % 4096 ≠ l.rxSeq.toNat → recv (if here.buffer.length < 128 then sendOn (s.setLink k counted) k 0xFFFF ack else s.setLink k counted)) ∧
        (f.seq % 4096 = l.rxSeq.toNat →
          (8 ≤ f.kind → recv took) ∧
          (f.kind < 8 → f.kind ≠ 5 → ¬ onward → recv took) ∧
          (f.kind = 5 → ¬ onward → ∃ y, recv { took with members := s.members ++ y } ∧
            y.length ≤ 1 ∧ ∀ x ∈ y, x.remote.isSome = true ∧ x.arrived = s.now 0 ∧ x.started = false) ∧
          (onward → f.kind ≠ 1 ∨ (getKey s.froutes f.dst).getD 0 ≠ 0 →
            (∀ i, routeLink took 0xFFFF f.dst = some i → pathClear took i f.dst f.vc = true → recv (sendOn took i 0xFFFF f)) ∧
            (routeLink took 0xFFFF f.dst = none ∨ (∀ i, routeLink took 0xFFFF f.dst = some i → pathClear took i f.dst f.vc = false) →
              recv { took with outgoing := [(0xFFFF, f)] })) ∧
          (onward → f.kind = 1 → (getKey s.froutes f.dst).getD 0 = 0 → ∃ t o, recv t ∧ t.outbox = s.outbox ++ .remote true [] 0 :: o ∧
            t = { s with
              links := t.links
              outbox := t.outbox
              outgoing := t.outgoing })))) ∧
    (∀ bytes, takeInput (.wire k bytes) s = flitReceive s k (flitOf bytes)) ∧
    (∀ x b, l.buffer = x :: b →
      let may := l.up = true ∧ l.retraining = false ∧ l.resends < 16 ∧ x.1.seq = (from_ + 1) % 4096
      (¬ may → exec (.flitResend k from_) s = .next s) ∧
      (may → exec (.flitResend k from_) s = .next { s.setLink k { l with resends := l.resends + 1 } with
        outbox := s.outbox ++ l.buffer.map fun y => .flit k { y.1 with ack := good } })) ∧
    (l.buffer = [] → exec (.flitResend k from_) s = .next s) ∧
    (let due := l.up = true ∧ l.retraining = false ∧ 16 ≤ l.resends
     (¬ due → exec (.linkRetrain k) s = .next s) ∧
     (due → exec (.linkRetrain k) s = .next (s.setLink k { l with retraining := true }))) ∧
    (l.retraining = false → exec (.retrainComplete k true) s = .next s ∧ exec (.retrainComplete k false) s = .next s) ∧
    (l.retraining = true → quiet →
      let fresh (up : Bool) (b : List (Flit × BitVec 16)) : Link := { l with
        up := if up then l.up else false
        down := if up then l.down else true
        retraining := false
        resends := 0
        fails := 0
        buffer := b }
      let dropped := s.setLink k (fresh false [])
      exec (.retrainComplete k true) s = .next (s.setLink k (fresh true l.buffer)) ∧
      (l.fails < 2 → exec (.retrainComplete k false) s = .next (s.setLink k { l with fails := l.fails + 1 })) ∧
      (2 ≤ l.fails → l.buffer = [] → exec (.retrainComplete k false) s = .next dropped) ∧
      (∀ x, 2 ≤ l.fails → l.buffer = [x] → x.1.kind = 1 ∨ x.1.kind = 2 ∨ x.1.kind = 3 ∨ x.1.kind = 5 →
        (∀ i, routeLink dropped x.2 x.1.dst = some i → pathClear dropped i x.1.dst x.1.vc = true →
          exec (.retrainComplete k false) s = .next (sendOn dropped i x.2 x.1)) ∧
        (routeLink dropped x.2 x.1.dst = none → exec (.retrainComplete k false) s = .next { dropped with outgoing := [(x.2, x.1)] }))) ∧
    (s.dev.ready = false → exec (.linkTraining k) s = .next s) ∧
    (s.dev.ready = true → quiet → ∃ t, exec (.linkTraining k) s = .next t ∧ t.links = s.links.set k { l with
        txSeq := if l.up = true then l.txSeq else 0
        rxSeq := if l.up = true then l.rxSeq else 0
        buffer := if l.up = true then l.buffer else []
        up := true
        down := false
        retraining := false
        resends := 0
        fails := 0 } ∧ (∀ x ∈ t.stalled, x ∈ s.stalled) ∧
      (∀ x ∈ s.stalled, x ∉ t.stalled → (routeLink t (s.part x.1).links x.2.1).isSome = true) ∧ t = { s with
        links := t.links
        stalled := t.stalled }) ∧
    (let passes := ∃ e ∈ s.exports, e.2.srcPkg = r.srcPkg ∧ e.2.srcPart = r.srcPart ∧ e.2.base.toNat ≤ r.off ∧
       r.off + r.len ≤ e.2.limit.toNat ∧ (e.2.w = true ∨ r.write = none ∧ r.rmw = none) ∧
       ∃ p, getKey s.parts e.2.dstPart = some p ∧ ∃ y ∈ p.ranges, y.1 ≤ r.off ∧ r.off + r.len ≤ y.2
     let ok := s.dev.ready = true ∧ r.off / 2 ^ 32 ∉ s.downClusters ∧ passes
     let answers (refused : Bool) (d : List Byte) (p : Nat) (P : State → Prop) : Prop := ∃ t o, exec (.remoteRequest r) s = .next t ∧
       t.outbox = s.outbox ++ .remote refused d p :: o ∧ P t ∧ t = { s with
         outbox := t.outbox
         links := t.links
         outgoing := t.outgoing
         mem := t.mem
         hostLines := t.hostLines }
     let lane (i : Nat) : Bool := r.lanes.testBit ((r.off + i) / 4 - r.off / 4)
     let old := (List.range r.len).map fun i => if lane i then s.mem.byte (r.off + i) else 0
     let poisonOf (bad : Nat) : Prop := ∀ g, bad.testBit g = true ↔ g < (r.off % 4 + r.len + 3) / 4 ∧ r.lanes.testBit g = true ∧
       s.mem.granule (r.off / 4 + g) = true
     (¬ ok → answers true [] 0 fun t => t.mem = s.mem ∧ t.hostLines = s.hostLines) ∧
     (∀ bad, ok → poisonOf bad → r.write = none → r.rmw = none → answers false old bad fun t => t.mem = s.mem) ∧
     (∀ d, ok → r.rmw = none → r.write = some d → inSlotFrame s r.off = true → answers false [] 0 fun t => t.mem = s.mem) ∧
     (∀ d, ok → r.rmw = none → r.write = some d → inSlotFrame s r.off = false → d.length = r.len → s.mem.wf = true →
       answers false [] 0 fun t => (∀ i < r.len,
         t.mem.byte (r.off + i) = (if lane i then d.getD i 0 else s.mem.byte (r.off + i)) ∧ t.mem.granule ((r.off + i) / 4) =
           (if lane i then r.poison.testBit ((r.off + i) / 4 - r.off / 4) else s.mem.granule ((r.off + i) / 4))) ∧
         ∀ a, a < r.off ∨ r.off + r.len ≤ a → t.mem.byte a = s.mem.byte a) ∧
     (∀ bad op y cmp, ok → poisonOf bad → r.rmw = some (op, y, cmp) → inSlotFrame s r.off = false → r.off % 8 = 0 → s.mem.wf = true →
       answers false old bad fun t => (bad ≠ 0 → t.mem = s.mem) ∧
         (∀ v, bad = 0 → atomNew op (BitVec.ofNat 64 (s.mem.readLE r.off 8)) y cmp = some v → t.mem.readLE r.off 8 = v.toNat ∧
           t.mem.granule (r.off / 4) = (r.poison != 0)) ∧
         ∀ a, a < r.off ∨ r.off + 8 ≤ a → t.mem.byte a = s.mem.byte a)) ∧
    ((∀ x ∈ s.stalled, ¬ (x.1 = part ∧ x.2.1 = pkg)) → exec (.remoteRouteTimeout part pkg) s = .next s) ∧
    (∀ e, s.stalled = [(part, pkg, e)] →
      ((routeLink s (s.part part).links pkg).isSome = true ∨ (s.now 0 - e).toNat < 10000000 → exec (.remoteRouteTimeout part pkg) s = .next s) ∧
      (routeLink s (s.part part).links pkg = none → 10000000 ≤ (s.now 0 - e).toNat → s.rungs = [] →
        natSetFrom 0 (s.blocks.map (·.1)) = true → natSetFrom 0 (s.launches.map (·.1)) = true →
        ∃ t, exec (.remoteRouteTimeout part pkg) s = .next t ∧ t.stalled = [] ∧ RungBegun s t 4 part)) ∧
    (s.dev.ready = true → s.outgoing = [] → 1024 ≤ (s.now 0 - s.lastSent).toNat →
      ∃ j, 1024 * j ≤ (s.now 0 - s.lastSent).toNat ∧ (s.now 0 - s.lastSent).toNat < 1024 * (j + 1) ∧
        (sendSyncs s).lastSent = s.lastSent + BitVec.ofNat 64 (1024 * j) ∧
        (l.up = true → l.retraining = false → l.buffer.length < 128 → ∃ y b, (sendSyncs s).links[k].buffer = l.buffer ++ y :: b ∧
          y.1.kind = 4 ∧ y.1.seq = l.txSeq.toNat ∧ y.1.payload = Config.flitPayload 4 [(s.now 0).toNat])) ∧
    (s.dev.ready = false ∨ (s.now 0 - s.lastSent).toNat < 1024 → sendSyncs s = s) ∧
    (let nearest := ∀ j : Fin 16, s.links[j].up = true → l.hops ≤ s.links[j].hops
     let count := count + BitVec.ofNat 64 l.delay
     (s.dev.ready = false ∨ l.up = false ∨ s.fabid = 0 → exec (.timeSyncFlit k (count - BitVec.ofNat 64 l.delay)) s = .next s) ∧
     (s.dev.ready = true → l.up = true → s.fabid ≠ 0 → ¬ nearest →
       exec (.timeSyncFlit k (count - BitVec.ofNat 64 l.delay)) s = .next { s with lastSync := s.now 0 }) ∧
     (s.dev.ready = true → l.up = true → s.fabid ≠ 0 → nearest →
       ∃ t, exec (.timeSyncFlit k (count - BitVec.ofNat 64 l.delay)) s = .next t ∧
       t.lastSync = t.now 0 ∧ (t.synced = true ↔ (count - t.now 0).toInt.natAbs ≤ 25) ∧ t.joined = true ∧
       (s.joined = false → ∀ d : Fin 8, t.time[d] = if s.launched = false ∨ s.time[d].toNat ≤ count.toNat then count else s.time[d]) ∧
       (s.joined = false → t.lastSent = s.lastSent + (t.now 0 - s.now 0) ∧ t.lastSlew = s.lastSlew + (t.now 0 - s.now 0)) ∧
       (s.joined = true → t.lastSent = s.lastSent) ∧
       (s.joined = true → (s.now 0 - s.lastSlew).toNat < 1024 ∨ count = s.now 0 → t.time = s.time ∧ t.withheld = s.withheld) ∧
       (s.joined = true → 1024 ≤ (s.now 0 - s.lastSlew).toNat → 0 < (count - s.now 0).toInt →
         (∀ d : Fin 8, t.time[d] = s.time[d] + 1) ∧ t.lastSlew = s.now 0 ∧ t.withheld = s.withheld) ∧
       (s.joined = true → 1024 ≤ (s.now 0 - s.lastSlew).toNat → (count - s.now 0).toInt < 0 →
         t.time = s.time ∧ t.lastSlew = s.now 0 ∧ t.withheld = true) ∧ t = { s with
           time := t.time
           blocks := t.blocks
           joined := t.joined
           synced := t.synced
           lastSync := t.lastSync
           lastSent := t.lastSent
           lastSlew := t.lastSlew
           withheld := t.withheld } ∧ (t.time = s.time → t.blocks = s.blocks ∨ s.joined = false) ∧
       ∀ b B, getKey s.blocks b = some B → ∃ B', getKey t.blocks b = some B' ∧ B' = { B with agents := B'.agents } ∧
         ∀ w : Fin 5, B'.agents[w] = { B.agents[w] with ctl := { B.agents[w].ctl with line0 := B'.agents[w].ctl.line0 } })) ∧
    (let free := s.joined = true ∧ 1000000 ≤ (s.now 0 - s.lastSync).toNat
     (¬ free → exec .timesyncLoss s = .next s) ∧
     (free → exec .timesyncLoss s = .next { s with
       synced := false
       withheld := false }))

/-- R350 to R353: the collective engine. A collective of a partition starts once every reachable member's command is held and
each TICK has been sampled, or waits for a link of its route; it completes once the pages of its members have been walked,
with the status of R350, its result in the member's FIFO after its data,
and where the members disagree no data moves. Elements combine in ascending rank, each step rounded to the working
format, and i32 sums modulo 2^32. That the commands of this package's blocks are matched within a partition, and those of other
packages by GROUP and TAG alone, is the model's choice (notes/assumptions/38.md). -/
def Obligations.Collectives : Prop :=
  ∀ (s : State) (group tag p : Nat),
    ((∀ x ∈ s.members, ¬ (x.group.toNat = group ∧ x.tag.toNat = tag ∧ x.started = false ∧ x.remote = none)) →
      exec (.collectiveStart group tag) s = .next s) ∧
    ((∀ x ∈ s.members, ¬ (x.group.toNat = group ∧ x.tag.toNat = tag ∧ x.started = true ∧ x.remote = none)) →
      exec (.collectiveComplete group tag) s = .next s) ∧
    (∀ l m, groupParts s group tag false = [p] → membersOf s group tag p false = l → leader l = some m →
      let before := membersOf s group tag p true
      let miss := missing l m
      let sampled := ∀ x ∈ l, x.tick = 0 ∨ (s.now (s.block x.block).core - x.tick).toNat < 2 ^ 63
      let whole := ∀ r ∈ miss, unreachable s m r = true
      (∀ x ∈ l, x.group.toNat = group ∧ x.tag.toNat = tag ∧ (x.remote.isSome = true ∨ x.part = p) ∧ x.started = false ∧ x ∈ s.members) ∧
      (∀ r ∈ miss, r < m.nmem ∧ ∀ x ∈ l, x.rank ≠ r) ∧
      (before ≠ [] → exec (.collectiveStart group tag) s = .next s) ∧
      (before = [] → (List.range m.nmem).findSome? (waitsFor s m) = none → whole → sampled → ∃ t, exec (.collectiveStart group tag) s = .next t ∧
        t.members.length = s.members.length ∧ (∀ x ∈ l, { x with started := true } ∈ t.members) ∧
        (∀ y ∈ t.members, y ∈ s.members ∨ ∃ x ∈ l, y = { x with started := true }) ∧ t = { s with members := t.members }) ∧
      (before = [] → (List.range m.nmem).findSome? (waitsFor s m) = none → ¬ (whole ∧ sampled) → exec (.collectiveStart group tag) s = .next s) ∧
      (∀ pkg, before = [] → (List.range m.nmem).findSome? (waitsFor s m) = some pkg → (∀ x ∈ s.stalled, ¬ (x.1 = m.part ∧ x.2.1 = pkg)) →
        exec (.collectiveStart group tag) s = .next { s with stalled := s.stalled ++ [(m.part, pkg, s.now 0)] })) ∧
    (∀ l m, (groupParts s group tag true).head? = some p → membersOf s group tag p true = l → leader l = some m →
      WalksOn s (s.part p) (dataPages l) (.collectiveComplete group tag) ∧
      (Walked s (s.part p) (dataPages l) → ∃ t, exec (.collectiveComplete group tag) s = .next t ∧
        (∀ y, y ∈ t.members ↔ y ∈ s.members ∧
          ¬ (y.group = m.group ∧ y.tag = m.tag ∧ (y.remote.isSome = true ∨ y.part = m.part) ∧ y.started = true)) ∧
        ∀ x B, (l.filter fun y => y.remote.isNone) = [x] → s.posts = [] →
          getKey s.blocks x.block = some B → B.status = .running → B.ports[2].res.length + B.ports[2].resSlots < 16 →
          let agree := ∀ y ∈ l, y.op = m.op ∧ y.ty = m.ty ∧ y.count = m.count
          let all := missing l m = []
          ∃ status, (t.block x.block).ports = B.ports.set 2 { B.ports[2] with res := B.ports[2].res ++ [(resultWord status x.tag, false)] } ∧
            t.posts = [] ∧
            (¬ agree → status = 2 ∧ t.mem = s.mem ∧ (t.block x.block).pad = B.pad) ∧
            (agree → ¬ all → status = 4) ∧
            (agree → all → status = (if lateStart s l then 3 else 0) ∧ t.mem = (moveData s l m).mem ∧
              (t.block x.block).pad = ((moveData s l m).block x.block).pad ∧ t.free = s.free ∧
              (m.op = 0 → t.mem = s.mem ∧ (t.block x.block).pad = B.pad)))) ∧
    (∀ (status : Nat) (tg : BitVec 32), status < 256 → (resultWord status tg).extractLsb' 56 8 = BitVec.ofNat 8 status ∧
      (resultWord status tg).extractLsb' 32 24 = 0 ∧ (resultWord status tg).extractLsb' 0 32 = tg) ∧
    (∀ (l : List Nat), l ≠ [] → (∀ x ∈ l, x < 2 ^ 32) → combine 2 3 l = l.sum % 2 ^ 32 ∧ combine 5 3 l = l.sum % 2 ^ 32 ∧
      combine 3 3 l ∈ l ∧ ∀ x ∈ l, signedOf 32 x ≤ signedOf 32 (combine 3 3 l)) ∧
    (∀ (op ty : Nat) (a : Nat) (r : List Nat) (g : Nat → Fp), ty ≠ 3 → (∀ x ∈ a :: r, (decodeFp (tyFmt ty) false x).isNan = false) →
      g 0 = decodeFp (tyFmt ty) false a →
      (∀ k < r.length, ∃ v : Val, v = (if op = 3 then maxVal (g k) (decodeFp (tyFmt ty) false (r.getD k 0)) else
          sumVal false (g k) (decodeFp (tyFmt ty) false (r.getD k 0))) ∧ (∀ c, v ≠ .gen c) ∧
        g (k + 1) = decodeFp (workFmt ty) false (putVal (workFmt ty) .rne false false v).1) →
      combine op ty (a :: r) = (convertFp (workFmt ty) (tyFmt ty) .rne false false (g r.length)).1)
end

