-- ==== Sys2Proof/Laws/Exec.lean ====
section
/-! SUPPORT. The arm of each instruction, as an equation (one lemma for each constructor of Instr). -/

namespace Sys2Proof.Machine

@[simp] theorem exec_snop (s : State) :
    exec .snop s = execSnop s := rfl
@[simp] theorem exec_add (d : SReg) (a : SReg) (b : SReg) (s : State) :
    exec (.add d a b) s = execAdd d a b s := rfl
@[simp] theorem exec_sub (d : SReg) (a : SReg) (b : SReg) (s : State) :
    exec (.sub d a b) s = execSub d a b s := rfl
@[simp] theorem exec_mul (d : SReg) (a : SReg) (b : SReg) (s : State) :
    exec (.mul d a b) s = execMul d a b s := rfl
@[simp] theorem exec_mulh (d : SReg) (a : SReg) (b : SReg) (s : State) :
    exec (.mulh d a b) s = execMulh d a b s := rfl
@[simp] theorem exec_mulhn (d : SReg) (a : SReg) (b : SReg) (s : State) :
    exec (.mulhn d a b) s = execMulhn d a b s := rfl
@[simp] theorem exec_and (d : SReg) (a : SReg) (b : SReg) (s : State) :
    exec (.and d a b) s = execAnd d a b s := rfl
@[simp] theorem exec_or (d : SReg) (a : SReg) (b : SReg) (s : State) :
    exec (.or d a b) s = execOr d a b s := rfl
@[simp] theorem exec_xor (d : SReg) (a : SReg) (b : SReg) (s : State) :
    exec (.xor d a b) s = execXor d a b s := rfl
@[simp] theorem exec_andn (d : SReg) (a : SReg) (b : SReg) (s : State) :
    exec (.andn d a b) s = execAndn d a b s := rfl
@[simp] theorem exec_shl (d : SReg) (a : SReg) (b : SReg) (s : State) :
    exec (.shl d a b) s = execShl d a b s := rfl
@[simp] theorem exec_shr (d : SReg) (a : SReg) (b : SReg) (s : State) :
    exec (.shr d a b) s = execShr d a b s := rfl
@[simp] theorem exec_sar (d : SReg) (a : SReg) (b : SReg) (s : State) :
    exec (.sar d a b) s = execSar d a b s := rfl
@[simp] theorem exec_ror (d : SReg) (a : SReg) (b : SReg) (s : State) :
    exec (.ror d a b) s = execRor d a b s := rfl
@[simp] theorem exec_min (d : SReg) (a : SReg) (b : SReg) (s : State) :
    exec (.min d a b) s = execMin d a b s := rfl
@[simp] theorem exec_max (d : SReg) (a : SReg) (b : SReg) (s : State) :
    exec (.max d a b) s = execMax d a b s := rfl
@[simp] theorem exec_minn (d : SReg) (a : SReg) (b : SReg) (s : State) :
    exec (.minn d a b) s = execMinn d a b s := rfl
@[simp] theorem exec_maxn (d : SReg) (a : SReg) (b : SReg) (s : State) :
    exec (.maxn d a b) s = execMaxn d a b s := rfl
@[simp] theorem exec_seq (d : SReg) (a : SReg) (b : SReg) (s : State) :
    exec (.seq d a b) s = execSeq d a b s := rfl
@[simp] theorem exec_slt (d : SReg) (a : SReg) (b : SReg) (s : State) :
    exec (.slt d a b) s = execSlt d a b s := rfl
@[simp] theorem exec_sltn (d : SReg) (a : SReg) (b : SReg) (s : State) :
    exec (.sltn d a b) s = execSltn d a b s := rfl
@[simp] theorem exec_clz (d : SReg) (a : SReg) (s : State) :
    exec (.clz d a) s = execClz d a s := rfl
@[simp] theorem exec_popc (d : SReg) (a : SReg) (s : State) :
    exec (.popc d a) s = execPopc d a s := rfl
@[simp] theorem exec_mov (d : SReg) (a : SReg) (s : State) :
    exec (.mov d a) s = execMov d a s := rfl
@[simp] theorem exec_addi (d : SReg) (a : SReg) (y : Imm 10) (s : State) :
    exec (.addi d a y) s = execAddi d a y s := rfl
@[simp] theorem exec_andi (d : SReg) (a : SReg) (y : Imm 10) (s : State) :
    exec (.andi d a y) s = execAndi d a y s := rfl
@[simp] theorem exec_ori (d : SReg) (a : SReg) (y : Imm 10) (s : State) :
    exec (.ori d a y) s = execOri d a y s := rfl
@[simp] theorem exec_xori (d : SReg) (a : SReg) (y : Imm 10) (s : State) :
    exec (.xori d a y) s = execXori d a y s := rfl
@[simp] theorem exec_shli (d : SReg) (a : SReg) (y : Imm 10) (s : State) :
    exec (.shli d a y) s = execShli d a y s := rfl
@[simp] theorem exec_shri (d : SReg) (a : SReg) (y : Imm 10) (s : State) :
    exec (.shri d a y) s = execShri d a y s := rfl
@[simp] theorem exec_sari (d : SReg) (a : SReg) (y : Imm 10) (s : State) :
    exec (.sari d a y) s = execSari d a y s := rfl
@[simp] theorem exec_rori (d : SReg) (a : SReg) (y : Imm 10) (s : State) :
    exec (.rori d a y) s = execRori d a y s := rfl
@[simp] theorem exec_slti (d : SReg) (a : SReg) (y : Imm 10) (s : State) :
    exec (.slti d a y) s = execSlti d a y s := rfl
@[simp] theorem exec_movi (d : SReg) (y : Imm 10) (s : State) :
    exec (.movi d y) s = execMovi d y s := rfl
@[simp] theorem exec_peq (d : PReg) (a : SReg) (b : SReg) (s : State) :
    exec (.peq d a b) s = execPeq d a b s := rfl
@[simp] theorem exec_pne (d : PReg) (a : SReg) (b : SReg) (s : State) :
    exec (.pne d a b) s = execPne d a b s := rfl
@[simp] theorem exec_plt (d : PReg) (a : SReg) (b : SReg) (s : State) :
    exec (.plt d a b) s = execPlt d a b s := rfl
@[simp] theorem exec_pge (d : PReg) (a : SReg) (b : SReg) (s : State) :
    exec (.pge d a b) s = execPge d a b s := rfl
@[simp] theorem exec_pltn (d : PReg) (a : SReg) (b : SReg) (s : State) :
    exec (.pltn d a b) s = execPltn d a b s := rfl
@[simp] theorem exec_pgen (d : PReg) (a : SReg) (b : SReg) (s : State) :
    exec (.pgen d a b) s = execPgen d a b s := rfl
@[simp] theorem exec_ptst (d : PReg) (a : SReg) (b : SReg) (s : State) :
    exec (.ptst d a b) s = execPtst d a b s := rfl
@[simp] theorem exec_pand (d : PReg) (a : PReg) (b : PReg) (s : State) :
    exec (.pand d a b) s = execPand d a b s := rfl
@[simp] theorem exec_por (d : PReg) (a : PReg) (b : PReg) (s : State) :
    exec (.por d a b) s = execPor d a b s := rfl
@[simp] theorem exec_pxor (d : PReg) (a : PReg) (b : PReg) (s : State) :
    exec (.pxor d a b) s = execPxor d a b s := rfl
@[simp] theorem exec_pnot (d : PReg) (a : PReg) (s : State) :
    exec (.pnot d a) s = execPnot d a s := rfl
@[simp] theorem exec_vnop (s : State) :
    exec .vnop s = execVnop s := rfl
@[simp] theorem exec_vadd (vd : VReg) (va : VReg) (vb : VReg) (m : FMode) (t : VTy) (s : State) :
    exec (.vadd vd va vb m t) s = execVadd vd va vb m t s := rfl
@[simp] theorem exec_vsub (vd : VReg) (va : VReg) (vb : VReg) (m : FMode) (t : VTy) (s : State) :
    exec (.vsub vd va vb m t) s = execVsub vd va vb m t s := rfl
@[simp] theorem exec_vmul (vd : VReg) (va : VReg) (vb : VReg) (m : FMode) (t : VTy) (s : State) :
    exec (.vmul vd va vb m t) s = execVmul vd va vb m t s := rfl
@[simp] theorem exec_vfma (vd : VReg) (va : VReg) (vb : VReg) (m : FMode) (t : VTy) (s : State) :
    exec (.vfma vd va vb m t) s = execVfma vd va vb m t s := rfl
@[simp] theorem exec_vfms (vd : VReg) (va : VReg) (vb : VReg) (m : FMode) (t : VTy) (s : State) :
    exec (.vfms vd va vb m t) s = execVfms vd va vb m t s := rfl
@[simp] theorem exec_vmin (vd : VReg) (va : VReg) (vb : VReg) (m : FMode) (t : VTy) (s : State) :
    exec (.vmin vd va vb m t) s = execVmin vd va vb m t s := rfl
@[simp] theorem exec_vmax (vd : VReg) (va : VReg) (vb : VReg) (m : FMode) (t : VTy) (s : State) :
    exec (.vmax vd va vb m t) s = execVmax vd va vb m t s := rfl
@[simp] theorem exec_vabs (vd : VReg) (va : VReg) (m : FMode) (t : VTy) (s : State) :
    exec (.vabs vd va m t) s = execVabs vd va m t s := rfl
@[simp] theorem exec_vneg (vd : VReg) (va : VReg) (m : FMode) (t : VTy) (s : State) :
    exec (.vneg vd va m t) s = execVneg vd va m t s := rfl
@[simp] theorem exec_viadd (vd : VReg) (va : VReg) (vb : VReg) (t : VTy) (s : State) :
    exec (.viadd vd va vb t) s = execViadd vd va vb t s := rfl
@[simp] theorem exec_visub (vd : VReg) (va : VReg) (vb : VReg) (t : VTy) (s : State) :
    exec (.visub vd va vb t) s = execVisub vd va vb t s := rfl
@[simp] theorem exec_vimul (vd : VReg) (va : VReg) (vb : VReg) (t : VTy) (s : State) :
    exec (.vimul vd va vb t) s = execVimul vd va vb t s := rfl
@[simp] theorem exec_vimin (vd : VReg) (va : VReg) (vb : VReg) (t : VTy) (s : State) :
    exec (.vimin vd va vb t) s = execVimin vd va vb t s := rfl
@[simp] theorem exec_vimax (vd : VReg) (va : VReg) (vb : VReg) (t : VTy) (s : State) :
    exec (.vimax vd va vb t) s = execVimax vd va vb t s := rfl
@[simp] theorem exec_vand (vd : VReg) (va : VReg) (vb : VReg) (s : State) :
    exec (.vand vd va vb) s = execVand vd va vb s := rfl
@[simp] theorem exec_vor (vd : VReg) (va : VReg) (vb : VReg) (s : State) :
    exec (.vor vd va vb) s = execVor vd va vb s := rfl
@[simp] theorem exec_vxor (vd : VReg) (va : VReg) (vb : VReg) (s : State) :
    exec (.vxor vd va vb) s = execVxor vd va vb s := rfl
@[simp] theorem exec_vshl (vd : VReg) (va : VReg) (vb : VReg) (t : VTy) (s : State) :
    exec (.vshl vd va vb t) s = execVshl vd va vb t s := rfl
@[simp] theorem exec_vshr (vd : VReg) (va : VReg) (vb : VReg) (t : VTy) (s : State) :
    exec (.vshr vd va vb t) s = execVshr vd va vb t s := rfl
@[simp] theorem exec_vsar (vd : VReg) (va : VReg) (vb : VReg) (t : VTy) (s : State) :
    exec (.vsar vd va vb t) s = execVsar vd va vb t s := rfl
@[simp] theorem exec_vmov (vd : VReg) (va : VReg) (s : State) :
    exec (.vmov vd va) s = execVmov vd va s := rfl
@[simp] theorem exec_vrcp (vd : VReg) (va : VReg) (m : FMode) (t : VTy) (s : State) :
    exec (.vrcp vd va m t) s = execVrcp vd va m t s := rfl
@[simp] theorem exec_vrsq (vd : VReg) (va : VReg) (m : FMode) (t : VTy) (s : State) :
    exec (.vrsq vd va m t) s = execVrsq vd va m t s := rfl
@[simp] theorem exec_vsqrt (vd : VReg) (va : VReg) (m : FMode) (t : VTy) (s : State) :
    exec (.vsqrt vd va m t) s = execVsqrt vd va m t s := rfl
@[simp] theorem exec_vex2 (vd : VReg) (va : VReg) (m : FMode) (t : VTy) (s : State) :
    exec (.vex2 vd va m t) s = execVex2 vd va m t s := rfl
@[simp] theorem exec_vlg2 (vd : VReg) (va : VReg) (m : FMode) (t : VTy) (s : State) :
    exec (.vlg2 vd va m t) s = execVlg2 vd va m t s := rfl
@[simp] theorem exec_vtanh (vd : VReg) (va : VReg) (m : FMode) (t : VTy) (s : State) :
    exec (.vtanh vd va m t) s = execVtanh vd va m t s := rfl
@[simp] theorem exec_div (d : SReg) (a : SReg) (b : SReg) (s : State) :
    exec (.div d a b) s = execDiv d a b s := rfl
@[simp] theorem exec_divn (d : SReg) (a : SReg) (b : SReg) (s : State) :
    exec (.divn d a b) s = execDivn d a b s := rfl
@[simp] theorem exec_rem (d : SReg) (a : SReg) (b : SReg) (s : State) :
    exec (.rem d a b) s = execRem d a b s := rfl
@[simp] theorem exec_remn (d : SReg) (a : SReg) (b : SReg) (s : State) :
    exec (.remn d a b) s = execRemn d a b s := rfl
@[simp] theorem exec_ld (d : SReg) (a : SReg) (off : Imm 29) (s : State) :
    exec (.ld d a off) s = execLd d a off s := rfl
@[simp] theorem exec_st (d : SReg) (a : SReg) (off : Imm 29) (s : State) :
    exec (.st d a off) s = execSt d a off s := rfl
@[simp] theorem exec_lds (d : SReg) (a : SReg) (off : Imm 29) (s : State) :
    exec (.lds d a off) s = execLds d a off s := rfl
@[simp] theorem exec_chk (a : SReg) (s : State) :
    exec (.chk a) s = execChk a s := rfl
@[simp] theorem exec_aadd (d : SReg) (a : SReg) (b : SReg) (off : Imm 29) (s : State) :
    exec (.aadd d a b off) s = execAadd d a b off s := rfl
@[simp] theorem exec_amin (d : SReg) (a : SReg) (b : SReg) (off : Imm 29) (s : State) :
    exec (.amin d a b off) s = execAmin d a b off s := rfl
@[simp] theorem exec_amax (d : SReg) (a : SReg) (b : SReg) (off : Imm 29) (s : State) :
    exec (.amax d a b off) s = execAmax d a b off s := rfl
@[simp] theorem exec_aand (d : SReg) (a : SReg) (b : SReg) (off : Imm 29) (s : State) :
    exec (.aand d a b off) s = execAand d a b off s := rfl
@[simp] theorem exec_aor (d : SReg) (a : SReg) (b : SReg) (off : Imm 29) (s : State) :
    exec (.aor d a b off) s = execAor d a b off s := rfl
@[simp] theorem exec_axor (d : SReg) (a : SReg) (b : SReg) (off : Imm 29) (s : State) :
    exec (.axor d a b off) s = execAxor d a b off s := rfl
@[simp] theorem exec_aswp (d : SReg) (a : SReg) (b : SReg) (off : Imm 29) (s : State) :
    exec (.aswp d a b off) s = execAswp d a b off s := rfl
@[simp] theorem exec_acas (d : SReg) (a : SReg) (b : SReg) (off : Imm 29) (s : State) :
    exec (.acas d a b off) s = execAcas d a b off s := rfl
@[simp] theorem exec_extr (d : SReg) (a : SReg) (pos : Fin 64) (len1 : Fin 64) (s : State) :
    exec (.extr d a pos len1) s = execExtr d a pos len1 s := rfl
@[simp] theorem exec_insr (d : SReg) (a : SReg) (pos : Fin 64) (len1 : Fin 64) (s : State) :
    exec (.insr d a pos len1) s = execInsr d a pos len1 s := rfl
@[simp] theorem exec_fpush (a : SReg) (port : Fin 4) (s : State) :
    exec (.fpush a port) s = execFpush a port s := rfl
@[simp] theorem exec_fpop (d : SReg) (port : Fin 4) (s : State) :
    exec (.fpop d port) s = execFpop d port s := rfl
@[simp] theorem exec_hset (h : HReg) (a : SReg) (b : SReg) (s : State) :
    exec (.hset h a b) s = execHset h a b s := rfl
@[simp] theorem exec_hget (d : SReg) (h : HReg) (cursor : Bool) (s : State) :
    exec (.hget d h cursor) s = execHget d h cursor s := rfl
@[simp] theorem exec_hadv (h : HReg) (n : BitVec 16) (s : State) :
    exec (.hadv h n) s = execHadv h n s := rfl
@[simp] theorem exec_hwait (h : HReg) (o : Fin 4) (s : State) :
    exec (.hwait h o) s = execHwait h o s := rfl
@[simp] theorem exec_trel (h : HReg) (o : Fin 4) (s : State) :
    exec (.trel h o) s = execTrel h o s := rfl
@[simp] theorem exec_tvoid (d : PReg) (h : HReg) (o : Fin 4) (s : State) :
    exec (.tvoid d h o) s = execTvoid d h o s := rfl
@[simp] theorem exec_tgen (d : SReg) (h : HReg) (o : Fin 4) (s : State) :
    exec (.tgen d h o) s = execTgen d h o s := rfl
@[simp] theorem exec_tsetc (a : SReg) (b : SReg) (s : State) :
    exec (.tsetc a b) s = execTsetc a b s := rfl
@[simp] theorem exec_vld (vd : VReg) (base : SReg) (k : KReg) (off : BitVec 27) (s : State) :
    exec (.vld vd base k off) s = execVld vd base k off s := rfl
@[simp] theorem exec_vlds (vd : VReg) (base : SReg) (k : KReg) (off : BitVec 27) (s : State) :
    exec (.vlds vd base k off) s = execVlds vd base k off s := rfl
@[simp] theorem exec_vst (vd : VReg) (base : SReg) (k : KReg) (off : BitVec 27) (s : State) :
    exec (.vst vd base k off) s = execVst vd base k off s := rfl
@[simp] theorem exec_vchk (vd : VReg) (s : State) :
    exec (.vchk vd) s = execVchk vd s := rfl
@[simp] theorem exec_vgath (vd : VReg) (vi : VReg) (base : SReg) (k : KReg) (off : BitVec 27) (s : State) :
    exec (.vgath vd vi base k off) s = execVgath vd vi base k off s := rfl
@[simp] theorem exec_vscat (vd : VReg) (vi : VReg) (base : SReg) (k : KReg) (off : BitVec 27) (s : State) :
    exec (.vscat vd vi base k off) s = execVscat vd vi base k off s := rfl
@[simp] theorem exec_vcmp (vd : KReg) (va : VReg) (vb : VReg) (fi : Bool) (t : VTy) (c : Cond) (s : State) :
    exec (.vcmp vd va vb fi t c) s = execVcmp vd va vb fi t c s := rfl
@[simp] theorem exec_vsel (vd : VReg) (va : VReg) (vb : VReg) (kc : KReg) (s : State) :
    exec (.vsel vd va vb kc) s = execVsel vd va vb kc s := rfl
@[simp] theorem exec_vbcst (vd : VReg) (t : VTy) (src : BSrc) (s : State) :
    exec (.vbcst vd t src) s = execVbcst vd t src s := rfl
@[simp] theorem exec_vext (x : SReg) (va : VReg) (t : VTy) (lane : Fin 64) (s : State) :
    exec (.vext x va t lane) s = execVext x va t lane s := rfl
@[simp] theorem exec_vidx (vd : VReg) (t : VTy) (start : BitVec 20) (s : State) :
    exec (.vidx vd t start) s = execVidx vd t start s := rfl
@[simp] theorem exec_vperm (vd : VReg) (va : VReg) (vb : VReg) (s : State) :
    exec (.vperm vd va vb) s = execVperm vd va vb s := rfl
@[simp] theorem exec_vrotm (vd : VReg) (va : VReg) (kc : KReg) (r : Fin 64) (s : State) :
    exec (.vrotm vd va kc r) s = execVrotm vd va kc r s := rfl
@[simp] theorem exec_vcvt (vd : VReg) (va : VReg) (m : FMode) (t : VTy) (code : Fin 16) (sat : Bool) (s : State) :
    exec (.vcvt vd va m t code sat) s = execVcvt vd va m t code sat s := rfl
@[simp] theorem exec_vred (vd : VReg) (va : VReg) (m : FMode) (t : VTy) (op : RedOp) (s : State) :
    exec (.vred vd va m t op) s = execVred vd va m t op s := rfl
@[simp] theorem exec_vscan (vd : VReg) (va : VReg) (m : FMode) (t : VTy) (op : RedOp) (s : State) :
    exec (.vscan vd va m t op) s = execVscan vd va m t op s := rfl
@[simp] theorem exec_vtopk (vd : VReg) (va : VReg) (vb : VReg) (t : VTy) (k : Fin 128) (s : State) :
    exec (.vtopk vd va vb t k) s = execVtopk vd va vb t k s := rfl
@[simp] theorem exec_vpushc (va : VReg) (kc : KReg) (t : VTy) (x : SReg) (s : State) :
    exec (.vpushc va kc t x) s = execVpushc va kc t x s := rfl
@[simp] theorem exec_vpopc (vd : VReg) (t : VTy) (x : SReg) (s : State) :
    exec (.vpopc vd t x) s = execVpopc vd t x s := rfl
@[simp] theorem exec_kand (d : KReg) (a : KReg) (b : KReg) (s : State) :
    exec (.kand d a b) s = execKand d a b s := rfl
@[simp] theorem exec_kor (d : KReg) (a : KReg) (b : KReg) (s : State) :
    exec (.kor d a b) s = execKor d a b s := rfl
@[simp] theorem exec_kxor (d : KReg) (a : KReg) (b : KReg) (s : State) :
    exec (.kxor d a b) s = execKxor d a b s := rfl
@[simp] theorem exec_knot (d : KReg) (a : KReg) (s : State) :
    exec (.knot d a) s = execKnot d a s := rfl
@[simp] theorem exec_kcnt (x : SReg) (a : KReg) (s : State) :
    exec (.kcnt x a) s = execKcnt x a s := rfl
@[simp] theorem exec_kmovToMask (d : KReg) (x : SReg) (s : State) :
    exec (.kmovToMask d x) s = execKmovToMask d x s := rfl
@[simp] theorem exec_kmovFromMask (x : SReg) (a : KReg) (s : State) :
    exec (.kmovFromMask x a) s = execKmovFromMask x a s := rfl
@[simp] theorem exec_tzero (d : TileOp) (s : State) :
    exec (.tzero d) s = execTzero d s := rfl
@[simp] theorem exec_tmov (d : TileOp) (a : TileOp) (s : State) :
    exec (.tmov d a) s = execTmov d a s := rfl
@[simp] theorem exec_tfromv (d : TileOp) (z : Bool) (s : State) :
    exec (.tfromv d z) s = execTfromv d z s := rfl
@[simp] theorem exec_ttov (a : TileOp) (z : Bool) (s : State) :
    exec (.ttov a z) s = execTtov a z s := rfl
@[simp] theorem exec_tlds (d : TileOp) (c : SReg) (s : State) :
    exec (.tlds d c) s = execTlds d c s := rfl
@[simp] theorem exec_tsts (a : TileOp) (c : SReg) (s : State) :
    exec (.tsts a c) s = execTsts a c s := rfl
@[simp] theorem exec_tsta (a : TileOp) (c : SReg) (mask : SReg) (s : State) :
    exec (.tsta a c mask) s = execTsta a c mask s := rfl
@[simp] theorem exec_tgath (d : TileOp) (a : TileOp) (c : SReg) (mask : SReg) (s : State) :
    exec (.tgath d a c mask) s = execTgath d a c mask s := rfl
@[simp] theorem exec_tadd (d : TileOp) (a : TileOp) (b : TileOp) (m : TMode) (s : State) :
    exec (.tadd d a b m) s = execTadd d a b m s := rfl
@[simp] theorem exec_tmul (d : TileOp) (a : TileOp) (b : TileOp) (m : TMode) (s : State) :
    exec (.tmul d a b m) s = execTmul d a b m s := rfl
@[simp] theorem exec_tmax (d : TileOp) (a : TileOp) (b : TileOp) (m : TMode) (s : State) :
    exec (.tmax d a b m) s = execTmax d a b m s := rfl
@[simp] theorem exec_tscal (d : TileOp) (a : TileOp) (b : TileOp) (m : TMode) (s : State) :
    exec (.tscal d a b m) s = execTscal d a b m s := rfl
@[simp] theorem exec_ttrn (d : TileOp) (a : TileOp) (s : State) :
    exec (.ttrn d a) s = execTtrn d a s := rfl
@[simp] theorem exec_tred (d : TileOp) (a : TileOp) (m : TMode) (s : State) :
    exec (.tred d a m) s = execTred d a m s := rfl
@[simp] theorem exec_tacc (d : TileOp) (a : TileOp) (c : TileOp) (z : Bool) (m : TMode) (s : State) :
    exec (.tacc d a c z m) s = execTacc d a c z m s := rfl
@[simp] theorem exec_mmbi (d : TileOp) (a : TileOp) (b : TileOp) (c : TileOp) (z : Bool) (m : TMode) (s : State) :
    exec (.mmbi d a b c z m) s = execMmbi d a b c z m s := rfl
@[simp] theorem exec_mmf (d : TileOp) (a : TileOp) (b : TileOp) (c : TileOp) (z : Bool) (m : TMode) (s : State) :
    exec (.mmf d a b c z m) s = execMmf d a b c z m s := rfl
@[simp] theorem exec_mmf32 (d : TileOp) (a : TileOp) (b : TileOp) (c : TileOp) (z : Bool) (m : TMode) (s : State) :
    exec (.mmf32 d a b c z m) s = execMmf32 d a b c z m s := rfl
@[simp] theorem exec_mmd (d : TileOp) (a : TileOp) (b : TileOp) (c : TileOp) (z : Bool) (m : TMode) (s : State) :
    exec (.mmd d a b c z m) s = execMmd d a b c z m s := rfl
@[simp] theorem exec_tcvt (d : TileOp) (a : TileOp) (tag : BitVec 8) (part : Fin 4) (merge : Bool) (sat : Bool) (m : TMode) (s : State) :
    exec (.tcvt d a tag part merge sat m) s = execTcvt d a tag part merge sat m s := rfl
@[simp] theorem exec_tcvtPageAppend (d : TileOp) (a : TileOp) (tag : BitVec 8) (slot : Fin 16) (sat : Bool) (m : TMode) (s : State) :
    exec (.tcvtPageAppend d a tag slot sat m) s = execTcvtPageAppend d a tag slot sat m s := rfl
@[simp] theorem exec_br (off : BitVec 34) (s : State) :
    exec (.br off) s = execBr off s := rfl
@[simp] theorem exec_jmp (a : SReg) (off : BitVec 34) (s : State) :
    exec (.jmp a off) s = execJmp a off s := rfl
@[simp] theorem exec_call (off : BitVec 34) (s : State) :
    exec (.call off) s = execCall off s := rfl
@[simp] theorem exec_ret (s : State) :
    exec .ret s = execRet s := rfl
@[simp] theorem exec_loop (a : SReg) (off : BitVec 34) (s : State) :
    exec (.loop a off) s = execLoop a off s := rfl
@[simp] theorem exec_rep (a : SReg) (s : State) :
    exec (.rep a) s = execRep a s := rfl
@[simp] theorem exec_syncm (mask : BitVec 4) (s : State) :
    exec (.syncm mask) s = execSyncm mask s := rfl
@[simp] theorem exec_waitt (a : SReg) (s : State) :
    exec (.waitt a) s = execWaitt a s := rfl
@[simp] theorem exec_mark (m : BitVec 32) (s : State) :
    exec (.mark m) s = execMark m s := rfl
@[simp] theorem exec_timed (a : SReg) (off : BitVec 34) (s : State) :
    exec (.timed a off) s = execTimed a off s := rfl
@[simp] theorem exec_exit (s : State) :
    exec .exit s = execExit s := rfl
@[simp] theorem exec_mfc (d : SReg) (cr : BitVec 12) (s : State) :
    exec (.mfc d cr) s = execMfc d cr s := rfl
@[simp] theorem exec_mtc (a : SReg) (cr : BitVec 12) (s : State) :
    exec (.mtc a cr) s = execMtc a cr s := rfl
@[simp] theorem exec_mtcTcmp (a : SReg) (s : State) :
    exec (.mtcTcmp a) s = execMtcTcmp a s := rfl
@[simp] theorem exec_mtcSstat (a : SReg) (s : State) :
    exec (.mtcSstat a) s = execMtcSstat a s := rfl
@[simp] theorem exec_trap (code : BitVec 22) (s : State) :
    exec (.trap code) s = execTrap code s := rfl
@[simp] theorem exec_eret (s : State) :
    exec .eret s = execEret s := rfl
@[simp] theorem exec_fenceh (s : State) :
    exec .fenceh s = execFenceh s := rfl
@[simp] theorem exec_waiti (mask : BitVec 8) (s : State) :
    exec (.waiti mask) s = execWaiti mask s := rfl
@[simp] theorem exec_seed (n : Fin 2) (a : SReg) (s : State) :
    exec (.seed n a) s = execSeed n a s := rfl
@[simp] theorem exec_tlbinv (a : SReg) (scope : Fin 4) (s : State) :
    exec (.tlbinv a scope) s = execTlbinv a scope s := rfl
@[simp] theorem exec_banksv (bank : Fin 16) (kind : Fin 4) (s : State) :
    exec (.banksv bank kind) s = execBanksv bank kind s := rfl
@[simp] theorem exec_bankld (bank : Fin 16) (kind : Fin 4) (s : State) :
    exec (.bankld bank kind) s = execBankld bank kind s := rfl
@[simp] theorem exec_pcmd (a : SReg) (s : State) :
    exec (.pcmd a) s = execPcmd a s := rfl
@[simp] theorem exec_copy (t : SReg) (f : SReg) (ch : Fin 4) (geo : Geo) (adv : Bool) (s : State) :
    exec (.copy t f ch geo adv) s = execCopy t f ch geo adv s := rfl
@[simp] theorem exec_copytIn (t : SReg) (f : SReg) (ch : Fin 4) (item : TileOp) (tag : BitVec 8) (img : Bool) (bo : Fin 16) (geo : Geo) (adv : Bool) (s : State) :
    exec (.copytIn t f ch item tag img bo geo adv) s = execCopytIn t f ch item tag img bo geo adv s := rfl
@[simp] theorem exec_copytOut (t : SReg) (f : SReg) (ch : Fin 4) (item : TileOp) (img : Bool) (geo : Geo) (adv : Bool) (s : State) :
    exec (.copytOut t f ch item img geo adv) s = execCopytOut t f ch item img geo adv s := rfl
@[simp] theorem exec_copytXfer (t : SReg) (ch : Fin 4) (item : TileOp) (src : TileOp) (bo : Fin 16) (adv : Bool) (s : State) :
    exec (.copytXfer t ch item src bo adv) s = execCopytXfer t ch item src bo adv s := rfl
@[simp] theorem exec_cwait (t : SReg) (ch : Fin 4) (s : State) :
    exec (.cwait t ch) s = execCwait t ch s := rfl
@[simp] theorem exec_cstat (t : SReg) (f : SReg) (ch : Fin 4) (s : State) :
    exec (.cstat t f ch) s = execCstat t f ch s := rfl
@[simp] theorem exec_prefL2 (f : SReg) (len1 : BitVec 12) (s : State) :
    exec (.prefL2 f len1) s = execPrefL2 f len1 s := rfl
@[simp] theorem exec_prefLease (f : SReg) (len1 : BitVec 12) (s : State) :
    exec (.prefLease f len1) s = execPrefLease f len1 s := rfl
@[simp] theorem exec_prefDemote (f : SReg) (len1 : BitVec 12) (s : State) :
    exec (.prefDemote f len1) s = execPrefDemote f len1 s := rfl
@[simp] theorem exec_mwait (p : PReg) (all : Bool) (chans : BitVec 4) (mbox : Bool) (s : State) :
    exec (.mwait p all chans mbox) s = execMwait p all chans mbox s := rfl
@[simp] theorem exec_syncIssue (b : Nat) (mask : BitVec 4) (s : State) :
    exec (.syncIssue b mask) s = execSyncIssue b mask s := rfl
@[simp] theorem exec_perform (b : Nat) (w : Nat) (s : State) :
    exec (.perform b w) s = execPerform b w s := rfl
@[simp] theorem exec_deliver (b : Nat) (w : Nat) (k : Nat) (s : State) :
    exec (.deliver b w k) s = execDeliver b w k s := rfl
@[simp] theorem exec_latchLand (b : Nat) (w : Nat) (s : State) :
    exec (.latchLand b w) s = execLatchLand b w s := rfl
@[simp] theorem exec_tileDataComplete (core : Nat) (matrix : Bool) (s : State) :
    exec (.tileDataComplete core matrix) s = execTileDataComplete core matrix s := rfl
@[simp] theorem exec_nantrap (b : Nat) (w : Nat) (s : State) :
    exec (.nantrap b w) s = execNantrap b w s := rfl
@[simp] theorem exec_longUnitComplete (b : Nat) (w : Nat) (s : State) :
    exec (.longUnitComplete b w) s = execLongUnitComplete b w s := rfl
@[simp] theorem exec_trapEntry (b : Nat) (w : Nat) (s : State) :
    exec (.trapEntry b w) s = execTrapEntry b w s := rfl
@[simp] theorem exec_timerCompare (b : Nat) (w : Nat) (s : State) :
    exec (.timerCompare b w) s = execTimerCompare b w s := rfl
@[simp] theorem exec_interruptAccept (b : Nat) (w : Nat) (s : State) :
    exec (.interruptAccept b w) s = execInterruptAccept b w s := rfl
@[simp] theorem exec_tslipt (b : Nat) (w : Nat) (s : State) :
    exec (.tslipt b w) s = execTslipt b w s := rfl
@[simp] theorem exec_take (b : Nat) (port : Fin 4) (s : State) :
    exec (.take b port) s = execTake b port s := rfl
@[simp] theorem exec_post (b : Nat) (port : Fin 4) (s : State) :
    exec (.post b port) s = execPost b port s := rfl
@[simp] theorem exec_copyRead (b : Nat) (ch : Fin 5) (id : Nat) (s : State) :
    exec (.copyRead b ch id) s = execCopyRead b ch id s := rfl
@[simp] theorem exec_dataRead (b : Nat) (ch : Fin 5) (id : Nat) (n : Nat) (s : State) :
    exec (.dataRead b ch id n) s = execDataRead b ch id n s := rfl
@[simp] theorem exec_dataWrite (b : Nat) (ch : Fin 5) (id : Nat) (n : Nat) (s : State) :
    exec (.dataWrite b ch id n) s = execDataWrite b ch id n s := rfl
@[simp] theorem exec_copyWrite (b : Nat) (ch : Fin 5) (id : Nat) (s : State) :
    exec (.copyWrite b ch id) s = execCopyWrite b ch id s := rfl
@[simp] theorem exec_remoteWriteArrival (b : Nat) (ch : Fin 4) (id : Nat) (s : State) :
    exec (.remoteWriteArrival b ch id) s = execRemoteWriteArrival b ch id s := rfl
@[simp] theorem exec_remoteResend (b : Nat) (ch : Fin 4) (s : State) :
    exec (.remoteResend b ch) s = execRemoteResend b ch s := rfl
@[simp] theorem exec_transferComplete (b : Nat) (ch : Fin 5) (id : Nat) (s : State) :
    exec (.transferComplete b ch id) s = execTransferComplete b ch id s := rfl
@[simp] theorem exec_mpTrap (b : Nat) (s : State) :
    exec (.mpTrap b) s = execMpTrap b s := rfl
@[simp] theorem exec_mpResume (b : Nat) (s : State) :
    exec (.mpResume b) s = execMpResume b s := rfl
@[simp] theorem exec_bankClaim (b : Nat) (kind : Fin 3) (bank : Nat) (s : State) :
    exec (.bankClaim b kind bank) s = execBankClaim b kind bank s := rfl
@[simp] theorem exec_preempt (part : Nat) (s : State) :
    exec (.preempt part) s = execPreempt part s := rfl
@[simp] theorem exec_blockPlace (part : Nat) (s : State) :
    exec (.blockPlace part) s = execBlockPlace part s := rfl
@[simp] theorem exec_blockResume (core : Nat) (s : State) :
    exec (.blockResume core) s = execBlockResume core s := rfl
@[simp] theorem exec_weldTick (part : Nat) (s : State) :
    exec (.weldTick part) s = execWeldTick part s := rfl
@[simp] theorem exec_walkerPost (b : Nat) (s : State) :
    exec (.walkerPost b) s = execWalkerPost b s := rfl
@[simp] theorem exec_reportTake (b : Nat) (s : State) :
    exec (.reportTake b) s = execReportTake b s := rfl
@[simp] theorem exec_fill (launch : Nat) (pidx : Nat) (s : State) :
    exec (.fill launch pidx) s = execFill launch pidx s := rfl
@[simp] theorem exec_coverageUpdate (launch : Nat) (s : State) :
    exec (.coverageUpdate launch) s = execCoverageUpdate launch s := rfl
@[simp] theorem exec_launchRetire (launch : Nat) (s : State) :
    exec (.launchRetire launch) s = execLaunchRetire launch s := rfl
@[simp] theorem exec_homeReturn (b : Nat) (s : State) :
    exec (.homeReturn b) s = execHomeReturn b s := rfl
@[simp] theorem exec_migrate (b : Nat) (s : State) :
    exec (.migrate b) s = execMigrate b s := rfl
@[simp] theorem exec_operatorReplay (b : Nat) (s : State) :
    exec (.operatorReplay b) s = execOperatorReplay b s := rfl
@[simp] theorem exec_builtInTestPass (core : Nat) (s : State) :
    exec (.builtInTestPass core) s = execBuiltInTestPass core s := rfl
@[simp] theorem exec_sliceEnd (part : Nat) (s : State) :
    exec (.sliceEnd part) s = execSliceEnd part s := rfl
@[simp] theorem exec_sliceOvershootTimeout (b : Nat) (s : State) :
    exec (.sliceOvershootTimeout b) s = execSliceOvershootTimeout b s := rfl
@[simp] theorem exec_coreFault (core : Nat) (fcode : BitVec 8) (s : State) :
    exec (.coreFault core fcode) s = execCoreFault core fcode s := rfl
@[simp] theorem exec_correctedError (core : Nat) (s : State) :
    exec (.correctedError core) s = execCorrectedError core s := rfl
@[simp] theorem exec_scrub (pa : Nat) (s : State) :
    exec (.scrub pa) s = execScrub pa s := rfl
@[simp] theorem exec_dramUncorrectable (pa : Nat) (s : State) :
    exec (.dramUncorrectable pa) s = execDramUncorrectable pa s := rfl
@[simp] theorem exec_clusterFault (g : Nat) (s : State) :
    exec (.clusterFault g) s = execClusterFault g s := rfl
@[simp] theorem exec_walkEntryRead (b : Nat) (w : Nat) (s : State) :
    exec (.walkEntryRead b w) s = execWalkEntryRead b w s := rfl
@[simp] theorem exec_walkComplete (b : Nat) (w : Nat) (s : State) :
    exec (.walkComplete b w) s = execWalkComplete b w s := rfl
@[simp] theorem exec_leaseLapse (core : Nat) (line : Nat) (s : State) :
    exec (.leaseLapse core line) s = execLeaseLapse core line s := rfl
@[simp] theorem exec_hostMemRead (pa : Nat) (s : State) :
    exec (.hostMemRead pa) s = execHostMemRead pa s := rfl
@[simp] theorem exec_hostMemWrite (pa : Nat) (data : List Byte) (enables : List Bool) (poison : Bool) (s : State) :
    exec (.hostMemWrite pa data enables poison) s = execHostMemWrite pa data enables poison s := rfl
@[simp] theorem exec_qkick (fn : Fn) (q : Fin 4) (k : Word) (s : State) :
    exec (.qkick fn q k) s = execQkick fn q k s := rfl
@[simp] theorem exec_qctlWrite (pf0 : Bool) (fn : Fn) (q : Fin 4) (v : Word) (s : State) :
    exec (.qctlWrite pf0 fn q v) s = execQctlWrite pf0 fn q v s := rfl
@[simp] theorem exec_barRegWrite (fn : Fn) (off : Nat) (v : Word) (s : State) :
    exec (.barRegWrite fn off v) s = execBarRegWrite fn off v s := rfl
@[simp] theorem exec_seqRead (fn : Fn) (q : Fin 4) (s : State) :
    exec (.seqRead fn q) s = execSeqRead fn q s := rfl
@[simp] theorem exec_seqReread (fn : Fn) (q : Fin 4) (s : State) :
    exec (.seqReread fn q) s = execSeqReread fn q s := rfl
@[simp] theorem exec_seqTimeout (fn : Fn) (q : Fin 4) (s : State) :
    exec (.seqTimeout fn q) s = execSeqTimeout fn q s := rfl
@[simp] theorem exec_nopPacket (fn : Fn) (q : Fin 4) (s : State) :
    exec (.nopPacket fn q) s = execNopPacket fn q s := rfl
@[simp] theorem exec_loadPacket (fn : Fn) (q : Fin 4) (s : State) :
    exec (.loadPacket fn q) s = execLoadPacket fn q s := rfl
@[simp] theorem exec_loadComplete (part : Nat) (slot : Nat) (s : State) :
    exec (.loadComplete part slot) s = execLoadComplete part slot s := rfl
@[simp] theorem exec_launchPacket (fn : Fn) (q : Fin 4) (s : State) :
    exec (.launchPacket fn q) s = execLaunchPacket fn q s := rfl
@[simp] theorem exec_evictPacket (fn : Fn) (q : Fin 4) (s : State) :
    exec (.evictPacket fn q) s = execEvictPacket fn q s := rfl
@[simp] theorem exec_evictComplete (part : Nat) (slot : Nat) (s : State) :
    exec (.evictComplete part slot) s = execEvictComplete part slot s := rfl
@[simp] theorem exec_madderReload (s : State) :
    exec .madderReload s = execMadderReload s := rfl
@[simp] theorem exec_windowLock (part : Nat) (win : Fin 16) (s : State) :
    exec (.windowLock part win) s = execWindowLock part win s := rfl
@[simp] theorem exec_hypkeyLock (key : List Byte) (s : State) :
    exec (.hypkeyLock key) s = execHypkeyLock key s := rfl
@[simp] theorem exec_p1rootWrite (v : Word) (s : State) :
    exec (.p1rootWrite v) s = execP1rootWrite v s := rfl
@[simp] theorem exec_fabidWrite (v : Word) (s : State) :
    exec (.fabidWrite v) s = execFabidWrite v s := rfl
@[simp] theorem exec_pcCreate (s : State) :
    exec .pcCreate s = execPcCreate s := rfl
@[simp] theorem exec_pcDestroy (s : State) :
    exec .pcDestroy s = execPcDestroy s := rfl
@[simp] theorem exec_pcSetquota (s : State) :
    exec .pcSetquota s = execPcSetquota s := rfl
@[simp] theorem exec_pcMapvf (s : State) :
    exec .pcMapvf s = execPcMapvf s := rfl
@[simp] theorem exec_pcSettable (s : State) :
    exec .pcSettable s = execPcSettable s := rfl
@[simp] theorem exec_pcReset (s : State) :
    exec .pcReset s = execPcReset s := rfl
@[simp] theorem exec_pcSetisa (s : State) :
    exec .pcSetisa s = execPcSetisa s := rfl
@[simp] theorem exec_fresetQueue (fn : Fn) (part : Nat) (q : Fin 4) (s : State) :
    exec (.fresetQueue fn part q) s = execFresetQueue fn part q s := rfl
@[simp] theorem exec_fresetContext (fn : Fn) (part : Nat) (seq : Nat) (q : Fin 4) (s : State) :
    exec (.fresetContext fn part seq q) s = execFresetContext fn part seq q s := rfl
@[simp] theorem exec_fresetEngine (fn : Fn) (part : Nat) (s : State) :
    exec (.fresetEngine fn part) s = execFresetEngine fn part s := rfl
@[simp] theorem exec_fresetPartition (fn : Fn) (part : Nat) (s : State) :
    exec (.fresetPartition fn part) s = execFresetPartition fn part s := rfl
@[simp] theorem exec_fresetDevice (fn : Fn) (s : State) :
    exec (.fresetDevice fn) s = execFresetDevice fn s := rfl
@[simp] theorem exec_rungComplete (n : Nat) (s : State) :
    exec (.rungComplete n) s = execRungComplete n s := rfl
@[simp] theorem exec_rungEscalate (n : Nat) (s : State) :
    exec (.rungEscalate n) s = execRungEscalate n s := rfl
@[simp] theorem exec_powerOn (s : State) :
    exec .powerOn s = execPowerOn s := rfl
@[simp] theorem exec_phaseComplete (s : State) :
    exec .phaseComplete s = execPhaseComplete s := rfl
@[simp] theorem exec_phaseTimeout (s : State) :
    exec .phaseTimeout s = execPhaseTimeout s := rfl
@[simp] theorem exec_governorWindow (power : List Nat) (s : State) :
    exec (.governorWindow power) s = execGovernorWindow power s := rfl
@[simp] theorem exec_packageStepDown (power : List Nat) (s : State) :
    exec (.packageStepDown power) s = execPackageStepDown power s := rfl
@[simp] theorem exec_deferralExpire (island : Nat) (s : State) :
    exec (.deferralExpire island) s = execDeferralExpire island s := rfl
@[simp] theorem exec_thermalThrottle (island : Nat) (s : State) :
    exec (.thermalThrottle island) s = execThermalThrottle island s := rfl
@[simp] theorem exec_thermalPartitionRung (s : State) :
    exec .thermalPartitionRung s = execThermalPartitionRung s := rfl
@[simp] theorem exec_thermalTrip (s : State) :
    exec .thermalTrip s = execThermalTrip s := rfl
@[simp] theorem exec_timebaseReceiverLoss (die : Nat) (s : State) :
    exec (.timebaseReceiverLoss die) s = execTimebaseReceiverLoss die s := rfl
@[simp] theorem exec_umberUncorrectable (b : Nat) (s : State) :
    exec (.umberUncorrectable b) s = execUmberUncorrectable b s := rfl
@[simp] theorem exec_flitReceive (link : Fin 16) (f : Flit) (s : State) :
    exec (.flitReceive link f) s = execFlitReceive link f s := rfl
@[simp] theorem exec_flitResend (link : Fin 16) (fromSeq : Nat) (s : State) :
    exec (.flitResend link fromSeq) s = execFlitResend link fromSeq s := rfl
@[simp] theorem exec_linkRetrain (link : Fin 16) (s : State) :
    exec (.linkRetrain link) s = execLinkRetrain link s := rfl
@[simp] theorem exec_retrainComplete (link : Fin 16) (ok : Bool) (s : State) :
    exec (.retrainComplete link ok) s = execRetrainComplete link ok s := rfl
@[simp] theorem exec_remoteRequest (r : RemoteReq) (s : State) :
    exec (.remoteRequest r) s = execRemoteRequest r s := rfl
@[simp] theorem exec_remoteRouteTimeout (part : Nat) (pkg : Nat) (s : State) :
    exec (.remoteRouteTimeout part pkg) s = execRemoteRouteTimeout part pkg s := rfl
@[simp] theorem exec_timeSyncFlit (link : Fin 16) (count : Word) (s : State) :
    exec (.timeSyncFlit link count) s = execTimeSyncFlit link count s := rfl
@[simp] theorem exec_timesyncLoss (s : State) :
    exec .timesyncLoss s = execTimesyncLoss s := rfl
@[simp] theorem exec_collectiveStart (group : Nat) (tag : Nat) (s : State) :
    exec (.collectiveStart group tag) s = execCollectiveStart group tag s := rfl
@[simp] theorem exec_collectiveComplete (group : Nat) (tag : Nat) (s : State) :
    exec (.collectiveComplete group tag) s = execCollectiveComplete group tag s := rfl
@[simp] theorem exec_pldmRequest (r : Nat) (s : State) :
    exec (.pldmRequest r) s = execPldmRequest r s := rfl
@[simp] theorem exec_spdmRequest (r : Nat) (s : State) :
    exec (.spdmRequest r) s = execSpdmRequest r s := rfl
@[simp] theorem exec_powerRemoval (s : State) :
    exec .powerRemoval s = execPowerRemoval s := rfl
@[simp] theorem exec_linkTraining (link : Fin 16) (s : State) :
    exec (.linkTraining link) s = execLinkTraining link s := rfl
@[simp] theorem exec_madderReloadEnd (s : State) :
    exec .madderReloadEnd s = execMadderReloadEnd s := rfl
@[simp] theorem exec_thermalLaunchHoldEnd (s : State) :
    exec .thermalLaunchHoldEnd s = execThermalLaunchHoldEnd s := rfl

end Sys2Proof.Machine
end

