-- ==== Sys2Proof/Laws/Memory.lean ====
section
/-! SUPPORT. What a read of a memory gives after a write, and that every memory operation keeps the canonical form. -/

namespace Sys2Proof.Machine

/-! ## Reading after writing -/

/-- A list whose addresses start at `lo` reads as unlisted below it. -/
theorem Memory.read_below : ∀ (m : Memory) (lo a : Nat), Memory.wfFrom lo m = true → a < lo → m.read a = unlisted
  | [], _, _, _, _ => rfl
  | (k, b) :: r, lo, a, h, ha => by
    simp only [Memory.wfFrom, Bool.and_eq_true, decide_eq_true_eq] at h
    have h1 : ¬ k = a := by omega
    have h2 : a < k := by omega
    simp [Memory.read, h1, h2]

theorem Memory.wfFrom_mono : ∀ (m : Memory) (lo lo' : Nat), lo' ≤ lo → Memory.wfFrom lo m = true → Memory.wfFrom lo' m = true
  | [], _, _, _, _ => rfl
  | (k, b) :: r, lo, lo', hl, h => by
    simp only [Memory.wfFrom, Bool.and_eq_true, decide_eq_true_eq] at h ⊢
    exact ⟨⟨by omega, h.1.2⟩, h.2⟩

/-- A write gives a canonical list, whose addresses start no lower than before or at the address written. -/
theorem Memory.write_wfFrom : ∀ (m : Memory) (lo a : Nat) (b : Byte), lo ≤ a → Memory.wfFrom lo m = true →
    Memory.wfFrom lo (m.write a b) = true
  | [], lo, a, b, hl, _ => by
    by_cases hb : b = unlisted <;> simp [Memory.write, Memory.wfFrom, hb, hl]
  | (k, c) :: r, lo, a, b, hl, h => by
    simp only [Memory.wfFrom, Bool.and_eq_true, decide_eq_true_eq] at h
    obtain ⟨⟨h1, h2⟩, h3⟩ := h
    by_cases hk : k < a
    · simp only [Memory.write, hk, if_true, Memory.wfFrom, Bool.and_eq_true, decide_eq_true_eq]
      exact ⟨⟨h1, h2⟩, Memory.write_wfFrom r (k + 1) a b (by omega) h3⟩
    · by_cases he : k = a
      · subst he
        by_cases hb : b = unlisted
        · simp only [Memory.write, hk, if_false, hb, if_true]
          exact Memory.wfFrom_mono r (k + 1) lo (by omega) h3
        · simp [Memory.write, hb, Memory.wfFrom, h1, h3]
      · by_cases hb : b = unlisted
        · simp [Memory.write, hk, he, hb, Memory.wfFrom, h1, h2, h3]
        · have h4 : a + 1 ≤ k := by omega
          simp [Memory.write, hk, he, hb, Memory.wfFrom, hl, h2, h3, h4]

theorem Memory.write_wf (m : Memory) (a : Nat) (b : Byte) (h : m.wf = true) : (m.write a b).wf = true :=
  Memory.write_wfFrom m 0 a b (Nat.zero_le a) h

/-- A read of the address written gives the byte, and a read of any other address gives what it gave. -/
theorem Memory.read_write_from : ∀ (m : Memory) (lo a : Nat) (b : Byte) (x : Nat), Memory.wfFrom lo m = true →
    (m.write a b).read x = if x = a then b else m.read x
  | [], lo, a, b, x, _ => by
    by_cases hb : b = unlisted <;> by_cases hx : x = a
    · simp [Memory.write, Memory.read, hb, hx]
    · simp [Memory.write, Memory.read, hb, hx]
    · simp [Memory.write, Memory.read, hb, hx]
    · have : ¬ a = x := fun h => hx h.symm
      simp [Memory.write, Memory.read, hb, hx, this]
  | (k, c) :: r, lo, a, b, x, h => by
    simp only [Memory.wfFrom, Bool.and_eq_true, decide_eq_true_eq] at h
    obtain ⟨⟨h1, h2⟩, h3⟩ := h
    by_cases hk : k < a
    · simp only [Memory.write, hk, if_true, Memory.read]
      rw [Memory.read_write_from r (k + 1) a b x h3]
      by_cases hx : x = a
      · have h5 : ¬ k = a := by omega
        have h6 : ¬ a < k := by omega
        rw [if_pos hx, if_pos hx, hx, if_neg h5, if_neg h6]
      · rw [if_neg hx, if_neg hx]
    · by_cases he : k = a
      · subst he
        by_cases hb : b = unlisted
        · simp only [Memory.write, hk, if_false, hb, if_true]
          by_cases hx : x = k
          · rw [if_pos hx, hx, Memory.read_below r (k + 1) k h3 (by omega)]
          · rw [if_neg hx]
            simp only [Memory.read, show ¬ k = x from fun h => hx h.symm, if_false]
            by_cases hl : x < k
            · rw [if_pos hl, Memory.read_below r (k + 1) x h3 (by omega)]
            · rw [if_neg hl]
        · simp only [Memory.write, hk, if_false, if_true, hb, Memory.read]
          by_cases hx : x = k
          · simp [hx]
          · simp [hx, show ¬ k = x from fun h => hx h.symm]
      · by_cases hb : b = unlisted
        · simp only [Memory.write, hk, he, if_false, hb, if_true]
          by_cases hx : x = a
          · rw [if_pos hx, hx]
            simp [Memory.read, he, show a < k by omega]
          · rw [if_neg hx]
        · simp only [Memory.write, hk, he, if_false, hb, Memory.read]
          by_cases hx : x = a
          · simp [hx]
          · have h7 : ¬ a = x := fun h => hx h.symm
            simp only [h7, if_false, hx]
            by_cases hl : x < a
            · simp [hl, show ¬ k = x by omega, show x < k by omega]
            · simp [hl]

theorem Memory.read_write (m : Memory) (a : Nat) (b : Byte) (x : Nat) (h : m.wf = true) :
    (m.write a b).read x = if x = a then b else m.read x := Memory.read_write_from m 0 a b x h

theorem Memory.wf_nil : Memory.wf [] = true := rfl

/-- The canonical form survives a restriction of the list. -/
theorem Memory.filter_wfFrom (f : Host.Cell → Bool) : ∀ (m : Memory) (lo : Nat), Memory.wfFrom lo m = true →
    Memory.wfFrom lo (m.filter f) = true
  | [], _, _ => rfl
  | (k, b) :: r, lo, h => by
    simp only [Memory.wfFrom, Bool.and_eq_true, decide_eq_true_eq] at h
    obtain ⟨⟨h1, h2⟩, h3⟩ := h
    have ih := Memory.filter_wfFrom f r (k + 1) h3
    by_cases hf : f (k, b) = true
    · simp only [List.filter_cons, hf, if_true, Memory.wfFrom, Bool.and_eq_true, decide_eq_true_eq]
      exact ⟨⟨h1, h2⟩, ih⟩
    · simp only [List.filter_cons, hf]
      exact Memory.wfFrom_mono _ (k + 1) lo (by omega) ih

/-! ## Sets of granules -/

theorem natSetFrom_mono : ∀ (l : List Nat) (lo lo' : Nat), lo' ≤ lo → natSetFrom lo l = true → natSetFrom lo' l = true
  | [], _, _, _, _ => rfl
  | k :: r, lo, lo', hl, h => by
    simp only [natSetFrom, Bool.and_eq_true, decide_eq_true_eq] at h ⊢
    exact ⟨by omega, h.2⟩

theorem natInsert_set : ∀ (l : List Nat) (lo a : Nat), lo ≤ a → natSetFrom lo l = true → natSetFrom lo (natInsert l a) = true
  | [], lo, a, hl, _ => by simp [natInsert, natSetFrom, hl]
  | k :: r, lo, a, hl, h => by
    simp only [natSetFrom, Bool.and_eq_true, decide_eq_true_eq] at h
    by_cases hk : k < a
    · simp [natInsert, hk, natSetFrom, h.1, natInsert_set r (k + 1) a (by omega) h.2]
    · by_cases he : k = a
      · subst he
        simp [natInsert, natSetFrom, h.2, hl]
      · have : a + 1 ≤ k := by omega
        simp [natInsert, hk, he, natSetFrom, h.2, hl, this]

theorem natErase_set : ∀ (l : List Nat) (lo a : Nat), natSetFrom lo l = true → natSetFrom lo (natErase l a) = true
  | [], _, _, _ => rfl
  | k :: r, lo, a, h => by
    simp only [natSetFrom, Bool.and_eq_true, decide_eq_true_eq] at h
    by_cases he : k = a
    · simp only [natErase, he, if_true]
      exact natSetFrom_mono r (k + 1) lo (by omega) h.2
    · by_cases hk : a < k
      · simp [natErase, he, hk, natSetFrom, h.1, h.2]
      · simp [natErase, he, hk, natSetFrom, h.1, natErase_set r (k + 1) a h.2]

theorem natSet_below : ∀ (l : List Nat) (lo a : Nat), natSetFrom lo l = true → a < lo → a ∉ l
  | [], _, _, _, _ => by simp
  | k :: r, lo, a, h, ha => by
    simp only [natSetFrom, Bool.and_eq_true, decide_eq_true_eq] at h
    have h1 := natSet_below r (k + 1) a h.2 (by omega)
    have h2 : ¬ a = k := by omega
    simp [h1, h2]

theorem mem_natInsert : ∀ (l : List Nat) (a x : Nat), x ∈ natInsert l a ↔ x = a ∨ x ∈ l
  | [], a, x => by simp [natInsert]
  | k :: r, a, x => by
    by_cases hk : k < a
    · simp only [natInsert, hk, if_true, List.mem_cons, mem_natInsert r a x]
      tauto
    · by_cases he : k = a
      · subst he
        simp [natInsert]
      · simp [natInsert, hk, he]

theorem mem_natErase : ∀ (l : List Nat) (lo a x : Nat), natSetFrom lo l = true → (x ∈ natErase l a ↔ x ≠ a ∧ x ∈ l)
  | [], _, a, x, _ => by simp [natErase]
  | k :: r, lo, a, x, h => by
    simp only [natSetFrom, Bool.and_eq_true, decide_eq_true_eq] at h
    have hb := natSet_below r (k + 1)
    by_cases he : k = a
    · subst he
      simp only [natErase, if_true, List.mem_cons]
      have h1 : k ∉ r := hb k h.2 (by omega)
      constructor
      · intro hx
        exact ⟨fun e => h1 (e ▸ hx), .inr hx⟩
      · rintro ⟨hn, e | e⟩
        · exact absurd e hn
        · exact e
    · by_cases hk : a < k
      · simp only [natErase, he, hk, if_true, if_false, List.mem_cons]
        have h1 : a ∉ r := hb a h.2 (by omega)
        constructor
        · rintro (e | e)
          · exact ⟨by omega, .inl e⟩
          · exact ⟨fun e' => h1 (e' ▸ e), .inr e⟩
        · exact fun e => e.2
      · simp only [natErase, he, hk, if_false, List.mem_cons, mem_natErase r (k + 1) a x h.2]
        constructor
        · rintro (e | e)
          · exact ⟨by omega, .inl e⟩
          · exact ⟨e.1, .inr e.2⟩
        · rintro ⟨hn, e | e⟩
          · exact .inl e
          · exact .inr ⟨hn, e⟩

/-! ## Stores -/

@[simp] theorem Store.wf_empty : Store.empty.wf = true := rfl

theorem Store.setByte_wf (m : Store) (a : Nat) (b : Byte) (h : m.wf = true) : (m.setByte a b).wf = true := by
  simp only [Store.wf, Bool.and_eq_true] at h ⊢
  exact ⟨Memory.write_wf m.cells a b h.1, h.2⟩

theorem Store.setGranule_wf (m : Store) (g : Nat) (p : Bool) (h : m.wf = true) : (m.setGranule g p).wf = true := by
  simp only [Store.wf, Bool.and_eq_true] at h ⊢
  refine ⟨h.1, ?_⟩
  cases p
  · simpa [Store.setGranule] using natErase_set m.poison 0 g h.2
  · simpa [Store.setGranule] using natInsert_set m.poison 0 g (Nat.zero_le g) h.2

theorem Store.writeLE_wf : ∀ (n : Nat) (m : Store) (a v : Nat), m.wf = true → (m.writeLE a n v).wf = true
  | 0, _, _, _, h => h
  | n + 1, m, a, v, h => Store.writeLE_wf n _ (a + 1) (v / 256) (Store.setByte_wf m a _ h)

theorem Store.setGranules_wf : ∀ (n : Nat) (m : Store) (g : Nat) (p : Bool), m.wf = true → (m.setGranules g p n).wf = true
  | 0, _, _, _, h => h
  | n + 1, m, g, p, h => Store.setGranules_wf n _ (g + 1) p (Store.setGranule_wf m g p h)

theorem Store.writeWords_wf (m : Store) (a n v : Nat) (p : Bool) (h : m.wf = true) : (m.writeWords a n v p).wf = true :=
  Store.setGranules_wf n _ _ _ (Store.writeLE_wf (4 * n) m a v h)

theorem Store.writeByte_wf (m : Store) (a : Nat) (b : Byte) (h : m.wf = true) : (m.writeByte a b).wf = true :=
  Store.setGranule_wf _ _ _ (Store.setByte_wf m a b h)

theorem Store.writeLanes_wf : ∀ (n : Nat) (m : Store) (a mask v : Nat) (p : Bool) (i : Nat), m.wf = true →
    (m.writeLanes a mask v p n i).wf = true
  | 0, _, _, _, _, _, _, h => h
  | n + 1, m, a, mask, v, p, i, h => by
    simp only [Store.writeLanes]
    refine Store.writeLanes_wf n _ a mask v p (i + 1) ?_
    split
    · exact Store.writeWords_wf _ _ _ _ _ h
    · exact h

/-- A byte after a byte is written. -/
theorem Store.byte_setByte (m : Store) (a : Nat) (b : Byte) (x : Nat) (h : m.wf = true) :
    (m.setByte a b).byte x = if x = a then b else m.byte x := by
  simp only [Store.wf, Bool.and_eq_true] at h
  exact Memory.read_write m.cells a b x h.1

@[simp] theorem Store.byte_setGranule (m : Store) (g : Nat) (p : Bool) (x : Nat) :
    (m.setGranule g p).byte x = m.byte x := rfl

@[simp] theorem Store.byte_setGranules : ∀ (n : Nat) (m : Store) (g : Nat) (p : Bool) (x : Nat),
    (m.setGranules g p n).byte x = m.byte x
  | 0, _, _, _, _ => rfl
  | n + 1, m, g, p, x => by simp [Store.setGranules, Store.byte_setGranules n]

/-- The bytes after `n` bytes are written: byte i of the value at a + i, and every other as it was. -/
theorem Store.byte_writeLE : ∀ (n : Nat) (m : Store) (a v x : Nat), m.wf = true →
    (m.writeLE a n v).byte x =
      if a ≤ x ∧ x < a + n then BitVec.ofNat 8 (v / 256 ^ (x - a)) else m.byte x
  | 0, m, a, v, x, _ => by
    rw [if_neg (by omega)]
    rfl
  | n + 1, m, a, v, x, h => by
    simp only [Store.writeLE]
    rw [Store.byte_writeLE n _ (a + 1) (v / 256) x (Store.setByte_wf m a _ h), Store.byte_setByte m a _ x h]
    by_cases hx : x = a
    · subst hx
      rw [if_neg (by omega), if_pos rfl, if_pos (by omega)]
      simp
    · by_cases hin : a + 1 ≤ x ∧ x < a + 1 + n
      · rw [if_pos hin, if_pos (by omega), Nat.div_div_eq_div_mul, ← Nat.pow_succ']
        congr 3
        omega
      · rw [if_neg hin, if_neg hx, if_neg (by omega)]

/-- The bytes after `n` granules are written. -/
theorem Store.byte_writeWords (m : Store) (a n v : Nat) (p : Bool) (x : Nat) (h : m.wf = true) :
    (m.writeWords a n v p).byte x =
      if a ≤ x ∧ x < a + 4 * n then BitVec.ofNat 8 (v / 256 ^ (x - a)) else m.byte x := by
  simp only [Store.writeWords, Store.byte_setGranules]
  exact Store.byte_writeLE (4 * n) m a v x h

@[simp] theorem Store.granule_setByte (m : Store) (a : Nat) (b : Byte) (g : Nat) : (m.setByte a b).granule g = m.granule g := rfl

@[simp] theorem Store.granule_writeLE : ∀ (n : Nat) (m : Store) (a v g : Nat), (m.writeLE a n v).granule g = m.granule g
  | 0, _, _, _, _ => rfl
  | n + 1, m, a, v, g => by simp [Store.writeLE, Store.granule_writeLE n]

/-- A granule's poison after one granule's poison is set. -/
theorem Store.granule_setGranule (m : Store) (g : Nat) (p : Bool) (x : Nat) (h : m.wf = true) :
    (m.setGranule g p).granule x = if x = g then p else m.granule x := by
  simp only [Store.wf, Bool.and_eq_true] at h
  rw [Bool.eq_iff_iff]
  cases p <;> by_cases hx : x = g <;>
    simp [Store.granule, Store.setGranule, hx, mem_natErase m.poison 0 g _ h.2, mem_natInsert]

end Sys2Proof.Machine
end

