-- ==== Sys2Proof/Laws/State.lean ====
section
/-! SUPPORT. One lemma for each field of State and each named update of it, so that no proof unfolds an update. -/

namespace Sys2Proof.Machine

@[simp] theorem State.setAg_ag (s : State) (a : Agent) : (s.setAg a).ag = a := rfl
@[simp] theorem State.setAg_blk (s : State) (a : Agent) : (s.setAg a).blk = s.blk := rfl
@[simp] theorem State.setAg_cur (s : State) (a : Agent) : (s.setAg a).cur = s.cur := rfl
@[simp] theorem State.setAg_blocks (s : State) (a : Agent) : (s.setAg a).blocks = s.blocks := rfl
@[simp] theorem State.setAg_cores (s : State) (a : Agent) : (s.setAg a).cores = s.cores := rfl
@[simp] theorem State.setAg_mem (s : State) (a : Agent) : (s.setAg a).mem = s.mem := rfl
@[simp] theorem State.setAg_time (s : State) (a : Agent) : (s.setAg a).time = s.time := rfl
@[simp] theorem State.setAg_receivers (s : State) (a : Agent) : (s.setAg a).receivers = s.receivers := rfl
@[simp] theorem State.setAg_hostLines (s : State) (a : Agent) : (s.setAg a).hostLines = s.hostLines := rfl
@[simp] theorem State.setAg_holds (s : State) (a : Agent) : (s.setAg a).holds = s.holds := rfl
@[simp] theorem State.setAg_parts (s : State) (a : Agent) : (s.setAg a).parts = s.parts := rfl
@[simp] theorem State.setAg_launches (s : State) (a : Agent) : (s.setAg a).launches = s.launches := rfl
@[simp] theorem State.setAg_nextLaunch (s : State) (a : Agent) : (s.setAg a).nextLaunch = s.nextLaunch := rfl
@[simp] theorem State.setAg_nextBlock (s : State) (a : Agent) : (s.setAg a).nextBlock = s.nextBlock := rfl
@[simp] theorem State.setAg_requests (s : State) (a : Agent) : (s.setAg a).requests = s.requests := rfl
@[simp] theorem State.setAg_queues (s : State) (a : Agent) : (s.setAg a).queues = s.queues := rfl
@[simp] theorem State.setAg_vfmap (s : State) (a : Agent) : (s.setAg a).vfmap = s.vfmap := rfl
@[simp] theorem State.setAg_completions (s : State) (a : Agent) : (s.setAg a).completions = s.completions := rfl
@[simp] theorem State.setAg_pcmds (s : State) (a : Agent) : (s.setAg a).pcmds = s.pcmds := rfl
@[simp] theorem State.setAg_capDue (s : State) (a : Agent) : (s.setAg a).capDue = s.capDue := rfl
@[simp] theorem State.setAg_nonce (s : State) (a : Agent) : (s.setAg a).nonce = s.nonce := rfl
@[simp] theorem State.setAg_hypKey (s : State) (a : Agent) : (s.setAg a).hypKey = s.hypKey := rfl
@[simp] theorem State.setAg_hypLock (s : State) (a : Agent) : (s.setAg a).hypLock = s.hypLock := rfl
@[simp] theorem State.setAg_rungs (s : State) (a : Agent) : (s.setAg a).rungs = s.rungs := rfl
@[simp] theorem State.setAg_rungDone (s : State) (a : Agent) : (s.setAg a).rungDone = s.rungDone := rfl
@[simp] theorem State.setAg_reloading (s : State) (a : Agent) : (s.setAg a).reloading = s.reloading := rfl
@[simp] theorem State.setAg_latched (s : State) (a : Agent) : (s.setAg a).latched = s.latched := rfl
@[simp] theorem State.setAg_downClusters (s : State) (a : Agent) : (s.setAg a).downClusters = s.downClusters := rfl
@[simp] theorem State.setAg_dev (s : State) (a : Agent) : (s.setAg a).dev = s.dev := rfl
@[simp] theorem State.setAg_p1root (s : State) (a : Agent) : (s.setAg a).p1root = s.p1root := rfl
@[simp] theorem State.setAg_p1used (s : State) (a : Agent) : (s.setAg a).p1used = s.p1used := rfl
@[simp] theorem State.setAg_fabid (s : State) (a : Agent) : (s.setAg a).fabid = s.fabid := rfl
@[simp] theorem State.setAg_fabLock (s : State) (a : Agent) : (s.setAg a).fabLock = s.fabLock := rfl
@[simp] theorem State.setAg_froutes (s : State) (a : Agent) : (s.setAg a).froutes = s.froutes := rfl
@[simp] theorem State.setAg_exports (s : State) (a : Agent) : (s.setAg a).exports = s.exports := rfl
@[simp] theorem State.setAg_links (s : State) (a : Agent) : (s.setAg a).links = s.links := rfl
@[simp] theorem State.setAg_joined (s : State) (a : Agent) : (s.setAg a).joined = s.joined := rfl
@[simp] theorem State.setAg_synced (s : State) (a : Agent) : (s.setAg a).synced = s.synced := rfl
@[simp] theorem State.setAg_launched (s : State) (a : Agent) : (s.setAg a).launched = s.launched := rfl
@[simp] theorem State.setAg_lastSync (s : State) (a : Agent) : (s.setAg a).lastSync = s.lastSync := rfl
@[simp] theorem State.setAg_lastSlew (s : State) (a : Agent) : (s.setAg a).lastSlew = s.lastSlew := rfl
@[simp] theorem State.setAg_withheld (s : State) (a : Agent) : (s.setAg a).withheld = s.withheld := rfl
@[simp] theorem State.setAg_stalled (s : State) (a : Agent) : (s.setAg a).stalled = s.stalled := rfl
@[simp] theorem State.setAg_members (s : State) (a : Agent) : (s.setAg a).members = s.members := rfl
@[simp] theorem State.setAg_posts (s : State) (a : Agent) : (s.setAg a).posts = s.posts := rfl
@[simp] theorem State.setAg_islands (s : State) (a : Agent) : (s.setAg a).islands = s.islands := rfl
@[simp] theorem State.setAg_windowAt (s : State) (a : Agent) : (s.setAg a).windowAt = s.windowAt := rfl
@[simp] theorem State.setAg_stepAt (s : State) (a : Agent) : (s.setAg a).stepAt = s.stepAt := rfl
@[simp] theorem State.setAg_totals (s : State) (a : Agent) : (s.setAg a).totals = s.totals := rfl
@[simp] theorem State.setAg_thermalHold (s : State) (a : Agent) : (s.setAg a).thermalHold = s.thermalHold := rfl
@[simp] theorem State.setAg_corrected (s : State) (a : Agent) : (s.setAg a).corrected = s.corrected := rfl
@[simp] theorem State.setAg_mirrorReads (s : State) (a : Agent) : (s.setAg a).mirrorReads = s.mirrorReads := rfl
@[simp] theorem State.setAg_engWalks (s : State) (a : Agent) : (s.setAg a).engWalks = s.engWalks := rfl
@[simp] theorem State.setAg_walkQueue (s : State) (a : Agent) : (s.setAg a).walkQueue = s.walkQueue := rfl
@[simp] theorem State.setAg_served (s : State) (a : Agent) : (s.setAg a).served = s.served := rfl
@[simp] theorem State.setAg_unTaken (s : State) (a : Agent) : (s.setAg a).unTaken = s.unTaken := rfl
@[simp] theorem State.setAg_outgoing (s : State) (a : Agent) : (s.setAg a).outgoing = s.outgoing := rfl
@[simp] theorem State.setAg_lastSent (s : State) (a : Agent) : (s.setAg a).lastSent = s.lastSent := rfl
@[simp] theorem State.setAg_keptWindows (s : State) (a : Agent) : (s.setAg a).keptWindows = s.keptWindows := rfl
@[simp] theorem State.setAg_weldCounts (s : State) (a : Agent) : (s.setAg a).weldCounts = s.weldCounts := rfl
@[simp] theorem State.setAg_coolants (s : State) (a : Agent) : (s.setAg a).coolants = s.coolants := rfl
@[simp] theorem State.setAg_outbox (s : State) (a : Agent) : (s.setAg a).outbox = s.outbox := rfl
@[simp] theorem State.setAg_free (s : State) (a : Agent) : (s.setAg a).free = s.free := rfl
@[simp] theorem State.setAg_agenda (s : State) (a : Agent) : (s.setAg a).agenda = s.agenda := rfl
@[simp] theorem State.setAg_turn (s : State) (a : Agent) : (s.setAg a).turn = s.turn := rfl

@[simp] theorem State.setBlk_ag (s : State) (b : Block) : (s.setBlk b).ag = s.ag := rfl
@[simp] theorem State.setBlk_blk (s : State) (b : Block) : (s.setBlk b).blk = b := rfl
@[simp] theorem State.setBlk_cur (s : State) (b : Block) : (s.setBlk b).cur = s.cur := rfl
@[simp] theorem State.setBlk_blocks (s : State) (b : Block) : (s.setBlk b).blocks = s.blocks := rfl
@[simp] theorem State.setBlk_cores (s : State) (b : Block) : (s.setBlk b).cores = s.cores := rfl
@[simp] theorem State.setBlk_mem (s : State) (b : Block) : (s.setBlk b).mem = s.mem := rfl
@[simp] theorem State.setBlk_time (s : State) (b : Block) : (s.setBlk b).time = s.time := rfl
@[simp] theorem State.setBlk_receivers (s : State) (b : Block) : (s.setBlk b).receivers = s.receivers := rfl
@[simp] theorem State.setBlk_hostLines (s : State) (b : Block) : (s.setBlk b).hostLines = s.hostLines := rfl
@[simp] theorem State.setBlk_holds (s : State) (b : Block) : (s.setBlk b).holds = s.holds := rfl
@[simp] theorem State.setBlk_parts (s : State) (b : Block) : (s.setBlk b).parts = s.parts := rfl
@[simp] theorem State.setBlk_launches (s : State) (b : Block) : (s.setBlk b).launches = s.launches := rfl
@[simp] theorem State.setBlk_nextLaunch (s : State) (b : Block) : (s.setBlk b).nextLaunch = s.nextLaunch := rfl
@[simp] theorem State.setBlk_nextBlock (s : State) (b : Block) : (s.setBlk b).nextBlock = s.nextBlock := rfl
@[simp] theorem State.setBlk_requests (s : State) (b : Block) : (s.setBlk b).requests = s.requests := rfl
@[simp] theorem State.setBlk_queues (s : State) (b : Block) : (s.setBlk b).queues = s.queues := rfl
@[simp] theorem State.setBlk_vfmap (s : State) (b : Block) : (s.setBlk b).vfmap = s.vfmap := rfl
@[simp] theorem State.setBlk_completions (s : State) (b : Block) : (s.setBlk b).completions = s.completions := rfl
@[simp] theorem State.setBlk_pcmds (s : State) (b : Block) : (s.setBlk b).pcmds = s.pcmds := rfl
@[simp] theorem State.setBlk_capDue (s : State) (b : Block) : (s.setBlk b).capDue = s.capDue := rfl
@[simp] theorem State.setBlk_nonce (s : State) (b : Block) : (s.setBlk b).nonce = s.nonce := rfl
@[simp] theorem State.setBlk_hypKey (s : State) (b : Block) : (s.setBlk b).hypKey = s.hypKey := rfl
@[simp] theorem State.setBlk_hypLock (s : State) (b : Block) : (s.setBlk b).hypLock = s.hypLock := rfl
@[simp] theorem State.setBlk_rungs (s : State) (b : Block) : (s.setBlk b).rungs = s.rungs := rfl
@[simp] theorem State.setBlk_rungDone (s : State) (b : Block) : (s.setBlk b).rungDone = s.rungDone := rfl
@[simp] theorem State.setBlk_reloading (s : State) (b : Block) : (s.setBlk b).reloading = s.reloading := rfl
@[simp] theorem State.setBlk_latched (s : State) (b : Block) : (s.setBlk b).latched = s.latched := rfl
@[simp] theorem State.setBlk_downClusters (s : State) (b : Block) : (s.setBlk b).downClusters = s.downClusters := rfl
@[simp] theorem State.setBlk_dev (s : State) (b : Block) : (s.setBlk b).dev = s.dev := rfl
@[simp] theorem State.setBlk_p1root (s : State) (b : Block) : (s.setBlk b).p1root = s.p1root := rfl
@[simp] theorem State.setBlk_p1used (s : State) (b : Block) : (s.setBlk b).p1used = s.p1used := rfl
@[simp] theorem State.setBlk_fabid (s : State) (b : Block) : (s.setBlk b).fabid = s.fabid := rfl
@[simp] theorem State.setBlk_fabLock (s : State) (b : Block) : (s.setBlk b).fabLock = s.fabLock := rfl
@[simp] theorem State.setBlk_froutes (s : State) (b : Block) : (s.setBlk b).froutes = s.froutes := rfl
@[simp] theorem State.setBlk_exports (s : State) (b : Block) : (s.setBlk b).exports = s.exports := rfl
@[simp] theorem State.setBlk_links (s : State) (b : Block) : (s.setBlk b).links = s.links := rfl
@[simp] theorem State.setBlk_joined (s : State) (b : Block) : (s.setBlk b).joined = s.joined := rfl
@[simp] theorem State.setBlk_synced (s : State) (b : Block) : (s.setBlk b).synced = s.synced := rfl
@[simp] theorem State.setBlk_launched (s : State) (b : Block) : (s.setBlk b).launched = s.launched := rfl
@[simp] theorem State.setBlk_lastSync (s : State) (b : Block) : (s.setBlk b).lastSync = s.lastSync := rfl
@[simp] theorem State.setBlk_lastSlew (s : State) (b : Block) : (s.setBlk b).lastSlew = s.lastSlew := rfl
@[simp] theorem State.setBlk_withheld (s : State) (b : Block) : (s.setBlk b).withheld = s.withheld := rfl
@[simp] theorem State.setBlk_stalled (s : State) (b : Block) : (s.setBlk b).stalled = s.stalled := rfl
@[simp] theorem State.setBlk_members (s : State) (b : Block) : (s.setBlk b).members = s.members := rfl
@[simp] theorem State.setBlk_posts (s : State) (b : Block) : (s.setBlk b).posts = s.posts := rfl
@[simp] theorem State.setBlk_islands (s : State) (b : Block) : (s.setBlk b).islands = s.islands := rfl
@[simp] theorem State.setBlk_windowAt (s : State) (b : Block) : (s.setBlk b).windowAt = s.windowAt := rfl
@[simp] theorem State.setBlk_stepAt (s : State) (b : Block) : (s.setBlk b).stepAt = s.stepAt := rfl
@[simp] theorem State.setBlk_totals (s : State) (b : Block) : (s.setBlk b).totals = s.totals := rfl
@[simp] theorem State.setBlk_thermalHold (s : State) (b : Block) : (s.setBlk b).thermalHold = s.thermalHold := rfl
@[simp] theorem State.setBlk_corrected (s : State) (b : Block) : (s.setBlk b).corrected = s.corrected := rfl
@[simp] theorem State.setBlk_mirrorReads (s : State) (b : Block) : (s.setBlk b).mirrorReads = s.mirrorReads := rfl
@[simp] theorem State.setBlk_engWalks (s : State) (b : Block) : (s.setBlk b).engWalks = s.engWalks := rfl
@[simp] theorem State.setBlk_walkQueue (s : State) (b : Block) : (s.setBlk b).walkQueue = s.walkQueue := rfl
@[simp] theorem State.setBlk_served (s : State) (b : Block) : (s.setBlk b).served = s.served := rfl
@[simp] theorem State.setBlk_unTaken (s : State) (b : Block) : (s.setBlk b).unTaken = s.unTaken := rfl
@[simp] theorem State.setBlk_outgoing (s : State) (b : Block) : (s.setBlk b).outgoing = s.outgoing := rfl
@[simp] theorem State.setBlk_lastSent (s : State) (b : Block) : (s.setBlk b).lastSent = s.lastSent := rfl
@[simp] theorem State.setBlk_keptWindows (s : State) (b : Block) : (s.setBlk b).keptWindows = s.keptWindows := rfl
@[simp] theorem State.setBlk_weldCounts (s : State) (b : Block) : (s.setBlk b).weldCounts = s.weldCounts := rfl
@[simp] theorem State.setBlk_coolants (s : State) (b : Block) : (s.setBlk b).coolants = s.coolants := rfl
@[simp] theorem State.setBlk_outbox (s : State) (b : Block) : (s.setBlk b).outbox = s.outbox := rfl
@[simp] theorem State.setBlk_free (s : State) (b : Block) : (s.setBlk b).free = s.free := rfl
@[simp] theorem State.setBlk_agenda (s : State) (b : Block) : (s.setBlk b).agenda = s.agenda := rfl
@[simp] theorem State.setBlk_turn (s : State) (b : Block) : (s.setBlk b).turn = s.turn := rfl

@[simp] theorem State.setCtl_ag (s : State) (c : Ctl) : (s.setCtl c).ag = { s.ag with ctl := c } := rfl
@[simp] theorem State.setCtl_blk (s : State) (c : Ctl) : (s.setCtl c).blk = s.blk := rfl
@[simp] theorem State.setCtl_cur (s : State) (c : Ctl) : (s.setCtl c).cur = s.cur := rfl
@[simp] theorem State.setCtl_blocks (s : State) (c : Ctl) : (s.setCtl c).blocks = s.blocks := rfl
@[simp] theorem State.setCtl_cores (s : State) (c : Ctl) : (s.setCtl c).cores = s.cores := rfl
@[simp] theorem State.setCtl_mem (s : State) (c : Ctl) : (s.setCtl c).mem = s.mem := rfl
@[simp] theorem State.setCtl_time (s : State) (c : Ctl) : (s.setCtl c).time = s.time := rfl
@[simp] theorem State.setCtl_receivers (s : State) (c : Ctl) : (s.setCtl c).receivers = s.receivers := rfl
@[simp] theorem State.setCtl_hostLines (s : State) (c : Ctl) : (s.setCtl c).hostLines = s.hostLines := rfl
@[simp] theorem State.setCtl_holds (s : State) (c : Ctl) : (s.setCtl c).holds = s.holds := rfl
@[simp] theorem State.setCtl_parts (s : State) (c : Ctl) : (s.setCtl c).parts = s.parts := rfl
@[simp] theorem State.setCtl_launches (s : State) (c : Ctl) : (s.setCtl c).launches = s.launches := rfl
@[simp] theorem State.setCtl_nextLaunch (s : State) (c : Ctl) : (s.setCtl c).nextLaunch = s.nextLaunch := rfl
@[simp] theorem State.setCtl_nextBlock (s : State) (c : Ctl) : (s.setCtl c).nextBlock = s.nextBlock := rfl
@[simp] theorem State.setCtl_requests (s : State) (c : Ctl) : (s.setCtl c).requests = s.requests := rfl
@[simp] theorem State.setCtl_queues (s : State) (c : Ctl) : (s.setCtl c).queues = s.queues := rfl
@[simp] theorem State.setCtl_vfmap (s : State) (c : Ctl) : (s.setCtl c).vfmap = s.vfmap := rfl
@[simp] theorem State.setCtl_completions (s : State) (c : Ctl) : (s.setCtl c).completions = s.completions := rfl
@[simp] theorem State.setCtl_pcmds (s : State) (c : Ctl) : (s.setCtl c).pcmds = s.pcmds := rfl
@[simp] theorem State.setCtl_capDue (s : State) (c : Ctl) : (s.setCtl c).capDue = s.capDue := rfl
@[simp] theorem State.setCtl_nonce (s : State) (c : Ctl) : (s.setCtl c).nonce = s.nonce := rfl
@[simp] theorem State.setCtl_hypKey (s : State) (c : Ctl) : (s.setCtl c).hypKey = s.hypKey := rfl
@[simp] theorem State.setCtl_hypLock (s : State) (c : Ctl) : (s.setCtl c).hypLock = s.hypLock := rfl
@[simp] theorem State.setCtl_rungs (s : State) (c : Ctl) : (s.setCtl c).rungs = s.rungs := rfl
@[simp] theorem State.setCtl_rungDone (s : State) (c : Ctl) : (s.setCtl c).rungDone = s.rungDone := rfl
@[simp] theorem State.setCtl_reloading (s : State) (c : Ctl) : (s.setCtl c).reloading = s.reloading := rfl
@[simp] theorem State.setCtl_latched (s : State) (c : Ctl) : (s.setCtl c).latched = s.latched := rfl
@[simp] theorem State.setCtl_downClusters (s : State) (c : Ctl) : (s.setCtl c).downClusters = s.downClusters := rfl
@[simp] theorem State.setCtl_dev (s : State) (c : Ctl) : (s.setCtl c).dev = s.dev := rfl
@[simp] theorem State.setCtl_p1root (s : State) (c : Ctl) : (s.setCtl c).p1root = s.p1root := rfl
@[simp] theorem State.setCtl_p1used (s : State) (c : Ctl) : (s.setCtl c).p1used = s.p1used := rfl
@[simp] theorem State.setCtl_fabid (s : State) (c : Ctl) : (s.setCtl c).fabid = s.fabid := rfl
@[simp] theorem State.setCtl_fabLock (s : State) (c : Ctl) : (s.setCtl c).fabLock = s.fabLock := rfl
@[simp] theorem State.setCtl_froutes (s : State) (c : Ctl) : (s.setCtl c).froutes = s.froutes := rfl
@[simp] theorem State.setCtl_exports (s : State) (c : Ctl) : (s.setCtl c).exports = s.exports := rfl
@[simp] theorem State.setCtl_links (s : State) (c : Ctl) : (s.setCtl c).links = s.links := rfl
@[simp] theorem State.setCtl_joined (s : State) (c : Ctl) : (s.setCtl c).joined = s.joined := rfl
@[simp] theorem State.setCtl_synced (s : State) (c : Ctl) : (s.setCtl c).synced = s.synced := rfl
@[simp] theorem State.setCtl_launched (s : State) (c : Ctl) : (s.setCtl c).launched = s.launched := rfl
@[simp] theorem State.setCtl_lastSync (s : State) (c : Ctl) : (s.setCtl c).lastSync = s.lastSync := rfl
@[simp] theorem State.setCtl_lastSlew (s : State) (c : Ctl) : (s.setCtl c).lastSlew = s.lastSlew := rfl
@[simp] theorem State.setCtl_withheld (s : State) (c : Ctl) : (s.setCtl c).withheld = s.withheld := rfl
@[simp] theorem State.setCtl_stalled (s : State) (c : Ctl) : (s.setCtl c).stalled = s.stalled := rfl
@[simp] theorem State.setCtl_members (s : State) (c : Ctl) : (s.setCtl c).members = s.members := rfl
@[simp] theorem State.setCtl_posts (s : State) (c : Ctl) : (s.setCtl c).posts = s.posts := rfl
@[simp] theorem State.setCtl_islands (s : State) (c : Ctl) : (s.setCtl c).islands = s.islands := rfl
@[simp] theorem State.setCtl_windowAt (s : State) (c : Ctl) : (s.setCtl c).windowAt = s.windowAt := rfl
@[simp] theorem State.setCtl_stepAt (s : State) (c : Ctl) : (s.setCtl c).stepAt = s.stepAt := rfl
@[simp] theorem State.setCtl_totals (s : State) (c : Ctl) : (s.setCtl c).totals = s.totals := rfl
@[simp] theorem State.setCtl_thermalHold (s : State) (c : Ctl) : (s.setCtl c).thermalHold = s.thermalHold := rfl
@[simp] theorem State.setCtl_corrected (s : State) (c : Ctl) : (s.setCtl c).corrected = s.corrected := rfl
@[simp] theorem State.setCtl_mirrorReads (s : State) (c : Ctl) : (s.setCtl c).mirrorReads = s.mirrorReads := rfl
@[simp] theorem State.setCtl_engWalks (s : State) (c : Ctl) : (s.setCtl c).engWalks = s.engWalks := rfl
@[simp] theorem State.setCtl_walkQueue (s : State) (c : Ctl) : (s.setCtl c).walkQueue = s.walkQueue := rfl
@[simp] theorem State.setCtl_served (s : State) (c : Ctl) : (s.setCtl c).served = s.served := rfl
@[simp] theorem State.setCtl_unTaken (s : State) (c : Ctl) : (s.setCtl c).unTaken = s.unTaken := rfl
@[simp] theorem State.setCtl_outgoing (s : State) (c : Ctl) : (s.setCtl c).outgoing = s.outgoing := rfl
@[simp] theorem State.setCtl_lastSent (s : State) (c : Ctl) : (s.setCtl c).lastSent = s.lastSent := rfl
@[simp] theorem State.setCtl_keptWindows (s : State) (c : Ctl) : (s.setCtl c).keptWindows = s.keptWindows := rfl
@[simp] theorem State.setCtl_weldCounts (s : State) (c : Ctl) : (s.setCtl c).weldCounts = s.weldCounts := rfl
@[simp] theorem State.setCtl_coolants (s : State) (c : Ctl) : (s.setCtl c).coolants = s.coolants := rfl
@[simp] theorem State.setCtl_outbox (s : State) (c : Ctl) : (s.setCtl c).outbox = s.outbox := rfl
@[simp] theorem State.setCtl_free (s : State) (c : Ctl) : (s.setCtl c).free = s.free := rfl
@[simp] theorem State.setCtl_agenda (s : State) (c : Ctl) : (s.setCtl c).agenda = s.agenda := rfl
@[simp] theorem State.setCtl_turn (s : State) (c : Ctl) : (s.setCtl c).turn = s.turn := rfl

@[simp] theorem State.setDisp_ag (s : State) (d : Disp) : (s.setDisp d).ag = s.ag := rfl
@[simp] theorem State.setDisp_blk (s : State) (d : Disp) : (s.setDisp d).blk = s.blk := rfl
@[simp] theorem State.setDisp_cur (s : State) (d : Disp) : (s.setDisp d).cur = { s.cur with disp := d } := rfl
@[simp] theorem State.setDisp_blocks (s : State) (d : Disp) : (s.setDisp d).blocks = s.blocks := rfl
@[simp] theorem State.setDisp_cores (s : State) (d : Disp) : (s.setDisp d).cores = s.cores := rfl
@[simp] theorem State.setDisp_mem (s : State) (d : Disp) : (s.setDisp d).mem = s.mem := rfl
@[simp] theorem State.setDisp_time (s : State) (d : Disp) : (s.setDisp d).time = s.time := rfl
@[simp] theorem State.setDisp_receivers (s : State) (d : Disp) : (s.setDisp d).receivers = s.receivers := rfl
@[simp] theorem State.setDisp_hostLines (s : State) (d : Disp) : (s.setDisp d).hostLines = s.hostLines := rfl
@[simp] theorem State.setDisp_holds (s : State) (d : Disp) : (s.setDisp d).holds = s.holds := rfl
@[simp] theorem State.setDisp_parts (s : State) (d : Disp) : (s.setDisp d).parts = s.parts := rfl
@[simp] theorem State.setDisp_launches (s : State) (d : Disp) : (s.setDisp d).launches = s.launches := rfl
@[simp] theorem State.setDisp_nextLaunch (s : State) (d : Disp) : (s.setDisp d).nextLaunch = s.nextLaunch := rfl
@[simp] theorem State.setDisp_nextBlock (s : State) (d : Disp) : (s.setDisp d).nextBlock = s.nextBlock := rfl
@[simp] theorem State.setDisp_requests (s : State) (d : Disp) : (s.setDisp d).requests = s.requests := rfl
@[simp] theorem State.setDisp_queues (s : State) (d : Disp) : (s.setDisp d).queues = s.queues := rfl
@[simp] theorem State.setDisp_vfmap (s : State) (d : Disp) : (s.setDisp d).vfmap = s.vfmap := rfl
@[simp] theorem State.setDisp_completions (s : State) (d : Disp) : (s.setDisp d).completions = s.completions := rfl
@[simp] theorem State.setDisp_pcmds (s : State) (d : Disp) : (s.setDisp d).pcmds = s.pcmds := rfl
@[simp] theorem State.setDisp_capDue (s : State) (d : Disp) : (s.setDisp d).capDue = s.capDue := rfl
@[simp] theorem State.setDisp_nonce (s : State) (d : Disp) : (s.setDisp d).nonce = s.nonce := rfl
@[simp] theorem State.setDisp_hypKey (s : State) (d : Disp) : (s.setDisp d).hypKey = s.hypKey := rfl
@[simp] theorem State.setDisp_hypLock (s : State) (d : Disp) : (s.setDisp d).hypLock = s.hypLock := rfl
@[simp] theorem State.setDisp_rungs (s : State) (d : Disp) : (s.setDisp d).rungs = s.rungs := rfl
@[simp] theorem State.setDisp_rungDone (s : State) (d : Disp) : (s.setDisp d).rungDone = s.rungDone := rfl
@[simp] theorem State.setDisp_reloading (s : State) (d : Disp) : (s.setDisp d).reloading = s.reloading := rfl
@[simp] theorem State.setDisp_latched (s : State) (d : Disp) : (s.setDisp d).latched = s.latched := rfl
@[simp] theorem State.setDisp_downClusters (s : State) (d : Disp) : (s.setDisp d).downClusters = s.downClusters := rfl
@[simp] theorem State.setDisp_dev (s : State) (d : Disp) : (s.setDisp d).dev = s.dev := rfl
@[simp] theorem State.setDisp_p1root (s : State) (d : Disp) : (s.setDisp d).p1root = s.p1root := rfl
@[simp] theorem State.setDisp_p1used (s : State) (d : Disp) : (s.setDisp d).p1used = s.p1used := rfl
@[simp] theorem State.setDisp_fabid (s : State) (d : Disp) : (s.setDisp d).fabid = s.fabid := rfl
@[simp] theorem State.setDisp_fabLock (s : State) (d : Disp) : (s.setDisp d).fabLock = s.fabLock := rfl
@[simp] theorem State.setDisp_froutes (s : State) (d : Disp) : (s.setDisp d).froutes = s.froutes := rfl
@[simp] theorem State.setDisp_exports (s : State) (d : Disp) : (s.setDisp d).exports = s.exports := rfl
@[simp] theorem State.setDisp_links (s : State) (d : Disp) : (s.setDisp d).links = s.links := rfl
@[simp] theorem State.setDisp_joined (s : State) (d : Disp) : (s.setDisp d).joined = s.joined := rfl
@[simp] theorem State.setDisp_synced (s : State) (d : Disp) : (s.setDisp d).synced = s.synced := rfl
@[simp] theorem State.setDisp_launched (s : State) (d : Disp) : (s.setDisp d).launched = s.launched := rfl
@[simp] theorem State.setDisp_lastSync (s : State) (d : Disp) : (s.setDisp d).lastSync = s.lastSync := rfl
@[simp] theorem State.setDisp_lastSlew (s : State) (d : Disp) : (s.setDisp d).lastSlew = s.lastSlew := rfl
@[simp] theorem State.setDisp_withheld (s : State) (d : Disp) : (s.setDisp d).withheld = s.withheld := rfl
@[simp] theorem State.setDisp_stalled (s : State) (d : Disp) : (s.setDisp d).stalled = s.stalled := rfl
@[simp] theorem State.setDisp_members (s : State) (d : Disp) : (s.setDisp d).members = s.members := rfl
@[simp] theorem State.setDisp_posts (s : State) (d : Disp) : (s.setDisp d).posts = s.posts := rfl
@[simp] theorem State.setDisp_islands (s : State) (d : Disp) : (s.setDisp d).islands = s.islands := rfl
@[simp] theorem State.setDisp_windowAt (s : State) (d : Disp) : (s.setDisp d).windowAt = s.windowAt := rfl
@[simp] theorem State.setDisp_stepAt (s : State) (d : Disp) : (s.setDisp d).stepAt = s.stepAt := rfl
@[simp] theorem State.setDisp_totals (s : State) (d : Disp) : (s.setDisp d).totals = s.totals := rfl
@[simp] theorem State.setDisp_thermalHold (s : State) (d : Disp) : (s.setDisp d).thermalHold = s.thermalHold := rfl
@[simp] theorem State.setDisp_corrected (s : State) (d : Disp) : (s.setDisp d).corrected = s.corrected := rfl
@[simp] theorem State.setDisp_mirrorReads (s : State) (d : Disp) : (s.setDisp d).mirrorReads = s.mirrorReads := rfl
@[simp] theorem State.setDisp_engWalks (s : State) (d : Disp) : (s.setDisp d).engWalks = s.engWalks := rfl
@[simp] theorem State.setDisp_walkQueue (s : State) (d : Disp) : (s.setDisp d).walkQueue = s.walkQueue := rfl
@[simp] theorem State.setDisp_served (s : State) (d : Disp) : (s.setDisp d).served = s.served := rfl
@[simp] theorem State.setDisp_unTaken (s : State) (d : Disp) : (s.setDisp d).unTaken = s.unTaken := rfl
@[simp] theorem State.setDisp_outgoing (s : State) (d : Disp) : (s.setDisp d).outgoing = s.outgoing := rfl
@[simp] theorem State.setDisp_lastSent (s : State) (d : Disp) : (s.setDisp d).lastSent = s.lastSent := rfl
@[simp] theorem State.setDisp_keptWindows (s : State) (d : Disp) : (s.setDisp d).keptWindows = s.keptWindows := rfl
@[simp] theorem State.setDisp_weldCounts (s : State) (d : Disp) : (s.setDisp d).weldCounts = s.weldCounts := rfl
@[simp] theorem State.setDisp_coolants (s : State) (d : Disp) : (s.setDisp d).coolants = s.coolants := rfl
@[simp] theorem State.setDisp_outbox (s : State) (d : Disp) : (s.setDisp d).outbox = s.outbox := rfl
@[simp] theorem State.setDisp_free (s : State) (d : Disp) : (s.setDisp d).free = s.free := rfl
@[simp] theorem State.setDisp_agenda (s : State) (d : Disp) : (s.setDisp d).agenda = s.agenda := rfl
@[simp] theorem State.setDisp_turn (s : State) (d : Disp) : (s.setDisp d).turn = s.turn := rfl

@[simp] theorem State.issued_ag (s : State) : (s.issued).ag = s.ag := rfl
@[simp] theorem State.issued_blk (s : State) : (s.issued).blk = s.blk := rfl
@[simp] theorem State.issued_cur (s : State) : (s.issued).cur = { s.cur with disp := .issued } := rfl
@[simp] theorem State.issued_blocks (s : State) : (s.issued).blocks = s.blocks := rfl
@[simp] theorem State.issued_cores (s : State) : (s.issued).cores = s.cores := rfl
@[simp] theorem State.issued_mem (s : State) : (s.issued).mem = s.mem := rfl
@[simp] theorem State.issued_time (s : State) : (s.issued).time = s.time := rfl
@[simp] theorem State.issued_receivers (s : State) : (s.issued).receivers = s.receivers := rfl
@[simp] theorem State.issued_hostLines (s : State) : (s.issued).hostLines = s.hostLines := rfl
@[simp] theorem State.issued_holds (s : State) : (s.issued).holds = s.holds := rfl
@[simp] theorem State.issued_parts (s : State) : (s.issued).parts = s.parts := rfl
@[simp] theorem State.issued_launches (s : State) : (s.issued).launches = s.launches := rfl
@[simp] theorem State.issued_nextLaunch (s : State) : (s.issued).nextLaunch = s.nextLaunch := rfl
@[simp] theorem State.issued_nextBlock (s : State) : (s.issued).nextBlock = s.nextBlock := rfl
@[simp] theorem State.issued_requests (s : State) : (s.issued).requests = s.requests := rfl
@[simp] theorem State.issued_queues (s : State) : (s.issued).queues = s.queues := rfl
@[simp] theorem State.issued_vfmap (s : State) : (s.issued).vfmap = s.vfmap := rfl
@[simp] theorem State.issued_completions (s : State) : (s.issued).completions = s.completions := rfl
@[simp] theorem State.issued_pcmds (s : State) : (s.issued).pcmds = s.pcmds := rfl
@[simp] theorem State.issued_capDue (s : State) : (s.issued).capDue = s.capDue := rfl
@[simp] theorem State.issued_nonce (s : State) : (s.issued).nonce = s.nonce := rfl
@[simp] theorem State.issued_hypKey (s : State) : (s.issued).hypKey = s.hypKey := rfl
@[simp] theorem State.issued_hypLock (s : State) : (s.issued).hypLock = s.hypLock := rfl
@[simp] theorem State.issued_rungs (s : State) : (s.issued).rungs = s.rungs := rfl
@[simp] theorem State.issued_rungDone (s : State) : (s.issued).rungDone = s.rungDone := rfl
@[simp] theorem State.issued_reloading (s : State) : (s.issued).reloading = s.reloading := rfl
@[simp] theorem State.issued_latched (s : State) : (s.issued).latched = s.latched := rfl
@[simp] theorem State.issued_downClusters (s : State) : (s.issued).downClusters = s.downClusters := rfl
@[simp] theorem State.issued_dev (s : State) : (s.issued).dev = s.dev := rfl
@[simp] theorem State.issued_p1root (s : State) : (s.issued).p1root = s.p1root := rfl
@[simp] theorem State.issued_p1used (s : State) : (s.issued).p1used = s.p1used := rfl
@[simp] theorem State.issued_fabid (s : State) : (s.issued).fabid = s.fabid := rfl
@[simp] theorem State.issued_fabLock (s : State) : (s.issued).fabLock = s.fabLock := rfl
@[simp] theorem State.issued_froutes (s : State) : (s.issued).froutes = s.froutes := rfl
@[simp] theorem State.issued_exports (s : State) : (s.issued).exports = s.exports := rfl
@[simp] theorem State.issued_links (s : State) : (s.issued).links = s.links := rfl
@[simp] theorem State.issued_joined (s : State) : (s.issued).joined = s.joined := rfl
@[simp] theorem State.issued_synced (s : State) : (s.issued).synced = s.synced := rfl
@[simp] theorem State.issued_launched (s : State) : (s.issued).launched = s.launched := rfl
@[simp] theorem State.issued_lastSync (s : State) : (s.issued).lastSync = s.lastSync := rfl
@[simp] theorem State.issued_lastSlew (s : State) : (s.issued).lastSlew = s.lastSlew := rfl
@[simp] theorem State.issued_withheld (s : State) : (s.issued).withheld = s.withheld := rfl
@[simp] theorem State.issued_stalled (s : State) : (s.issued).stalled = s.stalled := rfl
@[simp] theorem State.issued_members (s : State) : (s.issued).members = s.members := rfl
@[simp] theorem State.issued_posts (s : State) : (s.issued).posts = s.posts := rfl
@[simp] theorem State.issued_islands (s : State) : (s.issued).islands = s.islands := rfl
@[simp] theorem State.issued_windowAt (s : State) : (s.issued).windowAt = s.windowAt := rfl
@[simp] theorem State.issued_stepAt (s : State) : (s.issued).stepAt = s.stepAt := rfl
@[simp] theorem State.issued_totals (s : State) : (s.issued).totals = s.totals := rfl
@[simp] theorem State.issued_thermalHold (s : State) : (s.issued).thermalHold = s.thermalHold := rfl
@[simp] theorem State.issued_corrected (s : State) : (s.issued).corrected = s.corrected := rfl
@[simp] theorem State.issued_mirrorReads (s : State) : (s.issued).mirrorReads = s.mirrorReads := rfl
@[simp] theorem State.issued_engWalks (s : State) : (s.issued).engWalks = s.engWalks := rfl
@[simp] theorem State.issued_walkQueue (s : State) : (s.issued).walkQueue = s.walkQueue := rfl
@[simp] theorem State.issued_served (s : State) : (s.issued).served = s.served := rfl
@[simp] theorem State.issued_unTaken (s : State) : (s.issued).unTaken = s.unTaken := rfl
@[simp] theorem State.issued_outgoing (s : State) : (s.issued).outgoing = s.outgoing := rfl
@[simp] theorem State.issued_lastSent (s : State) : (s.issued).lastSent = s.lastSent := rfl
@[simp] theorem State.issued_keptWindows (s : State) : (s.issued).keptWindows = s.keptWindows := rfl
@[simp] theorem State.issued_weldCounts (s : State) : (s.issued).weldCounts = s.weldCounts := rfl
@[simp] theorem State.issued_coolants (s : State) : (s.issued).coolants = s.coolants := rfl
@[simp] theorem State.issued_outbox (s : State) : (s.issued).outbox = s.outbox := rfl
@[simp] theorem State.issued_free (s : State) : (s.issued).free = s.free := rfl
@[simp] theorem State.issued_agenda (s : State) : (s.issued).agenda = s.agenda := rfl
@[simp] theorem State.issued_turn (s : State) : (s.issued).turn = s.turn := rfl

@[simp] theorem State.waits_ag (s : State) : (s.waits).ag = s.ag := rfl
@[simp] theorem State.waits_blk (s : State) : (s.waits).blk = s.blk := rfl
@[simp] theorem State.waits_cur (s : State) : (s.waits).cur = { s.cur with disp := .waits } := rfl
@[simp] theorem State.waits_blocks (s : State) : (s.waits).blocks = s.blocks := rfl
@[simp] theorem State.waits_cores (s : State) : (s.waits).cores = s.cores := rfl
@[simp] theorem State.waits_mem (s : State) : (s.waits).mem = s.mem := rfl
@[simp] theorem State.waits_time (s : State) : (s.waits).time = s.time := rfl
@[simp] theorem State.waits_receivers (s : State) : (s.waits).receivers = s.receivers := rfl
@[simp] theorem State.waits_hostLines (s : State) : (s.waits).hostLines = s.hostLines := rfl
@[simp] theorem State.waits_holds (s : State) : (s.waits).holds = s.holds := rfl
@[simp] theorem State.waits_parts (s : State) : (s.waits).parts = s.parts := rfl
@[simp] theorem State.waits_launches (s : State) : (s.waits).launches = s.launches := rfl
@[simp] theorem State.waits_nextLaunch (s : State) : (s.waits).nextLaunch = s.nextLaunch := rfl
@[simp] theorem State.waits_nextBlock (s : State) : (s.waits).nextBlock = s.nextBlock := rfl
@[simp] theorem State.waits_requests (s : State) : (s.waits).requests = s.requests := rfl
@[simp] theorem State.waits_queues (s : State) : (s.waits).queues = s.queues := rfl
@[simp] theorem State.waits_vfmap (s : State) : (s.waits).vfmap = s.vfmap := rfl
@[simp] theorem State.waits_completions (s : State) : (s.waits).completions = s.completions := rfl
@[simp] theorem State.waits_pcmds (s : State) : (s.waits).pcmds = s.pcmds := rfl
@[simp] theorem State.waits_capDue (s : State) : (s.waits).capDue = s.capDue := rfl
@[simp] theorem State.waits_nonce (s : State) : (s.waits).nonce = s.nonce := rfl
@[simp] theorem State.waits_hypKey (s : State) : (s.waits).hypKey = s.hypKey := rfl
@[simp] theorem State.waits_hypLock (s : State) : (s.waits).hypLock = s.hypLock := rfl
@[simp] theorem State.waits_rungs (s : State) : (s.waits).rungs = s.rungs := rfl
@[simp] theorem State.waits_rungDone (s : State) : (s.waits).rungDone = s.rungDone := rfl
@[simp] theorem State.waits_reloading (s : State) : (s.waits).reloading = s.reloading := rfl
@[simp] theorem State.waits_latched (s : State) : (s.waits).latched = s.latched := rfl
@[simp] theorem State.waits_downClusters (s : State) : (s.waits).downClusters = s.downClusters := rfl
@[simp] theorem State.waits_dev (s : State) : (s.waits).dev = s.dev := rfl
@[simp] theorem State.waits_p1root (s : State) : (s.waits).p1root = s.p1root := rfl
@[simp] theorem State.waits_p1used (s : State) : (s.waits).p1used = s.p1used := rfl
@[simp] theorem State.waits_fabid (s : State) : (s.waits).fabid = s.fabid := rfl
@[simp] theorem State.waits_fabLock (s : State) : (s.waits).fabLock = s.fabLock := rfl
@[simp] theorem State.waits_froutes (s : State) : (s.waits).froutes = s.froutes := rfl
@[simp] theorem State.waits_exports (s : State) : (s.waits).exports = s.exports := rfl
@[simp] theorem State.waits_links (s : State) : (s.waits).links = s.links := rfl
@[simp] theorem State.waits_joined (s : State) : (s.waits).joined = s.joined := rfl
@[simp] theorem State.waits_synced (s : State) : (s.waits).synced = s.synced := rfl
@[simp] theorem State.waits_launched (s : State) : (s.waits).launched = s.launched := rfl
@[simp] theorem State.waits_lastSync (s : State) : (s.waits).lastSync = s.lastSync := rfl
@[simp] theorem State.waits_lastSlew (s : State) : (s.waits).lastSlew = s.lastSlew := rfl
@[simp] theorem State.waits_withheld (s : State) : (s.waits).withheld = s.withheld := rfl
@[simp] theorem State.waits_stalled (s : State) : (s.waits).stalled = s.stalled := rfl
@[simp] theorem State.waits_members (s : State) : (s.waits).members = s.members := rfl
@[simp] theorem State.waits_posts (s : State) : (s.waits).posts = s.posts := rfl
@[simp] theorem State.waits_islands (s : State) : (s.waits).islands = s.islands := rfl
@[simp] theorem State.waits_windowAt (s : State) : (s.waits).windowAt = s.windowAt := rfl
@[simp] theorem State.waits_stepAt (s : State) : (s.waits).stepAt = s.stepAt := rfl
@[simp] theorem State.waits_totals (s : State) : (s.waits).totals = s.totals := rfl
@[simp] theorem State.waits_thermalHold (s : State) : (s.waits).thermalHold = s.thermalHold := rfl
@[simp] theorem State.waits_corrected (s : State) : (s.waits).corrected = s.corrected := rfl
@[simp] theorem State.waits_mirrorReads (s : State) : (s.waits).mirrorReads = s.mirrorReads := rfl
@[simp] theorem State.waits_engWalks (s : State) : (s.waits).engWalks = s.engWalks := rfl
@[simp] theorem State.waits_walkQueue (s : State) : (s.waits).walkQueue = s.walkQueue := rfl
@[simp] theorem State.waits_served (s : State) : (s.waits).served = s.served := rfl
@[simp] theorem State.waits_unTaken (s : State) : (s.waits).unTaken = s.unTaken := rfl
@[simp] theorem State.waits_outgoing (s : State) : (s.waits).outgoing = s.outgoing := rfl
@[simp] theorem State.waits_lastSent (s : State) : (s.waits).lastSent = s.lastSent := rfl
@[simp] theorem State.waits_keptWindows (s : State) : (s.waits).keptWindows = s.keptWindows := rfl
@[simp] theorem State.waits_weldCounts (s : State) : (s.waits).weldCounts = s.weldCounts := rfl
@[simp] theorem State.waits_coolants (s : State) : (s.waits).coolants = s.coolants := rfl
@[simp] theorem State.waits_outbox (s : State) : (s.waits).outbox = s.outbox := rfl
@[simp] theorem State.waits_free (s : State) : (s.waits).free = s.free := rfl
@[simp] theorem State.waits_agenda (s : State) : (s.waits).agenda = s.agenda := rfl
@[simp] theorem State.waits_turn (s : State) : (s.waits).turn = s.turn := rfl

@[simp] theorem State.setCore_ag (s : State) (c : Nat) (x : Core) : (s.setCore c x).ag = s.ag := rfl
@[simp] theorem State.setCore_blk (s : State) (c : Nat) (x : Core) : (s.setCore c x).blk = s.blk := rfl
@[simp] theorem State.setCore_cur (s : State) (c : Nat) (x : Core) : (s.setCore c x).cur = s.cur := rfl
@[simp] theorem State.setCore_blocks (s : State) (c : Nat) (x : Core) : (s.setCore c x).blocks = s.blocks := rfl
@[simp] theorem State.setCore_cores (s : State) (c : Nat) (x : Core) : (s.setCore c x).cores = putKey s.cores c x := rfl
@[simp] theorem State.setCore_mem (s : State) (c : Nat) (x : Core) : (s.setCore c x).mem = s.mem := rfl
@[simp] theorem State.setCore_time (s : State) (c : Nat) (x : Core) : (s.setCore c x).time = s.time := rfl
@[simp] theorem State.setCore_receivers (s : State) (c : Nat) (x : Core) : (s.setCore c x).receivers = s.receivers := rfl
@[simp] theorem State.setCore_hostLines (s : State) (c : Nat) (x : Core) : (s.setCore c x).hostLines = s.hostLines := rfl
@[simp] theorem State.setCore_holds (s : State) (c : Nat) (x : Core) : (s.setCore c x).holds = s.holds := rfl
@[simp] theorem State.setCore_parts (s : State) (c : Nat) (x : Core) : (s.setCore c x).parts = s.parts := rfl
@[simp] theorem State.setCore_launches (s : State) (c : Nat) (x : Core) : (s.setCore c x).launches = s.launches := rfl
@[simp] theorem State.setCore_nextLaunch (s : State) (c : Nat) (x : Core) : (s.setCore c x).nextLaunch = s.nextLaunch := rfl
@[simp] theorem State.setCore_nextBlock (s : State) (c : Nat) (x : Core) : (s.setCore c x).nextBlock = s.nextBlock := rfl
@[simp] theorem State.setCore_requests (s : State) (c : Nat) (x : Core) : (s.setCore c x).requests = s.requests := rfl
@[simp] theorem State.setCore_queues (s : State) (c : Nat) (x : Core) : (s.setCore c x).queues = s.queues := rfl
@[simp] theorem State.setCore_vfmap (s : State) (c : Nat) (x : Core) : (s.setCore c x).vfmap = s.vfmap := rfl
@[simp] theorem State.setCore_completions (s : State) (c : Nat) (x : Core) : (s.setCore c x).completions = s.completions := rfl
@[simp] theorem State.setCore_pcmds (s : State) (c : Nat) (x : Core) : (s.setCore c x).pcmds = s.pcmds := rfl
@[simp] theorem State.setCore_capDue (s : State) (c : Nat) (x : Core) : (s.setCore c x).capDue = s.capDue := rfl
@[simp] theorem State.setCore_nonce (s : State) (c : Nat) (x : Core) : (s.setCore c x).nonce = s.nonce := rfl
@[simp] theorem State.setCore_hypKey (s : State) (c : Nat) (x : Core) : (s.setCore c x).hypKey = s.hypKey := rfl
@[simp] theorem State.setCore_hypLock (s : State) (c : Nat) (x : Core) : (s.setCore c x).hypLock = s.hypLock := rfl
@[simp] theorem State.setCore_rungs (s : State) (c : Nat) (x : Core) : (s.setCore c x).rungs = s.rungs := rfl
@[simp] theorem State.setCore_rungDone (s : State) (c : Nat) (x : Core) : (s.setCore c x).rungDone = s.rungDone := rfl
@[simp] theorem State.setCore_reloading (s : State) (c : Nat) (x : Core) : (s.setCore c x).reloading = s.reloading := rfl
@[simp] theorem State.setCore_latched (s : State) (c : Nat) (x : Core) : (s.setCore c x).latched = s.latched := rfl
@[simp] theorem State.setCore_downClusters (s : State) (c : Nat) (x : Core) : (s.setCore c x).downClusters = s.downClusters := rfl
@[simp] theorem State.setCore_dev (s : State) (c : Nat) (x : Core) : (s.setCore c x).dev = s.dev := rfl
@[simp] theorem State.setCore_p1root (s : State) (c : Nat) (x : Core) : (s.setCore c x).p1root = s.p1root := rfl
@[simp] theorem State.setCore_p1used (s : State) (c : Nat) (x : Core) : (s.setCore c x).p1used = s.p1used := rfl
@[simp] theorem State.setCore_fabid (s : State) (c : Nat) (x : Core) : (s.setCore c x).fabid = s.fabid := rfl
@[simp] theorem State.setCore_fabLock (s : State) (c : Nat) (x : Core) : (s.setCore c x).fabLock = s.fabLock := rfl
@[simp] theorem State.setCore_froutes (s : State) (c : Nat) (x : Core) : (s.setCore c x).froutes = s.froutes := rfl
@[simp] theorem State.setCore_exports (s : State) (c : Nat) (x : Core) : (s.setCore c x).exports = s.exports := rfl
@[simp] theorem State.setCore_links (s : State) (c : Nat) (x : Core) : (s.setCore c x).links = s.links := rfl
@[simp] theorem State.setCore_joined (s : State) (c : Nat) (x : Core) : (s.setCore c x).joined = s.joined := rfl
@[simp] theorem State.setCore_synced (s : State) (c : Nat) (x : Core) : (s.setCore c x).synced = s.synced := rfl
@[simp] theorem State.setCore_launched (s : State) (c : Nat) (x : Core) : (s.setCore c x).launched = s.launched := rfl
@[simp] theorem State.setCore_lastSync (s : State) (c : Nat) (x : Core) : (s.setCore c x).lastSync = s.lastSync := rfl
@[simp] theorem State.setCore_lastSlew (s : State) (c : Nat) (x : Core) : (s.setCore c x).lastSlew = s.lastSlew := rfl
@[simp] theorem State.setCore_withheld (s : State) (c : Nat) (x : Core) : (s.setCore c x).withheld = s.withheld := rfl
@[simp] theorem State.setCore_stalled (s : State) (c : Nat) (x : Core) : (s.setCore c x).stalled = s.stalled := rfl
@[simp] theorem State.setCore_members (s : State) (c : Nat) (x : Core) : (s.setCore c x).members = s.members := rfl
@[simp] theorem State.setCore_posts (s : State) (c : Nat) (x : Core) : (s.setCore c x).posts = s.posts := rfl
@[simp] theorem State.setCore_islands (s : State) (c : Nat) (x : Core) : (s.setCore c x).islands = s.islands := rfl
@[simp] theorem State.setCore_windowAt (s : State) (c : Nat) (x : Core) : (s.setCore c x).windowAt = s.windowAt := rfl
@[simp] theorem State.setCore_stepAt (s : State) (c : Nat) (x : Core) : (s.setCore c x).stepAt = s.stepAt := rfl
@[simp] theorem State.setCore_totals (s : State) (c : Nat) (x : Core) : (s.setCore c x).totals = s.totals := rfl
@[simp] theorem State.setCore_thermalHold (s : State) (c : Nat) (x : Core) : (s.setCore c x).thermalHold = s.thermalHold := rfl
@[simp] theorem State.setCore_corrected (s : State) (c : Nat) (x : Core) : (s.setCore c x).corrected = s.corrected := rfl
@[simp] theorem State.setCore_mirrorReads (s : State) (c : Nat) (x : Core) : (s.setCore c x).mirrorReads = s.mirrorReads := rfl
@[simp] theorem State.setCore_engWalks (s : State) (c : Nat) (x : Core) : (s.setCore c x).engWalks = s.engWalks := rfl
@[simp] theorem State.setCore_walkQueue (s : State) (c : Nat) (x : Core) : (s.setCore c x).walkQueue = s.walkQueue := rfl
@[simp] theorem State.setCore_served (s : State) (c : Nat) (x : Core) : (s.setCore c x).served = s.served := rfl
@[simp] theorem State.setCore_unTaken (s : State) (c : Nat) (x : Core) : (s.setCore c x).unTaken = s.unTaken := rfl
@[simp] theorem State.setCore_outgoing (s : State) (c : Nat) (x : Core) : (s.setCore c x).outgoing = s.outgoing := rfl
@[simp] theorem State.setCore_lastSent (s : State) (c : Nat) (x : Core) : (s.setCore c x).lastSent = s.lastSent := rfl
@[simp] theorem State.setCore_keptWindows (s : State) (c : Nat) (x : Core) : (s.setCore c x).keptWindows = s.keptWindows := rfl
@[simp] theorem State.setCore_weldCounts (s : State) (c : Nat) (x : Core) : (s.setCore c x).weldCounts = s.weldCounts := rfl
@[simp] theorem State.setCore_coolants (s : State) (c : Nat) (x : Core) : (s.setCore c x).coolants = s.coolants := rfl
@[simp] theorem State.setCore_outbox (s : State) (c : Nat) (x : Core) : (s.setCore c x).outbox = s.outbox := rfl
@[simp] theorem State.setCore_free (s : State) (c : Nat) (x : Core) : (s.setCore c x).free = s.free := rfl
@[simp] theorem State.setCore_agenda (s : State) (c : Nat) (x : Core) : (s.setCore c x).agenda = s.agenda := rfl
@[simp] theorem State.setCore_turn (s : State) (c : Nat) (x : Core) : (s.setCore c x).turn = s.turn := rfl

@[simp] theorem State.setPart_ag (s : State) (p : Nat) (x : Partition) : (s.setPart p x).ag = s.ag := rfl
@[simp] theorem State.setPart_blk (s : State) (p : Nat) (x : Partition) : (s.setPart p x).blk = s.blk := rfl
@[simp] theorem State.setPart_cur (s : State) (p : Nat) (x : Partition) : (s.setPart p x).cur = s.cur := rfl
@[simp] theorem State.setPart_blocks (s : State) (p : Nat) (x : Partition) : (s.setPart p x).blocks = s.blocks := rfl
@[simp] theorem State.setPart_cores (s : State) (p : Nat) (x : Partition) : (s.setPart p x).cores = s.cores := rfl
@[simp] theorem State.setPart_mem (s : State) (p : Nat) (x : Partition) : (s.setPart p x).mem = s.mem := rfl
@[simp] theorem State.setPart_time (s : State) (p : Nat) (x : Partition) : (s.setPart p x).time = s.time := rfl
@[simp] theorem State.setPart_receivers (s : State) (p : Nat) (x : Partition) : (s.setPart p x).receivers = s.receivers := rfl
@[simp] theorem State.setPart_hostLines (s : State) (p : Nat) (x : Partition) : (s.setPart p x).hostLines = s.hostLines := rfl
@[simp] theorem State.setPart_holds (s : State) (p : Nat) (x : Partition) : (s.setPart p x).holds = s.holds := rfl
@[simp] theorem State.setPart_parts (s : State) (p : Nat) (x : Partition) : (s.setPart p x).parts = putKey s.parts p x := rfl
@[simp] theorem State.setPart_launches (s : State) (p : Nat) (x : Partition) : (s.setPart p x).launches = s.launches := rfl
@[simp] theorem State.setPart_nextLaunch (s : State) (p : Nat) (x : Partition) : (s.setPart p x).nextLaunch = s.nextLaunch := rfl
@[simp] theorem State.setPart_nextBlock (s : State) (p : Nat) (x : Partition) : (s.setPart p x).nextBlock = s.nextBlock := rfl
@[simp] theorem State.setPart_requests (s : State) (p : Nat) (x : Partition) : (s.setPart p x).requests = s.requests := rfl
@[simp] theorem State.setPart_queues (s : State) (p : Nat) (x : Partition) : (s.setPart p x).queues = s.queues := rfl
@[simp] theorem State.setPart_vfmap (s : State) (p : Nat) (x : Partition) : (s.setPart p x).vfmap = s.vfmap := rfl
@[simp] theorem State.setPart_completions (s : State) (p : Nat) (x : Partition) : (s.setPart p x).completions = s.completions := rfl
@[simp] theorem State.setPart_pcmds (s : State) (p : Nat) (x : Partition) : (s.setPart p x).pcmds = s.pcmds := rfl
@[simp] theorem State.setPart_capDue (s : State) (p : Nat) (x : Partition) : (s.setPart p x).capDue = s.capDue := rfl
@[simp] theorem State.setPart_nonce (s : State) (p : Nat) (x : Partition) : (s.setPart p x).nonce = s.nonce := rfl
@[simp] theorem State.setPart_hypKey (s : State) (p : Nat) (x : Partition) : (s.setPart p x).hypKey = s.hypKey := rfl
@[simp] theorem State.setPart_hypLock (s : State) (p : Nat) (x : Partition) : (s.setPart p x).hypLock = s.hypLock := rfl
@[simp] theorem State.setPart_rungs (s : State) (p : Nat) (x : Partition) : (s.setPart p x).rungs = s.rungs := rfl
@[simp] theorem State.setPart_rungDone (s : State) (p : Nat) (x : Partition) : (s.setPart p x).rungDone = s.rungDone := rfl
@[simp] theorem State.setPart_reloading (s : State) (p : Nat) (x : Partition) : (s.setPart p x).reloading = s.reloading := rfl
@[simp] theorem State.setPart_latched (s : State) (p : Nat) (x : Partition) : (s.setPart p x).latched = s.latched := rfl
@[simp] theorem State.setPart_downClusters (s : State) (p : Nat) (x : Partition) : (s.setPart p x).downClusters = s.downClusters := rfl
@[simp] theorem State.setPart_dev (s : State) (p : Nat) (x : Partition) : (s.setPart p x).dev = s.dev := rfl
@[simp] theorem State.setPart_p1root (s : State) (p : Nat) (x : Partition) : (s.setPart p x).p1root = s.p1root := rfl
@[simp] theorem State.setPart_p1used (s : State) (p : Nat) (x : Partition) : (s.setPart p x).p1used = s.p1used := rfl
@[simp] theorem State.setPart_fabid (s : State) (p : Nat) (x : Partition) : (s.setPart p x).fabid = s.fabid := rfl
@[simp] theorem State.setPart_fabLock (s : State) (p : Nat) (x : Partition) : (s.setPart p x).fabLock = s.fabLock := rfl
@[simp] theorem State.setPart_froutes (s : State) (p : Nat) (x : Partition) : (s.setPart p x).froutes = s.froutes := rfl
@[simp] theorem State.setPart_exports (s : State) (p : Nat) (x : Partition) : (s.setPart p x).exports = s.exports := rfl
@[simp] theorem State.setPart_links (s : State) (p : Nat) (x : Partition) : (s.setPart p x).links = s.links := rfl
@[simp] theorem State.setPart_joined (s : State) (p : Nat) (x : Partition) : (s.setPart p x).joined = s.joined := rfl
@[simp] theorem State.setPart_synced (s : State) (p : Nat) (x : Partition) : (s.setPart p x).synced = s.synced := rfl
@[simp] theorem State.setPart_launched (s : State) (p : Nat) (x : Partition) : (s.setPart p x).launched = s.launched := rfl
@[simp] theorem State.setPart_lastSync (s : State) (p : Nat) (x : Partition) : (s.setPart p x).lastSync = s.lastSync := rfl
@[simp] theorem State.setPart_lastSlew (s : State) (p : Nat) (x : Partition) : (s.setPart p x).lastSlew = s.lastSlew := rfl
@[simp] theorem State.setPart_withheld (s : State) (p : Nat) (x : Partition) : (s.setPart p x).withheld = s.withheld := rfl
@[simp] theorem State.setPart_stalled (s : State) (p : Nat) (x : Partition) : (s.setPart p x).stalled = s.stalled := rfl
@[simp] theorem State.setPart_members (s : State) (p : Nat) (x : Partition) : (s.setPart p x).members = s.members := rfl
@[simp] theorem State.setPart_posts (s : State) (p : Nat) (x : Partition) : (s.setPart p x).posts = s.posts := rfl
@[simp] theorem State.setPart_islands (s : State) (p : Nat) (x : Partition) : (s.setPart p x).islands = s.islands := rfl
@[simp] theorem State.setPart_windowAt (s : State) (p : Nat) (x : Partition) : (s.setPart p x).windowAt = s.windowAt := rfl
@[simp] theorem State.setPart_stepAt (s : State) (p : Nat) (x : Partition) : (s.setPart p x).stepAt = s.stepAt := rfl
@[simp] theorem State.setPart_totals (s : State) (p : Nat) (x : Partition) : (s.setPart p x).totals = s.totals := rfl
@[simp] theorem State.setPart_thermalHold (s : State) (p : Nat) (x : Partition) : (s.setPart p x).thermalHold = s.thermalHold := rfl
@[simp] theorem State.setPart_corrected (s : State) (p : Nat) (x : Partition) : (s.setPart p x).corrected = s.corrected := rfl
@[simp] theorem State.setPart_mirrorReads (s : State) (p : Nat) (x : Partition) : (s.setPart p x).mirrorReads = s.mirrorReads := rfl
@[simp] theorem State.setPart_engWalks (s : State) (p : Nat) (x : Partition) : (s.setPart p x).engWalks = s.engWalks := rfl
@[simp] theorem State.setPart_walkQueue (s : State) (p : Nat) (x : Partition) : (s.setPart p x).walkQueue = s.walkQueue := rfl
@[simp] theorem State.setPart_served (s : State) (p : Nat) (x : Partition) : (s.setPart p x).served = s.served := rfl
@[simp] theorem State.setPart_unTaken (s : State) (p : Nat) (x : Partition) : (s.setPart p x).unTaken = s.unTaken := rfl
@[simp] theorem State.setPart_outgoing (s : State) (p : Nat) (x : Partition) : (s.setPart p x).outgoing = s.outgoing := rfl
@[simp] theorem State.setPart_lastSent (s : State) (p : Nat) (x : Partition) : (s.setPart p x).lastSent = s.lastSent := rfl
@[simp] theorem State.setPart_keptWindows (s : State) (p : Nat) (x : Partition) : (s.setPart p x).keptWindows = s.keptWindows := rfl
@[simp] theorem State.setPart_weldCounts (s : State) (p : Nat) (x : Partition) : (s.setPart p x).weldCounts = s.weldCounts := rfl
@[simp] theorem State.setPart_coolants (s : State) (p : Nat) (x : Partition) : (s.setPart p x).coolants = s.coolants := rfl
@[simp] theorem State.setPart_outbox (s : State) (p : Nat) (x : Partition) : (s.setPart p x).outbox = s.outbox := rfl
@[simp] theorem State.setPart_free (s : State) (p : Nat) (x : Partition) : (s.setPart p x).free = s.free := rfl
@[simp] theorem State.setPart_agenda (s : State) (p : Nat) (x : Partition) : (s.setPart p x).agenda = s.agenda := rfl
@[simp] theorem State.setPart_turn (s : State) (p : Nat) (x : Partition) : (s.setPart p x).turn = s.turn := rfl

@[simp] theorem State.setBlock_ag (s : State) (b : Nat) (x : Block) : (s.setBlock b x).ag = s.ag := rfl
@[simp] theorem State.setBlock_blk (s : State) (b : Nat) (x : Block) : (s.setBlock b x).blk = s.blk := rfl
@[simp] theorem State.setBlock_cur (s : State) (b : Nat) (x : Block) : (s.setBlock b x).cur = s.cur := rfl
@[simp] theorem State.setBlock_blocks (s : State) (b : Nat) (x : Block) : (s.setBlock b x).blocks = putKey s.blocks b x := rfl
@[simp] theorem State.setBlock_cores (s : State) (b : Nat) (x : Block) : (s.setBlock b x).cores = s.cores := rfl
@[simp] theorem State.setBlock_mem (s : State) (b : Nat) (x : Block) : (s.setBlock b x).mem = s.mem := rfl
@[simp] theorem State.setBlock_time (s : State) (b : Nat) (x : Block) : (s.setBlock b x).time = s.time := rfl
@[simp] theorem State.setBlock_receivers (s : State) (b : Nat) (x : Block) : (s.setBlock b x).receivers = s.receivers := rfl
@[simp] theorem State.setBlock_hostLines (s : State) (b : Nat) (x : Block) : (s.setBlock b x).hostLines = s.hostLines := rfl
@[simp] theorem State.setBlock_holds (s : State) (b : Nat) (x : Block) : (s.setBlock b x).holds = s.holds := rfl
@[simp] theorem State.setBlock_parts (s : State) (b : Nat) (x : Block) : (s.setBlock b x).parts = s.parts := rfl
@[simp] theorem State.setBlock_launches (s : State) (b : Nat) (x : Block) : (s.setBlock b x).launches = s.launches := rfl
@[simp] theorem State.setBlock_nextLaunch (s : State) (b : Nat) (x : Block) : (s.setBlock b x).nextLaunch = s.nextLaunch := rfl
@[simp] theorem State.setBlock_nextBlock (s : State) (b : Nat) (x : Block) : (s.setBlock b x).nextBlock = s.nextBlock := rfl
@[simp] theorem State.setBlock_requests (s : State) (b : Nat) (x : Block) : (s.setBlock b x).requests = s.requests := rfl
@[simp] theorem State.setBlock_queues (s : State) (b : Nat) (x : Block) : (s.setBlock b x).queues = s.queues := rfl
@[simp] theorem State.setBlock_vfmap (s : State) (b : Nat) (x : Block) : (s.setBlock b x).vfmap = s.vfmap := rfl
@[simp] theorem State.setBlock_completions (s : State) (b : Nat) (x : Block) : (s.setBlock b x).completions = s.completions := rfl
@[simp] theorem State.setBlock_pcmds (s : State) (b : Nat) (x : Block) : (s.setBlock b x).pcmds = s.pcmds := rfl
@[simp] theorem State.setBlock_capDue (s : State) (b : Nat) (x : Block) : (s.setBlock b x).capDue = s.capDue := rfl
@[simp] theorem State.setBlock_nonce (s : State) (b : Nat) (x : Block) : (s.setBlock b x).nonce = s.nonce := rfl
@[simp] theorem State.setBlock_hypKey (s : State) (b : Nat) (x : Block) : (s.setBlock b x).hypKey = s.hypKey := rfl
@[simp] theorem State.setBlock_hypLock (s : State) (b : Nat) (x : Block) : (s.setBlock b x).hypLock = s.hypLock := rfl
@[simp] theorem State.setBlock_rungs (s : State) (b : Nat) (x : Block) : (s.setBlock b x).rungs = s.rungs := rfl
@[simp] theorem State.setBlock_rungDone (s : State) (b : Nat) (x : Block) : (s.setBlock b x).rungDone = s.rungDone := rfl
@[simp] theorem State.setBlock_reloading (s : State) (b : Nat) (x : Block) : (s.setBlock b x).reloading = s.reloading := rfl
@[simp] theorem State.setBlock_latched (s : State) (b : Nat) (x : Block) : (s.setBlock b x).latched = s.latched := rfl
@[simp] theorem State.setBlock_downClusters (s : State) (b : Nat) (x : Block) : (s.setBlock b x).downClusters = s.downClusters := rfl
@[simp] theorem State.setBlock_dev (s : State) (b : Nat) (x : Block) : (s.setBlock b x).dev = s.dev := rfl
@[simp] theorem State.setBlock_p1root (s : State) (b : Nat) (x : Block) : (s.setBlock b x).p1root = s.p1root := rfl
@[simp] theorem State.setBlock_p1used (s : State) (b : Nat) (x : Block) : (s.setBlock b x).p1used = s.p1used := rfl
@[simp] theorem State.setBlock_fabid (s : State) (b : Nat) (x : Block) : (s.setBlock b x).fabid = s.fabid := rfl
@[simp] theorem State.setBlock_fabLock (s : State) (b : Nat) (x : Block) : (s.setBlock b x).fabLock = s.fabLock := rfl
@[simp] theorem State.setBlock_froutes (s : State) (b : Nat) (x : Block) : (s.setBlock b x).froutes = s.froutes := rfl
@[simp] theorem State.setBlock_exports (s : State) (b : Nat) (x : Block) : (s.setBlock b x).exports = s.exports := rfl
@[simp] theorem State.setBlock_links (s : State) (b : Nat) (x : Block) : (s.setBlock b x).links = s.links := rfl
@[simp] theorem State.setBlock_joined (s : State) (b : Nat) (x : Block) : (s.setBlock b x).joined = s.joined := rfl
@[simp] theorem State.setBlock_synced (s : State) (b : Nat) (x : Block) : (s.setBlock b x).synced = s.synced := rfl
@[simp] theorem State.setBlock_launched (s : State) (b : Nat) (x : Block) : (s.setBlock b x).launched = s.launched := rfl
@[simp] theorem State.setBlock_lastSync (s : State) (b : Nat) (x : Block) : (s.setBlock b x).lastSync = s.lastSync := rfl
@[simp] theorem State.setBlock_lastSlew (s : State) (b : Nat) (x : Block) : (s.setBlock b x).lastSlew = s.lastSlew := rfl
@[simp] theorem State.setBlock_withheld (s : State) (b : Nat) (x : Block) : (s.setBlock b x).withheld = s.withheld := rfl
@[simp] theorem State.setBlock_stalled (s : State) (b : Nat) (x : Block) : (s.setBlock b x).stalled = s.stalled := rfl
@[simp] theorem State.setBlock_members (s : State) (b : Nat) (x : Block) : (s.setBlock b x).members = s.members := rfl
@[simp] theorem State.setBlock_posts (s : State) (b : Nat) (x : Block) : (s.setBlock b x).posts = s.posts := rfl
@[simp] theorem State.setBlock_islands (s : State) (b : Nat) (x : Block) : (s.setBlock b x).islands = s.islands := rfl
@[simp] theorem State.setBlock_windowAt (s : State) (b : Nat) (x : Block) : (s.setBlock b x).windowAt = s.windowAt := rfl
@[simp] theorem State.setBlock_stepAt (s : State) (b : Nat) (x : Block) : (s.setBlock b x).stepAt = s.stepAt := rfl
@[simp] theorem State.setBlock_totals (s : State) (b : Nat) (x : Block) : (s.setBlock b x).totals = s.totals := rfl
@[simp] theorem State.setBlock_thermalHold (s : State) (b : Nat) (x : Block) : (s.setBlock b x).thermalHold = s.thermalHold := rfl
@[simp] theorem State.setBlock_corrected (s : State) (b : Nat) (x : Block) : (s.setBlock b x).corrected = s.corrected := rfl
@[simp] theorem State.setBlock_mirrorReads (s : State) (b : Nat) (x : Block) : (s.setBlock b x).mirrorReads = s.mirrorReads := rfl
@[simp] theorem State.setBlock_engWalks (s : State) (b : Nat) (x : Block) : (s.setBlock b x).engWalks = s.engWalks := rfl
@[simp] theorem State.setBlock_walkQueue (s : State) (b : Nat) (x : Block) : (s.setBlock b x).walkQueue = s.walkQueue := rfl
@[simp] theorem State.setBlock_served (s : State) (b : Nat) (x : Block) : (s.setBlock b x).served = s.served := rfl
@[simp] theorem State.setBlock_unTaken (s : State) (b : Nat) (x : Block) : (s.setBlock b x).unTaken = s.unTaken := rfl
@[simp] theorem State.setBlock_outgoing (s : State) (b : Nat) (x : Block) : (s.setBlock b x).outgoing = s.outgoing := rfl
@[simp] theorem State.setBlock_lastSent (s : State) (b : Nat) (x : Block) : (s.setBlock b x).lastSent = s.lastSent := rfl
@[simp] theorem State.setBlock_keptWindows (s : State) (b : Nat) (x : Block) : (s.setBlock b x).keptWindows = s.keptWindows := rfl
@[simp] theorem State.setBlock_weldCounts (s : State) (b : Nat) (x : Block) : (s.setBlock b x).weldCounts = s.weldCounts := rfl
@[simp] theorem State.setBlock_coolants (s : State) (b : Nat) (x : Block) : (s.setBlock b x).coolants = s.coolants := rfl
@[simp] theorem State.setBlock_outbox (s : State) (b : Nat) (x : Block) : (s.setBlock b x).outbox = s.outbox := rfl
@[simp] theorem State.setBlock_free (s : State) (b : Nat) (x : Block) : (s.setBlock b x).free = s.free := rfl
@[simp] theorem State.setBlock_agenda (s : State) (b : Nat) (x : Block) : (s.setBlock b x).agenda = s.agenda := rfl
@[simp] theorem State.setBlock_turn (s : State) (b : Nat) (x : Block) : (s.setBlock b x).turn = s.turn := rfl

@[simp] theorem State.setLaunch_ag (s : State) (l : Nat) (x : Launch) : (s.setLaunch l x).ag = s.ag := rfl
@[simp] theorem State.setLaunch_blk (s : State) (l : Nat) (x : Launch) : (s.setLaunch l x).blk = s.blk := rfl
@[simp] theorem State.setLaunch_cur (s : State) (l : Nat) (x : Launch) : (s.setLaunch l x).cur = s.cur := rfl
@[simp] theorem State.setLaunch_blocks (s : State) (l : Nat) (x : Launch) : (s.setLaunch l x).blocks = s.blocks := rfl
@[simp] theorem State.setLaunch_cores (s : State) (l : Nat) (x : Launch) : (s.setLaunch l x).cores = s.cores := rfl
@[simp] theorem State.setLaunch_mem (s : State) (l : Nat) (x : Launch) : (s.setLaunch l x).mem = s.mem := rfl
@[simp] theorem State.setLaunch_time (s : State) (l : Nat) (x : Launch) : (s.setLaunch l x).time = s.time := rfl
@[simp] theorem State.setLaunch_receivers (s : State) (l : Nat) (x : Launch) : (s.setLaunch l x).receivers = s.receivers := rfl
@[simp] theorem State.setLaunch_hostLines (s : State) (l : Nat) (x : Launch) : (s.setLaunch l x).hostLines = s.hostLines := rfl
@[simp] theorem State.setLaunch_holds (s : State) (l : Nat) (x : Launch) : (s.setLaunch l x).holds = s.holds := rfl
@[simp] theorem State.setLaunch_parts (s : State) (l : Nat) (x : Launch) : (s.setLaunch l x).parts = s.parts := rfl
@[simp] theorem State.setLaunch_launches (s : State) (l : Nat) (x : Launch) : (s.setLaunch l x).launches = putKey s.launches l x := rfl
@[simp] theorem State.setLaunch_nextLaunch (s : State) (l : Nat) (x : Launch) : (s.setLaunch l x).nextLaunch = s.nextLaunch := rfl
@[simp] theorem State.setLaunch_nextBlock (s : State) (l : Nat) (x : Launch) : (s.setLaunch l x).nextBlock = s.nextBlock := rfl
@[simp] theorem State.setLaunch_requests (s : State) (l : Nat) (x : Launch) : (s.setLaunch l x).requests = s.requests := rfl
@[simp] theorem State.setLaunch_queues (s : State) (l : Nat) (x : Launch) : (s.setLaunch l x).queues = s.queues := rfl
@[simp] theorem State.setLaunch_vfmap (s : State) (l : Nat) (x : Launch) : (s.setLaunch l x).vfmap = s.vfmap := rfl
@[simp] theorem State.setLaunch_completions (s : State) (l : Nat) (x : Launch) : (s.setLaunch l x).completions = s.completions := rfl
@[simp] theorem State.setLaunch_pcmds (s : State) (l : Nat) (x : Launch) : (s.setLaunch l x).pcmds = s.pcmds := rfl
@[simp] theorem State.setLaunch_capDue (s : State) (l : Nat) (x : Launch) : (s.setLaunch l x).capDue = s.capDue := rfl
@[simp] theorem State.setLaunch_nonce (s : State) (l : Nat) (x : Launch) : (s.setLaunch l x).nonce = s.nonce := rfl
@[simp] theorem State.setLaunch_hypKey (s : State) (l : Nat) (x : Launch) : (s.setLaunch l x).hypKey = s.hypKey := rfl
@[simp] theorem State.setLaunch_hypLock (s : State) (l : Nat) (x : Launch) : (s.setLaunch l x).hypLock = s.hypLock := rfl
@[simp] theorem State.setLaunch_rungs (s : State) (l : Nat) (x : Launch) : (s.setLaunch l x).rungs = s.rungs := rfl
@[simp] theorem State.setLaunch_rungDone (s : State) (l : Nat) (x : Launch) : (s.setLaunch l x).rungDone = s.rungDone := rfl
@[simp] theorem State.setLaunch_reloading (s : State) (l : Nat) (x : Launch) : (s.setLaunch l x).reloading = s.reloading := rfl
@[simp] theorem State.setLaunch_latched (s : State) (l : Nat) (x : Launch) : (s.setLaunch l x).latched = s.latched := rfl
@[simp] theorem State.setLaunch_downClusters (s : State) (l : Nat) (x : Launch) : (s.setLaunch l x).downClusters = s.downClusters := rfl
@[simp] theorem State.setLaunch_dev (s : State) (l : Nat) (x : Launch) : (s.setLaunch l x).dev = s.dev := rfl
@[simp] theorem State.setLaunch_p1root (s : State) (l : Nat) (x : Launch) : (s.setLaunch l x).p1root = s.p1root := rfl
@[simp] theorem State.setLaunch_p1used (s : State) (l : Nat) (x : Launch) : (s.setLaunch l x).p1used = s.p1used := rfl
@[simp] theorem State.setLaunch_fabid (s : State) (l : Nat) (x : Launch) : (s.setLaunch l x).fabid = s.fabid := rfl
@[simp] theorem State.setLaunch_fabLock (s : State) (l : Nat) (x : Launch) : (s.setLaunch l x).fabLock = s.fabLock := rfl
@[simp] theorem State.setLaunch_froutes (s : State) (l : Nat) (x : Launch) : (s.setLaunch l x).froutes = s.froutes := rfl
@[simp] theorem State.setLaunch_exports (s : State) (l : Nat) (x : Launch) : (s.setLaunch l x).exports = s.exports := rfl
@[simp] theorem State.setLaunch_links (s : State) (l : Nat) (x : Launch) : (s.setLaunch l x).links = s.links := rfl
@[simp] theorem State.setLaunch_joined (s : State) (l : Nat) (x : Launch) : (s.setLaunch l x).joined = s.joined := rfl
@[simp] theorem State.setLaunch_synced (s : State) (l : Nat) (x : Launch) : (s.setLaunch l x).synced = s.synced := rfl
@[simp] theorem State.setLaunch_launched (s : State) (l : Nat) (x : Launch) : (s.setLaunch l x).launched = s.launched := rfl
@[simp] theorem State.setLaunch_lastSync (s : State) (l : Nat) (x : Launch) : (s.setLaunch l x).lastSync = s.lastSync := rfl
@[simp] theorem State.setLaunch_lastSlew (s : State) (l : Nat) (x : Launch) : (s.setLaunch l x).lastSlew = s.lastSlew := rfl
@[simp] theorem State.setLaunch_withheld (s : State) (l : Nat) (x : Launch) : (s.setLaunch l x).withheld = s.withheld := rfl
@[simp] theorem State.setLaunch_stalled (s : State) (l : Nat) (x : Launch) : (s.setLaunch l x).stalled = s.stalled := rfl
@[simp] theorem State.setLaunch_members (s : State) (l : Nat) (x : Launch) : (s.setLaunch l x).members = s.members := rfl
@[simp] theorem State.setLaunch_posts (s : State) (l : Nat) (x : Launch) : (s.setLaunch l x).posts = s.posts := rfl
@[simp] theorem State.setLaunch_islands (s : State) (l : Nat) (x : Launch) : (s.setLaunch l x).islands = s.islands := rfl
@[simp] theorem State.setLaunch_windowAt (s : State) (l : Nat) (x : Launch) : (s.setLaunch l x).windowAt = s.windowAt := rfl
@[simp] theorem State.setLaunch_stepAt (s : State) (l : Nat) (x : Launch) : (s.setLaunch l x).stepAt = s.stepAt := rfl
@[simp] theorem State.setLaunch_totals (s : State) (l : Nat) (x : Launch) : (s.setLaunch l x).totals = s.totals := rfl
@[simp] theorem State.setLaunch_thermalHold (s : State) (l : Nat) (x : Launch) : (s.setLaunch l x).thermalHold = s.thermalHold := rfl
@[simp] theorem State.setLaunch_corrected (s : State) (l : Nat) (x : Launch) : (s.setLaunch l x).corrected = s.corrected := rfl
@[simp] theorem State.setLaunch_mirrorReads (s : State) (l : Nat) (x : Launch) : (s.setLaunch l x).mirrorReads = s.mirrorReads := rfl
@[simp] theorem State.setLaunch_engWalks (s : State) (l : Nat) (x : Launch) : (s.setLaunch l x).engWalks = s.engWalks := rfl
@[simp] theorem State.setLaunch_walkQueue (s : State) (l : Nat) (x : Launch) : (s.setLaunch l x).walkQueue = s.walkQueue := rfl
@[simp] theorem State.setLaunch_served (s : State) (l : Nat) (x : Launch) : (s.setLaunch l x).served = s.served := rfl
@[simp] theorem State.setLaunch_unTaken (s : State) (l : Nat) (x : Launch) : (s.setLaunch l x).unTaken = s.unTaken := rfl
@[simp] theorem State.setLaunch_outgoing (s : State) (l : Nat) (x : Launch) : (s.setLaunch l x).outgoing = s.outgoing := rfl
@[simp] theorem State.setLaunch_lastSent (s : State) (l : Nat) (x : Launch) : (s.setLaunch l x).lastSent = s.lastSent := rfl
@[simp] theorem State.setLaunch_keptWindows (s : State) (l : Nat) (x : Launch) : (s.setLaunch l x).keptWindows = s.keptWindows := rfl
@[simp] theorem State.setLaunch_weldCounts (s : State) (l : Nat) (x : Launch) : (s.setLaunch l x).weldCounts = s.weldCounts := rfl
@[simp] theorem State.setLaunch_coolants (s : State) (l : Nat) (x : Launch) : (s.setLaunch l x).coolants = s.coolants := rfl
@[simp] theorem State.setLaunch_outbox (s : State) (l : Nat) (x : Launch) : (s.setLaunch l x).outbox = s.outbox := rfl
@[simp] theorem State.setLaunch_free (s : State) (l : Nat) (x : Launch) : (s.setLaunch l x).free = s.free := rfl
@[simp] theorem State.setLaunch_agenda (s : State) (l : Nat) (x : Launch) : (s.setLaunch l x).agenda = s.agenda := rfl
@[simp] theorem State.setLaunch_turn (s : State) (l : Nat) (x : Launch) : (s.setLaunch l x).turn = s.turn := rfl

@[simp] theorem State.setQueue_ag (s : State) (k : Nat) (x : Queue) : (s.setQueue k x).ag = s.ag := rfl
@[simp] theorem State.setQueue_blk (s : State) (k : Nat) (x : Queue) : (s.setQueue k x).blk = s.blk := rfl
@[simp] theorem State.setQueue_cur (s : State) (k : Nat) (x : Queue) : (s.setQueue k x).cur = s.cur := rfl
@[simp] theorem State.setQueue_blocks (s : State) (k : Nat) (x : Queue) : (s.setQueue k x).blocks = s.blocks := rfl
@[simp] theorem State.setQueue_cores (s : State) (k : Nat) (x : Queue) : (s.setQueue k x).cores = s.cores := rfl
@[simp] theorem State.setQueue_mem (s : State) (k : Nat) (x : Queue) : (s.setQueue k x).mem = s.mem := rfl
@[simp] theorem State.setQueue_time (s : State) (k : Nat) (x : Queue) : (s.setQueue k x).time = s.time := rfl
@[simp] theorem State.setQueue_receivers (s : State) (k : Nat) (x : Queue) : (s.setQueue k x).receivers = s.receivers := rfl
@[simp] theorem State.setQueue_hostLines (s : State) (k : Nat) (x : Queue) : (s.setQueue k x).hostLines = s.hostLines := rfl
@[simp] theorem State.setQueue_holds (s : State) (k : Nat) (x : Queue) : (s.setQueue k x).holds = s.holds := rfl
@[simp] theorem State.setQueue_parts (s : State) (k : Nat) (x : Queue) : (s.setQueue k x).parts = s.parts := rfl
@[simp] theorem State.setQueue_launches (s : State) (k : Nat) (x : Queue) : (s.setQueue k x).launches = s.launches := rfl
@[simp] theorem State.setQueue_nextLaunch (s : State) (k : Nat) (x : Queue) : (s.setQueue k x).nextLaunch = s.nextLaunch := rfl
@[simp] theorem State.setQueue_nextBlock (s : State) (k : Nat) (x : Queue) : (s.setQueue k x).nextBlock = s.nextBlock := rfl
@[simp] theorem State.setQueue_requests (s : State) (k : Nat) (x : Queue) : (s.setQueue k x).requests = s.requests := rfl
@[simp] theorem State.setQueue_queues (s : State) (k : Nat) (x : Queue) : (s.setQueue k x).queues = putKey s.queues k x := rfl
@[simp] theorem State.setQueue_vfmap (s : State) (k : Nat) (x : Queue) : (s.setQueue k x).vfmap = s.vfmap := rfl
@[simp] theorem State.setQueue_completions (s : State) (k : Nat) (x : Queue) : (s.setQueue k x).completions = s.completions := rfl
@[simp] theorem State.setQueue_pcmds (s : State) (k : Nat) (x : Queue) : (s.setQueue k x).pcmds = s.pcmds := rfl
@[simp] theorem State.setQueue_capDue (s : State) (k : Nat) (x : Queue) : (s.setQueue k x).capDue = s.capDue := rfl
@[simp] theorem State.setQueue_nonce (s : State) (k : Nat) (x : Queue) : (s.setQueue k x).nonce = s.nonce := rfl
@[simp] theorem State.setQueue_hypKey (s : State) (k : Nat) (x : Queue) : (s.setQueue k x).hypKey = s.hypKey := rfl
@[simp] theorem State.setQueue_hypLock (s : State) (k : Nat) (x : Queue) : (s.setQueue k x).hypLock = s.hypLock := rfl
@[simp] theorem State.setQueue_rungs (s : State) (k : Nat) (x : Queue) : (s.setQueue k x).rungs = s.rungs := rfl
@[simp] theorem State.setQueue_rungDone (s : State) (k : Nat) (x : Queue) : (s.setQueue k x).rungDone = s.rungDone := rfl
@[simp] theorem State.setQueue_reloading (s : State) (k : Nat) (x : Queue) : (s.setQueue k x).reloading = s.reloading := rfl
@[simp] theorem State.setQueue_latched (s : State) (k : Nat) (x : Queue) : (s.setQueue k x).latched = s.latched := rfl
@[simp] theorem State.setQueue_downClusters (s : State) (k : Nat) (x : Queue) : (s.setQueue k x).downClusters = s.downClusters := rfl
@[simp] theorem State.setQueue_dev (s : State) (k : Nat) (x : Queue) : (s.setQueue k x).dev = s.dev := rfl
@[simp] theorem State.setQueue_p1root (s : State) (k : Nat) (x : Queue) : (s.setQueue k x).p1root = s.p1root := rfl
@[simp] theorem State.setQueue_p1used (s : State) (k : Nat) (x : Queue) : (s.setQueue k x).p1used = s.p1used := rfl
@[simp] theorem State.setQueue_fabid (s : State) (k : Nat) (x : Queue) : (s.setQueue k x).fabid = s.fabid := rfl
@[simp] theorem State.setQueue_fabLock (s : State) (k : Nat) (x : Queue) : (s.setQueue k x).fabLock = s.fabLock := rfl
@[simp] theorem State.setQueue_froutes (s : State) (k : Nat) (x : Queue) : (s.setQueue k x).froutes = s.froutes := rfl
@[simp] theorem State.setQueue_exports (s : State) (k : Nat) (x : Queue) : (s.setQueue k x).exports = s.exports := rfl
@[simp] theorem State.setQueue_links (s : State) (k : Nat) (x : Queue) : (s.setQueue k x).links = s.links := rfl
@[simp] theorem State.setQueue_joined (s : State) (k : Nat) (x : Queue) : (s.setQueue k x).joined = s.joined := rfl
@[simp] theorem State.setQueue_synced (s : State) (k : Nat) (x : Queue) : (s.setQueue k x).synced = s.synced := rfl
@[simp] theorem State.setQueue_launched (s : State) (k : Nat) (x : Queue) : (s.setQueue k x).launched = s.launched := rfl
@[simp] theorem State.setQueue_lastSync (s : State) (k : Nat) (x : Queue) : (s.setQueue k x).lastSync = s.lastSync := rfl
@[simp] theorem State.setQueue_lastSlew (s : State) (k : Nat) (x : Queue) : (s.setQueue k x).lastSlew = s.lastSlew := rfl
@[simp] theorem State.setQueue_withheld (s : State) (k : Nat) (x : Queue) : (s.setQueue k x).withheld = s.withheld := rfl
@[simp] theorem State.setQueue_stalled (s : State) (k : Nat) (x : Queue) : (s.setQueue k x).stalled = s.stalled := rfl
@[simp] theorem State.setQueue_members (s : State) (k : Nat) (x : Queue) : (s.setQueue k x).members = s.members := rfl
@[simp] theorem State.setQueue_posts (s : State) (k : Nat) (x : Queue) : (s.setQueue k x).posts = s.posts := rfl
@[simp] theorem State.setQueue_islands (s : State) (k : Nat) (x : Queue) : (s.setQueue k x).islands = s.islands := rfl
@[simp] theorem State.setQueue_windowAt (s : State) (k : Nat) (x : Queue) : (s.setQueue k x).windowAt = s.windowAt := rfl
@[simp] theorem State.setQueue_stepAt (s : State) (k : Nat) (x : Queue) : (s.setQueue k x).stepAt = s.stepAt := rfl
@[simp] theorem State.setQueue_totals (s : State) (k : Nat) (x : Queue) : (s.setQueue k x).totals = s.totals := rfl
@[simp] theorem State.setQueue_thermalHold (s : State) (k : Nat) (x : Queue) : (s.setQueue k x).thermalHold = s.thermalHold := rfl
@[simp] theorem State.setQueue_corrected (s : State) (k : Nat) (x : Queue) : (s.setQueue k x).corrected = s.corrected := rfl
@[simp] theorem State.setQueue_mirrorReads (s : State) (k : Nat) (x : Queue) : (s.setQueue k x).mirrorReads = s.mirrorReads := rfl
@[simp] theorem State.setQueue_engWalks (s : State) (k : Nat) (x : Queue) : (s.setQueue k x).engWalks = s.engWalks := rfl
@[simp] theorem State.setQueue_walkQueue (s : State) (k : Nat) (x : Queue) : (s.setQueue k x).walkQueue = s.walkQueue := rfl
@[simp] theorem State.setQueue_served (s : State) (k : Nat) (x : Queue) : (s.setQueue k x).served = s.served := rfl
@[simp] theorem State.setQueue_unTaken (s : State) (k : Nat) (x : Queue) : (s.setQueue k x).unTaken = s.unTaken := rfl
@[simp] theorem State.setQueue_outgoing (s : State) (k : Nat) (x : Queue) : (s.setQueue k x).outgoing = s.outgoing := rfl
@[simp] theorem State.setQueue_lastSent (s : State) (k : Nat) (x : Queue) : (s.setQueue k x).lastSent = s.lastSent := rfl
@[simp] theorem State.setQueue_keptWindows (s : State) (k : Nat) (x : Queue) : (s.setQueue k x).keptWindows = s.keptWindows := rfl
@[simp] theorem State.setQueue_weldCounts (s : State) (k : Nat) (x : Queue) : (s.setQueue k x).weldCounts = s.weldCounts := rfl
@[simp] theorem State.setQueue_coolants (s : State) (k : Nat) (x : Queue) : (s.setQueue k x).coolants = s.coolants := rfl
@[simp] theorem State.setQueue_outbox (s : State) (k : Nat) (x : Queue) : (s.setQueue k x).outbox = s.outbox := rfl
@[simp] theorem State.setQueue_free (s : State) (k : Nat) (x : Queue) : (s.setQueue k x).free = s.free := rfl
@[simp] theorem State.setQueue_agenda (s : State) (k : Nat) (x : Queue) : (s.setQueue k x).agenda = s.agenda := rfl
@[simp] theorem State.setQueue_turn (s : State) (k : Nat) (x : Queue) : (s.setQueue k x).turn = s.turn := rfl

end Sys2Proof.Machine
end

