-- ==== Sys2Proof/Laws/Ops.lean ====
section
/-! SUPPORT. What the shared operations do, said once: keyed lists, registers, latches, the issue of a word. -/

namespace Sys2Proof.Machine

/-! ## Keyed lists -/

@[simp] theorem getKey_putKey_self {α : Type} : ∀ (l : List (Nat × α)) (n : Nat) (x : α), getKey (putKey l n x) n = some x
  | [], n, x => by simp [putKey, getKey]
  | (k, v) :: r, n, x => by
    by_cases hk : k < n
    · have : ¬ k = n := by omega
      simp [putKey, getKey, hk, this, getKey_putKey_self r n x]
    · by_cases he : k = n
      · simp [putKey, getKey, he]
      · simp [putKey, getKey, hk, he]

theorem getKey_putKey_other {α : Type} : ∀ (l : List (Nat × α)) (n m : Nat) (x : α), m ≠ n →
    getKey (putKey l n x) m = getKey l m
  | [], n, m, x, h => by
    have : ¬ n = m := fun e => h e.symm
    simp [putKey, getKey, this]
  | (k, v) :: r, n, m, x, h => by
    have hn : ¬ n = m := fun e => h e.symm
    by_cases hk : k < n
    · simp [putKey, getKey, hk, getKey_putKey_other r n m x h]
    · by_cases he : k = n
      · subst he
        simp [putKey, getKey, hn]
      · simp [putKey, getKey, hk, he, hn]

theorem State.block_setBlock (s : State) (b c : Nat) (x : Block) :
    (s.setBlock b x).block c = if c = b then x else s.block c := by
  by_cases h : c = b
  · simp [State.block, State.setBlock, h]
  · simp [State.block, State.setBlock, h, getKey_putKey_other]

theorem State.core_setCore (s : State) (b c : Nat) (x : Core) :
    (s.setCore b x).core c = if c = b then x else s.core c := by
  by_cases h : c = b
  · simp [State.core, State.setCore, h]
  · simp [State.core, State.setCore, h, getKey_putKey_other]

theorem State.part_setPart (s : State) (b c : Nat) (x : Partition) :
    (s.setPart b x).part c = if c = b then x else s.part c := by
  by_cases h : c = b
  · simp [State.part, State.setPart, h]
  · simp [State.part, State.setPart, h, getKey_putKey_other]

theorem State.queue_setQueue (s : State) (b c : Nat) (x : Queue) :
    (s.setQueue b x).queue c = if c = b then x else s.queue c := by
  by_cases h : c = b
  · simp [State.queue, State.setQueue, h]
  · simp [State.queue, State.setQueue, h, getKey_putKey_other]

/-! ## Registers -/

theorem getLsbD_putBit {w : Nat} (x : BitVec w) (n m : Nat) (b : Bool) (hm : m < w) :
    (putBit x n b).getLsbD m = if m = n then b else x.getLsbD m := by
  by_cases h : m = n
  · subst h
    cases b <;> simp [putBit, hm]
  · rw [if_neg h]
    have h1 : (1#w <<< n).getLsbD m = false := by
      simp only [BitVec.getLsbD_shiftLeft, BitVec.getLsbD_one, Bool.and_eq_false_iff, Bool.not_eq_false',
        decide_eq_true_eq, decide_eq_false_iff_not]
      omega
    cases b <;> simp only [putBit, Bool.false_eq_true, if_false, if_true, BitVec.getLsbD_and, BitVec.getLsbD_or,
      BitVec.getLsbD_not, h1, hm, decide_true, Bool.not_false, Bool.and_self, Bool.and_true, Bool.or_false]

/-- What a register reads as once it has been written, unless it holds a constant. -/
def RegName.shown (r : RegName) (v : VWord) : VWord :=
  match r with
  | .s _ | .k _ => (v.setWidth 64).setWidth 2048
  | .v _ => v
  | .p _ => (BitVec.ofBool (v.getLsbD 0)).setWidth 2048

@[simp] theorem RegName.shown_s (n : SReg) (v : Word) : (RegName.s n).shown (v.setWidth 2048) = v.setWidth 2048 := by
  simp [RegName.shown]
@[simp] theorem RegName.shown_k (n : KReg) (v : Word) : (RegName.k n).shown (v.setWidth 2048) = v.setWidth 2048 := by
  simp [RegName.shown]
@[simp] theorem RegName.shown_p (n : PReg) (v : Bool) :
    (RegName.p n).shown ((BitVec.ofBool v).setWidth 2048) = (BitVec.ofBool v).setWidth 2048 := by
  cases v <;> simp [RegName.shown]
@[simp] theorem RegName.shown_v (n : VReg) (v : VWord) : (RegName.v n).shown v = v := rfl

theorem Agent.setReg_fixed (a : Agent) (r : RegName) (v : VWord) (p : Bool) (h : r.fixed = true) : a.setReg r v p = a := by
  cases r <;> simp_all [Agent.setReg, RegName.fixed]

theorem Agent.value_setReg_self (a : Agent) (r : RegName) (v : VWord) (p : Bool) (h : r.fixed = false) :
    (a.setReg r v p).value r = r.shown v := by
  cases r with
  | s n =>
    have hn : n ≠ 0 := by simpa [RegName.fixed] using h
    simp [Agent.setReg, Agent.value, Agent.getS, hn, RegName.shown]
  | v n => simp [Agent.setReg, Agent.value, Agent.getV, RegName.shown]
  | p n =>
    have hn : n ≠ 0 := by simpa [RegName.fixed] using h
    simp [Agent.setReg, Agent.value, Agent.getP, hn, RegName.shown]
  | k n =>
    have hn : n ≠ 0 := by simpa [RegName.fixed] using h
    simp [Agent.setReg, Agent.value, Agent.getK, hn, RegName.shown]

theorem Vector.getElem_set_fin {α : Type} {n : Nat} (x : Vector α n) (i j : Fin n) (v : α) :
    (x.set i v)[j] = if i = j then v else x[j] := by
  simp only [Fin.getElem_fin, Vector.getElem_set, Fin.ext_iff]

theorem Agent.value_setReg_other (a : Agent) (r q : RegName) (v : VWord) (p : Bool) (h : q ≠ r) :
    (a.setReg r v p).value q = a.value q := by
  by_cases hf : r.fixed = true
  · rw [Agent.setReg_fixed a r v p hf]
  · cases r with
    | s n =>
      have hn : n ≠ 0 := by simpa [RegName.fixed] using hf
      cases q with
      | s m =>
        have : ¬ n = m := fun e => h (by rw [e])
        simp only [Agent.setReg, hn, if_false, Agent.value, Agent.getS, Vector.getElem_set_fin, this]
      | _ => simp only [Agent.setReg, hn, if_false, Agent.value, Agent.getV, Agent.getP, Agent.getK]
    | v n =>
      cases q with
      | v m =>
        have : ¬ n = m := fun e => h (by rw [e])
        simp only [Agent.setReg, Agent.value, Agent.getV, Vector.getElem_set_fin, this, if_false]
      | _ => simp only [Agent.setReg, Agent.value, Agent.getS, Agent.getP, Agent.getK]
    | p n =>
      have hn : n ≠ 0 := by simpa [RegName.fixed] using hf
      cases q with
      | p m =>
        have : ¬ n = m := fun e => h (by rw [e])
        simp only [Agent.setReg, hn, if_false, Agent.value, Agent.getP, Vector.getElem_set_fin, this]
      | _ => simp only [Agent.setReg, hn, if_false, Agent.value, Agent.getV, Agent.getS, Agent.getK]
    | k n =>
      have hn : n ≠ 0 := by simpa [RegName.fixed] using hf
      cases q with
      | k m =>
        have : ¬ n = m := fun e => h (by rw [e])
        simp only [Agent.setReg, hn, if_false, Agent.value, Agent.getK, Vector.getElem_set_fin, this]
      | _ => simp only [Agent.setReg, hn, if_false, Agent.value, Agent.getV, Agent.getS, Agent.getP]

theorem Agent.poisoned_setReg_self (a : Agent) (r : RegName) (v : VWord) (p : Bool) :
    (a.setReg r v p).poisoned r = (!r.fixed && p) := by
  cases r with
  | v n => simp only [Agent.setReg, Agent.poisoned, RegName.fixed, getLsbD_putBit _ _ _ _ n.isLt, if_true,
      Bool.not_false, Bool.true_and]
  | _ n =>
    by_cases hn : n = 0
    · simp [Agent.poisoned, hn, RegName.fixed]
    · have h1 : (n != 0) = true := by simpa using hn
      have h2 : (n == 0) = false := by simpa using hn
      simp only [Agent.setReg, Agent.poisoned, hn, RegName.fixed, getLsbD_putBit _ _ _ _ n.isLt, if_true, if_false, h1, h2,
        Bool.not_false, Bool.true_and]

theorem Agent.poisoned_setReg_other (a : Agent) (r q : RegName) (v : VWord) (p : Bool) (h : q ≠ r) :
    (a.setReg r v p).poisoned q = a.poisoned q := by
  by_cases hf : r.fixed = true
  · rw [Agent.setReg_fixed a r v p hf]
  · cases r with
    | s n =>
      have hn : n ≠ 0 := by simpa [RegName.fixed] using hf
      cases q with
      | s m =>
        have : ¬ m.val = n.val := fun e => h (by rw [Fin.ext e])
        simp only [Agent.setReg, hn, if_false, Agent.poisoned, getLsbD_putBit _ _ _ _ m.isLt, this]
      | _ => simp only [Agent.setReg, hn, if_false, Agent.poisoned]
    | v n =>
      cases q with
      | v m =>
        have : ¬ m.val = n.val := fun e => h (by rw [Fin.ext e])
        simp only [Agent.setReg, Agent.poisoned, getLsbD_putBit _ _ _ _ m.isLt, this, if_false]
      | _ => simp only [Agent.setReg, Agent.poisoned]
    | p n =>
      have hn : n ≠ 0 := by simpa [RegName.fixed] using hf
      cases q with
      | p m =>
        have : ¬ m.val = n.val := fun e => h (by rw [Fin.ext e])
        simp only [Agent.setReg, hn, if_false, Agent.poisoned, getLsbD_putBit _ _ _ _ m.isLt, this]
      | _ => simp only [Agent.setReg, hn, if_false, Agent.poisoned]
    | k n =>
      have hn : n ≠ 0 := by simpa [RegName.fixed] using hf
      cases q with
      | k m =>
        have : ¬ m.val = n.val := fun e => h (by rw [Fin.ext e])
        simp only [Agent.setReg, hn, if_false, Agent.poisoned, getLsbD_putBit _ _ _ _ m.isLt, this]
      | _ => simp only [Agent.setReg, hn, if_false, Agent.poisoned]

/-- A register's value and poison bit depend on the register files alone. -/
theorem Agent.value_congr {a b : Agent} (h1 : a.s = b.s) (h2 : a.v = b.v) (h3 : a.p = b.p) (h4 : a.k = b.k) (q : RegName) :
    a.value q = b.value q := by
  cases q <;> simp only [Agent.value, Agent.getS, Agent.getV, Agent.getP, Agent.getK, h1, h2, h3, h4]

theorem Agent.poisoned_congr {a b : Agent} (h1 : a.sPoison = b.sPoison) (h2 : a.vPoison = b.vPoison)
    (h3 : a.pPoison = b.pPoison) (h4 : a.kPoison = b.kPoison) (q : RegName) : a.poisoned q = b.poisoned q := by
  cases q <;> simp only [Agent.poisoned, h1, h2, h3, h4]

/-! ## Results of latency 1 -/

/-- Everything a result of latency 1 does. -/
theorem wrote_result1 (s : State) (r : RegName) (v : VWord) (p : Bool) (f : Flags) :
    Wrote s ((s.setAg (s.ag.result1 r v p f)).issued) r (r.shown v) p f := by
  have hv : ∀ q, (s.ag.result1 r v p f).value q = (s.ag.setReg r v p).value q := by
    intro q
    refine Agent.value_congr ?_ ?_ ?_ ?_ q <;> cases r <;> simp only [Agent.result1, Agent.setReg, Agent.addFlags] <;>
      (try split) <;> rfl
  have hp : ∀ q, (s.ag.result1 r v p f).poisoned q = (s.ag.setReg r v p).poisoned q := by
    intro q
    refine Agent.poisoned_congr ?_ ?_ ?_ ?_ q <;> cases r <;> simp only [Agent.result1, Agent.setReg, Agent.addFlags] <;>
      (try split) <;> rfl
  constructor
  · show (s.ag.result1 r v p f).value r = _
    rw [hv]
    cases hf : r.fixed
    · simpa using Agent.value_setReg_self s.ag r v p hf
    · simp [Agent.setReg_fixed s.ag r v p hf]
  · show (s.ag.result1 r v p f).poisoned r = _
    rw [hp, Agent.poisoned_setReg_self]
  · intro q hq
    show (s.ag.result1 r v p f).value q = _ ∧ (s.ag.result1 r v p f).poisoned q = _
    rw [hv, hp]
    exact ⟨Agent.value_setReg_other _ _ _ _ _ hq, Agent.poisoned_setReg_other _ _ _ _ _ hq⟩
  · cases r <;> simp only [Agent.result1, Agent.setReg, Agent.addFlags, overtaken, State.setAg, State.issued, State.setDisp] <;>
      (try split) <;> rfl
  · cases r <;> simp only [Agent.result1, Agent.setReg, Agent.addFlags, State.setAg, State.issued, State.setDisp] <;>
      (try split) <;> rfl
  · cases r <;> simp only [Agent.result1, Agent.setReg, Agent.addFlags, State.setAg, State.issued, State.setDisp] <;>
      (try split) <;> rfl

/-! ## The issue of a word -/

theorem Runs.verdict {i : Instr} {s : State} (h : Runs i s) : verdict i s = .go := by
  simp only [Machine.verdict, h.checked, h.present, h.settled, h.told, Bool.or_self, h.landed, h.clean, h.guarded, h.free, Bool.false_eq_true,
    if_false, Bool.not_true]

theorem Skips.verdict {i : Instr} {s : State} (h : Skips i s) : verdict i s = .off := by
  simp only [Machine.verdict, h.checked, h.present, h.settled, h.told, Bool.or_self, h.landed, h.clean, h.unguarded, Bool.false_eq_true,
    if_false, Bool.not_false, if_true]

/-- A word that runs has its effect on the state that its claims leave. -/
theorem issueBoth_runs {i : Instr} {s u : State} (h : Runs i s) (hc : claimed i false s = some u) (g f : State → State) :
    issueBoth i s g f = f u := by
  have ht := h.together
  simp only [issueBoth, h.verdict, ht, Bool.false_eq_true, if_false, withBanks]
  simp only [claimed] at hc
  split <;> rename_i hb <;> simp only [hb] at hc
  · simp_all
  · split <;> rename_i hk <;> simp_all

theorem issueBoth_skips {i : Instr} {s u : State} (h : Skips i s) (hc : claimed i true s = some u) (g f : State → State) :
    issueBoth i s g f = g u := by
  have ht := h.together
  simp only [issueBoth, h.verdict, ht, Bool.false_eq_true, if_false, withBanks]
  simp only [claimed] at hc
  split <;> rename_i hb <;> simp only [hb] at hc
  · simp_all
  · split <;> rename_i hk <;> simp_all

theorem issueWord_runs {i : Instr} {s u : State} (h : Runs i s) (hc : claimed i false s = some u) (f : State → State) :
    issueWord i s f = advanceGen i (f u) := by rw [issueWord, issueBoth_runs h hc]

theorem issueTile_runs {i : Instr} {s u : State} (h : Runs i s) (hc : claimed i false s = some u) (g f : State → State) :
    issueTile i s g f = advanceGen i (f u) := by rw [issueTile, issueBoth_runs h hc]

/-- A word that names no item and no vector register claims nothing. -/
theorem claimed_none {i : Instr} {off : Bool} {s : State} (h : banksOf s.cur.w s.ag i off = []) :
    claimed i off s = some s := by simp [claimed, h]

theorem advanceGen_none {i : Instr} (h : rmOf i = none) (s : State) : advanceGen i s = s := by
  simp only [advanceGen, h, Agent.advanceGen, State.setAg]
  split <;> rfl

end Sys2Proof.Machine
end

