-- ==== Sys2Proof/Laws/Vector.lean ====
section
/-! SUPPORT. Elements of registers: an element of a register made from elements, and a lane of a register made from lanes
(R39, R121). -/

namespace Sys2Proof.Machine

theorem packElems_lt (w : Nat) : ∀ l : List Nat, packElems w l < 2 ^ (w * l.length)
  | [] => by simp [packElems]
  | x :: r => by
    have h := packElems_lt w r
    have hx : x % 2 ^ w < 2 ^ w := Nat.mod_lt _ (Nat.two_pow_pos w)
    simp only [packElems, List.length_cons, Nat.mul_add, Nat.mul_one, Nat.pow_add]
    rw [Nat.mul_comm (2 ^ (w * r.length))]
    calc x % 2 ^ w + 2 ^ w * packElems w r < 2 ^ w + 2 ^ w * packElems w r := by omega
      _ = 2 ^ w * (packElems w r + 1) := by ring
      _ ≤ 2 ^ w * 2 ^ (w * r.length) := Nat.mul_le_mul_left _ h

/-- Element e of elements put together. -/
theorem packElems_elem (w : Nat) : ∀ (l : List Nat) (e : Nat), packElems w l / 2 ^ (w * e) % 2 ^ w = l.getD e 0 % 2 ^ w
  | [], e => by simp [packElems]
  | x :: r, 0 => by simp [packElems]
  | x :: r, e + 1 => by
    have hx : x % 2 ^ w < 2 ^ w := Nat.mod_lt _ (Nat.two_pow_pos w)
    have h := packElems_elem w r e
    simp only [packElems, List.getD_cons_succ]
    rw [show w * (e + 1) = w + w * e by ring, Nat.pow_add, ← Nat.div_div_eq_div_mul,
      Nat.add_mul_div_left _ _ (Nat.two_pow_pos w), Nat.div_eq_of_lt hx, Nat.zero_add, h]

/-- Element e of a register made from elements that fit it. -/
theorem elemOf_ofElems (w : Nat) (l : List Nat) (e : Nat) (h : w * l.length ≤ 2048) :
    elemOf (ofElems w l) w e = l.getD e 0 % 2 ^ w := by
  have hp : packElems w l < 2 ^ 2048 := Nat.lt_of_lt_of_le (packElems_lt w l) (Nat.pow_le_pow_right (by decide) h)
  rw [elemOf, ofElems, BitVec.toNat_ofNat, Nat.mod_eq_of_lt hp, packElems_elem]

/-- The same for elements given by their number. -/
theorem elemOf_ofElems_map (w n : Nat) (f : Nat → Nat) (e : Nat) (h : w * n ≤ 2048) :
    elemOf (ofElems w ((List.range n).map f)) w e = if e < n then f e % 2 ^ w else 0 := by
  rw [elemOf_ofElems w _ e (by simpa using h)]
  by_cases he : e < n
  · simp [he, List.getD_eq_getElem?_getD]
  · simp [he, List.getD_eq_getElem?_getD]

theorem elemOf_lt (v : VWord) (w e : Nat) : elemOf v w e < 2 ^ w := Nat.mod_lt _ (Nat.two_pow_pos w)

theorem width_count (t : VTy) : t.bits * t.count = 2048 := by cases t <;> rfl

end Sys2Proof.Machine
end

