-- ==== Sys2Proof/Tests/Slice0.lean ====
section
/-! SUPPORT. Tests: one word of every word instruction, written out from the layouts of spec/03, decodes to it; an
ill-formed term for each check; and for every statement with hypotheses a state that meets them, with one for each of its
clauses where they divide the cases. Expected words come from the spec's layouts and its two worked encodings. -/

open Sys2Proof Sys2Proof.Machine

namespace Sys2Proof.Tests

set_option Elab.async false

/-- Each PAIR word, with zeros in its vector half, decodes to the scalar half beside it. -/
def scalarHalves (l : List (Word × Instr)) : Bool :=
  l.all fun p => decide (decode false p.1 0 = .ok ⟨Hdr.default, .pair p.2 .vnop⟩)

/-- Each PAIR word, with zeros in its scalar half, decodes to the vector half beside it. -/
def vectorHalves (l : List (Word × Instr)) : Bool :=
  l.all fun p => decide (decode false p.1 0 = .ok ⟨Hdr.default, .pair .snop p.2⟩)

/-- Each word decodes to the instruction beside it. -/
def words (l : List (Word × Instr)) : Bool :=
  l.all fun p => decide (decode (wordIsMove p.1) p.1 0 = .ok ⟨Hdr.default, .one p.2⟩)

/-- R54, R55: every register form of the scalar half. -/
theorem decode_scalar_register : scalarHalves [
    (0x0000_0000_0000_0000, .snop),
    (0x0000_7E1F_0000_0000, .add 31 1 30),
    (0x0000_BE2E_8000_0000, .sub 31 2 29),
    (0x0000_FE3E_0000_0000, .mul 31 3 28),
    (0x0001_3E4D_8000_0000, .mulh 31 4 27),
    (0x0001_7E5D_0000_0000, .mulhn 31 5 26),
    (0x0001_BE6C_8000_0000, .and 31 6 25),
    (0x0001_FE7C_0000_0000, .or 31 7 24),
    (0x0002_3E8B_8000_0000, .xor 31 8 23),
    (0x0002_7E9B_0000_0000, .andn 31 9 22),
    (0x0002_BEAA_8000_0000, .shl 31 10 21),
    (0x0002_FEBA_0000_0000, .shr 31 11 20),
    (0x0003_3EC9_8000_0000, .sar 31 12 19),
    (0x0003_7ED9_0000_0000, .ror 31 13 18),
    (0x0003_BEE8_8000_0000, .min 31 14 17),
    (0x0003_FEF8_0000_0000, .max 31 15 16),
    (0x0004_3F07_8000_0000, .minn 31 16 15),
    (0x0004_7F17_0000_0000, .maxn 31 17 14),
    (0x0004_BF26_8000_0000, .seq 31 18 13),
    (0x0004_FF36_0000_0000, .slt 31 19 12),
    (0x0005_3F45_8000_0000, .sltn 31 20 11),
    (0x0005_47D0_0000_0000, .clz 3 29),
    (0x0005_89D0_0000_0000, .popc 4 29),
    (0x0005_CBD0_0000_0000, .mov 5 29)] = true := by decide

/-- R55: every immediate form of the scalar half, with imm10 at both ends of its range. -/
theorem decode_scalar_immediate : scalarHalves [
    (0x0008_0947_FC00_0000, .addi 4 20 (.short (511))),
    (0x0008_4B58_0000_0000, .andi 5 21 (.short (-512))),
    (0x0008_8D6F_FC00_0000, .ori 6 22 (.short (-1))),
    (0x0008_CF70_0400_0000, .xori 7 23 (.short (1))),
    (0x0009_1180_FC00_0000, .shli 8 24 (.short (63))),
    (0x0009_539F_E000_0000, .shri 9 25 (.short (-8))),
    (0x0009_95A0_0800_0000, .sari 10 26 (.short (2))),
    (0x0009_D7B1_9000_0000, .rori 11 27 (.short (100))),
    (0x000A_19CF_F400_0000, .slti 12 28 (.short (-3))),
    (0x000A_5208_0000_0000, .movi 9 (.short (-512)))] = true := by decide

/-- R55: every predicate form of the scalar half. -/
theorem decode_scalar_predicate : scalarHalves [
    (0x000C_0FF0_8000_0000, .peq 7 31 1),
    (0x000C_4DE1_0000_0000, .pne 6 30 2),
    (0x000C_8BD1_8000_0000, .plt 5 29 3),
    (0x000C_C9C2_0000_0000, .pge 4 28 4),
    (0x000D_07B2_8000_0000, .pltn 3 27 5),
    (0x000D_45A3_0000_0000, .pgen 2 26 6),
    (0x000D_8393_8000_0000, .ptst 1 25 7),
    (0x000E_0272_0000_0000, .pand 1 7 4),
    (0x000E_4472_0000_0000, .por 2 7 4),
    (0x000E_8672_0000_0000, .pxor 3 7 4),
    (0x000E_CA60_0000_0000, .pnot 5 6)] = true := by decide

/-- R56: every floating-point form of the vector half. -/
theorem decode_vector_float : vectorHalves [
    (0x0000_0000_0000_0000, .vnop),
    (0x0000_0000_001F_0E00, .vadd 15 0 14 ⟨.rne, false, false⟩ .f32),
    (0x0000_0000_002E_1D31, .vsub 14 1 13 ⟨.rtz, true, false⟩ .bf16),
    (0x0000_0000_003D_2C4A, .vmul 13 2 12 ⟨.rdn, false, true⟩ .f16),
    (0x0000_0000_004C_3B7F, .vfma 12 3 11 ⟨.rup, true, true⟩ .f64),
    (0x0000_0000_005B_4A80, .vfms 11 4 10 ⟨.rna, false, false⟩ .f32),
    (0x0000_0000_006A_59B1, .vmin 10 5 9 ⟨.sr0, true, false⟩ .bf16),
    (0x0000_0000_0079_68CA, .vmax 9 6 8 ⟨.sr1, false, true⟩ .f16),
    (0x0000_0000_0082_30F0, .vabs 2 3 ⟨.dyn, true, false⟩ .f32),
    (0x0000_0000_0092_40F1, .vneg 2 4 ⟨.dyn, true, false⟩ .bf16),
    (0x0000_0000_0208_9008, .vrcp 8 9 ⟨.rne, false, true⟩ .f32),
    (0x0000_0000_0219_9029, .vrsq 9 9 ⟨.rtz, false, true⟩ .bf16),
    (0x0000_0000_022A_904A, .vsqrt 10 9 ⟨.rdn, false, true⟩ .f16),
    (0x0000_0000_023B_9068, .vex2 11 9 ⟨.rup, false, true⟩ .f32),
    (0x0000_0000_024C_9089, .vlg2 12 9 ⟨.rna, false, true⟩ .bf16),
    (0x0000_0000_025D_90AA, .vtanh 13 9 ⟨.sr0, false, true⟩ .f16)] = true := by decide

/-- R56: every integer and logical form of the vector half. -/
theorem decode_vector_integer : vectorHalves [
    (0x0000_0000_00A1_F803, .viadd 1 15 8 .i32),
    (0x0000_0000_00B2_F804, .visub 2 15 8 .n32),
    (0x0000_0000_00C3_F805, .vimul 3 15 8 .i16),
    (0x0000_0000_00D4_F806, .vimin 4 15 8 .i8),
    (0x0000_0000_00E5_F803, .vimax 5 15 8 .i32),
    (0x0000_0000_00F4_5603, .vand 4 5 6),
    (0x0000_0000_0104_6603, .vor 4 6 6),
    (0x0000_0000_0114_7603, .vxor 4 7 6),
    (0x0000_0000_012A_BC04, .vshl 10 11 12 .n32),
    (0x0000_0000_013A_CC05, .vshr 10 12 12 .i16),
    (0x0000_0000_014A_DC06, .vsar 10 13 12 .i8),
    (0x0000_0000_015D_E003, .vmov 13 14)] = true := by decide

/-- R57: every SCALAR word. -/
theorem decode_scalar_words : words [
    (0x0100_1F8A_2000_0000, .div 31 2 17),
    (0x0100_2F0E_2000_0000, .divn 30 3 17),
    (0x0100_3E92_2000_0000, .rem 29 4 17),
    (0x0100_4E16_2000_0000, .remn 28 5 17),
    (0x0101_0298_0FFF_FFFF, .ld 5 6 (.short (268435455))),
    (0x0101_1298_1000_0000, .st 5 6 (.short (-268435456))),
    (0x0101_2298_1FFF_FFF8, .lds 5 6 (.short (-8))),
    (0x0101_3054_0000_0000, .chk 21),
    (0x0101_80B3_C000_0000, .aadd 1 12 30 (.short 0)),
    (0x0101_9133_C000_0008, .amin 2 12 30 (.short 8)),
    (0x0101_A1B3_C000_0010, .amax 3 12 30 (.short 16)),
    (0x0101_B233_C000_0018, .aand 4 12 30 (.short 24)),
    (0x0101_C2B3_C000_0020, .aor 5 12 30 (.short 32)),
    (0x0101_D333_C000_0028, .axor 6 12 30 (.short 40)),
    (0x0101_E3B3_C000_0030, .aswp 7 12 30 (.short 48)),
    (0x0101_F433_C000_0038, .acas 8 12 30 (.short 56)),
    (0x0102_0190_0000_0FC5, .extr 3 4 5 63),
    (0x0102_1190_0000_003F, .insr 3 4 63 0),
    (0x0103_0024_0000_0003, .fpush 9 3),
    (0x0103_1480_0000_0002, .fpop 9 2),
    (0x0104_0214_C000_0000, .hset 4 5 6),
    (0x0104_13FC_0000_0000, .hget 7 31 false),
    (0x0104_13FC_0000_0001, .hget 7 31 true),
    (0x0104_2400_0000_FFFF, .hadv 8 0xFFFF),
    (0x0104_3010_0000_0002, .hwait 4 2),
    (0x0104_4014_0000_0003, .trel 5 3),
    (0x0104_531C_0000_0001, .tvoid 6 7 1),
    (0x0104_652C_0000_0000, .tgen 10 11 0),
    (0x0104_7031_A000_0000, .tsetc 12 13)] = true := by decide

/-- R58, R59: every VECTOR word, of the memory group and of the register group. -/
theorem decode_vector_words : words [
    (0x0200_1522_0000_0100, .vld 5 4 2 256),
    (0x0200_3FFF_07FF_FF00, .vlds 15 31 7 (-256)),
    (0x0200_2619_03FF_FFFF, .vst 6 3 1 67108863),
    (0x0200_4900_0000_0000, .vchk 9),
    (0x0200_5113_77FF_FFFC, .vgath 1 14 2 3 (-4)),
    (0x0200_6113_7400_0000, .vscat 1 14 2 3 (-67108864)),
    (0x0201_0312_0000_0002, .vcmp 3 1 2 false .f32 .lt),
    (0x0201_07FE_0170_0007, .vcmp 7 15 14 true .f64 .ord),
    (0x0201_1123_4030_0000, .vsel 1 2 3 4),
    (0x0201_2500_0060_001F, .vbcst 5 .i8 (.reg 31)),
    (0x0201_3060_0030_07F1, .vext 17 6 .i32 63),
    (0x0201_4700_005F_FFFE, .vidx 7 .i16 (-2)),
    (0x0201_589A_0030_0000, .vperm 8 9 10),
    (0x0201_6890_6030_0021, .vrotm 8 9 6 33),
    (0x0201_7620_0000_0018, .vcvt 6 2 ⟨.rne, false, false⟩ .f32 8 true),
    (0x0201_7120_0B90_0000, .vcvt 1 2 ⟨.sr0, true, true⟩ .bf16 0 false),
    (0x0201_8340_0200_0002, .vred 3 4 ⟨.rtz, false, false⟩ .f32 .max),
    (0x0201_9340_0040_0005, .vscan 3 4 ⟨.rne, false, false⟩ .n32 .xor),
    (0x0201_A123_0040_0040, .vtopk 1 2 3 .n32 64),
    (0x0201_B090_5030_0014, .vpushc 9 5 .i32 20),
    (0x0201_CB00_0030_0015, .vpopc 11 .i32 21),
    (0x0202_0123_0000_0000, .kand 1 2 3),
    (0x0202_1456_0000_0000, .kor 4 5 6),
    (0x0202_2712_0000_0000, .kxor 7 1 2),
    (0x0202_3340_0000_0000, .knot 3 4),
    (0x0202_4070_0000_001D, .kcnt 29 7),
    (0x0202_5600_0000_001E, .kmovToMask 6 30),
    (0x0202_5050_0000_003C, .kmovFromMask 28 5)] = true := by decide

/-- R60, R61, R200: every TILE word. -/
theorem decode_tile_words : words [
    (0x0300_1FF0_0000_0000, .tzero ⟨31, 3, true⟩),
    (0x0300_2081_2000_0000, .tmov ⟨1, 0, false⟩ ⟨2, 1, false⟩),
    (0x0300_3180_0000_0800, .tfromv ⟨3, 0, false⟩ true),
    (0x0300_4001_0000_0800, .ttov ⟨2, 0, false⟩ true),
    (0x0300_5210_0004_8000, .tlds ⟨4, 0, true⟩ 9),
    (0x0300_6002_800F_8000, .tsts ⟨5, 0, false⟩ 31),
    (0x0300_7003_4005_02C0, .tsta ⟨6, 2, false⟩ 10 11),
    (0x0300_8384_0006_0340, .tgath ⟨7, 0, false⟩ ⟨8, 0, false⟩ 12 13),
    (0x0301_0004_8510_0381, .tadd ⟨0, 0, false⟩ ⟨9, 0, false⟩ ⟨10, 0, true⟩ ⟨14, ⟨.rne, false, false⟩, true⟩),
    (0x0301_1084_A510_03CD, .tmul ⟨1, 0, false⟩ ⟨9, 1, false⟩ ⟨10, 0, true⟩ ⟨15, ⟨.rtz, true, false⟩, true⟩),
    (0x0301_2104_C510_0413, .tmax ⟨2, 0, false⟩ ⟨9, 2, false⟩ ⟨10, 0, true⟩ ⟨16, ⟨.rdn, false, true⟩, true⟩),
    (0x0301_3184_E510_045F, .tscal ⟨3, 0, false⟩ ⟨9, 3, false⟩ ⟨10, 0, true⟩ ⟨17, ⟨.rup, true, true⟩, true⟩),
    (0x0301_8586_0000_0000, .ttrn ⟨11, 0, false⟩ ⟨12, 0, false⟩),
    (0x0301_9687_0000_0172, .tred ⟨13, 0, false⟩ ⟨14, 0, false⟩ ⟨5, ⟨.sr1, false, true⟩, false⟩),
    (0x0302_9788_0008_81BC, .tacc ⟨15, 0, false⟩ ⟨16, 0, false⟩ ⟨17, 0, false⟩ false ⟨6, ⟨.dyn, true, false⟩, false⟩),
    (0x0302_0919_8A09_01E0, .mmbi ⟨18, 0, true⟩ ⟨19, 0, false⟩ ⟨20, 0, false⟩ ⟨18, 0, false⟩ false ⟨7, ⟨.rna, false, false⟩, false⟩),
    (0x0302_1919_8A00_09E0, .mmf ⟨18, 0, true⟩ ⟨19, 0, false⟩ ⟨20, 0, false⟩ ⟨0, 0, false⟩ true ⟨7, ⟨.rna, false, false⟩, false⟩),
    (0x0302_2919_8A09_01E1, .mmf32 ⟨18, 0, true⟩ ⟨19, 0, false⟩ ⟨20, 0, false⟩ ⟨18, 0, false⟩ false ⟨7, ⟨.rna, false, false⟩, true⟩),
    (0x0302_3919_8A00_09E1, .mmd ⟨18, 0, true⟩ ⟨19, 0, false⟩ ⟨20, 0, false⟩ ⟨0, 0, false⟩ true ⟨7, ⟨.rna, false, false⟩, true⟩),
    (0x0302_8A8B_0874_C22E, .tcvt ⟨21, 0, false⟩ ⟨22, 0, false⟩ 0x87 3 true false ⟨8, ⟨.sr0, true, true⟩, false⟩),
    (0x0302_8A8B_0500_1000, .tcvt ⟨21, 0, false⟩ ⟨22, 0, false⟩ 0x50 0 false true ⟨0, ⟨.rne, false, false⟩, false⟩),
    (0x0302_8B8C_0873_F240, .tcvtPageAppend ⟨23, 0, false⟩ ⟨24, 0, false⟩ 0x87 15 true ⟨9, ⟨.rne, false, false⟩, false⟩)] = true := by decide

/-- R62, R63, R71, R84, R118, R119: every CONTROL and SYSTEM word. -/
theorem decode_control_and_system_words : words [
    (0x0400_1003_FFFF_FFFF, .br (-1)),
    (0x0400_2F81_FFFF_FFFF, .jmp 31 8589934591),
    (0x0400_3002_0000_0000, .call (-8589934592)),
    (0x0400_4000_0000_0000, .ret),
    (0x0400_5283_FFFF_FFFD, .loop 5 (-3)),
    (0x0400_6380_0000_0000, .rep 7),
    (0x0400_8000_0000_000F, .syncm 0xF),
    (0x0400_9400_0000_0000, .waitt 8),
    (0x0400_A000_8000_0001, .mark 0x80000001),
    (0x0400_B480_0000_0028, .timed 9 40),
    (0x0400_C000_0000_0000, .exit),
    (0x0500_1A80_4080_0000, .mfc 21 0x102),
    (0x0500_2050_4080_0000, .mtc 20 0x102),
    (0x0500_200C_0880_0000, .mtcTcmp 3),
    (0x0500_2010_0040_0000, .mtcSstat 4),
    (0x0500_3000_003F_FFFF, .trap 0x3FFFFF),
    (0x0500_4000_0000_0000, .eret),
    (0x0500_5000_0000_0000, .fenceh),
    (0x0500_6000_0000_00A5, .waiti 0xA5),
    (0x0500_7018_0000_0001, .seed 1 6),
    (0x0501_0010_0000_0003, .tlbinv 4 3),
    (0x0501_1000_0000_0017, .banksv 7 1),
    (0x0501_2000_0000_0023, .bankld 3 2),
    (0x0501_3010_0000_0000, .pcmd 4)] = true := by decide

/-- R64, R213, R214, R218, R221, R222: every MOVE word; three of them the specification writes out. -/
theorem decode_move_words : words [
    (0x0600_1415_0000_0009, .copy 8 5 1 .d2 true),
    (0x0600_2415_0100_06C1, .copytIn 8 5 1 ⟨3, 1, true⟩ 0x20 false 0 .d2 false),
    (0x0600_2417_0004_081D, .copytOut 8 5 3 ⟨4, 0, false⟩ true .btdst true),
    (0x0600_2402_0080_CC60, .copytXfer 8 2 ⟨6, 0, true⟩ ⟨2, 0, false⟩ 3 false),
    (0x0600_3401_0000_0000, .cwait 8 1),
    (0x0600_44A1_0000_0000, .cstat 9 8 1),
    (0x0600_5018_0000_003C, .prefL2 6 15),
    (0x0600_501C_0000_3FFD, .prefLease 7 4095),
    (0x0600_5018_0000_0002, .prefDemote 6 0),
    (0x0600_6100_0000_0003, .mwait 2 false 1 true),
    (0x0600_6380_0000_003E, .mwait 7 true 15 false)] = true := by decide

/-! ## Ill-formed terms (R54 to R67, R200) -/

/-- Every check of a line refuses a term that breaks it: the format of each body, the agent, S on the MP. -/
theorem ill_formed_lines :
    Line.wf false ⟨Hdr.default, .pair .vnop .snop⟩ = false ∧ Line.wf false ⟨Hdr.default, .pair .snop .snop⟩ = false ∧
    Line.wf false ⟨Hdr.default, .one (.add 1 2 3)⟩ = false ∧ Line.wf false ⟨Hdr.default, .one .powerOn⟩ = false ∧
    Line.wf true ⟨Hdr.default, .pair .snop .vnop⟩ = false ∧ Line.wf true ⟨⟨true, 0, false, 0⟩, .one .fenceh⟩ = false ∧
    Line.wf true ⟨Hdr.default, .one .fenceh⟩ = true ∧ Line.wf false ⟨⟨true, 7, true, 7⟩, .pair .snop .vnop⟩ = true := by decide +kernel

/-- R52, R62 to R65: words of the other agent. -/
theorem ill_formed_agents :
    ([.rep 1, .syncm 1, .mark 1, .timed 1 4, .trap 1, .eret, .seed 0 1, .tlbinv 1 0, .banksv 0 0, .bankld 0 0, .pcmd 1, .vchk 1,
      .kand 1 2 3, .ttrn ⟨0, 0, false⟩ ⟨1, 0, false⟩] : List Instr).all (fun i => !i.wf true && i.wf false) = true ∧
    ([.copy 1 2 0 .d1 false, .cwait 1 0, .mwait 1 false 1 false] : List Instr).all (fun i => !i.wf false && i.wf true) = true := by
  decide +kernel

/-- R66, R67: fields that must be zero for an instruction, each beside a term that keeps the rule. -/
theorem ill_formed_reserved :
    ([.vcmp 1 2 3 true .i32 .eq, .vred 1 2 ⟨.rtz, false, false⟩ .i32 .add, .vscan 1 2 ⟨.rne, true, false⟩ .n32 .add,
      .vred 1 2 ⟨.rne, false, true⟩ .i8 .add, .vext 1 2 .f64 32, .banksv 8 0, .banksv 4 2, .bankld 0 3,
      .mmf ⟨1, 0, false⟩ ⟨2, 0, false⟩ ⟨3, 0, false⟩ ⟨1, 0, false⟩ true ⟨0, ⟨.rne, false, false⟩, false⟩,
      .tacc ⟨1, 0, false⟩ ⟨2, 0, false⟩ ⟨0, 1, false⟩ true ⟨0, ⟨.rne, false, false⟩, false⟩] : List Instr).all
      (fun i => !i.reservedOk && !i.wf false) = true ∧
    Instr.wf true (.copytIn 1 2 0 ⟨0, 0, false⟩ 0x20 true 0 .d1 false) = false ∧
    ([.vcmp 1 2 3 true .f64 .eq, .vext 1 2 .f64 31, .banksv 7 0, .banksv 3 2, .bankld 7 1] : List Instr).all (fun i => i.wf false) =
      true := by
  decide +kernel

/-- R67, R121, R200: field values that an instruction does not accept, each beside one that it accepts. -/
theorem ill_formed_fields :
    ([.vadd 1 2 3 ⟨.rne, false, false⟩ .i32, .viadd 1 2 3 .f32, .vshl 1 2 3 .f64, .vidx 1 .f16 0, .vrcp 1 2 ⟨.rne, false, false⟩ .f64,
      .vcmp 1 2 3 false .bf16 .eq, .vcmp 1 2 3 false .i32 .un, .vext 1 2 .i16 0, .vcvt 1 2 ⟨.rne, false, false⟩ .f32 0 true,
      .vred 1 2 ⟨.rne, false, false⟩ .f32 .xor, .vtopk 1 2 3 .f64 1, .vtopk 1 2 3 .i32 65, .vpushc 1 1 .i16 2, .vpopc 1 .f64 2,
      .tcvt ⟨0, 0, false⟩ ⟨1, 0, false⟩ 0x00 0 false false ⟨0, ⟨.rne, false, false⟩, false⟩,
      .tcvt ⟨0, 0, false⟩ ⟨1, 0, false⟩ 0x10 0 false true ⟨0, ⟨.rne, false, false⟩, false⟩,
      .tcvt ⟨0, 0, false⟩ ⟨1, 0, false⟩ 0x83 0 true false ⟨0, ⟨.rne, false, false⟩, false⟩,
      .tcvtPageAppend ⟨0, 0, false⟩ ⟨1, 0, false⟩ 0x83 0 false ⟨0, ⟨.rne, false, false⟩, false⟩, .mfc 1 0x009, .mfc 1 0x015,
      .mtc 1 0x204, .mtc 1 0x001, .mtc 1 0x022] : List Instr).all (fun i => !i.wf false) = true ∧
    ([.fpush 1 2, .fpop 1 0, .mfc 1 0x014, .copytIn 1 2 0 ⟨0, 0, false⟩ 0x01 false 0 .d1 false] : List Instr).all
      (fun i => !i.wf true) = true ∧
    ([.vtopk 1 2 3 .i32 64, .mfc 1 0x203, .vcvt 1 2 ⟨.rne, false, false⟩ .f32 8 true, .fpush 1 2] : List Instr).all (fun i => i.wf false) =
      true ∧
    ([.fpush 1 3, .mfc 1 0x015] : List Instr).all (fun i => i.wf true) = true := by
  decide +kernel

/-! ## Words that are not instructions -/

/-- R67, R68, R50: the reserved format; an unassigned opcode; a word of the MP on a stream; a reserved bit before a bad
type; a bad type; an unassigned control register; a literal where none is allowed; and a literal that is used. -/
theorem decode_rejects :
    decode false 0x0700_0000_0000_0000 0 = .error .resFmt ∧ decode false 0x0006_0000_0000_0000 0 = .error .illegalOp ∧
    decode false 0x0600_3400_0000_0000 0 = .error .illegalOp ∧ decode true 0x0300_1000_0000_0000 0 = .error .illegalOp ∧
    decode false 0x0000_0000_0400_0000 0 = .error (.resFld .snop) ∧
    decode false 0x0000_0000_0011_0203 0 = .error (.illegalFld .snop) ∧ decode false 0x0500_1080_0240_0000 0 = .error (.illegalReg 9) ∧
    decode false 0x0110_1000_0000_0000 5 = .error (.resFld (.div 0 0 0)) ∧
    decode false 0x001A_4200_0000_0000 0x8000_0000_0000_0001 = .ok ⟨Hdr.default, .pair (.movi 1 (.lit 0x8000_0000_0000_0001)) .vnop⟩ := by
  decide +kernel

/-! ## Witnesses: states that meet the hypotheses of the statements -/

/-- A word has its effect, as a Bool. -/
def runs (i : Instr) (s : State) : Bool :=
  (checks i s).isNone && !absentOn (isOchre s.blk.core) i && !((markRegs i s).any fun r => s.ag.pend.contains r) && !ctlPending i s &&
    !latchedDest i s && !s.ag.poisoned (.p s.cur.hdr.g) && guardTrue s.ag s.cur.hdr && !interlocked i s && !(s.cur.hdr.s && !s.cur.sync)

theorem runs_of {i : Instr} {s : State} (h : runs i s = true) : Runs i s := by
  simp only [runs, Bool.and_eq_true, Bool.not_eq_true', Option.isNone_iff_eq_none] at h
  obtain ⟨⟨⟨⟨⟨⟨⟨⟨h1, h2⟩, h3⟩, h9⟩, h4⟩, h5⟩, h6⟩, h7⟩, h8⟩ := h
  exact ⟨h1, h2, h3, h9, h4, h5, h6, h7, h8⟩

/-- Every word of the list has its effect in the state. -/
theorem runs_all {l : List Instr} {s : State} (h : l.all (runs · s) = true) : ∀ i ∈ l, Runs i s :=
  fun i hi => runs_of (List.all_eq_true.mp h i hi)

/-- The word has its effect, and its claims succeed. -/
def Claims (i : Instr) (s : State) : Prop := Runs i s ∧ ∃ u, claimed i false s = some u

theorem claims_all {l : List Instr} {s : State} (h : l.all (fun i => runs i s && (claimed i false s).isSome) = true) :
    ∀ i ∈ l, Claims i s := fun i hi => by
  have := List.all_eq_true.mp h i hi
  simp only [Bool.and_eq_true] at this
  exact ⟨runs_of this.1, Option.isSome_iff_exists.mp this.2⟩

/-- The items of a word let it take its tile issue move, as a Bool. -/
def ready (i : Instr) (u : State) : Bool :=
  ((itemsOf u.ag i).fault? u.blk).isNone && !(itemsOf u.ag i).wait u.blk && !unitBusy i u

theorem ready_of {i : Instr} {u : State} (h : ready i u = true) : Ready i u := by
  simp only [ready, Bool.and_eq_true, Bool.not_eq_true', Option.isNone_iff_eq_none] at h
  exact ⟨h.1.1, h.1.2, h.2⟩

/-- The word has its effect, its claims succeed, and its items let it take its tile issue move, their data produced, with `P`. -/
def Issues (i : Instr) (s : State) (P : State → Prop) : Prop :=
  Runs i s ∧ ∃ u, claimed i false s = some u ∧ Ready i u ∧ Produced i u ∧ P u

theorem issues_of {i : Instr} {s : State} (P : State → Prop) [DecidablePred P]
    (h : (runs i s && (claimed i false s).any fun u => ready i u && !(itemsOf u.ag i).late i u.blk && decide (P u)) = true) :
    Issues i s P := by
  simp only [Bool.and_eq_true, Option.any_eq_true] at h
  obtain ⟨h1, u, hu, ⟨h2, h3⟩, h4⟩ := h
  exact ⟨runs_of h1, u, hu, ready_of h2, by simpa [Produced] using h3, by simpa using h4⟩

theorem issues_all {l : List Instr} {s : State}
    (h : l.all (fun i => runs i s && (claimed i false s).any fun u => ready i u && !(itemsOf u.ag i).late i u.blk && decide True) = true) :
    ∀ i ∈ l, Issues i s fun _ => True := fun i hi => issues_of _ (List.all_eq_true.mp h i hi)

/-- Partition 1, with two clusters of Indigo cores and one of Ochre cores, all of DRAM and every feature. -/
def part1 : Partition := { Partition.reset with
  clusters := [0, 1, 72]
  ranges := [(0, 0x58_0000_0000)]
  isa := 0x7F
  priv := true
  links := 0xFFFF }

/-- An agent that runs, with its first registers, its first handles and its privilege as given. -/
def agent (regs : List Word) (hs : List Handle) (pm : Bool) : Agent := { Agent.reset with
  run := .running
  s := Vector.ofFn fun n => regs.getD n.val 0
  h := Vector.ofFn fun n => hs.getD n.val Handle.reset
  p := Vector.replicate 8 true
  ctl := { Ctl.reset with pm := pm } }

/-- A block on core 0, in context slot 0. -/
def block (core : Nat) : Block := { Block.reset with
  core := core
  status := .running
  isa := 0x7F }

/-- A machine in which the word of agent w is being issued, at address 0x1000. -/
def issuing (w : Nat) (b : Block) (a : Agent) : State := { State.reset with
  ag := a
  blk := b
  cur := { IssueCtx.reset with
    w := w
    pc := 0x1000
    next := 0x1008 }
  parts := [(1, part1)]
  time := Vector.replicate 8 1000
  dev := ⟨true, 0, 0, 7, true, false, false, 0⟩ }

/-- A stream of an Indigo core whose s1 names its scratchpad; s2 is a large count, s3 a non-canonical address. -/
def stream : State := issuing 0 (block 0) (agent [0, 0xF_0000_0020_0000, 0xFFFF_FFFF_FFFF_FFFF, 0x0100_0000_0000_0000, 5] [] true)

/-- ScalarForms, PredicatesAndBitFields: every word of them has its effect on the stream, the fixed destination s0 included; the
count of leading zeros at its ends, and an immediate of each form. -/
theorem witness_ScalarForms :
    (∀ i ∈ ([.add 0 1 2, .sub 1 2 3, .mul 1 1 1, .mulh 1 2 3, .mulhn 1 2 3, .and 1 2 3, .or 1 2 3, .xor 1 2 3, .andn 1 2 3, .shl 1 2 3,
      .shr 1 2 3, .sar 1 2 3, .ror 1 2 3, .min 1 2 3, .max 1 2 3, .minn 1 2 3, .maxn 1 2 3, .seq 1 2 3, .slt 1 2 3, .sltn 1 2 3,
      .clz 1 0, .clz 1 2, .popc 1 2, .mov 31 2, .addi 1 2 (.short (-512)), .andi 1 2 (.lit 0), .ori 1 2 (.short 511), .xori 1 2 (.short 1),
      .shli 1 2 (.short (-1)), .shri 1 2 (.lit 64), .sari 1 2 (.short 63), .rori 1 2 (.short 0), .slti 1 2 (.short (-1)),
      .movi 1 (.lit 7), .movi 0 (.short 1)] : List Instr), Runs i stream) ∧
    stream.sReg 0 = 0 ∧ stream.sReg 2 = BitVec.allOnes 64 ∧ (-512 : BitVec 10).toInt = -512 ∧
    (decScalarHalf 0 0 0 9 0x29 none).isSome = true :=
  ⟨runs_all (by decide +kernel), by decide +kernel⟩

theorem witness_PredicateForms :
    ∀ i ∈ ([.peq 0 1 2, .pne 1 2 3, .plt 7 2 3, .pge 1 2 3, .pltn 1 2 3, .pgen 1 2 3, .ptst 1 2 3, .pand 1 2 3, .por 1 0 7,
      .pxor 1 2 3, .pnot 1 0] : List Instr), Runs i stream :=
  runs_all (by decide +kernel)

/-- PredicatesAndBitFields: fields at both ends of their ranges, and division by 0 and of the most negative number. -/
theorem witness_BitFieldsAndDivision :
    (∀ i ∈ ([.extr 1 2 0 63, .extr 1 2 63 63, .insr 1 2 63 0, .insr 0 2 0 63, .div 1 2 0, .divn 1 2 0, .rem 1 2 3, .remn 0 2 3] : List Instr),
      Runs i stream) ∧
    (∀ j < 64, (stream.sReg 2).getLsbD j = (decide (j ≤ 63) && (stream.sReg 2).getLsbD (0 + j))) ∧
    (∀ j < 64, (stream.sReg 2 >>> 63).getLsbD j = (decide (j ≤ 63) && (stream.sReg 2).getLsbD (63 + j))) ∧
    (∀ j < 64, (stream.sReg 2).getLsbD j =
      if (0 : Nat) ≤ j ∧ j ≤ 0 + 63 then (stream.sReg 2).getLsbD (j - 0) else (stream.sReg 0).getLsbD j) :=
  ⟨runs_all (by decide +kernel), by decide +kernel⟩

/-- WordsWithoutEffect, CountInstructions, Handles: handle 0 names tile register 0 in generation 0, which is present. -/
theorem witness_WordsWithoutEffect :
    (∀ i ∈ ([.snop, .vnop, .chk 1, .vchk 2, .hwait 0 0] : List Instr), Claims i stream) ∧ stream.ag.poisoned (.s 1) = false ∧
    stream.ag.poisoned (.v 2) = false ∧ (stream.ag.h[(0 : HReg)]).cls ≠ 2 ∧
    (stream.blk.md (stream.ag.opnd ⟨0, 0, false⟩).r).wc = (stream.ag.opnd ⟨0, 0, false⟩).x :=
  ⟨claims_all (by decide +kernel), by decide +kernel⟩

/-- ScalarAccesses: an address in the scratchpad, one that is not canonical, and a poisoned base; the offset as a field and
as a literal. -/
theorem witness_ScalarAccesses :
    (∀ i ∈ ([.ld 5 1 (.short 8), .lds 5 1 (.short (-1)), .st 2 1 (.lit 16), .aadd 5 1 2 (.short 0), .amin 5 1 2 (.short 0), .amax 5 1 2 (.short 0),
      .aand 5 1 2 (.short 0), .aor 5 1 2 (.short 0), .axor 5 1 2 (.short 0), .aswp 5 1 2 (.short 0), .acas 5 1 2 (.short 0), .ld 5 3 (.short 0),
      .lds 5 3 (.short 0)] : List Instr), Runs i stream) ∧
    translate stream stream.blk (stream.sReg 1 + 8) .load = .ok (.pad 8) ∧
    translate stream stream.blk (stream.sReg 1 + 16) .store = .ok (.pad 16) ∧
    translate stream stream.blk (stream.sReg 1) .atomic = .ok (.pad 0) ∧ translate stream stream.blk (stream.sReg 3) .load = .fault cPAGE ∧
    stream.ag.poisoned (.s 1) = false ∧
    (0xF_0000_001F_FFFF : Word).toNat = ((stream.sReg 1).toNat + 2 ^ 64 + (-1 : BitVec 29).toInt).toNat % 2 ^ 64 :=
  ⟨runs_all (by decide +kernel), by decide +kernel⟩

/-- A stream whose s1 is poisoned. -/
def poisoned : State := { stream with ag := { stream.ag with sPoison := 2 } }

theorem witness_ScalarAccesses_poisoned :
    (∀ i ∈ ([.ld 5 1 (.short 8), .acas 5 1 2 (.short 0)] : List Instr), Runs i poisoned) ∧ poisoned.ag.poisoned (.s 1) = true :=
  ⟨runs_all (by decide +kernel), by decide +kernel⟩

/-- A block with a page of program text. -/
def texted : Block := { block 0 with
  textVa := 0x1000
  textSize := 0x1000 }

/-- AddressRules: each clause at the ends of its range. -/
theorem witness_AddressRules :
    ((0x0080_0000_0000_0000 : Word).extractLsb' 55 9 ≠ 0 ∧ (0x0080_0000_0000_0000 : Word).extractLsb' 55 9 ≠ 0x1FF) ∧
    (0xF_0000_0000_0000 ≤ (0xF_0000_0020_0000 : Word).toNat ∧ (0xF_FFFF_FFFF_FFFF : Word).toNat ≤ 0xF_FFFF_FFFF_FFFF) ∧
    (let c : Word := 0xF_0000_003F_FFFF
     (c.extractLsb' 24 24).toNat = (block 0).core ∧ (c.extractLsb' 0 24).toNat < 0x400000 ∧
       ((c.extractLsb' 0 24).toNat - 0x200000) / 256 < (block 0).sprows) ∧
    (let within (va : Word) : Prop := canonical va = true ∧ va.toNat / 2 ^ 48 ≠ 15 ∧ texted.textVa.toNat ≤ va.toNat ∧
       va.toNat < texted.textVa.toNat + texted.textSize
     within 0x1000 ∧ within 0x1FFF) := by
  decide

/-- A stream whose port 0 has a result, and one whose port 0 is full. -/
def ported (cmd : Nat) : State := { stream with blk := { stream.blk with
  ports := stream.blk.ports.set 0 { Port.reset with
    cmd := List.replicate cmd 7
    res := [(7, false)] } } }

theorem witness_EnginePorts :
    (∀ i ∈ ([.fpush 2 0, .fpop 2 0] : List Instr), Runs i (ported 15)) ∧ Runs (.fpush 2 0) (ported 16) ∧
    Runs (.fpush 1 0) poisoned ∧ poisoned.ag.poisoned (.s 1) = true ∧ (ported 15).ag.poisoned (.s 2) = false ∧
    (let p (n : Nat) : Port := (ported n).blk.ports[(0 : Fin 4)]
     (p 15).cmd.length + (p 15).cmdSlots < 16 ∧ (p 15).resClaims < (p 15).res.length ∧ 16 ≤ (p 16).cmd.length + (p 16).cmdSlots) :=
  ⟨runs_all (by decide +kernel), runs_of (by decide +kernel), runs_of (by decide +kernel), by decide +kernel⟩

/-- The MP, with a command at its port 3, and with its result FIFO full. -/
def engine (res : Nat) : State := issuing 4 { block 0 with
  ports := (Vector.replicate 4 Port.reset).set 3 { Port.reset with
    cmd := [5]
    res := List.replicate res (7, false) } } (agent [0, 1, 2] [] false)

theorem witness_EnginePorts_mp :
    (∀ i ∈ ([.fpush 2 3, .fpop 2 3] : List Instr), Runs i (engine 15)) ∧ Runs (.fpush 2 3) (engine 16) ∧
    (let p (n : Nat) : Port := (engine n).blk.ports[(3 : Fin 4)]
     (p 15).res.length + (p 15).resSlots < 16 ∧ (p 15).cmdClaims < (p 15).cmd.length ∧ 16 ≤ (p 16).res.length + (p 16).resSlots) :=
  ⟨runs_all (by decide +kernel), runs_of (by decide +kernel), by decide +kernel⟩

/-- A stream whose scalars 1 to 4 hold a descriptor of tile registers 511 and on, one of accumulators 0 to 63, a cursor and
the metadata of a tile register. -/
def setting : State := issuing 0 (block 0)
  (agent [0, 0x7FC, 0x1_F801, 0xFFFF, 0x0010_0000_0000_0000 >>> 16] [⟨0, 5, 3, 0, 0, 3, 9⟩] true)

/-- Handles: descriptors at the ends of classes 0 and 1, and HADV of a cursor at the end of its ring. -/
theorem witness_Handles :
    (∀ i ∈ ([.hset 4 1 3, .hset 4 2 3, .hget 5 0 false, .hget 5 0 true, .hadv 0 0xFFFF, .hadv 0 0] : List Instr), Runs i setting) ∧
    (let x : Handle := ⟨0, 511, 0, 0, 0, 0, 0⟩
     let y : Handle := ⟨1, 0, 63, 0, 0, 0, 0⟩
     let word (x : Handle) : Nat := x.cls.toNat + 4 * x.base.toNat + 2 ^ 11 * x.len1.toNat + 2 ^ 17 * x.q.toNat + 2 ^ 21 * x.core.toNat
     (setting.sReg 1).toNat = word x ∧ (setting.sReg 2).toNat = word y ∧ (setting.sReg 3).toNat < 2 ^ 16 ∧
     x.e.toNat = ((setting.sReg 3).toNat + 1) % 2 ^ 16 ∧ x.base.toNat + x.len1.toNat ≤ 511 ∧ y.base.toNat + y.len1.toNat ≤ 63) ∧
    (setting.ag.h[(0 : HReg)]).s ≤ (setting.ag.h[(0 : HReg)]).len1 :=
  ⟨runs_all (by decide +kernel), by decide +kernel⟩

/-- Handles: the MP names a core of another die. -/
theorem witness_Handles_remote :
    let s := issuing 4 (block 0) (agent [0, 2 + 2 ^ 21 * 831, 0] [] false)
    let x : Handle := ⟨2, 0, 0, 0, 831, 0, 1⟩
    Runs (.hset 4 1 2) s ∧ coreExists x.core.toNat = true ∧
    (s.sReg 1).toNat = x.cls.toNat + 2 ^ 21 * x.core.toNat ∧ s.cur.w = 4 :=
  ⟨runs_of (by decide +kernel), by decide +kernel⟩

/-- CountInstructions: tile register 0 is present; TSETC of the last tile register and of the last accumulator. -/
theorem witness_CountInstructions :
    (let s := issuing 0 (block 0) (agent [0, 511, 0x20_0000_0000, 575, 0x40_0000_0000] [] true)
     (∀ i ∈ ([.trel 0 0, .tvoid 1 0 0, .tgen 5 0 0, .tsetc 1 2, .tsetc 3 4] : List Instr), Claims i s) ∧
     (s.ag.h[(0 : HReg)]).cls ≠ 2 ∧ (s.blk.md (s.ag.opnd ⟨0, 0, false⟩).r).wc = (s.ag.opnd ⟨0, 0, false⟩).x ∧
     (∀ n ∈ ([2, 4] : List SReg), (s.sReg n).extractLsb' 26 6 = 0 ∧ (s.sReg n).extractLsb' 40 24 = 0) ∧
     tagValid ((s.sReg 2).extractLsb' 32 8).toNat = true ∧ (s.sReg 4).extractLsb' 32 8 = 0x40) :=
  ⟨claims_all (by decide +kernel), by decide +kernel⟩

/-- VectorArithmetic, VectorIntegers, Transcendentals, LanesAndMasks, CompareAndTopK, ConversionsAndReductions: every
word of them has its effect on a stream, of its first and its last type. -/
theorem witness_vector_words :
    (let m : FMode := ⟨.dyn, true, true⟩
     let z : FMode := ⟨.rne, false, false⟩
     ∀ i ∈ ([.vadd 1 2 3 m .f32, .vsub 1 2 3 m .bf16, .vmul 1 2 3 m .f16, .vfma 1 2 3 m .f32, .vfms 1 1 1 m .f32, .vmin 1 2 3 m .f32,
       .vmax 15 2 3 m .f16, .vabs 1 2 m .f32, .vneg 1 2 m .f16, .viadd 1 2 3 .i32, .visub 1 2 3 .n32, .vimul 1 2 3 .i16, .vimin 1 2 3 .i8,
       .vimax 1 2 3 .n32, .vshl 1 2 3 .i32, .vshr 1 2 3 .i8, .vsar 1 2 3 .i16, .vand 1 2 3, .vor 1 2 3, .vxor 1 2 3, .vmov 1 2,
       .vrcp 1 2 m .f32, .vrsq 1 2 m .bf16, .vsqrt 1 2 m .f16, .vex2 1 2 m .f32, .vlg2 1 2 m .f32, .vtanh 1 2 m .f32, .vsel 1 2 3 4,
       .vbcst 1 .i8 (.reg 2), .vbcst 1 .f32 (.lit 7), .vext 1 2 .i32 63, .vidx 1 .i16 (-1), .vperm 1 2 3, .vrotm 1 2 3 63, .kand 1 2 3,
       .kor 1 2 3, .kxor 1 2 3, .knot 0 2, .kmovToMask 1 2, .kmovFromMask 1 2, .kcnt 1 2, .vtopk 1 2 3 .f32 64, .vtopk 1 2 3 .n32 0,
       .vcmp 1 2 3 true .f32 .lt, .vcmp 1 2 3 false .n32 .ge, .vcvt 1 2 m .f32 8 true, .vcvt 1 2 m .f16 0 false, .vred 1 2 z .i32 .xor,
       .vscan 1 2 z .i8 .add, .vred 1 2 m .bf16 .add, .vscan 1 2 m .f32 .max] : List Instr), Claims i stream) := by
  exact claims_all (by decide +kernel)

/-- The FP64 words, on a stream of an Ochre core. -/
theorem witness_vector_words_fp64 :
    (let m : FMode := ⟨.rne, false, false⟩
     ∀ i ∈ ([.vadd 1 2 3 m .f64, .vneg 1 2 m .f64, .vext 1 2 .f64 31, .vcmp 1 2 3 false .f64 .ord, .vcvt 1 2 m .f64 2 true,
       .vred 1 2 m .f64 .min, .vscan 1 2 m .f64 .add] : List Instr), Claims i (issuing 0 (block 768) (agent [] [] true))) := by
  exact claims_all (by decide +kernel)

/-- CompareAndTopK, ConversionsAndReductions: an order of equal keys, a mask of equal elements, and the combinations of zeros. -/
theorem witness_vector_orders :
    ((List.range 64).Perm (List.range 64) ∧ (List.range 64).Pairwise fun i j => ¬ (0 : Int) < 0 ∧ i < j) ∧
    (∀ i < 64, ((BitVec.allOnes 64).getLsbD i = true ↔ elemOf (stream.vReg 1) 32 (i / (32 / 32)) = elemOf (stream.vReg 2) 32 (i / (32 / 32)))) ∧
    (∀ e < 64, (0 : Nat) = ((List.range (e + 1)).map fun _ => 0).sum % 2 ^ 32) := by
  decide +kernel

/-- A stream with lane 63 enabled in k1 and PIDX at its last lane, and s1 in its scratchpad; s3 is not canonical. -/
def lanes (pidx : BitVec 16) : State := { stream with ag := { stream.ag with
  k := (Vector.replicate 8 (0 : Word)).set 1 (1 <<< 63)
  ctl := { stream.ag.ctl with prog := pidx } } }

/-- VectorAccesses: a row in the scratchpad, an address that faults, a mask of the last lane and one of none; a gather at
its last lane, and one with no lane left. -/
theorem witness_VectorAccesses :
    (∀ i ∈ ([.vld 1 1 1 0xFF, .vlds 1 1 1 0, .vst 1 1 1 0, .vld 1 1 2 0, .vld 1 3 1 0, .vlds 1 3 1 0, .vst 1 3 1 0, .vgath 1 2 1 1 0,
      .vscat 1 2 1 1 0] : List Instr), Claims i (lanes 63)) ∧
    (lanes 63).kReg 1 ≠ 0 ∧ (lanes 63).kReg 2 = 0 ∧ (lanes 63).ag.poisoned (.s 1) = false ∧ (lanes 63).ag.poisoned (.k 1) = false ∧
    translate (lanes 63) (lanes 63).blk ((lanes 63).sReg 1 + 0xFF) .load = .ok (.pad 0xFF) ∧
    translate (lanes 63) (lanes 63).blk ((lanes 63).sReg 3) .store = .fault cPAGE ∧
    ((lanes 63).ag.ctl.prog.toNat % 64 ≤ 63 ∧ ((lanes 63).kReg 1).getLsbD 63 = true ∧ ∀ j < 63, ((lanes 63).kReg 1).getLsbD j = false) ∧
    Claims (.vgath 1 2 1 2 0) (lanes 0) ∧ ∀ j < 64, ((lanes 0).kReg 2).getLsbD j = false :=
  ⟨claims_all (by decide +kernel), by decide +kernel, by decide +kernel, by decide +kernel, by decide +kernel, by decide +kernel,
    by decide +kernel, by decide +kernel, claims_all (l := [.vgath 1 2 1 2 0]) (by decide +kernel) _ (List.mem_singleton.mpr rfl),
    by decide +kernel⟩

/-- A stream whose scratchpad begins with a ring of 64 slots at row 1, which holds three elements. -/
def ringed : State := { stream with blk := { stream.blk with
  pad := (((Store.empty.writeLE 0 8 0xF_0000_0020_0100).writeLE 8 8 64).writeLE 16 8 3).writeLE 24 8 0 } }

theorem witness_RingCompaction :
    (∀ i ∈ ([.vpushc 1 0 .i32 1, .vpushc 1 1 .i32 1, .vpopc 1 .n32 1] : List Instr), Claims i ringed) ∧ ringed.ag.accs = [] ∧
    ringed.ag.poisoned (.s 1) = false ∧ checkRing ringed.blk (ringed.sReg 1) = .ok ⟨0, 256, 64, 3, 0⟩ ∧ ringed.blk.pad.wf = true ∧
    (0 + 32 ≤ 256) ∧ ringed.ag.poisoned (.k 0) = false ∧
    ((List.range 64).filter (ringed.kReg 1).getLsbD).length ≤ 64 - ((3 : Word) - 0).toNat :=
  ⟨claims_all (by decide +kernel), by decide +kernel⟩

/-- A tile register in generation 0 with a tag. -/
def tagged (tag : BitVec 8) : Tile := { Tile.reset with md := Meta.reset tag }

/-- Handles: 0, 1 FP32 tiles; 2 a destination; 3, 4 FP16 tiles; 5 indices; 6 an accumulator; 7 an accumulator to write, the
first of a pair; 8, 9 bi4 tiles; 10 an FP64 pair; 11, 12 FP64 tiles; 13 an E4M3 tile; 14 a void tile; 15 a tile in place. -/
def handles : List Handle :=
  [⟨0, 0, 0, 0, 0, 0, 0⟩, ⟨0, 1, 0, 0, 0, 0, 0⟩, ⟨0, 2, 0, 5, 0, 0, 1⟩, ⟨0, 3, 0, 0, 0, 0, 0⟩, ⟨0, 4, 0, 0, 0, 0, 0⟩, ⟨0, 5, 0, 0, 0, 0, 0⟩,
   ⟨1, 0, 0, 0, 0, 0, 0⟩, ⟨1, 2, 0, 0, 0, 0, 1⟩, ⟨0, 8, 0, 0, 0, 0, 0⟩, ⟨0, 9, 0, 0, 0, 0, 0⟩, ⟨1, 4, 0, 0, 0, 0, 0⟩, ⟨0, 11, 0, 0, 0, 0, 0⟩,
   ⟨0, 12, 0, 0, 0, 0, 0⟩, ⟨0, 13, 0, 0, 0, 0, 0⟩, ⟨0, 14, 0, 0, 0, 0, 0⟩, ⟨0, 15, 0, 0, 0, 0, 0⟩]

/-- The scalars of a stream that runs tile words: masks with their counts at the full extents, rows, addresses, and the
parameters of TSTA and TGATH. -/
def tileScalars : List Word :=
  [0, 0xF_0000_0020_0000, 0x2020, 0x20_2020, 8183, 0x10_0000_0020, 0x10_2020, 0x80_0F00_2020, 0x1020]

/-- A stream that runs tile words on a core. -/
def tiling (core : Nat) (regs : List Word := tileScalars) : State := issuing 0 { block core with
  tiles := [(0, tagged 0x10), (1, tagged 0x10), (2, tagged 0x87), (3, tagged 0x20), (4, tagged 0x20), (5, tagged 0xC0), (8, tagged 0x87),
    (9, tagged 0x87), (11, tagged 0x40), (12, tagged 0x40), (13, tagged 0x50), (14, { Tile.reset with md := { Meta.reset 0 with void := true } }),
    (15, tagged 0x30)]
  accs := [(4, { Accum.reset with md := Meta.reset 0x40 }), (5, { Accum.reset with md := Meta.reset 0x40 })]
  pad := Store.empty.writeLE (256 * 8191 + 128) 1 0x10 } (agent (if core < 768 then regs else
    regs.map fun x => if x = 0xF_0000_0020_0000 then BitVec.ofNat 64 (0xF_0000_0020_0000 + core * 2 ^ 24) else x) handles true)

/-- An operand of R13 without a post-advance. -/
def op (h : HReg) : TileOp := ⟨h, 0, false⟩

/-- The mode of a TILE word with a mask scalar. -/
def mode (mask : SReg) : TMode := ⟨mask, ⟨.rne, false, false⟩, false⟩

/-- TileIssueMove: a word with items that it may take, in place, to a new generation, and to a pair. -/
theorem witness_TileIssueMove :
    Issues (.tadd ⟨2, 0, true⟩ (op 0) ⟨1, 0, true⟩ (mode 2)) (tiling 0) (fun u => u.cur.w < 4) ∧
    Issues (.tmov (op 15) (op 15)) (tiling 0) (fun u => u.cur.w < 4) ∧
    Issues (.mmd (op 7) (op 11) (op 12) (op 10) false (mode 6)) (tiling 768) (fun u =>
      ∃ d, (itemsOf u.ag (.mmd (op 7) (op 11) (op 12) (op 10) false (mode 6))).dst = some d ∧ 512 ≤ d.r ∧ d.r < 575) :=
  ⟨issues_of _ (by decide +kernel), issues_of _ (by decide +kernel), runs_of (by decide +kernel), _, rfl, ready_of (by decide +kernel),
    Eq.refl _, ⟨514, 1, 0⟩, by decide +kernel⟩

/-- The same stream, where the data of the item of handle 0 is still being produced. -/
def producing : State := { tiling 0 with blk := { (tiling 0).blk with
  tiles := putKey (tiling 0).blk.tiles 0 { tagged 0x10 with filling := true } } }

/-- TileIssueMove: a word that reads data still to come, with no mask and with one. -/
theorem witness_TileIssueMove_late :
    (let late (i : Instr) : Bool := runs i producing && (claimed i false producing).any fun u => ready i u && (itemsOf u.ag i).late i u.blk
     late (.tadd (op 2) (op 0) (op 1) (mode 8)) = true ∧ late (.tmov (op 2) (op 0)) = true) ∧
    (let m := mode 8
     laterMode (.tadd (op 2) (op 0) (op 1) m) = some (some m) ∧ laterMode (.tmov (op 2) (op 0)) = some none ∧
     producing.ag.poisoned (.s m.mask) = false ∧ producing.sReg m.mask &&& ~~~0xFFFF#64 = 0 ∧
     ((producing.sReg m.mask).extractLsb' 0 8).toNat ≤ 32 ∧ ((producing.sReg m.mask).extractLsb' 8 8).toNat ≤ 32 ∧
     pastRowOfA (.tadd (op 2) (op 0) (op 1) m) (maskCounts (producing.sReg m.mask)) producing = false ∧
     (match tileComp (.tadd (op 2) (op 0) (op 1) m) (maskCounts (producing.sReg m.mask)) (itemsOf producing.ag (.tadd (op 2) (op 0) (op 1) m))
        producing with
      | .res _ _ => true
      | _ => false) = true) ∧
    (match tileComp (.tmov (op 2) (op 0)) (maskCounts 0) (itemsOf producing.ag (.tmov (op 2) (op 0))) producing with
      | .res r _ => !r.pair
      | _ => false) = true := by
  decide +kernel

/-- TileMoves: each word, with a tile, an accumulator and a void item; and a row at the end of the scratchpad. -/
theorem witness_TileMoves :
    (∀ i ∈ ([.tzero (op 2), .tzero (op 7), .tmov (op 2) (op 0), .tmov (op 7) (op 6), .tmov (op 2) (op 14), .tfromv (op 2) true,
      .ttrn (op 2) (op 3), .ttrn (op 15) (op 15), .ttov (op 0) true, .ttov (op 14) false, .tsts (op 0) 4, .tlds (op 2) 4] : List Instr),
      Issues i (tiling 0) fun _ => True) ∧
    (let b := (tiling 0).blk
     (b.md 0).tag = 0x10 ∧ (b.md 512).tag = 0x10 ∧ (b.md 3).tag = 0x20 ∧ (b.md 15).tag = 0x30 ∧ (b.md 14).void = true ∧ (b.md 0).poison = false ∧
     ((tiling 0).sReg 4).toNat = 8183 ∧ 8183 + 9 ≤ b.sprows ∧ (tiling 0).ag.ctl.prog = 0 ∧ (tiling 0).ag.poisoned (.s 4) = false ∧
     tagValid (b.pad.byte (256 * (8183 + 8) + 128)).toNat = true) :=
  ⟨issues_all (by decide +kernel), by decide +kernel⟩

/-- RowStoresAndGathers: an accumulator and a pair of its rows, and an index tile; the counts at their ends. -/
theorem witness_RowStoresAndGathers :
    Issues (.tsta (op 6) 1 7) (tiling 0) (fun u => spanOf u (u.sReg 1) 1 .store = .ok (.pad 0) (.pad 0) ∧
      spanOf u (u.sReg 1) (32 * 4) .store = .ok (.pad 0) (.pad 127) ∧ (u.blk.md 512).tag = 0x10 ∧ (u.blk.md 512).poison = false ∧
      (u.blk.md 512).void = false) ∧
    ((tiling 0).sReg 7 &&& 0xFF00_0000_00FF_0000#64 = 0 ∧ ((tiling 0).sReg 7).extractLsb' 0 8 = 32 ∧ ((tiling 0).sReg 1).toNat % 4 = 0 ∧
      (((tiling 0).sReg 7).extractLsb' 24 8).toNat < 2 ^ 4 ∧ ((tiling 0).sReg 7).extractLsb' 32 24 = 128) ∧
    Issues (.tsta (op 10) 1 0) (tiling 0) (fun u => (u.blk.md 516).tag = 0x40 ∧ 516 % 2 = 0 ∧
      spanOf u (u.sReg 1) (32 * 8) .store = .ok (.pad 0) (.pad 255)) ∧
    Issues (.tgath (op 2) (op 5) 1 5) (tiling 0) (fun u => (u.blk.md 5).tag = 0xC0 ∧ (u.blk.md 5).void = false ∧
      spanOf u (u.sReg 1 + 64 * ((u.blk.tile 5).data.extractLsb' 0 32).signExtend 64) 64 .load = .ok (.pad 0) (.pad 63)) ∧
    ((tiling 0).sReg 5 &&& 0xFFFF_FF00_FFFF_FF00#64 = 0 ∧ tagValid (((tiling 0).sReg 5).extractLsb' 32 8).toNat = true ∧
      tagScaled (((tiling 0).sReg 5).extractLsb' 32 8) = false ∧ ((tiling 0).sReg 1).toNat % 64 = 0) ∧
    (tiling 0).ag.poisoned (.s 1) = false ∧ (tiling 0).ag.ctl.prog = 0 :=
  ⟨issues_of _ (by decide +kernel), by decide +kernel, issues_of _ (by decide +kernel), issues_of _ (by decide +kernel), by decide +kernel,
    by decide +kernel⟩

theorem maskOk_of {s : State} {m : TMode} {bits : Word} {cols : Nat} (h : (!s.ag.poisoned (.s m.mask) && s.sReg m.mask &&& ~~~bits == 0 &&
    decide (((s.sReg m.mask).extractLsb' 0 8).toNat ≤ 32) && decide (((s.sReg m.mask).extractLsb' 8 8).toNat ≤ cols)) = true) :
    MaskOk s m bits cols := by
  simp only [Bool.and_eq_true, Bool.not_eq_true', beq_iff_eq, decide_eq_true_eq] at h
  exact ⟨h.1.1.1, h.1.1.2, h.1.2, h.2⟩

/-- TileArithmetic: masks that are full by their counts and by 0; a scale tile; a void source. -/
theorem witness_TileArithmetic :
    (let tags (a b : Nat) (s t : BitVec 8) (u : State) : Prop := (u.blk.md a).tag = s ∧ (u.blk.md b).tag = t
     Issues (.tadd (op 2) (op 0) (op 1) (mode 8)) (tiling 0) (tags 0 1 0x10 0x10) ∧
     Issues (.tmul (op 2) (op 3) (op 4) (mode 2)) (tiling 0) (tags 3 4 0x20 0x20) ∧
     Issues (.tmax (op 2) (op 3) (op 4) (mode 0)) (tiling 0) (tags 3 4 0x20 0x20) ∧
     Issues (.tscal (op 2) (op 3) (op 0) (mode 2)) (tiling 0) (tags 3 0 0x20 0x10) ∧
     Issues (.tadd (op 2) (op 14) (op 1) (mode 2)) (tiling 0) (tags 14 1 0x00 0x10)) ∧
    MaskOk (tiling 0) (mode 2) 0xFFFF (min 32 (tagRow 0x20)) ∧ MaskOk (tiling 0) (mode 0) 0xFFFF (min 32 (tagRow 0x20)) ∧
    MaskOk (tiling 0) (mode 8) 0xFFFF (min 32 (tagRow 0x10)) ∧ ((tiling 0).blk.md 14).void = true :=
  ⟨⟨issues_of _ (by decide +kernel), issues_of _ (by decide +kernel), issues_of _ (by decide +kernel), issues_of _ (by decide +kernel),
    issues_of _ (by decide +kernel)⟩, maskOk_of (by decide +kernel), maskOk_of (by decide +kernel), maskOk_of (by decide +kernel),
    by decide +kernel⟩

/-- TileReduction: a tile, an accumulator and a void tile; the running sum of two zeros is defined. -/
theorem witness_TileReduction :
    Issues (.tred (op 2) (op 3) (mode 2)) (tiling 0) (fun u => (u.blk.md 3).tag = 0x20) ∧
    Issues (.tred (op 2) (op 6) (mode 0)) (tiling 0) (fun u => (u.blk.md 512).tag = 0x10) ∧
    Issues (.tred (op 2) (op 14) (mode 2)) (tiling 0) (fun u => (u.blk.md 14).void = true) ∧
    MaskOk (tiling 0) (mode 2) 0xFFFF (min 32 (tagRow 0x20)) ∧
    ((decodeFp fp16 false 0).isNan = false ∧ ∀ c ∈ ([1, 2, 3, 4, 5] : List Nat), sumVal false (decodeFp fp16 false 0) (decodeFp fp16 false 0) ≠ .gen c) :=
  ⟨issues_of _ (by decide +kernel), issues_of _ (by decide +kernel), issues_of _ (by decide +kernel), maskOk_of (by decide +kernel),
    by decide +kernel⟩

/-- AccumulatorSums: with and without a prior value, and a pair. -/
theorem witness_AccumulatorSums :
    Issues (.tacc (op 7) (op 6) (op 6) false (mode 2)) (tiling 0) (fun u => (u.blk.md 512).tag = 0x10) ∧
    Issues (.tacc (op 7) (op 6) (op 0) true (mode 0)) (tiling 0) (fun u => (u.blk.md 512).tag = 0x10) ∧
    Issues (.tacc (op 7) (op 10) (op 10) false (mode 2)) (tiling 0) (fun u => (u.blk.md 516).tag = 0x40 ∧ 516 % 2 = 0 ∧ 514 % 2 = 0) ∧
    MaskOk (tiling 0) (mode 2) 0xFFFF 32 ∧ MaskOk (tiling 0) (mode 0) 0xFFFF 32 :=
  ⟨issues_of _ (by decide +kernel), issues_of _ (by decide +kernel), issues_of _ (by decide +kernel), maskOk_of (by decide +kernel),
    maskOk_of (by decide +kernel)⟩

/-- MatrixProducts: each instruction on a class that has it, with and without a prior value; and an accumulation of zeros. -/
theorem witness_MatrixProducts :
    Issues (.mmbi (op 7) (op 8) (op 9) (op 6) false (mode 3)) (tiling 0) (fun u => (u.blk.md 8).tag = 0x87 ∧ (u.blk.md 9).tag = 0x87) ∧
    Issues (.mmf (op 7) (op 3) (op 4) (op 0) true (mode 0)) (tiling 0) (fun u => (u.blk.md 3).tag = 0x20 ∧ (u.blk.md 4).tag = 0x20) ∧
    Issues (.mmf (op 7) (op 13) (op 13) (op 6) false (mode 3)) (tiling 0) (fun u => (u.blk.md 13).tag = 0x50 ∧ u.blk.isa.getLsbD 1 = true) ∧
    Issues (.mmf32 (op 7) (op 0) (op 1) (op 6) false (mode 0)) (tiling 768) (fun u => (u.blk.md 0).tag = 0x10 ∧ (u.blk.md 1).tag = 0x10) ∧
    Issues (.mmd (op 7) (op 11) (op 12) (op 10) false (mode 0)) (tiling 768) (fun u => (u.blk.md 11).tag = 0x40 ∧ (u.blk.md 516).tag = 0x40) ∧
    MaskOk (tiling 0) (mode 3) 0xFFFFFF 32 ∧ MaskOk (tiling 768) (mode 0) 0xFFFFFF 32 ∧
    (((tiling 0).sReg 3).extractLsb' 16 8).toNat ≤ tagRow 0x87 ∧ (((tiling 0).sReg 3).extractLsb' 16 8).toNat ≤ tagRow 0x50 :=
  ⟨issues_of _ (by decide +kernel), issues_of _ (by decide +kernel), issues_of _ (by decide +kernel), issues_of _ (by decide +kernel),
    issues_of _ (by decide +kernel), maskOk_of (by decide +kernel), maskOk_of (by decide +kernel), by decide +kernel⟩

theorem witness_MatrixProducts_sums :
    (let z : Fp := (tileElem 0x40 0 0 false 0 0).1
     z.isNan = false ∧ (accumulated (decodeFp fp64 false 0) (fun _ acc =>
       rounded fp64 ((rounder Ctl.reset .rne).at 0) false (fmaVal false z z acc)) 8).isSome = true) ∧
    (let z : Fp := (tileElem 0x87 0 0 false 0 0).1
     blockScale 0x87 0 0 0 ≠ none ∧ (exactSum false (fun _ => mulVal z z) 31).isSome = true) := by
  decide +kernel

/-- TileConversion: to and from formats with and without scales, to bi2, the last part, merge, an accumulator, and a void tile. -/
theorem witness_TileConversion :
    Issues (.tcvt (op 2) (op 0) 0x20 0 false true (mode 8)) (tiling 0) (fun u => (u.blk.md 0).tag = 0x10 ∧ 0 < max (32 * tagRow 0x10) (32 * tagRow 0x20) / min (32 * tagRow 0x10) (32 * tagRow 0x20)) ∧
    Issues (.tcvt (op 2) (op 0) 0x87 3 true true (mode 8)) (tiling 0) (fun u => (u.blk.tile 2).md.tag = 0x87 ∧
      3 < max (32 * tagRow 0x10) (32 * tagRow 0x87) / min (32 * tagRow 0x10) (32 * tagRow 0x87)) ∧
    Issues (.tcvt (op 2) (op 8) 0x10 3 false false (mode 0)) (tiling 0) (fun u => (u.blk.md 8).tag = 0x87 ∧ u.blk.isa.getLsbD 2 = true) ∧
    Issues (.tcvt (op 2) (op 6) 0xA0 1 false false (mode 2)) (tiling 0) (fun u => (u.blk.md 512).tag = 0x10) ∧
    Issues (.tcvt (op 2) (op 14) 0x50 3 false true (mode 2)) (tiling 0) (fun u => (u.blk.md 14).void = true) ∧
    Issues (.tcvt (op 2) (op 0) 0x83 0 false true (mode 8)) (tiling 0) (fun u => (u.blk.md 0).tag = 0x10 ∧ u.blk.isa.getLsbD 2 = true) ∧
    MaskOk (tiling 0) (mode 8) 0xFFFF (tagRow 0x10) ∧ MaskOk (tiling 0) (mode 2) 0xFFFF 32 ∧ MaskOk (tiling 0) (mode 0) 0xFFFF (tagRow 0x87) :=
  ⟨issues_of _ (by decide +kernel), issues_of _ (by decide +kernel), issues_of _ (by decide +kernel), issues_of _ (by decide +kernel),
    issues_of _ (by decide +kernel), issues_of _ (by decide +kernel), maskOk_of (by decide +kernel), maskOk_of (by decide +kernel), maskOk_of (by decide +kernel)⟩

/-- PageAppend: the first token and the last. -/
theorem witness_PageAppend :
    Issues (.tcvtPageAppend (op 2) (op 0) 0x91 0 false (mode 8)) (tiling 0) (fun u => (u.blk.md 0).tag = 0x10) ∧
    Issues (.tcvtPageAppend (op 2) (op 6) 0x87 15 true (mode 2)) (tiling 0) (fun u => (u.blk.tile 2).md.tag = 0x87 ∧ (u.blk.md 512).tag = 0x10) ∧
    MaskOk (tiling 0) (mode 8) 0xFFFF (tagRow 0x10) ∧ MaskOk (tiling 0) (mode 2) 0xFFFF 32 ∧
    (let k : Int := 2 ^ (0x80 - 0x7E)
     |2 * (6 - (2 : Int) * k)| ≤ k ∧ (|2 * (6 - (2 : Int) * k)| = k → (2 : Int) % 2 = 0)) :=
  ⟨issues_of _ (by decide +kernel), issues_of _ (by decide +kernel), maskOk_of (by decide +kernel), maskOk_of (by decide +kernel), by decide⟩

/-- TransfersAndStreamWords: offsets at both ends, and a loop at its last count. -/
theorem witness_Transfers :
    (∀ i ∈ ([.br (-1), .jmp 1 0x1_FFFF_FFFF, .call 0, .ret, .loop 4 (-3)] : List Instr), Runs i stream) ∧ stream.ag.poisoned (.s 4) = false ∧
    stream.ag.poisoned (.s 31) = false ∧ (let s := issuing 0 (block 0) (agent [0, 1] [] false)
      Runs (.loop 1 (-3)) s ∧ s.sReg 1 = 1) :=
  ⟨runs_all (by decide +kernel), by decide, by decide, runs_of (by decide +kernel), by decide⟩

/-- TransfersAndStreamWords: a tick that has come, at once and at the end of the half window, and one that has not; a region of length 2
and one below; a fence with and without accesses. -/
theorem witness_StreamWords :
    (let s := issuing 0 (block 0) (agent [0, 1000, 1001, BitVec.ofNat 64 (2 ^ 64 + 1001 - 2 ^ 63)] [] true)
     let t : State := { s with ag := { s.ag with accs := [⟨.load 1, .pad 0⟩] } }
     (∀ i ∈ ([.rep 2, .syncm 0xF, .waiti 0x80, .seed 1 2, .waitt 1, .waitt 2, .waitt 3, .timed 1 1, .timed 1 2, .timed 2 2, .fenceh] : List Instr),
       Runs i s) ∧ Runs .fenceh t ∧ t.ag.accs ≠ [] ∧ s.ag.accs = [] ∧ (s.tbase - s.sReg 1).toNat < 2 ^ 63 ∧
     ¬ (s.tbase - s.sReg 2).toNat < 2 ^ 63 ∧ (s.tbase - s.sReg 3).toNat = 2 ^ 63 - 1 ∧ (1 : BitVec 34).toInt < 2 ∧ 2 ≤ (2 : BitVec 34).toInt) := by
  exact ⟨runs_all (by decide +kernel), runs_of (by decide +kernel), by decide, by decide, by decide, by decide, by decide, by decide, by decide⟩

/-- ControlRegisterReads, ControlRegisterWrites: every register of a stream and of the MP, privileged and not. -/
theorem witness_ControlRegisters :
    (∀ i ∈ (([0x000, 0x001, 0x002, 0x003, 0x004, 0x005, 0x006, 0x007, 0x008, 0x010, 0x011, 0x012, 0x013, 0x014, 0x018, 0x019, 0x01A, 0x020, 0x021,
      0x022, 0x100, 0x101, 0x102, 0x103, 0x110, 0x113, 0x120, 0x12F, 0x200, 0x203] : List (BitVec 12)).map (.mfc 1)), Runs i stream) ∧
    (let s := issuing 0 (block 0) (agent [0, 2] [] false)
     let mp := issuing 4 (block 0) (agent [0, 2] [] false)
     (∀ i ∈ ([.mtc 1 0x002, .mtc 1 0x021, .mtc 1 0x000, .mtc 1 0x010, .mtc 1 0x014, .mtc 1 0x100, .mtc 1 0x203, .mtcSstat 1, .mtcTcmp 1] :
       List Instr), Runs i s) ∧ s.ag.ctl.pm = false ∧ (s.sReg 1).getLsbD 1 ≠ s.ag.ctl.ie ∧ s.ag.poisoned (.s 1) = false ∧
     (∀ i ∈ ([.mtcSstat 1, .mtcTcmp 1, .mtc 1 0x100, .mfc 1 0x015, .mfc 1 0x001, .mfc 1 0x000] : List Instr), Runs i mp) ∧ mp.cur.w = 4) ∧
    (∀ i ∈ ([.mtc 1 0x010, .mtc 1 0x014, .mtc 1 0x102, .mtc 1 0x103, .mtc 1 0x202, .mtc 1 0x200, .mtcSstat 1] : List Instr), Runs i stream) ∧
    stream.ag.ctl.pm = true ∧ (stream.sReg 0).getLsbD 1 = stream.ag.ctl.ie ∧ (part1.id < 256 ∧ part1.parent < 256 ∧ part1.level < 4) :=
  ⟨runs_all (by decide +kernel), ⟨runs_all (by decide +kernel), by decide, by decide, by decide, runs_all (by decide +kernel), by decide⟩,
    runs_all (by decide +kernel), by decide, by decide, by decide⟩

/-- A stream that has a trap handler, with its frame at the end of the scratchpad. -/
def handled (inh : Bool) : State := { stream with ag := { stream.ag with ctl := { stream.ag.ctl with
  tvec := 0x2000
  tframe := 511
  inh := inh } } }

theorem canEnter_of {s : State} (h : (decide (s.cur.w < 4) && !s.ag.ctl.inh && s.ag.ctl.tvec != 0 &&
    decide (16 * s.ag.ctl.tframe.toNat + 14 ≤ s.blk.sprows) && s.blk.pad.wf) = true) : CanEnter s := by
  simp only [Bool.and_eq_true, Bool.not_eq_true', bne_iff_ne, decide_eq_true_eq] at h
  exact ⟨h.1.1.1.1, h.1.1.1.2, h.1.1.2, h.1.2, h.2⟩

/-- Traps: a stream that can enter its handler, one with a result pending, one in its handler, one with none, and the MP;
a latch that the frame records. -/
theorem witness_Traps :
    CanEnter (handled false) ∧ (handled false).ag.pend = [] ∧ (handled false).ag.walk = none ∧ (handled false).ag.ctl.tvec ≠ 0 ∧
    (handled true).ag.ctl.inh = true ∧ stream.ag.ctl.tvec = 0 ∧ stream.ag.ctl.inh = false ∧ (engine 0).cur.w = 4 ∧
    Runs (.trap 5) (handled false) ∧
    (let s := handled false
     let passed : State := { s with ag := { s.ag.ticks (1 + s.cur.hdr.w.val) with pc := s.cur.next } }
     CanEnter passed ∧ passed.ag.pend = [] ∧ passed.ag.walk = none) ∧
    (let p : State := { handled false with ag := { (handled false).ag with pend := [.s 1] } }
     p.cur.w < 4 ∧ p.ag.ctl.inh = false ∧ p.ag.ctl.tvec ≠ 0 ∧ p.ag.pend ≠ []) ∧
    (let l : Latch := ⟨.v 1, 0, 255, Flags.none, false⟩
     [l].length ≤ 12 ∧ l.tag - (handled false).ag.cyc < 256) :=
  ⟨canEnter_of (by decide +kernel), by decide, by decide, by decide, by decide, by decide, by decide, by decide, runs_of (by decide +kernel),
    ⟨canEnter_of (by decide +kernel), by decide, by decide⟩, by decide, by decide⟩

/-- ExceptionReturn: outside a handler; in one, with a result pending, without, and with a shadow fault in the frame. -/
theorem witness_ExceptionReturn :
    Runs .eret (handled false) ∧ Runs .eret (handled true) ∧ (handled true).ag.pend = [] ∧
    ((BitVec.ofNat 64 ((handled true).blk.pad.readLE (4096 * 511 + 0x38) 8)).getLsbD 63 = false) ∧
    (let s : State := { handled true with blk := { (handled true).blk with pad := Store.empty.writeLE (4096 * 511 + 0x38) 8 (2 ^ 63 + 17) } }
     Runs .eret s ∧ s.ag.pend = [] ∧ (BitVec.ofNat 64 (s.blk.pad.readLE (4096 * 511 + 0x38) 8)).getLsbD 63 = true ∧ s.ag.ctl.tvec ≠ 0 ∧
     s.blk.pad.wf = true) ∧
    (let s : State := { handled true with ag := { (handled true).ag with pend := [.s 1] } }
     Runs .eret s ∧ s.ag.pend ≠ []) :=
  ⟨runs_of (by decide +kernel), runs_of (by decide +kernel), by decide, by decide +kernel, ⟨runs_of (by decide +kernel), by decide +kernel⟩,
    runs_of (by decide +kernel), by decide⟩

/-- Page tables from address 0x1000 that map the page at 0x10000 to itself. -/
def pageTables : Store :=
  ((((Store.empty.writeLE 0x1000 8 0x2003).writeLE 0x2000 8 0x3003).writeLE 0x3000 8 0x4003).writeLE 0x4000 8 0x5003).writeLE 0x5080 8 0x1000D

/-- SystemWords: each scope, each kind with its last bank, a saved bank and none, and a command that can be read. -/
theorem witness_SystemWords :
    (let page : TlbEntry := ⟨1, 0x10, 1, 0x10, 0xD⟩
     let s : State := { issuing 0 { block 0 with savedTiles := [(7, [(448, tagged 0x10)])] } (agent [0, 0x10000, 0x10001] [] true) with
       cores := [(0, { Core.reset with tlb := [page] })] }
     (∀ i ∈ ([.tlbinv 1 0, .tlbinv 1 1, .tlbinv 1 3, .banksv 7 0, .banksv 7 1, .banksv 3 2, .bankld 7 0, .bankld 0 1, .bankld 0 2, .bankld 3 2,
       .pcmd 1, .pcmd 2] : List Instr), Runs i s) ∧ s.ag.poisoned (.s 1) = false ∧ s.ag.accs = [] ∧ page.covers 1 (s.sReg 1) = true ∧
     walkOpen s 3 (s.sReg 1) (scopeCores s 3) = false ∧
     (∀ p ∈ ([(0, 7), (1, 7), (2, 3)] : List (Nat × Nat)), bankHeld s s.blk.core s.cur.b s.blk s.agentList p.1 p.2 = false ∧
       ((s.core s.blk.core).claim? s.blk.slot p.1 p.2).isSome = true) ∧
     getKey s.blk.savedTiles 7 = some [(448, tagged 0x10)] ∧ getKey s.blk.savedAccs 0 = none ∧ (s.sReg 1).toNat % 256 = 0 ∧
     (s.sReg 2).toNat % 256 ≠ 0) ∧
    (let s : State := { issuing 0 (block 0) (agent [0, 0x10000, 0x0080_0000_0000_0000, 0xF_0000_0020_0000] [] true) with
       cores := [(0, { Core.reset with tlb := [⟨1, 0x10, 1, 0x10, 0xD⟩] })]
       mem := Store.empty.writeLE 0x10000 8 1 }
     let bad : State := { s with mem := s.mem.setGranule (0x10000 / 4) true }
     (∀ i ∈ ([.pcmd 1, .pcmd 2, .pcmd 3] : List Instr), Runs i s ∧ Runs i bad) ∧
     translate s s.blk (s.sReg 1) .load = .ok (.phys 0x10000) ∧ (canonical (s.sReg 1) && inWindow (s.sReg 1)) = false ∧
     translate bad bad.blk (bad.sReg 1) .load = .ok (.phys 0x10000) ∧
     (readLoc s (.phys 0x10000) 256).2 = false ∧ (readLoc bad (.phys 0x10000) 256).2 = true ∧
     (s.sReg 2).toNat % 256 = 0 ∧ (canonical (s.sReg 2) && inWindow (s.sReg 2)) = false ∧ translate s s.blk (s.sReg 2) .load = .fault cPAGE ∧
     canonical (s.sReg 3) = true ∧ inWindow (s.sReg 3) = true) := by
  exact ⟨⟨runs_all (by decide +kernel), by decide, by decide, by decide +kernel, by decide +kernel, by decide +kernel, by decide +kernel,
    by decide +kernel, by decide, by decide⟩, fun i hi => ⟨runs_all (by decide +kernel) i hi, runs_all (by decide +kernel) i hi⟩,
    by decide +kernel, by decide +kernel, by decide +kernel, by decide +kernel, by decide +kernel, by decide +kernel, by decide +kernel,
    by decide +kernel, by decide +kernel, by decide +kernel⟩

/-- A block whose program text, from address 0x1000, begins with the words given. -/
def withText (b : Block) (ws : List Nat) : Block := { b with
  textVa := 0x1000
  textSize := 0x100
  text := (Store.empty.writeLE 0 (8 * ws.length) (ws.foldr (fun w n => w + 2 ^ 64 * n) 0)).cells }

/-- A stage of one block on a stream, with a timetable of one entry that fires at marker 1 and is needed at marker 2. -/
def stage : Stage where
  prog := 0
  minInst := 1
  maxInst := 2
  prio := 1
  home := 2
  sprows := 8192
  inRing := 0
  outRing := 0
  walker := none
  cov := none
  tt := [⟨1, 2, 0, 0, none, none, 64, 0x10000, 0x10040, 0, 0⟩]
  agents := 1
  textVa := 0x1000
  textOff := 0
  textSize := 0x100
  entry := Vector.replicate 5 0x1000
  sections := []
  started := true
  finished := false
  closed := false
  placed := 1

def launch : Launch where
  part := 1
  fn := 1
  q := 0
  seq := 0
  slot := 0
  tenant := 0
  isa := 0x7F
  sig := false
  sigAddr := 0
  sigVal := 0
  statAddr := 0
  tick := none
  stages := [stage]
  reloc := Vector.replicate 16 0
  bucket := none
  limit := 0
  lnum := 0
  covctl := 0x00FF0000
  late := 0
  badrep := 0
  slips := 0
  frac := 0xFF
  tstart := none

/-- A transfer that has done what entry 0's firing n asks for. -/
def firing (n : Nat) (st : Progress) : Transfer := { Transfer.start 0 (.mem .d1) with
  st := st
  desc := { (Transfer.start 0 (.mem .d1)).desc with
    param := 0
    param2 := BitVec.ofNat 64 n } }

/-- A stream at a MARK, whose block has the timetable above, with `f` firings of its entry of which the first is done. -/
def marking (m : BitVec 32) (f : Nat) : State :=
  let b := { withText (block 0) [0x0400_A000_0000_0000 + m.toNat] with
    ttF := [f]
    chans := (Vector.replicate 5 Chan.reset).set 4 ⟨1, [firing 0 .done], none⟩ }
  { issuing 0 b { agent [] [] false with pc := 0x1000 } with launches := [(0, launch)] }

/-- MarksAndExit: a marker that fires, one that needs a firing that is done, one that does neither, and a boundary. -/
theorem witness_Marks :
    (let s := marking 1 3
     Runs (.mark 1) s ∧ s.ag.accs = [] ∧ s.ag.pend = [] ∧ (∀ e ∈ s.timetable s.blk, e.trig = 1 ∧ e.need ≠ 0x7FFFFFFF ∧ e.need ≠ 1) ∧
       (3 + 2 ^ 32 - 0) % 2 ^ 32 ≠ 4) ∧
    (let s := marking 2 1
     Runs (.mark 2) s ∧ (∀ e ∈ s.timetable s.blk, e.need = 2 ∧ e.trig ≠ 2) ∧ s.blk.ttF.getD 0 0 ≠ s.blk.ttC.getD 0 0 ∧
       ∀ x ∈ s.blk.chans[4].xfers, isFiring 0 0 x = true ∧ x.st = .done) ∧
    (let s := marking 0x8000_0003 0
     Runs (.mark 0x8000_0003) s ∧ s.cur.hdr.s = false ∧ s.cur.w < 4 ∧ s.ag.run = .running ∧ s.ag.stopped = none ∧
       (∀ v < 4, v ≠ s.cur.w → (s.agent v).run ≠ .running) ∧ (∀ n : Fin 4, s.blk.chans[n].busy = false) ∧
       boundaryAt s 0 = some (s.cur.hdr, 0x8000_0003) ∧ s.cur.pc = s.ag.pc ∧ s.cur.next = s.ag.pc + 8 ∧ sliceOver s = false ∧ s.ag.stoppedIn = none ∧
       noneStopped s = true) :=
  ⟨⟨runs_of (by decide +kernel), by decide, by decide, by decide +kernel, by decide⟩,
    ⟨runs_of (by decide +kernel), by decide +kernel, by decide +kernel, by decide +kernel⟩,
    runs_of (by decide +kernel), by decide, by decide, by decide, by decide, by decide +kernel, by decide +kernel, by decide +kernel,
    by decide, by decide, by decide +kernel, by decide, by decide +kernel⟩

/-- MarksAndExit: the last agent of a block exits, and one of two; and the MP. -/
theorem witness_Exit :
    (Runs .exit stream ∧ stream.ag.accs = [] ∧ stream.blk.slot < 4 ∧
      ∀ w < 5, w ≠ stream.cur.w → (stream.agent w).run = .noProgram) ∧
    (let s : State := { stream with blk := { stream.blk with agents := stream.blk.agents.set 1 (agent [] [] false) } }
     Runs .exit s ∧ ¬ ∀ w < 5, w ≠ s.cur.w → (s.agent w).run = .exited ∨ (s.agent w).run = .noProgram) ∧
    (Runs .exit (engine 0) ∧ (engine 0).cur.w = 4 ∧ ∀ n : Fin 4, (engine 0).blk.chans[n].busy = false) :=
  ⟨⟨runs_of (by decide +kernel), by decide, by decide, by decide +kernel⟩, ⟨runs_of (by decide +kernel), by decide +kernel⟩,
    runs_of (by decide +kernel), by decide, by decide +kernel⟩

/-- An MP whose s1 names a descriptor of n bytes of one dimension, with `k` transfers outstanding on channel 0; handle 0 is
a tile register present, 1 one to be written, 2 one of another core, 3 and 4 accumulators. -/
def mover (n k : Nat) : State := issuing 4 { block 0 with
  pad := (((Store.empty.writeLE 0 8 0x10000).writeLE 8 8 0x20000).writeLE 16 8 (n + 2 ^ 32 + 2 ^ 48)).writeLE 56 8 0xF_0000_0020_0040
  chans := (Vector.replicate 5 Chan.reset).set 0 ⟨BitVec.ofNat 32 k, List.replicate k (Transfer.start 0 (.mem .d1)), none⟩ }
  (agent [0, 0xF_0000_0020_0000, 5] [⟨0, 0, 0, 0, 0, 0, 0⟩, ⟨0, 1, 0, 0, 0, 0, 1⟩, ⟨2, 1, 0, 0, 7, 0, 1⟩, ⟨1, 0, 0, 0, 0, 0, 0⟩, ⟨1, 1, 0, 0, 0, 0, 1⟩] false)

theorem descOk_of {s : State} {f : SReg} {o : Nat} {geo : Geo} (h : (s.ag.accs.isEmpty && !s.ag.poisoned (.s f) &&
    decide (ownPad s.blk (s.sReg f &&& ~~~63#64) = some o) && decide (o / 256 < s.blk.sprows) && !s.blk.pad.anyPoison (o / 4) 16 &&
    (descFields s o).ok geo) = true) : DescOk s f o geo := by
  simp only [Bool.and_eq_true, Bool.not_eq_true', decide_eq_true_eq, List.isEmpty_iff] at h
  exact ⟨h.1.1.1.1.1, h.1.1.1.1.2, h.1.1.1.2, h.1.1.2, h.1.2, h.2⟩

/-- A word is guarded off, as a Bool. -/
def skips (i : Instr) (s : State) : Bool :=
  (checks i s).isNone && !absentOn (isOchre s.blk.core) i && !((markRegs i s).any fun r => s.ag.pend.contains r) && !ctlPending i s &&
    !latchedDest i s && !s.ag.poisoned (.p s.cur.hdr.g) && !guardTrue s.ag s.cur.hdr && !(s.cur.hdr.s && !s.cur.sync)

theorem skips_of {i : Instr} {s : State} (h : skips i s = true) : Skips i s := by
  simp only [skips, Bool.and_eq_true, Bool.not_eq_true', Option.isNone_iff_eq_none] at h
  obtain ⟨⟨⟨⟨⟨⟨⟨h1, h2⟩, h3⟩, h8⟩, h4⟩, h5⟩, h6⟩, h7⟩ := h
  exact ⟨h1, h2, h3, h8, h4, h5, h6, h7⟩

/-- The word is guarded off, and its claims succeed. -/
def Skipped (i : Instr) (s : State) : Prop := Skips i s ∧ ∃ u, claimed i true s = some u

theorem skipped_all {l : List Instr} {s : State} (h : l.all (fun i => skips i s && (claimed i true s).isSome) = true) :
    ∀ i ∈ l, Skipped i s := fun i hi => by
  have := List.all_eq_true.mp h i hi
  simp only [Bool.and_eq_true] at this
  exact ⟨skips_of this.1, Option.isSome_iff_exists.mp this.2⟩

/-- The same state with its word guarded off. -/
def off (s : State) : State := { s with cur := { s.cur with hdr := ⟨false, 0, true, 0⟩ } }

/-- CopyWords: descriptors of a plain copy and of each image, a channel with room for one transfer and one without, a
destination on another core, and each form guarded off. -/
theorem witness_CopyWords :
    (∀ i ∈ ([.copy 3 1 0 .d1 true, .copy 3 1 0 .d1 false, .copytIn 3 1 0 ⟨1, 0, true⟩ 0x20 false 0 .d1 true, .copytOut 3 1 0 (op 0) false .d1 false,
      .copytXfer 3 0 (op 1) (op 0) 0 false, .copytXfer 3 0 (op 2) ⟨0, 0, true⟩ 15 false, .copytXfer 3 0 (op 4) (op 3) 0 false] : List Instr),
      Claims i (mover 2048 15)) ∧ Claims (.copytIn 3 1 0 (op 2) 0 true 3 .d1 false) (mover 2304 0) ∧
    Claims (.copytOut 3 1 0 (op 3) false .d1 false) (mover 4096 0) ∧ Claims (.copy 3 1 0 .d1 true) (mover 1 16) ∧
    DescOk (mover 2048 15) 1 0 .d1 ∧ DescOk (mover 2304 0) 1 0 .d1 ∧ DescOk (mover 4096 0) 1 0 .d1 ∧
    ((descFields (mover 2048 15) 0).size .d1 = 2048 ∧ ((mover 2048 15).blk.chans[0].xfers.filter (·.outstanding)).length < 16 ∧
      ¬ ((mover 1 16).blk.chans[0].xfers.filter (·.outstanding)).length < 16 ∧ 7 ∈ (part1).cores ∧ (7 : Nat) ≠ (mover 1 0).blk.core) ∧
    (∀ i ∈ ([.copytIn 3 1 0 (op 1) 0x20 false 0 .d1 true, .copytOut 3 1 0 (op 0) false .d1 false, .copytXfer 3 0 (op 1) (op 0) 0 false] : List Instr),
      Skipped i (off (mover 2048 15))) :=
  ⟨claims_all (by decide +kernel), claims_all (l := [.copytIn 3 1 0 (op 2) 0 true 3 .d1 false]) (by decide +kernel) _ (List.mem_singleton.mpr rfl),
    claims_all (l := [.copytOut 3 1 0 (op 3) false .d1 false]) (by decide +kernel) _ (List.mem_singleton.mpr rfl),
    claims_all (l := [.copy 3 1 0 .d1 true]) (by decide +kernel) _ (List.mem_singleton.mpr rfl),
    descOk_of (by decide +kernel), descOk_of (by decide +kernel), descOk_of (by decide +kernel), by decide +kernel, skipped_all (by decide +kernel)⟩

/-- CopyWaitsAndHints: ids just before and at the watermark, ids in and out of the window, waits that hold and that do not,
and ranges that can be reached and that cannot. -/
theorem witness_CopyWaitsAndHints :
    (let s := mover 2048 16
     let mark (i : Nat) : Nat := ((0 : BitVec 32) - BitVec.ofNat 32 i).toNat
     (∀ i ∈ ([.cwait 2 0, .cwait 0 0, .cstat 3 0 0, .cstat 3 2 1, .prefL2 1 0, .prefDemote 1 4095, .prefLease 1 0, .prefL2 2 0, .mwait 1 false 0 false,
       .mwait 1 true 14 false, .mwait 1 true 1 false, .mwait 1 false 0 true] : List Instr), Runs i s) ∧
     (1 ≤ mark (2 ^ 32 - 1) ∧ mark (2 ^ 32 - 1) < 2 ^ 31 ∧ mark 0 = 0 ∧ mark (2 ^ 31) = 2 ^ 31) ∧
     (1 ≤ (s.blk.chans[0].next - 0).toNat ∧ (s.blk.chans[0].next - 0).toNat ≤ 16 ∧ (s.blk.chans[0].xfers.find? (fun x => x.id == 0)).isSome = true) ∧
     s.blk.chans[0].busy = true ∧ s.blk.chans[1].busy = false) := by
  exact ⟨runs_all (by decide +kernel), by decide, by decide +kernel, by decide, by decide⟩

/-- An MP that gives hints, with the translation of one page. -/
def hinting : State := { issuing 4 (block 0) (agent [0, 0x10000, 0x20000, 0x0100_0000_0000_0000] [] false) with
  cores := [(0, { Core.reset with tlb := [⟨1, 0x10, 1, 0x10, 0xD⟩] })] }

/-- CopyWaitsAndHints: a range whose translation is held, one that is missing, one that can not be reached, and a poisoned
scalar. -/
theorem witness_CopyWaitsAndHints_hints :
    (let s := hinting
     let t : State := { s with ag := { s.ag with sPoison := 2 } }
     (∀ i ∈ ([.prefL2 1 0, .prefDemote 1 15, .prefLease 1 0, .prefL2 2 0, .prefDemote 2 0, .prefLease 3 4095] : List Instr), Runs i s ∧ Runs i t) ∧
     t.ag.poisoned (.s 1) = true ∧ s.ag.poisoned (.s 1) = false ∧ hintTr s s.blk .lease (s.sReg 3 &&& ~~~255#64) = .fault cPAGE ∧
     hintTr s s.blk .l2 0x10000 = .ok (.phys 0x10000) ∧ hintTr s s.blk .demote 0x20000 = .miss ∧
     ((s.sReg 1 &&& ~~~255#64) = 0x10000 ∧ ∀ n < 16, ∃ p, hintTr s s.blk .demote (BitVec.ofNat 64 (0x10000 + 256 * n)) = .ok p) ∧
     canonical (s.sReg 1) = true ∧ inWindow (s.sReg 1) = false ∧ textOffset s s.blk (s.sReg 1) = none ∧
     ((s.core s.blk.core).tlb.find? fun e => e.covers s.blk.part (s.sReg 1)) = some ⟨1, 0x10, 1, 0x10, 0xD⟩ ∧ remotePkg 0x10000 = none) := by
  refine ⟨fun i hi => ⟨runs_all (by decide +kernel) i hi, runs_all (by decide +kernel) i hi⟩, by decide, by decide, by decide +kernel,
    by decide +kernel, by decide +kernel, ⟨by decide, fun n hn => ⟨.phys (0x10000 + 256 * n), ?_⟩⟩, by decide, by decide, by decide +kernel,
    by decide +kernel, by decide +kernel⟩
  have h : ∀ n < 16, hintTr hinting hinting.blk .demote (BitVec.ofNat 64 (0x10000 + 256 * n)) = .ok (.phys (0x10000 + 256 * n)) := by decide +kernel
  exact h n hn

/-- A TTOV whose item's data is still to come. -/
def lateTtov : Work :=
  { agent := 0, i := .ttov (op 0) false, mask := 0, items := ⟨[], none⟩, ctl := stream.ag.ctl, srcs := [⟨0, 1, true, .tile Tile.reset⟩]
    prev := ⟨0, 0, false, .tile Tile.reset⟩, hold := false, void := false, epc := 0, long := none }

/-- WordsHeldBack, GuardedOffTiles: a refused word, a pending mark, a latched destination, a poisoned guard, and words
guarded off. -/
theorem witness_WordsHeldBack :
    (let s : State := { stream with ag := { stream.ag with
       ctl := { stream.ag.ctl with pm := false }
       pend := [.s 1]
       pPoison := 2
       latches := [⟨.s 5, 0, 9, Flags.none, false⟩] } }
     checks (.tlbinv 1 0) s = some cPRIV ∧ (Instr.tlbinv 1 0).privileged = true ∧ s.ag.ctl.pm = false ∧ (Instr.tlbinv 1 0).isOneWord = true ∧
     (checks (.ld 5 1 (.short 0)) s = none ∧ .s 1 ∈ markRegs (.ld 5 1 (.short 0)) s ∧ absentOn false (.ld 5 1 (.short 0)) = false) ∧
     (checks (.ld 5 2 (.short 0)) s = none ∧ (∀ r ∈ markRegs (.ld 5 2 (.short 0)) s, r ∉ s.ag.pend) ∧ ctlPending (.ld 5 2 (.short 0)) s = false ∧ latchedDest (.ld 5 2 (.short 0)) s = true) ∧
     (checks (.mfc 5 1) s = none ∧ ctlPending (.mfc 5 1) { s with blk := { s.blk with works := [lateTtov] } } = true) ∧
     (latchedDest (.ld 6 2 (.short 0)) s = false ∧ { s with cur := { s.cur with hdr := ⟨false, 1, false, 0⟩ } }.ag.poisoned (.p 1) = true)) ∧
    (∀ i ∈ ([.ld 5 1 (.short 0), .vadd 1 2 3 ⟨.sr0, false, false⟩ .f32, .add 1 2 3, .br 4, .exit] : List Instr), Skipped i (off stream)) ∧
    (itemOps (.ld 5 1 (.short 0)) = []) := by
  exact ⟨by decide +kernel, skipped_all (by decide +kernel), by decide⟩

theorem witness_GuardedOffTiles :
    (∀ i ∈ ([.tadd ⟨2, 0, true⟩ (op 0) (op 1) (mode 8), .mmf (op 7) (op 3) (op 4) (op 6) false (mode 3), .tacc (op 7) (op 10) (op 10) false (mode 2),
      .ttov (op 0) false, .tsts (op 0) 4, .tmov (op 15) (op 15)] : List Instr), Skipped i (off (tiling 0))) ∧
    (∀ i ∈ ([.tadd ⟨2, 0, true⟩ (op 0) (op 1) (mode 8), .ttov (op 0) false] : List Instr), ((claimed i true (off (tiling 0))).all fun u => ready i u) = true ∧
      0 < (tileHandles i).length) :=
  ⟨skipped_all (by decide +kernel), by decide +kernel⟩

/-- A machine with one block, whose page at 0x10000 is mapped to itself. -/
def world (b : Block) : State := { issuing 0 Block.reset Agent.reset with
  blocks := [(0, b)]
  mem := pageTables
  parts := [(1, { part1 with ttroot := 1 })] }

/-- Block 0 with one agent. -/
def withAgents (w : Fin 5) (a : Agent) : Block := { block 0 with agents := (block 0).agents.set w a }

/-- A stream, or the MP, with one access still to be performed; port 0 of the block has a result, port 3 a command. -/
def accessing (w : Fin 5) (k : AccessKind) (l : Loc) : State := world { withAgents w { agent [] [] false with accs := [⟨k, l⟩] } with
  ports := ((Vector.replicate 4 Port.reset).set 0 { Port.reset with res := [(7, true)] }).set 3 { Port.reset with cmd := [8] } }

/-- AccessesPerform: each kind of access, in memory, in the scratchpad and at a port. -/
theorem witness_AccessesPerform :
    (let head (s : State) (w : Nat) (x : Access) : Bool := (getKey s.blocks 0).isSome && decide ((enter s 0 w).ag.accs = [x]) &&
       (enter s 0 w).mem.wf && (enter s 0 w).blk.pad.wf && decide (x.loc = x.loc.alignDown x.kind.align)
     head (accessing 0 (.load 1) (.phys 0x10008)) 0 ⟨.load 1, .phys 0x10008⟩ ∧
     head (accessing 0 (.vload 1 1 false) (.pad 256)) 0 ⟨.vload 1 1 false, .pad 256⟩ ∧
     head (accessing 0 (.store 1 true) (.phys 0x10008)) 0 ⟨.store 1 true, .phys 0x10008⟩ ∧
     head (accessing 0 (.vstore 1 1 false) (.pad 0x1FFF00)) 0 ⟨.vstore 1 1 false, .pad 0x1FFF00⟩ ∧
     head (accessing 0 (.rows 1) (.pad (256 * 8183))) 0 ⟨.rows 1, .pad (256 * 8183)⟩ ∧
     head (accessing 0 (.atomic .add 1 5 0 false false) (.phys 0x10008)) 0 ⟨.atomic .add 1 5 0 false false, .phys 0x10008⟩ ∧
     head (accessing 0 (.atomic .cas 1 5 0 false true) (.pad 0)) 0 ⟨.atomic .cas 1 5 0 false true, .pad 0⟩ ∧
     head (accessing 0 (.atomic .cas 1 5 9 false true) (.pad 0)) 0 ⟨.atomic .cas 1 5 9 false true, .pad 0⟩ ∧
     head (accessing 0 (.push 0 7) (.text 0)) 0 ⟨.push 0 7, .text 0⟩ ∧ head (accessing 0 (.pop 0 1) (.text 0)) 0 ⟨.pop 0 1, .text 0⟩ ∧
     head (accessing 4 (.pop 3 1) (.text 0)) 4 ⟨.pop 3 1, .text 0⟩) ∧
    (let s : State := { accessing 0 (.store 1 true) (.phys 0x10008) with parts := [(1, { part1 with
       ttroot := 1
       slots := [(0, ⟨.resident, [], [], 64, 0, false, 0, [], [(0x10000, 0x20000)], [], 0, []⟩)] })] }
     inSlotFrame (enter s 0 0) 0x10008 = true ∧ inSlotFrame (enter (accessing 0 (.store 1 true) (.phys 0x10008)) 0 0) 0x10008 = false) ∧
    remotePkg 0x10008 = none ∧ (enter (accessing 0 (.pop 0 1) (.text 0)) 0 0).blk.ports[(0 : Fin 4)].res = [(7, true)] ∧
    (enter (accessing 4 (.pop 3 1) (.text 0)) 0 4).blk.ports[(3 : Fin 4)].cmd = [8] := by
  decide +kernel

/-- AccessesPerform, ScalarAccesses: loads that a lease serves, and one that none does; a block that a failure has stopped. -/
theorem witness_AccessesPerform_lease :
    (let s (k : AccessKind) : State := { accessing 0 k (.lease 0x10000) with cores := [(0, { Core.reset with
       leases := (List.range 4).map fun n => ⟨0x400 + n, 7, 1, 1000⟩ })] }
     (leaseRead (enter (s (.load 1)) 0 0) (.lease 0x10000) 8).isSome = true ∧
     (leaseRead (enter (s (.vload 1 1 false)) 0 0) (.lease 0x10000) 256).isSome = true ∧
     leaseRead (enter (s (.load 1)) 0 0) (.lease 0x10100) 8 = none ∧ (Loc.lease 0x10000).alignDown 256 = .lease 0x10000) ∧
    (let s := accessing 0 (.load 1) (.phys 0x10008)
     ((getKey s.blocks 0).map (·.status)) = some .running ∧ (enter s 0 0).ag.accs = [⟨.load 1, .phys 0x10008⟩]) ∧
    (getKey (world { block 0 with status := .failed }).blocks 0).map (·.status) = some .failed := by
  decide +kernel

/-- A VGATH, a VSCAT or a TLDS that has reached a unit. -/
def long (i : Instr) (unit : Nat) : Long where
  pc := 0x1000
  next := 0x1008
  w := 0
  rep := false
  i := i
  unit := unit
  last := 63
  base := 0xF_0000_0020_0000
  stride := 0
  enables := 0
  cols := 0
  reg := 1
  gen := 0
  idx := 0
  data := 0
  tag := 0x10
  mask := 0x8000_0000_0000_0001
  poison := false
  advance := []
  first := none
  begun := true
  tile := Tile.reset

/-- A walk toward the page at 0x10000, at a level and its table, or ended. -/
def walking (level table : Nat) (found : Option WalkEnd) (access : Option Access) : Walk where
  va := 0x10000
  use := .load
  level := level
  table := table
  found := found
  access := access
  reg := some (.s 1)
  spec := false
  pc := 0x1000
  w := 0
  next := 0x1008
  rep := false

/-- AgentMoves: a result of some lanes and of none, latches that land, a unit's job, a NaN report, long words at their first
and their last unit, and a trap that waits. -/
theorem witness_AgentMoves :
    (let u (a : Agent) : State := enter (world (withAgents 0 a)) 0 0
     (u { Agent.reset with ready := [⟨.v 1, 5, 2, true⟩] }).ag.ready[0]? = some ⟨.v 1, 5, 2, true⟩ ∧
     (u { Agent.reset with ready := [⟨.s 1, 5, 0, true⟩] }).ag.ready[0]? = some ⟨.s 1, 5, 0, true⟩ ∧
     ((u { Agent.reset with cyc := 4, latches := [⟨.s 1, 5, 4, Flags.none, false⟩, ⟨.s 2, 5, 5, Flags.none, false⟩] }).ag.latches.filter
       fun l => decide (l.tag ≤ 4)) = [⟨.s 1, 5, 4, Flags.none, false⟩] ∧
     (u { Agent.reset with nan := some ⟨1, 2, 3, 4, 5⟩ }).ag.nan = some ⟨1, 2, 3, 4, 5⟩ ∧
     (let x := u { Agent.reset with long := some (long (.vgath 1 2 1 1 0) 63) }
      translate x x.blk 0xF_0000_0020_0000 .load = .ok (.pad 0) ∧ (long (.vgath 1 2 1 1 0) 63).unit < 64) ∧
     (let x := u { Agent.reset with long := some (long (.vscat 1 2 1 1 0) 0) }
      translate x x.blk 0xF_0000_0020_0000 .store = .ok (.pad 0) ∧ x.mem.wf = true ∧ x.blk.pad.wf = true ∧ Loc.pad 0 = (Loc.pad 0).alignDown 4 ∧
        (long (.vscat 1 2 1 1 0) 0).mask.getLsbD 63 = true) ∧
     (let x := u { Agent.reset with long := some { long (.tlds (op 1) 1) 7 with
        base := 8183
        last := 8 } }
      8183 + 7 < x.blk.sprows ∧ (1 : Nat) < 512) ∧
     (let x := enter (world { withAgents 0 { Agent.reset with long := some { long (.tlds (op 1) 1) 8 with
          base := 8183
          last := 8 } } with tiles := [(1, { Tile.reset with filling := true })] }) 0 0
      8183 + 8 < x.blk.sprows ∧ (x.blk.tile 1).md.wc = 0 ∧ (x.blk.tile 1).filling = true ∧ x.blk.works = [] ∧
        x.ag.walk = none ∧ x.ag.accs = []) ∧
     (let busy (j : Job) : State := enter { world (withAgents 0 { Agent.reset with long := some { long (.tlds (op 1) 1) 7 with last := 8 } }) with
        cores := [(0, { Core.reset with tile := some j })] } 0 0
      ((busy ⟨0, 0, [1], Flags.none, [], false, none⟩).core 0).tile = some ⟨0, 0, [1], Flags.none, [], false, none⟩ ∧
        ((busy ⟨0, 1, [], Flags.none, [], false, none⟩).core 0).tile = some ⟨0, 1, [], Flags.none, [], false, none⟩ ∧
        (busy ⟨0, 0, [1], Flags.none, [], false, none⟩).cur.w = 0) ∧
     ((∀ j < 64, 63 < j → (long (.vgath 1 2 1 1 0) 63).mask.getLsbD j = false) ∧ (long (.vgath 1 2 1 1 0) 0).mask.getLsbD 63 = true) ∧
     (let x := u { agent [] [] false with trap := some ⟨cTIMER, true, 0x1000, 0, 0⟩ }
      x.ag.trap = some ⟨cTIMER, true, 0x1000, 0, 0⟩ ∧ x.ag.pend = [] ∧ x.ag.walk = none ∧ x.ag.long = none ∧
        16 * x.ag.ctl.tframe.toNat + 14 ≤ x.blk.sprows ∧ x.blk.pad.wf = true)) ∧
    (let s : State := { world (withAgents 0 Agent.reset) with cores := [(0, { Core.reset with
       tile := some ⟨0, 0, [], Flags.invalid, [], true, some ⟨1, 2, 3, 4, 5⟩⟩
       leases := [⟨3, 0, 0, 7⟩, ⟨5, 0, 0, 7⟩] })] }
     (s.core 0).unit false = some ⟨0, 0, [], Flags.invalid, [], true, some ⟨1, 2, 3, 4, 5⟩⟩ ∧ (getKey s.blocks 0).isSome = true ∧
       ((s.block 0).agents[0]).longTile = false ∧ (s.block 0).works = [] ∧
       ({ Agent.reset with long := some (long (.tlds (op 1) 1) 0) } : Agent).longTile = true ∧ (∃ x ∈ (s.core 0).leases, x.line = 5) ∧ ∃ x ∈ (s.core 0).leases, x.line ≠ 5) := by
  decide +kernel

/-- AgentMoves: entries of a walk that name a table and a leaf, one that is outside the partition's memory; walks that end in a
leaf and in a fault, of a word, of its fetch, and after a trap. -/
theorem witness_AgentMoves_walks :
    (let u (y : Walk) : State := enter (world (withAgents 0 { agent [] [] false with walk := some y })) 0 0
     let entry (y : Walk) : Word := BitVec.ofNat 64 ((u y).mem.readLE (y.table + 8 * (0x10 / 512 ^ y.level % 512)) 8)
     let root := walking 4 0x1000 none none
     let last := walking 0 0x5000 none none
     (root.table < 0x58_0000_0000 ∧ ∃ q ∈ ((u root).part (u root).blk.part).ranges, q.1 ≤ root.table ∧ root.table < q.2) ∧
     ((u root).ag.walk = some root ∧ root.found = none ∧ root.level ≤ 4) ∧
     ((entry root).getLsbD 0 = true ∧ (entry root).getLsbD 1 = true ∧ (entry root).getLsbD 7 = false ∧ entry root &&& 0xFFF0_0000_0000_0E60#64 = 0) ∧
     ((entry last).getLsbD 0 = true ∧ (entry last).getLsbD 1 = false ∧ (entry last).getLsbD 2 = true ∧ (entry last).getLsbD 7 = false ∧
       entry last &&& 0xFFF0_0000_0000_0E60#64 = 0) ∧ (u root).mem.anyPoison (0x1000 / 4) 2 = false ∧
     (u root).walkQueue = [] ∧ ¬ (0x58_0000_0000 : Nat) < 0x58_0000_0000) ∧
    (let far (k : Nat) : Walk := { walking 4 0x1000 none none with va := BitVec.ofNat 64 (0x1000_0000 + 4096 * k) }
     let q (k : Nat) : EngWalk := ⟨1, BitVec.ofNat 64 (0x1000_0000 + 4096 * k), 4, 0x1000, none, 1⟩
     let hint (k : Nat) : Hint := ⟨0, .l2, (far k).va, 256, 1, 0, some (q k)⟩
     let s : State := { world (withAgents 0 { agent [] [] false with walk := some (walking 4 0x1000 none none) }) with
       cores := [(1, { Core.reset with hints := (List.range 64).map hint })]
       walkQueue := (List.range 64).map fun k => (1, pageNo (far k).va) }
     let u := enter s 0 0
     ((u.walkQueue.takeWhile (· != (0, 0x10))).filter fun x => clusterOf x.1 == clusterOf 0 && stillMissed u x).length = 64) ∧
    (let e : TlbEntry := ⟨1, 0x10, 1, 0x10, 0xD⟩
     let s := enter (world (withAgents 0 (agent [] [] false))) 0 0
     leased e .load (checkLeaf s (s.part s.blk.part) e 0x10000 .load) = .ok (.phys 0x10000) ∧
     leased { e with bits := 0x10D } .load (checkLeaf s (s.part s.blk.part) { e with bits := 0x10D } 0x10000 .load) = .ok (.lease 0x10000) ∧ (walking 0 0 (some (.leaf e)) none).found = some (.leaf e) ∧
     (walking 0 0 (some .page) (some ⟨.load 1, .phys 0⟩)).found = some .page ∧ s.ag.trap = none ∧ s.ag.long = none ∧
     (let far : TlbEntry := ⟨1, 0x10, 1, 0x8_0500_0000_0000 / 4096, 0xD⟩
      let t : State := { s with
        froutes := [(5, 1)]
        fabid := 1 }
      checkLeaf t (t.part t.blk.part) far 0x10000 .load = .miss)) := by
  decide +kernel

/-- Two streams at sync words with the same mask. -/
def syncing : State :=
  let a : Agent := { agent [] [] false with
    pc := 0x1000
    ctl := { Ctl.reset with syncmsk := 3 } }
  world { withText (block 0) [0x8000_0000_0000_0000] with agents := ((block 0).agents.set 0 a).set 1 a }

theorem witness_AgentMoves_sync :
    (let u := enter syncing 0 0
     (List.range 4).filter (fun n => (3 : BitVec 4).getLsbD n) = [0, 1] ∧ (∀ n ∈ [0, 1], syncReady (focusOn u n) 3 = true) ∧
     ¬ ∀ n ∈ [0, 1, 2], syncReady (focusOn u n) 7 = true) := by
  decide +kernel

/-- A stream with interrupts enabled, whose lines 5 and 6 are pending; and one in a region that has slipped past its limit. -/
def interrupted : Agent := { agent [] [] false with ctl := { Ctl.reset with
  ie := true
  imask := 0x60
  line5 := true
  line6 := true
  tvec := 0x2000 } }

theorem witness_Interrupts :
    (let u := enter (world (withAgents 0 interrupted)) 0 0
     (u.ag.run = .running ∧ u.ag.trap = none ∧ u.ag.nan = none ∧ u.ag.spoiled = none ∧ u.blk.status = .running ∧ u.blk.migrating = none ∧ u.ag.rep ≠ some 0 ∧
       u.ag.long = none ∧ u.ag.walk = none ∧ (u.core u.blk.core).matrix = none ∧ (u.core u.blk.core).tile = none ∧ u.blk.works = []) ∧
     ((long (.vgath 1 2 1 1 0) 5).isGather = true ∧ (walking 0 0 none (some ⟨.load 1, .phys 0⟩)).use = .load ∧
       (walking 0 0 none none).access = none) ∧
     u.ag.ctl.ie = true ∧ u.ag.ctl.inh = false ∧ u.ag.ctl.tslip.region = none ∧ (ipend u.blk 0 u.ag.ctl &&& u.ag.ctl.imask).getLsbD 5 = true ∧
     ∀ m < 5, (ipend u.blk 0 u.ag.ctl &&& u.ag.ctl.imask).getLsbD m = false) ∧
    (let t : Tslip := { Tslip.reset with
       limit := 3
       cur := 4
       region := some (0x1000, 0x2000) }
     let u := enter (world (withAgents 0 { interrupted with ctl := { interrupted.ctl with tslip := t } })) 0 0
     u.ag.ctl.tslip.region.isSome = true ∧ u.ag.ctl.tslip.due = none ∧ ({ t with due := some 9 } : Tslip).due = some 9 ∧ u.ag.ctl.tslip.limit ≠ 0 ∧
       u.ag.ctl.tslip.limit.toNat < u.ag.ctl.tslip.cur.toNat) := by
  decide +kernel

/-- The MP of a block with a faulted transfer on channel 0 and a later one that it holds. -/
def faulting (run : RunState) : State := world { withAgents 4 { agent [] [] false with run := run } with
  chans := (Vector.replicate 5 Chan.reset).set 0 ⟨2, [{ Transfer.start 0 (.mem .d1) with st := .faulted cPAGE }, { Transfer.start 1 (.mem .d1) with
    st := .held
    order := 1 }], none⟩ }

/-- Two blocks on core 0; bank 7 of tile registers is live for the second, in slot 1, and a copy of the first names an item of it. -/
def sharing : State := { world (block 0) with
  blocks := [(0, { block 0 with chans := (Vector.replicate 5 Chan.reset).set 0 ⟨1, [Transfer.start 0 (.fromItem .d1 ⟨0, 448, 0, 0, 0⟩ false)], none⟩ }),
    (1, { block 0 with slot := 1 })]
  cores := [(0, { Core.reset with
    slots := ((Vector.replicate 4 none).set 0 (some 0)).set 1 (some 1)
    ctxv := 3
    live := 0x80
    town := 0x4000 })] }

theorem witness_StopsAndClaims :
    (let u := enter (faulting .running) 0 4
     u.ag.run = .running ∧ u.ag.walk = none ∧ (u.blk.chans[(0 : Fin 5)].xfers.map (·.st)) = [.faulted cPAGE, .held] ∧
     ∀ m : Fin 4, m ≠ 0 → u.blk.chans[m].xfers = []) ∧
    (let u := enter (faulting .mpStopped) 0 4
     (∀ n : Fin 4, (u.blk.chans[n].xfers.map (·.id)).Nodup) ∧ ∀ n : Fin 4, ∀ x ∈ u.blk.chans[n].xfers, x.st ≠ .faulted cDWRT) ∧
    (let x : Transfer := { Transfer.start 0 (.toItem .d1 ⟨2, 0, 1, 0, 5⟩ 0x10 false) with st := .faulted cDWRT }
     let u := enter (world { withAgents 4 { agent [] [] false with run := .mpStopped } with
       chans := (Vector.replicate 5 Chan.reset).set 0 ⟨1, [x], none⟩ }) 0 4
     x ∈ u.blk.chans[(0 : Fin 5)].xfers ∧ u.ag.run = .mpStopped ∧ u.blk.status = .running ∧ (u.blk.chans[(0 : Fin 5)].xfers.map (·.id)).Nodup) ∧
    ((enter (faulting .mpStopped) 0 4).ag.run = .mpStopped ∧ (enter (faulting .mpStopped) 0 4).blk.status = .running) ∧
    (let c := sharing.core 0
     c.bankLive 0 7 = true ∧ c.bankOwner 0 7 = 1 ∧ c.slots[(1 : Nat)]? = some (some 1) ∧ (getKey sharing.blocks 1).isSome = true ∧
     (sharing.block 0).status = .running ∧ (sharing.block 0).slot = 0 ∧ wantsBank sharing (sharing.block 0) 0 7 = true ∧
     bankHeld sharing 0 1 (sharing.block 1) (sharing.block 1).agentList 0 7 = false) ∧
    (let s : State := { sharing with blocks := putKey sharing.blocks 1 { block 0 with
       slot := 1
       chans := (Vector.replicate 5 Chan.reset).set 0 ⟨1, [Transfer.start 0 (.fromItem .d1 ⟨0, 448, 0, 0, 0⟩ false)], none⟩ } }
     bankHeld s 0 1 (s.block 1) (s.block 1).agentList 0 7 = true ∧ (s.core 0).slots[(2 : Nat)]? = some none) := by
  decide +kernel

/-- A block with one transfer on channel 0 whose copy is of 16 bytes within the mapped page. -/
def copying (form : CopyForm) (f : Transfer → Transfer) : State := world { withAgents 4 (agent [] [] false) with
  chans := (Vector.replicate 5 Chan.reset).set 0 ⟨1, [f { Transfer.start 0 form with
    size := 16
    desc := ⟨0x10004, 0x10084, 16, 1, 1, 0, 0, 0, 0, 0, 0⟩ }], none⟩ } |> fun s => { s with
  cores := [(0, { Core.reset with tlb := [⟨1, 0x10, 1, 0x10, 0xD⟩] })] }

/-- Block 1 stands on core 1, in slot 1, and bank 0 of its tile registers is live. -/
def remote : State := { world (block 0) with
  blocks := [(0, block 0), (1, { block 1 with slot := 1 })]
  cores := [(1, { Core.reset with
    slots := (Vector.replicate 4 none).set 1 (some 1)
    live := 1
    town := 1 })] }

theorem witness_TransferMoves :
    (let x (s : State) : Transfer := (enter s 0 4).blk.chans[(0 : Fin 5)].xfers.headD (Transfer.start 0 (.mem .d1))
     let u := enter (copying (.mem .d1) id) 0 4
     let y := x (copying (.mem .d1) id)
     let step (pos : Nat → SidePos) (n : Nat) : CopyStep := stepAt pos (nearBytes y.desc .d1 y.size n) n
     (srcPos y.desc .d1 5 = .mem ⟨0x10004, 0, 16⟩ ∧ step (srcPos y.desc .d1) 5 = ⟨0x10008, (List.range 8).map fun k => (4 + k, k)⟩ ∧
       step (srcPos y.desc .d1) 0 = ⟨0x10004, (List.range 4).map fun k => (k, 4 + k)⟩ ∧
       placeOf u u.blk true 0x10008 .load = .ok (.phys 0x10008) ∧ y.size = y.desc.size .d1 ∧
       remotePkg 0x10008 = none ∧ isHold u 0 y = false ∧ y.buf.wf = true) ∧
     (dstPos y.desc .d1 12 = .mem ⟨0x10084, 0, 16⟩ ∧ step (dstPos y.desc .d1) 12 = ⟨0x10090, (List.range 4).map fun k => (12 + k, k)⟩ ∧
       placeOf u u.blk true 0x10090 .store = .ok (.phys 0x10090) ∧ u.mem.wf = true ∧ inSlotFrame u 0x10090 = false) ∧
     ((x (copying (.mem .d1) fun y => { y with got := 2 ^ 16 - 1 })).got.testBit 15 = true) ∧
     ((x (copying (.mem .d1) id)).st = .active ∧ (x (copying (.mem .d1) id)).id.toNat = 0) ∧
     (let i : ItemRef := ⟨0, 0, 0, 0, 0⟩
      (u.blk.md 0).wc = i.x ∧ u.blk.filling 0 = false ∧
        (let v := { u.blk with tiles := [(0, { Tile.reset with filling := true })] }
         (v.md 0).wc = i.x ∧ v.filling 0 = true) ∧ ((u.core u.blk.core).claim? u.blk.slot 0 0).isSome = true) ∧
     (let i : ItemRef := ⟨1, 63, 0, 0, 0⟩
      (u.blk.md 575).wc = i.x ∧ (u.blk.md 575).tag = 0x10 ∧ ((u.core u.blk.core).claim? u.blk.slot 1 7).isSome = true) ∧
     (let i : ItemRef := ⟨0, 511, 1, 0, 0⟩
      (u.blk.md 511).wc + 1 = i.x ∧ (u.blk.md 511).q = 0 ∧ ((u.core u.blk.core).claim? u.blk.slot 0 7).isSome = true)) ∧
    (let u := enter remote 0 4
     let c := u.core 1
     c.bankLive 0 0 = true ∧ c.slots[c.bankOwner 0 0]? = some (some 1) ∧ (u.block 1).launch = u.blk.launch ∧ (u.block 1).status = .running ∧
     ((u.block 1).tile 0).md.wc + 1 = 1 ∧ ((u.block 1).tile 0).md.q = 0 ∧ u.blk.chans[(0 : Fin 5)].resendAt = none ∧
     earlierRemote u.blk.chans[(0 : Fin 5)] (Transfer.start 0 (.mem .d1)) = false) := by
  decide +kernel

/-- A stream at an ADD and VADD pair; the machine as it takes its turn, an event and a tick; and one without power. -/
def stepping (c : Choice) : State := { world (withText { block 0 with agents := (block 0).agents.set 0 { agent [] [] false with pc := 0x1000 } }
  [0x0000_4220_8015_6700, 0x0400_1000_0000_0000]) with agenda := [c] }

theorem witness_StepRunsDecoded :
    (let p := (takeChoice (stepping (.issue 0 0))).2
     let u := enter p 0 0
     let u' : State := { u with
       ag := { u.ag with wait := 0 }
       cur := { u.cur with
         pc := u.ag.pc
         next := u.ag.pc + 8
         sync := false } }
     (takeChoice (stepping (.issue 0 0))).1 = .issue 0 0 ∧ (getKey p.blocks 0).isSome = true ∧ mayIssue u = true ∧ waitOver u = true ∧
     u.ag.rep ≠ some 0 ∧ fetchWord u' u'.blk u.ag.pc = (.ok (.text 0), 0x0000_4220_8015_6700) ∧
     decode (u.cur.w == 4) 0x0000_4220_8015_6700 0 = .ok ⟨Hdr.default, .pair (.add 1 2 1) (.vadd 5 6 7 ⟨.rne, false, false⟩ .f32)⟩ ∧
     (let x := beforeWord { u' with cur := { u'.cur with raw := 0x0000_4220_8015_6700 } } ⟨Hdr.default, .pair (.add 1 2 1) (.vadd 5 6 7 ⟨.rne, false, false⟩ .f32)⟩
      verdict (.add 1 2 1) x = .go ∧ verdict (.vadd 5 6 7 ⟨.rne, false, false⟩ .f32) x = .go) ∧
     fetchWord u' u'.blk (u.ag.pc + 8) = (.ok (.text 8), 0x0400_1000_0000_0000) ∧
     decode (u.cur.w == 4) 0x0400_1000_0000_0000 0 = .ok ⟨Hdr.default, .one (.br 0)⟩) ∧
    (takeChoice (stepping (.event .powerOn))).1 = .event .powerOn ∧ (takeChoice (stepping (.time 3))).1 = .time 3 ∧
    (stepping (.time 3)).dev.power = true ∧ (let s : State := { State.reset with dev := { Device.reset with power := false } }
      s.dev.power = false ∧ s.agenda = []) := by
  decide +kernel

/-- A machine whose partition 1 has the stage above to place: its blocks, its cores and its requests. -/
def scheduling (bs : List (Nat × Block)) (cs : List (Nat × Core)) (rs : List Request) (p : Partition) : State := { world Block.reset with
  blocks := bs
  cores := cs
  requests := rs
  parts := [(1, p)]
  launches := [(0, launch)]
  nextBlock := 5 }

/-- A request for an instance of the stage, at priority 1. -/
def request : Request := ⟨1, 0, 0, 1, none, 0⟩

/-- A core with one block, in context slot 0. -/
def busy (id : Nat) : Core := { Core.reset with
  slots := (Vector.replicate 4 none).set 0 (some id)
  ctxv := 1 }

/-- Block 0 on core 0, in slot 0, whose stream stands at a word. -/
def standing (core : Nat) (word : Nat) : Block := { withText (block core) [word] with
  agents := (block core).agents.set 0 { agent tileScalars handles false with pc := 0x1000 } }

/-- The Ochre cluster alone: core 768 runs block 0, and the other seven are out of service. -/
def full (b : Block) (rs : List Request) : State := scheduling [(0, b)] ((768, busy 0) :: (List.range 7).map fun n => (769 + n, { Core.reset with out := true })) rs
  { part1 with clusters := [72] }

/-- Placement: a request that finds a core, of a new instance and of a block that waits; one that finds none, with and without a
block to pre-empt. -/
theorem witness_Placement :
    (queueOf (scheduling [] [] [request] { part1 with clusters := [] }) 1 = [request] ∧
      freeFor (scheduling [] [] [request] { part1 with clusters := [] }) request = none) ∧
    (let s := scheduling [] [] [request] part1
     part1.active = true ∧ queueOf s 1 = [request] ∧ freeFor s request = some 0 ∧ s.launch? 0 = some launch ∧ launch.stages[0]? = some stage ∧
       stage.agents ≠ 0 ∧ stage.ringPages = [] ∧ stageFinished s 0 0 launch { stage with placed := 0 } = false) ∧
    (let r : Request := ⟨1, 0, 0, 1, some 0, 0⟩
     let b := { standing 0 0x0302_2380_0083_0080 with mig := { MigCtl.reset with wait := true } }
     let s := scheduling [(0, b)] [(0, busy 0)] [r] part1
     queueOf s 1 = [r] ∧ freeFor s r = some 768) ∧
    (let b := { block 768 with prio := 0 }
     let s := full b [request]
     queueOf s 1 = [request] ∧ freeFor s request = none ∧ victimFor s request = some (0, b) ∧ b.migrating = none ∧
       suspendedFirst s request = false ∧ blockMayStop s 0 b = true ∧ b.prio < request.prio ∧
       (s.core 768).slots[1]? = some none ∧ (∀ n < 1, (s.core 768).slots[n]? ≠ some none) ∧ 0 ≠ s.nextBlock ∧ s.launch? request.launch = some launch) ∧
    (let b := { block 768 with
       prio := 1
       status := .suspended }
     getKey (full b [request]).blocks 0 = some b ∧ request.before b.asRequest = false) ∧
    victimFor (full (block 768) [⟨1, 0, 0, 0, none, 0⟩]) ⟨1, 0, 0, 0, none, 0⟩ = none := by
  decide +kernel

/-- The walks of partition 1 to some pages have ended, each in a leaf that maps the page to itself. -/
def walkedTo (s : State) (pages : List Nat) : State := { s with engWalks := pages.map fun n =>
  ⟨1, BitVec.ofNat 64 (4096 * n), 0, 0x5000, some (.leaf ⟨1, n, 1, n, 0xD⟩), walkRoot (s.part 1)⟩ }

/-- Placement: a stage with a ring whose page has not been walked to, one that has, and one whose ring is closed and empty. -/
theorem witness_Placement_rings :
    let st : Stage := { stage with
      inRing := 0x10000
      placed := 0 }
    let l : Launch := { launch with stages := [st] }
    let s : State := { scheduling [] [] [request] { part1 with ttroot := 1 } with launches := [(0, l)] }
    let closed : State := { walkedTo s [0x10] with mem := Store.empty.writeLE 0x10038 8 1 }
    st.ringPages = [0x10000] ∧ queueOf s 1 = [request] ∧ freeFor s request = some 0 ∧ s.launch? 0 = some l ∧ l.stages[0]? = some st ∧
    engTr s (s.part request.part) 0x10000 .load = .miss ∧
    engTr (walkedTo s [0x10]) ((walkedTo s [0x10]).part request.part) 0x10000 .load ≠ .miss ∧
    stageFinished (walkedTo s [0x10]) 0 0 l st = false ∧ st.agents ≠ 0 ∧
    engTr closed (closed.part request.part) 0x10000 .load ≠ .miss ∧ stageFinished closed 0 0 l st = true ∧
    queueOf closed 1 = [request] ∧ freeFor closed request = some 0 := by
  decide +kernel

/-- Two sliced children of partition 1; a slice of the first ends at the tick given. -/
def slicing (e : Word) (bs : List (Nat × Block)) : State := { scheduling bs [] [] part1 with
  parts := [(1, part1), (2, { part1 with
    id := 2
    sliced := true
    tweight := 1
    sliceEnd := some e }), (3, { part1 with
    id := 3
    sliced := true
    tweight := 3
    active := false })]
  time := Vector.replicate 8 2000000 }

/-- Placement: a block that resumes, a slice before and at its end with no running block, and a block that overruns one. -/
theorem witness_Placement_slices :
    (let b := { block 0 with status := .suspended }
     let s := scheduling [(0, b)] [(0, busy 0)] [] part1
     (s.core 0).slots[(0 : Fin 4)] = some 0 ∧ getKey s.blocks 0 = some b ∧
       (∀ m : Fin 4, (s.core 0).slots[m] = none ∨ (s.core 0).slots[m] = some 0) ∧ (s.core 0).out = false ∧ coreReserved s 0 = false ∧
       (s.part b.part).active = true ∧ servedBefore s b = false) ∧
    (let s := slicing 1999999 [(0, { block 0 with
       part := 2
       status := .sliced })]
     let p := s.part 2
     p.sliceEnd = some 1999999 ∧ p.sliced = true ∧ p.active = true ∧ natSetFrom 0 (s.parts.map (·.1)) = true ∧
       natSetFrom 0 (s.blocks.map (·.1)) = true ∧ reached (s.now 0) 1999999 = true ∧ (∀ x ∈ s.blocks, x.2.status ≠ .running) ∧ nextChild s 2 = 3 ∧
       (∀ c ∈ sliceGroup s 2, (s.part c).quota = none)) ∧
    reached ((slicing 2000001 []).now 0) 2000001 = false ∧
    (∃ x ∈ (slicing 1999999 [(0, { block 0 with
       part := 2
       status := .failed })]).blocks, x.2.part = 2 ∧ (x.2.status = .running ∨ x.2.status = .failed)) ∧
    (let b := { block 0 with
       part := 2
       status := .failed }
     let s := slicing 1000000 [(0, b)]
     getKey s.blocks 0 = some b ∧ b.status = .failed ∧ (s.part b.part).sliceEnd = some 1000000 ∧ (s.part b.part).sliced = true ∧
       (s.part b.part).active = true ∧ natSetFrom 0 (s.blocks.map (·.1)) = true) ∧
    (let b := { block 0 with part := 2 }
     let s := slicing 1000000 [(0, b)]
     getKey s.blocks 0 = some b ∧ b.status = .running ∧ reached (s.now 0) (1000000 + 1000000) = true ∧
       reached (s.now 0) (1000001 + 1000000) = false ∧ s.rungs = [] ∧ (s.launch? b.launch).isSome = true) := by
  decide +kernel

/-- A block whose stream stands at the word given, on its way to core 768. -/
def leaving (word : Nat) (f : Block → Block) : State := scheduling [(0, f { standing 0 word with
  migrating := some 768
  trigger := some 0 })] [(0, busy 0)] [] part1

/-- Placement: a move of a word that the class lacks, one that R308 refuses, one that waits, one of a block that may not stop and
one given up; a return home, and one refused. -/
theorem witness_Placement_moves :
    (let may (s : State) : Bool := mayArrive s (s.block 0) 768 && blockMayStop s 0 (s.block 0)
     let lacks := 0x0302_2380_0083_0080
     let go := leaving lacks id
     let no := leaving lacks fun b => { b with
       agents := b.agents.set 1 { agent tileScalars handles false with pc := 0x1008 }
       text := (Store.empty.writeLE 0 16 0x0302_0380_0083_0080_0302_2380_0083_0080).cells }
     let later := leaving lacks fun b => { b with chans := b.chans.set 0 ⟨1, [Transfer.start 0 (.mem .d1)], none⟩ }
     let held := leaving lacks fun b => { b with agents := b.agents.set 1 { agent [] [] false with pend := [.s 1] } }
     let never : State := { go with cores := [(768, { Core.reset with out := true })] }
     let turned (b : Block) : Block := { b with
       trigger := none
       mig := { MigCtl.reset with
         hb := true
         homec := true } }
     let home := leaving 0x0400_1000_0000_0000 turned
     let back := leaving 0x0302_0380_0083_0080 turned
     let early : State := { go with time := go.time.set 6 999 }
     (reached (go.now 768) (go.now 0) = true ∧ reached (early.now 768) (early.now 0) = false ∧ mayArrive early (early.block 0) 768 = true) ∧
     (go.block 0).status = .running ∧ (go.block 0).migrating = some 768 ∧ (768 : Nat) ≠ (go.block 0).core ∧
     ((go.block 0).trigger = some 0 ∧ may go = true ∧ refused go 0 true = false ∧ mayLeave go 0 (go.block 0) = true ∧
       (go.core 768).slots[0]? = some none ∧ ((go.core 0).liveBanks 0).any (bankBlocked go 768 0) = false) ∧
     (may no = true ∧ refused no 0 true = true ∧ (no.block 0).migChecked = false) ∧
     (may later = true ∧ refused later 0 true = false ∧ mayLeave later 0 (later.block 0) = false) ∧
     (mayArrive held (held.block 0) 768 = true ∧ blockMayStop held 0 (held.block 0) = false) ∧
     mayArrive never (never.block 0) 768 = false ∧
     ((home.block 0).trigger = none ∧ (home.block 0).mig.hb = true ∧ isOchre 768 = (home.block 0).mig.homec ∧ may home = true ∧
       refused home 0 true = false ∧ mayLeave home 0 (home.block 0) = true) ∧
     (may back = true ∧ refused back 0 true = true)) := by
  decide +kernel

/-- Partition 1, with the page tables in use. -/
def mapped : Partition := { part1 with ttroot := 1 }

/-- A stage with an input ring at 0x10000, of the number of entries given, its watermarks 3 and 1, its CLOSED as given;
Weld has walked to it. -/
def ringStage (occ closed : Nat) (bs : List (Nat × Block)) : State := { walkedTo (scheduling bs [] [] mapped) [0x10] with
  mem := pageTables.writeLE 0x10000 64 (4 * 2 ^ 64 + (5 + occ) * 2 ^ 192 + 5 * 2 ^ 256 + 3 * 2 ^ 352 + 2 ^ 320 + closed * 2 ^ 448)
  launches := [(0, { launch with stages := [{ stage with
    inRing := 0x10000
    minInst := 0
    maxInst := 2
    closed := true }] })] }

/-- LaunchProgress: Weld's ticks, and rings at their low and high watermark and full. -/
theorem witness_LaunchProgress_weld :
    (let s : State := { ringStage 3 0 [] with
       parts := [(1, { mapped with weldOpen := true })]
       engWalks := [] }
     let rings := (s.launches.filter fun q => q.2.part == 1 && !rungStops s q.1).flatMap fun q => q.2.stages.flatMap Stage.ringPages
     (s.part 1).weldOpen = true ∧ rings = [0x10000] ∧ engTr s (s.part 1) 0x10000 .load = .miss ∧
       engTr (ringStage 3 0 []) mapped 0x10000 .load ≠ .miss ∧ (readBytes (ringStage 3 0 []) mapped 0x10000 64).isSome = true ∧
       mapped.weldOpen = false ∧ ((ringStage 3 0 []).now 0).toNat % 16384 ≠ 0) ∧
    ((∃ s : State, (s.part 1).active = true ∧ (s.now 0).toNat % 16384 = 0 ∧ (s.part 1).weldAt ≠ some (s.now 0) ∧ s.launches = [(0, launch)] ∧
       launch.part = 1 ∧ launch.stages = [stage] ∧ rungStops s 0 = false) ∧ launch.part ≠ 2) ∧
    (let view (occ closed : Nat) : RingView := ringView (ringStage occ closed []) mapped 0x10000
     view 1 1 = ⟨6, 1, false, 3, 1, true⟩ ∧ view 3 0 = ⟨8, 3, false, 3, 1, false⟩ ∧ view 5 1 = ⟨10, 4, true, 3, 1, true⟩) ∧
    (let live (occ closed : Nat) (bs : List (Nat × Block)) : Bool := let s := ringStage occ closed bs
       match (s.launch? 0).bind fun l => (l.stages[0]?).map (l, ·) with
       | some (l, st) => !stageFinished s 0 0 l st && !st.finished && st.started && st.closed && st.inRing != 0 && st.outRing == 0
       | none => false
     (let l := { launch with stages := [{ stage with finished := true }] }
      stageFinished { scheduling [] [] [request] mapped with launches := [(0, l)] } 0 0 l { stage with finished := true } = true) ∧
     live 3 0 [(0, block 0)] = true ∧ stageCount (ringStage 3 0 [(0, block 0), (1, block 1)]) 0 0 = 2) := by
  refine ⟨?_, ⟨⟨{ scheduling [] [] [] mapped with time := Vector.replicate 8 16384 }, ?_⟩, ?_⟩, ?_⟩ <;> decide +kernel

/-- A grid of 4 by 4 points, with a point taken back or none, and what has been handed out. -/
def grid (pidx : Nat) (returned : List (Nat × Word)) (handed : List Handed) : Walker where
  gx := 4
  gy := 4
  gz := 1
  pidx := pidx
  idx := handed.length
  returned := returned
  handed := handed
  filled := []
  filling := []
  fstart := 1
  updates := []
  planes := [1]

/-- Ordered dither of order 1, with one output of a row of four FP32 elements a point at 0x10000. -/
def coverage : CovRec where
  code := 0x01
  fstart := 0
  inherit := false
  seed := 0
  outs := [⟨0x10000, 0x10, 0x100, 0, 0x10, 1, 4, 0x10⟩]

/-- A launch whose stage has the grid, and the block given on core 0. -/
def walked (w : Walker) (c : Option CovRec) (covctl : Word) (b : Block) : State := { scheduling [(0, b)] [] [] mapped with
  launches := [(0, { launch with
    covctl := covctl
    stages := [{ stage with
      walker := some w
      cov := c }] })] }

/-- Handed out to block 0 as number n, reported or not. -/
def handedOut (n : Nat) (v : Word) (reported : Bool) : Handed := ⟨n, v, 0, reported, none⟩

/-- The points of the grid that the pattern keeps. -/
def keptPoints : List Nat := (List.range 16).filter fun n => keptUnder coverage (grid 0 [] []) 1 ((grid 0 [] []).point n)

/-- LaunchProgress: no grid, a grid without a point left, one with a point taken back, with the next point kept, skipped, and kept
for audit. -/
theorem witness_LaunchProgress_points :
    (let st (w : Walker) (c : Option CovRec) (k : Word) : Bool := let s := walked w c k (block 0)
       let b := s.block 0
       b.status == .running && b.ports[0].res.length - b.ports[0].resClaims == 0 && (gridOf s b).any fun g => g.2.2 == w && g.2.1.cov == c
     gridOf (scheduling [(0, block 0)] [] [] mapped) (block 0) = none ∧ st (grid 16 [] []) none 0 = true ∧ (grid 16 [] []).total = 16 ∧
       st (grid 4 [(3, 9), (1, 7)] []) none 0 = true ∧ st (grid 5 [] []) (some coverage) 0 = true ∧ st (grid 5 [] []) (some coverage) 255 = true) ∧
    keptPoints = [0, 1, 2, 3, 4, 7, 8, 10, 11, 12, 13, 14, 15] ∧ (∀ j, j ≤ 7 → ((grid 5 [] []).point j).z < (grid 5 [] []).planes.length) ∧
    (auditPoint coverage 0 5 0 = false ∧ auditPoint coverage 0 6 0 = false ∧ auditPoint coverage 0 5 255 = true) := by
  decide +kernel

/-- A block with a report in port 1. -/
def reporting (v : Word) (replaying : Bool) : Block := { block 0 with
  ports := (Vector.replicate 4 Port.reset).set 1 { Port.reset with cmd := [v] }
  replaying := replaying }

/-- A block with a command at each of ports 0 and 2. -/
def asking (v : Word) : Block := { block 0 with
  ports := ((Vector.replicate 4 Port.reset).set 0 { Port.reset with cmd := [v] }).set 2 { Port.reset with cmd := [v] } }

/-- The neighbours of point 5 by both axes, reported. -/
def neighbours : List Handed := [handedOut 0 (pointValue ⟨1, 0, 0⟩ false) true, handedOut 1 (pointValue ⟨0, 1, 0⟩ false) true,
  handedOut 2 (pointValue ⟨3, 1, 0⟩ false) true, handedOut 3 (pointValue ⟨1, 3, 0⟩ false) true]

/-- A walker that has handed out 4,096 points, the last of them an audit point with an error of 0.5. -/
def audited (error : Option Nat) : Walker := { grid 16 [] [⟨4095, pointValue ⟨1, 1, 0⟩ true, 0, true, error⟩] with idx := 4096 }

/-- LaunchProgress: a report of a point handed out, one that repeats it in a replay and not, and the other ports. -/
theorem witness_LaunchProgress_reports :
    (let s (r replaying : Bool) := walked (grid 4 [] [handedOut 0 7 r]) none 0 (reporting 7 replaying)
     (∀ r p : Bool, ((s r p).block 0).ports[1].cmd = [7] ∧ (gridOf (s r p) ((s r p).block 0)).isSome = true) ∧
       (handedOut 0 7 false).point = 7 ∧ (handedOut 0 7 false).block = 0) ∧
    (let w := { audited none with handed := neighbours ++ (audited none).handed }
     let s := walked w (some coverage) 0 (reporting (pointValue ⟨1, 1, 0⟩ true) false)
     let B := s.block 0
     let pages := (auditRows (takeReport s 0 B (pointValue ⟨1, 1, 0⟩ true) []) 0 0).flatMap fun x => pagesOf x.1 x.2
     let t := walkedTo s [0x10]
     (pages.find? fun va => engTr s (s.part 1) va .load == .miss).isSome = true ∧ (pages.all fun va => engTr t (t.part 1) va .load != .miss) = true ∧
       (reporting 7 false).ports[1].cmd = [7]) ∧
    (let s := scheduling [(0, reporting 7 false)] [] [] mapped
     gridOf s (s.block 0) = none ∧ s.launch? (s.block 0).launch = some launch) ∧
    cmdPages (walked (grid 4 [] []) none 0 (asking 0x10001)) (asking 0x10001) 0x10001 = [] ∧
    (asking 0x10001).ports[0].cmd = [0x10001] ∧ (asking 0x10001).ports[2].cmd = [0x10001] ∧ (0x10001 : Word).toNat % 64 ≠ 0 ∧
    inWindow 0x10000 = false ∧ (block 0).ports[2].res.length + (block 0).ports[2].resSlots < 16 ∧
    (∃ s : State, s.posts = [(1, 5)] ++ (0, 7) :: [] ∧ ∀ y ∈ ([(1, 5)] : List (Nat × Word)), y.1 ≠ 0) := by
  refine ⟨?_, ?_, ?_, ?_, ?_, ?_, ?_, ?_, ?_, { State.reset with posts := [(1, 5), (0, 7)] }, rfl, ?_⟩ <;> decide +kernel

/-- LaunchProgress: a point to fill, updates with and without errors, and a launch that may retire. -/
theorem witness_LaunchProgress_fills :
    (let w := grid 6 [] neighbours
     let s := walked w (some coverage) 0 (block 0)
     5 < w.pidx ∧ w.filled.contains 5 = false ∧ auditPoint coverage 0 5 0 = false ∧ w.planes[(w.point 5).z]? = some 1 ∧
       keptUnder coverage w 1 (w.point 5) = false ∧
       rungStops s 0 = false ∧ rungStops { s with rungs := [{ rungOf 4 1 with begun := true }] } 0 = true ∧
       (let t := walkedTo s [0x10]
        let bad : State := { s with engWalks := [⟨1, 0x10000, 0, 0x5000, some .page, 0x1000⟩] }
        (readyAxes coverage w 5).any (fun axes =>
          let pages := fillPages coverage axes (w.point 5)
          let reads := (neighbourRows coverage axes).flatMap fun x => wordsIn x.1 x.2
          let got := reads.flatMap fun q => spread q.1 0 false q.2
          (pages.find? fun x => engTr s (s.part 1) x.1 x.2 == .miss).isSome && (pages.all fun x => engTr t (t.part 1) x.1 x.2 == .ok (.phys x.1.toNat)) &&
            (pages.all fun x => engTr bad (bad.part 1) x.1 x.2 == .fault cPAGE) && (reads[0]?.any fun x => (readBytes t (t.part 1) x.1 x.2).isSome) &&
            (reconPoint (readSeen got) coverage axes (w.point 5)).any fun rows => (rowWrites rows).length == 2 &&
              (rowWrites rows).all fun x => (writeBytes t (t.part 1) x.1 x.2.2.1 x.2.2.2 x.2.1).isSome) = true) ∧
       readyAxes coverage (grid 6 [] []) 5 = none) ∧
    ((0x0F00_8000 : Word).getLsbD 15 = true ∧ coverage.fixed = false ∧ auditsDone (audited none) 4096 = false ∧
      auditsDone (audited (some 0x3FE0000000000000)) 4096 = true ∧ errorsIn (audited (some 0x3FE0000000000000)) 0 4096 ≠ [] ∧
      auditsDone { grid 16 [] [] with idx := 4096 } 4096 = true ∧ errorsIn { grid 16 [] [] with idx := 4096 } 0 4096 = [] ∧
      covFmin 0x00FF8000 ≤ covFmax 0x00FF8000) ∧
    (let l := { launch with
       statAddr := 0x8000_0000_0001_0000
       stages := [{ stage with finished := true }] }
     let u : State := { scheduling [] [] [] mapped with launches := [(0, l)] }
     let s := walkedTo u [0x10]
     (retirePages u 0 l).map (·.2) = [0x10000] ∧ engTr u (u.part 1) 0x10000 .load = .miss ∧ (retirePages s 0 l).map (·.2) = [0x10000] ∧
       engTr s (s.part 1) 0x10000 .load ≠ .miss ∧ retirePages { u with requests := [request] } 0 l = [] ∧
       mayRetire { u with requests := [request] } 0 l = false ∧
     s.launch? 0 = some l ∧ mayRetire s 0 l = true ∧ s.reloading = false ∧ lastUpdate l = none ∧ l.statAddr ≠ 0 ∧ l.sig = false ∧
       rungStops s 0 = false ∧ packetPa s mapped l.statAddr .store = some 0x10000 ∧ remotePkg 0x10000 = none ∧ inSlotFrame s 0x10000 = false ∧
       s.mem.wf = true) := by
  decide +kernel

/-- A block whose record of its last boundary is its state at placement, and which has claimed a point since. -/
def recorded (f : Block → Block) : Block :=
  let b := { block 0 with claimed := [7] }
  f { b with replay := some (b.record b.agents 0) }

/-- Failures: a block that failed, one whose stream halted, a fourth failure, one with no reason; cores, clusters and errors. -/
theorem witness_Failures :
    (let bad := recorded fun b => { b with
       status := .failed
       faultCore := some 0 }
     let s := scheduling [(0, bad)] [(0, busy 0)] [] part1
     bad.status = .failed ∧ (s.part bad.part).active = true ∧ bad.failures < 3 ∧ bad.replay.isSome = true ∧
       chooseCore s (s.part bad.part) (replayCores s bad) = some 8 ∧ (8 : Nat) ≠ bad.core ∧ s.runner 0 = none ∧ comingTo s 0 = none ∧
       natSetFrom 0 (s.blocks.map (·.1)) = true ∧ natSetFrom 0 (s.launches.map (·.1)) = true ∧ s.rungs = []) ∧
    (let b := block 768
     let s := scheduling [(0, { b with migrating := some 0 })] [(768, busy 0)] [] part1
     s.runner 0 = none ∧ (comingTo s 0).isSome = true ∧ ({ part1 with active := false } : Partition).active = false) ∧
    (recorded fun b => { b with agents := b.agents.set 1 { Agent.reset with run := .halted } }).agents[1].run = .halted ∧
    3 ≤ (recorded fun b => { b with failures := 3 }).failures ∧
    (let b := recorded id
     let s := scheduling [(0, b)] [(0, busy 0)] [] part1
     needsReplay b = false ∧ (s.runner 0).isSome = true ∧ ownersOf s 72 = [1] ∧ ownersOf s 71 = [] ∧ natSetFrom 0 s.mem.poison = true) ∧
    (∀ c ∈ [0, 95, 640, 735, 768, 831, 896, 959], coreExists c = true) ∧
    (let s := scheduling [] [(0, { Core.reset with out := true })] [] part1
     (s.core 0).out = true ∧ (s.core 1).out = false ∧ getKey s.parts 1 = some part1 ∧ part1.cores.contains 0 = true) ∧
    natSetFrom 0 [1, 5] = true ∧ (0x8_0000_0000_0000 - 1 : Nat) < 0x8_0000_0000_0000 := by
  decide +kernel

/-- Partition 1 with a host window of 4 GiB, and the slots given. -/
def hosted (slots : List (Nat × Slot)) : Partition := { mapped with
  windows := mapped.windows.set 0 ⟨0x1_0000_0000_0000, 0x1_0001_0000_0000, false⟩
  slots := slots }

/-- A machine whose VF 1 has queue 0 enabled in the host window, with a packet there that has been matched or not. -/
def queued (p : Nat) (slots : List (Nat × Slot)) (m : Store) (matched : Bool) (since : Option Word) : State := { scheduling [] [] [] (hosted slots) with
  launches := []
  queues := [(4, { Queue.reset with
    base := 0x1_0000_0000_0000
    en := true
    k := 0
    since := since
    matched := matched })]
  mem := m.writeLE 0x1_0000_0000_0000 256 p }

/-- A packet of a type on slot 1, with its other fields. -/
def packet (type rest : Nat) : Nat := type * 2 ^ 32 + 2 ^ 64 + rest

/-- HostAndMadder: the host's lines, SEQ read as N and not, and the ticks of its rereads. -/
theorem witness_HostAndMadder_host :
    (let s := queued 0 [] Store.empty false none
     let x := s.queue (queueKey 1 0)
     let here := slotPlace s 1 x
     (s.dev.ready = true ∧ (0x57_FFFF_FFFF / 64 * 64 : Nat) < 0x58_0000_0000 ∧ s.downClusters = [] ∧ s.mem.wf = true) ∧
     (s.reloading = false ∧ x.en = true ∧ (x.k - x.n).toNat < 2 ^ 31 ∧ x.matched = false ∧ x.since = none) ∧
     here = some 0x1_0000_0000_0000 ∧ s.mem.readLE 0x1_0000_0000_0000 4 = x.n.toNat ∧
     (queued 1 [] Store.empty false none).mem.readLE 0x1_0000_0000_0000 4 ≠ x.n.toNat ∧ kicked x.k 5 = 5 ∧ 1 ≤ ((5 : BitVec 32) - x.k).toNat ∧
     2 ^ 31 ≤ (x.k - 1#32).toNat) ∧
    (let s : State := { queued 1 [] Store.empty false (some 1000) with time := Vector.replicate 8 1001000 }
     let x := s.queue (queueKey 1 0)
     x.since = some 1000 ∧ (s.now 0 - 1000).toNat = 1000000 ∧ s.rungs = [] ∧ (getKey s.queues (queueKey 1 0)).isSome = true) ∧
    (Queue.reset.en = false ∧ (State.reset.dev.ready = false) ∧ getKey State.reset.latched 4 = none) := by
  decide +kernel

/-- The packet of a state has been matched, as a Bool. -/
def packetAt (s : State) (p : Nat) : Bool :=
  let x := s.queue (queueKey 1 0)
  s.dev.ready && !s.reloading && x.en && x.matched && decide (readPacket s 1 x 256 = some p) && (!Pkt.barrier p || queueClear s 1 0) &&
    nextQueue s == some (queueKey 1 0)

theorem packetAt_of {s : State} {p : Nat} (h : packetAt s p = true) : PacketAt s 1 0 p := by
  simp only [packetAt, Bool.and_eq_true, decide_eq_true_eq, Bool.or_eq_true, Bool.not_eq_true', beq_iff_eq] at h
  obtain ⟨⟨⟨⟨⟨⟨h1, h2⟩, h3⟩, h4⟩, h5⟩, h6⟩, h7⟩ := h
  exact ⟨⟨h1, h2, h3⟩, h4, h5, fun hb => by simpa [hb] using h6, h7⟩

/-- HostAndMadder: a NOP with BARRIER, a packet of type 4, a LOAD and an EVICT of each outcome but an image that is read. -/
theorem witness_HostAndMadder_packets :
    (let s := queued (4 * 2 ^ 40) [] Store.empty true none
     PacketAt s 1 0 (4 * 2 ^ 40) ∧ Pkt.type (4 * 2 ^ 40) = 0 ∧ Pkt.nopOk (4 * 2 ^ 40) = true ∧ Pkt.nopOk (2 ^ 64) = false ∧ Pkt.type (4 * 2 ^ 32) = 4) ∧
    (let p := packet 1 (2 ^ 48 * 2 ^ 448)
     let s := queued p [] Store.empty true none
     PacketAt s 1 0 p ∧ Pkt.type p = 1 ∧ Pkt.loadOk p = true ∧ slotOf s 1 p = none ∧
       loadImage s (s.part (partOf s 1)) (quad p 0x38) = none ∧ Pkt.loadOk (packet 1 (1023 * 2 ^ 64)) = false) ∧
    (let z : Slot := ⟨.resident, [], [], 4096, 0, false, 0, [], [], [], 0, []⟩
     let p := packet 3 0
     let s := queued p [(1, z)] Store.empty true none
     PacketAt s 1 0 p ∧ Pkt.type p = 3 ∧ Pkt.evictOk p = true ∧ slotOf s 1 p = some z ∧ z.st ≠ .loading ∧
       getKey (s.part 1).slots 1 = some z ∧ s.reloading = false ∧ s.launches = []) := by
  refine ⟨⟨packetAt_of ?_, ?_⟩, ⟨packetAt_of ?_, ?_⟩, ⟨packetAt_of ?_, ?_⟩⟩ <;> decide +kernel

/-! ### The witness of a LOAD whose image is read -/

/-- The CRC of zeros, with its value computed at each byte. -/
def crcZeros : Nat → Nat → Nat
  | 0, c => c
  | n + 1, c => match (crcByte (BitVec.ofNat 32 c) 0).toNat with
    | 0 => crcZeros n 0
    | k + 1 => crcZeros n (k + 1)

theorem crcFrom_zeros (m : Memory) : ∀ (n off : Nat) (c : BitVec 32), (∀ j, off ≤ j → m.read j = 0) →
    (crcFrom m n off c).toNat = crcZeros n c.toNat
  | 0, _, _, _ => rfl
  | n + 1, off, c, h => by
    rw [crcFrom, h off (Nat.le_refl _), crcFrom_zeros m n (off + 1) _ (fun j hj => h j (by omega)), crcZeros, BitVec.ofNat_toNat,
      BitVec.setWidth_eq]
    split <;> simp_all

/-- Zeros after the bytes of an image add nothing to it. -/
theorem readImage_zeros (s : State) (p : Partition) (addr : Word) (n : Nat) : ∀ (k i : Nat),
    (∀ j, i + k ≤ j → j < i + k + n → packetByte s p (addr + BitVec.ofNat 64 j) = some unlisted) →
    readImage s p addr (k + n) i = readImage s p addr k i
  | k + 1, i, h => by
    have ih := readImage_zeros s p addr n k (i + 1) (fun j h1 h2 => h j (by omega) (by omega))
    rw [show k + 1 + n = (k + n) + 1 by omega, readImage, ih, readImage]
  | 0, i, h => by
    suffices hz : ∀ (n i : Nat), (∀ j, i ≤ j → j < i + n → packetByte s p (addr + BitVec.ofNat 64 j) = some unlisted) →
        readImage s p addr n i = some [] by
      rw [Nat.zero_add, hz n i (by simpa using h)]
      rfl
    intro n
    induction n with
    | zero => exact fun _ _ => rfl
    | succ n ih =>
      intro i h
      simp [readImage, h i (by omega) (by omega), ih (i + 1) fun j h1 h2 => h j (by omega) (by omega)]

/-- The header of an image of one page, and the image in the host window. -/
def imageHeader : Nat := 4096 + 0x5CA2665D * 2 ^ 192
def loadingPacket : Nat := packet 1 (0x1_0000_1000_0000 * 2 ^ 448)
def imagePlaced : State := queued loadingPacket [] (Store.empty.writeLE 0x1_0000_1000_0000 64 imageHeader) true none

theorem imagePlaced_page : readImage imagePlaced (imagePlaced.part 1) 0x1_0000_1000_0000#64 4096 0 =
    some (Store.empty.writeLE 0 64 imageHeader).cells := by
  have h : ∀ a < 63, ∀ b < 64, packetByte imagePlaced (imagePlaced.part 1) (0x1_0000_1000_0000#64 + BitVec.ofNat 64 (64 + 64 * a + b)) =
      some unlisted := by decide +kernel
  rw [show 4096 = 64 + 4032 from rfl, readImage_zeros _ _ _ 4032 64 0 fun j h1 h2 => by
    have := h ((j - 64) / 64) (by omega) ((j - 64) % 64) (by omega)
    rwa [show 64 + 64 * ((j - 64) / 64) + (j - 64) % 64 = j by omega] at this]
  decide +kernel

theorem image_crc : crc32c (Store.empty.writeLE 0 64 imageHeader).cells 0x40 4032 = 0x5CA2665D#32 := by
  have h := crcFrom_zeros (Store.empty.writeLE 0 64 imageHeader).cells 4032 0x40 0xFFFFFFFF#32 fun j hj => by
    have := Store.byte_writeLE 64 Store.empty 0 imageHeader j rfl
    rw [if_neg (by omega)] at this
    exact this
  have hc : crcZeros 4032 0xFFFFFFFF = 0xA35D99A2 := by decide +kernel
  rw [crc32c, ← BitVec.toNat_inj, BitVec.toNat_not, h]
  simp [hc]

/-- HostAndMadder: a LOAD whose image is read. -/
theorem witness_HostAndMadder_load : PacketAt imagePlaced 1 0 loadingPacket ∧ Pkt.loadOk loadingPacket = true ∧
    slotOf imagePlaced 1 loadingPacket = none ∧ (loadImage imagePlaced (imagePlaced.part (partOf imagePlaced 1)) (quad loadingPacket 0x38)).isSome = true := by
  refine ⟨packetAt_of ?_, ?_, ?_, ?_⟩
  · decide +kernel
  · decide +kernel
  · decide +kernel
  · rw [show partOf imagePlaced 1 = 1 by decide +kernel, show quad loadingPacket 0x38 = 0x1_0000_1000_0000#64 by decide +kernel, loadImage,
      show imageReach imagePlaced (imagePlaced.part 1) 0x1_0000_1000_0000#64 = 4096 by decide +kernel, imagePlaced_page]
    simp only [show imageNum (Store.empty.writeLE 0 64 imageHeader).cells 0 64 = imageHeader by decide +kernel,
      show imageHeaderOk imageHeader = true by decide +kernel, show fld imageHeader 0 8 = 4096 by decide +kernel,
      Bool.true_and, BEq.rfl, show (4096 - 0x40 : Nat) = 4032 from rfl, image_crc,
      show BitVec.ofNat 32 (fld imageHeader 0x18 4) = 0x5CA2665D#32 by decide +kernel, if_true, Option.isSome_some]

/-- A slot whose image holds, at 0x1000, a block image with a program for stream 0 of one page. -/
def resident : Slot := ⟨.resident, [], [], 0x3000, 0, false, 0, (Store.empty.writeLE 0x1000 256
  (0x31494B42 + 2 ^ 32 + 0x40000 * 2 ^ 64 + 0x1000 * 2 ^ 128 + 0x1000 * 2 ^ 192 + 0x40000 * 2 ^ 256)).cells, [], [], 0, []⟩

/-- HostAndMadder: a LAUNCH of one stage that begins, and of each check that fails. -/
theorem witness_HostAndMadder_launch :
    (let p := packet 2 (2 ^ 48 + 0x10000 * 2 ^ 384)
     let u := queued p [(1, resident)] (pageTables.writeLE 0x10000 64 (0x1000 + 2 ^ 96)) true none
     let s := walkedTo u [0x10]
     let P := s.part (partOf s 1)
     PacketAt s 1 0 p ∧ packetNeeds s 1 0 p = [0x10000] ∧ engTr s P 0x10000 .load ≠ .miss ∧ packetNeeds u 1 0 p = [0x10000] ∧
       engTr u (u.part 1) 0x10000 .load = .miss ∧ Pkt.type p = 2 ∧ launchHeld s 1 0 = false ∧ Pkt.launchOk p = true ∧ slotOf s 1 p = some resident ∧
       fld p 7 1 = resident.nbuf ∧ launchBucket resident p = some none ∧
       (launchStages s P resident p none).any (fun l => (copySections P resident.image l s).2) = true) ∧
    (let p := packet 2 (2 ^ 48 + 0x20000 * 2 ^ 384)
     let s := queued p [(1, { resident with nbuf := 1 })] pageTables true none
     let poor : Slot := { resident with buckets := true }
     let named (n b : Nat) : Nat := packet 2 (2 ^ 48 + n * 2 ^ 56 + 0x10000 * 2 ^ 384 + b * 2 ^ 1024)
     let mapped (s : State) (b : Word) : Bool := b.getLsbD 63 == false && inHostWindow s (s.part 1) b.toNat ||
       b.getLsbD 63 && match (s.engWalks.find? (·.serves (s.part 1) (b &&& ~~~(1#64 <<< 63)))).bind (·.found) with
         | some (.leaf e) => paAllowed s (s.part 1) (e.frame * 4096)
         | _ => false
     (Pkt.launchOk (named 1 0x8000_0000_0001_0000) = true ∧ fld (named 1 0x8000_0000_0001_0000) 7 1 = 1 ∧
       mapped (walkedTo s [0x10]) 0x8000_0000_0001_0000 = true ∧ mapped s 0x1_0000_0000_0000 = true ∧ mapped s 0x2_0000_0000_0000 = false) ∧
     launchBucket poor p = none ∧
     Pkt.launchOk p = true ∧ fld p 7 1 ≠ 1 ∧ launchStages s (s.part 1) resident p none = none ∧ Pkt.launchOk (packet 2 0) = false ∧
       launchBucket resident (p + 16 * 2 ^ 96) = none ∧ packetPa s (s.part 1) 0 .load = none) := by
  refine ⟨⟨packetAt_of ?_, ?_⟩, ?_⟩ <;> decide +kernel

/-- HostAndMadder: a slot that loads, one that is evicted, and reloads. -/
theorem witness_HostAndMadder_slots :
    (let z : Slot := ⟨.loading, [Pkt.completion 1 1 0 0 0 0], [], 4096, 0, false, 0, [], [], [], 0, []⟩
     let s := queued 0 [(1, z), (2, { z with st := .evicting })] Store.empty true none
     getKey (s.part 1).slots 1 = some z ∧ (getKey (s.part 1).slots 2).any (fun y => y.st == .evicting) = true ∧
       (∀ l ∈ s.launches, ¬ (l.2.part = 1 ∧ l.2.slot = 2)) ∧ z.owners.all (fun c => decide (c.statAddr = 0) && !c.sig) = true) ∧
    (let z : Slot := ⟨.loading, [], [], 4096, 0, false, 0, [], [(0x7000, 0x2_0000_7000)], [], 0, []⟩
     let p := packet 3 0
     let s := queued p [(1, z)] Store.empty true none
     inSlotFrame s 0x7FC0 = true ∧ inSlotFrame s 0x2_0000_7000 = true ∧ inSlotFrame s 0x8000 = false ∧ packetAt s p = true ∧ slotOf s 1 p = some z ∧
       (∀ j ∈ [0x7000, 0x2_0000_7000], j ∈ slotFrames s) ∧ s.dev.power = true ∧ 2 ≤ s.dev.phase.toNat ∧ State.reset.dev.phase.toNat < 2 ∧
       nextQueue s = some 4 ∧ natSetFrom 0 (s.queues.map (·.1)) = true ∧ s.served = none ∧ nextQueue { s with served := some 4 } = some 4) ∧
    (let x : Queue := { Queue.reset with
       base := 0x10000
       loc := true
       en := true
       k := 0 }
     let s : State := { scheduling [] [] [] (hosted []) with queues := [(4, x)] }
     s.queue (queueKey 1 0) = x ∧ slotPages x 4 = [0x10000] ∧ engTr s (s.part (partOf s 1)) 0x10000 .load = .miss ∧
       engTr (walkedTo s [0x10]) ((walkedTo s [0x10]).part (partOf s 1)) 0x10000 .load ≠ .miss ∧
       slotPlace (walkedTo s [0x10]) 1 x = some 0x10000) ∧
    (let c : Completion := { Pkt.completion 1 1 0 0 0 0 with statAddr := 0x8000_0000_0001_0000 }
     let z : Slot := ⟨.loading, [c], [], 4096, 0, false, 0, [], [], [], 0, []⟩
     let s := queued 0 [(1, z), (2, { z with st := .evicting })] Store.empty true none
     (signalPages s z.owners).map (·.2) = [0x10000] ∧ engTr s (s.part 1) 0x10000 .load = .miss ∧
       engTr (walkedTo s [0x10]) ((walkedTo s [0x10]).part 1) 0x10000 .load ≠ .miss ∧
       signalPages { s with reloading := true } z.owners = []) ∧
    (let s : State := { State.reset with reloading := true }
     s.reloading = true ∧ s.completions = [] ∧ s.queues = [] ∧ signalPages { s with reloading := false } s.completions = []) := by
  decide +kernel

/-- Partitions 1, 2 and 3; partition 2 is a child of partition 1 and partition 3 a child of 2. The controller has
walked to the command. -/
def commanding (x : Nat) : State := { walkedTo (scheduling [] [] [] mapped) [0x10] with
  launches := []
  pcmds := [⟨1, 0x10000⟩]
  hypLock := true
  parts := [(1, mapped), (2, { mapped with
    id := 2
    clusters := [3]
    ranges := []
    isa := 3
    links := 1 }), (3, { mapped with
    id := 3
    parent := 2
    clusters := [4]
    ranges := []
    isa := 1
    links := 1 })]
  mem := pageTables.writeLE 0x10000 0xE8 x }

/-- A command's OP, TARGET and NONCE, with its other fields. -/
def command (op target rest : Nat) : Nat := op + target * 2 ^ 8 + 2 ^ 64 + rest

/-- A CREATE of partition 4 with cluster 1. -/
def createCommand : Nat := command 1 4 (2 * 2 ^ 160)

/-- What the checks of R339 ask of a command beside its signature. -/
def checked (s : State) (x : Nat) : Bool := s.hypLock && s.nonce.isNone && fieldsOk s x && below s 1 x

/-- A walk that has found no leaf. -/
def pageWalk (x : Partition × Word) : EngWalk := ⟨x.1.id, x.2, 0, 0, some .page, walkRoot x.1⟩

theorem pageWalk_serves (x : Partition × Word) : (pageWalk x).serves x.1 x.2 = true := by simp [pageWalk, EngWalk.serves]

/-- Where every walk has ended, at no leaf or at the page at 0x10000, and some walk serves an address, it is walked to. -/
theorem engTr_walked {s : State} {p : Partition} {va : Word} (use : Use) (h : ∃ k ∈ s.engWalks, k.serves p va = true)
    (hall : ∀ k ∈ s.engWalks, k.found = some .page ∨ k.found = some (.leaf ⟨1, 0x10, 1, 0x10, 0xD⟩)) : engTr s p va use ≠ .miss := by
  obtain ⟨k, hk⟩ := Option.isSome_iff_exists.mp (List.find?_isSome.mpr h)
  unfold engTr
  split
  · simp
  split
  · simp
  rcases hall k (List.mem_of_find?_eq_some hk) with hf | hf <;> simp only [hk, hf, Option.bind_some]
  · simp
  · have hr : remotePkg (0x10 * 4096 + va.toNat % (1 * 4096)) = none := by
      have := Nat.mod_lt va.toNat (show 0 < 1 * 4096 by decide)
      rw [remotePkg, if_neg (by omega)]
    rw [checkLeaf]
    simp only [routeDown, hr, exported]
    split <;> simp

/-- Whatever pages a unit needs, there is a state in which it has walked to them. -/
theorem walkedAll_pages (s : State) (l : List (Partition × Word)) : WalkedAll { s with engWalks := l.map pageWalk } l := fun x hx =>
  engTr_walked _ ⟨pageWalk x, List.mem_map_of_mem hx, pageWalk_serves _⟩ fun k hk => by
    obtain ⟨y, -, rfl⟩ := List.mem_map.mp hk
    exact .inl rfl

/-- The pages that a command needs beside its own. -/
def given (s : State) (x : Nat) : List (Partition × Word) :=
  if Cmd.op x = 1 then createPages s x
  else if Cmd.op x = 5 then settablePages s x
  else if Cmd.op x = 7 then capPages { s.part (Cmd.target x) with isa := Cmd.isa x }
  else []

theorem given_engWalks (s : State) (l : List EngWalk) (x : Nat) : given { s with engWalks := l } x = given s x := rfl

/-- The controller has made the walks that the command needs. -/
def controlled (x : Nat) : State :=
  let s := commanding x
  { s with engWalks := s.engWalks ++ (given s x).map pageWalk }

theorem controlled_engWalks (x : Nat) : (controlled x).engWalks = (commanding x).engWalks ++ (given (commanding x) x).map pageWalk := rfl

theorem given_controlled (x : Nat) : given (controlled x) x = given (commanding x) x := given_engWalks (commanding x) _ x

/-- Where signatures verify, a command passes that passes the other checks. -/
theorem passes_of (h : ∀ k m g, Config.sigVerifies k m g = true) {x op : Nat}
    (hb : (readCommand (controlled x) ⟨1, 0x10000⟩ == some x && Cmd.op x == op && checked (controlled x) x &&
      !walksOpen (controlled x) (Cmd.target x) && !controllerBusy (controlled x)) = true) :
    Passes (controlled x) ⟨1, 0x10000⟩ [] x op := by
  simp only [checked, Bool.and_eq_true, Option.isNone_iff_eq_none, beq_iff_eq, Bool.not_eq_true'] at hb
  obtain ⟨⟨⟨⟨hr, ho⟩, hc⟩, hw⟩, hu⟩ := hb
  have hk : checkCommand (controlled x) ⟨1, 0x10000⟩ x = none := by simp [checkCommand, h, hc]
  have hall : ∀ k ∈ (controlled x).engWalks, k.found = some .page ∨ k.found = some (.leaf ⟨1, 0x10, 1, 0x10, 0xD⟩) := fun k hk => by
    rcases List.mem_append.mp (controlled_engWalks x ▸ hk) with hk | hk
    · obtain rfl := List.mem_singleton.mp hk
      exact .inr rfl
    · obtain ⟨y, -, rfl⟩ := List.mem_map.mp hk
      exact .inl rfl
  refine ⟨rfl, hu, hr, ho, hk, fun _ => hw, fun y hy => engTr_walked _ ?_ hall⟩
  have hn : commandNeeds (controlled x) ⟨1, 0x10000⟩ x op = [((controlled x).part 1, 0x10000)] ++ given (controlled x) x := by
    rw [commandNeeds, hk, ← ho, show pagesOf 0x10000 0xF0 = [0x10000] by decide]
    rfl
  rw [hn, given_controlled] at hy
  rw [controlled_engWalks]
  rcases List.mem_append.mp hy with hy | hy
  · obtain rfl := List.mem_singleton.mp hy
    have hs : (⟨1, 0x10000, 0, 0x5000, some (.leaf ⟨1, 0x10, 1, 0x10, 0xD⟩), 0x1000⟩ : EngWalk).serves mapped 0x10000 = true := by decide
    exact ⟨_, List.mem_append_left _ (List.mem_singleton.mpr rfl), hs⟩
  · exact ⟨pageWalk y, List.mem_append_right _ (List.mem_map_of_mem hy), pageWalk_serves _⟩

/-- One command of each code but CREATE, which passes. -/
def commands : List (Nat × Nat) := [(command 2 3 0, 2), (command 3 2 (2 ^ 464), 3), (command 4 2 (2 ^ 512), 4), (command 5 2 (0x3000 * 2 ^ 320), 5),
  (command 6 2 (3 * 2 ^ 152), 6), (command 7 2 (2 ^ 256), 7)]

/-- PartitionCommands: where signatures verify, a CREATE and each other command that pass their checks. -/
theorem witness_PartitionCommands_passes (h : ∀ k m g, Config.sigVerifies k m g = true) :
    (Passes (controlled createCommand) ⟨1, 0x10000⟩ [] createCommand 1 ∧ createFree (controlled createCommand) createCommand = true ∧
      (withTable (controlled createCommand) (newPartition (controlled createCommand) createCommand) 0 0).isSome = true) ∧
    ∀ p ∈ commands, Passes (controlled p.1) ⟨1, 0x10000⟩ [] p.1 p.2 := by
  refine ⟨⟨passes_of h (by decide +kernel), by decide +kernel, rfl⟩, fun p hp => passes_of h ?_⟩
  revert p
  decide +kernel

/-- PartitionCommands: each other command, with its fields in order, and the conditions of its effect and of its refusals. -/
theorem witness_PartitionCommands_others :
    (let s := commanding 0
     (3 ≠ 1 ∧ (getKey s.parts 3).isSome = true ∧ childrenOf s 3 = [] ∧ ∀ f ∈ s.vfmap, f.2 ≠ 3) ∧ childrenOf s 2 ≠ [] ∧
     (cmdTarget s (command 3 2 (2 ^ 464))).any (quotaFits s (command 3 2 (2 ^ 464))) = true ∧
     (cmdTarget s (command 3 2 0)).any (fun q => !quotaFits s (command 3 2 0) q) = true ∧
     (Cmd.vfs (command 4 2 (2 ^ 512)) = [1] ∧ ∀ q < 4, (s.queue (4 * 1 + q)).en = false) ∧ cmdTarget s (command 4 5 0) = none ∧
     (cmdTarget s (command 5 2 (0x3000 * 2 ^ 320))).any (fun q => (withTable s q 0x3000 0).isSome && (withTable s q 0x3000 0x40).isNone) = true ∧
     walksOpen s 2 = false ∧ s.rungs = [] ∧ natSetFrom 0 (s.blocks.map (·.1)) = true ∧ Cmd.rung (command 6 2 (3 * 2 ^ 152)) = 3 ∧
     (let within (isa : Nat) : Bool := let x := command 7 2 (isa * 2 ^ 256)
        decide (Cmd.isa x &&& ~~~(s.part 1).isa = 0) && (childrenOf s 2).all fun k => decide (k.2.isa &&& ~~~Cmd.isa x = 0)
      within 1 = true ∧ within 2 = false) ∧
     createFree s (command 1 2 0) = false ∧
     engTr s (s.part 1) (0x10000 + 0xE8) .store = .ok (.phys 0x100E8) ∧ inSlotFrame s 0x100E8 = false ∧ (0x100E8 : Nat) % 4 = 0 ∧ remotePkg 0x100E8 = none ∧ s.mem.wf = true) ∧
    (let z : Quota := ⟨3, 5, 1, 7, some 10000, (1, 0x10000)⟩
     let q := { mapped with quota := some z }
     let s : State := { commanding 0 with
       parts := [(1, q)]
       time := Vector.replicate 8 10000 }
     quotaDue s = some (1, q, z) ∧ (1, q) ∈ s.parts ∧ reached (s.now 0) 10000 = true ∧ controllerBusy s = true ∧ controllerBusy (commanding 0) = false ∧
       quotaDue (commanding 0) = none ∧ ({ q with quota := some { z with due := none } } : Partition).quota.map (·.due) = some none ∧
       controllerBusy { commanding 0 with rungs := [{ rungOf 4 2 with report := some ⟨1, 0x10000⟩ }] } = true) ∧
    (let b : Block := { block 0 with
       part := 2
       agents := (block 0).agents.set 0 { agent [] [] false with walk := some (walking 2 0x1000 none none) } }
     let s : State := { commanding (command 5 2 (0x3000 * 2 ^ 320)) with blocks := [(0, b)] }
     walksOpen s 2 = true ∧ readCommand s ⟨1, 0x10000⟩ = some (command 5 2 (0x3000 * 2 ^ 320)) ∧ s.pcmds = [⟨1, 0x10000⟩]) ∧
    ({ commanding 0 with capDue := [2] } : State).capDue = [2] ∧
    ((getKey (commanding 0).parts 1).isSome = true ∧ ({ Window.reset with lock := true } : Window).lock = true ∧ State.reset.hypLock = false ∧
      State.reset.p1used = false ∧ (commanding 0).dev.power = true ∧ 2 ≤ (commanding 0).dev.phase.toNat ∧ getKey State.reset.parts 1 = none ∧ State.reset.fabLock = false) := by
  decide +kernel

/-- A rung under way over partition 1, or over what its fields name, since a tick. -/
def rung (n : Nat) (since : Word) : Rung := { rungOf n 1 with
  fn := 1
  launch := some 0
  since := since
  begun := true
  by_ := [1] }

/-- A machine whose partition has a block, a launch of VF 1's queue 0, and a rung. -/
def resetting (n : Nat) : State := { scheduling [(0, block 0)] [(0, busy 0)] [] part1 with
  rungs := [rung n 1000]
  time := Vector.replicate 8 64001000 }

/-- ResetLadder: requests that are permitted and not, rungs that have drained and not, and each that is late. -/
theorem witness_ResetLadder :
    (let s : State := { resetting 1 with rungs := [] }
     s.dev.ready = true ∧ (getKey s.parts 1).isSome = true ∧ s.rungs = [] ∧ natSetFrom 0 (s.blocks.map (·.1)) = true ∧
       (s.launches.filter fun y => y.2.part == partOf s 1 && y.2.q == 0 && y.2.seq.toNat == 0 % 2 ^ 32 && (1 == 0 || y.2.fn == 1)) = [(0, launch)] ∧
       s.dev.power = true ∧ (getKey s.parts 5).isSome = false) ∧
    (∀ n ∈ [1, 2, 3, 4], (resetting n).rungs = [rung n 1000] ∧ (rung n 1000).begun = true ∧ rungDrained (resetting n) (rung n 1000) = true ∧
      (rung n 1000).takes 0 launch = true ∧ 64000000 ≤ ((resetting n).now 0 - 1000).toNat ∧
      (((resetting n).launches.filter fun e => (rung n 1000).takes e.1 e.2) = [(0, launch)])) ∧
    ((rung 1 1000).takes 0 { launch with fn := 2 } = false) ∧
    (let b := { block 0 with chans := (Vector.replicate 5 Chan.reset).set 0 ⟨1, [Transfer.start 0 (.mem .d1)], none⟩ }
     rungDrained { resetting 1 with blocks := [(0, b)] } (rung 1 1000) = false) ∧
    (let w := { rung 4 1000 with begun := false }
     let s : State := { resetting 3 with rungs := [rung 3 1000, w] }
     s.rungs = [rung 3 1000, w] ∧ (rung 3 1000).begun = true ∧ w.begun = false ∧ w.n = 4 ∧ w.part = (rung 3 1000).part ∧ w ≠ rung 3 1000 ∧
       16000000 ≤ (s.now 0 - 1000).toNat) ∧
    (resetPages (resetting 5) = [] ∧ rungPages (resetting 4) (rung 4 1000) = [] ∧ (resetting 5).rungs[0]? = some (rung 5 1000) ∧
      (∀ b ∈ (resetting 5).blocks, ((resetting 5).launch? b.2.launch).isSome = true)) ∧
    (let s : State := { resetting 4 with launches := [(0, { launch with statAddr := 0x8000_0000_0001_0000 })] }
     (resetPages s).map (·.2) = [0x10000] ∧ (rungPages s (rung 4 1000)).map (·.2) = [0x10000] ∧ engTr s (s.part 1) 0x10000 .load = .miss ∧
       engTr (walkedTo s [0x10]) ((walkedTo s [0x10]).part 1) 0x10000 .load ≠ .miss) ∧
    (let d : Device := { Device.reset with stuck := true }
     d.power = true ∧ d.stuck = true ∧ Device.reset.phase.toNat < 2 ∧ Device.reset.stuck = false) ∧
    (let p := (commanding 0).part 2
     p.giver ≠ 2 ∧ p.sliced = false) := by
  decide +kernel

/-- PowerAndBringUp: the phases, the governor's windows, islands with and without an open region, and temperatures. -/
theorem witness_PowerAndBringUp :
    (∀ n ∈ [1, 2, 3, 4, 5, 6], let s : State := { State.reset with dev := { Device.reset with phase := n } }
      s.dev.power = true ∧ s.dev.ready = false ∧ s.dev.stuck = false ∧ s.dev.second = false ∧ s.mem.wf = true ∧ (s.now 0 - s.dev.began).toNat ≤ 5000000 ∧ (n ≠ 3 → phaseOk s n.toNat = true)) ∧
    (let s : State := { State.reset with time := Vector.replicate 8 100000001 }
     ∀ n ∈ [1, 2, 3, 4, 5, 6], phaseOk s n = false) ∧
    (let x : Island := { Island.reset with
       step := 3
       deferred := some (2, 50000)
       heat := true }
     x.deferred = some (2, 50000) ∧ ((2 : Fin 4) < x.step ∧ x.heat = true) ∧ ({ x with heat := false } : Island).heat = false) ∧
    ((8000 : Word) - 7000).toNat < 10000 ∧ (4 * 10 + 3 < 0x58_0000_0000) ∧
    (let s : State := { scheduling [(0, { block 0 with agents := (block 0).agents.set 0 { agent [] [] false with ctl := { Ctl.reset with
         tslip := { Tslip.reset with region := some (0x1000, 0x2000) } } } })] [] [] part1 with
       windowAt := some 90000
       stepAt := none
       totals := [3500000]
       time := Vector.replicate 8 100000
       islands := (Vector.replicate 64 Island.reset).set 1 { Island.reset with step := 3 } }
     s.dev.ready = true ∧ 10000 ≤ (s.now 0 - 90000).toNat ∧ 3400000 * s.totals.length < s.totals.sum ∧
       (s.islands[(1 : Fin 64)].step ≠ 0 ∧ s.islands[(1 : Fin 64)].deferred = none ∧ regionOpen s 1 = false) ∧ regionOpen s 0 = true ∧
       (∀ i ∈ [0, 35, 36, 43, 44, 51, 52, 59, 60, 63], islandCap i < 70001) ∧ (s.now 0 - 50000).toNat = 50000 ∧ s.rungs = [] ∧
       (s.launches = [(0, launch)] ∧ s.islands[(1 : Fin 64)].heatAt = none) ∧
       (∃ x : Island, x.step = 1 ∧ x.deferred = some (2, 50000) ∧ x.step < 2) ∧
       s.receivers[(7 : Fin 8)] = 2 ∧ underCap { s with totals := [3000000] } = true ∧ natSetFrom 0 (s.blocks.map (·.1)) = true ∧
       (s.islands.set 0 { Island.reset with deferred := some (2, 50000) })[(0 : Fin 64)].deferred = some (2, 50000)) := by
  refine ⟨?_, ?_, ?_, ?_, ?_, ?_⟩
  case refine_6 => exact ⟨by decide +kernel, by decide +kernel, by decide +kernel, by decide +kernel, by decide +kernel, by decide +kernel, by decide +kernel,
    by decide +kernel, by decide +kernel, ⟨{ Island.reset with
      step := 1
      deferred := some (2, 50000) }, by decide⟩, by decide +kernel, by decide +kernel, by decide +kernel, by decide +kernel⟩
  all_goals decide +kernel

/-- A machine with links 0 and 1 up, which lead to package 2, and the replay buffer of link 0. -/
def linked (b : List Flit) : State := { scheduling [] [] [] part1 with
  launches := []
  fabid := 1
  froutes := [(2, 3), (3, 4)]
  links := ((Vector.replicate 16 Link.reset).set 0 { Link.reset with
    up := true
    buffer := b.map fun f => (f, 0xFFFF) }).set 1 { Link.reset with up := true } }

/-- A flit of a kind to a package, with SEQ 0. -/
def flit (kind dst : Nat) : Flit := ⟨dst, 2, kind, 0, 0, 4095, true, [1]⟩

/-- LinksAndTime: links that are up with a flit of each kind for each destination, full, retraining and lost. -/
theorem witness_LinksAndTime_links :
    (let s := linked []
     let l := s.links[(0 : Fin 16)]
     (l.up = true ∧ l.retraining = false ∧ l.rxSeq.toNat = 0 ∧ s.fabid.toNat = 1) ∧
     (∀ k ∈ [0, 1, 2, 3, 4, 5, 6, 7, 8, 15], (flit k 1).seq % 4096 = l.rxSeq.toNat ∧ (flit k 1).crcOk = true ∧ (flit k 1).dst = s.fabid.toNat) ∧
     routeLink s 0xFFFF 2 = some 0 ∧ routeLink s 0xFFFF 3 = none ∧ s.links[(0 : Fin 16)].buffer.length < 128 ∧
     pathClear s 0 2 0 = true ∧ s.outgoing = [] ∧ (getKey s.froutes 2).getD 0 ≠ 0 ∧ (getKey s.froutes 9).getD 0 = 0 ∧ s.dev.ready = true ∧
     (flit 1 2).dst ≠ s.fabid.toNat) ∧
    (let s := linked (List.replicate 128 (flit 1 2))
     routeLink s 0xFFFF 2 = some 0 ∧ ¬ s.links[(0 : Fin 16)].buffer.length < 128 ∧ pathClear s 0 2 0 = false) ∧
    (let f : Flit := { flit 1 2 with payload := List.replicate 244 7 }
     f.dst < 256 ∧ f.src < 256 ∧ f.kind < 16 ∧ f.vc < 4 ∧ f.seq < 4096 ∧ f.ack < 4096 ∧ f.payload.length = 244) ∧
    (let s := linked [flit 1 2]
     let l := s.links[(0 : Fin 16)]
     l.buffer = [(flit 1 2, 0xFFFF)] ∧ l.resends < 16 ∧ (flit 1 2).seq = (4095 + 1) % 4096) ∧
    (let l : Link := ⟨true, false, true, 0, 0, [(flit 1 2, 0xFFFF)], 16, 2, 0, 1, 0⟩
     let lost : Link := { l with
       up := false
       down := true
       retraining := false
       resends := 0
       fails := 0 }
     let s : State := { linked [] with links := (linked []).links.set 0 l }
     s.links[(0 : Fin 16)].retraining = true ∧ 2 ≤ l.fails ∧ 16 ≤ l.resends ∧ routeLink (s.setLink 0 { lost with buffer := [] }) 0xFFFF 2 = some 1 ∧
       pathClear (s.setLink 0 { lost with buffer := [] }) 1 2 0 = true ∧ (routeLink (s.setLink 0 { lost with buffer := [] }) 1 2) = none) := by
  decide +kernel

/-- A machine whose export table passes requests of package 2, with a slot frame at 0x1000 or elsewhere. -/
def exporting (framed : Bool) : State := { linked [] with
  exports := [(0, ⟨2, 1, 1, true, 0x1000, 0x2000⟩)]
  mem := Store.empty.setGranule 0x7FF true
  parts := [(1, { part1 with slots := [(0, { resident with frames := [(if framed then 0x1000 else 0x8000, 0x9000)] })] })] }

/-- LinksAndTime: requests that the export table passes, in a slot frame or not, and the poison an answer reports. -/
theorem witness_LinksAndTime_exports :
    (∀ framed : Bool, inSlotFrame (exporting framed) 0x1000 = framed) ∧ (exporting false).mem.wf = true ∧ (exporting false).dev.ready = true ∧
    (∀ g : Fin 8, ((2 : Nat).testBit g = true ↔ g.val < (0x1FF8 % 4 + 8 + 3) / 4 ∧ (3 : Nat).testBit g = true ∧
      (exporting false).mem.granule (0x1FF8 / 4 + g) = true)) ∧
    (∀ r ∈ [(⟨2, 1, 0x1FF8, 8, 3, none, 0, none⟩ : RemoteReq), ⟨2, 1, 0x1000, 1, 1, some [7], 1, none⟩, ⟨2, 1, 0x1000, 8, 3, none, 0, some (.cas, 1, 0)⟩],
      r.off / 2 ^ 32 ∉ (exporting false).downClusters ∧ r.off % 8 = 0 ∧ (∃ e ∈ (exporting false).exports, e.2.srcPkg = r.srcPkg ∧ e.2.srcPart = r.srcPart ∧
        e.2.base.toNat ≤ r.off ∧ r.off + r.len ≤ e.2.limit.toNat ∧ (e.2.w = true ∨ r.write = none ∧ r.rmw = none) ∧
        ((getKey (exporting false).parts e.2.dstPart).any fun p => p.ranges.any fun y => decide (y.1 ≤ r.off ∧ r.off + r.len ≤ y.2)) = true)) := by
  decide +kernel

/-- LinksAndTime: a partition that waits for a link, and the count joined and slewed. -/
theorem witness_LinksAndTime_time :
    (let s : State := { linked [] with
       stalled := [(1, 3, 0)]
       time := Vector.replicate 8 10000000 }
     s.stalled = [(1, 3, 0)] ∧ routeLink s (s.part 1).links 3 = none ∧ 10000000 ≤ (s.now 0 - 0).toNat ∧ s.rungs = [] ∧
       natSetFrom 0 (s.blocks.map (·.1)) = true ∧ (routeLink s (s.part 1).links 2).isSome = true) ∧
    (let s : State := { linked [] with
       joined := true
       lastSync := 0
       lastSlew := 0
       time := Vector.replicate 8 1000000 }
     s.joined = true ∧ 1024 ≤ (s.now 0 - s.lastSlew).toNat ∧ 1000000 ≤ (s.now 0 - s.lastSync).toNat ∧
       1024 ≤ (s.now 0 - s.lastSent).toNat ∧ s.outgoing = [] ∧ (s.links[(1 : Fin 16)].up = true) ∧ 0 < ((1000025 : Word) - s.now 0).toInt ∧
       ((999974 : Word) - s.now 0).toInt < 0 ∧ s.fabid ≠ 0 ∧
       s.dev.ready = true ∧ ∀ j : Fin 16, s.links[j].up = true → s.links[(0 : Fin 16)].hops ≤ s.links[j].hops) ∧
    (let s : State := { linked [] with links := ((linked []).links.set 0 { Link.reset with
       up := true
       hops := 2 }) }
     s.links[(0 : Fin 16)].up = true ∧ s.fabid ≠ 0 ∧ s.dev.ready = true ∧ ¬ ∀ j : Fin 16, s.links[j].up = true → s.links[(0 : Fin 16)].hops ≤ s.links[j].hops) ∧
    (∀ b : Bool, let s : State := { linked [] with
       joined := false
       launched := b
       time := (Vector.replicate 8 1000).set 3 3000 }
     s.joined = false ∧ s.launched = b ∧ s.links[(0 : Fin 16)].up = true ∧ s.dev.ready = true ∧ s.fabid ≠ 0 ∧ (s.time[(0 : Fin 8)].toNat ≤ 2000) ∧ ¬ s.time[(3 : Fin 8)].toNat ≤ 2000) ∧
    (let s : State := { linked [] with stalled := [(1, 2, 0), (1, 3, 0)] }
     s.dev.ready = true ∧ s.outgoing = [] ∧ s.links[(0 : Fin 16)].up = true ∧ s.links[(2 : Fin 16)].up = false) := by
  decide +kernel

/-- A member's all-reduce of one FP32 element, in a group of core 0 of package 1 and core 8 of the package given. -/
def member (pkg rank : Nat) (started : Bool) : Member where
  block := rank
  part := 1
  op := 2
  ty := 0
  tag := 7
  group := 0x10000
  count := 1
  src := 0x10100
  dst := 0x10200
  tick := 0
  rank := rank
  nmem := 2
  arrived := 0
  started := started
  remote := if rank = 0 then none else some (2, [0, 0, 0x80, 0x3F])
  ranks := [(1, 0), (pkg, 8)]

/-- Collectives, LaunchProgress: a group that is complete, before and after its start, with its pages to walk and walked; one
that waits for a link to a member; one whose member no route reaches. -/
theorem witness_Collectives :
    (∀ b : Bool, let s : State := { linked [] with
       blocks := [(0, block 0)]
       mem := pageTables
       parts := [(1, { part1 with ttroot := 1 })]
       members := [member 2 0 b, member 2 1 b] }
     let l := [member 2 0 b, member 2 1 b]
     let g := (member 2 0 b).group.toNat
     let leaf : EngWalk := ⟨1, 0x10000, 0, 0, some (.leaf ⟨1, 0x10, 1, 0x10, 0xD⟩), 0x1000⟩
     groupParts s g 7 b = [1] ∧ (groupParts s g 7 b).head? = some 1 ∧ membersOf s g 7 1 b = l ∧ membersOf s g 7 1 (!b) = [] ∧ leader l = some (member 2 0 b) ∧
       missing l (member 2 0 b) = [] ∧ (List.range 2).findSome? (waitsFor s (member 2 0 b)) = none ∧
       (∀ x ∈ l, x.tick = 0 ∧ x.op = 2 ∧ x.ty = 0 ∧ x.count = 1) ∧ (l.filter fun y => y.remote.isNone) = [member 2 0 b] ∧ s.posts = [] ∧
       (dataPages l).find? (fun va => engTr s (s.part 1) va .load == .miss) = some 0x10100 ∧
       ((dataPages l).all fun va => engTr { s with engWalks := [leaf] } (s.part 1) va .load != .miss) = true ∧
       (getKey s.blocks 0).isSome = true ∧ (s.block 0).ports[2].res.length + (s.block 0).ports[2].resSlots < 16) ∧
    (let s : State := { linked [] with
       blocks := [(0, block 0)]
       members := [member 3 0 false] }
     let l := [member 3 0 false]
     groupParts s (member 3 0 false).group.toNat 7 false = [1] ∧ membersOf s (member 3 0 false).group.toNat 7 1 false = l ∧
       (List.range 2).findSome? (waitsFor s (member 3 0 false)) = some 3 ∧ s.stalled = []) ∧
    (let s : State := { linked [] with
       blocks := [(0, block 0)]
       members := [member 9 0 false] }
     let l := [member 9 0 false]
     membersOf s (member 9 0 false).group.toNat 7 1 false = l ∧ (List.range 2).findSome? (waitsFor s (member 9 0 false)) = none ∧
       ∀ r ∈ missing l (member 9 0 false), unreachable s (member 9 0 false) r = true) ∧
    (let a : Nat := 0x3F800000
     let b : Nat := 0xC0000000
     (∀ x ∈ [a, b], (decodeFp (tyFmt 0) false x).isNan = false) ∧
     ((sumVal false (decodeFp (tyFmt 0) false a) (decodeFp (tyFmt 0) false b)) matches .fin _) = true) ∧
    ([0xFFFFFFFF, 1] : List Nat) ≠ [] ∧ ∀ x ∈ ([0xFFFFFFFF, 1] : List Nat), x < 2 ^ 32 := by
  decide +kernel

/-- A block whose scratchpad begins with the descriptor of that all-reduce, and whose port 2 holds a command for it. -/
def described : Block := { asking 0xF_0000_0020_0000 with
  sprows := 8192
  pad := ((((Store.empty.writeLE 0 8 (2 + 7 * 2 ^ 32)).writeLE 8 8 0x10000).writeLE 0x10 8 1).writeLE 0x18 8 0x10100).writeLE 0x20 8 0x10200 }

/-- LaunchProgress: a command for the collective engine whose group record is still to be walked to, and with its pages walked. -/
theorem witness_LaunchProgress_command :
    let s : State := { scheduling [(0, described)] [] [] mapped with mem := (pageTables.writeLE 0x10000 8 2).writeLE 0x10008 8 (1 + (2 + 8 * 256) * 2 ^ 32) }
    let t := walkedTo s [0x10]
    described.ports[2].cmd = [0xF_0000_0020_0000] ∧ cmdPages s described 0xF_0000_0020_0000 = [0x10000] ∧
      engTr s (s.part 1) 0x10000 .load = .miss ∧ cmdPages t described 0xF_0000_0020_0000 = [0x10000, 0x10100, 0x10200] ∧
      (([0x10000, 0x10100, 0x10200] : List Word).all fun va => engTr t (t.part 1) va .load != .miss) = true := by
  decide +kernel

/-- The worked encodings of spec/03 R57 and R61: ld s3,[s4+8], and (!p2) mmf.nt h1.1+,h6,h7,h1.1 m=s9. -/
theorem test_worked_encodings :
    decode false 0x0101_0190_0000_0008 0 = .ok ⟨Hdr.default, .one (.ld 3 4 (.short 8))⟩ ∧
    decode false 0x2B02_10B3_0380_A241 0 = .ok ⟨⟨false, 2, true, 0⟩,
      .one (.mmf ⟨1, 1, true⟩ ⟨6, 0, false⟩ ⟨7, 0, false⟩ ⟨1, 1, false⟩ false ⟨9, ⟨.rne, false, false⟩, true⟩)⟩ := by
  decide

/-- DecodeOfEncode, EncodeOfDecode: a well-formed line with a guard, and a word with a literal that the decoder accepts. -/
theorem witness_Encodings :
    (⟨⟨false, 2, true, 0⟩, .one (.br (-1))⟩ : Line).wf false = true ∧
    decode false 0x0111_0190_0000_0000 0xF_0000_0020_0000 = .ok ⟨Hdr.default, .one (.ld 3 4 (.lit 0xF_0000_0020_0000))⟩ := by
  decide

/-- MemoriesStayCanonical: the power-on state has canonical memories, and its step answers a next state. -/
theorem witness_MemoriesStayCanonical : State.reset.memOk = true ∧ (match step State.reset with
    | .next t => t.memOk
    | _ => false) = true := by
  decide +kernel

/-- Rounding: a tie of E4M3 in each mode. -/
theorem witness_Rounding_modes :
    let d : Dy := ⟨false, 17, -4⟩
    (∀ x ∈ ([(.rne, 8), (.rtz, 8), (.rdn, 8), (.rup, 9), (.rna, 9), (.sr 32768, 9), (.sr 32767, 8)] : List (RMode × Int)),
      RoundsTo x.1 (2 ^ (max 0 (1 - (e4m3.bias : Int)) - e4m3.fbits)) d.val (x.2 / 8)) ∧
    (2 : ℚ) ^ (0 : Int) ≤ |d.val| ∧ |d.val| < 2 ^ ((0 : Int) + 1) ∧ e4m3.value e4m3.maxFinite = 448 := by
  have h : Dy.val ⟨false, 17, -4⟩ = 17 / 16 := by norm_num [Dy.val]
  have f : ⌊(1114112 / 2 : ℚ)⌋ = 557056 := by norm_num
  simp only [h]
  refine ⟨?_, by norm_num, by norm_num, by norm_num [Fmt.value, e4m3, Fmt.maxFinite, Fmt.bias]⟩
  intro x hx
  simp only [List.mem_cons, List.not_mem_nil, or_false] at hx
  rcases hx with rfl | rfl | rfl | rfl | rfl | rfl | rfl
  · exact ⟨8, by norm_num [e4m3], by norm_num, by norm_num [e4m3, abs_of_pos, abs_of_neg], fun _ => by decide⟩
  · exact ⟨8, by norm_num [e4m3], by norm_num, by norm_num [abs_of_pos], by norm_num [e4m3, abs_of_pos]⟩
  · exact ⟨8, by norm_num [e4m3], by norm_num, by norm_num, by norm_num [e4m3]⟩
  · exact ⟨9, by norm_num [e4m3], by norm_num, by norm_num, by norm_num [e4m3]⟩
  · exact ⟨9, by norm_num [e4m3], by norm_num, by norm_num [e4m3, abs_of_pos], fun _ => by norm_num [abs_of_pos]⟩
  · exact ⟨9, by norm_num [e4m3], by norm_num, by norm_num [e4m3, abs_of_pos]⟩
  · exact ⟨8, by norm_num [e4m3], by norm_num, by norm_num [e4m3, abs_of_pos]⟩

/-- Rounding: results above the largest finite value, a subnormal one, and a normal one; integers inside and beyond their range;
the elements of a block. -/
theorem witness_Rounding :
    (let d : Dy := ⟨true, 15, 5⟩
     RoundsTo .rtz (2 ^ (max 8 (1 - (e4m3.bias : Int)) - e4m3.fbits)) d.val (-480) ∧ 2 ^ (8 : Int) ≤ |d.val| ∧ |d.val| < 2 ^ ((8 : Int) + 1) ∧
     e4m3.value e4m3.maxFinite < |(-480 : ℚ)|) ∧
    (let d : Dy := ⟨false, 1, -9⟩
     RoundsTo .rne (2 ^ (max (-9) (1 - (e4m3.bias : Int)) - e4m3.fbits)) d.val (1 / 512) ∧ 2 ^ (-9 : Int) ≤ |d.val| ∧
     |d.val| < 2 ^ ((-9 : Int) + 1) ∧ ¬ e4m3.value e4m3.maxFinite < |(1 / 512 : ℚ)| ∧ (1 / 512 : ℚ) ≠ 0 ∧
     |(1 / 512 : ℚ)| < 2 ^ (1 - (e4m3.bias : Int))) ∧
    (RoundsTo .rne 1 (Dy.val ⟨false, 5, -1⟩) (2 : Int) ∧ RoundsTo .rup 1 (Dy.val ⟨true, 257, -1⟩) (-128 : Int) ∧
      RoundsTo .rdn 1 (Dy.val ⟨false, 257, -1⟩) (128 : Int)) ∧
    (let xs : List Fp := [.fin ⟨false, 3, 0⟩, .fin ⟨true, 1, 0⟩]
     (∀ x ∈ xs, x.isNan = false ∧ x.isInf = false) ∧ Fp.fin ⟨false, 3, 0⟩ ∈ xs ∧ 2 ^ (1 : Int) ≤ |Dy.val ⟨false, 3, 0⟩| ∧
     ∀ y, .fin y ∈ xs → |y.val| < 2 ^ ((1 : Int) + 1)) ∧
    (∀ d, .fin d ∈ ([.fin ⟨true, 0, 0⟩, .fin ⟨false, 0, 0⟩] : List Fp) → d.val = 0) ∧
    (∃ x ∈ ([.fin ⟨true, 0, 0⟩, .inf true] : List Fp), x.isNan = true ∨ x.isInf = true) := by
  refine ⟨⟨⟨-15, ?_, ?_, ?_, ?_⟩, ?_, ?_, ?_⟩, ⟨⟨1, ?_, ?_, ?_, ?_⟩, ?_, ?_, ?_, ?_, ?_⟩, ⟨⟨2, ?_, ?_, ?_, ?_⟩, ⟨-128, ?_, ?_, ?_, ?_⟩, ⟨128, ?_, ?_, ?_, ?_⟩⟩,
    ⟨?_, ?_, ?_, ?_⟩, ?_, ?_⟩
  all_goals first
    | decide
    | norm_num [Dy.val, e4m3, Fmt.value, Fmt.maxFinite, abs_of_pos, abs_of_neg]

/-- NumberFormats: elements of each kind, NaNs after other sources and in each source format, and a mode that is not DYN. -/
theorem witness_NumberFormats :
    (e4m3.special = .e4m3 ∧ 0xFF < 2 ^ e4m3.width ∧ 0xFF / 2 ^ e4m3.fbits % 2 ^ e4m3.ebits = 2 ^ e4m3.ebits - 1 ∧ 0xFF % 2 ^ e4m3.fbits = 7) ∧
    (fp16.special = .ieee ∧ (∀ x ∈ [0x7C00, 0x7E01], x < 2 ^ fp16.width ∧ x / 2 ^ fp16.fbits % 2 ^ fp16.ebits = 2 ^ fp16.ebits - 1) ∧
      0x8001 < 2 ^ fp16.width ∧ 0x8001 / 2 ^ fp16.fbits % 2 ^ fp16.ebits = 0) ∧
    (let l : List Fp := [.fin Dy.zero, .inf true]
     (∀ x ∈ l, x.isNan = false) ∧ (5 < 2 ^ fp32.fbits ∧ 5 < 2 ^ (fp32.fbits - 1)) ∧ 2 ^ 22 + 1 < 2 ^ fp32.fbits ∧ ¬ 2 ^ 22 + 1 < 2 ^ (fp32.fbits - 1)) ∧
    (∀ f ∈ [fp64, fp32, fp16, bf16, e5m2], 2 ^ f.fbits - 1 < 2 ^ f.fbits ∧ ¬ 2 ^ f.fbits - 1 < 2 ^ (f.fbits - 1)) ∧
    (let e := if Rm.dyn = .dyn then Rm.ofCode { Ctl.reset with rm := 3 }.rm.toNat else .dyn
     e ≠ .dyn) ∧ Rm.sr1 ≠ .dyn := by
  decide

/-- ConversionsAndReductions: zeros, which each level and each step of a scan combines to zero; an element that is a NaN; infinities of
both signs, which the first level of the tree and the first step of the scan meet. -/
theorem witness_ConversionsAndReductions :
    let z : Fp := decodeFp fp32 false 0
    let v : VWord := ofElems 32 (0x7F800000 :: 0xFF800000 :: (List.replicate 30 0) ++ 0xFF800000 :: List.replicate 31 0)
    let r : Rounder := rounder Ctl.reset .rne
    (∀ e < 64, decodeFp VTy.f32.fmt false (elemOf (0 : VWord) 32 e) = z) ∧ z.isNan = false ∧
      (sumVal r.isRdn z z matches .fin _) = true ∧ z = decodeFp fp32 false (putVal fp32 (r.at 0) false false (sumVal r.isRdn z z)).1 ∧
      (∀ c : Bool, r.at (if c then 2 ^ 32 else 63) = r.at 0) ∧
    (decodeFp fp32 false (elemOf (ofElems 32 [0, 0x7FC00000] : VWord) 32 1)).isNan = true ∧
    (∀ e < 64, (decodeFp fp32 false (elemOf v 32 e)).isNan = false) ∧
      (sumVal r.isRdn (decodeFp fp32 false (elemOf v 32 0)) (decodeFp fp32 false (elemOf v 32 32)) = .gen 3) ∧
      (sumVal r.isRdn (decodeFp fp32 false (elemOf v 32 0)) (decodeFp fp32 false (elemOf v 32 1)) = .gen 3) := by
  decide +kernel

/-- The word's claims succeed, and P holds of the state they leave. -/
def ClaimsTo (i : Instr) (s : State) (P : State → Prop) : Prop := Runs i s ∧ ∃ u, claimed i false s = some u ∧ P u

theorem claimsTo_of {i : Instr} {s : State} (P : State → Prop) [DecidablePred P]
    (h : (runs i s && (claimed i false s).any fun u => decide (P u)) = true) : ClaimsTo i s P := by
  simp only [Bool.and_eq_true, Option.any_eq_true, decide_eq_true_eq] at h
  exact ⟨runs_of h.1, h.2.choose, h.2.choose_spec.1, h.2.choose_spec.2⟩

/-- The stream that runs tile words, with the metadata of tile n changed. -/
def touched (n : Nat) (f : Meta → Meta) (regs : List Word := tileScalars) : State :=
  let s := tiling 0 regs
  let t := s.blk.tile n
  { s with blk := { s.blk with tiles := putKey s.blk.tiles n { t with md := f t.md } } }

/-- TileChecks: a source and a destination that have been written past the word's generation. -/
theorem witness_TileChecks_counts :
    (let past (m : Meta) : Meta := { m with wc := 1 }
     let overrun (i : Instr) (u : State) : Prop := ∃ p ∈ (itemsOf u.ag i).src.head?, 1 ≤ ((u.blk.md p.r).wc - p.x).toNat ∧ ((u.blk.md p.r).wc - p.x).toNat ≤ 32767
     let rewritten (i : Instr) (u : State) : Prop := (∃ d ∈ (itemsOf u.ag i).dst, 1 ≤ ((u.blk.md d.r).wc - (d.x - 1)).toNat ∧
       ((u.blk.md d.r).wc - (d.x - 1)).toNat ≤ 32767) ∧ ∀ q ∈ (itemsOf u.ag i).src, (u.blk.md q.r).wc = q.x
     (∀ i ∈ ([.tmov (op 2) (op 0), .ttov (op 0) true, .tadd (op 2) (op 0) (op 1) (mode 2)] : List Instr), ClaimsTo i (touched 0 past) (overrun i)) ∧
     (∀ i ∈ ([.tmov (op 2) (op 0), .tzero (op 2), .tfromv (op 2) true, .tadd (op 2) (op 0) (op 1) (mode 2)] : List Instr),
       ClaimsTo i (touched 2 past) (rewritten i)) ∧
     (0 < (tileHandles (.tmov (op 2) (op 0))).length ∧ Skipped (.tmov (op 2) (op 0)) (off (touched 0 past))) ∧
     MaskOk (touched 0 past) (mode 2) 0xFFFF 32 ∧ MaskOk (touched 2 past) (mode 2) 0xFFFF 32 ∧
     pastRowOfA (.tadd (op 2) (op 0) (op 1) (mode 2)) (maskCounts 0x2020) (touched 0 past) = false) := by
  refine ⟨fun i hi => ?_, fun i hi => ?_, ⟨by decide, skipped_all (l := [.tmov (op 2) (op 0)]) (by decide +kernel) _ (List.mem_singleton.mpr rfl)⟩,
    maskOk_of (by decide +kernel), maskOk_of (by decide +kernel), by decide +kernel⟩ <;>
  · simp only [List.mem_cons, List.not_mem_nil, or_false] at hi
    rcases hi with rfl | rfl | rfl | rfl <;> exact claimsTo_of _ (by decide +kernel)

/-- TileChecks: mask scalars that are poisoned, with a bit outside the fields, and with counts past each extent; rows past an
image's, past the block's scratchpad, and poisoned. -/
theorem witness_TileChecks_scalars :
    (let regs : List Word := [0, 0x10000, 33, 33 * 256, 0x1000, 0x210000, 8184, 8000]
     let s (p : Nat) : State := let t := tiling 0 regs; { t with
       ag := { t.ag with sPoison := BitVec.ofNat 32 p }
       blk := { t.blk with sprows := 7000 } }
     (∀ i ∈ ([.tadd (op 2) (op 3) (op 4) (mode 1), .tadd (op 2) (op 3) (op 4) (mode 2), .tred (op 2) (op 11) (mode 3), .tred (op 2) (op 11) (mode 4),
       .tcvt (op 2) (op 11) 0x20 0 false true (mode 4), .mmf (op 7) (op 3) (op 4) (op 6) false (mode 5), .tlds (op 2) 6, .tsts (op 0) 6,
       .tlds (op 2) 7] : List Instr), Claims i (s 0xFE) ∧ Claims i (s 0)) ∧
     (∀ n ∈ ([1, 2, 3, 4, 5, 6, 7] : List SReg), (s 0xFE).ag.poisoned (.s n) = true ∧ (s 0).ag.poisoned (.s n) = false) ∧
     ((s 0).sReg 1 &&& ~~~0xFFFF#64 ≠ 0 ∧ 32 < ((s 0).sReg 2).toNat % 256 ∧ 32 < ((s 0).sReg 3).toNat / 256 ∧ 32 < ((s 0).sReg 5).toNat / 65536) ∧
     (tagRow 0x40 = 8 ∧ tagRow 0x10 = 16 ∧ 8 < ((s 0).sReg 4).toNat / 256) ∧
     (8183 < ((s 0).sReg 6).toNat ∧ ((s 0).sReg 7).toNat ≤ 8183 ∧ (s 0).blk.sprows ≤ ((s 0).sReg 7).toNat ∧ (s 0).ag.ctl.prog = 0)) := by
  exact ⟨fun i hi => ⟨claims_all (by decide +kernel) i hi, claims_all (by decide +kernel) i hi⟩, by decide +kernel, by decide +kernel,
    by decide +kernel, by decide +kernel⟩

/-- TileChecks: a poisoned item, and tags that each word does not accept. -/
theorem witness_TileChecks_tags :
    (let poison (m : Meta) : Meta := { m with poison := true }
     let unknown (m : Meta) : Meta := { m with tag := 0x03 }
     let odd : State := { tiling 0 with blk := { (tiling 0).blk with accs := [(0, { Accum.reset with md := Meta.reset 0x20 })] } }
     (∀ i ∈ ([.ttov (op 0) true, .tsts (op 0) 4] : List Instr), Issues i (touched 0 poison) (fun u => (u.blk.md 0).poison = true) ∧
       Issues i (touched 0 unknown) (fun u => (u.blk.md 0).poison = false ∧ (u.blk.md 0).void = false ∧ tagValid (u.blk.md 0).tag.toNat = false)) ∧
     (Issues (.tmov (op 2) (op 0)) (touched 0 unknown) (fun u => tagValid (u.blk.md 0).tag.toNat = false) ∧
      Issues (.tmov (op 7) (op 10)) (tiling 0) (fun u => (u.blk.md 516).tag ≠ 0x10) ∧
      Issues (.ttrn (op 2) (op 0)) (tiling 0) (fun u => (u.blk.md 0).tag ≠ 0x20 ∧ (u.blk.md 0).tag ≠ 0x30)) ∧
     (∀ i ∈ ([.tadd (op 2) (op 13) (op 1) (mode 2), .tscal (op 2) (op 13) (op 1) (mode 2), .tred (op 2) (op 13) (mode 2)] : List Instr),
       Issues i (tiling 0) (fun u => (u.blk.md 13).tag = 0x50)) ∧
     Issues (.tacc (op 7) (op 6) (op 6) true (mode 2)) odd (fun u => (u.blk.md 512).tag = 0x20) ∧
     (∀ i ∈ ([.tmul (op 2) (op 0) (op 3) (mode 8), .tscal (op 2) (op 0) (op 3) (mode 8)] : List Instr),
       Issues i (tiling 0) (fun u => (u.blk.md 0).tag = 0x10 ∧ (u.blk.md 3).tag = 0x20)) ∧
     Issues (.tacc (op 7) (op 6) (op 10) false (mode 2)) (tiling 0) (fun u => (u.blk.md 512).tag = 0x10 ∧ (u.blk.md 516).tag = 0x40) ∧
     MaskOk (tiling 0) (mode 2) 0xFFFF 32 ∧ MaskOk (tiling 0) (mode 8) 0xFFFF 32 ∧ ((tiling 0).sReg 4).toNat = 8183 ∧
     pastRowOfA (.tadd (op 2) (op 13) (op 1) (mode 2)) (maskCounts 0x2020) (tiling 0) = false ∧
     pastRowOfA (.tmul (op 2) (op 0) (op 3) (mode 8)) (maskCounts 0x1020) (tiling 0) = false ∧
     pastRowOfA (.tacc (op 7) (op 6) (op 6) true (mode 2)) (maskCounts 0x2020) odd = false) := by
  refine ⟨fun i hi => ?_, ⟨issues_of _ (by decide +kernel), issues_of _ (by decide +kernel), issues_of _ (by decide +kernel)⟩, fun i hi => ?_,
    issues_of _ (by decide +kernel), fun i hi => ?_, issues_of _ (by decide +kernel), maskOk_of (by decide +kernel), maskOk_of (by decide +kernel),
    by decide +kernel, by decide +kernel, by decide +kernel, by decide +kernel⟩ <;> simp only [List.mem_cons, List.not_mem_nil, or_false] at hi
  · rcases hi with rfl | rfl <;> exact ⟨issues_of _ (by decide +kernel), issues_of _ (by decide +kernel)⟩
  · rcases hi with rfl | rfl | rfl <;> exact issues_of _ (by decide +kernel)
  · rcases hi with rfl | rfl <;> exact issues_of _ (by decide +kernel)

/-- TileChecks: HSET with each of its scalars poisoned and with fields it refuses; TSETC with a word and a number it refuses; handle
words on a class-2 handle, behind their generation and ahead of it. -/
theorem witness_TileChecks_handles :
    (let regs : List Word := [0, 3, 2, 511 * 4 + 63 * 2048, 1 + 63 * 4 + 2048, 2 ^ 21, 2 + 1023 * 2 ^ 21, 2 ^ 31, 0x10000, 576, 0x04000000]
     let s : State := issuing 0 (block 0) (agent regs [⟨2, 0, 0, 0, 0, 0, 0⟩, ⟨0, 1, 0, 0, 0, 0, 0⟩, ⟨0, 0, 0, 0, 0, 0, 1⟩] true)
     let t (p : Nat) : State := { s with ag := { s.ag with sPoison := BitVec.ofNat 32 p } }
     let late : State := { s with blk := { s.blk with tiles := [(1, { Tile.reset with md := { Meta.reset 0 with wc := 32767 } })] } }
     ((∀ i ∈ ([.hset 1 1 0, .hset 1 2 0, .hset 1 3 0, .hset 1 4 0, .hset 1 5 0, .hset 1 7 0, .hset 1 0 8] : List Instr), Runs i s) ∧
       Runs (.hset 1 0 8) (t 0x100) ∧ (t 0x100).ag.poisoned (.s 8) = true ∧ Runs (.hset 1 1 0) (t 2) ∧ (t 2).ag.poisoned (.s 1) = true) ∧
     (∀ n ∈ [1, 2, 3, 4, 5, 7], (let x := regs.getD n 0; let f (lo k : Nat) := x.toNat / 2 ^ lo % 2 ^ k
       f 0 2 = 3 ∨ f 0 2 = 2 ∧ s.cur.w ≠ 4 ∨ (f 0 2 = 0 ∨ f 0 2 = 2) ∧ 511 < f 2 9 + f 11 6 ∨ f 0 2 = 1 ∧ 63 < f 2 9 + f 11 6 ∨
         (f 0 2 = 0 ∨ f 0 2 = 1) ∧ f 21 10 ≠ 0 ∨ 2 ^ 31 ≤ x.toNat)) ∧ coreExists 1023 = false ∧
     (∀ i ∈ ([.tsetc 9 0, .tsetc 2 10] : List Instr), Claims i s) ∧
     (∀ i ∈ ([.hwait 0 0, .trel 0 0, .tvoid 1 0 0, .hwait 2 0, .trel 2 0, .tvoid 1 2 0] : List Instr), Claims i s) ∧
     (∀ i ∈ ([.hwait 1 0, .trel 1 0, .tvoid 1 1 0] : List Instr), Claims i late) ∧
     (s.ag.h[(0 : HReg)].cls = 2 ∧ s.ag.h[(1 : HReg)].cls ≠ 2 ∧ ((late.blk.md 1).wc - (late.ag.opnd ⟨1, 0, false⟩).x).toNat = 32767 ∧
       32768 ≤ ((s.blk.md 0).wc - (s.ag.opnd ⟨2, 0, false⟩).x).toNat)) := by
  exact ⟨⟨runs_all (by decide +kernel), runs_of (by decide +kernel), by decide, runs_of (by decide +kernel), by decide⟩, by decide +kernel, by decide,
    claims_all (by decide +kernel), claims_all (by decide +kernel), claims_all (by decide +kernel), by decide +kernel⟩

/-- A stream whose scratchpad of a hundred rows begins with a descriptor of these fields. -/
def ringOf (base cap head tail : Nat) : State := { stream with blk := { stream.blk with
  sprows := 100
  pad := (((Store.empty.writeLE 0 8 base).writeLE 8 8 cap).writeLE 16 8 head).writeLE 24 8 tail } }

/-- TileChecks: a ring's scalar that is poisoned; descriptors outside the scratchpad and the block's rows; rings that each check
refuses, and one without room. -/
theorem witness_TileChecks_rings :
    (∀ i ∈ ([.vpushc 1 1 .i32 1, .vpopc 1 .n32 1] : List Instr), Claims i poisoned ∧
      Claims i { ringOf 0 0 0 0 with ag := agent [0, 0xF_0000_0000_0000] [] true } ∧
      Claims i { ringOf 0 0 0 0 with ag := agent [0, 0xF_0000_003F_FFE0] [] true } ∧
      Claims i (ringOf 0 64 0 0) ∧ Claims i (ringOf 0xF_0000_0020_0104 64 0 0) ∧ Claims i (ringOf 0xF_0000_0020_0100 65 0 0) ∧
      Claims i (ringOf 0xF_0000_003F_FF00 128 0 0) ∧ Claims i (ringOf 0xF_0000_0020_0100 64 65 0) ∧
      Claims i (ringOf 0xF_0000_0020_6300 128 0 0) ∧ Claims i (ringOf 0xF_0000_0020_6300 64 1 0)) ∧
    poisoned.ag.poisoned (.s 1) = true ∧ (stream.ag.poisoned (.s 1) = false ∧ stream.ag.accs = [] ∧ stream.ag.poisoned (.k 1) = false) ∧
    (let b := (ringOf 0 0 0 0).blk
     ownPad b 0xF_0000_0000_0000 = none ∧ ownPad b 0xF_0000_003F_FFE0 = some 0x1FFFE0 ∧ b.sprows * 256 ≤ 0x1FFFE0 ∧
     ownPad b 0xF_0000_0020_0000 = some 0 ∧ ownPad b 0 = none ∧ ownPad b 0xF_0000_0020_0104 = some 260 ∧ 260 % 256 ≠ 0 ∧
     ownPad b 0xF_0000_003F_FF00 = some 0x1FFF00 ∧ 0x200000 < 0x1FFF00 + 4 * 128 ∧ 64 < 65 ∧ ownPad b 0xF_0000_0020_6300 = some 0x6300 ∧
     b.sprows * 256 < 0x6300 + 4 * 128 ∧ 0x6300 + 4 * 64 ≤ b.sprows * 256 ∧ b.pad.readLE 8 8 = 0) ∧
    64 - 1 < ((List.range 64).filter ((ringOf 0 0 0 0).kReg 0).getLsbD).length ∧ Claims (.vpushc 1 0 .i32 1) (ringOf 0xF_0000_0020_6300 64 1 0) := by
  refine ⟨fun i hi => ⟨claims_all (by decide +kernel) i hi, claims_all (by decide +kernel) i hi, claims_all (by decide +kernel) i hi,
    claims_all (by decide +kernel) i hi, claims_all (by decide +kernel) i hi, claims_all (by decide +kernel) i hi, claims_all (by decide +kernel) i hi,
    claims_all (by decide +kernel) i hi, claims_all (by decide +kernel) i hi, claims_all (by decide +kernel) i hi⟩, by decide, by decide, by decide +kernel,
    by decide +kernel, claims_all (l := [.vpushc 1 0 .i32 1]) (by decide +kernel) _ (List.mem_singleton.mpr rfl)⟩

/-- A stream that issues a sync word with a mask, beside stream 1 that runs at a word or has ended, with its own mask. -/
def meeting (own other : BitVec 4) (runs : Bool) (word : Nat) : State :=
  let a (m : BitVec 4) : Agent := { agent [] [] true with
    pc := 0x1000
    ctl := { (agent [] [] true).ctl with syncmsk := m } }
  let s : State := issuing 0 { withText (block 0) [word] with agents := ((block 0).agents.set 0 (a own)).set 1 { a other with
    run := if runs then .running else .exited } } (a own)
  { s with cur := { s.cur with hdr := { s.cur.hdr with s := true } } }

/-- TileChecks: sync words without the own bit, with a partner that has ended, with one at a sync word of another mask, and with
one that is not there yet. -/
theorem witness_TileChecks_sync :
    (∀ t ∈ [meeting 2 3 true 0, meeting 3 3 false 0, meeting 3 7 true 0x8000_0000_0000_0000, meeting 3 3 true 0],
      Runs (.add 1 2 3) { t with cur := { t.cur with sync := true } } ∧ t.cur.hdr.s = true ∧ t.cur.sync = false) ∧
    (Instr.add 1 2 3).isScalarHalf = true ∧
    (meeting 2 3 true 0).ag.ctl.syncmsk.getLsbD 0 = false ∧ ((meeting 3 3 false 0).agent 1).run ≠ .running ∧
    (let s := meeting 3 7 true 0x8000_0000_0000_0000
     (s.agent 1).ctl.syncmsk ≠ s.ag.ctl.syncmsk ∧ atSync s 1 (s.agent 1) = true ∧ (s.agent 1).run = .running) ∧
    (let s := meeting 3 3 true 0
     (s.agent 1).run = .running ∧ (s.agent 1).ctl.syncmsk = s.ag.ctl.syncmsk ∧ s.ag.ctl.syncmsk.getLsbD 0 = true) := by
  refine ⟨fun t ht => ?_, by decide, by decide, by decide, by decide +kernel, by decide +kernel⟩
  simp only [List.mem_cons, List.not_mem_nil, or_false] at ht
  rcases ht with rfl | rfl | rfl | rfl <;> exact ⟨runs_of (by decide +kernel), by decide +kernel, by decide +kernel⟩

/-- A block of partition 1 with one transfer on channel 0, beside the state of its memory and of the handle table. -/
def tabling (form : CopyForm) (mem : Store) (f : Transfer → Transfer) : State :=
  let s := copying form fun x => f { x with desc := ⟨0x10100, 0x10180, 16, 1, 1, 0, 0, 0, 0, 0, 0⟩ }
  { s with
    mem := mem
    parts := [(1, { part1 with table := some ⟨0x10200, 0x10000, 0x10000, 4, 1, 12, 0x10300⟩ })] }

/-- A row's handle, for entry 0 with BOUND 1, and that entry with LIMIT 1, with DUP or not. -/
def entries (dup : Bool) : Store :=
  ((Store.empty.writeLE 0x10100 8 1).writeLE 0x10240 8 0).writeLE 0x10248 8 (2 ^ 48 + if dup then 1 else 0)

/-- TransferFaults: items overwritten and written already, a poisoned item, an accumulator of a pair's tag, an invalid tag in an image. -/
theorem witness_TransferFaults_items :
    (let x (s : State) : Transfer := (enter s 0 4).blk.chans[(0 : Fin 5)].xfers.headD (Transfer.start 0 (.mem .d1))
     let u (form : CopyForm) (m : Meta) : State :=
       let s := copying form id
       enter { s with blocks := s.blocks.map fun (b : Nat × Block) => (b.1, { b.2 with
         tiles := [(0, { Tile.reset with md := m })]
         accs := [(0, { Accum.reset with md := m })] }) } 0 4
     let old : State := u (.fromItem .d1 ⟨0, 0, 0, 0, 0⟩ false) { Meta.reset 0x10 with wc := 1 }
     (1 ≤ ((old.blk.md 0).wc - 0).toNat ∧ ((old.blk.md 0).wc - 0).toNat ≤ 32767 ∧ ((old.core old.blk.core).claim? old.blk.slot 0 0).isSome = true) ∧
     (let d : State := u (.toItem .d1 ⟨0, 0, 1, 0, 0⟩ 0x10 false) { Meta.reset 0x10 with wc := 1 }
      ((d.blk.md 0).wc - (1 - 1)).toNat = 1) ∧
     (let p : State := u (.fromItem .d1 ⟨1, 0, 0, 0, 0⟩ false) (Meta.reset 0x40)
      (p.blk.md 512).wc = 0 ∧ (p.blk.md 512).q = 0 ∧ p.blk.filling 512 = false ∧ (p.blk.md 512).poison = false ∧ (p.blk.md 512).void = false ∧ (p.blk.md 512).tag = 0x40 ∧
       ((p.core p.blk.core).claim? p.blk.slot 1 0).isSome = true ∧ ((p.blk.md 512).wc - (1 - 1)).toNat = 0) ∧
     (let s := copying (.mem .d1) fun y => { y with desc := { y.desc with src := 0xF_0000_0000_0000 } }
      let v := enter { s with blocks := s.blocks.map fun (b : Nat × Block) => (b.1, { b.2 with tiles := [(0, { Tile.reset with md := { Meta.reset 0x10 with poison := true } })] }) } 0 4
      placeOf v v.blk true 0xF_0000_0000_0000 .load = .ok (.data 0) ∧ Place.item (.data 0) = some 0 ∧ (v.blk.md 0).poison = true) ∧
     (let s := copying (.toItem .d1 ⟨0, 0, 1, 0, 0⟩ 0 true) fun y => { y with
        size := 2304
        desc := ⟨0x10000, 0, 2304, 1, 1, 0, 0, 0, 0, 0, 0⟩ }
      let v := enter { s with mem := Store.empty.writeLE (0x10000 + 2176) 1 3 } 0 4
      let y := x { s with mem := Store.empty.writeLE (0x10000 + 2176) 1 3 }
      let w := stepAt (srcPos y.desc .d1) (nearBytes y.desc .d1 y.size 2176) 2176
      placeOf v v.blk true w.va .load = .ok (.phys 0x10880) ∧ (w.l.any fun q => q.1 == 2176 && !tagValid (v.mem.byte (0x10880 / 8 * 8 + q.2)).toNat) = true ∧
        srcPos y.desc .d1 2176 = .mem ⟨0x10000, 0, 2304⟩ ∧ y.got.testBit 2176 = false)) := by
  decide +kernel

/-- TransferFaults: addresses that stop a run of bytes, by the rules of addresses, by a walk, and by a leaf. -/
theorem witness_TransferFaults_addresses :
    (let x (s : State) : Transfer := (enter s 0 4).blk.chans[(0 : Fin 5)].xfers.headD (Transfer.start 0 (.mem .d1))
     let at_ (va : Word) (f : Option WalkEnd) : State := copying (.mem .d1) fun y => { y with
       desc := { y.desc with src := va, dst := va }
       got := if f.isNone then 0 else 2 ^ 16 - 1
       walk := f.map fun e => ⟨1, va, 0, 0, some e, 0x1000⟩ }
     let w (s : State) : CopyStep := stepAt (srcPos (x s).desc .d1) (nearBytes (x s).desc .d1 16 0) 0
     let tr (s : State) (use : Use) : PlaceTr := placeOf (enter s 0 4) (enter s 0 4).blk true (w s).va use
     (canonical (w (at_ 0x0100_0000_0000_0000 none)).va = false ∧ tr (at_ 0x0100_0000_0000_0000 none) .load = .fault cPAGE) ∧
     (let s := at_ 0xF_0000_0011_0000 none
      canonical (w s).va = true ∧ inWindow (w s).va = true ∧ windowPlace (enter s 0 4) (enter s 0 4).blk true (w s).va = none) ∧
     (let s := at_ 0x20000 (some .page)
      tr s .load = .miss ∧ (x s).walk.isSome = true ∧ pageNo 0x20000 = pageNo (w s).va ∧ ((x s).walk.bind (·.found)) = some .page) ∧
     (let e : TlbEntry := ⟨1, 0x20, 1, 0x20, 0x5⟩
      let s := at_ 0x20000 (some (.leaf e))
      tr s .store = .miss ∧ checkLeaf (enter s 0 4) (s.part 1) e 0x20000 .store = .fault cPROT ∧
        ((w s).nums.all fun j => (x s).got.testBit j) = true)) := by
  decide +kernel

/-- TransferFaults: the handle of a row, clean and poisoned, its entry in the first and the second copy, one that a check refuses and
one that passes, for each direction; a page with its mirror, read and written at each. -/
theorem witness_TransferFaults_rows :
    (let x (s : State) : Transfer := (enter s 0 4).blk.chans[(0 : Fin 5)].xfers.headD (Transfer.start 0 (.mem .btsrc))
     let s (m : Store) (f : Transfer → Transfer) : State := tabling (.mem .btsrc) m f
     let u (m : Store) : State := enter (s m id) 0 4
     let clean := u (entries true)
     let near (v : State) (va : Word) (pa n : Nat) : Bool := (List.range n).all fun k => placeOf v v.blk true (va + BitVec.ofNat 64 k) .load == .ok (.phys (pa + k))
     ((x (s (entries true) id)).st = .active ∧ 0 / (x (s (entries true) id)).desc.len = 0 ∧ getKey (x (s (entries true) id)).pages 0 = none) ∧
     (near clean 0x10100 0x10100 8 = true ∧ remotePkg 0x10100 = none ∧ clean.mem.readLE 0x10100 8 = 1 ∧
       (u ((entries true).setGranule (0x10104 / 4) true)).mem.granule ((0x10100 + 4) / 4) = true) ∧
     ((clean.part 1).table.isSome = true ∧ ((copying (.mem .btsrc) id).part 1).table = none) ∧
     (near clean 0x10240 0x10240 16 = true ∧ near clean 0x10300 0x10300 16 = true ∧ (u ((entries true).setGranule (0x10248 / 4) true)).mem.granule ((0x10240 + 8) / 4) = true) ∧
     (let y := x (s (entries true) fun z => { z with pages := [(0, (0x10000, some 0x10400))] })
      let z := x (s (entries true) fun z => { z with pages := [(0, (0x10000, some 0x10400))], again := 2 ^ 16 - 1 })
      getKey y.pages 0 = some (0x10000, some 0x10400) ∧ y.again.testBit 3 = false ∧ z.again.testBit 3 = true ∧
       placeOf clean clean.blk true ({ va := 0x10000, start := 0, len := 16 : Seg }.step 3).va .load = .ok (.phys 0x10000) ∧
       placeOf clean clean.blk true ({ va := 0x10400, start := 0, len := 16 : Seg }.step 3).va .store = .ok (.phys 0x10400) ∧
       inSlotFrame clean 0x10400 = false ∧ clean.mem.wf = true ∧ y.buf.wf = true)) := by
  decide +kernel

/-- TransferFaults: an entry that passes its checks, one whose handle has BOUND 0, and one that may not be written. -/
theorem witness_TransferFaults_entries :
    let t : HandleTable := ⟨0x10200, 0x10000, 0x10000, 4, 1, 12, 0x10300⟩
    EntryOk t 0 1 0 0x1_0000_0000_0001 0 16 true ∧ ¬ EntryOk t 0 0 0 0x1_0000_0000_0000 0 16 true ∧ ¬ EntryOk t 0 1 0 0x1_0000_0000_0002 0 16 true := by
  simp [EntryOk]

/-- TransferFaults: an im2col output whose bytes lie in the input, beside it and past the last image; a pad row that comes whole. -/
theorem witness_TransferFaults_im2col :
    (let d : Desc := ⟨0x10000, 0x10100, 1, 5, 1, 2, 4, 2, 0, BitVec.ofNat 64 (2 ^ 48 + 2 * 2 ^ 36 + 2 * 2 ^ 24 + 2 * 2 ^ 12 + 2),
       BitVec.ofNat 64 (7 * 2 ^ 24 + 2 ^ 16 + 2 ^ 12 + 2 ^ 8 + 2 ^ 4 + 1)⟩
     let k := d.im2col
     let x := { Transfer.start 0 (.mem .im2col) with
       desc := d
       size := 5
       got := 31 }
     (k.n = 1 ∧ k.oh * k.ow = 4 ∧ 0 < k.kh ∧ 0 < k.kw ∧ 0 < d.len) ∧ (k.n ≤ (k.first + 4) / (k.oh * k.ow)) ∧
     ((k.first + 3) / (k.oh * k.ow) < k.n ∧ ((3 / k.ow % k.oh * k.ksy : Nat) : Int) - k.pt = 0 ∧ (((k.first + 3) % k.ow * k.ksx : Nat) : Int) - k.pl = 1) ∧
     (((0 : Nat) : Int) - k.pt < 0) ∧ srcPos d .im2col 4 = .pad 7 true ∧ (x.got.testBit 4 = true ∧ x.size = d.rowLen .im2col * d.ny) ∧
     dstPos d .im2col 4 = .mem ⟨0x10108, 4, 1⟩) := by
  decide +kernel

/-- Reconstruction: patterns of each family with a kept and a skipped point, and points inside and at the edges of a grid. -/
theorem witness_Reconstruction_patterns :
    (let w := grid 0 [] []
     let c (k : BitVec 8) : CovRec := { coverage with code := k }
     (∀ k ∈ ([0x01, 0x04, 0x12, 0x92, 0x21, 0x00] : List (BitVec 8)), patternInvalid k = false) ∧
     (∀ k ∈ ([0x10, 0x80, 0x40, 0x05, 0x30] : List (BitVec 8)), patternInvalid k = true) ∧
     (∀ k ∈ ([0x02, 0x12, 0x22, 0xA2] : List (BitVec 8)), ∃ x : Fin 4, ∃ y : Fin 4, keptUnder (c k) w 1 ⟨x, y, 0⟩ = false ∧ x.val < w.gx ∧ y.val < w.gy)) := by
  decide +kernel

/-- Reconstruction: two values, the numbers that they round to at the middle of an axis, and the sum and half of two axes. -/
theorem witness_Reconstruction_linear :
    (let d (m : Nat) : Dy := ⟨false, m, 0⟩
     Nearest fp32 (((1 - 0 : Nat) : ℚ) / ((2 - 0 : Nat) : ℚ)) ⟨false, 1, -1⟩ ∧ Nearest fp32 ((d 3).val - (d 1).val) (d 2) ∧
     Nearest fp32 ((d 1).val + Dy.val ⟨false, 1, -1⟩ * (d 2).val) (d 2) ∧ Nearest fp32 ((d 2).val + (d 2).val) (d 4) ∧
     Nearest fp32 ((d 4).val / 2) (d 2) ∧ Nearest fp64 ((d 1).val - (d 1).val) (d 0)) := by
  refine ⟨⟨?_, .inr ⟨-1, ?_, ?_, 2 ^ 23, ?_, ?_, ?_, ?_⟩⟩, ⟨?_, .inr ⟨1, ?_, ?_, 2 ^ 23, ?_, ?_, ?_, ?_⟩⟩, ⟨?_, .inr ⟨1, ?_, ?_, 2 ^ 23, ?_, ?_, ?_, ?_⟩⟩,
    ⟨?_, .inr ⟨2, ?_, ?_, 2 ^ 23, ?_, ?_, ?_, ?_⟩⟩, ⟨?_, .inr ⟨1, ?_, ?_, 2 ^ 23, ?_, ?_, ?_, ?_⟩⟩, ⟨?_, .inl ?_⟩⟩
  all_goals norm_num [Dy.val, fp32, fp64, Fmt.value, Fmt.maxFinite, abs_of_pos, abs_of_neg]

/-- Reconstruction: a NaN after values, distances of which the smallest comes once and twice, and outputs of each kind. -/
theorem witness_Reconstruction_outputs :
    (let x : Axis := ⟨⟨0, 0, 0⟩, ⟨3, 0, 0⟩, 1, 0, 3⟩
     let f : Fp × Fmt := (.fin Dy.zero, fp32)
     let nan : Fp × Fmt := (.nan true true 5, fp32)
     (([(x, f, nan)] : List (Axis × (Fp × Fmt) × (Fp × Fmt))).flatMap fun q => [q.2.1, q.2.2]) = [f] ++ nan :: [] ∧ f.1.isNan = false ∧
       nan.1.isNan = true ∧
     (([(x, 7, 8), ({ x with t := 2 }, 9, 5)] : List (Axis × Nat × Nat)).flatMap fun q => [(q.1.t - q.1.ta, q.2.1), (q.1.tb - q.1.t, q.2.2)]) =
       [] ++ (1, 7) :: [(2, 8), (2, 9), (1, 5)] ∧ tagNum 0x50 = .float e4m3 ∧ (0xB0 : BitVec 8) ≠ 0xA0 ∧ tagScaled 0x87 = true ∧ 64 % 32 = 0) := by
  decide

/-- AddressRules: the first and the last byte of another text that the block's slot maps. -/
theorem witness_AddressRules_maps :
    (let x : Slot := { resident with maps := [⟨0x8000, 0x1000, 0x2000⟩] }
     let s : State := scheduling [(0, block 0)] [] [] { part1 with slots := [(0, x)] }
     slotOfBlock s (s.block 0) = some x ∧ (⟨0x8000, 0x1000, 0x2000⟩ : TextMap) ∈ x.maps ∧ canonical 0x8000 = true ∧ canonical 0x8FFF = true ∧
       (0x8FFF : Word).toNat / 2 ^ 48 ≠ 15 ∧ (0x8FFF : Word).toNat < 0x8000 + 0x1000) ∧
    (let b : Block := { block 0 with mig := { (block 0).mig with lcore := 5 } }
     (((0xF_0000_0520_0000 : Word).extractLsb' 24 24).toNat = b.mig.lcore.toNat ∧ b.core ≠ 5)) := by
  decide +kernel

/-- Failures: a core that a failed block could go to, whose count has not come to that of the block's core. -/
theorem witness_Failures_waits :
    (let bad := recorded fun b => { b with
       status := .failed
       faultCore := some 0 }
     let s : State := { scheduling [(0, bad)] [(0, busy 0)] [] { part1 with clusters := [12] } with time := (Vector.replicate 8 (0 : Word)).set 0 5 }
     chooseCore s (s.part 1) (replayCores s bad) = some 128 ∧ reached (s.now 128) (s.now bad.core) = false ∧ bad.failures < 3) := by
  decide +kernel

end Sys2Proof.Tests
end

/-! # Every step keeps every memory in its canonical form

`State.memOk` looks at four fields of the state. Most functions of the model change none of them: their lemma is an equation
`(f s).memOk = s.memOk`. The others write memories through the operations of `Store` and `Memory`, each of which keeps the
canonical form: their lemma says that `(f s).memOk` holds where `s.memOk` does. -/

section
/-! ## Lists keyed by a number -/
namespace Sys2Proof.Machine

/-- Every value of a list keyed by a number passes a check. -/
def valuesOk {α : Type} (ok : α → Bool) (l : List (Nat × α)) : Bool := l.all fun p => ok p.2

section
variable {α : Type} {ok : α → Bool} {l : List (Nat × α)} {n : Nat} {x : α}

@[simp] theorem valuesOk_nil : valuesOk ok [] = true := rfl

@[simp] theorem valuesOk_cons {p : Nat × α} : valuesOk ok (p :: l) = (ok p.2 && valuesOk ok l) := rfl

theorem valuesOk_iff : valuesOk ok l = true ↔ ∀ p ∈ l, ok p.2 = true := List.all_eq_true

theorem valuesOk_putKey (hl : valuesOk ok l = true) (hx : ok x = true) : valuesOk ok (putKey l n x) = true := by
  induction l with
  | nil => simp [putKey, hx]
  | cons p r ih =>
    obtain ⟨hp, hr⟩ : ok p.2 = true ∧ valuesOk ok r = true := by simpa using hl
    simp only [putKey]
    split
    · simp [hp, ih hr]
    · split <;> simp [hp, hr, hx]

theorem ok_of_getKey (hl : valuesOk ok l = true) (h : getKey l n = some x) : ok x = true := by
  induction l with
  | nil => simp [getKey] at h
  | cons p r ih =>
    obtain ⟨hp, hr⟩ : ok p.2 = true ∧ valuesOk ok r = true := by simpa using hl
    simp only [getKey] at h
    split at h
    · rwa [← Option.some.inj h]
    · exact ih hr h

theorem ok_getKey_getD {d : α} (hl : valuesOk ok l = true) (hd : ok d = true) : ok ((getKey l n).getD d) = true := by
  cases h : getKey l n with
  | none => exact hd
  | some x => exact ok_of_getKey hl h

theorem valuesOk_filter {f : Nat × α → Bool} (hl : valuesOk ok l = true) : valuesOk ok (l.filter f) = true := by
  rw [valuesOk_iff] at hl ⊢
  exact fun p hp => hl p (List.mem_of_mem_filter hp)

theorem valuesOk_dropKey (hl : valuesOk ok l = true) : valuesOk ok (dropKey l n) = true := valuesOk_filter hl

theorem valuesOk_map {f : Nat × α → Nat × α} (hl : valuesOk ok l = true) (hf : ∀ p, ok p.2 = true → ok (f p).2 = true) :
    valuesOk ok (l.map f) = true := by
  rw [valuesOk_iff] at hl ⊢
  intro p hp
  obtain ⟨q, hq, rfl⟩ := List.mem_map.mp hp
  exact hf q (hl q hq)

end

end Sys2Proof.Machine
end

section
/-! ## The memories of the parts of the state -/
namespace Sys2Proof.Machine

/-- The blocks of a list hold canonical memories. -/
abbrev blocksOk : List (Nat × Block) → Bool := valuesOk Block.memOk

/-- The partitions of a list hold canonical images. -/
abbrev partsOk : List (Nat × Partition) → Bool := valuesOk Partition.memOk

/-- A slot holds a canonical image. -/
def Slot.memOk (x : Slot) : Bool := x.image.wf

/-- A replay record, if there is one, holds a canonical scratchpad. -/
def replayOk (r : Option Replay) : Bool := match r with | some r => r.pad.wf | none => true

@[simp] theorem replayOk_some {r : Replay} : replayOk (some r) = r.pad.wf := rfl
@[simp] theorem replayOk_none : replayOk none = true := rfl

/-! The predicates of a record in terms of its fields. -/

@[simp] theorem State.memOk_mk {ag blk cur blocks cores mem time receivers hostLines holds parts launches nextLaunch nextBlock
    requests queues vfmap completions pcmds capDue nonce hypKey hypLock rungs rungDone reloading latched downClusters dev
    p1root p1used fabid fabLock froutes exports links joined synced launched lastSync lastSlew withheld stalled members posts
    islands windowAt stepAt totals thermalHold corrected mirrorReads engWalks walkQueue served unTaken outgoing lastSent
    keptWindows weldCounts coolants outbox free agenda turn} :
    (State.mk ag blk cur blocks cores mem time receivers hostLines holds parts launches nextLaunch nextBlock
      requests queues vfmap completions pcmds capDue nonce hypKey hypLock rungs rungDone reloading latched downClusters dev
      p1root p1used fabid fabLock froutes exports links joined synced launched lastSync lastSlew withheld stalled members posts
      islands windowAt stepAt totals thermalHold corrected mirrorReads engWalks walkQueue served unTaken outgoing lastSent
      keptWindows weldCounts coolants outbox free agenda turn).memOk =
      (mem.wf && blk.memOk && blocksOk blocks && partsOk parts) := rfl

@[simp] theorem Block.memOk_mk {launch stage inst part tenant isa prio core slot status placed suspended agents tiles accs pad
    sprows ports chans mig reloc textVa textSize text textFrames startTick ttF ttC replay replaying failures claimed copies
    migrating trigger migChecked faultCore works savedTiles savedAccs savedVecs} :
    (Block.mk launch stage inst part tenant isa prio core slot status placed suspended agents tiles accs pad
      sprows ports chans mig reloc textVa textSize text textFrames startTick ttF ttC replay replaying failures claimed copies
      migrating trigger migChecked faultCore works savedTiles savedAccs savedVecs).memOk =
      (pad.wf && text.wf && replayOk replay) := rfl

@[simp] theorem Partition.memOk_mk {id level parent sliced offline clusters ranges isa priv ttroot capb covctl table chrate
    links linkrate tweight quota active overshoot sliceEnd stoppedAt weldAt weldOpen slots windows} :
    (Partition.mk id level parent sliced offline clusters ranges isa priv ttroot capb covctl table chrate
      links linkrate tweight quota active overshoot sliceEnd stoppedAt weldAt weldOpen slots windows).memOk =
      valuesOk Slot.memOk slots := rfl

@[simp] theorem Slot.memOk_mk {st owners evicts size nbuf buckets bkt image frames maps lnum fracs} :
    (Slot.mk st owners evicts size nbuf buckets bkt image frames maps lnum fracs).memOk = image.wf := rfl

theorem State.memOk_iff (s : State) :
    s.memOk = true ↔ s.mem.wf = true ∧ s.blk.memOk = true ∧ blocksOk s.blocks = true ∧ partsOk s.parts = true := by
  cases s
  simp [and_assoc]

theorem Block.memOk_iff (b : Block) : b.memOk = true ↔ b.pad.wf = true ∧ b.text.wf = true ∧ replayOk b.replay = true := by
  cases b
  simp [and_assoc]

@[simp] theorem State.memOk_ite {c : Prop} [Decidable c] {s t : State} :
    (if c then s else t).memOk = if c then s.memOk else t.memOk := apply_ite ..

@[simp] theorem Block.memOk_ite {c : Prop} [Decidable c] {a b : Block} :
    (if c then a else b).memOk = if c then a.memOk else b.memOk := apply_ite ..

@[simp] theorem Partition.memOk_ite {c : Prop} [Decidable c] {p q : Partition} :
    (if c then p else q).memOk = if c then p.memOk else q.memOk := apply_ite ..

@[simp] theorem Slot.memOk_ite {c : Prop} [Decidable c] {x y : Slot} :
    (if c then x else y).memOk = if c then x.memOk else y.memOk := apply_ite ..

@[simp] theorem Store.wf_ite {c : Prop} [Decidable c] {m n : Store} :
    (if c then m else n).wf = if c then m.wf else n.wf := apply_ite ..

/-! What the predicates say of the fields. -/

section
variable {b : Block}

@[simp] theorem Block.pad_wf (h : b.memOk = true) : b.pad.wf = true := ((Block.memOk_iff b).mp h).1
@[simp] theorem Block.text_wf (h : b.memOk = true) : b.text.wf = true := ((Block.memOk_iff b).mp h).2.1
@[simp] theorem Block.replay_ok (h : b.memOk = true) : replayOk b.replay = true := ((Block.memOk_iff b).mp h).2.2
@[simp] theorem Partition.slots_ok {p : Partition} (h : p.memOk = true) : valuesOk Slot.memOk p.slots = true := h
@[simp] theorem Slot.image_wf {x : Slot} (h : x.memOk = true) : x.image.wf = true := h

end

section
variable {s : State}

@[simp] theorem State.mem_wf (h : s.memOk = true) : s.mem.wf = true := ((State.memOk_iff s).mp h).1
@[simp] theorem State.blk_memOk (h : s.memOk = true) : s.blk.memOk = true := ((State.memOk_iff s).mp h).2.1
@[simp] theorem State.blocks_ok (h : s.memOk = true) : blocksOk s.blocks = true := ((State.memOk_iff s).mp h).2.2.1
@[simp] theorem State.parts_ok (h : s.memOk = true) : partsOk s.parts = true := ((State.memOk_iff s).mp h).2.2.2
@[simp] theorem State.pad_wf (h : s.memOk = true) : s.blk.pad.wf = true := Block.pad_wf (State.blk_memOk h)
@[simp] theorem State.text_wf (h : s.memOk = true) : s.blk.text.wf = true := Block.text_wf (State.blk_memOk h)
@[simp] theorem State.replay_ok (h : s.memOk = true) : replayOk s.blk.replay = true := Block.replay_ok (State.blk_memOk h)

@[simp] theorem Block.reset_memOk : Block.reset.memOk = true := rfl
@[simp] theorem Partition.reset_memOk : Partition.reset.memOk = true := rfl
@[simp] theorem State.reset_memOk : State.reset.memOk = true := rfl

@[simp] theorem State.block_memOk {b : Nat} (h : s.memOk = true) : (s.block b).memOk = true :=
  ok_getKey_getD (State.blocks_ok h) Block.reset_memOk

@[simp] theorem State.part_memOk {p : Nat} (h : s.memOk = true) : (s.part p).memOk = true :=
  ok_getKey_getD (State.parts_ok h) Partition.reset_memOk

@[simp] theorem State.part_slots_ok {p : Nat} (h : s.memOk = true) : valuesOk Slot.memOk (s.part p).slots = true :=
  Partition.slots_ok (State.part_memOk h)

theorem State.memOk_of_getKey {n : Nat} {b : Block} (h : s.memOk = true) (hb : getKey s.blocks n = some b) : b.memOk = true :=
  ok_of_getKey (State.blocks_ok h) hb

theorem State.part_memOk_of_getKey {n : Nat} {p : Partition} (h : s.memOk = true) (hp : getKey s.parts n = some p) :
    p.memOk = true := ok_of_getKey (State.parts_ok h) hp

theorem State.slot_memOk_of_getKey {n k : Nat} {x : Slot} (h : s.memOk = true) (hx : getKey (s.part n).slots k = some x) :
    x.memOk = true := ok_of_getKey (State.part_slots_ok h) hx

/-- The meaning of an instruction, as a state. -/
theorem effect_memOk_of_exec {i : Instr} {t : State} (h : exec i s = .next t) (ht : t.memOk = true) :
    (effect i s).memOk = true := by
  simpa only [effect, h] using ht

/-! ## The named updates of the state -/

@[simp] theorem State.setAg_memOk {a : Agent} : (s.setAg a).memOk = s.memOk := rfl
@[simp] theorem State.setCtl_memOk {c : Ctl} : (s.setCtl c).memOk = s.memOk := rfl
@[simp] theorem State.setDisp_memOk {d : Disp} : (s.setDisp d).memOk = s.memOk := rfl
@[simp] theorem State.issued_memOk : s.issued.memOk = s.memOk := rfl
@[simp] theorem State.waits_memOk : s.waits.memOk = s.memOk := rfl
@[simp] theorem State.setCore_memOk {n : Nat} {c : Core} : (s.setCore n c).memOk = s.memOk := rfl
@[simp] theorem State.setLaunch_memOk {n : Nat} {l : Launch} : (s.setLaunch n l).memOk = s.memOk := rfl
@[simp] theorem State.setQueue_memOk {n : Nat} {q : Queue} : (s.setQueue n q).memOk = s.memOk := rfl
@[simp] theorem State.setLink_memOk {i : Fin 16} {l : Link} : (s.setLink i l).memOk = s.memOk := rfl

@[simp] theorem State.setBlk_memOk {b : Block} (hs : s.memOk = true) (hb : b.memOk = true) : (s.setBlk b).memOk = true := by
  simp [State.setBlk, hs, hb]

/-- A change of other fields of the block in focus is no change of its memories. -/
@[simp high] theorem State.setBlk_mk_memOk {launch stage inst part tenant isa prio core slot status placed suspended agents tiles
    accs sprows ports chans mig reloc textVa textSize textFrames startTick ttF ttC replaying failures claimed copies
    migrating trigger migChecked faultCore works savedTiles savedAccs savedVecs} :
    (s.setBlk (Block.mk launch stage inst part tenant isa prio core slot status placed suspended agents tiles accs s.blk.pad
      sprows ports chans mig reloc textVa textSize s.blk.text textFrames startTick ttF ttC s.blk.replay replaying failures
      claimed copies migrating trigger migChecked faultCore works savedTiles savedAccs savedVecs)).memOk = s.memOk := rfl

/-- A change of other fields of the state is no change of its memories. -/
@[simp high] theorem State.memOk_mk_same {ag cur cores time receivers hostLines holds launches nextLaunch nextBlock
    requests queues vfmap completions pcmds capDue nonce hypKey hypLock rungs rungDone reloading latched downClusters dev
    p1root p1used fabid fabLock froutes exports links joined synced launched lastSync lastSlew withheld stalled members posts
    islands windowAt stepAt totals thermalHold corrected mirrorReads engWalks walkQueue served unTaken outgoing lastSent
    keptWindows weldCounts coolants outbox free agenda turn} :
    (State.mk ag s.blk cur s.blocks cores s.mem time receivers hostLines holds s.parts launches nextLaunch nextBlock
      requests queues vfmap completions pcmds capDue nonce hypKey hypLock rungs rungDone reloading latched downClusters dev
      p1root p1used fabid fabLock froutes exports links joined synced launched lastSync lastSlew withheld stalled members posts
      islands windowAt stepAt totals thermalHold corrected mirrorReads engWalks walkQueue served unTaken outgoing lastSent
      keptWindows weldCounts coolants outbox free agenda turn).memOk = s.memOk := rfl

@[simp] theorem State.setBlock_memOk {n : Nat} {b : Block} (hs : s.memOk = true) (hb : b.memOk = true) :
    (s.setBlock n b).memOk = true := by
  simp [State.setBlock, hs, hb, valuesOk_putKey]

@[simp] theorem State.setPart_memOk {n : Nat} {p : Partition} (hs : s.memOk = true) (hp : p.memOk = true) :
    (s.setPart n p).memOk = true := by
  simp [State.setPart, hs, hp, valuesOk_putKey]

/-- The scratchpad of the block in focus is replaced. -/
theorem State.memOk_setPad {m : Store} {a : Agent} (hs : s.memOk = true) (hm : m.wf = true) :
    { s with blk := { s.blk with pad := m }, ag := a }.memOk = true := by
  simp [hs, hm]

/-- A fold of steps that keep the canonical form keeps it, whatever the fold carries beside the state. -/
theorem foldl_fst_memOk {α β : Type} {f : State × β → α → State × β} {l : List α} {p : State × β} (hp : p.1.memOk = true)
    (hf : ∀ q x, q.1.memOk = true → (f q x).1.memOk = true) : (l.foldl f p).1.memOk = true := by
  induction l generalizing p with
  | nil => exact hp
  | cons x r ih => exact ih (hf p x hp)

theorem foldl_memOk {α : Type} {f : State → α → State} {l : List α} (hs : s.memOk = true)
    (hf : ∀ t x, t.memOk = true → (f t x).memOk = true) : (l.foldl f s).memOk = true := by
  induction l generalizing s with
  | nil => exact hs
  | cons x r ih => exact ih (hf s x hs)

/-- A fold of steps that change no memory changes none. -/
theorem foldl_memOk_eq {α : Type} {f : State → α → State} {l : List α} (hf : ∀ t x, (f t x).memOk = t.memOk) :
    (l.foldl f s).memOk = s.memOk := by
  induction l generalizing s with
  | nil => rfl
  | cons x r ih => exact ih.trans (hf s x)

theorem foldl_fst_memOk_eq {α β : Type} {f : State × β → α → State × β} {l : List α} {p : State × β}
    (hf : ∀ q x, (f q x).1.memOk = q.1.memOk) : (l.foldl f p).1.memOk = p.1.memOk := by
  induction l generalizing p with
  | nil => rfl
  | cons x r ih => exact ih.trans (hf p x)

theorem foldl_block_memOk_eq {α : Type} {f : Block → α → Block} {l : List α} {b : Block}
    (hf : ∀ c x, (f c x).memOk = c.memOk) : (l.foldl f b).memOk = b.memOk := by
  induction l generalizing b with
  | nil => rfl
  | cons x r ih => exact ih.trans (hf b x)

theorem foldl_block_memOk {α : Type} {f : Block → α → Block} {l : List α} {b : Block} (hb : b.memOk = true)
    (hf : ∀ c x, c.memOk = true → (f c x).memOk = true) : (l.foldl f b).memOk = true := by
  induction l generalizing b with
  | nil => exact hb
  | cons x r ih => exact ih (hf b x hb)

end

end Sys2Proof.Machine
end

section
/-! ## Shared operations of the state (Machine/Ops) -/
namespace Sys2Proof.Machine
variable {s : State}

theorem Store.copyIn_wf : ∀ (n : Nat) (m : Store) (a : Nat) (x : Memory) (i : Nat), m.wf = true → (m.copyIn a x n i).wf = true
  | 0, _, _, _, _, h => h
  | n + 1, m, a, x, i, h => Store.copyIn_wf n _ a x (i + 1) (Store.writeByte_wf m _ _ h)

theorem frameRows_wf : ∀ (l : List Latch) (base i : Nat) (m : Store), m.wf = true → (frameRows base l i m).wf = true
  | [], _, _, _, h => h
  | l :: r, base, i, m, h => by
    refine frameRows_wf r base (i + 1) _ ?_
    split
    · exact Store.writeWords_wf _ _ _ _ _ h
    · exact h

theorem raiseRems_wf : ∀ (k : Nat) (m : Store) (base n : Nat), m.wf = true → (raiseRems m base n k).wf = true
  | 0, _, _, _, h => h
  | k + 1, m, base, n, h => by
    refine raiseRems_wf k _ base n ?_
    split
    · exact h
    · exact Store.setGranule_wf _ _ _ (Store.setByte_wf _ _ _ h)

@[simp] theorem State.putS_memOk {d : SReg} {v : Word} {srcs : List RegName} : (State.putS s d v srcs).memOk = s.memOk := rfl

@[simp] theorem State.putP_memOk {d : PReg} {v : Bool} {srcs : List RegName} : (State.putP s d v srcs).memOk = s.memOk := rfl

@[simp] theorem State.putK_memOk {d : KReg} {v : Word} {lat : Nat} {srcs : List RegName} {f : Flags} :
    (State.putK s d v lat srcs f).memOk = s.memOk := rfl

@[simp] theorem State.putV_memOk {d : VReg} {v : VWord} {lat : Nat} {srcs : List RegName} {f : Flags} :
    (State.putV s d v lat srcs f).memOk = s.memOk := rfl

@[simp] theorem sampleTimers_memOk (hs : s.memOk = true) : (sampleTimers s).memOk = true := by
  simp only [sampleTimers, State.memOk_mk, State.mem_wf hs, State.blk_memOk hs, State.parts_ok hs, Bool.true_and, Bool.and_true]
  exact valuesOk_map (State.blocks_ok hs) fun _ hp => hp
@[simp] theorem sendOn_memOk {i : Fin 16} {links : BitVec 16} {f : Flit} : (sendOn s i links f).memOk = s.memOk := rfl

theorem sendNext_memOk {t : State} {before : List (BitVec 16 × Flit)} {x : BitVec 16 × Flit}
    (h : sendNext s before x = some t) : t.memOk = s.memOk := by
  simp only [sendNext] at h
  split at h
  · simp at h
  · split at h
    · split at h
      · rw [← Option.some.inj h, sendOn_memOk]
      · simp at h
    · simp at h

@[simp] theorem flush_memOk : (flush s).memOk = s.memOk := by
  show (List.foldl _ (s, []) s.outgoing).1.memOk = s.memOk
  refine foldl_fst_memOk_eq fun q x => ?_
  split
  · exact sendNext_memOk ‹_›
  · rfl
@[simp] theorem sendTo_memOk {links : BitVec 16} {f : Flit} : (sendTo s links f).memOk = s.memOk := by simp [sendTo]

@[simp] theorem State.stall_memOk {part pkg : Nat} : (State.stall s part pkg).memOk = s.memOk := by simp [State.stall]

@[simp] theorem withRoute_memOk {part pa : Nat} {f : State → State} (hs : s.memOk = true)
    (hf : ∀ t, t.memOk = true → (f t).memOk = true) : (withRoute s part pa f).memOk = true := by
  simp only [withRoute]
  repeat' split
  all_goals simp [hs, hf]

@[simp] theorem stallLeaf_memOk {p : Partition} {e : TlbEntry} {va : Word} : (stallLeaf s p e va).memOk = s.memOk := by
  simp only [stallLeaf]
  split <;> simp

@[simp] theorem State.snoop_memOk {pa n : Nat} : (State.snoop s pa n).memOk = s.memOk := rfl

@[simp] theorem readStep_memOk {p : Partition} {k : EngWalk} : (readStep s p k).1.memOk = s.memOk := by
  unfold readStep
  split <;> rfl

@[simp] theorem engStep_memOk {p : Partition} {va : Word} : (engStep s p va).memOk = s.memOk := by
  simp only [engStep]
  split <;> simp

@[simp] theorem withPages_memOk {pages : List (Partition × Word)} {go : State → State} (hs : s.memOk = true)
    (hgo : ∀ t, t.memOk = true → (go t).memOk = true) : (withPages s pages go).memOk = true := by
  simp only [withPages]
  split
  · simp [hs]
  · exact hgo s hs

@[simp] theorem withWalks_memOk {p : Partition} {pages : List Word} {go : State → State} (hs : s.memOk = true)
    (hgo : ∀ t, t.memOk = true → (go t).memOk = true) : (withWalks s p pages go).memOk = true := by
  simp +contextual [withWalks, hs, hgo]

@[simp] theorem State.write_memOk {pa n : Nat} {f : Store → Store} (hs : s.memOk = true)
    (hf : ∀ x0, x0.wf = true → (f x0).wf = true) : (State.write s pa n f).memOk = true := by
  simp [State.write, hs, hf]

@[simp] theorem State.snoopLoc_memOk {l : Loc} {n : Nat} : (State.snoopLoc s l n).memOk = s.memOk := by
  unfold State.snoopLoc
  split <;> rfl

@[simp] theorem writeLoc_memOk {l : Loc} {n v : Nat} {p : Bool} (hs : s.memOk = true) : (writeLoc s l n v p).memOk = true := by
  simp only [writeLoc]
  split
  · exact State.memOk_setPad hs (Store.writeWords_wf _ _ _ _ _ (State.pad_wf hs))
  · exact hs
  all_goals exact State.write_memOk hs fun m hm => Store.writeWords_wf m _ _ _ _ hm

@[simp] theorem writeLocLanes_memOk {l : Loc} {mask v : Nat} {p : Bool} (hs : s.memOk = true) :
    (writeLocLanes s l mask v p).memOk = true := by
  simp only [writeLocLanes]
  split
  · exact State.memOk_setPad hs (Store.writeLanes_wf _ _ _ _ _ _ _ (State.pad_wf hs))
  · exact hs
  all_goals exact State.write_memOk hs fun m hm => Store.writeLanes_wf _ m _ _ _ _ _ hm

@[simp] theorem State.settle_memOk {core : Nat} : (State.settle s core).memOk = s.memOk := by simp [State.settle]

@[simp] theorem State.atHome_memOk {f : State → State} (hs : s.memOk = true)
    (hf : ∀ t, t.memOk = true → (f t).memOk = true) : (State.atHome s f).memOk = true := by
  simp [State.atHome, hs, hf]

@[simp] theorem State.grantLeases_memOk {core : Nat} {lines : List Nat} : (s.grantLeases core lines).memOk = s.memOk :=
  foldl_memOk_eq fun _ _ => rfl

@[simp] theorem homeLoad_memOk {l : Loc} {n : Nat} : (homeLoad s l n).memOk = s.memOk := by
  simp only [homeLoad]
  split <;> simp

@[simp] theorem loadFrom_memOk {l : Loc} {n mask : Nat} : (loadFrom s l n mask).1.memOk = s.memOk := by
  simp only [loadFrom]
  split <;> simp

@[simp] theorem withLocRoute_memOk {l : Loc} {f : State → State} (hs : s.memOk = true)
    (hf : ∀ t, t.memOk = true → (f t).memOk = true) : (withLocRoute s l f).memOk = true := by
  simp only [withLocRoute]
  split <;> simp +contextual [hs, hf]

@[simp] theorem coreFaultHere_memOk {fcode : BitVec 8} : (coreFaultHere s fcode).memOk = s.memOk := rfl

@[simp] theorem enterTrap_memOk {t : TrapRec} {shadowed : Bool} (hs : s.memOk = true) :
    (enterTrap s t shadowed).memOk = true := by
  simp only [enterTrap]
  split
  · simp [hs]
  · exact State.memOk_setPad hs
      (frameRows_wf _ _ _ _ (Store.writeWords_wf _ _ _ _ _ (Store.writeWords_wf _ _ _ _ _ (State.pad_wf hs))))

@[simp] theorem raiseAt_memOk {code : BitVec 8} {isAsync : Bool} {epc tval : Word} {rep : Nat} (hs : s.memOk = true) :
    (raiseAt s code isAsync epc tval rep).memOk = true := by
  simp [raiseAt, hs]

@[simp] theorem State.raise_memOk {code : BitVec 8} {tval : Word} (hs : s.memOk = true) :
    (State.raise s code tval).memOk = true := by
  simp [State.raise, hs]

@[simp] theorem State.raiseNat_memOk {code : BitVec 8} {n : Nat} (hs : s.memOk = true) :
    (State.raiseNat s code n).memOk = true := by
  simp [State.raiseNat, hs]

@[simp] theorem State.checkPoison_memOk {l : List RegName} {f : State → State} (hs : s.memOk = true)
    (hf : ∀ t, t.memOk = true → (f t).memOk = true) : (State.checkPoison s l f).memOk = true := by
  simp only [State.checkPoison]
  split <;> simp [hs, hf]

@[simp] theorem returnTrap_memOk (hs : s.memOk = true) : (returnTrap s).memOk = true := by
  simp only [returnTrap]
  split
  · exact hs
  · split
    · exact State.memOk_setPad hs (Store.writeWords_wf _ _ _ _ _ (raiseRems_wf _ _ _ _ (State.pad_wf hs)))
    · exact hs

end Sys2Proof.Machine
end

section
/-! ## Banks, the issue of a word and its accesses (Machine/Operands to Machine/Scalar) -/
namespace Sys2Proof.Machine
variable {s : State}

@[simp] theorem Block.setTile_memOk {b : Block} {t : Nat} {x : Tile} : (Block.setTile b t x).memOk = b.memOk := rfl

@[simp] theorem Block.setAcc_memOk {b : Block} {n : Nat} {x : Accum} : (Block.setAcc b n x).memOk = b.memOk := rfl

@[simp] theorem Block.setMd_memOk {b : Block} {r : Nat} {m : Meta} : (Block.setMd b r m).memOk = b.memOk := by
  simp [Block.setMd]

@[simp] theorem Block.saveBank_memOk {b : Block} {kind bank : Nat} {vec : Vector VWord 16 × BitVec 16} :
    (Block.saveBank b kind bank vec).memOk = b.memOk := by
  unfold Block.saveBank
  split <;> rfl

@[simp] theorem Block.loadBank_memOk {b : Block} {kind bank : Nat} : (Block.loadBank b kind bank).memOk = b.memOk := by
  unfold Block.loadBank
  split <;> rfl

@[simp] theorem State.viewAgent_memOk {w : Nat} {a : Agent} : (State.viewAgent s w a).memOk = s.memOk := rfl

@[simp] theorem withBanks_memOk {i : Instr} {off : Bool} {f : State → State} (hs : s.memOk = true)
    (hf : ∀ t, t.memOk = true → (f t).memOk = true) : (withBanks i off s f).memOk = true := by
  simp only [withBanks]
  repeat' split
  all_goals simp [hs, hf]

@[simp] theorem askCore_memOk : (askCore s).memOk = s.memOk := by simp [askCore]

@[simp] theorem settleVerdict_memOk {v : Verdict} (hs : s.memOk = true) : (settleVerdict v s).memOk = true := by
  simp only [settleVerdict]
  split <;> simp [hs]

@[simp] theorem trial_memOk {t : State} (hs : s.memOk = true) (ht : t.memOk = true) : (trial s t).memOk = true := by
  simp [trial, hs, ht]

@[simp] theorem issueBoth_memOk {i : Instr} {offF f : State → State} (hs : s.memOk = true)
    (hoff : ∀ t, t.memOk = true → (offF t).memOk = true) (hf : ∀ t, t.memOk = true → (f t).memOk = true) :
    (issueBoth i s offF f).memOk = true := by
  have hskip : (withBanks i true s offF).memOk = true := withBanks_memOk hs hoff
  have hgo : (withBanks i false s f).memOk = true := withBanks_memOk hs hf
  simp only [issueBoth]
  repeat' split
  all_goals simp [hs, hskip, hgo]

@[simp] theorem advanceGen_memOk {i : Instr} : (advanceGen i s).memOk = s.memOk := by simp [advanceGen]

@[simp] theorem issueWord_memOk {i : Instr} {f : State → State} (hs : s.memOk = true)
    (hf : ∀ t, t.memOk = true → (f t).memOk = true) : (issueWord i s f).memOk = true := by
  simp +contextual [issueWord, hs, hf]

@[simp] theorem issueTile_memOk {i : Instr} {offF f : State → State} (hs : s.memOk = true)
    (hoffF : ∀ t, t.memOk = true → (offF t).memOk = true) (hf : ∀ t, t.memOk = true → (f t).memOk = true) :
    (issueTile i s offF f).memOk = true := by
  simp +contextual [issueTile, hs, hoffF, hf]

@[simp] theorem enter_memOk {b w : Nat} (hs : s.memOk = true) : (enter s b w).memOk = true := by
  simp [enter, hs]

@[simp] theorem leave_memOk (hs : s.memOk = true) : (leave s).memOk = true :=
  (State.memOk_iff _).mpr ⟨State.mem_wf (s := s) hs, Block.reset_memOk, valuesOk_putKey (State.blocks_ok hs) (State.blk_memOk hs),
    State.parts_ok (s := s) hs⟩

@[simp] theorem withAgent_memOk {b w : Nat} {f : State → State} (hs : s.memOk = true)
    (hf : ∀ t, t.memOk = true → (f t).memOk = true) : (withAgent s b w f).memOk = true := by
  simp only [withAgent]
  split
  · exact hs
  · split
    · exact hs
    · exact leave_memOk (hf _ (enter_memOk hs))

@[simp] theorem joinWalks_memOk {va : Word} : (joinWalks s va).memOk = s.memOk := by simp [joinWalks]

@[simp] theorem startWalk_memOk {va : Word} {use : Use} {access : Option Access} {reg : Option RegName} {spec : Bool} :
    (startWalk s va use access reg spec).memOk = s.memOk := by simp [startWalk]

@[simp] theorem startAccess_memOk {va : Word} {use : Use} {kind : AccessKind} {reg : Option RegName} {spec : Bool}
    (hs : s.memOk = true) : (startAccess s va use kind reg spec).memOk = true := by
  simp only [startAccess]
  split <;> simp [hs]

@[simp] theorem noteStart_memOk : (noteStart s).memOk = s.memOk := by
  simp only [noteStart]
  split <;> simp

@[simp] theorem scalar1_memOk {i : Instr} {d a : SReg} {f : Word → Word} (hs : s.memOk = true) :
    (scalar1 i d a f s).memOk = true := by
  simp +contextual [scalar1, hs]

@[simp] theorem scalar2_memOk {i : Instr} {d a b : SReg} {f : Word → Word → Word} (hs : s.memOk = true) :
    (scalar2 i d a b f s).memOk = true := by
  simp +contextual [scalar2, hs]

@[simp] theorem pred2_memOk {i : Instr} {d : PReg} {a b : SReg} {f : Word → Word → Bool} (hs : s.memOk = true) :
    (pred2 i d a b f s).memOk = true := by
  simp +contextual [pred2, hs]

@[simp] theorem predLogic_memOk {i : Instr} {d a b : PReg} {f : Bool → Bool → Bool} (hs : s.memOk = true) :
    (predLogic i d a b f s).memOk = true := by
  simp +contextual [predLogic, hs]

@[simp] theorem State.later_memOk {r : RegName} {v : VWord} {poison : Bool} :
    (State.later s r v poison).memOk = s.memOk := rfl

@[simp] theorem division_memOk {i : Instr} {d a b : SReg} {f : Word → Word → Word} (hs : s.memOk = true) :
    (division i d a b f s).memOk = true := by
  simp +contextual [division, hs]

@[simp] theorem scalarAccess_memOk {i : Instr} {a : SReg} {off : Imm 29} {use : Use} {kind : State → AccessKind}
    {reg : Option RegName} {spec : Bool} (hs : s.memOk = true) : (scalarAccess i a off use kind reg spec s).memOk = true :=
  issueWord_memOk hs fun _ ht => State.checkPoison_memOk ht fun _ hu => startAccess_memOk hu

@[simp] theorem atomic_memOk {i : Instr} {op : AtomOp} {d a b : SReg} {off : Imm 29} (hs : s.memOk = true) :
    (atomic i op d a b off s).memOk = true := by
  simp [atomic, hs]

@[simp] theorem Block.setPort_memOk {b : Block} {n : Fin 4} {p : Port} : (Block.setPort b n p).memOk = b.memOk := rfl

@[simp] theorem State.portAccess_memOk {k : AccessKind} {reg : Option RegName} :
    (State.portAccess s k reg).memOk = s.memOk := rfl

@[simp] theorem vecResult_memOk {i : Instr} {vd : VReg} {x : VWord × Flags} : (vecResult i vd x s).memOk = s.memOk := rfl

@[simp] theorem floatWord_memOk {i : Instr} {vd va vb : VReg} {m : FMode} {t : VTy} {three : Bool} {op : FOp}
    (hs : s.memOk = true) : (floatWord i vd va vb m t three op s).memOk = true := by
  simp +contextual [floatWord, hs]

@[simp] theorem signWord_memOk {i : Instr} {vd va : VReg} {m : FMode} {t : VTy} {f : Bool → Bool} (hs : s.memOk = true) :
    (signWord i vd va m t f s).memOk = true := by
  simp +contextual [signWord, hs]

@[simp] theorem intWord_memOk {i : Instr} {vd va vb : VReg} {t : VTy} {f : Nat → Nat → Nat} (hs : s.memOk = true) :
    (intWord i vd va vb t f s).memOk = true := by
  simp +contextual [intWord, hs]

@[simp] theorem wholeWord_memOk {i : Instr} {vd va vb : VReg} {f : VWord → VWord → VWord} (hs : s.memOk = true) :
    (wholeWord i vd va vb f s).memOk = true := by
  simp +contextual [wholeWord, hs]

@[simp] theorem transWord_memOk {i : Instr} {vd va : VReg} {m : FMode} {t : VTy} {fn : TransFn} (hs : s.memOk = true) :
    (transWord i vd va m t fn s).memOk = true := by
  simp +contextual [transWord, hs]

@[simp] theorem maskWord_memOk {i : Instr} {d a b : KReg} {f : Word → Word → Word} (hs : s.memOk = true) :
    (maskWord i d a b f s).memOk = true := by
  simp +contextual [maskWord, hs]

end Sys2Proof.Machine
end

section
/-! ## Row accesses, rings and TILE words (Machine/VecMem to Machine/Convert) -/
namespace Sys2Proof.Machine
variable {s : State}

@[simp] theorem rowAccess_memOk {i : Instr} {base : SReg} {k : KReg} {off : BitVec 27} {use : Use}
    {kind : State → AccessKind} {reg : Option RegName} {spec : Bool} (hs : s.memOk = true) :
    (rowAccess i base k off use kind reg spec s).memOk = true :=
  issueWord_memOk hs fun _ ht => State.checkPoison_memOk ht fun _ hu => by simp [hu]

@[simp] theorem rowLoad_memOk {i : Instr} {vd : VReg} {base : SReg} {k : KReg} {off : BitVec 27} {spec : Bool}
    (hs : s.memOk = true) : (rowLoad i vd base k off spec s).memOk = true := by
  simp [rowLoad, hs]

@[simp] theorem gatherWord_memOk {i : Instr} {vd vi : VReg} {base : SReg} {k : KReg} {off : BitVec 27} {load : Bool}
    (hs : s.memOk = true) : (gatherWord i vd vi base k off load s).memOk = true := by
  simp +contextual [gatherWord, hs]

@[simp] theorem gatherFault_memOk {l : Long} {code : BitVec 8} {va : Word} (hs : s.memOk = true) :
    (gatherFault s l code va).memOk = true := by
  simp [gatherFault, hs]

@[simp] theorem walkForLong_memOk {l : Long} {va : Word} {use : Use} : (walkForLong s l va use).memOk = s.memOk := by
  simp [walkForLong]

@[simp] theorem gatherUnit_memOk {l : Long} (hs : s.memOk = true) : (gatherUnit s l).memOk = true := by
  simp only [gatherUnit]
  split
  · simp [hs]
  · simp [hs]
  · refine withLocRoute_memOk hs fun t ht => ?_
    split
    · split <;> simp [ht]
    · have hu := State.atHome_memOk ht fun u hu => writeLoc_memOk (l := ‹Loc›) (n := 1)
        (v := (l.data.extractLsb' (32 * l.unit) 32).toNat) (p := l.poison) hu
      split <;> simpa using hu

theorem pushLanes_wf {r : Ring} {v : VWord} {mask : Word} {poison : Bool} : ∀ (n i : Nat) (m : Word) (p : Store), p.wf = true →
    (pushLanes r v mask poison n i m p).1.wf = true
  | 0, _, _, _, h => h
  | n + 1, i, m, p, h => by
    simp only [pushLanes]
    split
    · exact pushLanes_wf n _ _ _ (Store.writeWords_wf _ _ _ _ _ h)
    · exact pushLanes_wf n _ _ _ h

@[simp] theorem effect_vpushc_memOk {va : VReg} {kc : KReg} {t : VTy} {sd : SReg} (hs : s.memOk = true) :
    (effect (.vpushc va kc t sd) s).memOk = true := by
  refine effect_memOk_of_exec rfl (issueWord_memOk hs fun t ht => State.checkPoison_memOk ht fun u hu => ?_)
  split
  · exact hu
  · split
    · exact State.raise_memOk hu
    · dsimp only
      split
      · exact State.raise_memOk hu
      · split
        · exact hu
        · rw [State.issued_memOk]
          exact State.memOk_setPad hu (Store.writeWords_wf _ _ _ _ _ (pushLanes_wf _ _ _ _ (State.pad_wf hu)))

@[simp] theorem effect_vpopc_memOk {vd : VReg} {t : VTy} {sd : SReg} (hs : s.memOk = true) :
    (effect (.vpopc vd t sd) s).memOk = true := by
  refine effect_memOk_of_exec rfl (issueWord_memOk hs fun t ht => State.checkPoison_memOk ht fun u hu => ?_)
  split
  · exact hu
  · split
    · exact State.raise_memOk hu
    · simp only [State.later_memOk]
      refine State.memOk_setPad hu ?_
      split
      · exact State.pad_wf hu
      · exact Store.writeWords_wf _ _ _ _ _ (State.pad_wf hu)

@[simp] theorem withItem_memOk {h : HReg} {o : Fin 4} {f : Opnd → State → State} (hs : s.memOk = true)
    (hf : ∀ x0 t, t.memOk = true → (f x0 t).memOk = true) : (withItem h o s f).memOk = true := by
  simp only [withItem]
  repeat' split
  all_goals simp [hs, hf]

@[simp] theorem State.setVs_memOk : (State.setVs s).memOk = s.memOk := by simp [State.setVs]

@[simp] theorem releaseItem_memOk {off : Bool} {p : Opnd} (hs : s.memOk = true) : (releaseItem off p s).memOk = true := by
  simp [releaseItem, hs]

@[simp] theorem Block.writeMeta_memOk {b : Block} {r : Nat} {m : Meta} : (Block.writeMeta b r m).memOk = b.memOk := by
  simp [Block.writeMeta]

@[simp] theorem Items.counted_memOk {it : Items} {b : Block} : (it.counted b).memOk = b.memOk :=
  foldl_block_memOk_eq fun _ _ => Block.setMd_memOk

@[simp] theorem leaveUnit_memOk : (leaveUnit s).memOk = s.memOk := rfl

@[simp] theorem waitUnit_memOk {i : Instr} : (waitUnit i s).memOk = s.memOk := by simp [waitUnit]

@[simp] theorem occupy_memOk {i : Instr} {j : Job} : (occupy i j s).memOk = s.memOk := rfl

@[simp] theorem Block.writeItem_memOk {b : Block} {d : Opnd} {void poison : Bool} {r : TileRes} :
    (Block.writeItem b d void poison r).memOk = b.memOk := by
  simp only [Block.writeItem]
  repeat' split
  all_goals rfl

@[simp] theorem commitItems_memOk {it : Items} {off void poison : Bool} {r : TileRes} {adv : List HReg} (hs : s.memOk = true) :
    (commitItems it off void poison r adv s).memOk = true := by
  have hb : (it.counted s.blk).memOk = true := Items.counted_memOk.trans (State.blk_memOk hs)
  cases hd : it.dst <;> simp [commitItems, hd, hs, hb]

@[simp] theorem tileOff_memOk {i : Instr} {pair : Block → Items → Bool} (hs : s.memOk = true) :
    (tileOff i pair s).memOk = true := by
  simp only [tileOff]
  split <;> simp [hs]

@[simp] theorem withMove_memOk {i : Instr} {f : Items → State → State} (hs : s.memOk = true)
    (hf : ∀ x0 t, t.memOk = true → (f x0 t).memOk = true) : (withMove i s f).memOk = true := by
  simp only [withMove]
  repeat' split
  all_goals simp [hs, hf]

@[simp] theorem awaitData_memOk {i : Instr} {l : Option Long} {adv : List HReg} {it : Items} (hs : s.memOk = true) :
    (awaitData i l adv it s).memOk = true := by
  simp [awaitData, hs]

@[simp] theorem tileGo_memOk {i : Instr} {nt : Bool} {mask : Word} {comp : Items → State → TileOut} (hs : s.memOk = true) :
    (tileGo i nt mask comp s).memOk = true := by
  refine withMove_memOk hs fun it t ht => ?_
  split
  · simp [ht]
  · simp [ht]
  · simp [ht]
  · dsimp only
    split <;> simp [ht]

@[simp] theorem withMask_memOk {i : Instr} {mask : SReg} {allowed : Word} {wide : Bool} {f : MaskCounts → State → State}
    (hs : s.memOk = true) (hf : ∀ x0 t, t.memOk = true → (f x0 t).memOk = true) :
    (withMask i mask allowed wide s f).memOk = true := by
  simp +contextual [withMask, hs, hf]

@[simp] theorem tileWord_memOk {i : Instr} {comp : Items → State → TileOut} (hs : s.memOk = true) :
    (tileWord i comp s).memOk = true := by
  simp +contextual [tileWord, hs]

@[simp] theorem ttovGo_memOk {i : Instr} {z : Bool} (hs : s.memOk = true) : (ttovGo i z s).memOk = true := by
  simp +contextual [ttovGo, hs]

@[simp] theorem withImageRow_memOk {c : SReg} {f : Nat → State → State} (hs : s.memOk = true)
    (hf : ∀ x0 t, t.memOk = true → (f x0 t).memOk = true) : (withImageRow c s f).memOk = true := by
  simp +contextual [withImageRow, hs, hf]

@[simp] theorem State.holdLong_memOk {l : Long} : (State.holdLong s l).memOk = s.memOk := rfl

@[simp] theorem resumeLong_memOk {l : Long} : (resumeLong l s).memOk = s.memOk := by simp [resumeLong]

@[simp] theorem withFirst_memOk {va : Word} {n : Nat} {use : Use} {f : Loc → Loc → State → State} (hs : s.memOk = true)
    (hf : ∀ x0 x1 t, t.memOk = true → (f x0 x1 t).memOk = true) : (withFirst va n use s f).memOk = true := by
  simp only [withFirst]
  split <;> simp [hs, hf]

@[simp] theorem withIndexRow_memOk {l : Long} {it : Items} {f : Option (Loc × Loc) → State → State} (hs : s.memOk = true)
    (hf : ∀ x0 t, t.memOk = true → (f x0 t).memOk = true) : (withIndexRow l it s f).memOk = true := by
  simp +contextual [withIndexRow, hs, hf]

@[simp] theorem tstsGo_memOk {i : Instr} {c : SReg} (hs : s.memOk = true) : (tstsGo i c s).memOk = true :=
  withImageRow_memOk hs fun _ _ ht => withMove_memOk ht fun _ _ hu => by simp [hu]

@[simp] theorem tldsGo_memOk {i : Instr} {c : SReg} (hs : s.memOk = true) : (tldsGo i c s).memOk = true := by
  refine withImageRow_memOk hs fun r t ht => ?_
  have hmove : ∀ f, (∀ it u, u.memOk = true → (f it u).memOk = true) → (withMove i t f).memOk = true :=
    fun f hf => withMove_memOk ht hf
  dsimp only
  split
  · exact resumeLong_memOk.trans ht
  · split
    · exact State.raise_memOk ht
    · exact hmove _ fun _ _ hu => by simp [hu]

@[simp] theorem tstaGo_memOk {i : Instr} {c mask : SReg} (hs : s.memOk = true) : (tstaGo i c mask s).memOk = true := by
  refine State.checkPoison_memOk hs fun t ht => withMask_memOk ht fun m u hu => ?_
  dsimp only
  split
  · exact State.raise_memOk hu
  · split
    · exact State.raise_memOk hu
    · split
      · exact resumeLong_memOk.trans hu
      · exact withFirst_memOk hu fun _ _ _ hv => withMove_memOk hv fun _ _ hw => by simp [hw]

@[simp] theorem tgathGo_memOk {i : Instr} {c mask : SReg} (hs : s.memOk = true) : (tgathGo i c mask s).memOk = true := by
  refine State.checkPoison_memOk hs fun t ht => withMask_memOk ht fun m u hu => ?_
  dsimp only
  split
  · exact State.raise_memOk hu
  · split
    · exact State.raise_memOk hu
    · split
      · exact resumeLong_memOk.trans hu
      · refine withIndexRow_memOk hu fun _ _ hv => withMove_memOk hv fun _ w hw => ?_
        split
        · exact State.raise_memOk hw
        · split
          · exact State.issued_memOk.trans (occupy_memOk.trans (commitItems_memOk hw))
          · exact State.holdLong_memOk.trans (occupy_memOk.trans (commitItems_memOk hw))

@[simp] theorem maskedWord_memOk {i : Instr} {tm : TMode} {allowed : Word} {pair : Block → Items → Bool}
    {comp : MaskCounts → Items → State → TileOut} (hs : s.memOk = true) : (maskedWord i tm allowed pair comp s).memOk = true :=
  issueTile_memOk hs (fun _ ht => tileOff_memOk ht) fun _ ht => withMask_memOk ht fun _ _ hu => tileGo_memOk hu

@[simp] theorem matrixWord_memOk {i : Instr} {sp : MSpec} {z : Bool} {tm : TMode} (hs : s.memOk = true) :
    (matrixWord i sp z tm s).memOk = true := by
  simp [matrixWord, hs]

@[simp] theorem cvtWord_memOk {i : Instr} {tm : TMode} {comp : MaskCounts → Items → State → TileOut} (hs : s.memOk = true) :
    (cvtWord i tm comp s).memOk = true :=
  issueTile_memOk hs (fun _ ht => tileOff_memOk ht) fun _ ht => withMask_memOk ht fun _ _ hu => tileGo_memOk hu

end Sys2Proof.Machine
end

section
/-! ## Bytes of a partition, the timetable and the end of a block (Machine/Recon to Machine/Boundary) -/
namespace Sys2Proof.Machine
variable {s : State}

/-- A byte with a poison bit of its granule. -/
theorem Store.setByteGranule_wf {m : Store} {a g : Nat} {b : Byte} {p : Bool} (h : m.wf = true) :
    ((m.setByte a b).setGranule g p).wf = true := Store.setGranule_wf _ _ _ (Store.setByte_wf _ _ _ h)

theorem writeBy_memOk {tr : Word → Use → Tr} {poison : Bool} : ∀ (n : Nat) (s t : State) (va : Word) (v : Nat), s.memOk = true →
    writeBy tr s va v poison n = some t → t.memOk = true
  | 0, s, t, va, v, hs, h => by
    rw [← Option.some.inj h]
    exact hs
  | n + 1, s, t, va, v, hs, h => by
    simp only [writeBy] at h
    split at h
    · exact writeBy_memOk n _ t _ _ (State.write_memOk hs fun _ hm => Store.setByteGranule_wf hm) h
    · simp at h

theorem writeBytes_memOk {t : State} {p : Partition} {va : Word} {v n : Nat} {poison : Bool} (hs : s.memOk = true)
    (h : writeBytes s p va v poison n = some t) : t.memOk = true := writeBy_memOk n s t va v hs h

theorem writeBytes_getD_memOk {p : Partition} {va : Word} {v n : Nat} {poison : Bool} (hs : s.memOk = true) :
    ((writeBytes s p va v poison n).getD s).memOk = true := by
  cases h : writeBytes s p va v poison n with
  | none => exact hs
  | some t => exact writeBytes_memOk hs h

@[simp] theorem snoopBy_memOk {tr : Word → Use → Tr} {x : Word × Nat} : (snoopBy tr s x).memOk = s.memOk := by
  simp only [snoopBy]
  split
  · rfl
  · refine foldl_memOk_eq fun t i => ?_
    split <;> rfl

@[simp] theorem State.snoopRead_memOk {p : Partition} {va : Word} {n : Nat} :
    (State.snoopRead s p va n).memOk = s.memOk := by simp [State.snoopRead]

@[simp] theorem fillStep_memOk {tr : Word → Use → Tr} {c : CovRec} {axes : List Axis} {pt : Point} {f : Fill}
    (hs : s.memOk = true) : (fillStep tr s c axes pt f).1.memOk = true := by
  simp only [fillStep]
  split
  · split <;> simp [hs]
  · split
    · split
      · exact writeBy_memOk _ _ _ _ _ hs ‹_›
      · exact hs
    · exact hs

@[simp] theorem writeMapped_memOk {p : Partition} : ∀ {l : List Byte} {va : Word} {s : State}, s.memOk = true →
    (writeMapped p va l s).memOk = true
  | [], _, _, hs => hs
  | _ :: _, _, _, hs => writeMapped_memOk (s := Option.getD _ _) (writeBytes_getD_memOk hs)

@[simp] theorem writeCap_memOk {n : Nat} (hs : s.memOk = true) : (writeCap s n).memOk = true := by
  simp [writeCap, hs]

@[simp] theorem capStep_memOk (hs : s.memOk = true) : (capStep s).memOk = true := by
  simp only [capStep]
  split <;> simp +contextual [hs]

@[simp] theorem Block.setChan_memOk {b : Block} {n : Fin 5} {c : Chan} : (Block.setChan b n c).memOk = b.memOk := rfl

@[simp] theorem dropHint_memOk : (dropHint s).memOk = s.memOk := rfl

@[simp] theorem passCheck_memOk {b : Block} {j : Nat} : (passCheck b j).memOk = b.memOk := rfl

@[simp] theorem releaseHolds_memOk {va : Word} {len : Nat} : (releaseHolds s va len).memOk = s.memOk := by
  unfold releaseHolds
  split <;> rfl

@[simp] theorem fireMove_memOk {j : Nat} {e : TtEntry} : (fireMove s j e).memOk = s.memOk := by
  simp only [fireMove]
  split <;> rfl

@[simp] theorem dropUnchecked_memOk {b : Block} {tt : List TtEntry} : (dropUnchecked b tt).memOk = b.memOk := rfl

@[simp] theorem markEffects_memOk {w marker : Nat} (hs : s.memOk = true) : (markEffects s w marker).memOk = true := by
  have hb : (dropUnchecked s.blk (s.timetable s.blk)).memOk = true := dropUnchecked_memOk.trans (State.blk_memOk hs)
  exact (foldl_memOk_eq fun _ _ => fireMove_memOk).trans
    (State.setBlk_memOk hs ((foldl_block_memOk_eq fun _ _ => passCheck_memOk).trans hb))

theorem Block.record_pad {b : Block} {agents : Vector Agent 5} {now : Word} : (b.record agents now).pad = Store.empty := rfl

@[simp] theorem commitOperator_memOk (hs : s.memOk = true) : (commitOperator s).memOk = true :=
  State.setBlk_memOk hs (by simp [hs, Block.record_pad])

@[simp] theorem Block.scrubbed_memOk {b : Block} (hb : b.memOk = true) : (Block.scrubbed b).memOk = true := by
  simp [Block.scrubbed, hb]

@[simp] theorem testHome_memOk : (testHome s).memOk = s.memOk := by
  unfold testHome
  split <;> simp

@[simp] theorem withdrawDone_memOk {b : Block} : (withdrawDone b).memOk = b.memOk := rfl

@[simp] theorem returnPoints_memOk (hs : s.memOk = true) : (returnPoints s).memOk = true := by
  simp only [returnPoints]
  split
  · exact hs
  · rw [State.setLaunch_memOk]
    split
    · exact hs
    · have hl := valuesOk_map (f := fun p => (p.1, if p.2.launch = s.blk.launch ∧ p.2.stage = s.blk.stage then withdrawDone p.2
        else p.2)) (State.blocks_ok hs) fun p hp => by simp [hp]
      simp [hs, hl]

@[simp] theorem countSlips_memOk {b : Block} {agents : List Agent} : (countSlips s b agents).memOk = s.memOk := by
  simp only [countSlips]
  repeat' split
  all_goals simp

@[simp] theorem addSlips_memOk : (addSlips s).memOk = s.memOk := by simp [addSlips]

@[simp] theorem leaveSlot_memOk : (leaveSlot s).memOk = s.memOk := rfl

@[simp] theorem dropItemMoves_memOk {b : Block} : (dropItemMoves b).memOk = b.memOk := rfl

@[simp] theorem endBlock_memOk (hs : s.memOk = true) : (endBlock s).memOk = true := by
  have ht : (addSlips (returnPoints (leaveSlot s))).memOk = true := by simp [hs]
  have hb := dropItemMoves_memOk.trans (State.blk_memOk ht)
  exact State.setBlk_memOk (s := { addSlips (returnPoints (leaveSlot s)) with requests := _ }) ht hb

@[simp] theorem dropResults_memOk : (dropResults s).memOk = s.memOk := rfl

@[simp] theorem exitAgent_memOk (hs : s.memOk = true) : (exitAgent s).memOk = true := by
  simp [exitAgent, hs]

@[simp] theorem passInterlocks_memOk : ∀ {n : Nat} {s : State}, (passInterlocks n s).memOk = s.memOk
  | 0, _ => rfl
  | n + 1, s => by
    simp only [passInterlocks]
    split
    · exact passInterlocks_memOk
    · rfl

@[simp] theorem raiseNext_memOk {code : BitVec 8} {isAsync : Bool} {epc tval : Word} (hs : s.memOk = true) :
    (raiseNext s code isAsync epc tval).memOk = true := by
  simp [raiseNext, hs]

end Sys2Proof.Machine
end

section
/-! ## Words of the MP, words that wait for data and long instructions (Machine/Move and Machine/Works) -/
namespace Sys2Proof.Machine
variable {s : State}

@[simp] theorem withDesc_memOk {f : SReg} {g : Geo} {need : Option Nat} {k : Desc → Word → State → State} (hs : s.memOk = true)
    (hk : ∀ d next t, t.memOk = true → (k d next t).memOk = true) : (withDesc f g need s k).memOk = true := by
  simp only [withDesc]
  split
  · exact hs
  · refine State.checkPoison_memOk hs fun t ht => ?_
    split
    · exact State.raise_memOk ht
    · simp [ht, hk]

@[simp] theorem withChan_memOk {ch : Fin 4} {k : Chan → State → State} (hs : s.memOk = true)
    (hk : ∀ x0 t, t.memOk = true → (k x0 t).memOk = true) : (withChan ch s k).memOk = true := by
  simp [withChan, hs, hk]

@[simp] theorem startTransfer_memOk {ch : Fin 4} {t : SReg} {x : Transfer} : (startTransfer ch t x s).memOk = s.memOk := rfl

@[simp] theorem advanceDesc_memOk {adv : Bool} {f : SReg} {next : Word} :
    (advanceDesc adv f next s).memOk = s.memOk := by simp [advanceDesc]

@[simp] theorem withRemote_memOk {i : ItemRef} {k : State → State} (hs : s.memOk = true)
    (hk : ∀ t, t.memOk = true → (k t).memOk = true) : (withRemote i s k).memOk = true := by
  simp [withRemote, hs, hk]

@[simp] theorem advanceItems_memOk {l : List TileOp} : (advanceItems l s).memOk = s.memOk := rfl

@[simp] theorem issueCopyt_memOk {i : Instr} {off go : State → State} (hs : s.memOk = true)
    (hoff : ∀ t, t.memOk = true → (off t).memOk = true) (hgo : ∀ t, t.memOk = true → (go t).memOk = true) :
    (issueCopyt i s off go).memOk = true := by
  simp +contextual [issueCopyt, hs, hoff, hgo]

@[simp] theorem hint_memOk {i : Instr} {f : SReg} {len1 : BitVec 12} {kind : HintKind} (hs : s.memOk = true) :
    (hint i f len1 kind s).memOk = true := by
  simp [hint, hs]

@[simp] theorem effect_copy_memOk {t f : SReg} {ch : Fin 4} {geo : Geo} {adv : Bool} (hs : s.memOk = true) :
    (effect (.copy t f ch geo adv) s).memOk = true :=
  effect_memOk_of_exec rfl <| issueWord_memOk hs fun _ ht => withChan_memOk ht fun _ _ hu =>
    withDesc_memOk hu fun _ _ _ hv => by simp [hv]

@[simp] theorem effect_copytIn_memOk {t f : SReg} {ch : Fin 4} {item : TileOp} {tag : BitVec 8} {img : Bool} {bo : Fin 16} {geo : Geo}
    {adv : Bool} (hs : s.memOk = true) : (effect (.copytIn t f ch item tag img bo geo adv) s).memOk = true :=
  effect_memOk_of_exec rfl <| issueCopyt_memOk hs
    (fun _ ht => withRemote_memOk ht fun _ hu => withChan_memOk hu fun _ _ hv => by simp [hv])
    (fun _ ht => withRemote_memOk ht fun _ hu => withChan_memOk hu fun _ _ hv => withDesc_memOk hv fun _ _ _ hw => by simp [hw])

@[simp] theorem effect_copytOut_memOk {t f : SReg} {ch : Fin 4} {item : TileOp} {img : Bool} {geo : Geo} {adv : Bool}
    (hs : s.memOk = true) : (effect (.copytOut t f ch item img geo adv) s).memOk = true :=
  effect_memOk_of_exec rfl <| issueCopyt_memOk hs (fun _ ht => withChan_memOk ht fun _ _ hu => by simp [hu])
    (fun _ ht => withChan_memOk ht fun _ _ hu => withDesc_memOk hu fun _ _ _ hv => by simp [hv])

@[simp] theorem effect_copytXfer_memOk {t : SReg} {ch : Fin 4} {item src : TileOp} {bo : Fin 16} {adv : Bool} (hs : s.memOk = true) :
    (effect (.copytXfer t ch item src bo adv) s).memOk = true :=
  effect_memOk_of_exec rfl <| issueCopyt_memOk hs
    (fun _ ht => withRemote_memOk ht fun _ hu => withChan_memOk hu fun _ _ hv => by simp [hv])
    (fun _ ht => withRemote_memOk ht fun _ hu => withChan_memOk hu fun _ _ hv => by simp [hv])

@[simp] theorem Block.putContent_memOk {b : Block} {r : Nat} {c : Content} : (Block.putContent b r c).memOk = b.memOk := by
  unfold Block.putContent
  split <;> rfl

@[simp] theorem Block.putPartner_memOk {b : Block} {r : Nat} {c : Content} : (Block.putPartner b r c).memOk = b.memOk := by
  unfold Block.putPartner
  split <;> rfl

@[simp] theorem Block.supplyOne_memOk {b : Block} {r : Nat} {x : BitVec 16} {c : Content} :
    (Block.supplyOne b r x c).memOk = b.memOk := by
  simp only [Block.supplyOne]
  repeat' split
  all_goals rfl

@[simp] theorem Block.supply_memOk {b : Block} {r : Nat} {x : BitVec 16} {c : Content} {pair : Bool} :
    (Block.supply b r x c pair).memOk = b.memOk := by
  simp only [Block.supply]
  split <;> simp

@[simp] theorem State.updAgent_memOk {w : Nat} {f : Agent → Agent} : (State.updAgent s w f).memOk = s.memOk := by
  simp [State.updAgent]

@[simp] theorem finishCheck_memOk {w : Work} : (finishCheck w s).memOk = s.memOk :=
  State.updAgent_memOk

@[simp] theorem finishWork_memOk {w : Work} (hs : s.memOk = true) : (finishWork w s).memOk = true := by
  simp [finishWork, hs]

@[simp] theorem settleWorks_memOk : ∀ {n : Nat} {s : State}, s.memOk = true → (settleWorks n s).memOk = true
  | 0, _, hs => hs
  | n + 1, s, hs => by
    simp only [settleWorks]
    split
    · exact hs
    · exact settleWorks_memOk (finishWork_memOk (by simp [hs]))

@[simp] theorem produced_memOk {r : Nat} {x : BitVec 16} {c : Content} (hs : s.memOk = true) : (produced r x c s).memOk = true :=
  settleWorks_memOk (State.setBlk_memOk hs (Block.supply_memOk.trans (State.blk_memOk hs)))

@[simp] theorem longDone_memOk {l : Long} (hs : s.memOk = true) : (longDone s l).memOk = true := by
  simp [longDone, hs]

@[simp] theorem unitDone_memOk {l : Long} (hs : s.memOk = true) : (unitDone s l).memOk = true := by
  simp [unitDone, hs]

@[simp] theorem longStop_memOk {l : Long} {code : BitVec 8} {va : Word} (hs : s.memOk = true) :
    (longStop s l code va).memOk = true := by
  simp [longStop, hs]

@[simp] theorem tldsUnit_memOk {l : Long} (hs : s.memOk = true) : (tldsUnit s l).memOk = true := by
  simp [tldsUnit, hs]

@[simp] theorem writeByteAt_memOk {l : Loc} {v : Byte} (hs : s.memOk = true) : (writeByteAt s l v).memOk = true := by
  simp only [writeByteAt]
  split
  · exact State.memOk_setPad hs (Store.writeByte_wf _ _ _ (State.pad_wf hs))
  · exact hs
  all_goals exact State.write_memOk hs fun m hm => Store.writeByte_wf m _ _ hm

@[simp] theorem storeRow_memOk {l : Long} {va : Word} {row n : Nat} {a b : Loc} (hs : s.memOk = true) :
    (storeRow l va row n a b s).memOk = true :=
  foldl_memOk hs fun _ _ ht => by simp [ht]

@[simp] theorem tstaUnit_memOk {l : Long} (hs : s.memOk = true) : (tstaUnit s l).memOk = true := by
  have hput : ∀ a b n va row, (withLocRoute s a fun s => withLocRoute s b fun s =>
      unitDone (storeRow l va row n a b s) l).memOk = true := fun a b n va row =>
    withLocRoute_memOk hs fun _ ht => withLocRoute_memOk ht fun _ hu => unitDone_memOk (storeRow_memOk hu)
  simp only [tstaUnit]
  split
  · exact hput ..
  · split
    · simp [hs]
    · exact longStop_memOk hs
    · exact hput ..

@[simp] theorem tgathUnit_memOk {l : Long} (hs : s.memOk = true) : (tgathUnit s l).memOk = true := by
  simp only [tgathUnit]
  split
  · exact withLocRoute_memOk hs fun _ ht => by simp [ht]
  · split
    · simp [hs]
    · exact longStop_memOk hs
    · exact withLocRoute_memOk hs fun _ ht => by simp [ht]

@[simp] theorem withUnit_memOk {l : Long} {f : State → State} (hs : s.memOk = true)
    (hf : ∀ t, t.memOk = true → (f t).memOk = true) : (withUnit l s f).memOk = true := by
  simp only [withUnit]
  split <;> simp [hs, hf]

@[simp] theorem longUnit_memOk (hs : s.memOk = true) : (longUnit s).memOk = true := by
  have hunit : ∀ l (f : State → State), (∀ t, t.memOk = true → (f t).memOk = true) →
      (if l.last < l.unit then longDone s l else withUnit l s fun s => s.atHome f).memOk = true := by
    intro l f hf
    split
    · exact longDone_memOk hs
    · exact withUnit_memOk hs fun _ ht => State.atHome_memOk ht hf
  simp only [longUnit]
  split
  · exact hs
  · split
    · exact hs
    · split
      · exact hunit _ _ fun _ ht => tldsUnit_memOk ht
      · exact hunit _ _ fun _ ht => tstaUnit_memOk ht
      · exact hunit _ _ fun _ ht => tgathUnit_memOk ht
      · exact gatherUnit_memOk hs

@[simp] theorem abandonLong_memOk {l : Long} (hs : s.memOk = true) : (abandonLong l s).memOk = true := by
  simp [abandonLong, hs]

@[simp] theorem abandonStopped_memOk {keep : Long → Bool} (hs : s.memOk = true) : (abandonStopped keep s).memOk = true :=
  foldl_memOk hs fun _ _ ht => abandonLong_memOk ht

end Sys2Proof.Machine
end

section
/-! ## The events of a stream (Machine/StreamEvents) -/
namespace Sys2Proof.Machine
variable {s : State}

@[simp] theorem State.answer_memOk {r : RegName} {v : VWord} {lanes : Word} {poison : Bool} :
    (State.answer s r v lanes poison).memOk = s.memOk := rfl

@[simp] theorem performAtomic_memOk {l : Loc} {op : AtomOp} {d : SReg} {y cmp : Word} {yp cp : Bool} (hs : s.memOk = true) :
    (performAtomic s l op d y cmp yp cp).memOk = true := by
  simp only [performAtomic]
  repeat' split
  all_goals simp [hs]

@[simp] theorem performPush_memOk {n : Fin 4} {v : Word} : (performPush s n v).memOk = s.memOk := rfl

@[simp] theorem performPop_memOk {n : Fin 4} {d : SReg} : (performPop s n d).memOk = s.memOk := by
  simp only [performPop]
  repeat' split
  all_goals rfl

@[simp] theorem performAccess_memOk {x : Access} (hs : s.memOk = true) : (performAccess s x).memOk = true := by
  have hhome : ∀ f : State → State, (∀ t, t.memOk = true → (f t).memOk = true) → (s.atHome f).memOk = true :=
    fun f hf => State.atHome_memOk hs hf
  simp only [performAccess]
  split
  case h_1 => simp [hs]
  case h_2 => exact hhome _ fun _ ht => writeLoc_memOk ht
  case h_3 => exact hhome _ fun _ ht => performAtomic_memOk ht
  case h_4 => simp [hs]
  case h_5 => exact hhome _ fun _ ht => writeLocLanes_memOk ht
  case h_6 => exact hs
  case h_7 => exact hhome _ fun _ ht => writeLoc_memOk ht
  case h_8 => exact hhome _ fun _ ht => by simp [ht]
  case h_9 => exact hhome _ fun _ ht => by simp [ht]

@[simp] theorem effect_perform_memOk {b w : Nat} (hs : s.memOk = true) : (effect (.perform b w) s).memOk = true := by
  refine effect_memOk_of_exec rfl (withAgent_memOk hs fun t ht => ?_)
  split
  · exact ht
  · exact ht
  · exact withLocRoute_memOk ht fun _ hu => performAccess_memOk hu

@[simp] theorem effect_deliver_memOk {b w k : Nat} (hs : s.memOk = true) : (effect (.deliver b w k) s).memOk = true :=
  effect_memOk_of_exec rfl (withAgent_memOk hs fun _ ht => by split <;> simp [ht])

@[simp] theorem effect_latchLand_memOk {b w : Nat} (hs : s.memOk = true) : (effect (.latchLand b w) s).memOk = true := by
  simp +contextual [effect, exec_latchLand, execLatchLand, hs]

@[simp] theorem jobDone_memOk {j : Job} : (jobDone j s).memOk = s.memOk := rfl

@[simp] theorem effect_tileDataComplete_memOk {core : Nat} {matrix : Bool} (hs : s.memOk = true) :
    (effect (.tileDataComplete core matrix) s).memOk = true := by
  simp only [effect, exec_tileDataComplete, execTileDataComplete]
  split
  · exact hs
  · split
    · exact hs
    · exact withAgent_memOk hs fun _ ht => by simp [ht]

@[simp] theorem effect_nantrap_memOk {b w : Nat} (hs : s.memOk = true) : (effect (.nantrap b w) s).memOk = true :=
  effect_memOk_of_exec rfl (withAgent_memOk hs fun _ ht => by split <;> simp [ht])

@[simp] theorem effect_longUnitComplete_memOk {b w : Nat} (hs : s.memOk = true) :
    (effect (.longUnitComplete b w) s).memOk = true := by
  simp +contextual [effect, exec_longUnitComplete, execLongUnitComplete, hs]

@[simp] theorem shareRead_memOk {y : EngWalk} : (shareRead s y).memOk = s.memOk := by simp [shareRead]

@[simp] theorem readEntry_memOk {k : EngWalk} : (readEntry s k).1.memOk = s.memOk := by
  simp only [readEntry]
  split <;> simp

@[simp] theorem effect_walkEntryRead_memOk {b w : Nat} (hs : s.memOk = true) :
    (effect (.walkEntryRead b w) s).memOk = true :=
  effect_memOk_of_exec rfl (withAgent_memOk hs fun _ ht => by split <;> simp [ht])

@[simp] theorem walkFault_memOk {k : Walk} {c : BitVec 8} (hs : s.memOk = true) : (walkFault s k c).memOk = true := by
  simp only [walkFault]
  repeat' split
  all_goals simp [hs]

@[simp] theorem walkLeaf_memOk {k : Walk} {e : TlbEntry} (hs : s.memOk = true) : (walkLeaf s k e).memOk = true := by
  simp only [walkLeaf]
  repeat' split
  all_goals simp [hs]

@[simp] theorem effect_walkComplete_memOk {b w : Nat} (hs : s.memOk = true) :
    (effect (.walkComplete b w) s).memOk = true := by
  refine effect_memOk_of_exec rfl (withAgent_memOk hs fun t ht => ?_)
  split
  · split <;> simp [ht]
  · exact ht

@[simp] theorem effect_leaseLapse_memOk {core line : Nat} : (effect (.leaseLapse core line) s).memOk = s.memOk := by
  simp [effect, exec_leaseLapse, execLeaseLapse]

@[simp] theorem effect_trapEntry_memOk {b w : Nat} (hs : s.memOk = true) : (effect (.trapEntry b w) s).memOk = true :=
  effect_memOk_of_exec rfl (withAgent_memOk hs fun _ ht => by split <;> simp [ht])

@[simp] theorem effect_timerCompare_memOk {b w : Nat} (hs : s.memOk = true) :
    (effect (.timerCompare b w) s).memOk = true := by
  simp +contextual [effect, exec_timerCompare, execTimerCompare, hs]

@[simp] theorem takeBetween_memOk {code : BitVec 8} {isAsync : Bool} {tval : Word} (hs : s.memOk = true) :
    (takeBetween s code isAsync tval).memOk = true := by
  simp [takeBetween, hs]

@[simp] theorem effect_interruptAccept_memOk {b w : Nat} (hs : s.memOk = true) :
    (effect (.interruptAccept b w) s).memOk = true := by
  refine effect_memOk_of_exec rfl (withAgent_memOk hs fun t ht => ?_)
  split
  · split <;> simp [ht]
  · exact ht

@[simp] theorem effect_tslipt_memOk {b w : Nat} (hs : s.memOk = true) : (effect (.tslipt b w) s).memOk = true :=
  effect_memOk_of_exec rfl (withAgent_memOk hs fun _ ht => by split <;> simp [ht])

@[simp] theorem effect_mpTrap_memOk {b : Nat} (hs : s.memOk = true) : (effect (.mpTrap b) s).memOk = true :=
  effect_memOk_of_exec rfl (withAgent_memOk hs fun _ ht => by split <;> simp [ht])

@[simp] theorem claimBank_memOk {id kind bank : Nat} {b : Block} (hs : s.memOk = true) :
    (claimBank s id kind bank b).memOk = true := by
  simp only [claimBank]
  repeat' split
  all_goals simp [hs]

@[simp] theorem effect_bankClaim_memOk {b : Nat} {kind : Fin 3} {bank : Nat} (hs : s.memOk = true) :
    (effect (.bankClaim b kind bank) s).memOk = true := by
  simp only [effect, exec_bankClaim, execBankClaim]
  split <;> simp [hs]

end Sys2Proof.Machine
end

section
/-! ## The moves of transfers (Machine/Copies) -/
namespace Sys2Proof.Machine
variable {s : State}

@[simp] theorem putXfer_memOk {ch : Fin 5} {x : Transfer} : (putXfer s ch x).memOk = s.memOk := rfl

@[simp] theorem withXferIn_memOk {ok : Progress → Bool} {b : Nat} {ch : Fin 5} {id : Nat} {f : Transfer → State → State}
    (hs : s.memOk = true) (hf : ∀ x t, t.memOk = true → (f x t).memOk = true) : (withXferIn ok s b ch id f).memOk = true := by
  refine withAgent_memOk hs fun t ht => ?_
  split
  · exact State.atHome_memOk ht (hf _)
  · exact ht

@[simp] theorem withXfer_memOk {b : Nat} {ch : Fin 5} {id : Nat} {f : Transfer → State → State} (hs : s.memOk = true)
    (hf : ∀ x t, t.memOk = true → (f x t).memOk = true) : (withXfer s b ch id f).memOk = true := withXferIn_memOk hs hf

@[simp] theorem faultXfer_memOk {ch : Fin 5} {x : Transfer} {c : BitVec 8} {tval : Word} :
    (faultXfer s ch x c tval).memOk = s.memOk := by
  unfold faultXfer
  split <;> rfl

@[simp] theorem completeXfer_memOk {ch : Fin 5} {x : Transfer} {st : Progress} :
    (completeXfer s ch x st).memOk = s.memOk := by
  simp only [completeXfer]
  split <;> rfl

@[simp] theorem withItemBank_memOk {r : Nat} {f : State → State} (hs : s.memOk = true)
    (hf : ∀ t, t.memOk = true → (f t).memOk = true) : (withItemBank r s f).memOk = true := by
  simp only [withItemBank]
  split <;> simp [hs, hf]

@[simp] theorem readItem_memOk {ch : Fin 5} {x : Transfer} {r : Nat} {c : Content} :
    (readItem ch x r c s).memOk = s.memOk := by simp [readItem]

@[simp] theorem copyReadGo_memOk {ch : Fin 5} {x : Transfer} {r : Nat} {gen : BitVec 16} (hs : s.memOk = true) :
    (copyReadGo ch x r gen s).memOk = true := by
  simp [copyReadGo, hs]

@[simp] theorem copyRead_memOk {ch : Fin 5} {x : Transfer} {i : ItemRef} (hs : s.memOk = true) :
    (copyRead ch x i s).memOk = true := by
  simp only [copyRead]
  split
  · exact hs
  · refine withItemBank_memOk hs fun t ht => ?_
    split
    · exact copyReadGo_memOk ht
    · split <;> simp [ht]

theorem copyReadOf_memOk {b : Nat} {ch : Fin 5} {id : Nat} (hs : s.memOk = true) : (copyReadOf b ch id s).memOk = true := by
  refine withXferIn_memOk hs fun x t ht => ?_
  split <;> simp [ht]

@[simp] theorem effect_copyRead_memOk {b : Nat} {ch : Fin 5} {id : Nat} (hs : s.memOk = true) :
    (effect (.copyRead b ch id) s).memOk = true := effect_memOk_of_exec rfl (copyReadOf_memOk hs)

@[simp] theorem withPlace_memOk {p : Place} {f : State → State} (hs : s.memOk = true)
    (hf : ∀ t, t.memOk = true → (f t).memOk = true) : (withPlace p s f).memOk = true := by
  simp only [withPlace]
  repeat' split
  all_goals simp +contextual [hs, hf]

@[simp] theorem withPlaces_memOk {l : List Place} {f : State → State} (hs : s.memOk = true)
    (hf : ∀ t, t.memOk = true → (f t).memOk = true) : (withPlaces l s f).memOk = true := by
  simp only [withPlaces]
  split <;> simp +contextual [hs, hf]

@[simp] theorem walkXfer_memOk {bad : BitVec 8 → State → State} {ch : Fin 5} {x : Transfer} {va : Word} {use : Use}
    (hbad : ∀ x0 t, t.memOk = true → (bad x0 t).memOk = true) (hs : s.memOk = true) :
    (walkXfer bad ch x va use s).memOk = true := by
  simp only [walkXfer]
  repeat' split
  all_goals simp [hbad, hs]

@[simp] theorem withByte_memOk {ch : Fin 5} {x : Transfer} {va : Word} {use : Use} {go : Place → State → State}
    (hs : s.memOk = true) (hgo : ∀ x0 t, t.memOk = true → (go x0 t).memOk = true) :
    (withByte ch x va use s go).memOk = true := by
  simp only [withByte]
  split <;> simp [hs, hgo]

theorem withBytes_memOk {ch : Fin 5} {x : Transfer} {va : Word} {use : Use} : ∀ {n : Nat} {s : State}
    {go : List Place → State → State}, s.memOk = true → (∀ l t, t.memOk = true → (go l t).memOk = true) →
    (withBytes ch x va use n s go).memOk = true
  | 0, _, _, hs, hgo => hgo _ _ hs
  | _ + 1, _, _, hs, hgo => by
    simp only [withBytes]
    exact withBytes_memOk hs fun _ _ ht => withByte_memOk ht fun _ _ hu => hgo _ _ hu

@[simp] theorem snoopPlaces_memOk {l : List Place} : (snoopPlaces l s).memOk = s.memOk :=
  foldl_memOk_eq fun t p => by cases p <;> simp

@[simp] theorem derefRow_memOk {ch : Fin 5} {x : Transfer} {base : Word} {row : Nat} {write : Bool} (hs : s.memOk = true) :
    (derefRow ch x base row write s).memOk = true := by
  simp only [derefRow]
  split
  · refine withBytes_memOk hs fun l t ht => withPlaces_memOk ht fun u hu => ?_
    split <;> simp [hu]
  · split
    · simp [hs]
    · split
      · simp [hs]
      · refine withBytes_memOk hs fun l t ht => withPlaces_memOk ht fun u hu => ?_
        repeat' split
        all_goals simp [hu]

@[simp] theorem putByte_memOk {p : Place} {v : Byte} {q : Bool} (hs : s.memOk = true) : (putByte s p v q).memOk = true := by
  cases p with
  | data o => exact hs
  | side o => exact hs
  | acc o => exact hs
  | text o => exact hs
  | pad o => exact State.setBlk_memOk hs (by simp [hs, Store.setByteGranule_wf (State.pad_wf hs)])
  | other id o => exact State.setBlock_memOk hs (by simp [hs, Store.setByteGranule_wf (Block.pad_wf (State.block_memOk hs))])
  | phys pa => exact State.write_memOk hs fun _ hm => Store.setByteGranule_wf hm

@[simp] theorem settleRead_memOk {ch : Fin 5} {x y : Transfer} {l : List (Nat × Byte × Bool)} :
    (settleRead ch x y l s).memOk = s.memOk := by
  simp only [settleRead]
  split <;> simp

@[simp] theorem takeRun_memOk {ch : Fin 5} {x : Transfer} {p : Place} {w : CopyStep} {mirror : Bool} :
    (takeRun ch x p w mirror s).memOk = s.memOk := by simp [takeRun]

@[simp] theorem takeMirror_memOk {ch : Fin 5} {x : Transfer} {p : Place} {w : CopyStep} :
    (takeMirror ch x p w s).memOk = s.memOk := by simp [takeMirror]

@[simp] theorem readRun_memOk {ch : Fin 5} {x : Transfer} {w : CopyStep} {mirror : Option CopyStep} {n : Nat}
    (hs : s.memOk = true) : (readRun ch x w mirror n s).memOk = true := by
  simp only [readRun]
  split
  · exact withByte_memOk hs fun _ _ ht => withPlace_memOk ht fun _ hu => by simp [hu]
  · refine withByte_memOk hs fun _ _ ht => withPlace_memOk ht fun u hu => ?_
    repeat' split
    all_goals simp [hu]

@[simp] theorem dataRead_memOk {ch : Fin 5} {x : Transfer} {g : Geo} {n : Nat} (hs : s.memOk = true) :
    (dataRead ch x g n s).memOk = true := by
  simp only [dataRead]
  repeat' split
  all_goals simp [hs]

@[simp] theorem effect_dataRead_memOk {b : Nat} {ch : Fin 5} {id n : Nat} (hs : s.memOk = true) :
    (effect (.dataRead b ch id n) s).memOk = true := by
  refine effect_memOk_of_exec rfl (withXfer_memOk hs fun x t ht => ?_)
  repeat' split
  all_goals simp [ht]

@[simp] theorem writeRun_memOk {ch : Fin 5} {x : Transfer} {w : CopyStep} {done : Transfer → Nat → Transfer}
    (hs : s.memOk = true) : (writeRun ch x w done s).memOk = true := by
  refine withByte_memOk hs fun p t ht => withPlace_memOk ht fun u hu => putXfer_memOk.trans (foldl_memOk hu fun v q hv => ?_)
  split <;> simp [hv]

@[simp] theorem dataWrite_memOk {ch : Fin 5} {x : Transfer} {g : Geo} {n : Nat} (hs : s.memOk = true) :
    (dataWrite ch x g n s).memOk = true := by
  simp only [dataWrite]
  repeat' split
  all_goals simp [hs]

@[simp] theorem effect_dataWrite_memOk {b : Nat} {ch : Fin 5} {id n : Nat} (hs : s.memOk = true) :
    (effect (.dataWrite b ch id n) s).memOk = true := by
  refine effect_memOk_of_exec rfl (withXfer_memOk hs fun x t ht => ?_)
  repeat' split
  all_goals simp [ht]

@[simp] theorem copyWrite_memOk {ch : Fin 5} {x : Transfer} {i : ItemRef} (hs : s.memOk = true) :
    (copyWrite ch x i s).memOk = true := by
  refine withItemBank_memOk hs fun t ht => ?_
  dsimp only
  repeat' split
  all_goals simp [ht]

@[simp] theorem effect_copyWrite_memOk {b : Nat} {ch : Fin 5} {id : Nat} (hs : s.memOk = true) :
    (effect (.copyWrite b ch id) s).memOk = true := by
  refine effect_memOk_of_exec rfl (withXfer_memOk hs fun x t ht => ?_)
  repeat' split
  all_goals simp [ht]

@[simp] theorem backOff_memOk {ch : Fin 5} {x : Transfer} : (backOff ch x s).memOk = s.memOk := rfl

@[simp] theorem followForward_memOk {ch : Fin 5} {x : Transfer} {old new : BitVec 10} :
    (followForward ch x old new s).memOk = s.memOk := rfl

@[simp] theorem acceptRemote_memOk {id : Nat} {i : ItemRef} {x : Transfer} (hs : s.memOk = true) :
    (acceptRemote id i x s).memOk = true := by
  simp [acceptRemote, hs]

@[simp] theorem remoteArrival_memOk {ch : Fin 5} {x : Transfer} {i : ItemRef} (hs : s.memOk = true) :
    (remoteArrival ch x i s).memOk = true := by
  simp only [remoteArrival]
  repeat' split
  all_goals simp [hs]

@[simp] theorem effect_remoteWriteArrival_memOk {b : Nat} {ch : Fin 4} {id : Nat} (hs : s.memOk = true) :
    (effect (.remoteWriteArrival b ch id) s).memOk = true := by
  refine effect_memOk_of_exec rfl (withXfer_memOk hs fun x t ht => ?_)
  repeat' split
  all_goals simp [ht]

@[simp] theorem resumeXfer_memOk {ch : Fin 5} {x : Transfer} : (resumeXfer ch x s).memOk = s.memOk := by
  simp only [resumeXfer]
  split <;> simp

@[simp] theorem effect_mpResume_memOk {b : Nat} (hs : s.memOk = true) : (effect (.mpResume b) s).memOk = true := by
  refine effect_memOk_of_exec rfl (withAgent_memOk hs fun _ ht => ?_)
  repeat' split
  all_goals simp [ht]

@[simp] theorem effect_remoteResend_memOk {b : Nat} {ch : Fin 4} (hs : s.memOk = true) :
    (effect (.remoteResend b ch) s).memOk = true := by
  refine effect_memOk_of_exec rfl (withAgent_memOk hs fun t ht => ?_)
  dsimp only
  split
  · split <;> simp [ht]
  · exact ht

@[simp] theorem holdLine_memOk {line : Nat} : (holdLine s line).memOk = s.memOk := by simp [holdLine]

@[simp] theorem holdRange_memOk {x : Transfer} : (holdRange s x).memOk = s.memOk := by
  simp only [holdRange]
  split
  · exact dropHint_memOk
  · exact foldl_memOk_eq fun _ _ => holdLine_memOk

@[simp] theorem holdStep_memOk {ch : Fin 5} {x : Transfer} (hs : s.memOk = true) : (holdStep ch x s).memOk = true := by
  simp only [holdStep]
  split
  · exact walkXfer_memOk (fun _ _ ht => by simp [ht]) hs
  · simp [hs]

@[simp] theorem transferComplete_memOk {ch : Fin 5} {x : Transfer} (hs : s.memOk = true) :
    (transferComplete ch x s).memOk = true := by
  simp only [transferComplete]
  repeat' split
  all_goals simp [hs]

@[simp] theorem effect_transferComplete_memOk {b : Nat} {ch : Fin 5} {id : Nat} (hs : s.memOk = true) :
    (effect (.transferComplete b ch id) s).memOk = true :=
  effect_memOk_of_exec rfl (withXfer_memOk hs fun _ _ ht => transferComplete_memOk ht)
end Sys2Proof.Machine
end

section
/-! ## Stages, placement and the scheduler (Machine/Rings, Machine/Place and Machine/Sched) -/
namespace Sys2Proof.Machine
variable {s : State}

/-! ### Restrictions of memories and choices from lists -/

theorem Memory.wfFrom_map_sub {lo : Nat} : ∀ {m : Memory} {a : Nat}, Memory.wfFrom (lo + a) m = true →
    Memory.wfFrom a (m.map fun c => (c.1 - lo, c.2)) = true
  | [], _, _ => rfl
  | (k, b) :: r, a, h => by
    simp only [Memory.wfFrom, Bool.and_eq_true, decide_eq_true_eq, List.map_cons] at h ⊢
    obtain ⟨⟨hk, hb⟩, hr⟩ := h
    refine ⟨⟨by omega, hb⟩, Memory.wfFrom_map_sub ?_⟩
    rwa [show lo + (k - lo + 1) = k + 1 by omega]

theorem Memory.wfFrom_filter_above {lo n : Nat} : ∀ {m : Memory} {a : Nat}, Memory.wfFrom a m = true →
    Memory.wfFrom lo (m.filter fun c => decide (lo ≤ c.1) && decide (c.1 < lo + n)) = true
  | [], _, _ => rfl
  | (k, b) :: r, a, h => by
    have hr := h
    simp only [Memory.wfFrom, Bool.and_eq_true, decide_eq_true_eq] at hr
    obtain ⟨⟨-, hb⟩, hr⟩ := hr
    rw [List.filter_cons]
    split
    · next hk =>
      simp only [Bool.and_eq_true, decide_eq_true_eq] at hk
      have hrest := Memory.filter_wfFrom (fun c => decide (lo ≤ c.1) && decide (c.1 < lo + n)) r (k + 1) hr
      simp [Memory.wfFrom, hk.1, hb, hrest]
    · exact Memory.wfFrom_filter_above hr

theorem Memory.window_wf {m : Memory} {lo n : Nat} (h : m.wf = true) : (m.window lo n).wf = true :=
  Memory.wfFrom_map_sub (Memory.wfFrom_filter_above h)

/-- A fold that keeps either its choice or the element it looks at chooses an element of the list. -/
theorem mem_of_foldl_choice {α : Type} {f : Option α → α → Option α} {l : List α} {x : α}
    (hf : ∀ o y z, f o y = some z → z = y ∨ o = some z) : ∀ {o : Option α}, l.foldl f o = some x → x ∈ l ∨ o = some x := by
  induction l with
  | nil => exact fun h => .inr h
  | cons y r ih =>
    intro o h
    rcases ih h with hx | hx
    · exact .inl (List.mem_cons_of_mem y hx)
    · rcases hf o y x hx with rfl | ho
      · exact .inl List.mem_cons_self
      · exact .inr ho

theorem foldl_memOk_of_mem {α : Type} {f : State → α → State} {l : List α} (hs : s.memOk = true)
    (hf : ∀ t x, x ∈ l → t.memOk = true → (f t x).memOk = true) : (l.foldl f s).memOk = true := by
  induction l generalizing s with
  | nil => exact hs
  | cons y r ih => exact ih (hf s y List.mem_cons_self hs) fun t x hx => hf t x (List.mem_cons_of_mem y hx)

/-- The blocks of a list of blocks that was filtered out of the state's. -/
theorem State.memOk_of_mem_filter {f : Nat × Block → Bool} {p : Nat × Block} (hs : s.memOk = true)
    (hp : p ∈ s.blocks.filter f) : p.2.memOk = true := valuesOk_iff.mp (valuesOk_filter (State.blocks_ok hs)) p hp

/-- A change of other fields of a block is no change of its memories. -/
@[simp high] theorem Block.memOk_mk_same {b : Block} {launch stage inst part tenant isa prio core slot status placed suspended
    agents tiles accs sprows ports chans mig reloc textVa textSize textFrames startTick ttF ttC replaying failures claimed copies
    migrating trigger migChecked faultCore works savedTiles savedAccs savedVecs} :
    (Block.mk launch stage inst part tenant isa prio core slot status placed suspended agents tiles accs b.pad
      sprows ports chans mig reloc textVa textSize b.text textFrames startTick ttF ttC b.replay replaying failures
      claimed copies migrating trigger migChecked faultCore works savedTiles savedAccs savedVecs).memOk = b.memOk := rfl

/-- A change of other fields of a partition is no change of its images. -/
@[simp high] theorem Partition.memOk_mk_same {p : Partition} {id level parent sliced offline clusters ranges isa priv ttroot capb
    covctl table chrate links linkrate tweight quota active overshoot sliceEnd stoppedAt weldAt weldOpen windows} :
    (Partition.mk id level parent sliced offline clusters ranges isa priv ttroot capb covctl table chrate
      links linkrate tweight quota active overshoot sliceEnd stoppedAt weldAt weldOpen p.slots windows).memOk = p.memOk := rfl

/-! ### Rings -/

@[simp] theorem setStage_memOk {lid no : Nat} {f : Stage → Stage} : (setStage s lid no f).memOk = s.memOk := by
  unfold setStage
  split <;> rfl

@[simp] theorem snoopRings_memOk {p : Partition} {st : Stage} : (snoopRings s p st).memOk = s.memOk := by
  refine foldl_memOk_eq fun t va => ?_
  split <;> simp

@[simp] theorem finishStage_memOk {lid no : Nat} {started : Bool} :
    (finishStage s lid no started).memOk = s.memOk := by simp [finishStage]

/-! ### Placement -/

@[simp] theorem Block.paused_memOk {b : Block} : (Block.paused b).memOk = b.memOk := rfl

theorem State.imageOf_wf {l : Launch} (hs : s.memOk = true) : (s.imageOf l).1.wf = true := by
  simp only [State.imageOf]
  split
  · next h => exact State.slot_memOk_of_getKey hs h
  · rfl

theorem applySection_memOk {image : Memory} {prog : Nat} {b : Block} {x : Section} (hb : b.memOk = true) :
    (applySection image prog b x).memOk = true := by
  simp only [applySection]
  split
  · simp [hb, Store.copyIn_wf]
  · exact hb
  · exact hb
  · exact hb

theorem freshBlock_memOk {lid stage : Nat} {l : Launch} {st : Stage} {core slot : Nat} (hs : s.memOk = true) :
    (freshBlock s lid stage l st core slot).memOk = true := by
  simp only [freshBlock]
  set b := List.foldl _ _ _ with hb
  have hok : b.memOk = true := by
    rw [hb]
    exact foldl_block_memOk (by simp [Block.reset, Memory.window_wf (State.imageOf_wf hs)]) fun _ _ hc => applySection_memOk hc
  simp [hok]

theorem placeFresh_memOk {r : Request} {l : Launch} {st : Stage} {core slot : Nat} (hs : s.memOk = true) :
    (placeFresh s r l st core slot).memOk = true := by
  simp only [placeFresh]
  split
  · exact withAgent_memOk (by simp [hs, freshBlock_memOk]) fun _ ht => endBlock_memOk ht
  · simp [hs, freshBlock_memOk]

theorem grant_memOk {r : Request} {core : Nat} (hs : s.memOk = true) : (grant s r core).memOk = true := by
  simp only [grant]
  split
  · simp [hs]
  · split
    · exact placeFresh_memOk hs
    · exact hs

theorem serve_memOk {r : Request} {go : State → State} (hs : s.memOk = true)
    (hgo : ∀ t, t.memOk = true → (go t).memOk = true) : (serve s r go).memOk = true := by
  simp only [serve]
  split
  · refine withWalks_memOk hs fun t ht => ?_
    split
    · simp [ht]
    · exact hgo _ (by simp [ht])
  · exact hgo s hs

@[simp] theorem effect_blockPlace_memOk {part : Nat} (hs : s.memOk = true) : (effect (.blockPlace part) s).memOk = true := by
  simp only [effect, exec_blockPlace, execBlockPlace]
  split
  · exact hs
  · split
    · exact serve_memOk hs fun _ ht => grant_memOk ht
    · exact hs

/-- A block that runs on a core is one of the state's blocks. -/
theorem State.runner_memOk {core : Nat} {v : Nat × Block} (hs : s.memOk = true) (h : s.runner core = some v) :
    v.2.memOk = true := by
  obtain ⟨x, -, hx⟩ := List.exists_of_findSome?_eq_some h
  split at hx
  · split at hx
    · next hb =>
      split at hx
      · obtain rfl := Option.some.inj hx
        exact State.memOk_of_getKey hs hb
      · simp at hx
    · simp at hx
  · simp at hx

theorem victimFor_memOk {r : Request} {v : Nat × Block} (hs : s.memOk = true) (h : victimFor s r = some v) :
    v.2.memOk = true := by
  have hmem := mem_of_foldl_choice (fun o y z hz => by
    cases o with
    | none => exact .inl (Option.some.inj hz).symm
    | some w =>
      dsimp only at hz
      split at hz
      · exact .inl (Option.some.inj hz).symm
      · exact .inr hz) h
  obtain ⟨c, -, hc⟩ := List.mem_filterMap.mp (hmem.resolve_right (by simp))
  obtain ⟨w, hw, hv⟩ := Option.bind_eq_some_iff.mp (Option.ite_none_right_eq_some.mp hc).2
  obtain rfl := Option.some.inj (Option.ite_none_right_eq_some.mp hv).2
  exact State.runner_memOk hs hw

@[simp] theorem effect_preempt_memOk {part : Nat} (hs : s.memOk = true) : (effect (.preempt part) s).memOk = true := by
  simp only [effect, exec_preempt, execPreempt]
  split
  · exact hs
  · split
    · exact hs
    · split
      · exact hs
      · split
        · next hv =>
          split
          · refine serve_memOk hs fun t ht => grant_memOk (State.setBlock_memOk ht ?_)
            exact victimFor_memOk hs hv
          · exact hs
        · exact hs

theorem nextResume_memOk {core : Nat} {v : Nat × Block} (hs : s.memOk = true) (h : nextResume s core = some v) :
    v.2.memOk = true := by
  have hmem := mem_of_foldl_choice (fun o y z hz => by
    cases o with
    | none => exact .inl (Option.some.inj hz).symm
    | some w =>
      dsimp only at hz
      split at hz
      · exact .inl (Option.some.inj hz).symm
      · exact .inr hz) h
  obtain ⟨x, -, hx⟩ := List.mem_filterMap.mp (hmem.resolve_right (by simp))
  obtain ⟨id, -, hid⟩ := Option.bind_eq_some_iff.mp hx
  obtain ⟨b, hb, hv⟩ := Option.bind_eq_some_iff.mp hid
  obtain rfl := Option.some.inj (Option.ite_none_right_eq_some.mp hv).2
  exact State.memOk_of_getKey hs hb

@[simp] theorem effect_blockResume_memOk {core : Nat} (hs : s.memOk = true) :
    (effect (.blockResume core) s).memOk = true := by
  simp only [effect, exec_blockResume, execBlockResume]
  split
  · exact hs
  · split
    · next hv =>
      split
      · exact State.setBlock_memOk hs (nextResume_memOk hs hv)
      · exact hs
    · exact hs

@[simp] theorem slotOut_memOk {p : Nat × Block} : (slotOut s p).memOk = s.memOk := by simp [slotOut]

theorem slotIn_memOk {p : Nat × Block} (hs : s.memOk = true) (hp : p.2.memOk = true) : (slotIn s p).memOk = true := by
  simp only [slotIn]
  repeat' split
  all_goals simp [hs, hp]

@[simp] theorem Partition.nextRound_memOk {p : Partition} {now : Word} : (Partition.nextRound p now).memOk = p.memOk := by
  simp only [Partition.nextRound]
  split <;> simp

theorem beginRound_memOk {part : Nat} (hs : s.memOk = true) : (beginRound s part).memOk = true := by
  simp only [beginRound]
  split
  · have hparts : partsOk (s.parts.map fun q =>
        (q.1, if (sliceGroup s part).contains q.1 then q.2.nextRound (s.now 0) else q.2)) = true :=
      valuesOk_map (State.parts_ok hs) fun q hq => by split <;> simp [hq]
    simpa [hs] using hparts
  · exact hs

theorem foldl_slotIn_memOk {part : Nat} {f : Nat × Block → Bool} (hs : s.memOk = true) :
    (((s.blocksOf part).filter f).foldl slotIn s).memOk = true :=
  foldl_memOk_of_mem hs fun _ _ hp ht => slotIn_memOk ht (State.memOk_of_mem_filter hs (List.mem_of_mem_filter hp))

theorem beginSlice_memOk {part : Nat} (hs : s.memOk = true) : (beginSlice s part).memOk = true :=
  foldl_slotIn_memOk (foldl_slotIn_memOk (State.setPart_memOk (beginRound_memOk hs)
    (by simp [beginRound_memOk hs])))

@[simp] theorem effect_sliceEnd_memOk {part : Nat} (hs : s.memOk = true) : (effect (.sliceEnd part) s).memOk = true := by
  simp only [effect, exec_sliceEnd, execSliceEnd]
  split
  · split
    · refine beginSlice_memOk ((foldl_memOk_eq fun _ _ => State.setCore_memOk).trans ?_)
      exact (foldl_memOk_eq fun _ _ => slotOut_memOk).trans (State.setPart_memOk hs (by simp [hs]))
    · exact hs
  · exact hs

/-! ### The evaluation of stages -/

@[simp] theorem raiseLine6_memOk {b : Block} : (raiseLine6 b).memOk = b.memOk := rfl

@[simp] theorem raiseLine5_memOk {b : Block} : (raiseLine5 b).memOk = b.memOk := rfl

theorem mapBlocks_memOk {pick : Block → Bool} {f : Block → Block} (hs : s.memOk = true)
    (hf : ∀ b, b.memOk = true → (f b).memOk = true) : (mapBlocks s pick f).memOk = true := by
  have hblocks : blocksOk (s.blocks.map fun p => (p.1, if pick p.2 then f p.2 else p.2)) = true :=
    valuesOk_map (State.blocks_ok hs) fun p hp => by split <;> simp [hp, hf]
  simp [mapBlocks, hs, hblocks]

@[simp] theorem mapBlocks_raiseLine6_memOk {pick : Block → Bool} (hs : s.memOk = true) :
    (mapBlocks s pick raiseLine6).memOk = true := mapBlocks_memOk hs fun _ hb => hb

@[simp] theorem mapBlocks_raiseLine5_memOk {pick : Block → Bool} (hs : s.memOk = true) :
    (mapBlocks s pick raiseLine5).memOk = true := mapBlocks_memOk hs fun _ hb => hb

@[simp] theorem addRequests_memOk {lid no : Nat} {l : Launch} {st : Stage} {n : Nat} :
    (addRequests s lid no l st n).memOk = s.memOk := rfl

theorem evalStage_memOk {lid no : Nat} (hs : s.memOk = true) : (evalStage s lid no).memOk = true := by
  simp only [evalStage]
  repeat' split
  all_goals simp [hs]

@[simp] theorem effect_weldTick_memOk {part : Nat} (hs : s.memOk = true) : (effect (.weldTick part) s).memOk = true := by
  simp only [effect, exec_weldTick, execWeldTick]
  split
  · refine withWalks_memOk (State.setPart_memOk hs (by simp [hs])) fun t ht => ?_
    refine foldl_memOk (State.setPart_memOk ht (by simp [ht])) fun u q hu => ?_
    exact foldl_memOk hu fun v _ hv => evalStage_memOk hv
  · exact hs

/-! ### The walker, reports and fills -/

@[simp] theorem postPort0_memOk {b : Block} {v : Word} : (postPort0 b v).memOk = b.memOk := rfl

theorem walkerPost_memOk {id : Nat} (hs : s.memOk = true) : (walkerPost s id).memOk = true := by
  simp only [walkerPost]
  split
  · exact hs
  · next hb =>
    have hok := State.memOk_of_getKey hs hb
    repeat' split
    all_goals simp [hs, hok]

@[simp] theorem effect_walkerPost_memOk {b : Nat} (hs : s.memOk = true) : (effect (.walkerPost b) s).memOk = true :=
  effect_memOk_of_exec rfl (walkerPost_memOk hs)

@[simp] theorem measureAudits_memOk {lid no : Nat} : (measureAudits s lid no).memOk = s.memOk := by
  simp only [measureAudits]
  repeat' split
  · rfl
  · simp [foldl_memOk_eq]
  · rfl

@[simp] theorem badReport_memOk {lid : Nat} : (badReport s lid).memOk = s.memOk := by
  unfold badReport
  split <;> rfl

theorem takeReport_memOk {id : Nat} {b : Block} {v : Word} {r : List Word} (hs : s.memOk = true) (hb : b.memOk = true) :
    (takeReport s id b v r).memOk = true := by
  simp only [takeReport]
  repeat' split
  all_goals simp [hs, hb]

theorem reportTake_memOk {id : Nat} (hs : s.memOk = true) : (reportTake s id).memOk = true := by
  simp only [reportTake]
  split
  · exact hs
  · next hb =>
    split
    · exact hs
    · refine withWalks_memOk hs fun t ht => ?_
      exact measureAudits_memOk.trans (takeReport_memOk ht (State.memOk_of_getKey hs hb))

@[simp] theorem effect_reportTake_memOk {b : Nat} (hs : s.memOk = true) : (effect (.reportTake b) s).memOk = true :=
  effect_memOk_of_exec rfl (reportTake_memOk hs)

theorem fillGo_memOk {p : Partition} {c : CovRec} {axes : List Axis} {pt : Point} {f : Fill} (hs : s.memOk = true) :
    (fillGo s p c axes pt f).1.memOk = true := by
  simp only [fillGo]
  repeat' split
  all_goals simp [hs]

theorem fillPoint_memOk {lid no pidx : Nat} {l : Launch} {st : Stage} {bad : Bool} (hs : s.memOk = true) :
    (fillPoint s lid no pidx l st bad).memOk = true := by
  simp only [fillPoint]
  repeat' split
  all_goals simp [hs, fillGo_memOk]

theorem fill_memOk {launch pidx : Nat} {bad : Bool} (hs : s.memOk = true) : (fill s launch pidx bad).memOk = true := by
  simp only [fill]
  repeat' split
  all_goals simp [hs, fillPoint_memOk]

@[simp] theorem effect_fill_memOk {launch pidx : Nat} (hs : s.memOk = true) : (effect (.fill launch pidx) s).memOk = true :=
  effect_memOk_of_exec rfl (fill_memOk hs)

@[simp] theorem effect_coverageUpdate_memOk {launch : Nat} (hs : s.memOk = true) :
    (effect (.coverageUpdate launch) s).memOk = true := by
  simp only [effect, exec_coverageUpdate, execCoverageUpdate]
  repeat' split
  · exact hs
  · exact hs
  · simp [hs]
  · simp [hs]
end Sys2Proof.Machine
end

section
/-! ## The reset ladder, migration and replay (Machine/Ladder and Machine/Migrate) -/
namespace Sys2Proof.Machine
variable {s : State}

/-! ### Completions -/

@[simp] theorem setQerr_memOk {key : Nat} {code : BitVec 8} {seq : BitVec 32} :
    (setQerr s key code seq).memOk = s.memOk := rfl

theorem packetWrite_getD_memOk {p : Partition} {addr : Word} {n v : Nat} {d : State} (hs : s.memOk = true)
    (hd : d.memOk = true) : ((packetWrite s p addr n v).getD d).memOk = true := by
  simp only [packetWrite]
  cases packetPa s p addr .store with
  | none => exact hd
  | some pa => simp [hs]

@[simp] theorem writeCompletion_memOk {c : Completion} (hs : s.memOk = true) : (writeCompletion s c).memOk = true := by
  have hput : ∀ {t : State} {on : Prop} [Decidable on] {p : Partition} {addr : Word} {n v : Nat} {q : State},
      t.memOk = true → q.memOk = t.memOk →
        (if on then (packetWrite t p addr n v).getD q else t).memOk = true := fun ht hq => by
    split
    · exact packetWrite_getD_memOk ht (hq.trans ht)
    · exact ht
  exact hput (hput hs setQerr_memOk) setQerr_memOk

@[simp] theorem complete_memOk {c : Completion} (hs : s.memOk = true) : (complete s c).memOk = true := by
  simp [complete, hs]

@[simp] theorem dropLaunch_memOk {lid : Nat} (hs : s.memOk = true) : (dropLaunch s lid).memOk = true := by
  simp [dropLaunch, hs, valuesOk_filter]

/-! ### Rungs -/

theorem readItems_memOk {id : Nat} {b : Block} (hs : s.memOk = true) : (readItems id b s).memOk = true :=
  foldl_memOk hs fun _ _ ht => foldl_memOk ht fun _ _ hu => copyReadOf_memOk hu

@[simp] theorem stopBlock_memOk {keep : Bool} {p : Nat × Block} (hs : s.memOk = true) : (stopBlock keep s p).memOk = true := by
  have hread : (if keep then readItems p.1 p.2 s else s).memOk = true := by
    split
    · exact readItems_memOk hs
    · exact hs
  have hslips : ∀ {t : State} {b : Block}, t.memOk = true →
      (if b.status = .ended then t else countSlips t b b.agents.toList).memOk = true := fun ht => by
    split
    · exact ht
    · exact countSlips_memOk.trans ht
  have htext := Block.text_wf (State.block_memOk (b := p.1) hread)
  exact State.setBlock_memOk (State.setCore_memOk.trans (hslips hread)) ((Block.memOk_iff _).mpr ⟨rfl, htext, rfl⟩)

@[simp] theorem abandon_memOk {p : Nat × Launch} (hs : s.memOk = true) : (abandon s p).memOk = true := by
  simp [abandon, hs]

@[simp] theorem deviceReset_memOk {cause : BitVec 8} (hs : s.memOk = true) : (deviceReset s cause).memOk = true := by
  simp only [deviceReset]
  set t := List.foldl writeCompletion _ _ with ht
  set u := List.foldl abandon _ _ with hu
  have hok : u.memOk = true := by
    rw [hu]
    refine foldl_memOk (foldl_memOk ?_ fun _ _ hv => stopBlock_memOk hv) fun _ _ hv => abandon_memOk hv
    rw [ht]
    exact foldl_memOk (by simp [hs]) fun _ _ hv => writeCompletion_memOk hv
  have hmem := State.mem_wf hok
  exact (State.memOk_iff _).mpr ⟨hmem, rfl, rfl, rfl⟩

@[simp] theorem disableQueue_memOk {key : Nat} : (disableQueue s key).memOk = s.memOk := by simp [disableQueue]

@[simp] theorem emptyCaches_memOk {part c : Nat} : (emptyCaches part s c).memOk = s.memOk := rfl

@[simp] theorem foldl_disableQueue_memOk {l : List Nat} : (l.foldl disableQueue s).memOk = s.memOk :=
  foldl_memOk_eq fun _ _ => disableQueue_memOk

@[simp] theorem foldl_emptyCaches_memOk {part : Nat} {l : List Nat} :
    (l.foldl (emptyCaches part) s).memOk = s.memOk := foldl_memOk_eq fun _ _ => emptyCaches_memOk

@[simp] theorem actRung_memOk {r : Rung} (hs : s.memOk = true) : (actRung s r).memOk = true := by
  simp only [actRung]
  set t := List.foldl (stopBlock _) _ _ with ht
  have hok : t.memOk = true := by
    rw [ht]
    exact foldl_memOk (by split <;> simp [hs]) fun _ _ hv => stopBlock_memOk hv
  repeat' split
  all_goals simp [hok]

@[simp] theorem deviceRung_memOk {r : Rung} (hs : s.memOk = true) : (deviceRung s r).memOk = true := by
  simp +contextual [deviceRung, hs]

@[simp] theorem beginDevice_memOk {r : Rung} (hs : s.memOk = true) : (beginDevice s r).memOk = true := by
  simp [beginDevice, hs]

@[simp] theorem startRung_memOk {r : Rung} (hs : s.memOk = true) : (startRung s r).memOk = true := by
  simp only [startRung]
  repeat' split
  all_goals simp [hs]

@[simp] theorem startRungs_memOk {l : List Rung} (hs : s.memOk = true) : (startRungs s l).memOk = true :=
  foldl_memOk hs fun _ _ ht => startRung_memOk ht

@[simp] theorem beginOne_memOk (hs : s.memOk = true) : (beginOne s).memOk = true := by
  simp only [beginOne]
  split <;> simp [hs]

@[simp] theorem beginWaiting_memOk (hs : s.memOk = true) : (beginWaiting s).memOk = true :=
  foldl_memOk hs fun _ _ ht => beginOne_memOk ht

@[simp] theorem State.recount_memOk (hs : s.memOk = true) : s.recount.memOk = true := by
  have hparts : partsOk (s.parts.map fun q => (q.1, { q.2 with offline := offlineCount s q.2 })) = true :=
    valuesOk_map (State.parts_ok hs) fun _ hq => hq
  simpa [State.recount, hs] using hparts

theorem takeBack_memOk {n : Nat} (hs : s.memOk = true) : (takeBack s n).memOk = true := by
  have hmem := State.mem_wf hs
  have hblk := State.blk_memOk hs
  have hblocks := State.blocks_ok hs
  have hgiver := State.part_slots_ok (p := (s.part n).giver) hs
  exact (State.memOk_iff _).mpr ⟨hmem, hblk, hblocks, valuesOk_dropKey (valuesOk_putKey (State.parts_ok hs) hgiver)⟩

@[simp] theorem removePartition_memOk {n : Nat} (hs : s.memOk = true) : (removePartition s n).memOk = true := by
  have hcap := fun k => writeCap_memOk (n := k) (takeBack_memOk (n := n) hs)
  simp only [removePartition]
  split
  · exact beginSlice_memOk (hcap _)
  · exact hcap _

@[simp] theorem writeReport_memOk {c : Pcmd} {status : Nat} (hs : s.memOk = true) :
    (writeReport s c status).memOk = true := by
  simp only [writeReport]
  split <;> simp [hs]

@[simp] theorem finishRung_memOk {r : Rung} (hs : s.memOk = true) : (finishRung s r).memOk = true := by
  simp only [finishRung]
  refine beginWaiting_memOk ?_
  set t := List.foldl abandon _ _ with ht
  have hok : t.memOk = true := by
    rw [ht]
    exact foldl_memOk (by simp [hs]) fun _ _ hv => abandon_memOk hv
  split <;> simp [hok]

@[simp] theorem effect_rungComplete_memOk {n : Nat} (hs : s.memOk = true) : (effect (.rungComplete n) s).memOk = true := by
  simp only [effect, exec_rungComplete, execRungComplete]
  split <;> simp +contextual [hs]

@[simp] theorem effect_rungEscalate_memOk {n : Nat} (hs : s.memOk = true) : (effect (.rungEscalate n) s).memOk = true := by
  simp only [effect, exec_rungEscalate, execRungEscalate]
  split <;> simp [hs]

@[simp] theorem freset_memOk {fn : Nat} {l : List Rung} (hs : s.memOk = true) : (freset s fn l).memOk = true := by
  simp [freset, hs]

@[simp] theorem effect_fresetQueue_memOk {fn : Fn} {part : Nat} {q : Fin 4} (hs : s.memOk = true) :
    (effect (.fresetQueue fn part q) s).memOk = true := by
  simp only [effect, exec_fresetQueue, execFresetQueue]
  split <;> simp [hs]

@[simp] theorem effect_fresetContext_memOk {fn : Fn} {part seq : Nat} {q : Fin 4} (hs : s.memOk = true) :
    (effect (.fresetContext fn part seq q) s).memOk = true := by
  simp only [effect, exec_fresetContext, execFresetContext]
  split <;> simp [hs]

@[simp] theorem effect_fresetEngine_memOk {fn : Fn} {part : Nat} (hs : s.memOk = true) :
    (effect (.fresetEngine fn part) s).memOk = true := by
  simp only [effect, exec_fresetEngine, execFresetEngine]
  repeat' split
  all_goals simp [hs]

@[simp] theorem effect_fresetPartition_memOk {fn : Fn} {part : Nat} (hs : s.memOk = true) :
    (effect (.fresetPartition fn part) s).memOk = true := by
  simp only [effect, exec_fresetPartition, execFresetPartition]
  repeat' split
  all_goals simp [hs]

@[simp] theorem effect_fresetDevice_memOk {fn : Fn} (hs : s.memOk = true) : (effect (.fresetDevice fn) s).memOk = true := by
  simp [effect, exec_fresetDevice, execFresetDevice, hs]

@[simp] theorem effect_clusterFault_memOk {g : Nat} (hs : s.memOk = true) : (effect (.clusterFault g) s).memOk = true := by
  simp [effect, exec_clusterFault, execClusterFault, hs]

@[simp] theorem effect_sliceOvershootTimeout_memOk {b : Nat} (hs : s.memOk = true) :
    (effect (.sliceOvershootTimeout b) s).memOk = true := by
  simp only [effect, exec_sliceOvershootTimeout, execSliceOvershootTimeout]
  repeat' split
  all_goals simp [hs]

/-! ### Migration -/

theorem bringBank_memOk {core slot : Nat} {p : Nat × Nat} (hs : s.memOk = true) : (bringBank core slot s p).memOk = true := by
  simp only [bringBank, State.setCore_memOk]
  split
  · next h =>
    refine State.setBlock_memOk hs (Block.saveBank_memOk.trans ?_)
    simp only [otherOwner] at h
    obtain ⟨id, -, hid⟩ := Option.bind_eq_some_iff.mp (Option.ite_none_right_eq_some.mp h).2
    obtain ⟨b, hb, hpair⟩ := Option.map_eq_some_iff.mp hid
    obtain ⟨-, rfl⟩ := Prod.mk.inj hpair
    exact State.memOk_of_getKey hs hb
  · exact hs

@[simp] theorem forwardTo_memOk {id launch old new : Nat} : (forwardTo s id launch old new).memOk = s.memOk := rfl

@[simp] theorem Block.stays_memOk {b : Block} : (Block.stays b).memOk = b.memOk := rfl

theorem moveBlock_memOk {id : Nat} {b : Block} {core slot : Nat} (hs : s.memOk = true) (hb : b.memOk = true) :
    (moveBlock s id b core slot).memOk = true := by
  have hbanks : ∀ {t : State} {l : List (Nat × Nat)}, t.memOk = true → (l.foldl (bringBank core slot) t).memOk = true :=
    fun ht => foldl_memOk ht fun _ _ hv => bringBank_memOk hv
  refine State.setBlock_memOk ?_ (by simpa using hb)
  simp [hbanks, hs]

theorem refuseMove_memOk {id w : Nat} (hs : s.memOk = true) : (refuseMove s id w).memOk = true := by
  refine withAgent_memOk hs fun t ht => State.raise_memOk ?_
  simp [ht]

theorem migrateBlock_memOk {id : Nat} {b : Block} {core : Nat} (hs : s.memOk = true) (hb : b.memOk = true) :
    (migrateBlock s id b core).memOk = true := by
  simp only [migrateBlock]
  repeat' split
  all_goals simp [hs, hb, refuseMove_memOk, moveBlock_memOk]

theorem withMigrating_memOk {id : Nat} {f : Block → Nat → State} (hs : s.memOk = true)
    (hf : ∀ b n, b.memOk = true → (f b n).memOk = true) : (withMigrating s id f).memOk = true := by
  simp only [withMigrating]
  split
  · exact hs
  · next hb =>
    repeat' split
    · exact hs
    · exact hf _ _ (State.memOk_of_getKey hs hb)
    · exact hs

@[simp] theorem effect_migrate_memOk {b : Nat} (hs : s.memOk = true) : (effect (.migrate b) s).memOk = true := by
  refine effect_memOk_of_exec rfl (withMigrating_memOk hs fun x _ hx => ?_)
  split
  · exact migrateBlock_memOk hs hx
  · exact hs

@[simp] theorem effect_homeReturn_memOk {b : Nat} (hs : s.memOk = true) : (effect (.homeReturn b) s).memOk = true := by
  refine effect_memOk_of_exec rfl (withMigrating_memOk hs fun x _ hx => ?_)
  repeat' split
  · exact hs
  · exact migrateBlock_memOk hs hx
  · simp [hs, hx]

/-! ### Core faults and replay -/

theorem comingTo_memOk {core : Nat} {v : Nat × Block} (hs : s.memOk = true) (h : comingTo s core = some v) :
    v.2.memOk = true := valuesOk_iff.mp (State.blocks_ok hs) v (List.mem_of_find?_eq_some h)

@[simp] theorem effect_coreFault_memOk {core : Nat} {fcode : BitVec 8} (hs : s.memOk = true) :
    (effect (.coreFault core fcode) s).memOk = true := by
  simp only [effect, exec_coreFault, execCoreFault]
  split
  · split
    · next hv => exact State.setBlock_memOk (by simp [hs]) (by simpa using State.runner_memOk (by simp [hs]) hv)
    · next hv =>
      refine State.setBlock_memOk (by simp [hs]) ?_
      simpa using comingTo_memOk (by simp [hs]) (Option.ite_none_right_eq_some.mp hv).2
    · simp [hs]
  · exact hs

@[simp] theorem dropCommands_memOk {id : Nat} {r : Replay} : (dropCommands s id r).memOk = s.memOk := rfl

theorem Block.replayed_memOk {b : Block} {r : Replay} {core slot : Nat} (hb : b.memOk = true) (hr : r.pad.wf = true) :
    (b.replayed r core slot).memOk = true := by
  simp [Block.replayed, hb, hr]

@[simp] theorem retireCore_memOk {id : Nat} {b : Block} (hs : s.memOk = true) : (retireCore s id b).memOk = true := by
  simp [retireCore, hs]

@[simp] theorem effect_operatorReplay_memOk {b : Nat} (hs : s.memOk = true) :
    (effect (.operatorReplay b) s).memOk = true := by
  simp only [effect, exec_operatorReplay, execOperatorReplay]
  split
  · exact hs
  · next hb =>
    have hok := State.memOk_of_getKey hs hb
    repeat' split
    · exact hs
    · simp [hs, hok]
    · exact hs
    · next hr _ _ =>
      refine State.setBlock_memOk (by simp [hs]) (Block.replayed_memOk hok ?_)
      simpa [hr] using Block.replay_ok hok
    · exact hs

@[simp] theorem effect_builtInTestPass_memOk {core : Nat} (hs : s.memOk = true) :
    (effect (.builtInTestPass core) s).memOk = true := by
  simp [effect, exec_builtInTestPass, execBuiltInTestPass, hs]

end Sys2Proof.Machine
end

section
/-! ## Packets, queues and launches (Machine/Packet and Machine/Queue) -/
namespace Sys2Proof.Machine
variable {s : State}

/-! ### Images -/

theorem readImage_wf {p : Partition} {addr : Word} : ∀ {n i : Nat} {m : Memory}, readImage s p addr n i = some m →
    Memory.wfFrom i m = true
  | 0, _, _, h => by
    obtain rfl := Option.some.inj h
    rfl
  | n + 1, i, m, h => by
    simp only [readImage] at h
    split at h
    · next b r _ hr =>
      have hrest := readImage_wf hr
      split at h
      · obtain rfl := Option.some.inj h
        exact Memory.wfFrom_mono r (i + 1) i (Nat.le_succ i) hrest
      · next hb =>
        obtain rfl := Option.some.inj h
        simpa [Memory.wfFrom, hb] using hrest
    · simp at h

theorem loadImage_wf {p : Partition} {addr : Word} {m : Memory} (h : loadImage s p addr = some m) : m.wf = true := by
  simp only [loadImage] at h
  split at h
  · simp at h
  · next hm =>
    obtain rfl := Option.some.inj (Option.ite_none_right_eq_some.mp h).2
    exact readImage_wf hm

/-- A page of an image is written at both its places. -/
theorem copyInTwice_memOk {x : Memory} {a b n : Nat} (hs : s.memOk = true) :
    { s with mem := (s.mem.copyIn a x n 0).copyIn b x n 0 }.memOk = true := by
  simp [hs, Store.copyIn_wf _ _ _ _ _ (Store.copyIn_wf _ _ _ _ _ (State.mem_wf hs))]

theorem writeFrames_memOk {m : Memory} {l : List (Nat × Nat)} {i : Nat} (hs : s.memOk = true) :
    (writeFrames m i l s).memOk = true := by
  induction l generalizing i s with
  | nil => exact hs
  | cons p r ih =>
    rw [writeFrames]
    exact ih (copyInTwice_memOk (by simp [hs]))

theorem placeImage_memOk {p : Partition} {m : Memory} (hs : s.memOk = true) : (placeImage s p m).1.memOk = true := by
  simp [placeImage, writeFrames_memOk hs]

/-! ### Queues -/

@[simp] theorem writeQctl_memOk {tenantPath : Bool} {fn q : Nat} {v : Word} :
    (writeQctl s tenantPath fn q v).memOk = s.memOk := rfl

@[simp] theorem effect_qctlWrite_memOk {pf0 : Bool} {fn : Fn} {q : Fin 4} {v : Word} :
    (effect (.qctlWrite pf0 fn q v) s).memOk = s.memOk := by simp [effect, exec_qctlWrite, execQctlWrite]

@[simp] theorem kick_memOk {key : Nat} {k : BitVec 32} : (kick s key k).memOk = s.memOk := by simp [kick]

@[simp] theorem effect_qkick_memOk {fn : Fn} {q : Fin 4} {k : Word} : (effect (.qkick fn q k) s).memOk = s.memOk := by
  simp [effect, exec_qkick, execQkick]

@[simp] theorem snoopPacket_memOk {fn : Nat} {q : Queue} {n : Nat} : (snoopPacket s fn q n).memOk = s.memOk := by
  simp [snoopPacket]

@[simp] theorem seqRead_memOk {fn key : Nat} {q : Queue} (hs : s.memOk = true) : (seqRead s fn key q).memOk = true := by
  simp [seqRead, hs]

@[simp] theorem effect_seqRead_memOk {fn : Fn} {q : Fin 4} (hs : s.memOk = true) :
    (effect (.seqRead fn q) s).memOk = true := by
  simp [effect, exec_seqRead, execSeqRead, hs]

@[simp] theorem effect_seqReread_memOk {fn : Fn} {q : Fin 4} (hs : s.memOk = true) :
    (effect (.seqReread fn q) s).memOk = true := by
  simp [effect, exec_seqReread, execSeqReread, hs]

@[simp] theorem effect_seqTimeout_memOk {fn : Fn} {q : Fin 4} (hs : s.memOk = true) :
    (effect (.seqTimeout fn q) s).memOk = true := by
  simp [effect, exec_seqTimeout, execSeqTimeout, hs]

@[simp] theorem takePacket_memOk {key : Nat} : (takePacket s key).memOk = s.memOk := rfl

theorem withPacket_memOk {fn : Nat} {q : Fin 4} {type : Nat → Bool} {pages : Nat → List Word} {f : Nat → State → State}
    (hs : s.memOk = true) (hf : ∀ p t, t.memOk = true → (f p t).memOk = true) :
    (withPacket fn q type s pages f).memOk = true := by
  simp only [withPacket]
  split
  · split
    · exact withWalks_memOk hs fun _ ht => by simp [ht]
    · split
      · exact withWalks_memOk hs fun _ ht => hf _ _ (snoopPacket_memOk.trans ht)
      · exact hs
  · exact hs

@[simp] theorem completeNow_memOk {fn : Nat} {q : Fin 4} {p status : Nat} (hs : s.memOk = true) :
    (completeNow s fn q p status).memOk = true := by
  simp [completeNow, hs]

@[simp] theorem effect_nopPacket_memOk {fn : Fn} {q : Fin 4} (hs : s.memOk = true) :
    (effect (.nopPacket fn q) s).memOk = true :=
  effect_memOk_of_exec rfl (withPacket_memOk hs fun _ _ ht => completeNow_memOk ht)

@[simp] theorem setSlot_memOk {part n : Nat} {x : Slot} (hs : s.memOk = true) (hx : x.image.wf = true) :
    (setSlot s part n x).memOk = true :=
  State.setPart_memOk hs (valuesOk_putKey (State.part_slots_ok hs) hx)

/-! ### Slots -/

theorem slotOf_image_wf {fn p : Nat} {x : Slot} (hs : s.memOk = true) (h : slotOf s fn p = some x) : x.image.wf = true :=
  State.slot_memOk_of_getKey hs h

@[simp] theorem effect_loadPacket_memOk {fn : Fn} {q : Fin 4} (hs : s.memOk = true) :
    (effect (.loadPacket fn q) s).memOk = true := by
  refine effect_memOk_of_exec rfl (withPacket_memOk hs fun p t ht => ?_)
  have hsnoop : ∀ {c : Prop} [Decidable c] {k : Partition} {va : Word} {n : Nat},
      (if c then t.snoopRead k va n else t).memOk = true := by
    intro c _ k va n
    split <;> simp [ht]
  dsimp only
  split
  · exact completeNow_memOk ht
  · split
    · exact completeNow_memOk ht
    · split
      · exact completeNow_memOk hsnoop
      · next hm => exact setSlot_memOk (takePacket_memOk.trans (placeImage_memOk hsnoop)) (loadImage_wf hm)

theorem completeOwners_memOk {l : List Completion} (hs : s.memOk = true) : (completeOwners s l).memOk = true :=
  foldl_memOk hs fun _ _ ht => complete_memOk ht

@[simp] theorem effect_loadComplete_memOk {part slot : Nat} (hs : s.memOk = true) :
    (effect (.loadComplete part slot) s).memOk = true := by
  simp only [effect, exec_loadComplete, execLoadComplete]
  split
  · next hx =>
    split
    · have himage := Slot.image_wf (State.slot_memOk_of_getKey hs hx)
      exact withPages_memOk hs fun _ ht => completeOwners_memOk (setSlot_memOk ht himage)
    · exact hs
  · exact hs

@[simp] theorem effect_evictPacket_memOk {fn : Fn} {q : Fin 4} (hs : s.memOk = true) :
    (effect (.evictPacket fn q) s).memOk = true := by
  refine effect_memOk_of_exec rfl (withPacket_memOk hs fun p t ht => ?_)
  split
  · exact completeNow_memOk ht
  · split
    · exact completeNow_memOk ht
    · next hx =>
      have himage := slotOf_image_wf ht hx
      refine setSlot_memOk (takePacket_memOk.trans ht) ?_
      split <;> exact himage

@[simp] theorem effect_evictComplete_memOk {part slot : Nat} (hs : s.memOk = true) :
    (effect (.evictComplete part slot) s).memOk = true := by
  simp only [effect, exec_evictComplete, execEvictComplete]
  split
  · split
    · exact withPages_memOk hs fun _ ht =>
        completeOwners_memOk (State.setPart_memOk ht (valuesOk_dropKey (State.part_slots_ok ht)))
    · exact hs
  · exact hs

/-! ### Launches -/

theorem copyData_memOk {p : Partition} {image : Memory} : ∀ {n off : Nat} {va : Word} {s : State}, s.memOk = true →
    (copyData p image va n off s).1.memOk = true
  | 0, _, _, _, hs => hs
  | n + 1, off, va, s, hs => by
    simp only [copyData]
    split
    · exact copyData_memOk (State.write_memOk hs fun _ hm => Store.writeByte_wf _ _ _ hm)
    · exact hs

theorem copySections_memOk {p : Partition} {image : Memory} {l : List Stage} (hs : s.memOk = true) :
    (copySections p image l s).1.memOk = true := by
  refine foldl_fst_memOk hs fun q x hq => ?_
  split
  · exact copyData_memOk hq
  · exact hq

theorem beginLaunch_memOk {fn : Nat} {q : Fin 4} {x : Nat} {slot : Slot} {stages : List Stage} {bkt : Option (Nat × Nat)}
    (hs : s.memOk = true) (hslot : slot.image.wf = true) : (beginLaunch s fn q x slot stages bkt).memOk = true := by
  have hcopy := copySections_memOk (p := s.part (partOf s fn)) (image := slot.image) (l := stages) hs
  simp only [beginLaunch]
  split
  · exact completeNow_memOk hcopy
  · refine (foldl_memOk_eq fun _ _ => addRequests_memOk).trans (State.setLaunch_memOk.trans ?_)
    exact setSlot_memOk (takePacket_memOk.trans hcopy) hslot

@[simp] theorem snoopCheck_memOk {fn x : Nat} : (snoopCheck s fn x).memOk = s.memOk :=
  foldl_memOk_eq fun _ _ => State.snoopRead_memOk

/-- The slot of a launch that passes its checks is one of its partition's. -/
theorem checkLaunch_image_wf {fn x : Nat} {r : Slot × List Stage × Option (Nat × Nat)} (hs : s.memOk = true)
    (h : checkLaunch s fn x = .ok r) : r.1.image.wf = true := by
  simp only [checkLaunch] at h
  split at h
  · simp at h
  · split at h
    · simp at h
    · next hx =>
      have hok := slotOf_image_wf hs hx
      split at h
      · simp at h
      · split at h
        · simp at h
        · split at h
          · simp at h
          · split at h
            · simp at h
            · split at h
              · simp at h
              · obtain rfl := Except.ok.inj h
                exact hok

@[simp] theorem effect_launchPacket_memOk {fn : Fn} {q : Fin 4} (hs : s.memOk = true) :
    (effect (.launchPacket fn q) s).memOk = true := by
  refine effect_memOk_of_exec rfl (withPacket_memOk hs fun p t ht => ?_)
  split
  · exact completeNow_memOk (snoopCheck_memOk.trans ht)
  · next h => exact beginLaunch_memOk (snoopCheck_memOk.trans ht) (checkLaunch_image_wf ht h)

@[simp] theorem retain_memOk {l : Launch} (hs : s.memOk = true) : (retain s l).memOk = true := by
  simp only [retain]
  split
  · next hx =>
    have himage := Slot.image_wf (State.slot_memOk_of_getKey hs hx)
    exact setSlot_memOk hs himage
  · exact hs

@[simp] theorem effect_launchRetire_memOk {launch : Nat} (hs : s.memOk = true) :
    (effect (.launchRetire launch) s).memOk = true := by
  simp only [effect, exec_launchRetire, execLaunchRetire]
  split
  · exact hs
  · split
    · exact hs
    · refine withPages_memOk hs fun t ht => ?_
      have hrings : ∀ {l : List Stage} {p : State → Partition},
          (l.foldl (fun s st => snoopRings s (p s) st) t).memOk = true :=
        (foldl_memOk_eq fun _ _ => snoopRings_memOk).trans ht
      split
      · exact complete_memOk (dropLaunch_memOk (retain_memOk hrings))
      · exact hrings

/-! ### The reload of Madder -/

@[simp] theorem effect_madderReload_memOk : (effect (.madderReload ) s).memOk = s.memOk := rfl

@[simp] theorem loseTable_memOk {key : Nat} (hs : s.memOk = true) : (loseTable s key).memOk = true := by
  simp [loseTable, hs]

@[simp] theorem effect_madderReloadEnd_memOk (hs : s.memOk = true) : (effect .madderReloadEnd s).memOk = true := by
  simp only [effect, exec_madderReloadEnd, execMadderReloadEnd]
  split
  · exact hs
  · refine withPages_memOk hs fun t ht => foldl_memOk ?_ fun _ _ hu => writeCompletion_memOk hu
    refine (foldl_memOk_eq fun _ _ => kick_memOk).trans (foldl_memOk ?_ fun _ _ hu => loseTable_memOk hu)
    simp [ht]
end Sys2Proof.Machine
end

section
/-! ## One issue of a word; control and system words (Machine/Run, Machine/Control and Machine/System) -/
namespace Sys2Proof.Machine
variable {s : State}

/-! ### One issue of a word -/

@[simp] theorem finish_memOk (hs : s.memOk = true) : (finish s).memOk = true := by
  simp only [finish]
  split <;> simp [hs]

@[simp] theorem beforeWord_memOk {l : Line} (hs : s.memOk = true) : (beforeWord s l).memOk = true := by
  simp only [beforeWord]
  repeat' split
  all_goals simp [hs]

@[simp] theorem refuse_memOk {r : Reject} (hs : s.memOk = true) : (refuse s r).memOk = true := by
  simp only [refuse]
  split <;> simp [hs]

@[simp] theorem skipWord_memOk {raw : Word} : (skipWord s raw).memOk = s.memOk := rfl

section
variable {ex : Instr → State → State} (hex : ∀ i t, t.memOk = true → (ex i t).memOk = true)
include hex

theorem runBody_memOk {l : Line} (hs : s.memOk = true) : (runBody ex s l).memOk = true := by
  simp only [runBody]
  split
  · exact hex _ s hs
  · split
    · split <;> simp [hs, hex]
    · split <;> simp [hs, hex]
    · simp [hs]
    · simp [hs]
    · simp [hs]

theorem runLine_memOk {l : Line} (hs : s.memOk = true) : (runLine ex s l).memOk = true := by
  refine finish_memOk ?_
  split
  · exact runBody_memOk hex (beforeWord_memOk hs)
  · exact runBody_memOk hex hs

theorem issueAt_memOk {sync : Bool} (hs : s.memOk = true) : (issueAt ex s sync).memOk = true := by
  simp only [issueAt]
  split
  · simp [hs]
  · simp [hs]
  · simp [hs]
  · split
    · simp [hs]
    · split
      · split
        · simp [hs]
        · simp [hs]
        · split
          · simp [hs]
          · exact runLine_memOk hex (by simp [hs])
      · split
        · simp [hs]
        · exact runLine_memOk hex (by simp [hs])

theorem issueStep_memOk {b w : Nat} (hs : s.memOk = true) : (issueStep ex s b w).memOk = true := by
  refine withAgent_memOk hs fun t ht => ?_
  split
  · split <;> simp [ht]
  · split
    · simp [ht]
    · exact issueAt_memOk hex (by simp [ht])

end

/-! ### Control words -/

@[simp] theorem State.goto_memOk {t : Word} : (State.goto s t).memOk = s.memOk := rfl

@[simp] theorem effect_br_memOk {off : BitVec 34} (hs : s.memOk = true) : (effect (.br off) s).memOk = true := by
  simp +contextual [effect, exec_br, execBr, hs]

@[simp] theorem effect_jmp_memOk {a : SReg} {off : BitVec 34} (hs : s.memOk = true) :
    (effect (.jmp a off) s).memOk = true := by
  simp +contextual [effect, exec_jmp, execJmp, hs]

@[simp] theorem effect_call_memOk {off : BitVec 34} (hs : s.memOk = true) : (effect (.call off) s).memOk = true := by
  simp +contextual [effect, exec_call, execCall, hs]

@[simp] theorem effect_ret_memOk (hs : s.memOk = true) : (effect (.ret ) s).memOk = true := by
  simp +contextual [effect, exec_ret, execRet, hs]

@[simp] theorem effect_loop_memOk {a : SReg} {off : BitVec 34} (hs : s.memOk = true) :
    (effect (.loop a off) s).memOk = true := by
  refine effect_memOk_of_exec rfl (issueWord_memOk hs fun t ht => State.checkPoison_memOk ht fun u hu => ?_)
  dsimp only
  split <;> simp [hu]

@[simp] theorem State.passed_memOk : (State.passed s).memOk = s.memOk := rfl

@[simp] theorem effect_rep_memOk {a : SReg} (hs : s.memOk = true) : (effect (.rep a) s).memOk = true := by
  simp +contextual [effect, exec_rep, execRep, hs]

@[simp] theorem effect_syncm_memOk {mask : BitVec 4} (hs : s.memOk = true) : (effect (.syncm mask) s).memOk = true := by
  simp +contextual [effect, exec_syncm, execSyncm, hs]

@[simp] theorem effect_waitt_memOk {a : SReg} (hs : s.memOk = true) : (effect (.waitt a) s).memOk = true := by
  refine effect_memOk_of_exec rfl (issueWord_memOk hs fun t ht => State.checkPoison_memOk ht fun u hu => ?_)
  split <;> simp [hu]

@[simp] theorem openRegion_memOk {start : Word} {off : BitVec 34} : (openRegion s start off).memOk = s.memOk := by
  simp [openRegion]

@[simp] theorem effect_timed_memOk {a : SReg} {off : BitVec 34} (hs : s.memOk = true) :
    (effect (.timed a off) s).memOk = true := by
  refine effect_memOk_of_exec rfl (issueWord_memOk hs fun t ht => State.checkPoison_memOk ht fun u hu => ?_)
  split <;> simp [hu]

@[simp] theorem raiseMiss_memOk {miss : Nat × Nat} {m : BitVec 32} (hs : s.memOk = true) :
    (raiseMiss s miss m).memOk = true := by
  simp [raiseMiss, hs]

@[simp] theorem plainMark_memOk {m : BitVec 32} (hs : s.memOk = true) : (plainMark m s).memOk = true := by
  simp only [plainMark]
  repeat' split
  all_goals simp [hs]

@[simp] theorem asStream_memOk {w : Nat} {f : State → State} (hs : s.memOk = true)
    (hf : ∀ t, t.memOk = true → (f t).memOk = true) : (asStream s w f).memOk = true := by
  simp only [asStream]
  set t := f _ with ht
  have hok : t.memOk = true := by
    rw [ht]
    exact hf _ (by simp [hs])
  simp [hok]

@[simp] theorem boundaryOne_memOk {w : Nat} (hs : s.memOk = true) : (boundaryOne s w).memOk = true := by
  simp only [boundaryOne]
  split
  · exact hs
  · exact asStream_memOk hs fun _ ht => by simp [ht]

@[simp] theorem stopSlice_memOk (hs : s.memOk = true) : (stopSlice s).memOk = true := by
  have hpart : (s.setPart s.blk.part { s.part s.blk.part with stoppedAt := some s.tbase }).memOk = true := by simp [hs]
  have hblk := Block.scrubbed_memOk (State.blk_memOk hs)
  exact State.setAg_memOk.trans (State.setBlk_memOk hpart hblk)

@[simp] theorem boundaryIssue_memOk (hs : s.memOk = true) : (boundaryIssue s).memOk = true := by
  have hall : (commitOperator ((runningStreams s).foldl boundaryOne s)).memOk = true :=
    commitOperator_memOk (foldl_memOk hs fun _ _ ht => boundaryOne_memOk ht)
  simp only [boundaryIssue]
  split <;> simp [hall]

@[simp] theorem boundaryMark_memOk {m : BitVec 32} (hs : s.memOk = true) : (boundaryMark m s).memOk = true := by
  simp only [boundaryMark]
  repeat' split
  all_goals simp [hs]

@[simp] theorem issueBoundary_memOk {m : BitVec 32} (hs : s.memOk = true) : (issueBoundary m s).memOk = true := by
  simp only [issueBoundary]
  split
  · exact issueWord_memOk hs fun _ ht => by simp [ht]
  · split <;> simp [hs]
  · simp [hs]

@[simp] theorem effect_mark_memOk {m : BitVec 32} (hs : s.memOk = true) : (effect (.mark m) s).memOk = true := by
  simp only [effect, exec_mark, execMark]
  split
  · exact issueBoundary_memOk hs
  · exact issueWord_memOk hs fun _ ht => by simp [ht]

@[simp] theorem effect_exit_memOk (hs : s.memOk = true) : (effect .exit s).memOk = true := by
  refine effect_memOk_of_exec rfl (issueWord_memOk hs fun t ht => ?_)
  repeat' split
  all_goals simp [ht]

/-! ### System words -/

@[simp] theorem effect_mfc_memOk {d : SReg} {cr : BitVec 12} (hs : s.memOk = true) :
    (effect (.mfc d cr) s).memOk = true := by
  simp +contextual [effect, exec_mfc, execMfc, hs]

@[simp] theorem writeShared_memOk {n : Nat} {x : Word} (hs : s.memOk = true) : (writeShared s n x).memOk = true := by
  simp [writeShared, hs]

@[simp] theorem effect_mtc_memOk {a : SReg} {cr : BitVec 12} (hs : s.memOk = true) :
    (effect (.mtc a cr) s).memOk = true := by
  refine effect_memOk_of_exec rfl (issueWord_memOk hs fun t ht => State.checkPoison_memOk ht fun u hu => ?_)
  dsimp only
  repeat' split
  all_goals simp [hu]

@[simp] theorem effect_mtcTcmp_memOk {a : SReg} (hs : s.memOk = true) : (effect (.mtcTcmp a) s).memOk = true := by
  simp +contextual [effect, exec_mtcTcmp, execMtcTcmp, hs]

@[simp] theorem effect_mtcSstat_memOk {a : SReg} (hs : s.memOk = true) : (effect (.mtcSstat a) s).memOk = true := by
  refine effect_memOk_of_exec rfl (issueWord_memOk hs fun t ht => State.checkPoison_memOk ht fun u hu => ?_)
  dsimp only
  repeat' split
  all_goals simp [hu]

@[simp] theorem effect_trap_memOk {code : BitVec 22} (hs : s.memOk = true) : (effect (.trap code) s).memOk = true := by
  simp +contextual [effect, exec_trap, execTrap, hs]

@[simp] theorem effect_eret_memOk (hs : s.memOk = true) : (effect .eret s).memOk = true := by
  refine effect_memOk_of_exec rfl (issueWord_memOk hs fun t ht => ?_)
  dsimp only
  repeat' split
  all_goals simp [ht]

@[simp] theorem effect_fenceh_memOk (hs : s.memOk = true) : (effect .fenceh s).memOk = true := by
  refine effect_memOk_of_exec rfl (issueWord_memOk hs fun t ht => ?_)
  split <;> simp [ht]

@[simp] theorem effect_waiti_memOk {mask : BitVec 8} (hs : s.memOk = true) : (effect (.waiti mask) s).memOk = true := by
  simp +contextual [effect, exec_waiti, execWaiti, hs]

@[simp] theorem effect_seed_memOk {n : Fin 2} {a : SReg} (hs : s.memOk = true) : (effect (.seed n a) s).memOk = true := by
  simp +contextual [effect, exec_seed, execSeed, hs]

@[simp] theorem effect_tlbinv_memOk {a : SReg} {scope : Fin 4} (hs : s.memOk = true) :
    (effect (.tlbinv a scope) s).memOk = true := by
  refine effect_memOk_of_exec rfl (issueWord_memOk hs fun t ht => State.checkPoison_memOk ht fun u hu => ?_)
  dsimp only
  split
  · simp [hu]
  · exact State.issued_memOk.trans ((foldl_memOk_eq fun _ _ => State.setCore_memOk).trans (by simp [hu]))

@[simp] theorem withBank_memOk {bank kind : Nat} {f : State → State} (hs : s.memOk = true)
    (hf : ∀ t, t.memOk = true → (f t).memOk = true) : (withBank bank kind s f).memOk = true := by
  simp only [withBank]
  split
  · simp [hs]
  · split <;> simp [hs, hf]

@[simp] theorem effect_banksv_memOk {bank : Fin 16} {kind : Fin 4} (hs : s.memOk = true) :
    (effect (.banksv bank kind) s).memOk = true :=
  effect_memOk_of_exec rfl (issueWord_memOk hs fun _ ht => withBank_memOk ht fun _ hu => by simp [hu])

@[simp] theorem loadVectors_memOk {bank : Nat} : (loadVectors s bank).memOk = s.memOk := by
  simp only [loadVectors]
  split <;> rfl

@[simp] theorem effect_bankld_memOk {bank : Fin 16} {kind : Fin 4} (hs : s.memOk = true) :
    (effect (.bankld bank kind) s).memOk = true := by
  refine effect_memOk_of_exec rfl (issueWord_memOk hs fun _ ht => withBank_memOk ht fun u hu => ?_)
  split <;> simp [hu]

@[simp] theorem effect_pcmd_memOk {a : SReg} (hs : s.memOk = true) : (effect (.pcmd a) s).memOk = true := by
  refine effect_memOk_of_exec rfl (issueWord_memOk hs fun t ht => State.checkPoison_memOk ht fun u hu => ?_)
  dsimp only
  repeat' split
  all_goals simp [hu]
end Sys2Proof.Machine
end

section
/-! ## The partition controller and the host's accesses (Machine/Parts and Machine/HostMem) -/
namespace Sys2Proof.Machine
variable {s : State}

theorem State.memOk_ite_of {c : Prop} [Decidable c] {t u : State} (ht : t.memOk = true) (hu : u.memOk = true) :
    (if c then t else u).memOk = true := by
  split
  · exact ht
  · exact hu

/-! ### Tables and commands -/

theorem withTable_memOk {p q : Partition} {ttbase addr : Word} (hp : p.memOk = true)
    (h : withTable s p ttbase addr = some q) : q.memOk = true := by
  simp only [withTable] at h
  split at h
  · obtain rfl := Option.some.inj h
    exact hp
  · obtain ⟨t, -, rfl⟩ := Option.map_eq_some_iff.mp h
    exact hp

@[simp] theorem snoopHeader_memOk {p : Partition} {ttbase addr : Word} :
    (snoopHeader s p ttbase addr).memOk = s.memOk := by simp [snoopHeader]

@[simp] theorem dropTranslations_memOk {n : Nat} : (dropTranslations s n).memOk = s.memOk :=
  (foldl_memOk_eq fun _ _ => State.setCore_memOk).trans (by simp)

theorem createFirst_memOk (hs : s.memOk = true) : (createFirst s).memOk = true :=
  State.setPart_memOk hs (rfl : (firstPartition s).memOk = true)

theorem takeCommand_memOk {ops : Nat → Bool} {pages : Nat → List (Partition × Word)}
    {f : Pcmd → Nat → State → Except Nat State} (hs : s.memOk = true)
    (hf : ∀ c x t u, t.memOk = true → f c x t = .ok u → u.memOk = true) : (takeCommand ops s pages f).memOk = true := by
  simp only [takeCommand]
  split
  · exact hs
  · split
    · exact hs
    · split
      · refine withPages_memOk hs fun t ht => ?_
        split <;> simp [ht]
      · split
        · exact hs
        · refine withPages_memOk hs fun t ht => ?_
          split
          · simp [ht]
          · split
            · next hu => exact hf _ _ _ _ (by simp [ht]) hu
            · simp [ht]

theorem withCommand_memOk {ops : Nat → Bool} {pages : Nat → List (Partition × Word)} {f : Nat → State → Except Nat State}
    (hs : s.memOk = true) (hf : ∀ x t u, t.memOk = true → f x t = .ok u → u.memOk = true) :
    (withCommand ops s pages f).memOk = true := by
  refine takeCommand_memOk hs fun c x t u ht hu => ?_
  cases hx : f x t with
  | error n => simp [hx, Except.map] at hu
  | ok v =>
    obtain rfl := Except.ok.inj (by simpa only [hx, Except.map] using hu)
    exact writeReport_memOk (hf x t v ht hx)

theorem newPartition_memOk {x : Nat} : (newPartition s x).memOk = true := rfl

theorem givenFrom_memOk {x : Nat} (hs : s.memOk = true) : (givenFrom s x).memOk = true := by
  simp [givenFrom, hs]

theorem createPartition_memOk {x : Nat} {t : State} (hs : s.memOk = true) (h : createPartition x s = .ok t) :
    t.memOk = true := by
  simp only [createPartition] at h
  split at h
  · simp at h
  · split at h
    · simp at h
    · next p hp =>
      obtain rfl := Except.ok.inj h
      have hnew := withTable_memOk newPartition_memOk hp
      have hset : ∀ {t : State} {l : List (Nat × Vector Window 16)}, t.memOk = true →
          (({ t with keptWindows := l }.setPart (Cmd.giver x) (givenFrom t x)).setPart (Cmd.target x) p).memOk = true :=
        fun ht => State.setPart_memOk (State.setPart_memOk ht (givenFrom_memOk ht)) hnew
      refine writeCap_memOk (writeCap_memOk ?_)
      split
      · exact beginSlice_memOk (hset (snoopHeader_memOk.trans hs))
      · exact hset (snoopHeader_memOk.trans hs)

@[simp] theorem effect_pcCreate_memOk (hs : s.memOk = true) : (effect .pcCreate s).memOk = true :=
  effect_memOk_of_exec rfl (withCommand_memOk hs fun _ _ _ ht hu => createPartition_memOk ht hu)

theorem cmdTarget_memOk {x : Nat} {p : Partition} (hs : s.memOk = true) (h : cmdTarget s x = some p) : p.memOk = true :=
  State.part_memOk_of_getKey hs (Option.ite_none_left_eq_some.mp h).2

@[simp] theorem effect_pcDestroy_memOk (hs : s.memOk = true) : (effect .pcDestroy s).memOk = true := by
  refine effect_memOk_of_exec rfl (takeCommand_memOk hs fun c x t u ht hu => ?_)
  dsimp only at hu
  split at hu
  · simp at hu
  · obtain rfl := Except.ok.inj hu
    exact startRung_memOk ht

theorem finishQuota_memOk {n : Nat} {p : Partition} {q : Quota} (hs : s.memOk = true) (hp : p.memOk = true) :
    (finishQuota s n p q).memOk = true :=
  writeReport_memOk (writeCap_memOk (State.setPart_memOk hs (hp : (p.withQuota q).memOk = true)))

/-- The partition whose quotas are due is one of the state's. -/
theorem quotaDue_memOk {r : Nat × Partition × Quota} (hs : s.memOk = true) (h : quotaDue s = some r) : r.2.1.memOk = true := by
  obtain ⟨p, hp, hr⟩ := List.exists_of_findSome?_eq_some h
  obtain ⟨q, -, hq⟩ := Option.bind_eq_some_iff.mp hr
  obtain ⟨t, -, ht⟩ := Option.bind_eq_some_iff.mp hq
  obtain rfl := Option.some.inj (Option.ite_none_right_eq_some.mp ht).2
  exact valuesOk_iff.mp (State.parts_ok hs) p hp

@[simp] theorem effect_pcSetquota_memOk (hs : s.memOk = true) : (effect .pcSetquota s).memOk = true := by
  simp only [effect, exec_pcSetquota, execPcSetquota]
  split
  · next h => exact withPages_memOk hs fun _ ht => finishQuota_memOk ht (quotaDue_memOk hs h)
  · refine takeCommand_memOk hs fun c x t u ht hu => ?_
    split at hu
    · simp at hu
    · next hp =>
      split at hu
      · simp at hu
      · obtain rfl := Except.ok.inj hu
        exact State.setPart_memOk ht (by simpa using cmdTarget_memOk ht hp)

@[simp] theorem effect_pcMapvf_memOk (hs : s.memOk = true) : (effect .pcMapvf s).memOk = true := by
  refine effect_memOk_of_exec rfl (withCommand_memOk hs fun x t u ht hu => ?_)
  dsimp only at hu
  split at hu
  · simp at hu
  · obtain rfl := Except.ok.inj hu
    simp [ht]

@[simp] theorem effect_pcSettable_memOk (hs : s.memOk = true) : (effect .pcSettable s).memOk = true := by
  refine effect_memOk_of_exec rfl (State.memOk_ite_of hs (withCommand_memOk hs fun x t u ht hu => ?_))
  split at hu
  · simp at hu
  · next hp =>
    split at hu
    · simp at hu
    · next hq =>
      obtain rfl := Except.ok.inj hu
      simp [ht, withTable_memOk (cmdTarget_memOk ht hp) hq]

@[simp] theorem effect_pcReset_memOk (hs : s.memOk = true) : (effect .pcReset s).memOk = true := by
  refine effect_memOk_of_exec rfl (withCommand_memOk hs fun x t u ht hu => ?_)
  split at hu
  · simp at hu
  · obtain rfl := Except.ok.inj hu
    exact startRungs_memOk ht

@[simp] theorem effect_pcSetisa_memOk (hs : s.memOk = true) : (effect .pcSetisa s).memOk = true := by
  refine effect_memOk_of_exec rfl (withCommand_memOk hs fun x t u ht hu => ?_)
  split at hu
  · simp at hu
  · next hp =>
    dsimp only at hu
    split at hu
    · simp at hu
    · obtain rfl := Except.ok.inj hu
      exact writeCap_memOk (State.setPart_memOk ht (by simpa using cmdTarget_memOk ht hp))

/-! ### The host -/

@[simp] theorem effect_hostMemRead_memOk {pa : Nat} : (effect (.hostMemRead pa) s).memOk = s.memOk := by
  simp [effect, exec_hostMemRead, execHostMemRead]

theorem writeEnabled_wf {poison : Bool} : ∀ {l : List (Byte × Bool)} {a : Nat} {m : Store}, m.wf = true →
    (writeEnabled poison a l m).wf = true
  | [], _, _, hm => hm
  | (b, e) :: r, a, m, hm => by
    simp only [writeEnabled]
    refine writeEnabled_wf ?_
    split
    · exact Store.setByteGranule_wf hm
    · exact hm

@[simp] theorem State.memOk_writeEnabled {poison : Bool} {a : Nat} {l : List (Byte × Bool)} (hs : s.memOk = true) :
    { s with mem := writeEnabled poison a l s.mem }.memOk = true := by
  simp [hs, writeEnabled_wf (State.mem_wf hs)]

@[simp] theorem effect_hostMemWrite_memOk {pa : Nat} {data : List Byte} {enables : List Bool} {poison : Bool} (hs : s.memOk = true) :
    (effect (.hostMemWrite pa data enables poison) s).memOk = true := by
  simp only [effect, exec_hostMemWrite, execHostMemWrite]
  repeat' split
  · exact hs
  · exact State.memOk_writeEnabled hs
  · simp [hs]

@[simp] theorem setWindow_memOk {part : Nat} {win : Fin 16} {f : Window → Window} (hs : s.memOk = true) :
    (setWindow s part win f).memOk = true := by
  simp only [setWindow]
  split
  · next hp => exact State.setPart_memOk hs (by simpa using State.part_memOk_of_getKey hs hp)
  · split <;> simp [hs]

@[simp] theorem effect_windowLock_memOk {part : Nat} {win : Fin 16} (hs : s.memOk = true) :
    (effect (.windowLock part win) s).memOk = true := effect_memOk_of_exec rfl (setWindow_memOk hs)

@[simp] theorem effect_hypkeyLock_memOk {key : List Byte} : (effect (.hypkeyLock key) s).memOk = s.memOk := by
  simp [effect, exec_hypkeyLock, execHypkeyLock]

@[simp] theorem p1rootWrite_memOk {v : Word} (hs : s.memOk = true) : (p1rootWrite s v).memOk = true := by
  simp only [p1rootWrite]
  split
  · exact hs
  · split
    · next p hp =>
      have hpart := State.part_memOk_of_getKey hs hp
      have hset : ∀ {root : BitVec 40}, ({ s with p1root := root }.setPart 1 { p with ttroot := root }).memOk = true :=
        State.setPart_memOk hs hpart
      exact dropTranslations_memOk.trans hset
    · simp [hs]

@[simp] theorem effect_p1rootWrite_memOk {v : Word} (hs : s.memOk = true) : (effect (.p1rootWrite v) s).memOk = true := by
  simp only [effect, exec_p1rootWrite, execP1rootWrite]
  split <;> simp [hs]

@[simp] theorem fabidWrite_memOk {v : Word} : (fabidWrite s v).memOk = s.memOk := by simp [fabidWrite]

@[simp] theorem effect_fabidWrite_memOk {v : Word} : (effect (.fabidWrite v) s).memOk = s.memOk := by
  simp [effect, exec_fabidWrite, execFabidWrite]

@[simp] theorem frouteWrite_memOk {p : Nat} {v : Word} : (frouteWrite s p v).memOk = s.memOk := by simp [frouteWrite]

@[simp] theorem exportWrite_memOk {n word : Nat} {v : Word} : (exportWrite s n word v).memOk = s.memOk := rfl

@[simp] theorem qbaseWrite_memOk {key : Nat} {v : Word} : (qbaseWrite s key v).memOk = s.memOk := by simp [qbaseWrite]

@[simp] theorem fresetWrite_memOk {fn : Nat} {v : Word} (hs : s.memOk = true) : (fresetWrite s fn v).memOk = true := by
  simp only [fresetWrite]
  split
  · exact effect_fresetQueue_memOk hs
  · exact effect_fresetContext_memOk hs
  · exact effect_fresetEngine_memOk hs
  · exact effect_fresetPartition_memOk hs
  · exact effect_fresetDevice_memOk hs
  · exact hs

@[simp] theorem pf0Write_memOk {off : Nat} {v : Word} (hs : s.memOk = true) : (pf0Write s off v).memOk = true := by
  simp only [pf0Write]
  repeat' split
  all_goals simp [hs]

@[simp] theorem barWrite_memOk {fn off : Nat} {v : Word} (hs : s.memOk = true) : (barWrite s fn off v).memOk = true := by
  simp only [barWrite]
  repeat' split
  all_goals simp [hs]

@[simp] theorem effect_barRegWrite_memOk {fn : Fn} {off : Nat} {v : Word} (hs : s.memOk = true) :
    (effect (.barRegWrite fn off v) s).memOk = true := effect_memOk_of_exec rfl (barWrite_memOk hs)
end Sys2Proof.Machine
end

section
/-! ## The fabric, the collective engine and power (Machine/Fabric, Machine/Collective and Machine/Power) -/
namespace Sys2Proof.Machine
variable {s : State}

/-! ### The fabric -/

@[simp] theorem sendAck_memOk {i : Fin 16} {dst : Nat} : (sendAck s i dst).memOk = s.memOk := by simp [sendAck]

@[simp] theorem refuseRequest_memOk {pkg : Nat} : (refuseRequest s pkg).memOk = s.memOk := by simp [refuseRequest]

@[simp] theorem forwardFlit_memOk {f : Flit} : (forwardFlit s f).memOk = s.memOk := by simp [forwardFlit]

@[simp] theorem deliverFlit_memOk {f : Flit} : (deliverFlit s f).memOk = s.memOk := by
  simp only [deliverFlit]
  repeat' split
  all_goals simp

@[simp] theorem flitReceive_memOk {i : Fin 16} {f : Flit} : (flitReceive s i f).memOk = s.memOk := by simp [flitReceive]

@[simp] theorem effect_flitReceive_memOk {link : Fin 16} {f : Flit} :
    (effect (.flitReceive link f) s).memOk = s.memOk := by simp [effect, exec_flitReceive, execFlitReceive]

@[simp] theorem effect_flitResend_memOk {link : Fin 16} {fromSeq : Nat} :
    (effect (.flitResend link fromSeq) s).memOk = s.memOk := by
  simp only [effect, exec_flitResend, execFlitResend]
  split <;> simp

@[simp] theorem effect_linkRetrain_memOk {link : Fin 16} : (effect (.linkRetrain link) s).memOk = s.memOk := by
  simp [effect, exec_linkRetrain, execLinkRetrain]

@[simp] theorem clearStalls_memOk : (clearStalls s).memOk = s.memOk := rfl

@[simp] theorem moveTraffic_memOk {old : Fin 16} : (moveTraffic s old).memOk = s.memOk := by simp [moveTraffic]

@[simp] theorem effect_retrainComplete_memOk {link : Fin 16} {ok : Bool} :
    (effect (.retrainComplete link ok) s).memOk = s.memOk := by simp [effect, exec_retrainComplete, execRetrainComplete]

@[simp] theorem effect_linkTraining_memOk {link : Fin 16} : (effect (.linkTraining link) s).memOk = s.memOk := by
  simp [effect, exec_linkTraining, execLinkTraining]

theorem writeRequest_wf {lanes poison first : Nat} : ∀ {l : List Byte} {a : Nat} {m : Store}, m.wf = true →
    (writeRequest lanes poison first a l m).wf = true
  | [], _, _, hm => hm
  | b :: r, a, m, hm => by
    simp only [writeRequest]
    refine writeRequest_wf ?_
    split
    · exact Store.setByteGranule_wf hm
    · exact hm

@[simp] theorem answerRequest_memOk {pkg : Nat} {d : List Byte} {poison : Nat} :
    (answerRequest s pkg d poison).memOk = s.memOk := by simp [answerRequest]

@[simp] theorem serveRequest_memOk {r : RemoteReq} (hs : s.memOk = true) : (serveRequest s r).memOk = true := by
  have hsnoop : (s.snoop r.off r.len).memOk = true := State.snoop_memOk.trans hs
  simp only [serveRequest]
  split
  · refine answerRequest_memOk.trans ?_
    split
    · exact hsnoop
    · split
      · exact State.write_memOk hsnoop fun _ hm => Store.writeWords_wf _ _ _ _ _ hm
      · exact hsnoop
  · split
    · exact answerRequest_memOk.trans hsnoop
    · exact answerRequest_memOk.trans (State.write_memOk hsnoop fun _ hm => writeRequest_wf hm)

@[simp] theorem effect_remoteRequest_memOk {r : RemoteReq} (hs : s.memOk = true) :
    (effect (.remoteRequest r) s).memOk = true := by
  simp [effect, exec_remoteRequest, execRemoteRequest, hs]

@[simp] theorem effect_remoteRouteTimeout_memOk {part pkg : Nat} (hs : s.memOk = true) :
    (effect (.remoteRouteTimeout part pkg) s).memOk = true := by
  simp only [effect, exec_remoteRouteTimeout, execRemoteRouteTimeout]
  split
  · exact hs
  · split <;> simp [hs]

@[simp] theorem joinTime_memOk {count : Word} (hs : s.memOk = true) : (joinTime s count).memOk = true := by
  simp [joinTime, hs]

@[simp] theorem slew_memOk {count : Word} (hs : s.memOk = true) : (slew s count).memOk = true := by
  simp [slew, hs]

@[simp] theorem timeSync_memOk {link : Fin 16} {count : Word} (hs : s.memOk = true) : (timeSync s link count).memOk = true := by
  simp only [timeSync]
  repeat' split
  all_goals simp [hs]

@[simp] theorem effect_timeSyncFlit_memOk {link : Fin 16} {count : Word} (hs : s.memOk = true) :
    (effect (.timeSyncFlit link count) s).memOk = true := by
  simp [effect, exec_timeSyncFlit, execTimeSyncFlit, hs]

@[simp] theorem effect_timesyncLoss_memOk : (effect (.timesyncLoss ) s).memOk = s.memOk := by
  simp [effect, exec_timesyncLoss, execTimesyncLoss]

/-! ### The collective engine -/

@[simp] theorem engSnoop_memOk {p : Partition} {x : Word × Nat} : (engSnoop p s x).memOk = s.memOk := by simp [engSnoop]

theorem engWrite_memOk {id : Nat} {poison : Bool} : ∀ {l : List Byte} {va : Word} {s : State}, s.memOk = true →
    (engWrite id poison l va s).memOk = true
  | [], _, _, hs => hs
  | x :: r, va, s, hs => by
    have hpad : ∀ {k o : Nat}, (s.setBlock k { s.block k with
        pad := ((s.block k).pad.setByte o x).setGranule (o / 4) poison }).memOk = true := fun {k o} =>
      State.setBlock_memOk hs (by simp [hs, Store.setByteGranule_wf (Block.pad_wf (State.block_memOk (b := k) hs))])
    simp only [engWrite]
    refine engWrite_memOk ?_
    split
    · exact hpad
    · exact hpad
    · exact State.write_memOk hs fun _ hm => Store.setByteGranule_wf hm
    · exact hs

@[simp] theorem tellOthers_memOk {b : Block} {m : Member} : (tellOthers s b m).memOk = s.memOk :=
  foldl_memOk_eq fun _ _ => sendTo_memOk

@[simp] theorem takeCollective_memOk {id : Nat} {b : Block} {v : Word} : (takeCollective s id b v).memOk = s.memOk := by
  simp only [takeCollective]
  repeat' split
  all_goals simp

theorem takePort_memOk {id : Nat} {port : Fin 4} (hs : s.memOk = true) : (takePort s id port).memOk = true := by
  simp only [takePort]
  split
  · exact hs
  · next hb =>
    have hok := State.memOk_of_getKey hs hb
    split
    · exact reportTake_memOk hs
    · split
      · exact hs
      · split
        · exact hs
        · split
          · refine withWalks_memOk hs fun _ ht => takeCollective_memOk.trans ?_
            exact State.setBlock_memOk ht (Block.setPort_memOk.trans hok)
          · exact State.setBlock_memOk hs (Block.setPort_memOk.trans hok)

@[simp] theorem effect_take_memOk {b : Nat} {port : Fin 4} (hs : s.memOk = true) : (effect (.take b port) s).memOk = true :=
  effect_memOk_of_exec rfl (takePort_memOk hs)

theorem postPort_memOk {id : Nat} {port : Fin 4} (hs : s.memOk = true) : (postPort s id port).memOk = true := by
  simp only [postPort]
  split
  · exact walkerPost_memOk hs
  · split
    · split
      · next hb =>
        split
        · exact State.setBlock_memOk (by simp [hs]) (Block.setPort_memOk.trans (State.memOk_of_getKey hs hb))
        · exact hs
      · exact hs
    · exact hs

@[simp] theorem effect_post_memOk {b : Nat} {port : Fin 4} (hs : s.memOk = true) : (effect (.post b port) s).memOk = true :=
  effect_memOk_of_exec rfl (postPort_memOk hs)

theorem startIn_memOk {group tag part : Nat} {t : State} (h : startIn s group tag part = some t) : t.memOk = s.memOk := by
  simp only [startIn] at h
  split at h
  · simp at h
  · split at h
    · simp at h
    · split at h
      · obtain rfl := Option.some.inj h
        exact State.stall_memOk
      · obtain rfl := Option.some.inj (Option.ite_none_right_eq_some.mp h).2
        rfl

@[simp] theorem effect_collectiveStart_memOk {group tag : Nat} (hs : s.memOk = true) :
    (effect (.collectiveStart group tag) s).memOk = true := by
  simp only [effect, exec_collectiveStart, execCollectiveStart]
  cases h : (groupParts s group tag false).findSome? (startIn s group tag) with
  | none => exact hs
  | some t =>
    obtain ⟨part, -, ht⟩ := List.exists_of_findSome?_eq_some h
    exact (startIn_memOk ht).trans hs

theorem deliverResult_memOk {op ty nmem : Nat} {out : List Nat} {poison : Bool} {m : Member} (hs : s.memOk = true) :
    (deliverResult op ty nmem out poison s m).memOk = true := engWrite_memOk hs

theorem deliverFree_memOk {nmem : Nat} {m : Member} (hs : s.memOk = true) : (deliverFree nmem s m).memOk = true :=
  engWrite_memOk hs

theorem moveData_memOk {l : List Member} {m : Member} (hs : s.memOk = true) : (moveData s l m).memOk = true :=
  foldl_memOk hs fun _ _ ht => deliverResult_memOk ht

theorem finishCollective_memOk {l : List Member} {m : Member} (hs : s.memOk = true) :
    (finishCollective s l m).2.memOk = true := by
  simp only [finishCollective]
  split
  · exact hs
  · split
    · exact foldl_memOk hs fun _ _ ht => deliverFree_memOk ht
    · exact moveData_memOk hs

theorem postResults_memOk {l : List Member} {m : Member} (hs : s.memOk = true) : (postResults s l m).memOk = true := by
  refine foldl_memOk ?_ fun _ _ ht => postPort_memOk (by simp [ht])
  exact finishCollective_memOk ((foldl_memOk_eq fun _ _ => engSnoop_memOk).trans hs)

@[simp] theorem effect_collectiveComplete_memOk {group tag : Nat} (hs : s.memOk = true) :
    (effect (.collectiveComplete group tag) s).memOk = true := by
  simp only [effect, exec_collectiveComplete, execCollectiveComplete]
  split
  · exact hs
  · split
    · exact hs
    · exact withWalks_memOk hs fun _ ht => postResults_memOk ht

/-! ### Bring-up and power -/

theorem natSetFrom_filter {f : Nat → Bool} : ∀ {l : List Nat} {lo : Nat}, natSetFrom lo l = true →
    natSetFrom lo (l.filter f) = true
  | [], _, _ => rfl
  | k :: r, lo, h => by
    simp only [natSetFrom, Bool.and_eq_true, decide_eq_true_eq] at h
    obtain ⟨hk, hr⟩ := h
    rw [List.filter_cons]
    split
    · simp [natSetFrom, hk, natSetFrom_filter hr]
    · exact natSetFrom_filter (natSetFrom_mono r (k + 1) lo (by omega) hr)

theorem Store.outside_wf {m : Store} (h : m.wf = true) : m.outside.wf = true := by
  simp only [Store.wf, Bool.and_eq_true] at h ⊢
  exact ⟨Memory.filter_wfFrom _ _ _ h.1, natSetFrom_filter h.2⟩

theorem unpowered_memOk {d : Device} (hs : s.memOk = true) : (unpowered s d).memOk = true :=
  (State.memOk_iff _).mpr ⟨Store.outside_wf (State.mem_wf hs), rfl, rfl, rfl⟩

@[simp] theorem effect_powerOn_memOk : (effect (.powerOn ) s).memOk = s.memOk := by simp [effect, exec_powerOn, execPowerOn]

@[simp] theorem effect_powerRemoval_memOk (hs : s.memOk = true) : (effect .powerRemoval s).memOk = true :=
  effect_memOk_of_exec rfl (State.memOk_ite_of (unpowered_memOk hs) hs)

@[simp] theorem effect_thermalTrip_memOk (hs : s.memOk = true) : (effect .thermalTrip s).memOk = true :=
  effect_memOk_of_exec rfl (State.memOk_ite_of (unpowered_memOk hs) hs)

@[simp] theorem allSteps_memOk {n : Fin 4} : (allSteps s n).memOk = s.memOk := rfl

theorem runPhase_memOk {n : Nat} (hs : s.memOk = true) : (runPhase s n).memOk = true := by
  simp only [runPhase]
  split
  · simp [hs]
  · simp [hs, Store.outside_wf (State.mem_wf hs)]
  · simp [hs]
  · simp [createFirst_memOk hs]
  · exact hs

@[simp] theorem failPhase_memOk : (failPhase s).memOk = s.memOk := by simp [failPhase]

@[simp] theorem effect_phaseComplete_memOk (hs : s.memOk = true) : (effect .phaseComplete s).memOk = true := by
  simp only [effect, exec_phaseComplete, execPhaseComplete]
  split
  · exact hs
  · split
    · simp [hs]
    · simp [runPhase_memOk hs]

@[simp] theorem effect_phaseTimeout_memOk : (effect (.phaseTimeout ) s).memOk = s.memOk := by
  simp [effect, exec_phaseTimeout, execPhaseTimeout]

/-! ### Frequency, heat and failures -/

@[simp] theorem State.setIsland_memOk {i : Nat} {x : Island} : (State.setIsland s i x).memOk = s.memOk := rfl

@[simp] theorem changeStep_memOk {i : Nat} {n : Fin 4} : (changeStep s i n).memOk = s.memOk := by simp [changeStep]

@[simp] theorem stepDown_memOk {i : Nat} : (stepDown s i).memOk = s.memOk := by simp [stepDown]

@[simp] theorem stepUp_memOk {i : Nat} : (stepUp s i).memOk = s.memOk := by simp [stepUp]

@[simp] theorem markFreq_memOk {i : Nat} {b : Block} : (markFreq i b).memOk = b.memOk := by simp [markFreq]

theorem State.memOk_markFreq {i : Nat} (hs : s.memOk = true) :
    { s with blocks := s.blocks.map fun p : Nat × Block => (p.1, markFreq i p.2) }.memOk = true := by
  have hblocks : blocksOk (s.blocks.map fun p : Nat × Block => (p.1, markFreq i p.2)) = true :=
    valuesOk_map (State.blocks_ok hs) fun _ hp => markFreq_memOk.trans hp
  simp [hs, hblocks]

@[simp] theorem effect_deferralExpire_memOk {island : Nat} (hs : s.memOk = true) :
    (effect (.deferralExpire island) s).memOk = true := by
  simp only [effect, exec_deferralExpire, execDeferralExpire]
  split
  · exact hs
  · split
    · split
      · exact State.memOk_markFreq (State.setIsland_memOk.trans hs)
      · simp [hs]
    · exact hs

@[simp] theorem governIsland_memOk {power : List Nat} {i : Nat} : (governIsland power s i).memOk = s.memOk := by
  simp [governIsland]

@[simp] theorem effect_governorWindow_memOk {power : List Nat} (hs : s.memOk = true) :
    (effect (.governorWindow power) s).memOk = true := by
  simp only [effect, exec_governorWindow, execGovernorWindow]
  split
  · refine (foldl_memOk_eq fun _ _ => State.setIsland_memOk).trans ?_
    exact (foldl_memOk_eq fun _ _ => governIsland_memOk).trans (by simp [hs])
  · exact hs

@[simp] theorem effect_packageStepDown_memOk {power : List Nat} : (effect (.packageStepDown power) s).memOk = s.memOk := by
  simp only [effect, exec_packageStepDown, execPackageStepDown]
  repeat' split
  all_goals simp

@[simp] theorem effect_thermalThrottle_memOk {island : Nat} :
    (effect (.thermalThrottle island) s).memOk = s.memOk := by simp [effect, exec_thermalThrottle, execThermalThrottle]

theorem everyPartition_memOk {l : List Nat} (hs : s.memOk = true) : (everyPartition s l).memOk = true :=
  foldl_memOk hs fun _ _ ht => startRung_memOk ht

@[simp] theorem effect_thermalPartitionRung_memOk (hs : s.memOk = true) : (effect .thermalPartitionRung s).memOk = true := by
  simp only [effect, exec_thermalPartitionRung, execThermalPartitionRung]
  split
  · simp [everyPartition_memOk hs]
  · exact hs

@[simp] theorem effect_thermalLaunchHoldEnd_memOk : (effect (.thermalLaunchHoldEnd ) s).memOk = s.memOk := rfl

@[simp] theorem countCorrected_memOk {g : Nat} : (countCorrected s g).memOk = s.memOk := rfl

@[simp] theorem effect_correctedError_memOk {core : Nat} : (effect (.correctedError core) s).memOk = s.memOk := by
  simp [effect, exec_correctedError, execCorrectedError]

@[simp] theorem effect_scrub_memOk {pa : Nat} : (effect (.scrub pa) s).memOk = s.memOk := by
  simp [effect, exec_scrub, execScrub]

@[simp] theorem effect_dramUncorrectable_memOk {pa : Nat} (hs : s.memOk = true) :
    (effect (.dramUncorrectable pa) s).memOk = true := by
  simp only [effect, exec_dramUncorrectable, execDramUncorrectable]
  split
  · simp [hs, Store.setGranules_wf _ _ _ _ (State.mem_wf hs)]
  · exact hs

@[simp] theorem effect_timebaseReceiverLoss_memOk {die : Nat} (hs : s.memOk = true) :
    (effect (.timebaseReceiverLoss die) s).memOk = true := by
  simp only [effect, exec_timebaseReceiverLoss, execTimebaseReceiverLoss]
  repeat' split
  · simp [hs]
  · exact everyPartition_memOk (by simp [hs])
  · simp [hs]
  · exact hs

@[simp] theorem effect_umberUncorrectable_memOk {b : Nat} (hs : s.memOk = true) :
    (effect (.umberUncorrectable b) s).memOk = true := by
  simp only [effect, exec_umberUncorrectable, execUmberUncorrectable]
  split
  · exact hs
  · next hb => exact State.setBlock_memOk hs (Block.setChan_memOk.trans (State.memOk_of_getKey hs hb))

@[simp] theorem effect_pldmRequest_memOk {r : Nat} : (effect (.pldmRequest r) s).memOk = s.memOk := rfl

@[simp] theorem effect_spdmRequest_memOk {r : Nat} : (effect (.spdmRequest r) s).memOk = s.memOk := rfl

end Sys2Proof.Machine
end

section
/-! ## Hints, time and inputs (Machine/Hints, Machine/Turn and Machine/Input) -/
namespace Sys2Proof.Machine
variable {s : State}

/-! ### Hints -/

@[simp] theorem setHint_memOk {h : Option Hint} : (setHint s h).memOk = s.memOk := rfl

@[simp] theorem walkHint_memOk {h : Hint} {va : Word} : (walkHint s h va).memOk = s.memOk := by
  simp only [walkHint]
  repeat' split
  all_goals simp

@[simp] theorem grantLine_memOk {h : Hint} : (grantLine s h).memOk = s.memOk := by
  simp only [grantLine]
  repeat' split
  all_goals simp

@[simp] theorem hintGo_memOk {h : Hint} : (hintGo s h).memOk = s.memOk := by
  simp only [hintGo]
  repeat' split
  all_goals simp

theorem hintStep_memOk {core : Nat} (hs : s.memOk = true) : (hintStep s core).memOk = true := by
  simp only [hintStep]
  split
  · exact hs
  · split
    · exact withAgent_memOk hs fun _ ht => hintGo_memOk.trans ht
    · simp [hs]

/-! ### Time and turns -/

@[simp] theorem sendSyncs_memOk : (sendSyncs s).memOk = s.memOk := by
  have hone : ∀ {t : State}, ((List.finRange 16).foldl (fun s i =>
      if s.links[i].room then sendOn s i 0xFFFF (ownFlit s 0 4 3 [(s.now 0).toNat]) else s) t).memOk = t.memOk :=
    foldl_memOk_eq fun t i => by split <;> simp
  simp only [sendSyncs]
  split
  · rfl
  · split
    · rfl
    · exact (foldl_memOk_eq fun _ _ => hone).trans State.memOk_mk_same

theorem passTime_memOk {n : Nat} (hs : s.memOk = true) : (passTime n s).memOk = true := by
  refine sendSyncs_memOk.trans (sampleTimers_memOk ?_)
  split <;> simp [hs]

theorem skewTime_memOk {die : Fin 8} {n : Nat} (hs : s.memOk = true) : (skewTime die n s).memOk = true := by
  simp only [skewTime]
  split <;> simp [hs]

theorem takeChoice_memOk : (takeChoice s).2.memOk = s.memOk := by
  unfold takeChoice
  split <;> rfl

/-! ### Inputs -/

theorem onBlock_memOk {b : Nat} {f : Block → Block} (hs : s.memOk = true)
    (hf : ∀ x, x.memOk = true → (f x).memOk = true) : (onBlock s b f).memOk = true := by
  simp only [onBlock]
  split
  · next hb => exact State.setBlock_memOk hs (hf _ (State.memOk_of_getKey hs hb))
  · exact hs

@[simp] theorem itemError_memOk {r : Nat} {b : Block} : (itemError r b).memOk = b.memOk := by simp [itemError]

theorem onXfer_memOk {b : Nat} {ch : Fin 5} {id : Nat} {f : Transfer → Transfer} (hs : s.memOk = true) :
    (onXfer s b ch id f).memOk = true := onBlock_memOk hs fun _ hx => Block.setChan_memOk.trans hx

theorem handleError_memOk {b : Nat} {ch : Fin 5} {id row : Nat} (hs : s.memOk = true) :
    (handleError s b ch id row).memOk = true := by
  refine withXfer_memOk hs fun x t ht => ?_
  split
  · split <;> simp [ht]
  · exact ht

@[simp] theorem hostGives_memOk {line : Nat} {data : List Byte} (hs : s.memOk = true) : (hostGives s line data).memOk = true := by
  simp only [hostGives]
  split
  · split
    · simp [hs]
    · simp [hs, writeEnabled_wf (State.mem_wf hs)]
  · exact hs

@[simp] theorem hostStores_memOk {pa : Nat} {data : List Byte} (hs : s.memOk = true) : (hostStores s pa data).memOk = true :=
  State.memOk_ite_of (State.memOk_writeEnabled hs) hs

@[simp] theorem remoteWrites_memOk {pa : Nat} {data : List Byte} {poison : Bool} (hs : s.memOk = true) :
    (remoteWrites s pa data poison).memOk = true := State.memOk_ite_of (State.memOk_writeEnabled hs) hs

@[simp] theorem idleCycle_memOk {b w : Nat} (hs : s.memOk = true) : (idleCycle s b w).memOk = true := by
  refine withAgent_memOk hs fun t ht => ?_
  dsimp only
  exact State.memOk_ite_of (by simp [ht]) ht

@[simp] theorem sendCommand_memOk {g : Nat} : (sendCommand s g).memOk = s.memOk := by simp [sendCommand]

@[simp] theorem takeOffLink_memOk {g : Nat} : (takeOffLink s g).memOk = s.memOk := by simp [takeOffLink]

@[simp] theorem State.say_memOk {o : Out} : (State.say s o).memOk = s.memOk := rfl

theorem padError_memOk {b g : Nat} (hs : s.memOk = true) : (takeInput (.padError b g) s).memOk = true := by
  refine onBlock_memOk hs fun x hx => ?_
  split
  · simp [hx, Store.setGranule_wf _ _ _ (Block.pad_wf hx)]
  · exact hx

theorem takeInput_memOk {x : Input} (hs : s.memOk = true) : (takeInput x s).memOk = true := by
  cases x
  case skew => exact skewTime_memOk hs
  case itemError b r => exact State.memOk_ite_of (onBlock_memOk hs fun _ hx => by simp [hx]) hs
  case padError => exact padError_memOk hs
  case moveError | copyWalkError => exact onXfer_memOk hs
  case handleError => exact handleError_memOk hs
  case fillError => exact fill_memOk hs
  case walkError => exact withAgent_memOk hs fun _ ht => by simp [ht]
  case hint => exact hintStep_memOk hs
  case capBlock => exact capStep_memOk hs
  case hostData => exact hostGives_memOk hs
  case hostStore => exact hostStores_memOk hs
  case remoteMem => exact remoteWrites_memOk hs
  case idle => exact idleCycle_memOk hs
  case wire => exact flitReceive_memOk.trans hs
  case command => exact sendCommand_memOk.trans hs
  case commandTaken => exact takeOffLink_memOk.trans hs
  case engineWalkError | hintWalkError | evict | sensor | coolant | barRead | keyRead | path => exact hs
end Sys2Proof.Machine
end

section
/-! ## Every step (Machine/Words and Machine/Step) -/
namespace Sys2Proof.Machine
variable {s : State}

/-! ### Words without a shape of their own -/

@[simp] theorem effect_fpush_memOk {a : SReg} {port : Fin 4} (hs : s.memOk = true) :
    (effect (.fpush a port) s).memOk = true := by
  refine effect_memOk_of_exec rfl (issueWord_memOk hs fun t ht => State.checkPoison_memOk ht fun u hu => ?_)
  dsimp only
  repeat' split
  all_goals simp [hu]

@[simp] theorem effect_fpop_memOk {d : SReg} {port : Fin 4} (hs : s.memOk = true) :
    (effect (.fpop d port) s).memOk = true := by
  refine effect_memOk_of_exec rfl (issueWord_memOk hs fun t ht => ?_)
  dsimp only
  repeat' split
  all_goals simp [ht]

@[simp] theorem effect_hset_memOk {h : HReg} {a b : SReg} (hs : s.memOk = true) : (effect (.hset h a b) s).memOk = true := by
  refine effect_memOk_of_exec rfl (issueWord_memOk hs fun t ht => State.checkPoison_memOk ht fun u hu => ?_)
  split <;> simp [hu]

@[simp] theorem effect_tgen_memOk {d : SReg} {h : HReg} {o : Fin 4} (hs : s.memOk = true) :
    (effect (.tgen d h o) s).memOk = true := by
  refine effect_memOk_of_exec rfl (issueWord_memOk hs fun t ht => ?_)
  split
  · exact State.raiseNat_memOk ht
  · exact State.later_memOk.trans ht

@[simp] theorem effect_tsetc_memOk {a b : SReg} (hs : s.memOk = true) : (effect (.tsetc a b) s).memOk = true := by
  refine effect_memOk_of_exec rfl (issueWord_memOk hs fun t ht => State.checkPoison_memOk ht fun u hu => ?_)
  dsimp only
  split <;> simp [hu]

@[simp] theorem effect_cwait_memOk {a : SReg} {ch : Fin 4} (hs : s.memOk = true) :
    (effect (.cwait a ch) s).memOk = true := by
  refine effect_memOk_of_exec rfl (issueWord_memOk hs fun t ht => ?_)
  split <;> simp [ht]

@[simp] theorem effect_mwait_memOk {p : PReg} {all : Bool} {chans : BitVec 4} {mbox : Bool} (hs : s.memOk = true) :
    (effect (.mwait p all chans mbox) s).memOk = true := by
  refine effect_memOk_of_exec rfl (issueWord_memOk hs fun t ht => ?_)
  dsimp only
  split <;> simp [ht]

/-! ### The meaning of a word, and of an event -/

theorem wordEffect_memOk_of {i : Instr} {t : State} (h : wordOutcome i s = .next t) (ht : t.memOk = true) :
    (wordEffect i s).memOk = true := by
  simpa only [wordEffect, stateOr, h] using ht

theorem wordEffect_memOk_of_effect {i : Instr} (h : wordEffect i s = effect i s) (ht : (effect i s).memOk = true) :
    (wordEffect i s).memOk = true := by
  rwa [h]

/-- A word keeps the canonical form; an event is no word, and changes nothing here. -/
theorem wordEffect_memOk {i : Instr} (hs : s.memOk = true) : (wordEffect i s).memOk = true := by
  cases i
  case add | sub | mul | mulh | mulhn | and | or | xor | andn | shl | shr | sar | ror | min | max | minn | maxn | seq |
      slt | sltn => exact wordEffect_memOk_of rfl (scalar2_memOk hs)
  case clz | popc | mov | addi | andi | ori | xori | shli | shri | sari | rori | slti | extr =>
    exact wordEffect_memOk_of rfl (scalar1_memOk hs)
  case peq | pne | plt | pge | pltn | pgen | ptst => exact wordEffect_memOk_of rfl (pred2_memOk hs)
  case pand | por | pxor => exact wordEffect_memOk_of rfl (predLogic_memOk hs)
  case vadd | vsub | vmul | vfma | vfms | vmin | vmax => exact wordEffect_memOk_of rfl (floatWord_memOk hs)
  case vabs | vneg => exact wordEffect_memOk_of rfl (signWord_memOk hs)
  case viadd | visub | vimul | vimin | vimax | vshl | vshr | vsar => exact wordEffect_memOk_of rfl (intWord_memOk hs)
  case vand | vor | vxor | vmov => exact wordEffect_memOk_of rfl (wholeWord_memOk hs)
  case vrcp | vrsq | vsqrt | vex2 | vlg2 | vtanh => exact wordEffect_memOk_of rfl (transWord_memOk hs)
  case div | divn | rem | remn => exact wordEffect_memOk_of rfl (division_memOk hs)
  case ld | st | lds => exact wordEffect_memOk_of rfl (scalarAccess_memOk hs)
  case aadd | amin | amax | aand | aor | axor | aswp | acas => exact wordEffect_memOk_of rfl (atomic_memOk hs)
  case vld | vlds => exact wordEffect_memOk_of rfl (rowLoad_memOk hs)
  case vst => exact wordEffect_memOk_of rfl (rowAccess_memOk hs)
  case vgath | vscat => exact wordEffect_memOk_of rfl (gatherWord_memOk hs)
  case kand | kor | kxor | knot => exact wordEffect_memOk_of rfl (maskWord_memOk hs)
  case tzero | tmov | tfromv | ttrn => exact wordEffect_memOk_of rfl (tileWord_memOk hs)
  case tadd | tmul | tmax | tscal | tred | tacc => exact wordEffect_memOk_of rfl (maskedWord_memOk hs)
  case mmbi | mmf | mmf32 | mmd => exact wordEffect_memOk_of rfl (matrixWord_memOk hs)
  case tcvt | tcvtPageAppend => exact wordEffect_memOk_of rfl (cvtWord_memOk hs)
  case prefL2 | prefLease | prefDemote => exact wordEffect_memOk_of rfl (hint_memOk hs)
  case snop | movi | pnot | vnop | insr | hget | hadv | vcmp | vsel | vbcst | vext | vidx | vperm | vrotm | vcvt |
      vred | vscan | vtopk | kcnt | kmovToMask | kmovFromMask | cstat =>
    exact wordEffect_memOk_of rfl (issueWord_memOk hs fun _ ht => by simp [ht])
  case chk | vchk => exact wordEffect_memOk_of rfl (issueWord_memOk hs fun _ ht => State.checkPoison_memOk ht fun _ hu => hu)
  case hwait | tvoid =>
    exact wordEffect_memOk_of rfl (issueTile_memOk hs (fun _ ht => withItem_memOk ht fun _ _ hu => hu)
      fun _ ht => withItem_memOk ht fun _ _ hu => hu)
  case trel =>
    exact wordEffect_memOk_of rfl (issueTile_memOk hs (fun _ ht => withItem_memOk ht fun _ _ hu => releaseItem_memOk hu)
      fun _ ht => withItem_memOk ht fun _ _ hu => releaseItem_memOk hu)
  case ttov => exact wordEffect_memOk_of rfl (issueTile_memOk hs (fun _ ht => tileOff_memOk ht) fun _ ht => ttovGo_memOk ht)
  case tlds => exact wordEffect_memOk_of rfl (issueTile_memOk hs (fun _ ht => tileOff_memOk ht) fun _ ht => tldsGo_memOk ht)
  case tsts => exact wordEffect_memOk_of rfl (issueTile_memOk hs (fun _ ht => tileOff_memOk ht) fun _ ht => tstsGo_memOk ht)
  case tsta => exact wordEffect_memOk_of rfl (issueTile_memOk hs (fun _ ht => tileOff_memOk ht) fun _ ht => tstaGo_memOk ht)
  case tgath =>
    exact wordEffect_memOk_of rfl (issueTile_memOk hs (fun _ ht => tileOff_memOk ht) fun _ ht => tgathGo_memOk ht)
  case vpushc | vpopc | br | jmp | call | ret | loop | rep | syncm | waitt | mark | timed | exit | mfc | mtc | mtcTcmp |
      mtcSstat | trap | eret | fenceh | waiti | seed | tlbinv | banksv | bankld | pcmd | copy | copytIn | copytOut |
      copytXfer | fpush | fpop | hset | tgen | tsetc | cwait | mwait => exact wordEffect_memOk_of_effect rfl (by simp [hs])
  all_goals exact hs

/-- A stream of the group issues its word, if it does. -/
theorem syncOne_memOk {o : Option State} {w : Nat} {t : State} (ho : ∀ u, o = some u → u.memOk = true)
    (h : syncOne o w = some t) : t.memOk = true := by
  obtain ⟨u, hu, ht⟩ := Option.bind_eq_some_iff.mp h
  obtain rfl := Option.some.inj (Option.ite_none_right_eq_some.mp ht).2
  refine issueAt_memOk (fun _ _ hv => wordEffect_memOk hv) ?_
  simp [focusOn, ho u hu]

theorem foldl_syncOne_memOk {l : List Nat} {o : Option State} {t : State} (ho : ∀ u, o = some u → u.memOk = true)
    (h : l.foldl syncOne o = some t) : t.memOk = true := by
  induction l generalizing o with
  | nil => exact ho t h
  | cons w r ih => exact ih (fun u hu => syncOne_memOk ho hu) h

@[simp] theorem effect_syncIssue_memOk {b : Nat} {mask : BitVec 4} (hs : s.memOk = true) :
    (effect (.syncIssue b mask) s).memOk = true := by
  refine effect_memOk_of_exec rfl (withAgent_memOk hs fun t ht => ?_)
  dsimp only
  split
  · cases h : (List.filter _ _).foldl syncOne (some t) with
    | none => exact ht
    | some u => exact foldl_syncOne_memOk (fun v hv => Option.some.inj hv ▸ ht) h
  · exact ht

theorem effect_memOk_of_word {i : Instr} (h : effect i s = wordEffect i s) (hs : s.memOk = true) :
    (effect i s).memOk = true := by
  rw [h]
  exact wordEffect_memOk hs

/-- Every instruction and every event keeps the canonical form: each event by the lemma named after it. -/
theorem effect_memOk {i : Instr} (hs : s.memOk = true) : (effect i s).memOk = true := by
  cases i
  case syncIssue | perform | deliver | latchLand | tileDataComplete | nantrap | longUnitComplete | trapEntry |
      timerCompare | interruptAccept | tslipt | take | post | copyRead | dataRead | dataWrite | copyWrite |
      remoteWriteArrival | remoteResend | transferComplete | mpTrap | mpResume | bankClaim | preempt | blockPlace |
      blockResume | weldTick | walkerPost | reportTake | fill | coverageUpdate | launchRetire | homeReturn | migrate |
      operatorReplay | builtInTestPass | sliceEnd | sliceOvershootTimeout | coreFault | correctedError | scrub |
      dramUncorrectable | clusterFault | walkEntryRead | walkComplete | leaseLapse | hostMemRead | hostMemWrite |
      qkick | qctlWrite | barRegWrite | seqRead | seqReread | seqTimeout | nopPacket | loadPacket | loadComplete |
      launchPacket | evictPacket | evictComplete | madderReload | windowLock | hypkeyLock | p1rootWrite | fabidWrite |
      pcCreate | pcDestroy | pcSetquota | pcMapvf | pcSettable | pcReset | pcSetisa | fresetQueue | fresetContext |
      fresetEngine | fresetPartition | fresetDevice | rungComplete | rungEscalate | powerOn | phaseComplete |
      phaseTimeout | governorWindow | packageStepDown | deferralExpire | thermalThrottle | thermalPartitionRung |
      thermalTrip | timebaseReceiverLoss | umberUncorrectable | flitReceive | flitResend | linkRetrain |
      retrainComplete | remoteRequest | remoteRouteTimeout | timeSyncFlit | timesyncLoss | collectiveStart |
      collectiveComplete | pldmRequest | spdmRequest | powerRemoval | linkTraining | madderReloadEnd |
      thermalLaunchHoldEnd => simp [hs]
  all_goals exact effect_memOk_of_word rfl hs

/-- What an instruction answers as the next state is its effect. -/
theorem memOk_of_exec {i : Instr} {t : State} (hs : s.memOk = true) (h : exec i s = .next t) : t.memOk = true := by
  simpa only [effect, h] using effect_memOk (i := i) hs

theorem step_memOk {t : State} (hs : s.memOk = true) (h : step s = .next t) : t.memOk = true := by
  have hchoice : (takeChoice s).2.memOk = true := takeChoice_memOk.trans hs
  simp only [step] at h
  split at h
  · simp at h
  · split at h
    · obtain rfl := Host.Outcome.next.inj h
      exact issueStep_memOk (fun _ _ hu => effect_memOk hu) hchoice
    · exact memOk_of_exec hchoice h
    · obtain rfl := Host.Outcome.next.inj h
      exact takeInput_memOk hchoice
    · obtain rfl := Host.Outcome.next.inj h
      exact passTime_memOk hchoice

/-- Settles O49, by one lemma for each function of the model: it changes no memory, or keeps the canonical form of each. -/
theorem memoriesStayCanonical : Obligations.MemoriesStayCanonical := by
  unfold Obligations.MemoriesStayCanonical
  exact fun _ _ hs h => step_memOk hs h

end Sys2Proof.Machine
end

/-! # The count instructions

TREL, TVOID, TGEN and TSETC each take the state that the word's claims leave. The claims change the core's banks alone, so the
agent and the block in focus are those of the state before. -/

section
/-! ## What the claims of a word leave, and the items and scalars it reads -/
namespace Sys2Proof.Machine

variable {s u : State}

/-- The claims of a word change the banks of its core alone. -/
theorem claimed_frame {i : Instr} {off : Bool} (h : claimed i off s = some u) : u.ag = s.ag ∧ u.blk = s.blk ∧ u.cur = s.cur := by
  simp only [claimed] at h
  split at h
  · cases h
    exact ⟨rfl, rfl, rfl⟩
  · obtain ⟨c, -, rfl⟩ := Option.map_eq_some_iff.mp h
    exact ⟨rfl, rfl, rfl⟩

@[simp] theorem readState_self (m : Meta) : readState m m.wc = .ready := by simp [readState, distance]

/-- An item of the own block whose generation is present is at hand. -/
theorem withItem_present {h : HReg} {o : Fin 4} {f : Opnd → State → State} (hcls : (s.ag.h[h]).cls ≠ 2)
    (hx : (s.blk.md (s.ag.opnd ⟨h, o, false⟩).r).wc = (s.ag.opnd ⟨h, o, false⟩).x) :
    withItem h o s f = f (s.ag.opnd ⟨h, o, false⟩) s := by
  simp only [withItem, if_neg hcls, ← hx, readState_self]

theorem checkPoison_of_clean {l : List RegName} {f : State → State} (h : ∀ r ∈ l, s.ag.poisoned r = false) :
    s.checkPoison l f = f s := by
  have hnone : l.find? s.ag.poisoned = none := List.find?_eq_none.mpr fun r hr => by simp [h r hr]
  simp only [State.checkPoison, hnone]

end Sys2Proof.Machine
end

section
/-! ## The metadata of an item -/
namespace Sys2Proof.Machine

/-- A count of reads stays at 15 once it is there. -/
theorem Meta.countRead_eq (m : Meta) : m.countRead = { m with rc := BitVec.ofNat 4 (min (m.rc.toNat + 1) 15) } := by
  have hrc : (if m.rc = 15 then 15 else m.rc + 1) = BitVec.ofNat 4 (min (m.rc.toNat + 1) 15) := by
    generalize m.rc = c
    decide +revert
  rw [Meta.countRead, hrc]

/-- The read that is counted shows a void item in SSTAT.VS, but to the MP. -/
theorem releaseItem_false (s : State) (p : Opnd) :
    releaseItem false p s = blockDid s
      (if (s.blk.md p.r).void ∧ s.cur.w ≠ 4 then { s.ag with ctl := { s.ag.ctl with vs := true } } else s.ag)
      (s.blk.setMd p.r (s.blk.md p.r).countRead) := by
  by_cases hv : (s.blk.md p.r).void = true <;> by_cases hw : s.cur.w = 4 <;>
    simp [releaseItem, hv, hw, State.setVs, State.isMP, blockDid, State.setBlk, State.setCtl, State.issued, State.setDisp]

/-- The fields of a metadata word do not overlap. -/
theorem Meta.toNat_word (m : Meta) : m.word.toNat = m.wc.toNat + 2 ^ 16 * m.q.toNat + 2 ^ 20 * m.rc.toNat +
    2 ^ 24 * m.void.toNat + 2 ^ 25 * m.poison.toNat + 2 ^ 32 * m.tag.toNat := by
  have hvoid := Bool.toNat_le m.void
  have hpoison := Bool.toNat_le m.poison
  simp only [Meta.word, BitVec.toNat_ofNat]
  omega

theorem toNat_extractLsb'_eq_div {w : Nat} (x : BitVec w) (k n : Nat) : (x.extractLsb' k n).toNat = x.toNat / 2 ^ k % 2 ^ n := by
  rw [BitVec.extractLsb'_toNat, Nat.shiftRight_eq_div_pow]

theorem toNat_getLsbD_eq_div {w : Nat} (x : BitVec w) (k : Nat) : (x.getLsbD k).toNat = x.toNat / 2 ^ k % 2 := by
  rw [BitVec.getLsbD, Nat.toNat_testBit]

/-- TGEN's value is the word that has the generation and the metadata in their fields and zeros between them. -/
theorem genWord_eq_of_fields {g : BitVec 16} {m : Meta} {x : Word} (hgen : x.extractLsb' 48 16 = g)
    (hwc : x.extractLsb' 0 16 = m.wc) (hq : x.extractLsb' 16 4 = m.q) (hrc : x.extractLsb' 20 4 = m.rc)
    (hvoid : x.getLsbD 24 = m.void) (hpoison : x.getLsbD 25 = m.poison) (hlow : x.extractLsb' 26 6 = 0#6)
    (htag : x.extractLsb' 32 8 = m.tag) (hhigh : x.extractLsb' 40 8 = 0#8) : genWord g m = x := by
  apply BitVec.eq_of_toNat_eq
  rw [genWord, BitVec.toNat_ofNat, Meta.toNat_word, ← hgen, ← hwc, ← hq, ← hrc, ← hvoid, ← hpoison, ← htag]
  have hlow := congrArg BitVec.toNat hlow
  have hhigh := congrArg BitVec.toNat hhigh
  simp only [toNat_extractLsb'_eq_div, toNat_getLsbD_eq_div, BitVec.toNat_zero] at hlow hhigh ⊢
  omega

/-- The bits of a metadata word outside its fields are zero. -/
theorem and_metaGaps_eq_zero {w : Word} (hlow : w.extractLsb' 26 6 = 0#6) (hhigh : w.extractLsb' 40 24 = 0#24) :
    w &&& 0xFFFF_FF00_FC00_0000#64 = 0 := by
  have hmask : ∀ i < 64, (0xFFFF_FF00_FC00_0000#64).getLsbD i = true → 26 ≤ i ∧ i < 32 ∨ 40 ≤ i := by decide
  apply BitVec.eq_of_getLsbD_eq
  intro i hi
  rw [BitVec.ofNat_eq_ofNat, BitVec.getLsbD_and, BitVec.getLsbD_zero, Bool.and_eq_false_iff, or_iff_not_imp_right, Bool.not_eq_false]
  intro hbit
  obtain hgap | hgap := hmask i hi hbit
  · have hzero := congrArg (BitVec.getLsbD · (i - 26)) hlow
    simpa [show i - 26 < 6 by omega, show 26 + (i - 26) = i by omega] using hzero
  · have hzero := congrArg (BitVec.getLsbD · (i - 40)) hhigh
    simpa [show i - 40 < 24 by omega, show 40 + (i - 40) = i by omega] using hzero

/-- TSETC accepts a register number that exists and a metadata word with zeros outside its fields and a tag that the register
can have. -/
theorem metaRefused_eq_false {n w : Word} (hlow : w.extractLsb' 26 6 = 0#6) (hhigh : w.extractLsb' 40 24 = 0#24)
    (hreg : n.toNat < 512 ∧ tagValid (w.extractLsb' 32 8).toNat = true ∨
      512 ≤ n.toNat ∧ n.toNat < 576 ∧ (w.extractLsb' 32 8 = 0x10 ∨ w.extractLsb' 32 8 = 0x40)) :
    metaRefused n w = false := by
  have hbig : n >>> 10 = 0 := by
    apply BitVec.eq_of_toNat_eq
    rw [BitVec.toNat_ushiftRight, Nat.shiftRight_eq_div_pow, BitVec.ofNat_eq_ofNat, BitVec.toNat_zero]
    omega
  have hacc : (n.getLsbD 9 && decide (63 < n.toNat % 512)) = false := by
    have hbit := toNat_getLsbD_eq_div n 9
    cases h9 : n.getLsbD 9
    · rfl
    · rw [h9, Bool.toNat_true] at hbit
      simp only [Bool.true_and, decide_eq_false_iff_not]
      omega
  have htag : (if n.toNat < 512 then tagValid (w.extractLsb' 32 8).toNat
      else w.extractLsb' 32 8 == 0x10 || w.extractLsb' 32 8 == 0x40) = true := by
    obtain ⟨hn, ht⟩ | ⟨hn, -, ht⟩ := hreg
    · rw [if_pos hn, ht]
    · rw [if_neg (by omega)]
      simpa using ht
  simp only [metaRefused, hbig, hacc, and_metaGaps_eq_zero hlow hhigh, htag, bne_self_eq_false, Bool.not_true, Bool.or_self]

end Sys2Proof.Machine
end

section
/-! ## The registers of the tile store -/
namespace Sys2Proof.Machine

theorem Block.tile_setTile (b : Block) (n r : Nat) (x : Tile) : (b.setTile n x).tile r = if r = n then x else b.tile r := by
  by_cases h : r = n
  · simp [Block.tile, Block.setTile, h]
  · simp [Block.tile, Block.setTile, h, getKey_putKey_other]

theorem Block.acc_setAcc (b : Block) (n r : Nat) (x : Accum) : (b.setAcc n x).acc r = if r = n then x else b.acc r := by
  by_cases h : r = n
  · simp [Block.acc, Block.setAcc, h]
  · simp [Block.acc, Block.setAcc, h, getKey_putKey_other]

@[simp] theorem Block.acc_setTile (b : Block) (n r : Nat) (x : Tile) : (b.setTile n x).acc r = b.acc r := rfl
@[simp] theorem Block.tile_setAcc (b : Block) (n r : Nat) (x : Accum) : (b.setAcc n x).tile r = b.tile r := rfl

theorem Block.md_setTile {b : Block} {n : Nat} {x : Tile} (h : n < 512) (r : Nat) :
    (b.setTile n x).md r = if r = n then x.md else b.md r := by
  by_cases hr : r = n
  · simp [Block.md, Block.tile_setTile, hr, h]
  · simp [Block.md, Block.tile_setTile, hr]

theorem Block.md_setAcc {b : Block} {n : Nat} {x : Accum} (h : 512 ≤ n) (r : Nat) :
    (b.setAcc (n - 512) x).md r = if r = n then x.md else b.md r := by
  by_cases hr : r = n
  · simp [Block.md, Block.acc_setAcc, hr, Nat.not_lt.mpr h]
  · by_cases ht : r < 512
    · simp [Block.md, hr, ht]
    · have hne : r - 512 ≠ n - 512 := by omega
      simp [Block.md, Block.acc_setAcc, hr, ht, hne]

/-- A metadata write reads back at its own register and at no other. -/
theorem Block.md_writeMeta (b : Block) (n : Nat) (m : Meta) (r : Nat) :
    (b.writeMeta n m).md r = if r = n then m else b.md r := by
  by_cases h : n < 512
  · simp only [Block.writeMeta, if_pos h, Block.md_setTile h]
  · simp only [Block.writeMeta, if_neg h, Block.md_setAcc (Nat.not_lt.mp h)]

/-- A metadata write leaves every register's data and side-band. -/
theorem Block.data_writeMeta (b : Block) (n : Nat) (m : Meta) (r : Nat) :
    ((b.writeMeta n m).tile r).data = (b.tile r).data ∧ ((b.writeMeta n m).tile r).side = (b.tile r).side ∧
      ((b.writeMeta n m).acc r).data = (b.acc r).data := by
  by_cases h : n < 512
  · simp only [Block.writeMeta, if_pos h, Block.tile_setTile, Block.acc_setTile]
    split
    · next hr => simp [hr]
    · simp
  · simp only [Block.writeMeta, if_neg h, Block.acc_setAcc, Block.tile_setAcc]
    split
    · next hr => simp [hr]
    · simp

/-- A metadata write changes the block's registers alone. -/
theorem Block.writeMeta_frame (b : Block) (n : Nat) (m : Meta) :
    b.writeMeta n m = { b with tiles := (b.writeMeta n m).tiles, accs := (b.writeMeta n m).accs } := by
  simp only [Block.writeMeta]
  split <;> rfl

end Sys2Proof.Machine
end

section
/-! ## The four instructions -/
namespace Sys2Proof.Machine

variable {s u : State} {h : HReg} {o : Fin 4}

theorem exec_trel_present (hcls : (s.ag.h[h]).cls ≠ 2)
    (hx : (s.blk.md (s.ag.opnd ⟨h, o, false⟩).r).wc = (s.ag.opnd ⟨h, o, false⟩).x) (hr : Runs (.trel h o) s)
    (hc : claimed (.trel h o) false s = some u) :
    exec (.trel h o) s = .next (releaseItem false (s.ag.opnd ⟨h, o, false⟩) u) := by
  obtain ⟨hag, hblk, -⟩ := claimed_frame hc
  rw [← hag] at hcls
  rw [← hag, ← hblk] at hx
  rw [exec_trel, execTrel, issueTile_runs hr hc, advanceGen_none rfl, withItem_present hcls hx, hag]

theorem exec_tvoid_present {d : PReg} (hcls : (s.ag.h[h]).cls ≠ 2)
    (hx : (s.blk.md (s.ag.opnd ⟨h, o, false⟩).r).wc = (s.ag.opnd ⟨h, o, false⟩).x) (hr : Runs (.tvoid d h o) s)
    (hc : claimed (.tvoid d h o) false s = some u) :
    ∃ t, exec (.tvoid d h o) s = .next t ∧
      Wrote u t (.p d) ((BitVec.ofBool (s.blk.md (s.ag.opnd ⟨h, o, false⟩).r).void).setWidth 2048)
        (s.blk.md (s.ag.opnd ⟨h, o, false⟩).r).poison Flags.none := by
  obtain ⟨hag, hblk, -⟩ := claimed_frame hc
  rw [← hag] at hcls
  rw [← hag, ← hblk] at hx ⊢
  refine ⟨_, by rw [exec_tvoid, execTvoid, issueTile_runs hr hc, advanceGen_none rfl, withItem_present hcls hx], ?_⟩
  simpa using wrote_result1 u (.p d) ((BitVec.ofBool (u.blk.md (u.ag.opnd ⟨h, o, false⟩).r).void).setWidth 2048)
    (u.blk.md (u.ag.opnd ⟨h, o, false⟩).r).poison Flags.none

theorem exec_tgen_own {d : SReg} (hcls : (s.ag.h[h]).cls ≠ 2) (hr : Runs (.tgen d h o) s)
    (hc : claimed (.tgen d h o) false s = some u) :
    exec (.tgen d h o) s = .next (u.later (.s d)
      ((genWord (s.ag.opnd ⟨h, o, false⟩).x (s.blk.md (s.ag.opnd ⟨h, o, false⟩).r)).setWidth 2048) false) := by
  obtain ⟨hag, hblk, -⟩ := claimed_frame hc
  rw [← hag] at hcls
  rw [exec_tgen, execTgen, issueWord_runs hr hc, advanceGen_none rfl, if_neg hcls, hag, hblk]

theorem exec_tsetc_accepted {a b : SReg} (ha : s.ag.poisoned (.s a) = false) (hb : s.ag.poisoned (.s b) = false)
    (hr : Runs (.tsetc a b) s) (hc : claimed (.tsetc a b) false s = some u)
    (hok : metaRefused (s.sReg a) (s.sReg b) = false) :
    exec (.tsetc a b) s = .next (blockDid u s.ag (s.blk.writeMeta (s.sReg a).toNat (Meta.ofWord (s.sReg b)))) := by
  obtain ⟨hag, hblk, -⟩ := claimed_frame hc
  have hclean : ∀ r ∈ [RegName.s a, .s b], u.ag.poisoned r = false := by simp [hag, ha, hb]
  have hreg (n : SReg) : u.sReg n = s.sReg n := congrArg (Agent.getS · n) hag
  rw [exec_tsetc, execTsetc, issueWord_runs hr hc, advanceGen_none rfl, checkPoison_of_clean hclean, hreg, hreg]
  simp only [hok, Bool.false_eq_true, if_false, hblk, ← hag]
  rfl

end Sys2Proof.Machine
end

section
namespace Sys2Proof.Machine

/-- Settles O10, instruction by instruction on the state that the claims leave: TREL's count of reads stops at 15, TGEN's value
is the one word with the fields that the statement lists, and a metadata write of TSETC reads back at its register alone. -/
theorem countInstructions : Obligations.CountInstructions := by
  intro s u h o p m
  refine ⟨?trel, ?tvoid, ?tgen, ?tsetc⟩
  case trel =>
    intro hcls hx hr hc
    obtain ⟨hag, hblk, hcur⟩ := claimed_frame hc
    rw [exec_trel_present hcls hx hr hc, releaseItem_false, Meta.countRead_eq, hag, hblk, hcur]
  case tvoid => exact fun d hcls hx hr hc => exec_tvoid_present hcls hx hr hc
  case tgen =>
    intro d x hcls hr hc hgen hwc hq hrc hvoid hpoison hlow htag hhigh
    obtain ⟨hag, -, -⟩ := claimed_frame hc
    rw [exec_tgen_own hcls hr hc, genWord_eq_of_fields hgen hwc hq hrc hvoid hpoison hlow htag hhigh, ← hag]
    rfl
  case tsetc =>
    intro a b ha hb hr hc n w v hlow hhigh hreg
    exact ⟨_, exec_tsetc_accepted ha hb hr hc (metaRefused_eq_false hlow hhigh hreg), rfl, Block.md_writeMeta _ n v,
      Block.data_writeMeta _ n v, Block.writeMeta_frame _ n v⟩

end Sys2Proof.Machine
end

section
/-! ## Dyadic values and encodings as numbers (R25, R362) -/
namespace Sys2Proof.Machine

/-- The factor that a sign bit stands for. -/
def signFactor (neg : Bool) : ℚ := if neg then -1 else 1

@[simp] theorem abs_signFactor (neg : Bool) : |signFactor neg| = 1 := by cases neg <;> simp [signFactor]

theorem signFactor_ne_zero (neg : Bool) : signFactor neg ≠ 0 := by cases neg <;> simp [signFactor]

theorem abs_signFactor_mul (neg : Bool) {x : ℚ} (hx : 0 ≤ x) : |signFactor neg * x| = x := by
  rw [abs_mul, abs_signFactor, one_mul, abs_of_nonneg hx]

theorem abs_signFactor_mul_sub (neg : Bool) (x y : ℚ) : |signFactor neg * x - signFactor neg * y| = |x - y| := by
  rw [← mul_sub, abs_mul, abs_signFactor, one_mul]

theorem signFactor_mul_self (neg : Bool) : signFactor neg * signFactor neg = 1 := by cases neg <;> simp [signFactor]

theorem signFactor_mul_natCast (neg : Bool) (n : Nat) : signFactor neg * n = ((if neg then -(n : Int) else n : Int) : ℚ) := by
  cases neg <;> simp [signFactor]

theorem Dy.val_eq (d : Dy) : d.val = signFactor d.neg * (d.m * 2 ^ d.e) := by rw [Dy.val, signFactor, mul_assoc]

theorem Dy.abs_val (d : Dy) : |d.val| = d.m * 2 ^ d.e := by
  rw [Dy.val_eq, abs_signFactor_mul _ (by positivity)]

theorem Dy.val_eq_zero_iff {d : Dy} : d.val = 0 ↔ d.m = 0 := by
  simp [Dy.val_eq, signFactor_ne_zero, zpow_ne_zero]

/-- The exponent of a value that is not zero is that of its leading bit. -/
theorem Dy.pow_le_abs_val_iff {d : Dy} (hm : d.m ≠ 0) (t : Int) : 2 ^ t ≤ |d.val| ↔ t ≤ d.e + (Nat.log2 d.m : Int) := by
  have hpos : (0 : ℚ) < d.m := by exact_mod_cast Nat.pos_of_ne_zero hm
  calc (2 : ℚ) ^ t ≤ |d.val| ↔ 2 ^ (t - d.e) ≤ (d.m : ℚ) := by
        rw [Dy.abs_val, zpow_sub₀ two_ne_zero, div_le_iff₀ (by positivity)]
    _ ↔ t - d.e ≤ Int.log 2 (d.m : ℚ) := by exact_mod_cast Int.zpow_le_iff_le_log (b := 2) one_lt_two hpos
    _ ↔ t ≤ d.e + (Nat.log2 d.m : Int) := by rw [Int.log_natCast, Nat.log2_eq_log_two]; omega

theorem Dy.m_ne_zero_of_pow_le {d : Dy} {t : Int} (h : 2 ^ t ≤ |d.val|) : d.m ≠ 0 := by
  intro hm
  rw [Dy.val_eq_zero_iff.mpr hm, abs_zero] at h
  exact absurd h (not_le.mpr (by positivity))

theorem Dy.topExp_eq {d : Dy} {top : Int} (hlow : 2 ^ top ≤ |d.val|) (hhigh : |d.val| < 2 ^ (top + 1)) :
    d.e + (Nat.log2 d.m : Int) = top := by
  have hm := Dy.m_ne_zero_of_pow_le hlow
  rw [Dy.pow_le_abs_val_iff hm] at hlow
  rw [← not_le, Dy.pow_le_abs_val_iff hm] at hhigh
  omega

section
variable {f : Fmt}

/-- R25: the number of an encoding without its sign bit, as if the exponent field were unbounded. -/
def Fmt.magValue (f : Fmt) (n : Nat) : ℚ :=
  if n / 2 ^ f.fbits = 0 then (n % 2 ^ f.fbits : Nat) * 2 ^ (1 - (f.bias : Int) - f.fbits)
  else (2 ^ f.fbits + n % 2 ^ f.fbits : Nat) * 2 ^ ((n / 2 ^ f.fbits : Nat) - (f.bias : Int) - f.fbits)

theorem Fmt.magValue_mod (f : Fmt) (x : Nat) : f.magValue (x % 2 ^ (f.ebits + f.fbits)) =
    if x / 2 ^ f.fbits % 2 ^ f.ebits = 0 then ((x % 2 ^ f.fbits : Nat) : ℚ) * 2 ^ (1 - (f.bias : Int) - f.fbits)
    else ((2 ^ f.fbits + x % 2 ^ f.fbits : Nat) : ℚ) *
      2 ^ ((x / 2 ^ f.fbits % 2 ^ f.ebits : Nat) - (f.bias : Int) - f.fbits) := by
  rw [Fmt.magValue, Nat.mod_mod_of_dvd _ (pow_dvd_pow 2 (Nat.le_add_left ..)), Nat.add_comm f.ebits, pow_add,
    Nat.mod_mul_right_div_self]

theorem Fmt.value_eq (f : Fmt) (x : Nat) :
    f.value x = signFactor (decide (x / 2 ^ (f.ebits + f.fbits) % 2 = 1)) * f.magValue (x % 2 ^ (f.ebits + f.fbits)) := by
  rw [Fmt.magValue_mod]
  simp only [Fmt.value, signFactor, decide_eq_true_eq]
  congr 1
  split
  · rw [zpow_sub₀ two_ne_zero _ (f.fbits : Int), zpow_natCast]
    ring
  · rw [zpow_sub₀ two_ne_zero _ (f.fbits : Int), zpow_natCast]
    push_cast
    field_simp

/-- A significand q above the exponent field E, whose carry may reach the next binade. -/
theorem Fmt.magValue_of_significand {E q : Nat} (hq : q ≤ 2 ^ (f.fbits + 1)) (hE : E = 0 ∨ 2 ^ f.fbits ≤ q) :
    f.magValue (E * 2 ^ f.fbits + q) = q * 2 ^ ((E : Int) + 1 - f.bias - f.fbits) := by
  have hpos : 0 < 2 ^ f.fbits := by positivity
  rw [pow_succ] at hq
  unfold Fmt.magValue
  rcases lt_or_ge q (2 ^ f.fbits) with hsub | hnorm
  · obtain rfl : E = 0 := by omega
    simp [Nat.mod_eq_of_lt hsub, hsub]
  obtain ⟨r, rfl⟩ := Nat.exists_eq_add_of_le hnorm
  rcases lt_or_ge r (2 ^ f.fbits) with hr | hr
  · have hsum : E * 2 ^ f.fbits + (2 ^ f.fbits + r) = r + (E + 1) * 2 ^ f.fbits := by ring
    simp [hsum, Nat.add_mul_div_right _ _ hpos, Nat.div_eq_of_lt hr, Nat.mod_eq_of_lt hr]
  · obtain rfl : r = 2 ^ f.fbits := by omega
    have hsum : E * 2 ^ f.fbits + (2 ^ f.fbits + 2 ^ f.fbits) = (E + 2) * 2 ^ f.fbits := by ring
    have hexp : ((E + 2 : Nat) : Int) - f.bias - f.fbits = (E : Int) + 1 - f.bias - f.fbits + 1 := by push_cast; ring
    rw [hsum, Nat.mul_div_cancel _ hpos, if_neg (by omega), Nat.mul_mod_left, hexp, zpow_add_one₀ two_ne_zero]
    push_cast
    ring

theorem Fmt.exists_significand (f : Fmt) (n : Nat) :
    ∃ E q, n = E * 2 ^ f.fbits + q ∧ q < 2 ^ (f.fbits + 1) ∧ (E = 0 ∨ 2 ^ f.fbits ≤ q) := by
  have hdiv := Nat.div_add_mod' n (2 ^ f.fbits)
  have hmod := Nat.mod_lt n (show 2 ^ f.fbits > 0 by positivity)
  rw [pow_succ]
  cases hE : n / 2 ^ f.fbits with
  | zero =>
    rw [hE] at hdiv
    exact ⟨0, n, by omega, by omega, .inl rfl⟩
  | succ E =>
    rw [hE, Nat.succ_mul] at hdiv
    exact ⟨E, 2 ^ f.fbits + n % 2 ^ f.fbits, by omega, by omega, .inr (Nat.le_add_right ..)⟩

theorem Fmt.magValue_strictMono (f : Fmt) : StrictMono f.magValue := by
  refine strictMono_nat_of_lt_succ fun n => ?_
  obtain ⟨E, q, rfl, hq, hE⟩ := f.exists_significand n
  rw [Nat.add_assoc, Fmt.magValue_of_significand hq.le hE, Fmt.magValue_of_significand hq (hE.imp_right Nat.le_succ_of_le)]
  gcongr
  exact Nat.lt_succ_self q

@[simp] theorem Fmt.magValue_zero (f : Fmt) : f.magValue 0 = 0 := by simp [Fmt.magValue]

theorem Fmt.magValue_smallestNormal (f : Fmt) : f.magValue (2 ^ f.fbits) = 2 ^ (1 - (f.bias : Int)) := by
  have h := Fmt.magValue_of_significand (f := f) (E := 0) (q := 2 ^ f.fbits) (by gcongr <;> omega) (.inl rfl)
  rw [Nat.zero_mul, Nat.zero_add] at h
  rw [h, Nat.cast_pow, Nat.cast_ofNat, ← zpow_natCast, ← zpow_add₀ two_ne_zero]
  congr 1
  push_cast
  ring

theorem Fmt.magValue_nonneg (f : Fmt) (n : Nat) : 0 ≤ f.magValue n :=
  f.magValue_zero ▸ f.magValue_strictMono.monotone (Nat.zero_le n)

theorem Fmt.magValue_pos_iff {n : Nat} : 0 < f.magValue n ↔ 0 < n := by
  simpa using f.magValue_strictMono.lt_iff_lt (a := 0) (b := n)

/-- The number of an encoding from its sign and the rest. -/
theorem Fmt.value_sign_add (f : Fmt) (neg : Bool) {n : Nat} (hn : n < 2 ^ (f.ebits + f.fbits)) :
    f.value ((if neg then 2 ^ (f.ebits + f.fbits) else 0) + n) = signFactor neg * f.magValue n := by
  rw [Fmt.value_eq]
  cases neg
  · simp [Nat.div_eq_of_lt hn, Nat.mod_eq_of_lt hn]
  · simp [Nat.add_div_left _ (show 0 < 2 ^ (f.ebits + f.fbits) by positivity), Nat.div_eq_of_lt hn, Nat.mod_eq_of_lt hn]

/-- The formats of R25. -/
def Fmt.all : List Fmt := [fp64, fp32, fp16, bf16, e5m2, e4m3, e2m1]

@[simp] theorem Fmt.width_sub_one (f : Fmt) : f.width - 1 = f.ebits + f.fbits := by
  rw [Fmt.width, Nat.add_assoc, Nat.add_sub_cancel_left]

theorem Fmt.maxFinite_lt (hf : f ∈ Fmt.all) : f.maxFinite < 2 ^ (f.ebits + f.fbits) := by
  revert f
  decide

theorem Fmt.value_maxFinite (hf : f ∈ Fmt.all) : f.value f.maxFinite = f.magValue f.maxFinite := by
  simpa [signFactor] using f.value_sign_add false (Fmt.maxFinite_lt hf)

/-- The largest finite value of a format with infinities (R25). -/
theorem Fmt.value_maxFinite_ieee (hf : f ∈ Fmt.all) (hs : f.special = .ieee) (hbias : 2 ^ f.ebits = 2 * f.bias + 2)
    (hpos : 0 < f.bias) : f.value f.maxFinite = (2 - 2 ^ (-(f.fbits : Int))) * 2 ^ f.bias := by
  have hpow : 0 < 2 ^ f.fbits := by positivity
  obtain ⟨b, hb⟩ : ∃ b, f.bias = b + 1 := Nat.exists_eq_succ_of_ne_zero hpos.ne'
  have hmax : f.maxFinite = (2 * b + 1) * 2 ^ f.fbits + (2 ^ (f.fbits + 1) - 1) := by
    have h : f.maxFinite = (2 ^ f.ebits - 1) * 2 ^ f.fbits - 1 := by rw [Fmt.maxFinite, hs]
    rw [h, hbias, hb, show 2 * (b + 1) + 2 - 1 = (2 * b + 1) + 2 by omega, Nat.add_mul _ 2, pow_succ]
    omega
  have hcast : ((2 ^ (f.fbits + 1) - 1 : Nat) : ℚ) = 2 * 2 ^ f.fbits - 1 := by
    rw [Nat.cast_sub Nat.one_le_two_pow]
    push_cast
    ring
  have hexp : ((2 * b + 1 : Nat) : Int) + 1 - f.bias - f.fbits = f.bias - f.fbits := by omega
  rw [Fmt.value_maxFinite hf, hmax, Fmt.magValue_of_significand (Nat.sub_le ..) (.inr (by rw [pow_succ]; omega)), hcast, hexp,
    zpow_sub₀ two_ne_zero, zpow_neg, zpow_natCast, zpow_natCast]
  field_simp

/-- The formats with their widths and largest finite values (R25). -/
def formatTable : List (Fmt × Nat × ℚ) :=
  [(fp64, 64, (2 - 2 ^ (-52 : Int)) * 2 ^ 1023), (fp32, 32, (2 - 2 ^ (-23 : Int)) * 2 ^ 127), (fp16, 16, 65504),
   (bf16, 16, (2 - 2 ^ (-7 : Int)) * 2 ^ 127), (e5m2, 8, 57344), (e4m3, 8, 448), (e2m1, 4, 6)]

theorem Fmt.width_and_value_of_mem_formatTable {r : Fmt × Nat × ℚ} (hr : r ∈ formatTable) :
    r.1.width = r.2.1 ∧ r.1.value r.1.maxFinite = r.2.2 := by
  have hieee (f : Fmt) (h : f ∈ [fp64, fp32, fp16, bf16, e5m2]) :
      f.value f.maxFinite = (2 - 2 ^ (-(f.fbits : Int))) * 2 ^ f.bias := by
    have hall : f ∈ Fmt.all ∧ f.special = .ieee ∧ 2 ^ f.ebits = 2 * f.bias + 2 ∧ 0 < f.bias := by
      revert f
      decide
    obtain ⟨hf, hs, hbias, hpos⟩ := hall
    exact Fmt.value_maxFinite_ieee hf hs hbias hpos
  simp only [formatTable, List.mem_cons, List.not_mem_nil, or_false] at hr
  rcases hr with rfl | rfl | rfl | rfl | rfl | rfl | rfl
  · exact ⟨rfl, hieee fp64 (by decide)⟩
  · exact ⟨rfl, hieee fp32 (by decide)⟩
  · exact ⟨rfl, (hieee fp16 (by decide)).trans (by norm_num [fp16])⟩
  · exact ⟨rfl, hieee bf16 (by decide)⟩
  · exact ⟨rfl, (hieee e5m2 (by decide)).trans (by norm_num [e5m2])⟩
  · exact ⟨rfl, by norm_num [Fmt.value, e4m3, Fmt.maxFinite]⟩
  · exact ⟨rfl, by norm_num [Fmt.value, e2m1, Fmt.maxFinite]⟩

end
end Sys2Proof.Machine
end

section
/-! ## Decoding and NaNs (R25, R27, R28) -/
namespace Sys2Proof.Machine

section
variable {f : Fmt} {x : Nat} {fi : Bool}

theorem Fmt.signBit_eq (hx : x < 2 ^ f.width) :
    (x / 2 ^ (f.ebits + f.fbits) % 2 == 1) = decide (2 ^ (f.width - 1) ≤ x) := by
  have hpos : 0 < 2 ^ (f.ebits + f.fbits) := by positivity
  rw [Fmt.width, Nat.add_assoc, Nat.add_comm, pow_add, pow_one] at hx
  rw [Fmt.width_sub_one, Bool.eq_iff_iff, beq_iff_eq, decide_eq_true_eq, ← Nat.one_le_div_iff hpos]
  have hlt := Nat.div_lt_of_lt_mul hx
  generalize x / 2 ^ (f.ebits + f.fbits) = y at hlt ⊢
  omega

/-- An exponent field of all ones, in a format where it marks infinities and NaNs (R25). -/
theorem decodeFp_ieee_ones (hx : x < 2 ^ f.width)
    (h : f.special = .ieee ∧ x / 2 ^ f.fbits % 2 ^ f.ebits = 2 ^ f.ebits - 1) :
    decodeFp f fi x = if x % 2 ^ f.fbits = 0 then .inf (decide (2 ^ (f.width - 1) ≤ x))
      else .nan (decide (2 ^ (f.width - 1) ≤ x)) (decide (x % 2 ^ f.fbits < 2 ^ (f.fbits - 1))) (x % 2 ^ f.fbits) := by
  simp only [decodeFp, Fmt.signBit_eq hx, h, beq_self_eq_true, and_self, if_true]

theorem decodeFp_e4m3_nan (hx : x < 2 ^ f.width)
    (h : f.special = .e4m3 ∧ x / 2 ^ f.fbits % 2 ^ f.ebits = 2 ^ f.ebits - 1 ∧ x % 2 ^ f.fbits = 7) :
    decodeFp f fi x = .nan (decide (2 ^ (f.width - 1) ≤ x)) false (x % 2 ^ f.fbits) := by
  simp [decodeFp, Fmt.signBit_eq hx, h]

/-- Every other encoding stands for its number, or for a zero where FI flushes it (R25, R30). -/
theorem decodeFp_finite (hx : x < 2 ^ f.width)
    (hieee : ¬(f.special = .ieee ∧ x / 2 ^ f.fbits % 2 ^ f.ebits = 2 ^ f.ebits - 1))
    (hnan : ¬(f.special = .e4m3 ∧ x / 2 ^ f.fbits % 2 ^ f.ebits = 2 ^ f.ebits - 1 ∧ x % 2 ^ f.fbits = 7)) :
    ∃ d : Dy, decodeFp f fi x = .fin d ∧ d.neg = decide (2 ^ (f.width - 1) ≤ x) ∧
      d.val = if fi = true ∧ x / 2 ^ f.fbits % 2 ^ f.ebits = 0 then 0 else f.value x := by
  have hsign := Fmt.signBit_eq hx
  have hvalue : f.value x = signFactor (decide (2 ^ (f.width - 1) ≤ x)) * f.magValue (x % 2 ^ (f.ebits + f.fbits)) := by
    rw [Fmt.value_eq, ← hsign]
    rfl
  rw [Fmt.magValue_mod] at hvalue
  simp only [decodeFp, hsign, beq_iff_eq, if_neg hieee, if_neg hnan]
  by_cases hsub : x / 2 ^ f.fbits % 2 ^ f.ebits = 0
  · refine ⟨_, if_pos hsub, rfl, ?_⟩
    cases fi
    · simp [Dy.val_eq, hvalue, hsub]
    · simp [Dy.val_eq, hsub]
  · refine ⟨_, if_neg hsub, rfl, ?_⟩
    simp [Dy.val_eq, hvalue, hsub]

end

/-! ### NaNs -/

section
variable {f : Fmt} {n sig : Bool} {fr : Nat}

/-- Setting the quiet bit of a fraction (R28). -/
theorem quiet_frac (hpos : 0 < f.fbits) (hsig : sig = true ↔ fr < 2 ^ (f.fbits - 1)) (hfr : fr < 2 ^ f.fbits) :
    (if sig then fr + 2 ^ (f.fbits - 1) else fr) = fr ||| 2 ^ (f.fbits - 1) := by
  have hor {y : Nat} (hy : y < 2 ^ (f.fbits - 1)) : y + 2 ^ (f.fbits - 1) = y ||| 2 ^ (f.fbits - 1) := by
    simpa [Nat.add_comm, Nat.or_comm] using Nat.two_pow_add_eq_or_of_lt hy 1
  have hdouble : 2 ^ f.fbits = 2 ^ (f.fbits - 1) + 2 ^ (f.fbits - 1) := by
    rw [← mul_two, ← pow_succ, Nat.sub_add_cancel hpos]
  cases sig
  · obtain ⟨y, rfl⟩ := Nat.exists_eq_add_of_le' (not_lt.mp (mt hsig.mpr Bool.false_ne_true))
    have hy : y < 2 ^ (f.fbits - 1) := by omega
    rw [hor hy, Nat.or_assoc, Nat.or_self]
    rfl
  · exact hor (hsig.mp rfl)

theorem quietVal_eq (hpos : 0 < f.fbits) (hsig : sig = true ↔ fr < 2 ^ (f.fbits - 1)) (hfr : fr < 2 ^ f.fbits) :
    quietVal f n sig fr = (.nan n (fr ||| 2 ^ (f.fbits - 1)), if sig then Flags.invalid else Flags.none) := by
  rw [quietVal, quiet_frac hpos hsig hfr]

theorem firstNan_append {l r : List Fp} (hl : ∀ x ∈ l, x.isNan = false) : firstNan f (l ++ r) = firstNan f r := by
  induction l with
  | nil => rfl
  | cons x l ih =>
    obtain ⟨hx, hrest⟩ := List.forall_mem_cons.mp hl
    cases x with
    | nan => exact absurd hx (by simp [Fp.isNan])
    | inf | fin => exact ih hrest

theorem elementwise_of_no_nan {srcs : List Fp} (h : ∀ x ∈ srcs, x.isNan = false) (v : Val) :
    elementwise f srcs v = (v, Flags.none) := by
  rw [elementwise, ← List.append_nil srcs, firstNan_append h]
  rfl

/-- R28: the first NaN among the sources, quieted. -/
theorem roundElem_first_nan {l r : List Fp} (hl : ∀ x ∈ l, x.isNan = false) (hpos : 0 < f.fbits)
    (hsig : sig = true ↔ fr < 2 ^ (f.fbits - 1)) (hfr : fr < 2 ^ f.fbits) (md : RMode) (fo : Bool) (v : Val) :
    roundElem f md fo (elementwise f (l ++ .nan n sig fr :: r) v) =
      ((if n then 2 ^ (f.width - 1) else 0) + (2 ^ f.ebits - 1) * 2 ^ f.fbits + (fr ||| 2 ^ (f.fbits - 1)),
        if sig then Flags.invalid else Flags.none) := by
  rw [elementwise, firstNan_append hl, firstNan, quietVal_eq hpos hsig hfr, Fmt.width_sub_one]
  cases sig <;> rfl

/-- A NaN written in a format keeps its sign, and its fraction or, in another format, its cause (R28). -/
theorem convertFp_nan {src dst : Fmt} (hdst : dst.special ≠ .e2m1) (hpos : 0 < src.fbits)
    (hsig : sig = true ↔ fr < 2 ^ (src.fbits - 1)) (hfr : fr < 2 ^ src.fbits) (md : RMode) (fo sat : Bool) :
    convertFp src dst md fo sat (.nan n sig fr) =
      ((if n then 2 ^ (dst.width - 1) else 0) +
        (if dst = src then (2 ^ src.ebits - 1) * 2 ^ src.fbits + (fr ||| 2 ^ (src.fbits - 1)) else genNan dst (nanCause src fr)),
        if sig then Flags.invalid else Flags.none) := by
  rw [Fmt.width_sub_one, convertFp, if_neg hdst]
  by_cases h : dst = src
  · subst h
    simp only [if_true, quietVal_eq hpos hsig hfr, putVal, Nat.add_assoc]
  · simp only [h, if_false]

end

/-- The causes that the fractions of NaNs carry (R28). -/
theorem nanCause_eq {src : Fmt} {fr c : Nat}
    (h : src ∈ [fp64, fp32, fp16, bf16] ∧ c = fr % 8 ∨ src = e5m2 ∧ c = fr % 2 ∨ src = e4m3 ∧ c = 0) :
    nanCause src fr = c ∧ 0 < src.fbits := by
  rcases h with ⟨hsrc, rfl⟩ | ⟨rfl, rfl⟩ | ⟨rfl, rfl⟩
  · simp only [List.mem_cons, List.not_mem_nil, or_false] at hsrc
    rcases hsrc with rfl | rfl | rfl | rfl <;> exact ⟨rfl, by decide⟩
  · exact ⟨rfl, by decide⟩
  · exact ⟨rfl, by decide⟩

/-- R27: the generated NaNs. -/
theorem genNan_eq : ∀ c < 6, genNan fp64 c = 0x7FF8000000000000 + c ∧ genNan fp32 c = 0x7FC00000 + c ∧
    genNan fp16 c = 0x7E00 + c ∧ genNan bf16 c = 0x7FC0 + c ∧ genNan e5m2 c = 0x7E + c % 2 ∧ genNan e4m3 c = 0x7F := by
  decide

end Sys2Proof.Machine
end

section
/-! ## The mode of a rounding (R31, R34) -/
namespace Sys2Proof.Machine

/-- R34: Mix on numbers. -/
def mixNat (seed ctr idx : Nat) : Nat :=
  let z := seed ^^^ (ctr * 0x9E6B3A51C2F47D19 % 2 ^ 64) ^^^ (idx * 0x5C8E21F7A93D0B65 % 2 ^ 64)
  let z := (z ^^^ (z / 2 ^ 31)) * 0xE4A196C37F05B2D9 % 2 ^ 64
  let z := (z ^^^ (z / 2 ^ 29)) * 0x83F25D0BC6A7194F % 2 ^ 64
  (z ^^^ (z / 2 ^ 32)) / 2 ^ 48

theorem toNat_mul_ofNat (z : Word) {c : Nat} (hc : c < 2 ^ 64) : (z * BitVec.ofNat 64 c).toNat = z.toNat * c % 2 ^ 64 := by
  rw [BitVec.toNat_mul, BitVec.toNat_ofNat, Nat.mod_eq_of_lt hc]

theorem toNat_ofNat_mul_ofNat (x c : Nat) : (BitVec.ofNat 64 x * BitVec.ofNat 64 c).toNat = x * c % 2 ^ 64 := by
  rw [BitVec.toNat_mul, BitVec.toNat_ofNat, BitVec.toNat_ofNat, ← Nat.mul_mod]

theorem toNat_xor_shift (z : Word) (k : Nat) : (z ^^^ (z >>> k)).toNat = z.toNat ^^^ (z.toNat / 2 ^ k) := by
  rw [BitVec.toNat_xor, BitVec.toNat_ushiftRight, Nat.shiftRight_eq_div_pow]

theorem toNat_high16 (z : Word) : (z.extractLsb' 48 16).toNat = z.toNat / 2 ^ 48 := by
  have hz := z.isLt
  rw [BitVec.extractLsb'_toNat, Nat.shiftRight_eq_div_pow, Nat.mod_eq_of_lt (by omega)]

theorem mix_eq_mixNat (seed ctr : Word) (idx : Nat) : mix seed ctr idx = mixNat seed.toNat ctr.toNat idx := by
  unfold mix mixNat
  extract_lets z0 z1 z2 z3 n0 n1 n2
  have h0 : z0.toNat = n0 := by
    rw [BitVec.toNat_xor, BitVec.toNat_xor, toNat_mul_ofNat _ (by norm_num), toNat_ofNat_mul_ofNat]
  have h1 : z1.toNat = n1 := by
    rw [toNat_mul_ofNat _ (by norm_num), toNat_xor_shift, h0]
  have h2 : z2.toNat = n2 := by
    rw [toNat_mul_ofNat _ (by norm_num), toNat_xor_shift, h1]
  rw [toNat_high16, toNat_xor_shift, h2]

theorem effRm_eq_ite (c : Ctl) (rm : Rm) : effRm c rm = if rm = .dyn then Rm.ofCode c.rm.toNat else rm := by
  cases rm <;> rfl

/-- The mode of the element idx, by the effective mode (R31, R34). -/
theorem rounder_at (c : Ctl) (rm : Rm) (idx : Nat) :
    (rounder c rm).at idx = match effRm c rm with
      | .rtz => .rtz
      | .rdn => .rdn
      | .rup => .rup
      | .rna => .rna
      | .sr0 => .sr (mixNat c.gseed[0].toNat c.gctr[0].toNat idx)
      | .sr1 => .sr (mixNat c.gseed[1].toNat c.gctr[1].toNat idx)
      | _ => .rne := by
  cases he : effRm c rm <;> simp [rounder, genNamed, he, Rounder.at, mix_eq_mixNat]

end Sys2Proof.Machine
end

section
namespace Sys2Proof.Machine

/-- Settles O1, clause by clause: the fields of an encoding decide what it stands for, the first NaN among the sources or a
converted one keeps what R28 says, and the effective mode decides the rounding. -/
theorem numberFormats : Obligations.NumberFormats := by
  refine ⟨?table, ?generated, ?first, ?converted, ?infinite, ?modes⟩
  case table =>
    intro r hr
    obtain ⟨hwidth, hmax⟩ := Fmt.width_and_value_of_mem_formatTable hr
    refine ⟨hwidth, hmax, fun x fi hx => ?_⟩
    intro neg ones frac sub
    split
    next hieee => exact decodeFp_ieee_ones hx hieee
    next hieee =>
      split
      next hnan => exact decodeFp_e4m3_nan hx hnan
      next hnan => exact decodeFp_finite hx hieee hnan
  case generated =>
    intro c hc
    obtain ⟨h64, h32, h16, hb16, h5, h4⟩ := genNan_eq c hc
    exact ⟨h64, h32, h16, hb16, h5, h4, fun _ _ _ _ => rfl⟩
  case first =>
    intro f srcs v hf
    refine ⟨fun h => elementwise_of_no_nan h v, ?_⟩
    rintro l r n sig fr md fo rfl hl hfr hsig
    have hpos : ∀ f ∈ [fp64, fp32, fp16, bf16, e5m2], 0 < f.fbits := by decide
    exact roundElem_first_nan hl (hpos f hf) hsig hfr md fo v
  case converted =>
    intro src dst md fo sat n sig fr c hsrc hdst hfr hsig
    obtain ⟨rfl, hpos⟩ := nanCause_eq hsrc
    have hspecial : ∀ f ∈ [fp64, fp32, fp16, bf16, e5m2, e4m3, e2m1], f.special = .e2m1 → f = e2m1 := by decide
    by_cases h : dst = e2m1
    · subst h
      rfl
    · rw [if_neg h]
      exact convertFp_nan (mt (hspecial dst hdst) h) hpos hsig hfr md fo sat
  case infinite =>
    intro src f md fo sat n _
    refine ⟨fun _ => rfl, ?_⟩
    rw [Fmt.width_sub_one]
    rfl
  case modes =>
    intro c rm idx
    rw [← effRm_eq_ite]
    exact fun _ => rounder_at c rm idx

end Sys2Proof.Machine
end

section
/-! ## The chosen multiple of the ulp (R31, R33) -/
namespace Sys2Proof.Machine

/-- Does the mode choose the multiple above the magnitude q + r / 2^k, where r is not zero? -/
def RMode.roundsUp (md : RMode) (neg : Bool) (q r k : Nat) : Bool :=
  match md with
  | .rne => decide (2 ^ k / 2 < r) || (r == 2 ^ k / 2 && q % 2 == 1)
  | .rtz => false
  | .rdn => neg
  | .rup => !neg
  | .rna => decide (2 ^ k / 2 ≤ r)
  | .sr rnd => decide (65536 ≤ r * 65536 / 2 ^ k + rnd)

section
variable {md : RMode} {neg : Bool} {p q r k : Nat} {u v z : ℚ}

theorem roundShift_of_exact (h : p % 2 ^ k = 0) : roundShift md neg p k = (p / 2 ^ k, false) := by
  cases k <;> simp [roundShift, h]

theorem roundShift_of_inexact (h : p % 2 ^ k ≠ 0) :
    roundShift md neg p k = (p / 2 ^ k + (md.roundsUp neg (p / 2 ^ k) (p % 2 ^ k) k).toNat, true) := by
  have hk : k ≠ 0 := by rintro rfl; exact h (Nat.mod_one p)
  have hne : (p % 2 ^ k != 0) = true := by simpa using h
  have hadd (b : Bool) : (if b then p / 2 ^ k + 1 else p / 2 ^ k) = p / 2 ^ k + b.toNat := by cases b <;> rfl
  simp only [roundShift, if_neg hk, hne, Bool.and_true, hadd]
  cases md <;> rfl

/-- Rounding to a multiple of u is rounding to an integer after the division by u. -/
theorem RoundsTo.div_ulp (hu : 0 < u) (h : RoundsTo md u v z) : RoundsTo md 1 (v / u) (z / u) := by
  obtain ⟨j, hz, hsign, hmode⟩ := h
  have habs (x : ℚ) : |x / u| = |x| / u := by rw [abs_div, abs_of_pos hu]
  refine ⟨j, by rw [hz, mul_div_cancel_right₀ _ hu.ne', mul_one], ?_, ?_⟩
  · rw [div_mul_div_comm]
    positivity
  cases md with
  | rne =>
    obtain ⟨hnear, htie⟩ := hmode
    simp only [← sub_div, habs, div_le_iff₀ hu, div_eq_iff hu.ne']
    exact ⟨by linarith, fun h => htie (by linarith)⟩
  | rna =>
    obtain ⟨hnear, htie⟩ := hmode
    simp only [← sub_div, habs, div_le_iff₀ hu, div_eq_iff hu.ne', div_lt_div_iff_of_pos_right hu]
    exact ⟨by linarith, fun h => htie (by linarith)⟩
  | sr rnd =>
    simp only [habs, hmode, div_one, mul_one]
    exact mul_div_cancel_right₀ _ hu.ne'
  | rtz | rdn | rup =>
    obtain ⟨hbelow, habove⟩ := hmode
    simp only [habs, div_le_div_iff_of_pos_right hu, div_add_one hu.ne', div_lt_div_iff_of_pos_right hu]
    exact ⟨hbelow, habove⟩

/-- In the modes that draw no random value the result is less than 1 away. -/
theorem RoundsTo.abs_sub_lt (hmd : ∀ rnd, md ≠ .sr rnd) (h : RoundsTo md 1 v z) : |z - v| < 1 := by
  obtain ⟨j, -, hsign, hmode⟩ := h
  cases md with
  | sr rnd => exact absurd rfl (hmd rnd)
  | rne | rna => exact lt_of_le_of_lt hmode.1 (by norm_num)
  | rdn | rup => rw [abs_sub_lt_iff]; constructor <;> linarith [hmode.1, hmode.2]
  | rtz =>
    obtain ⟨hbelow, habove⟩ := hmode
    rw [abs_sub_lt_iff]
    rcases mul_nonneg_iff.mp hsign with ⟨hz, hv⟩ | ⟨hz, hv⟩
    · rw [abs_of_nonneg hz, abs_of_nonneg hv] at hbelow habove
      constructor <;> linarith
    · rw [abs_of_nonpos hz, abs_of_nonpos hv] at hbelow habove
      constructor <;> linarith

/-- A result less than 1 away from q + t is one of its two neighbours, with its sign. -/
theorem exists_neighbour {j : Int} {t : ℚ} (h0 : 0 < t) (h1 : t < 1) (h : |(j : ℚ) - signFactor neg * (q + t)| < 1) :
    ∃ b : Bool, (j : ℚ) = signFactor neg * (q + b.toNat : Nat) := by
  have hcases {i : Int} (h : |(i : ℚ) - (q + t)| < 1) : i = q ∨ i = q + 1 := by
    rw [abs_sub_lt_iff] at h
    have hlow : (q : ℚ) < i + 1 := by linarith
    have hhigh : (i : ℚ) < q + 2 := by linarith
    norm_cast at hlow hhigh
    omega
  obtain ⟨i, hi⟩ : ∃ i : Int, (j : ℚ) = signFactor neg * i :=
    ⟨if neg then -j else j, by cases neg <;> simp [signFactor]⟩
  rw [hi, abs_signFactor_mul_sub] at h
  rcases hcases h with rfl | rfl
  · exact ⟨false, by simpa using hi⟩
  · exact ⟨true, by simpa using hi⟩

theorem div_two_pow_le_half : (r : ℚ) / 2 ^ (k + 1) ≤ 1 / 2 ↔ r ≤ 2 ^ k := by
  rw [pow_succ, ← div_div, div_le_div_iff_of_pos_right two_pos, div_le_one (by positivity)]
  norm_cast

theorem half_le_div_two_pow : 1 / 2 ≤ (r : ℚ) / 2 ^ (k + 1) ↔ 2 ^ k ≤ r := by
  rw [pow_succ, ← div_div, div_le_div_iff_of_pos_right two_pos, one_le_div (by positivity)]
  norm_cast

section
variable {t : ℚ} {b : Bool}

theorem eq_true_of_le_toNat (h0 : 0 < t) (h : t ≤ b.toNat) : b = true := by
  cases b
  · simp only [Bool.toNat_false, Nat.cast_zero] at h
    exact absurd h0 (not_lt.mpr h)
  · rfl

theorem eq_false_of_toNat_le (h1 : t < 1) (h : b.toNat ≤ t) : b = false := by
  cases b
  · rfl
  · simp only [Bool.toNat_true, Nat.cast_one] at h
    exact absurd h1 (not_lt.mpr h)

theorem abs_neighbour_sub (h0 : 0 < t) (h1 : t < 1) :
    |signFactor neg * (q + b.toNat : Nat) - signFactor neg * (q + t)| = if b then 1 - t else t := by
  rw [abs_signFactor_mul_sub]
  cases b
  · simp [abs_of_pos h0]
  · simp [abs_of_pos (sub_pos.mpr h1)]

end

theorem mod_two_of_signFactor_mul {j : Int} (h : signFactor neg * q = j) (hj : j % 2 = 0) : q % 2 = 0 := by
  rw [signFactor_mul_natCast] at h
  have h := Int.cast_injective h
  split at h <;> omega

/-- Which neighbour each mode chooses. -/
theorem roundsUp_eq_of_roundsTo {b : Bool} (hmd : ∀ rnd, md ≠ .sr rnd) (hr : 0 < r) (hrk : r < 2 ^ k)
    (h : RoundsTo md 1 (signFactor neg * (q + r / 2 ^ k)) (signFactor neg * (q + b.toNat : Nat))) :
    md.roundsUp neg q r k = b := by
  obtain ⟨k, rfl⟩ : ∃ i, k = i + 1 := Nat.exists_eq_succ_of_ne_zero (by rintro rfl; simp at hrk; omega)
  obtain ⟨j, hj, -, hmode⟩ := h
  have hle := div_two_pow_le_half (r := r) (k := k)
  have hge := half_le_div_two_pow (r := r) (k := k)
  set t : ℚ := r / 2 ^ (k + 1) with ht
  have h0 : 0 < t := by positivity
  have h1 : t < 1 := by rw [ht, div_lt_one (by positivity)]; exact_mod_cast hrk
  have hhalf : 2 ^ (k + 1) / 2 = 2 ^ k := by rw [pow_succ, Nat.mul_div_cancel _ two_pos]
  have heq (h : r = 2 ^ k) : t = 1 / 2 := le_antisymm (hle.mpr h.le) (hge.mpr h.ge)
  have hdist := abs_neighbour_sub (neg := neg) (q := q) (b := b) h0 h1
  have hparity : j % 2 = 0 → (q + b.toNat) % 2 = 0 := mod_two_of_signFactor_mul (hj.trans (mul_one _))
  cases md with
  | sr rnd => exact absurd rfl (hmd rnd)
  | rne =>
    obtain ⟨hnear, htie⟩ := hdist ▸ hmode
    simp only [RMode.roundsUp, hhalf]
    cases b
    · have hr2 := hle.mp hnear
      have hq (h : r = 2 ^ k) : q % 2 = 0 := hparity (htie (heq h))
      simp only [Bool.or_eq_false_iff, decide_eq_false_iff_not, not_lt, hr2, true_and, Bool.and_eq_false_imp, beq_iff_eq]
      intro h
      simp [hq h]
    · have hr2 := hge.mp (by simp only [if_true] at hnear; linarith)
      have hq (h : r = 2 ^ k) : (q + 1) % 2 = 0 := hparity (htie (by rw [heq h]; norm_num))
      simp only [Bool.or_eq_true, decide_eq_true_eq, Bool.and_eq_true, beq_iff_eq]
      omega
  | rna =>
    obtain ⟨hnear, htie⟩ := hdist ▸ hmode
    simp only [RMode.roundsUp, hhalf]
    cases b
    · have hr2 := hle.mp hnear
      have hne : r ≠ 2 ^ k := fun h => by
        have hlt := htie (heq h)
        rw [abs_signFactor_mul _ (by positivity), abs_signFactor_mul _ (by positivity)] at hlt
        simp only [Bool.toNat_false, add_zero] at hlt
        linarith
      simp only [decide_eq_false_iff_not]
      omega
    · have hr2 := hge.mp (by simp only [if_true] at hnear; linarith)
      simpa using hr2
  | rtz =>
    obtain ⟨hmag, -⟩ := hmode
    rw [abs_signFactor_mul _ (by positivity), abs_signFactor_mul _ (by positivity)] at hmag
    exact (eq_false_of_toNat_le h1 (by simpa using hmag)).symm
  | rdn =>
    obtain ⟨hbelow, -⟩ := hmode
    cases neg
    · exact (eq_false_of_toNat_le h1 (by simpa [signFactor] using hbelow)).symm
    · exact (eq_true_of_le_toNat h0 (by simpa [signFactor] using hbelow)).symm
  | rup =>
    obtain ⟨habove, -⟩ := hmode
    cases neg
    · exact (eq_true_of_le_toNat h0 (by simpa [signFactor] using habove)).symm
    · exact (eq_false_of_toNat_le h1 (by simpa [signFactor] using habove)).symm

/-- R33: with 16 bits x below the ulp, the carry is the mode's choice of the neighbour above. -/
theorem stochastic_carry {x rnd : Nat} (hx : x < 65536) (hrnd : rnd < 65536) :
    (q * 65536 + x + rnd) / 65536 = q + (decide (65536 ≤ x + rnd)).toNat := by
  by_cases hcarry : 65536 ≤ x + rnd
  · simp only [hcarry, decide_true, Bool.toNat_true]
    omega
  · simp only [hcarry, decide_false, Bool.toNat_false]
    omega

theorem stochastic_floor {rnd : Nat} (hrnd : rnd < 65536) :
    (p * 65536 / 2 ^ k + rnd) / 65536 = (roundShift (.sr rnd) neg p k).1 := by
  have hpow : 0 < 2 ^ k := by positivity
  have hsplit : p * 65536 / 2 ^ k = p / 2 ^ k * 65536 + p % 2 ^ k * 65536 / 2 ^ k := by
    conv_lhs => rw [← Nat.div_add_mod p (2 ^ k), Nat.add_mul, Nat.mul_assoc, Nat.mul_add_div hpow]
  have hlt : p % 2 ^ k * 65536 / 2 ^ k < 65536 := by
    rw [Nat.div_lt_iff_lt_mul hpow, Nat.mul_comm]
    exact Nat.mul_lt_mul_of_pos_left (Nat.mod_lt p hpow) (by norm_num)
  have hcarry := stochastic_carry (q := p / 2 ^ k) hlt hrnd
  rw [← hsplit] at hcarry
  refine hcarry.trans ?_
  by_cases hr : p % 2 ^ k = 0
  · simp [roundShift_of_exact hr, hr, hrnd]
  · simp only [roundShift_of_inexact hr, RMode.roundsUp]

theorem RoundsTo.abs_of_stochastic {rnd : Nat} (h : RoundsTo (.sr rnd) 1 (signFactor neg * (p / 2 ^ k)) z) :
    |z| = ((p * 65536 / 2 ^ k + rnd) / 65536 : Nat) := by
  obtain ⟨_, -, -, hmode⟩ := h
  have hfloor (x y : Nat) : ⌊((x : Int) : ℚ) / (y : Nat)⌋ = (x / y : Nat) := Rat.floor_intCast_div_natCast x y
  have hq : ⌊(p : ℚ) / 2 ^ k / 1 * 65536⌋ = (p * 65536 / 2 ^ k : Nat) := by
    rw [← hfloor, div_one, div_mul_eq_mul_div]
    push_cast
    rfl
  have habs : |signFactor neg * ((p : ℚ) / 2 ^ k)| = p / 2 ^ k := abs_signFactor_mul _ (by positivity)
  have hm := hfloor (p * 65536 / 2 ^ k + rnd) 65536
  simp only [habs, hq, mul_one, Nat.cast_ofNat, Nat.cast_add] at hmode hm
  rw [hmode, hm, Int.cast_natCast]

theorem eq_signFactor_mul_abs {w : ℚ} (hw : 0 < w) (hsign : 0 ≤ z * (signFactor neg * w)) : z = signFactor neg * |z| := by
  have hz : 0 ≤ signFactor neg * z := by
    rw [← mul_assoc, mul_comm z] at hsign
    exact nonneg_of_mul_nonneg_left hsign hw
  calc z = signFactor neg * (signFactor neg * z) := by rw [← mul_assoc, signFactor_mul_self, one_mul]
    _ = signFactor neg * |z| := by rw [← abs_of_nonneg hz, abs_mul, abs_signFactor, one_mul]

theorem RoundsTo.eq_of_stochastic {rnd : Nat} (hrnd : rnd < 65536)
    (h : RoundsTo (.sr rnd) 1 (signFactor neg * (p / 2 ^ k)) z) : z = signFactor neg * (roundShift (.sr rnd) neg p k).1 := by
  have habs := h.abs_of_stochastic
  rw [stochastic_floor (neg := neg) hrnd] at habs
  obtain ⟨-, -, hsign, -⟩ := h
  rcases p.eq_zero_or_pos with rfl | hp
  · rw [roundShift_of_exact (Nat.zero_mod _)] at habs ⊢
    simpa using habs
  · rw [eq_signFactor_mul_abs (by positivity) hsign, habs]

theorem RoundsTo.eq_of_deterministic (hmd : ∀ rnd, md ≠ .sr rnd) (h : RoundsTo md 1 (signFactor neg * (p / 2 ^ k)) z) :
    z = signFactor neg * (roundShift md neg p k).1 := by
  have hnear := h.abs_sub_lt hmd
  obtain ⟨j, rfl⟩ : ∃ j : Int, z = j := let ⟨j, hj, _⟩ := h; ⟨j, by rw [hj, mul_one]⟩
  have hpow : (0 : ℚ) < 2 ^ k := by positivity
  have hp : (p : ℚ) / 2 ^ k = (p / 2 ^ k : Nat) + (p % 2 ^ k : Nat) / 2 ^ k := by
    rw [div_eq_iff hpow.ne', add_mul, div_mul_cancel₀ _ hpow.ne']
    exact_mod_cast (Nat.div_add_mod' p (2 ^ k)).symm
  rw [hp] at h hnear
  by_cases hr : p % 2 ^ k = 0
  · rw [hr, Nat.cast_zero, zero_div, add_zero, signFactor_mul_natCast] at hnear
    rw [roundShift_of_exact hr, signFactor_mul_natCast]
    congr 1
    exact sub_eq_zero.mp (Int.abs_lt_one_iff.mp (by exact_mod_cast hnear))
  · have hrk := Nat.mod_lt p (show 2 ^ k > 0 by positivity)
    have ht : ((p % 2 ^ k : Nat) : ℚ) / 2 ^ k < 1 := by rw [div_lt_one hpow]; exact_mod_cast hrk
    obtain ⟨b, hb⟩ := exists_neighbour (by positivity) ht hnear
    rw [hb] at h
    rw [roundShift_of_inexact hr, roundsUp_eq_of_roundsTo hmd (Nat.pos_of_ne_zero hr) hrk h, hb]

/-- R31, R33: what `RoundsTo` allows is what `roundShift` computes. -/
theorem RoundsTo.eq_roundShift (hrnd : ∀ rnd, md = .sr rnd → rnd < 65536)
    (h : RoundsTo md 1 (signFactor neg * (p / 2 ^ k)) z) : z = signFactor neg * (roundShift md neg p k).1 := by
  by_cases hmd : ∃ rnd, md = .sr rnd
  · obtain ⟨rnd, rfl⟩ := hmd
    exact h.eq_of_stochastic (hrnd rnd rfl)
  · exact h.eq_of_deterministic (not_exists.mp hmd)

theorem roundShift_snd : (roundShift md neg p k).2 = decide (((roundShift md neg p k).1 : ℚ) ≠ p / 2 ^ k) := by
  have hpow : (2 : ℚ) ^ k ≠ 0 := by positivity
  have hmul : ∀ n : Nat, (n : ℚ) = p / 2 ^ k ↔ n * 2 ^ k = p := fun n => by
    rw [eq_div_iff hpow]
    norm_cast
  rw [Bool.eq_iff_iff, decide_eq_true_iff, ne_eq, hmul]
  by_cases hr : p % 2 ^ k = 0
  · simpa [roundShift_of_exact hr] using Nat.div_mul_cancel (Nat.dvd_of_mod_eq_zero hr)
  · rw [roundShift_of_inexact hr]
    simp only [true_iff]
    exact fun h => hr (h ▸ Nat.mul_mod_left ..)

theorem roundShift_bounds : p / 2 ^ k ≤ (roundShift md neg p k).1 ∧ (roundShift md neg p k).1 ≤ p / 2 ^ k + 1 := by
  by_cases hr : p % 2 ^ k = 0
  · simp [roundShift_of_exact hr]
  · simp [roundShift_of_inexact hr, Bool.toNat_le]

end
end Sys2Proof.Machine
end

section
/-! ## Rounding to a format and to an integer (R30 to R33, R47) -/
namespace Sys2Proof.Machine

/-- The significand that `roundFin` and `roundInt` compute, and whether it differs: the value over 2^u, rounded. -/
def Dy.roundAt (d : Dy) (md : RMode) (u : Int) : Nat × Bool :=
  roundShift md d.neg (d.m * 2 ^ (d.e - u).toNat) (u - d.e).toNat

theorem Dy.roundAt_eq_ite (d : Dy) (md : RMode) (u : Int) : d.roundAt md u =
    if u ≤ d.e then (d.m * 2 ^ (d.e - u).toNat, false) else roundShift md d.neg d.m (u - d.e).toNat := by
  unfold Dy.roundAt
  split
  next h => rw [Int.toNat_of_nonpos (sub_nonpos.mpr h)]; rfl
  next h => rw [Int.toNat_of_nonpos (sub_nonpos.mpr (not_le.mp h).le), pow_zero, mul_one]

theorem Dy.val_div_ulp (d : Dy) (u : Int) :
    d.val / 2 ^ u = signFactor d.neg * ((d.m * 2 ^ (d.e - u).toNat : Nat) / 2 ^ (u - d.e).toNat) := by
  have hpow : (2 : ℚ) ^ (d.e - u) = 2 ^ (d.e - u).toNat / 2 ^ (u - d.e).toNat := by
    rw [← zpow_natCast, ← zpow_natCast, ← zpow_sub₀ two_ne_zero]
    congr 1
    omega
  rw [Dy.val_eq, mul_div_assoc, mul_div_assoc, ← zpow_sub₀ two_ne_zero, hpow, Nat.cast_mul, Nat.cast_pow, Nat.cast_ofNat,
    mul_div_assoc]

theorem Dy.abs_val_div_ulp (d : Dy) (u : Int) :
    |d.val| / 2 ^ u = (d.m * 2 ^ (d.e - u).toNat : Nat) / 2 ^ (u - d.e).toNat := by
  rw [← abs_of_pos (show (0 : ℚ) < 2 ^ u by positivity), ← abs_div, Dy.val_div_ulp,
    abs_signFactor_mul _ (by positivity)]

section
variable {d : Dy} {md : RMode} {u : Int} {z : ℚ}

theorem RoundsTo.eq_roundAt (hrnd : ∀ rnd, md = .sr rnd → rnd < 65536) (h : RoundsTo md (2 ^ u) d.val z) :
    z = signFactor d.neg * ((d.roundAt md u).1 * 2 ^ u) := by
  have hu : (0 : ℚ) < 2 ^ u := by positivity
  have hz := h.div_ulp hu
  rw [Dy.val_div_ulp] at hz
  rw [← mul_assoc, ← div_eq_iff hu.ne', hz.eq_roundShift hrnd, Dy.roundAt]

theorem Dy.roundAt_snd (d : Dy) (md : RMode) (u : Int) :
    (d.roundAt md u).2 = decide (signFactor d.neg * ((d.roundAt md u).1 * 2 ^ u) ≠ d.val) := by
  have hu : (0 : ℚ) < 2 ^ u := by positivity
  rw [Dy.roundAt, roundShift_snd]
  congr 1
  rw [eq_iff_iff, not_iff_not, ← mul_assoc, ← eq_div_iff hu.ne', Dy.val_div_ulp, mul_right_inj' (signFactor_ne_zero _)]

theorem Dy.roundAt_le {t : Nat} (h : |d.val| < 2 ^ (u + t)) : (d.roundAt md u).1 ≤ 2 ^ t := by
  have hlt : (d.m * 2 ^ (d.e - u).toNat : Nat) / 2 ^ (u - d.e).toNat < 2 ^ t := by
    rw [Nat.div_lt_iff_lt_mul (by positivity), ← Nat.cast_lt (α := ℚ), Nat.cast_mul (2 ^ t), Nat.cast_pow, Nat.cast_pow,
      Nat.cast_ofNat, ← div_lt_iff₀ (by positivity), ← Dy.abs_val_div_ulp, div_lt_iff₀ (by positivity), ← zpow_natCast,
      ← zpow_add₀ two_ne_zero, add_comm]
    exact h
  exact roundShift_bounds.2.trans hlt

theorem Dy.le_roundAt {t : Nat} (h : 2 ^ (u + t) ≤ |d.val|) : 2 ^ t ≤ (d.roundAt md u).1 := by
  have hle : 2 ^ t ≤ (d.m * 2 ^ (d.e - u).toNat : Nat) / 2 ^ (u - d.e).toNat := by
    rw [Nat.le_div_iff_mul_le (by positivity), ← Nat.cast_le (α := ℚ), Nat.cast_mul (2 ^ t), Nat.cast_pow, Nat.cast_pow,
      Nat.cast_ofNat, ← le_div_iff₀ (by positivity), ← Dy.abs_val_div_ulp, le_div_iff₀ (by positivity), ← zpow_natCast,
      ← zpow_add₀ two_ne_zero, add_comm]
    exact h
  exact hle.trans roundShift_bounds.1

end

/-- The exponent of the ulp of a value that is not zero (R31). -/
def Dy.ulpExp (d : Dy) (f : Fmt) : Int := max (d.e + (Nat.log2 d.m : Int)) (1 - (f.bias : Int)) - f.fbits

/-- The result's encoding without its sign, as if the exponent field were unbounded. -/
def Dy.roundedMag (d : Dy) (f : Fmt) (md : RMode) : Nat :=
  (d.ulpExp f + f.fbits + f.bias - 1).toNat * 2 ^ f.fbits + (d.roundAt md (d.ulpExp f)).1

theorem roundFin_eq (f : Fmt) (md : RMode) (fo sat : Bool) {d : Dy} (hm : d.m ≠ 0) : roundFin f md fo sat d =
    (let sgn := if d.neg then 2 ^ (f.ebits + f.fbits) else 0
     let mag := d.roundedMag f md
     let inexact := (d.roundAt md (d.ulpExp f)).2
     if f.maxFinite < mag then overflowResult f md sat d.neg
     else if fo && decide (0 < mag) && decide (mag < 2 ^ f.fbits) then (sgn, ⟨true, true, false, false, false⟩)
     else (sgn + mag, ⟨inexact, inexact && decide (mag < 2 ^ f.fbits), false, false, false⟩)) := by
  simp only [roundFin, hm, if_false, Dy.roundedMag, Dy.roundAt_eq_ite, Dy.ulpExp]

theorem roundInt_eq (md : RMode) (d : Dy) :
    roundInt md d = (if d.neg then -((d.roundAt md 0).1 : Int) else (d.roundAt md 0).1, (d.roundAt md 0).2) := by
  simp only [roundInt, Dy.roundAt_eq_ite, sub_zero, zero_sub]

/-- The encoding that `roundFin` chooses stands for the multiple of the ulp that it chose. -/
theorem Dy.magValue_roundedMag (f : Fmt) (md : RMode) {d : Dy} (hm : d.m ≠ 0) :
    f.magValue (d.roundedMag f md) = (d.roundAt md (d.ulpExp f)).1 * 2 ^ d.ulpExp f := by
  have hlow := (Dy.pow_le_abs_val_iff hm _).mpr le_rfl
  have hhigh : |d.val| < 2 ^ (d.e + (Nat.log2 d.m : Int) + 1) := by
    rw [← not_le, Dy.pow_le_abs_val_iff hm]
    omega
  have hq : (d.roundAt md (d.ulpExp f)).1 ≤ 2 ^ (f.fbits + 1) := by
    refine Dy.roundAt_le (hhigh.trans_le (zpow_le_zpow_right₀ one_le_two ?_))
    simp only [Dy.ulpExp]
    omega
  have hE : (d.ulpExp f + f.fbits + f.bias - 1).toNat = 0 ∨ 2 ^ f.fbits ≤ (d.roundAt md (d.ulpExp f)).1 := by
    rcases le_or_gt (d.e + (Nat.log2 d.m : Int)) (1 - f.bias) with htop | htop
    · left
      simp only [Dy.ulpExp]
      omega
    · right
      refine Dy.le_roundAt (le_of_eq_of_le (congrArg _ ?_) hlow)
      simp only [Dy.ulpExp]
      omega
  rw [Dy.roundedMag, Fmt.magValue_of_significand hq hE]
  congr 2
  simp only [Dy.ulpExp]
  omega

end Sys2Proof.Machine
end

section
/-! ## Rounding to a format of R25 -/
namespace Sys2Proof.Machine

section
variable {f : Fmt} {md : RMode} {fo sat : Bool} {d : Dy} {top : Int} {z : ℚ}

/-- The encoding of a result beyond the largest finite value (R32). -/
theorem overflowResult_eq (hf : f ∈ Fmt.all) (md : RMode) (sat neg : Bool) :
    overflowResult f md sat neg =
      (let sgn := if neg then 2 ^ (f.width - 1) else 0
       let large := sgn + f.maxFinite
       let beyond := sgn + (if f.special = .ieee then (2 ^ f.ebits - 1) * 2 ^ f.fbits else 0x7F)
       (if sat = true ∨ f = e2m1 then large else match md with
        | .rtz => large
        | .rdn => if neg then beyond else large
        | .rup => if neg then large else beyond
        | _ => beyond, Flags.overflow)) := by
  simp only [Fmt.all, List.mem_cons, List.not_mem_nil, or_false] at hf
  have hspecial : f.special = .ieee ∧ f ≠ e2m1 ∨ f = e4m3 ∨ f = e2m1 := by
    rcases hf with rfl | rfl | rfl | rfl | rfl | rfl | rfl <;> decide
  rw [Fmt.width_sub_one]
  rcases hspecial with ⟨hieee, hne⟩ | rfl | rfl
  · cases sat
    · cases md <;> cases neg <;> simp [overflowResult, hieee, hne]
    · simp [overflowResult]
  · cases sat
    · cases md <;> cases neg <;> rfl
    · rfl
  · simp [overflowResult, e2m1]

/-- A rounded result's encoding, and what decides its flags, in terms of the number that the mode chooses. -/
theorem RoundsTo.eq_magValue (hrnd : ∀ rnd, md = .sr rnd → rnd < 65536) (hlow : 2 ^ top ≤ |d.val|)
    (hhigh : |d.val| < 2 ^ (top + 1)) (h : RoundsTo md (2 ^ (max top (1 - (f.bias : Int)) - f.fbits)) d.val z) :
    z = signFactor d.neg * f.magValue (d.roundedMag f md) ∧ (d.roundAt md (d.ulpExp f)).2 = decide (z ≠ d.val) := by
  have hz : z = signFactor d.neg * ((d.roundAt md (d.ulpExp f)).1 * 2 ^ d.ulpExp f) := by
    rw [← Dy.topExp_eq hlow hhigh] at h
    exact h.eq_roundAt hrnd
  exact ⟨by rw [Dy.magValue_roundedMag f md (Dy.m_ne_zero_of_pow_le hlow), hz], by rw [Dy.roundAt_snd, hz]⟩

/-- R30 to R33: the result of a rounding whose chosen multiple of the ulp is z. -/
theorem roundFin_of_roundsTo (hf : f ∈ Fmt.all) (hrnd : ∀ rnd, md = .sr rnd → rnd < 65536) (hlow : 2 ^ top ≤ |d.val|)
    (hhigh : |d.val| < 2 ^ (top + 1)) (h : RoundsTo md (2 ^ (max top (1 - (f.bias : Int)) - f.fbits)) d.val z) :
    let sgn := if d.neg then 2 ^ (f.width - 1) else 0
    let inexact := decide (z ≠ d.val)
    let small := decide (|z| < 2 ^ (1 - (f.bias : Int)))
    if f.value f.maxFinite < |z| then roundFin f md fo sat d = overflowResult f md sat d.neg
    else if fo = true ∧ z ≠ 0 ∧ small then roundFin f md fo sat d = (sgn, ⟨true, true, false, false, false⟩)
    else ∃ x, roundFin f md fo sat d = (x, ⟨inexact, inexact && small, false, false, false⟩) ∧ x < 2 ^ f.width ∧
      x % 2 ^ (f.width - 1) ≤ f.maxFinite ∧ f.value x = z ∧ (2 ^ (f.width - 1) ≤ x ↔ d.neg = true) := by
  obtain ⟨hz, hinexact⟩ := h.eq_magValue hrnd hlow hhigh
  set mag := d.roundedMag f md with hmag
  have habs : |z| = f.magValue mag := by rw [hz, abs_signFactor_mul _ (f.magValue_nonneg _)]
  have hlarge : f.value f.maxFinite < |z| ↔ f.maxFinite < mag := by
    rw [habs, Fmt.value_maxFinite hf, f.magValue_strictMono.lt_iff_lt]
  have hsmall : |z| < 2 ^ (1 - (f.bias : Int)) ↔ mag < 2 ^ f.fbits := by
    rw [habs, ← Fmt.magValue_smallestNormal, f.magValue_strictMono.lt_iff_lt]
  have hzero : z ≠ 0 ↔ 0 < mag := by rw [← abs_pos, habs, Fmt.magValue_pos_iff]
  have hfin := roundFin_eq f md fo sat (Dy.m_ne_zero_of_pow_le hlow)
  simp only [Fmt.width_sub_one, hlarge, hsmall, hzero, decide_eq_true_eq, ← hmag, hinexact] at hfin ⊢
  split
  next hover => rw [hfin, if_pos hover]
  next hover =>
    rw [if_neg hover] at hfin
    split
    next hflush => rw [hfin, if_pos (by simpa [and_assoc] using hflush)]
    next hflush =>
      have hbound : mag < 2 ^ (f.ebits + f.fbits) := (not_lt.mp hover).trans_lt (Fmt.maxFinite_lt hf)
      have hwidth : 2 ^ f.width = 2 ^ (f.ebits + f.fbits) + 2 ^ (f.ebits + f.fbits) := by
        rw [← mul_two, ← pow_succ, Fmt.width, Nat.add_assoc, Nat.add_comm]
      refine ⟨_, hfin.trans (if_neg (by simpa [and_assoc] using hflush)), ?_, ?_, ?_, ?_⟩
      · split <;> omega
      · cases d.neg <;> simpa [Nat.mod_eq_of_lt hbound] using hover
      · rw [Fmt.value_sign_add f d.neg hbound, hz]
      · cases d.neg
        · simpa using hbound
        · simp

theorem roundFin_zero (f : Fmt) (md : RMode) (fo sat n : Bool) (e : Int) :
    roundFin f md fo sat ⟨n, 0, e⟩ = (if n then 2 ^ (f.width - 1) else 0, Flags.none) := by
  rw [Fmt.width_sub_one]
  rfl

end
end Sys2Proof.Machine
end

section
/-! ## Rounding to an integer and quantising a block (R47, R48) -/
namespace Sys2Proof.Machine

section
variable {md : RMode} {d : Dy} {n : Int}

theorem roundInt_of_roundsTo (hrnd : ∀ rnd, md = .sr rnd → rnd < 65536) (h : RoundsTo md 1 d.val n) :
    roundInt md d = (n, decide ((n : ℚ) ≠ d.val)) := by
  have hn : (n : ℚ) = signFactor d.neg * ((d.roundAt md 0).1 * 2 ^ (0 : Int)) :=
    RoundsTo.eq_roundAt hrnd (by rwa [zpow_zero])
  rw [roundInt_eq, Dy.roundAt_snd, ← hn]
  rw [zpow_zero, mul_one, signFactor_mul_natCast] at hn
  rw [← Int.cast_injective hn]

theorem toInteger_of_roundsTo (g : NumFmt) (hrnd : ∀ rnd, md = .sr rnd → rnd < 65536) (h : RoundsTo md 1 d.val n) :
    toInteger g md (.fin d) =
      if n < g.range.1 then (wrapTo g.bits g.range.1, g.clampFlags)
      else if g.range.2 < n then (wrapTo g.bits g.range.2, g.clampFlags)
      else (wrapTo g.bits n, ⟨decide ((n : ℚ) ≠ d.val), false, false, false, false⟩) := by
  simp only [toInteger, roundInt_of_roundsTo hrnd h]

end

/-- The integer targets, the ranges they clamp to and the flags of a clamp (R47, R48). -/
def clampTable : List (NumFmt × Int × Int × Flags) :=
  [(NumFmt.int 32, -2 ^ 31, 2 ^ 31 - 1, (⟨true, false, false, false, true⟩ : Flags)),
   (.nat 32, 0, 2 ^ 32 - 1, ⟨true, false, false, false, true⟩),
   (.int 16, -2 ^ 15, 2 ^ 15 - 1, ⟨true, false, false, false, true⟩),
   (.int 8, -2 ^ 7, 2 ^ 7 - 1, ⟨true, false, false, false, true⟩), (.bi 2, -1, 1, Flags.overflow), (.bi 3, -3, 3, Flags.overflow),
   (.bi 4, -7, 7, Flags.overflow), (.bi 5, -15, 15, Flags.overflow), (.bi 6, -31, 31, Flags.overflow),
   (.bi 7, -63, 63, Flags.overflow), (.bi 8, -127, 127, Flags.overflow)]

theorem range_of_mem_clampTable : ∀ p ∈ clampTable, p.1.range = (p.2.1, p.2.2.1) ∧ p.1.clampFlags = p.2.2.2 := by
  decide

/-- The tags of the scaled formats with their element exponents (R48). -/
def emaxTable : List (BitVec 8 × Int) :=
  [((0x71 : BitVec 8), (2 : Int)), (0x51, 8), (0x61, 15), (0x91, 0), (0x83, 0), (0x85, 1), (0x87, 2), (0x89, 3), (0x8B, 4),
   (0x8D, 5), (0x8F, 6)]

theorem tagEmax_of_mem_emaxTable : ∀ p ∈ emaxTable, tagEmax p.1 = p.2 := by decide

theorem maxExp_cons (x : Int) (l : List Int) : maxExp (x :: l) = some (l.foldl max x) := by
  induction l generalizing x with
  | nil => rfl
  | cons y l ih => simpa only [maxExp, List.foldl_cons, max_comm y x] using ih (max x y)

theorem foldl_max_eq {l : List Int} {y t : Int} (hy : y ≤ t) (hle : ∀ x ∈ l, x ≤ t) (hmem : t = y ∨ t ∈ l) :
    l.foldl max y = t := by
  induction l generalizing y with
  | nil => simpa [eq_comm] using hmem
  | cons x l ih =>
    obtain ⟨hx, hl⟩ := List.forall_mem_cons.mp hle
    refine ih (max_le hy hx) hl ?_
    rw [List.mem_cons, ← or_assoc] at hmem
    exact hmem.imp_left fun h => by omega

theorem maxExp_eq_some {l : List Int} {t : Int} (hmem : t ∈ l) (hle : ∀ x ∈ l, x ≤ t) : maxExp l = some t := by
  cases l with
  | nil => exact absurd hmem List.not_mem_nil
  | cons x l =>
    obtain ⟨hx, hl⟩ := List.forall_mem_cons.mp hle
    rw [maxExp_cons, foldl_max_eq hx hl (List.mem_cons.mp hmem)]

section
variable {tag : BitVec 8} {xs : List Fp}

theorem Fp.log2?_eq_some_iff {x : Fp} {t : Int} :
    x.log2? = some t ↔ ∃ d, x = .fin d ∧ d.m ≠ 0 ∧ d.e + (Nat.log2 d.m : Int) = t := by
  cases x <;> simp [Fp.log2?]

/-- A block that holds a NaN, or an infinity that its elements cannot hold, has no scale (R48 steps 2, 3). -/
theorem chooseScale_eq_none (h : ∃ x ∈ xs, x.isNan = true ∨ x.isInf = true ∧ tag ≠ 0x61) : chooseScale tag xs = none := by
  refine if_pos ?_
  obtain ⟨x, hx, hnan | ⟨hinf, htag⟩⟩ := h
  · rw [Bool.or_eq_true]
    exact .inl (List.any_eq_true.mpr ⟨x, hx, hnan⟩)
  · rw [Bool.or_eq_true, Bool.and_eq_true, bne_iff_ne]
    exact .inr ⟨List.any_eq_true.mpr ⟨x, hx, hinf⟩, htag⟩

theorem chooseScale_of_clean (h : ∀ x ∈ xs, x.isNan = false ∧ (x.isInf = true → tag = 0x61)) :
    chooseScale tag xs = match maxExp (xs.filterMap Fp.log2?) with
      | none => some 0
      | some top => some (min (max (top - tagEmax tag) (-127)) 127 + 127).toNat := by
  have hnan : xs.any Fp.isNan = false := List.any_eq_false.mpr fun x hx => by simp [(h x hx).1]
  have hinf : (xs.any Fp.isInf && tag != 0x61) = false := by
    rw [Bool.and_eq_false_imp, List.any_eq_true]
    rintro ⟨x, hx, hxi⟩
    simpa using (h x hx).2 hxi
  rw [chooseScale, hnan, hinf]
  rfl

theorem chooseScale_of_zeros (h : ∀ x ∈ xs, x.isNan = false ∧ (x.isInf = true → tag = 0x61))
    (hz : ∀ d, .fin d ∈ xs → d.val = 0) : chooseScale tag xs = some 0 := by
  have hnil : xs.filterMap Fp.log2? = [] := by
    refine List.filterMap_eq_nil_iff.mpr fun x hx => Option.eq_none_iff_forall_ne_some.mpr fun t ht => ?_
    obtain ⟨d, rfl, hm, -⟩ := Fp.log2?_eq_some_iff.mp ht
    exact hm (Dy.val_eq_zero_iff.mp (hz d hx))
  rw [chooseScale_of_clean h, hnil]
  rfl

theorem chooseScale_of_top {top : Int} {d : Dy} (h : ∀ x ∈ xs, x.isNan = false ∧ (x.isInf = true → tag = 0x61))
    (hd : .fin d ∈ xs) (hlow : 2 ^ top ≤ |d.val|) (hall : ∀ y, .fin y ∈ xs → |y.val| < 2 ^ (top + 1)) :
    chooseScale tag xs = some (min (max (top - tagEmax tag) (-127)) 127 + 127).toNat := by
  have hmax : maxExp (xs.filterMap Fp.log2?) = some top := by
    refine maxExp_eq_some (List.mem_filterMap.mpr ⟨_, hd, Fp.log2?_eq_some_iff.mpr ⟨d, rfl, ?_, ?_⟩⟩) fun t ht => ?_
    · exact Dy.m_ne_zero_of_pow_le hlow
    · exact Dy.topExp_eq hlow (hall d hd)
    · obtain ⟨x, hx, hlog⟩ := List.mem_filterMap.mp ht
      obtain ⟨y, rfl, hm, rfl⟩ := Fp.log2?_eq_some_iff.mp hlog
      have hlt := hall y hx
      rw [← not_le, Dy.pow_le_abs_val_iff hm] at hlt
      omega
  rw [chooseScale_of_clean h, hmax]

end

theorem Dy.val_scale (d : Dy) (k : Int) : (d.scale k).val = d.val * 2 ^ k := by
  simp only [Dy.val_eq, Dy.scale, zpow_add₀ (two_ne_zero' ℚ), mul_assoc]

/-- An element is rounded after the division by its block's scale (R48 steps 6 to 8). -/
theorem quantElem_fin (tag : BitVec 8) (k : Nat) (md : RMode) (fo sat : Bool) (d : Dy) :
    quantElem tag k md fo sat (.fin d) = match tagNum tag with
      | .float f => roundFin f md fo true (d.scale (tagBias tag - k))
      | g => (wrapTo (tagCont tag) (signedOf g.bits (toInteger g md (.fin (d.scale (tagBias tag - k)))).1),
          (toInteger g md (.fin (d.scale (tagBias tag - k)))).2) := by
  unfold quantElem
  cases tagNum tag <;> rfl

/-- Settles O2: the encoding that `roundFin` chooses stands for the multiple of the ulp that `RoundsTo` allows, and numbers
compare as their encodings do. -/
theorem rounding : Obligations.Rounding := by
  refine ⟨?format, roundFin_zero, ?integer, ?block⟩
  case format =>
    intro f md fo sat d top z hf hrnd hlow hhigh h
    have hround := roundFin_of_roundsTo (fo := fo) (sat := sat) hf hrnd hlow hhigh h
    rw [overflowResult_eq hf] at hround
    exact hround
  case integer =>
    intro g md d n lo hi clamp hmem hrnd h
    obtain ⟨hrange, hclamp⟩ := range_of_mem_clampTable _ hmem
    have hlo : g.range.1 = lo := congrArg Prod.fst hrange
    have hhi : g.range.2 = hi := congrArg Prod.snd hrange
    obtain rfl : g.clampFlags = clamp := hclamp
    subst hlo hhi
    exact ⟨toInteger_of_roundsTo g hrnd h, fun _ => rfl, fun _ _ _ => rfl⟩
  case block =>
    intro tag emax hmem
    obtain rfl : tagEmax tag = emax := tagEmax_of_mem_emaxTable _ hmem
    refine ⟨fun _ _ => rfl, fun xs => ⟨chooseScale_eq_none, fun hclean => ⟨chooseScale_of_zeros hclean, fun top d =>
      chooseScale_of_top hclean⟩⟩, fun k md fo sat d _ => ?_⟩
    exact ⟨d.scale (tagBias tag - k), rfl, d.val_scale _, quantElem_fin tag k md fo sat d⟩

end Sys2Proof.Machine
end

/-! # The execution of the streams -/

section
/-! ## Power-on -/
namespace Sys2Proof.Machine

/-- Settles O50: the values that `State.reset` holds, and memories that are canonical with nothing in them. -/
theorem powerOnState : Obligations.PowerOnState := by
  unfold Obligations.PowerOnState
  refine ⟨rfl, rfl, rfl, rfl, rfl, ?time, rfl, rfl, rfl, rfl, rfl, rfl, rfl, rfl, fun _ => ⟨rfl, rfl⟩, ?island,
    fun _ => ⟨rfl, rfl, rfl⟩, ⟨?s, ?v, ?p, rfl, ?poison, rfl, rfl, rfl, rfl, rfl⟩, ⟨rfl, rfl, rfl, rfl, rfl⟩,
    ⟨rfl, rfl, rfl, rfl⟩, State.reset_memOk⟩
  case time => intro d; simp [State.reset]
  case island => intro i; simp [State.reset, Island.reset]
  case s => intro n; simp [Agent.getS, Agent.reset]
  case v => intro n; simp [Agent.getV, Agent.reset]
  case p => intro n hn; simp [Agent.getP, Agent.reset, hn]
  case poison => rintro (n | n | n | n) <;> simp [Agent.poisoned, Agent.reset]

end Sys2Proof.Machine
end

section
/-! ## Words that claim no bank -/
namespace Sys2Proof.Machine

variable {s u : State} {i : Instr}

/-- A word that names no bank and advances no generator has its effect on the state as it is. -/
theorem issueWord_unclaimed {f : State → State} (h : Runs i s) (hb : banksOf s.cur.w s.ag i false = []) (hm : rmOf i = none) :
    issueWord i s f = f s := by
  rw [issueWord_runs h (claimed_none hb), advanceGen_none hm]

theorem checkPoison_of_poisoned {r : RegName} {l : List RegName} {f : State → State} (h : s.ag.poisoned r = true) :
    s.checkPoison (r :: l) f = s.raise cPOISON (BitVec.ofNat 64 r.numByte) := by
  simp only [State.checkPoison, List.find?_cons_of_pos h, State.raiseNat]

theorem checkPoison_singleton {r : RegName} {f : State → State} (h : s.ag.poisoned r = false) : s.checkPoison [r] f = f s :=
  checkPoison_of_clean (by simpa using h)

theorem issued_eq_agentDid (h : u.ag = s.ag) : u.issued = agentDid u s.ag := by rw [← h]; rfl

/-- Settles O5: each of the five words ends in `State.issued`, on the state that its claims leave. -/
theorem wordsWithoutEffect : Obligations.WordsWithoutEffect := by
  intro s u
  refine ⟨fun h => ?snop, fun h => ?vnop, fun a h hp => ?chk, fun v h hc hp => ?vchk, fun h o hr hc hcls hx => ?hwait⟩
  case snop => rw [exec_snop, execSnop, issueWord_unclaimed h rfl rfl]; rfl
  case vnop => rw [exec_vnop, execVnop, issueWord_unclaimed h rfl rfl]; rfl
  case chk => rw [exec_chk, execChk, issueWord_unclaimed h rfl rfl, checkPoison_singleton hp]; rfl
  case vchk =>
    obtain ⟨hag, -, -⟩ := claimed_frame hc
    rw [← hag] at hp
    rw [exec_vchk, execVchk, issueWord_runs h hc, advanceGen_none rfl, checkPoison_singleton hp, issued_eq_agentDid hag]
  case hwait =>
    obtain ⟨hag, hblk, -⟩ := claimed_frame hc
    rw [← hag] at hcls
    rw [← hag, ← hblk] at hx
    rw [exec_hwait, execHwait, issueTile_runs hr hc, advanceGen_none rfl, withItem_present hcls hx, issued_eq_agentDid hag]

end Sys2Proof.Machine
end

section
/-! ## Scalar accesses at issue (R92, R97, R99) -/
namespace Sys2Proof.Machine

section
variable {s : State} {i : Instr} {a : SReg} {off : Imm 29} {use : Use} {kind : State → AccessKind} {reg : Option RegName}
  {spec : Bool}

/-- The effective address in terms of numbers: a short offset is signed, and the sum wraps. -/
theorem scalarEa_eq {ea : Word}
    (h : match off with
      | .short v => ea.toNat = ((s.sReg a).toNat + 2 ^ 64 + v.toInt).toNat % 2 ^ 64
      | .lit v => ea = s.sReg a + v) : scalarEa s a off = ea := by
  cases off with
  | lit v => exact h.symm
  | short v =>
    replace h : ea.toNat = ((s.sReg a).toNat + 2 ^ 64 + v.toInt).toNat % 2 ^ 64 := h
    have hsign : (v.signExtend 64).toInt = v.toInt := BitVec.toInt_signExtend_of_le (by decide)
    have hsum : (v.signExtend 64).toInt = (v.signExtend 64).toNat ∨
        (v.signExtend 64).toInt = (v.signExtend 64).toNat - (2 ^ 64 : Int) := by
      rw [BitVec.toInt_eq_toNat_cond]
      split
      · exact .inl rfl
      · exact .inr rfl
    have hlt := (v.signExtend 64).isLt
    apply BitVec.eq_of_toNat_eq
    show (s.sReg a + v.signExtend 64).toNat = ea.toNat
    rw [h, ← hsign, BitVec.toNat_add]
    obtain hx | hx := hsum <;> rw [hx] <;> omega

/-- An access whose address is translated joins those of the agent. -/
theorem startAccess_ok {va : Word} {k : AccessKind} {l : Loc} (h : translate s s.blk va use = .ok l) :
    startAccess s va use k reg spec = agentDid s { s.ag with
      pend := s.ag.pend ++ reg.toList
      accs := s.ag.accs ++ [⟨k, l.alignDown k.align⟩] } := by
  cases reg with
  | none => simp only [startAccess, h, Agent.mark, Option.toList_none, List.append_nil]; rfl
  | some r => simp only [startAccess, h]; rfl

theorem startAccess_fault {va : Word} {k : AccessKind} {c : BitVec 8} (h : translate s s.blk va use = .fault c) :
    startAccess s va use k reg spec = if spec then agentDid s (specResult (s.ag.mark reg) reg) else s.raise c va := by
  simp only [startAccess, h]
  rfl

section
variable (hr : Runs i s) (hb : banksOf s.cur.w s.ag i false = []) (hm : rmOf i = none)
include hr hb hm

theorem scalarAccess_poisoned (hp : s.ag.poisoned (.s a) = true) :
    scalarAccess i a off use kind reg spec s = s.raise cPOISON (BitVec.ofNat 64 a.val) := by
  rw [scalarAccess, issueWord_unclaimed hr hb hm, checkPoison_of_poisoned hp]
  rfl

theorem scalarAccess_clean (hp : s.ag.poisoned (.s a) = false) :
    scalarAccess i a off use kind reg spec s = startAccess s (scalarEa s a off) use (kind s) reg spec := by
  rw [scalarAccess, issueWord_unclaimed hr hb hm, checkPoison_singleton hp]

end

end

/-- Where an access traps, whatever it is; `h` says which access the word is. -/
theorem scalarAccess_traps {s : State} {i : Instr} {a d : SReg} {off : Imm 29} {use : Use} {kind : State → AccessKind}
    {reg : Option RegName} {spec : Bool} {ea : Word} {c : BitVec 8} (hr : Runs i s) (hb : banksOf s.cur.w s.ag i false = [])
    (hm : rmOf i = none) (hea : scalarEa s a off = ea) (h : exec i s = .next (scalarAccess i a off use kind reg spec s))
    (hspec : spec = true → reg = some (.s d)) (hi : i = .lds d a off ↔ spec = true) :
    (s.ag.poisoned (.s a) = true → exec i s = .next (s.raise cPOISON (BitVec.ofNat 64 a.val))) ∧
    (s.ag.poisoned (.s a) = false → translate s s.blk ea use = .fault c →
      exec i s = .next (if i = .lds d a off then agentDid s { s.ag with
          pend := s.ag.pend ++ [.s d]
          ready := s.ag.ready ++ [⟨.s d, 0, BitVec.allOnes 64, true⟩] }
        else s.raise c ea)) := by
  refine ⟨fun hp => by rw [h, scalarAccess_poisoned hr hb hm hp], fun hp ht => ?_⟩
  rw [h, scalarAccess_clean hr hb hm hp, hea, startAccess_fault ht]
  cases spec with
  | false => rw [if_neg (by simp), if_neg (by simp [hi])]
  | true => rw [if_pos rfl, if_pos (hi.mpr rfl), hspec rfl]; rfl

end Sys2Proof.Machine
end

section
/-! ## Granules and lanes -/
namespace Sys2Proof.Machine

/-- The lanes that a mask names, from lane i on, are those of a range. -/
theorem Store.lanesPoison_eq_any (m : Store) (a mask : Nat) : ∀ n i : Nat,
    m.lanesPoison a mask n i = (List.range n).any fun j => mask.testBit (i + j) && m.granule (a / 4 + (i + j))
  | 0, _ => rfl
  | n + 1, i => by
    simp only [Store.lanesPoison, m.lanesPoison_eq_any a mask n (i + 1), List.range_succ_eq_map, List.any_cons, List.any_map,
      Nat.add_zero, Function.comp_def, Nat.succ_eq_add_one, Nat.add_assoc, Nat.add_comm 1]

theorem Store.anyPoison_eq_any (m : Store) : ∀ n g : Nat, m.anyPoison g n = (List.range n).any fun j => m.granule (g + j)
  | 0, _ => rfl
  | n + 1, g => by
    simp only [Store.anyPoison, m.anyPoison_eq_any n (g + 1), List.range_succ_eq_map, List.any_cons, List.any_map,
      Nat.add_zero, Function.comp_def, Nat.succ_eq_add_one, Nat.add_assoc, Nat.add_comm 1]

/-- A mask of k ones names the first k of 64 lanes. -/
theorem any_lanes_of_ones {k : Nat} (hk : k ≤ 64) (f : Nat → Bool) :
    ((List.range 64).any fun j => (2 ^ k - 1).testBit j && f j) = (List.range k).any f := by
  rw [Bool.eq_iff_iff]
  simp only [List.any_eq_true, List.mem_range, Nat.testBit_two_pow_sub_one, Bool.and_eq_true, decide_eq_true_eq]
  constructor
  · rintro ⟨j, -, hj, hf⟩
    exact ⟨j, hj, hf⟩
  · rintro ⟨j, hj, hf⟩
    exact ⟨j, by omega, hj, hf⟩

/-- The poison of k granules, read by lanes or with the bytes. -/
theorem lanesPoisonLoc_ones (s : State) (l : Loc) {k : Nat} (hk : k ≤ 64) :
    lanesPoisonLoc s l (2 ^ k - 1) = (readLoc s l (4 * k)).2 := by
  have hlen : (4 * k + 3) / 4 = k := by omega
  cases l <;> simp only [lanesPoisonLoc, readLoc, Store.lanesPoison_eq_any, Store.anyPoison_eq_any, Nat.zero_add, hlen,
    any_lanes_of_ones hk]

end Sys2Proof.Machine
end

section
/-! ## The moves of an agent (R90, R176) -/
namespace Sys2Proof.Machine
variable {s u : State} {b w : Nat}

theorem withAgent_running {B : Block} {f : State → State} (h : getKey s.blocks b = some B) (hB : B.status ≠ .failed) :
    withAgent s b w f = leave (f (enter s b w)) := by
  simp only [withAgent, h, if_neg hB]

theorem withAgent_failed {B : Block} {f : State → State} (h : getKey s.blocks b = some B) (hB : B.status = .failed) :
    withAgent s b w f = s := by
  simp only [withAgent, h, if_pos hB]

/-- An event that is an operation on an agent is a move of it. -/
theorem moves_of_withAgent {e : Instr} {f : State → State} {P : State → State → Prop}
    (he : exec e s = .next (withAgent s b w f)) (h : P (enter s b w) (f (enter s b w))) : Moves e s b w P := by
  intro B hB
  refine ⟨fun hs => ⟨_, ?_, h⟩, fun hs => ?_⟩
  · rw [he, withAgent_running hB hs]
  · rw [he, withAgent_failed hB hs]

theorem withRoute_local {part pa : Nat} {f : State → State} (h : remotePkg pa = none) : withRoute s part pa f = f s := by
  simp only [withRoute, h]

/-- Only a place of another package needs a route. -/
theorem withLocRoute_local {l : Loc} {f : State → State} (h : ∀ pa, l = .phys pa → remotePkg pa = none) :
    withLocRoute s l f = f s := by
  cases l with
  | phys pa => exact withRoute_local (h pa rfl)
  | _ => rfl

/-- A home that drops the leases on changed lines changes the cores alone. -/
theorem State.settle_frame (c : Nat) : s.settle c = { s with cores := (s.settle c).cores } := by
  simp only [State.settle]
  split <;> rfl

@[simp] theorem State.settle_ag (c : Nat) : (s.settle c).ag = s.ag := by rw [State.settle_frame]
@[simp] theorem State.settle_blk (c : Nat) : (s.settle c).blk = s.blk := by rw [State.settle_frame]
@[simp] theorem State.settle_cur (c : Nat) : (s.settle c).cur = s.cur := by rw [State.settle_frame]
@[simp] theorem State.settle_mem (c : Nat) : (s.settle c).mem = s.mem := by rw [State.settle_frame]

/-- The access with which PERFORM deals: the oldest one, but the image of a generation that is still being produced. -/
theorem exec_perform_cons {x : Access} {r : List Access} {B : Block} (hB : getKey s.blocks b = some B)
    (hs : B.status ≠ .failed) (hx : (enter s b w).ag.accs = x :: r) (hk : ∀ n g, x.kind ≠ .rowsLate n g)
    (hl : ∀ pa, x.loc = .phys pa → remotePkg pa = none) :
    exec (.perform b w) s = .next (leave (performAccess ((enter s b w).setAg { (enter s b w).ag with accs := r }) x)) := by
  rw [exec_perform, execPerform, withAgent_running hB hs, hx]
  obtain ⟨k, l⟩ := x
  cases k with
  | rowsLate n g => exact absurd rfl (hk n g)
  | _ => simp only [withLocRoute_local hl]

theorem performAccess_load_phys {d : SReg} {pa : Nat} :
    performAccess u ⟨.load d, .phys pa⟩ = ((u.settle u.blk.core).snoop pa 8).answer (.s d)
      (BitVec.ofNat 2048 (u.mem.readLE pa 8)) (BitVec.allOnes 64) (u.mem.granule (pa / 4) || u.mem.granule (pa / 4 + 1)) := by
  have hpoison : lanesPoisonLoc u (.phys pa) 3 = (u.mem.granule (pa / 4) || u.mem.granule (pa / 4 + 1)) := by
    refine (lanesPoisonLoc_ones u (.phys pa) (k := 2) (by decide)).trans ?_
    show (u.mem.granule (pa / 4) || (u.mem.granule (pa / 4 + 1) || false)) = _
    rw [Bool.or_false]
  rw [← hpoison]
  rfl

end Sys2Proof.Machine
end

section
namespace Sys2Proof.Machine

/-- Settles O6: every scalar access is `scalarAccess` of its own kind, and a load of device memory reads at the home. -/
theorem scalarAccesses : Obligations.ScalarAccesses := by
  refine ⟨?issues, ?traps, ?performs⟩
  case issues =>
    intro s d a b off ea l hea hp
    have hea := scalarEa_eq hea
    refine ⟨?_, ?_, ?_, ?_, ?_, ?_, ?_, ?_, ?_, ?_, ?_⟩ <;> intro hr ht <;> rw [← hea] at ht
    all_goals
      refine congrArg Host.Outcome.next ?_
      exact (scalarAccess_clean hr rfl rfl hp).trans (startAccess_ok ht)
  case traps =>
    intro s d a b off ea c i use hea hmem hr
    have hea := scalarEa_eq hea
    simp only [List.mem_cons, Prod.mk.injEq, List.not_mem_nil, or_false] at hmem
    obtain ⟨rfl, rfl⟩ | ⟨rfl, rfl⟩ | ⟨rfl, rfl⟩ | ⟨rfl, rfl⟩ | ⟨rfl, rfl⟩ | ⟨rfl, rfl⟩ | ⟨rfl, rfl⟩ | ⟨rfl, rfl⟩ | ⟨rfl, rfl⟩ |
      ⟨rfl, rfl⟩ | ⟨rfl, rfl⟩ := hmem
    all_goals exact scalarAccess_traps hr rfl rfl hea rfl (by simp) (by simp)
  case performs =>
    intro s b w pa B d r hB hs u hx hpa
    refine ⟨_, exec_perform_cons hB hs hx (by simp) (by rintro q ⟨⟩; exact hpa), ?_⟩
    rw [performAccess_load_phys]
    exact ⟨by simp [State.answer, State.snoop, u], by simp [State.answer, State.snoop, u], by simp [State.answer, State.snoop, u],
      by simp [State.answer, State.snoop, u]⟩

end Sys2Proof.Machine
end

section
/-! ## SID of an agent number that no stream has (R72) -/
namespace Sys2Proof.Machine

/-- The machine at power-on, with an agent in focus whose number is neither a stream's nor the MP's. -/
def strayAgent : State := { State.reset with cur := { State.reset.cur with w := 8 } }

theorem strayAgent_runs : Runs (.mfc 1 0) strayAgent := by
  refine ⟨?_, ?_, ?_, ?_, ?_, ?_, ?_, ?_, ?_⟩ <;> decide

/-- Refutes O29: the statement bounds the core in SID's clause and not the agent, and a state's agent is any number. With agent 8
in focus on core 0, a number that no stream and no MP has, MFC reads SID as 8, whose bits 11:2 are 2 and not the core. -/
theorem not_controlRegisterReads : ¬ Obligations.ControlRegisterReads := by
  intro h
  obtain ⟨x, hres, -, -, -, -, hsid, -⟩ := h strayAgent 1 0
  obtain ⟨t, ht, hw⟩ := hres strayAgent_runs
  rw [exec_mfc, execMfc, issueWord_unclaimed strayAgent_runs rfl rfl] at ht
  obtain rfl := Host.Outcome.next.inj ht
  have hval : x.setWidth 2048 = (RegName.s 1).shown ((8 : Word).setWidth 2048) :=
    hw.value.symm.trans (wrote_result1 strayAgent (.s 1) ((8 : Word).setWidth 2048) false Flags.none).value
  have hx : x = 8 := by
    rw [RegName.shown_s] at hval
    have h64 := congrArg (BitVec.setWidth 64) hval
    rwa [BitVec.setWidth_setWidth_of_le _ (by decide), BitVec.setWidth_setWidth_of_le _ (by decide), BitVec.setWidth_eq,
      BitVec.setWidth_eq] at h64
  obtain ⟨hcore, -⟩ := hsid rfl (by decide)
  subst hx
  exact absurd hcore (by decide)

end Sys2Proof.Machine
end

section
/-! ## MTC (R71, R73, R84, R112) -/
namespace Sys2Proof.Machine
variable {s : State} {a : SReg}

theorem toNat_testBit_extractLsb' {w : Nat} (x : BitVec w) {lo n i : Nat} (h : i < n) :
    (x.extractLsb' lo n).toNat.testBit i = x.getLsbD (lo + i) := by
  rw [BitVec.testBit_toNat, BitVec.getLsbD_extractLsb', decide_eq_true h, Bool.true_and]

/-- FCTL as MTC leaves it: a flag stands where it stood and the value has its bit. -/
theorem Ctl.setFctl_eq (c : Ctl) (x : Word) : c.setFctl x = { c with
    flags := ⟨c.flags.nx && x.getLsbD 12, c.flags.uf && x.getLsbD 11, c.flags.of && x.getLsbD 10, c.flags.dz && x.getLsbD 9,
      c.flags.nv && x.getLsbD 8⟩
    rm := if x.extractLsb' 0 3 = 7 then 0 else x.extractLsb' 0 3 } := by
  simp only [Ctl.setFctl, Flags.ofNat, toNat_testBit_extractLsb' x (show 4 < 5 by decide),
    toNat_testBit_extractLsb' x (show 3 < 5 by decide), toNat_testBit_extractLsb' x (show 2 < 5 by decide),
    toNat_testBit_extractLsb' x (show 1 < 5 by decide), toNat_testBit_extractLsb' x (show 0 < 5 by decide)]

/-- MTC of a clean scalar: a shared register, the MP's own, a privileged one, or another of the stream. -/
theorem exec_mtc_clean {n : Nat} (hr : Runs (.mtc a (BitVec.ofNat 12 n)) s) (ha : s.ag.poisoned (.s a) = false) (hn : n < 0x1000) :
    exec (.mtc a (BitVec.ofNat 12 n)) s = .next (
      if 0x100 ≤ n then
        if !s.isMP && s.ag.ctl.pm then (writeShared s n (s.sReg a)).issued else s.raiseNat cPRIV n
      else if s.isMP then s.issued
      else if privilegedCr n && !(!s.isMP && s.ag.ctl.pm) then s.raiseNat cPRIV n
      else (s.setCtl (s.ag.ctl.writeCr n (s.sReg a))).issued) := by
  have hmod : n % 2 ^ 12 = n := Nat.mod_eq_of_lt hn
  rw [exec_mtc, execMtc, issueWord_unclaimed hr rfl rfl, checkPoison_singleton ha]
  simp only [BitVec.toNat_ofNat, hmod]

section
variable {n : Nat} (hr : Runs (.mtc a (BitVec.ofNat 12 n)) s) (ha : s.ag.poisoned (.s a) = false)
include hr ha

theorem exec_mtc_own (hmp : s.isMP = false) (hn : n < 0x100) (hp : privilegedCr n = false ∨ s.ag.ctl.pm = true) :
    exec (.mtc a (BitVec.ofNat 12 n)) s = .next (agentDid s { s.ag with ctl := s.ag.ctl.writeCr n (s.sReg a) }) := by
  have hpriv : (privilegedCr n && !s.ag.ctl.pm) = false := by obtain h | h := hp <;> simp [h]
  simp only [exec_mtc_clean hr ha (by omega), if_neg (Nat.not_le.mpr hn), hmp, Bool.not_false, Bool.true_and, hpriv,
    Bool.false_eq_true, if_false]
  rfl

theorem exec_mtc_own_priv (hmp : s.isMP = false) (hn : n < 0x100) (hp : privilegedCr n = true) (hpm : s.ag.ctl.pm = false) :
    exec (.mtc a (BitVec.ofNat 12 n)) s = .next (s.raise cPRIV (BitVec.ofNat 64 n)) := by
  simp only [exec_mtc_clean hr ha (by omega), if_neg (Nat.not_le.mpr hn), hmp, hp, hpm, Bool.and_false, Bool.not_false,
    Bool.and_true, Bool.false_eq_true, if_false, if_true]
  rfl

theorem exec_mtc_shared_priv (h : s.isMP = true ∨ s.ag.ctl.pm = false) (hlo : 0x100 ≤ n) (hn : n < 0x1000) :
    exec (.mtc a (BitVec.ofNat 12 n)) s = .next (s.raise cPRIV (BitVec.ofNat 64 n)) := by
  have hpriv : (!s.isMP && s.ag.ctl.pm) = false := by obtain h | h := h <;> simp [h]
  simp only [exec_mtc_clean hr ha hn, if_pos hlo, hpriv, Bool.false_eq_true, if_false]
  rfl

theorem exec_mtc_shared (hmp : s.isMP = false) (hpm : s.ag.ctl.pm = true) (hlo : 0x100 ≤ n) (hn : n < 0x1000) :
    exec (.mtc a (BitVec.ofNat 12 n)) s = .next (writeShared s n (s.sReg a)).issued := by
  simp only [exec_mtc_clean hr ha hn, if_pos hlo, hmp, hpm, Bool.not_false, Bool.and_true, if_true]

end

/-- MTC of a clean scalar to SSTAT. -/
theorem exec_mtcSstat_clean (hr : Runs (.mtcSstat a) s) (ha : s.ag.poisoned (.s a) = false) :
    exec (.mtcSstat a) s = .next (
      if s.isMP then (s.setCtl { s.ag.ctl with imask := ((s.sReg a).extractLsb' 16 1).setWidth 8 }).issued
      else if !s.ag.ctl.pm && (s.sReg a).getLsbD 1 != s.ag.ctl.ie then s.raiseNat cPRIV 1
      else (s.setCtl { s.ag.ctl with
        imask := (s.sReg a).extractLsb' 16 8
        vs := s.ag.ctl.vs && (s.sReg a).getLsbD 3
        ie := (s.sReg a).getLsbD 1 }).issued) := by
  rw [exec_mtcSstat, execMtcSstat, issueWord_unclaimed hr rfl rfl, checkPoison_singleton ha]

/-- Settles O30: every MTC is one of five cases, and `writeCr` and `writeShared` say what the registers take. -/
theorem controlRegisterWrites : Obligations.ControlRegisterWrites := by
  intro s a ha c x bit mp b Sets To Priv
  refine ⟨fun hmp => ?stream, fun hmp hr => ?mpSstat, fun hr => ?tcmp,
    fun n hlo hn hr => ⟨fun h => ?sharedPriv, fun hmp hpm => ?shared⟩⟩
  case stream =>
    have hmp : s.isMP = false := by simpa [State.isMP] using hmp
    have own {n : Nat} {c' : Ctl} (hn : n < 0x100) (hp : privilegedCr n = false ∨ c.pm = true)
        (hc : c.writeCr n x = c') : To n c' := fun hr => hc ▸ exec_mtc_own hr ha hmp hn hp
    refine ⟨own (by decide) (.inl rfl) (c.setFctl_eq x), own (by decide) (.inl rfl) rfl, own (by decide) (.inl rfl) rfl,
      own (by decide) (.inl rfl) rfl, own (by decide) (.inl rfl) rfl, own (by decide) (.inl rfl) rfl, own (by decide) (.inl rfl) rfl,
      own (by decide) (.inl rfl) rfl, ?readOnly, fun hpm => ?privileged, fun hpm => ?priv, fun hr => ?sstat⟩
    case readOnly =>
      simp only [List.forall_mem_cons, List.not_mem_nil, false_imp_iff, implies_true, and_true]
      exact ⟨own (by decide) (.inl rfl) rfl, own (by decide) (.inl rfl) rfl, own (by decide) (.inl rfl) rfl,
        own (by decide) (.inl rfl) rfl, own (by decide) (.inl rfl) rfl⟩
    case privileged =>
      exact ⟨own (by decide) (.inr hpm) rfl, own (by decide) (.inr hpm) rfl, own (by decide) (.inr hpm) rfl,
        own (by decide) (.inr hpm) rfl, own (by decide) (.inr hpm) rfl⟩
    case priv =>
      intro n hn hr
      have hrange : ∀ n ∈ [0x010, 0x011, 0x012, 0x013, 0x014], n < 0x100 ∧ privilegedCr n = true := by decide
      obtain ⟨hlt, hpriv⟩ := hrange n hn
      exact exec_mtc_own_priv hr ha hmp hlt hpriv hpm
    case sstat =>
      refine ⟨fun h => ?_, fun hpm hie => ?_⟩
      · have hok : (!s.ag.ctl.pm && (s.sReg a).getLsbD 1 != s.ag.ctl.ie) = false := by
          obtain h | h := h
          · rw [show s.ag.ctl.pm = true from h, Bool.not_true, Bool.false_and]
          · rw [show (s.sReg a).getLsbD 1 = s.ag.ctl.ie from h, bne_self_eq_false, Bool.and_false]
        show exec _ s = _
        simp only [exec_mtcSstat_clean hr ha, hmp, hok, Bool.false_eq_true, if_false]
        rfl
      · have hbad : (!s.ag.ctl.pm && (s.sReg a).getLsbD 1 != s.ag.ctl.ie) = true := by
          rw [show s.ag.ctl.pm = false from hpm, Bool.not_false, Bool.true_and]
          exact bne_iff_ne.mpr hie
        show exec _ s = _
        simp only [exec_mtcSstat_clean hr ha, hmp, hbad, Bool.false_eq_true, if_false, if_true]
        rfl
  case mpSstat =>
    have hmp : s.isMP = true := by simpa [State.isMP] using hmp
    show exec _ s = _
    simp only [exec_mtcSstat_clean hr ha, hmp, if_true]
    rfl
  case tcmp =>
    show exec _ s = _
    rw [exec_mtcTcmp, execMtcTcmp, issueWord_unclaimed hr rfl rfl, checkPoison_singleton ha]
    simp only [timerDue, Bool.true_and]
    rfl
  case sharedPriv => exact exec_mtc_shared_priv hr ha (h.imp_left fun h => by simpa [State.isMP] using h) hlo hn
  case shared =>
    have hmp : s.isMP = false := by simpa [State.isMP] using hmp
    rw [exec_mtc_shared hr ha hmp hpm hlo hn]
    refine congrArg Host.Outcome.next ?_
    unfold writeShared
    split
    · rfl
    split
    · rfl
    split <;> rfl

end Sys2Proof.Machine
end

section
/-! ## Trap entry with more latches than the frame has rows (R86, R87) -/
namespace Sys2Proof.Machine

/-- The row of the last latch is the last that is written. -/
theorem frameRows_concat (base : Nat) (l : Latch) : ∀ (ls : List Latch) (i : Nat) (m : Store),
    frameRows base (ls ++ [l]) i m = match l.reg with
      | .v _ => (frameRows base ls i m).writeWords (base + 256 * (2 + (i + ls.length))) 64 l.val.toNat false
      | _ => frameRows base ls i m
  | [], _, _ => by cases h : l.reg <;> simp [frameRows, h]
  | x :: r, i, m => by
    simp only [List.cons_append, frameRows, frameRows_concat base l r (i + 1), List.length_cons]
    rw [show i + 1 + r.length = i + (r.length + 1) by omega]

/-- A vector latch that waits for cycle 100. -/
def lateLatch : Latch := ⟨.v 0, 1, 100, Flags.none, false⟩

/-- An agent with a handler and a thirteenth latch, which no stream comes to have (R78). -/
def crowdedAgent : Agent := { Agent.reset with
  latches := List.replicate 13 lateLatch
  ctl := { Ctl.reset with tvec := 8 } }

/-- The thirteenth latch has its row where the frame of 14 rows has ended. -/
theorem enterTrap_spills {s : State} {x : TrapRec} (hl : s.ag.latches = List.replicate 13 lateLatch) (hf : s.ag.ctl.tframe = 0)
    (hrows : 14 ≤ s.blk.sprows) (hpad : s.blk.pad.wf = true) :
    (enterTrap s x false).blk.pad.byte (14 * 256) = 1 := by
  have hroom : ¬ s.blk.sprows < s.ag.ctl.tframe.toNat * 16 + 14 := by rw [hf]; simpa using hrows
  have hsort : sortLatches s.ag.latches = List.replicate 12 lateLatch ++ [lateLatch] := by rw [hl]; rfl
  have hbase : frameBase s.ag.ctl = 0 := by rw [frameBase, hf]; rfl
  simp only [enterTrap, if_neg hroom, hsort, hbase, frameRows_concat]
  refine (Store.byte_writeWords _ _ _ _ _ _ ?_).trans ?_
  · exact frameRows_wf _ _ _ _ (Store.writeWords_wf _ _ _ _ _ (Store.writeWords_wf _ _ _ _ _ hpad))
  · rw [if_pos (by simp), show lateLatch.val.toNat = 1 from BitVec.toNat_one (by decide)]
    rfl

/-- So that entry is not what `Entered` says: a byte beyond the frame has changed. -/
theorem not_entered_of_crowded {s u : State} {x : TrapRec} {cause : BitVec 10} {epc tval : Word} {rep : Nat}
    (hl : u.ag.latches = List.replicate 13 lateLatch) (hf : u.ag.ctl.tframe = 0) (hrows : 14 ≤ u.blk.sprows)
    (hpad : u.blk.pad = Store.empty) (hs : s.ag.ctl.tframe = 0) (hsp : s.blk.pad = Store.empty) :
    ¬ Entered s (enterTrap u x false) cause epc tval rep := by
  intro h
  obtain ⟨hbyte, -⟩ := h.outside (14 * 256) (.inr (by rw [hs]; decide))
  rw [enterTrap_spills hl hf hrows (by rw [hpad]; rfl), hsp] at hbyte
  exact absurd hbyte (by decide)

/-- The machine at power-on with that agent in focus. -/
def crowdedState : State := { State.reset with ag := crowdedAgent }

theorem crowdedState_canEnter : CanEnter crowdedState := ⟨by decide, rfl, by decide, by decide, rfl⟩

/-- Refutes O31: `CanEnter` bounds the rows of the frame but not the latches, which twelve rows hold. A thirteenth vector latch
is written to the row after the frame, which `Entered` says is as it was. -/
theorem not_traps : ¬ Obligations.Traps := by
  intro h
  obtain ⟨-, henter, -⟩ := h crowdedState 0 false 0 0 0 0
  have hraise : raiseAt crowdedState 0 false 0 0 0 = enterTrap (crowdedState.setDisp .stopped) ⟨0, false, 0, 0, 0⟩ false := rfl
  exact not_entered_of_crowded rfl rfl (show 14 ≤ 8192 by decide) rfl rfl rfl (hraise ▸ henter crowdedState_canEnter rfl rfl)

end Sys2Proof.Machine
end

section
/-! ## A trap that waits, of an agent with more latches than the frame has rows (R86, R89) -/
namespace Sys2Proof.Machine

/-- A block whose stream 0 has the thirteen latches, and a trap that waits behind a shadow fault. -/
def crowdedBlock : Block := { Block.reset with
  agents := Block.reset.agents.set 0 { crowdedAgent with
    trap := some ⟨0, false, 0, 0, 0⟩
    shadow := some ⟨0, 0, 0, 0, 0⟩ } }

/-- The machine at power-on with that block. -/
def crowdedMachine : State := { State.reset with blocks := [(0, crowdedBlock)] }

theorem block_leave (t : State) (n : Nat) : (leave t).block n =
    if n = t.cur.b then { t.blk with agents := t.blk.agents.set (t.cur.w % 5) t.ag (Nat.mod_lt _ (by decide)) } else t.block n :=
  State.block_setBlock t t.cur.b n _

theorem Entered.blocks_eq {s t : State} {cause : BitVec 10} {epc tval : Word} {rep : Nat} (h : Entered s t cause epc tval rep) :
    t.blocks = s.blocks := (congrArg State.blocks h.frame :)

/-- Refutes O41: the clause of TRAP_ENTRY bounds the rows of the frame and not the latches. Of the thirteen vector latches the
last is written to the row after the frame, as in the refutation of O31. -/
theorem not_agentMoves : ¬ Obligations.AgentMoves := by
  intro h
  obtain ⟨-, -, -, -, -, -, -, htrap, -⟩ := h crowdedMachine 0 0 0 0 0 false 0
  obtain ⟨t, ht, henter⟩ := (htrap crowdedBlock rfl).1 (by decide)
  obtain ⟨n, -, hn, hent⟩ := henter _ rfl rfl rfl rfl (by decide) rfl (by decide)
  obtain rfl : n = 0 := hn (Option.some_ne_none (⟨0, 0, 0, 0, 0⟩ : Shadow))
  have hexec : exec (.trapEntry 0 0) crowdedMachine =
      .next (leave (enterTrap (enter crowdedMachine 0 0) ⟨0, false, 0, 0, 0⟩ false)) := rfl
  have hleave := Host.Outcome.next.inj (hexec.symm.trans ht)
  have hspill : ((leave t).block 0).pad.byte (14 * 256) = 1 := by
    rw [← hleave]
    exact enterTrap_spills rfl rfl (show 14 ≤ 8192 by decide) rfl
  obtain ⟨hbyte, -⟩ := hent.outside (14 * 256) (.inr (by decide))
  have hblocks : t.blocks = crowdedMachine.blocks := hent.blocks_eq
  rw [block_leave] at hspill
  split at hspill
  · exact absurd (hbyte.symm.trans hspill) (by decide)
  · rw [State.block, hblocks] at hspill
    exact absurd hspill (by decide)

end Sys2Proof.Machine
end

section
/-! ## Interlock cycles and word boundaries (R147, R289) -/
namespace Sys2Proof.Machine
variable {u : State} {x : Agent}

theorem Agent.setReg_rep (a : Agent) (r : RegName) (v : VWord) (p : Bool) : (a.setReg r v p).rep = a.rep := by
  cases r with
  | v n => rfl
  | _ n => simp only [Agent.setReg]; split <;> rfl

theorem Agent.landOne_rep (a : Agent) (l : Latch) : (a.landOne l).rep = a.rep := a.setReg_rep l.reg l.val l.poison

theorem Agent.foldl_landOne_rep : ∀ (ls : List Latch) (a : Agent), (ls.foldl Agent.landOne a).rep = a.rep
  | [], _ => rfl
  | l :: r, a => (Agent.foldl_landOne_rep r (a.landOne l)).trans (a.landOne_rep l)

/-- No result that lands changes the repetitions. -/
theorem Agent.ticks_rep : ∀ (n : Nat) (x : Agent), (x.ticks n).rep = x.rep
  | 0, _ => rfl
  | n + 1, x => (Agent.ticks_rep n x.tick).trans (Agent.foldl_landOne_rep _ _)

/-- What `passInterlocks` passes: cycles as long as the next word is interlocked. -/
theorem passInterlocks_eq (u : State) : ∀ (m : Nat) (x : Agent), ∃ n, passInterlocks m (u.setAg x) = { u with ag := x.ticks n } ∧
    n ≤ m ∧ (∀ j < n, nextInterlocked { u with ag := x.ticks j } = true) ∧
    (n < m → nextInterlocked { u with ag := x.ticks n } = false)
  | 0, x => ⟨0, rfl, le_rfl, by simp, by simp⟩
  | m + 1, x => by
    by_cases h : nextInterlocked (u.setAg x) = true
    · obtain ⟨n, hpass, hle, hlt, hend⟩ := passInterlocks_eq u m x.tick
      refine ⟨n + 1, ?_, by omega, fun j hj => ?_, fun hn => hend (by omega)⟩
      · rw [passInterlocks, if_pos h]
        exact hpass
      · cases j with
        | zero => exact h
        | succ j => exact hlt j (by omega)
    · refine ⟨0, ?_, by omega, by simp, fun _ => Bool.eq_false_of_not_eq_true h⟩
      rw [passInterlocks, if_neg h]
      rfl

/-- A trap of the next word comes after its interlock cycles. -/
theorem raiseNext_passes (u : State) (x : Agent) (code : BitVec 8) (late : Bool) (epc tval : Word) : ∃ n, PassesInterlocks u x n ∧
    raiseNext (u.setAg x) code late epc tval = raiseAt { u with ag := x.ticks n } code late epc tval (x.rep.getD 0) := by
  by_cases h : x.pend = [] ∧ x.walk = none ∧ u.cur.w ≠ 4
  · obtain ⟨n, hpass, hn⟩ := passInterlocks_eq u 12 x
    obtain ⟨hpend, hwalk, hw⟩ := id h
    refine ⟨n, by rwa [PassesInterlocks, if_pos h], ?_⟩
    simp only [raiseNext, State.setAg] at hpass ⊢
    simp [hpend, hwalk, hw, hpass, Agent.ticks_rep]
  · refine ⟨0, by rw [PassesInterlocks, if_neg h], ?_⟩
    have hno : (x.pend.isEmpty && x.walk.isNone && u.cur.w != 4) = false := by
      simpa [List.isEmpty_iff, and_assoc, ← imp_iff_not_or] using h
    simp only [raiseNext, State.setAg, hno]
    rfl

/-- The agent that `takeBetween` leaves at the boundary. -/
def boundaryAgent (a : Agent) : Agent :=
  match a.long, a.walk with
  | some l, _ => a.pass l.w l.next
  | none, some k => if walkBefore a then { a with walk := none } else a.pass k.w k.next
  | none, none => a

/-- A trap between words comes after what passes there. -/
theorem takeBetween_passes (u : State) (a : Agent) (code : BitVec 8) (late : Bool) (tval : Word) :
    ∃ k, PassesInterlocks u (boundaryAgent a) k ∧ takeBetween (u.setAg a) code late tval =
      raiseAt { u with ag := (boundaryAgent a).ticks k } code late (boundaryAgent a).pc tval ((boundaryAgent a).rep.getD 0) :=
  raiseNext_passes u (boundaryAgent a) code late (boundaryAgent a).pc tval

theorem boundaryAgent_idle {a : Agent} (hl : a.long = none) (hw : a.walk = none) : boundaryAgent a = a := by
  simp only [boundaryAgent, hl, hw]

theorem boundaryAgent_walk {a : Agent} {k : Walk} (hl : a.long = none) (hw : a.walk = some k) :
    boundaryAgent a = if k.access = none then { a with walk := none } else a.pass k.w k.next := by
  simp [boundaryAgent, walkBefore, hl, hw]

theorem boundaryAgent_long {a : Agent} {l : Long} (hl : a.long = some l) : boundaryAgent a = a.pass l.w l.next := by
  simp only [boundaryAgent, hl]

theorem held_eq_false {u : State}
    (hjobs : ∀ j, (u.core u.blk.core).matrix = some j ∨ (u.core u.blk.core).tile = some j →
      ¬ (j.block = u.cur.b ∧ j.agent = u.cur.w ∧ j.hold = true))
    (hworks : ∀ x ∈ u.blk.works, ¬ (x.agent = u.cur.w ∧ x.hold = true)) : held u = false := by
  have hjob : ∀ j : Option Job, (j = (u.core u.blk.core).matrix ∨ j = (u.core u.blk.core).tile) →
      (j.any fun x => x.block == u.cur.b && x.agent == u.cur.w && x.hold) = false := by
    rintro (_ | x) hx
    · rfl
    · have hx := hjobs x (hx.imp Eq.symm Eq.symm)
      simpa [and_assoc] using hx
  have hwork : (u.blk.works.any fun x => x.agent == u.cur.w && x.hold) = false := by
    simpa using hworks
  simp only [held, hjob _ (.inl rfl), hjob _ (.inr rfl), hwork, Bool.or_false]

/-- No word of the agent has had an effect, but a load that waits for its translation. -/
theorem walkBefore_or_loadWalks {a : Agent} (hl : ∀ l, a.long = some l → l.isGather = true)
    (hw : ∀ k, a.long = none → a.walk = some k → k.access = none ∨ k.use = .load) : (walkBefore a || loadWalks a) = true := by
  cases hlong : a.long with
  | some l => simp [loadWalks, hlong, hl l hlong]
  | none =>
    cases hwalk : a.walk with
    | none => simp [loadWalks, hlong, hwalk]
    | some k =>
      obtain h | h := hw k hlong hwalk
      · simp [walkBefore, hlong, hwalk, h]
      · cases ha : k.access <;> simp [walkBefore, loadWalks, hlong, hwalk, h, ha]

theorem Ctl.acceptLine_eq (c : Ctl) (n : Nat) :
    c.acceptLine n = { c with
      line5 := c.line5 && n != 5
      line6 := c.line6 && n != 6 } := by
  unfold Ctl.acceptLine
  by_cases h5 : n = 5
  · simp [h5]
  by_cases h6 : n = 6
  · simp [h6]
  rw [if_neg h5, if_neg h6, bne_iff_ne.mpr h5, bne_iff_ne.mpr h6, Bool.and_true, Bool.and_true]

theorem acceptable_eq_some {u : State} {n : Nat} (hn : n < 8)
    (hbit : (ipend u.blk u.cur.w u.ag.ctl &&& u.ag.ctl.imask).getLsbD n = true)
    (hlow : ∀ m < n, (ipend u.blk u.cur.w u.ag.ctl &&& u.ag.ctl.imask).getLsbD m = false) : acceptable u = some n := by
  refine List.find?_eq_some_iff_getElem.mpr ⟨hbit, n, by simpa using hn, by simp, fun j hj => ?_⟩
  simp [hlow j hj]

theorem acceptable_eq_none {u : State} (h : ipend u.blk u.cur.w u.ag.ctl &&& u.ag.ctl.imask = 0) : acceptable u = none := by
  simp [acceptable, h]

theorem slipDue_eq_some {t : Tslip} {v : BitVec 16} (hr : t.region.isSome = true)
    (h : t.due = some v ∨ t.due = none ∧ t.limit ≠ 0 ∧ t.limit.toNat < t.cur.toNat ∧ v = t.cur) : slipDue t = some v := by
  have hr : t.region.isNone = false := by simpa using hr
  obtain h | ⟨hd, hl, hlt, rfl⟩ := h
  · simp [slipDue, hr, h]
  · have hlt : t.limit < t.cur := hlt
    rw [slipDue, hr, if_neg Bool.false_ne_true, hd]
    exact if_pos ⟨hl, hlt⟩

end Sys2Proof.Machine
end

section
/-! ## The MP's stop (R206, R217) -/
namespace Sys2Proof.Machine

/-- TCAUSE of a trap that is no interrupt. -/
theorem causeWord_sync (c : BitVec 8) : causeWord c false false = BitVec.ofNat 10 c.toNat := by
  have h8 := c.isLt
  apply BitVec.eq_of_toNat_eq
  show (BitVec.ofBool false ++ (BitVec.ofBool false ++ c)).toNat = c.toNat % 2 ^ 10
  rw [BitVec.toNat_append, BitVec.toNat_append]
  simp [Nat.mod_eq_of_lt (show c.toNat < 1024 by omega)]

/-- A fold that keeps the element of least key, the earlier of two, keeps one whose key is least of all. -/
theorem foldl_least {α : Type} {f : Option α → α → Option α} {key : α → Nat} {p : α} (hnone : ∀ x, f none x = some x)
    (hsome : ∀ q x, f (some q) x = if key x < key q then some x else some q) : ∀ (l : List α) (acc : Option α),
    (∀ x ∈ acc.toList ++ l, x = p ∨ key p < key x) → p ∈ acc.toList ++ l → l.foldl f acc = some p
  | [], none, _, hp => by simp at hp
  | [], some q, _, hp => by simpa using (List.mem_singleton.mp hp).symm
  | x :: l, none, hmin, hp => by
    rw [List.foldl_cons, hnone]
    exact foldl_least hnone hsome l (some x) hmin hp
  | x :: l, some q, hmin, hp => by
    have hq := hmin q (by simp)
    have hx := hmin x (by simp)
    have hrest : ∀ y ∈ l, y = p ∨ key p < key y := fun y hy => hmin y (by simp [hy])
    rw [List.foldl_cons, hsome]
    split
    · next hlt =>
      refine foldl_least hnone hsome l (some x) (by simpa using ⟨hx, hrest⟩) ?_
      obtain rfl | hp : p = q ∨ p ∈ x :: l := by simpa using hp
      · obtain rfl | hx := hx
        · simp
        · omega
      · exact hp
    · next hge =>
      refine foldl_least hnone hsome l (some q) (by simpa using ⟨hq, hrest⟩) ?_
      obtain rfl | rfl | hp : p = q ∨ p = x ∨ p ∈ l := by simpa using hp
      · simp
      · obtain rfl | hq := hq
        · simp
        · omega
      · simp [hp]

theorem Transfer.faulted_iff {x : Transfer} : x.faulted = true ↔ ∃ c, x.st = .faulted c := by
  unfold Transfer.faulted
  cases x.st <;> simp

theorem oldestFault_eq_some {b : Block} {n : Fin 4} {x : Transfer} {c : BitVec 8} (hx : x ∈ b.chans[n].xfers) (hst : x.st = .faulted c)
    (hold : ∀ (m : Fin 4) y e, y ∈ b.chans[m].xfers → y.st = .faulted e → y = x ∧ m = n ∨ x.order < y.order) :
    oldestFault b = some (n.val, x) := by
  have hmem (p : Nat × Transfer) : p ∈ ((List.range 4).flatMap fun n => match b.chans[n]? with
      | some c => (c.xfers.filter (·.faulted)).map (n, ·)
      | none => []) ↔ ∃ m : Fin 4, p.1 = m.val ∧ p.2 ∈ b.chans[m].xfers ∧ p.2.faulted = true := by
    rw [List.mem_flatMap]
    constructor
    · rintro ⟨m, hm, hp⟩
      have hm : m < 4 := List.mem_range.mp hm
      rw [Vector.getElem?_eq_getElem (by omega)] at hp
      obtain ⟨y, hy, rfl⟩ := List.mem_map.mp hp
      obtain ⟨hy, hf⟩ := List.mem_filter.mp hy
      exact ⟨⟨m, hm⟩, rfl, hy, hf⟩
    · rintro ⟨m, hm, hp, hf⟩
      refine ⟨m, List.mem_range.mpr m.isLt, ?_⟩
      rw [Vector.getElem?_eq_getElem (by omega)]
      exact List.mem_map.mpr ⟨p.2, List.mem_filter.mpr ⟨hp, hf⟩, by rw [← hm]⟩
  refine foldl_least (key := fun p : Nat × Transfer => p.2.order) (fun _ => rfl) (fun _ _ => rfl) _ none ?_ ?_
  · rintro ⟨m, y⟩ hy
    obtain ⟨m, rfl, hy, hf⟩ := (hmem _).mp hy
    obtain ⟨e, he⟩ := Transfer.faulted_iff.mp hf
    obtain ⟨rfl, rfl⟩ | h := hold m y e hy he
    · exact .inl rfl
    · exact .inr h
  · exact (hmem _).mpr ⟨n, rfl, hx, Transfer.faulted_iff.mpr ⟨c, hst⟩⟩

end Sys2Proof.Machine
end

section
/-! ## The MP's return (R206, R217, R223) -/
namespace Sys2Proof.Machine
variable {u : State}

/-- MPTXID, TVAL and TCAUSE name a faulted transfer. -/
def Ctl.names (c : Ctl) (x : Transfer) : Bool :=
  x.id == c.mptxid.setWidth 32 && x.tval == c.tval && (match x.st with
    | .faulted e => causeWord e false false == c.tcause
    | _ => false)

theorem Ctl.names_iff {c : Ctl} {x : Transfer} : c.names x = true ↔
    x.id.toNat = c.mptxid.toNat % 2 ^ 32 ∧ x.tval = c.tval ∧ ∃ e, x.st = .faulted e ∧ c.tcause.toNat = e.toNat := by
  have hid : x.id = c.mptxid.setWidth 32 ↔ x.id.toNat = c.mptxid.toNat % 2 ^ 32 := by
    rw [← BitVec.toNat_inj, BitVec.toNat_setWidth]
  have hcause (e : BitVec 8) : causeWord e false false = c.tcause ↔ c.tcause.toNat = e.toNat := by
    have h8 := e.isLt
    rw [causeWord_sync, eq_comm, ← BitVec.toNat_inj, BitVec.toNat_ofNat, Nat.mod_eq_of_lt (by omega)]
  cases hst : x.st <;> simp [Ctl.names, hst, hid, hcause, and_assoc]

/-- The channel in MPTXID. -/
def Ctl.raisedIn (c : Ctl) : Fin 5 := Fin.ofNat 5 (c.mptxid.toNat / 2 ^ 32 % 4)

theorem raisedXfer_eq (u : State) : raisedXfer u =
    (u.blk.chans[u.ag.ctl.raisedIn].xfers.find? u.ag.ctl.names).map (u.ag.ctl.raisedIn, ·) := rfl

theorem raisedXfer_eq_none (h : ∀ x ∈ u.blk.chans[u.ag.ctl.raisedIn].xfers, u.ag.ctl.names x = false) : raisedXfer u = none := by
  rw [raisedXfer_eq, List.find?_eq_none.mpr fun x hx => by simp [h x hx], Option.map_none]

theorem raisedXfer_eq_some {x : Transfer} (hids : (u.blk.chans[u.ag.ctl.raisedIn].xfers.map (·.id)).Nodup)
    (hx : x ∈ u.blk.chans[u.ag.ctl.raisedIn].xfers) (hn : u.ag.ctl.names x = true) :
    raisedXfer u = some (u.ag.ctl.raisedIn, x) := by
  rw [raisedXfer_eq]
  cases hf : u.blk.chans[u.ag.ctl.raisedIn].xfers.find? u.ag.ctl.names with
  | none => exact absurd hn (List.find?_eq_none.mp hf x hx)
  | some y =>
    obtain ⟨hidy, -⟩ := Ctl.names_iff.mp (List.find?_some hf)
    obtain ⟨hidx, -⟩ := Ctl.names_iff.mp hn
    obtain rfl : y = x := List.inj_on_of_nodup_map hids (List.mem_of_find?_eq_some hf) hx
      (BitVec.eq_of_toNat_eq (hidy.trans hidx.symm))
    rfl

theorem Agent.setReg_ctl (a : Agent) (r : RegName) (v : VWord) (p : Bool) : (a.setReg r v p).ctl = a.ctl := by
  cases r with
  | v n => rfl
  | _ n => simp only [Agent.setReg]; split <;> rfl

/-- A channel once a transfer of it has ended. -/
def Chan.ended (c : Chan) (ch : Fin 5) (x y : Transfer) : Chan :=
  if ch = 4 then (c.update y).release x else ((c.update y).release x).trim

/-- Complete changes the channel of the transfer, and of the agent the token's register and mark. -/
theorem completeXfer_eq (u : State) (ch : Fin 5) (x : Transfer) (st : Progress) : ∃ y a, y.id = x.id ∧ y.st = st ∧
    a.ctl = u.ag.ctl ∧ completeXfer u ch x st = (u.setBlk (u.blk.setChan ch (u.blk.chans[ch].ended ch x y))).setAg a := by
  let y : Transfer := { x with
    st := st
    buf := []
    got := 0
    put := 0
    pois := 0
    mirrored := 0
    handles := []
    pages := []
    src := none
    again := 0
    second := []
    walk := none }
  cases ht : x.token with
  | none =>
    refine ⟨y, u.ag, rfl, rfl, rfl, ?_⟩
    by_cases hch : ch = 4 <;>
      simp [completeXfer, ht, putXfer, State.setBlk, Block.setChan, Chan.ended, hch, y, State.setAg]
  | some t =>
    refine ⟨y, { u.ag.setReg (.s t) (x.id.setWidth 2048) false with pend := u.ag.pend.erase (.s t) }, rfl, rfl,
      u.ag.setReg_ctl (.s t) (x.id.setWidth 2048) false, ?_⟩
    by_cases hch : ch = 4 <;>
      simp [completeXfer, ht, putXfer, State.setBlk, Block.setChan, Chan.ended, hch, y, State.setAg]

theorem Chan.mem_update {c : Chan} {x y : Transfer} (hy : y ∈ (c.update x).xfers) (hid : y.id = x.id) : y = x := by
  obtain ⟨z, -, rfl⟩ := List.mem_map.mp hy
  by_cases h : z.id = x.id
  · rw [if_pos h]
  · rw [if_neg h] at hid
    exact absurd hid h

/-- A transfer that is not held is as it was when another goes on. -/
theorem Chan.mem_release {c : Chan} {x y : Transfer} (hy : y ∈ (c.release x).xfers)
    (hheld : ∀ z ∈ c.xfers, z.id = y.id → z.st ≠ .held) : y ∈ c.xfers := by
  unfold Chan.release at hy
  split at hy
  · exact hy
  · next h hfind =>
    split at hy
    · exact hy
    · obtain ⟨z, hz, rfl⟩ := List.mem_map.mp hy
      by_cases hid : z.id = h.id
      · rw [if_pos hid] at hheld
        exact absurd (by simpa using List.find?_some hfind) (hheld h (List.mem_of_find?_eq_some hfind) hid.symm)
      · rwa [if_neg hid]

theorem Chan.mem_ended {c : Chan} {ch : Fin 5} {x y z : Transfer} (hz : z ∈ (c.ended ch x y).xfers) (hid : z.id = y.id)
    (hst : y.st ≠ .held) : z = y := by
  have hrel : z ∈ ((c.update y).release x).xfers := by
    unfold Chan.ended at hz
    split at hz
    · exact hz
    · exact List.mem_of_mem_filter hz
  refine Chan.mem_update (Chan.mem_release hrel fun w hw hwid => ?_) hid
  rwa [Chan.mem_update hw (hwid.trans hid)]

/-- The item that a transfer writes belongs to another core (R171). -/
def Transfer.remote (x : Transfer) : Bool :=
  match x.form with
  | .toItem _ i _ _ | .xfer _ i => i.cls == 2
  | _ => false

theorem resumeXfer_eq {ch : Fin 5} {x : Transfer} {c : BitVec 8} (hst : x.st = .faulted c) : resumeXfer ch x u =
    if c = cDWRT ∧ x.remote = true then completeXfer u ch x (.ended c)
    else putXfer u ch { x with
      st := .active
      tval := 0 } := by
  simp only [resumeXfer, hst]
  rfl

/-- What goes on changes its own channel alone, and no control register. -/
theorem resumeXfer_frame {ch : Fin 5} {x : Transfer} : (resumeXfer ch x u).ag.ctl = u.ag.ctl ∧
    ∀ n : Fin 5, n ≠ ch → (resumeXfer ch x u).blk.chans[n] = u.blk.chans[n] := by
  have hset (n : Fin 5) (h : n ≠ ch) (c : Chan) : (u.blk.setChan ch c).chans[n] = u.blk.chans[n] :=
    Vector.getElem_set_ne ch.isLt n.isLt (Fin.val_ne_of_ne h.symm)
  cases hst : x.st with
  | faulted c =>
    rw [resumeXfer_eq hst]
    split
    · obtain ⟨y, a, -, -, ha, heq⟩ := completeXfer_eq u ch x (.ended c)
      rw [heq]
      exact ⟨ha, fun n hn => hset n hn _⟩
    · exact ⟨rfl, fun n hn => hset n hn _⟩
  | _ => simp only [resumeXfer, hst, implies_true, and_self]

end Sys2Proof.Machine
end

section
/-! ## Banks (R157, R172) -/
namespace Sys2Proof.Machine

/-- An owner field is two bits of the list. -/
theorem ownerField_testBit (x n i : Nat) : (x / 4 ^ n % 4).testBit i = (decide (i < 2) && x.testBit (2 * n + i)) := by
  rw [show (4 : Nat) ^ n = 2 ^ (2 * n) by rw [Nat.pow_mul], show (4 : Nat) = 2 ^ 2 by rfl, Nat.testBit_mod_two_pow,
    Nat.testBit_div_two_pow, Nat.add_comm]

theorem putOwner_field {w : Nat} (x : BitVec w) (bank slot n : Nat) (hn : 2 * n + 2 ≤ w) :
    (putOwner x bank slot).toNat / 4 ^ n % 4 = if n = bank then slot % 4 else x.toNat / 4 ^ n % 4 := by
  have hfield (y i : Nat) : (y % 4).testBit i = (decide (i < 2) && y.testBit i) := by
    rw [show (4 : Nat) = 2 ^ 2 by rfl, Nat.testBit_mod_two_pow]
  have hthree (i : Nat) : (3 : Nat).testBit i = decide (i < 2) := by
    rw [show (3 : Nat) = 2 ^ 2 - 1 by rfl, Nat.testBit_two_pow_sub_one]
  have hbits (i : Nat) (hi : i < 2) : (putOwner x bank slot).getLsbD (2 * n + i) =
      if n = bank then slot.testBit i else x.getLsbD (2 * n + i) := by
    have hw : 2 * n + i < w := by omega
    simp only [putOwner, BitVec.getLsbD_or, BitVec.getLsbD_and, BitVec.getLsbD_not, BitVec.getLsbD_shiftLeft, BitVec.getLsbD_ofNat,
      hfield, hthree, hw, decide_true, Bool.true_and]
    by_cases h : n = bank
    · subst h
      have hwi : i < w := by omega
      simp [hi, hwi]
    · have hfar : 2 * n + i < 2 * bank ∨ ¬ 2 * n + i - 2 * bank < 2 := by omega
      obtain hfar | hfar := hfar <;> simp [h, hfar]
  refine Nat.eq_of_testBit_eq fun i => ?_
  by_cases hi : i < 2
  · rw [ownerField_testBit, BitVec.testBit_toNat, hbits i hi]
    split
    · simp [hfield, hi]
    · rw [ownerField_testBit, BitVec.testBit_toNat, decide_eq_true hi, Bool.true_and]
  · split <;> simp [hfield, hi]

/-- The banks of a kind: tiles, accumulators, vectors (R157). -/
theorem bankBit_inj {k k' : Fin 3} {n n' : Nat} (hn : n < if k = 2 then 4 else 8) (hn' : n' < if k' = 2 then 4 else 8)
    (h : bankBit k n = bankBit k' n') : k = k' ∧ n = n' := by
  fin_cases k <;> fin_cases k' <;> simp_all [bankBit] <;> omega

theorem bankBit_lt {k : Fin 3} {n : Nat} (hn : n < if k = 2 then 4 else 8) : bankBit k n < 20 := by
  fin_cases k <;> simp_all [bankBit] <;> omega

section
variable {c : Core} {k k' : Fin 3} {n n' slot : Nat} {live : Bool} (hn : n < if k = 2 then 4 else 8)
include hn

theorem Core.bankLive_setBank (hn' : n' < if k' = 2 then 4 else 8) : (c.setBank k n slot live).bankLive k' n' =
    if k' = k ∧ n' = n then live else c.bankLive k' n' := by
  have hlive : (c.setBank k n slot live).live = putBit c.live (bankBit k n) live := by
    unfold Core.setBank
    split <;> rfl
  rw [Core.bankLive, hlive, getLsbD_putBit _ _ _ _ (bankBit_lt hn')]
  by_cases h : k' = k ∧ n' = n
  · rw [if_pos h, if_pos (by rw [h.1, h.2])]
  · rw [if_neg h, if_neg fun hb => h (bankBit_inj hn' hn hb)]
    rfl

theorem Core.bankOwner_setBank_self (hs : slot < 4) : (c.setBank k n slot live).bankOwner k n = slot := by
  fin_cases k
  all_goals
    refine (putOwner_field _ n slot n ?_).trans ?_
    · simp at hn; omega
    · rw [if_pos rfl, Nat.mod_eq_of_lt hs]

theorem Core.bankOwner_setBank_other (hn' : n' < if k' = 2 then 4 else 8) (h : ¬ (k' = k ∧ n' = n)) :
    (c.setBank k n slot live).bankOwner k' n' = c.bankOwner k' n' := by
  by_cases hk : k' = k
  · subst hk
    have hne : n' ≠ n := fun hn => h ⟨rfl, hn⟩
    fin_cases k'
    all_goals
      refine (putOwner_field _ n slot n' ?_).trans (if_neg hne)
      simp at hn'; omega
  · fin_cases k <;> fin_cases k' <;> simp_all [Core.bankOwner, Core.setBank]

theorem Core.setBank_passes (hs : slot < 4) : (c.setBank k n slot true).bankLive k n = true ∧
    (c.setBank k n slot true).bankOwner k n = slot ∧ ∀ (k' : Fin 3) n', n' < (if k' = 2 then 4 else 8) → ¬ (k' = k ∧ n' = n) →
      (c.setBank k n slot true).bankLive k' n' = c.bankLive k' n' ∧
      (c.setBank k n slot true).bankOwner k' n' = c.bankOwner k' n' := by
  refine ⟨by rw [Core.bankLive_setBank hn hn, if_pos ⟨rfl, rfl⟩], Core.bankOwner_setBank_self hn hs, fun k' n' hn' h => ⟨?_, ?_⟩⟩
  · rw [Core.bankLive_setBank hn hn', if_neg h]
  · exact Core.bankOwner_setBank_other hn hn' h

end

end Sys2Proof.Machine
end

section
namespace Sys2Proof.Machine

/-- Settles O42: what a stop between words leaves is `boundaryAgent`, and the interlock cycles of the next word pass before its
trap. -/
theorem interruptsStopsAndClaims : Obligations.InterruptsStopsAndClaims := by
  intro s b w bank kind pass between free
  have between_eq (u : State) (a : Agent) (hl : a.long = u.ag.long) (hw : a.walk = u.ag.walk) : between u a (boundaryAgent a) := by
    refine ⟨fun h1 h2 => ?_, fun k h1 h2 => ?_, fun l h => ?_⟩
    · exact boundaryAgent_idle (hl.trans h1) (hw.trans h2)
    · exact boundaryAgent_walk (hl.trans h1) (hw.trans h2)
    · exact boundaryAgent_long (hl.trans h)
  have boundary (h : free (enter s b w)) : atBoundary (enter s b w) = true := by
    obtain ⟨hrun, htrap, hnan, hspoiled, hstatus, hmig, hrep, hw, hlong, hwalk, hjobs, hworks⟩ := h
    have hheld : held (enter s b w) = false := held_eq_false hjobs hworks
    have hw : (enter s b w).cur.w < 4 := hw
    have hload := walkBefore_or_loadWalks hlong hwalk
    have hrep : ((enter s b w).ag.rep != some 0) = true := bne_iff_ne.mpr hrep
    simp only [atBoundary, hrun, htrap, hnan, hspoiled, hstatus, hmig, hrep, hheld, hw, hload, Option.isNone_none,
      Bool.not_false, beq_self_eq_true, decide_true, Bool.and_true]
  refine ⟨moves_of_withAgent rfl ⟨fun n hn hfree hie hinh hreg hbit hlow => ?accept, ?ignore⟩,
    moves_of_withAgent rfl fun v hfree hreg hdue => ?tslipt, moves_of_withAgent rfl fun n x c hrun hwalk hx hst hold => ?mpTrap,
    moves_of_withAgent rfl ?mpResume, ?claim⟩
  case accept =>
    obtain ⟨k, hk, hraise⟩ := takeBetween_passes (enter s b w) { (enter s b w).ag with ctl := (enter s b w).ag.ctl.acceptLine n }
      (if n = 0 then cTIMER else cINTERRUPT) true (BitVec.ofNat 64 n)
    rw [Ctl.acceptLine_eq] at hk hraise
    refine ⟨_, k, between_eq _ _ rfl rfl, hk, ?_⟩
    rw [boundary hfree, hie, hinh, hreg, acceptable_eq_some hn hbit hlow, ← hraise, ← Ctl.acceptLine_eq]
    rfl
  case ignore =>
    rintro (h | h | h)
    · simp [h]
    · simp [h]
    · simp [acceptable_eq_none (u := enter s b w) h]
  case tslipt =>
    obtain ⟨k, hk, hraise⟩ := takeBetween_passes (enter s b w) (enter s b w).ag cTSLIPT false (v.setWidth 64)
    refine ⟨_, k, between_eq _ _ rfl rfl, hk, ?_⟩
    rw [slipDue_eq_some hreg hdue, ← hraise]
    exact if_pos (boundary hfree)
  case mpTrap =>
    have hfault := oldestFault_eq_some hx hst hold
    simp only [hfault, hrun, hwalk, hst, Progress.code, causeWord_sync]
    rfl
  case mpResume =>
    intro hrun hstatus hids ctl ch raised remote on
    have hch : ch = ctl.raisedIn := rfl
    have hnames (x : Transfer) : raised x ↔ x ∈ (enter s b 4).blk.chans[ch].xfers ∧ ctl.names x = true := by
      rw [Ctl.names_iff]
    have hremote (x : Transfer) : remote x ↔ x.remote = true := by
      cases hf : x.form <;> simp [remote, Transfer.remote, hf]
    have hnodup : ((enter s b 4).blk.chans[ch].xfers.map (·.id)).Nodup := by
      have hlt : ctl.mptxid.toNat / 2 ^ 32 % 4 < 4 := Nat.mod_lt _ (by decide)
      have hval : ch.val = ctl.mptxid.toNat / 2 ^ 32 % 4 := Nat.mod_eq_of_lt (by omega)
      simpa [hval] using hids ⟨ctl.mptxid.toNat / 2 ^ 32 % 4, hlt⟩
    have hraised (x : Transfer) (h : raised x) : raisedXfer (enter s b 4) = some (ch, x) :=
      raisedXfer_eq_some hnodup ((hnames x).mp h).1 ((hnames x).mp h).2
    rw [if_pos (by rw [hrun, hstatus]; rfl)]
    by_cases hex : ∃ x, raised x
    · obtain ⟨x, hx⟩ := hex
      obtain ⟨hctl, hchans⟩ := resumeXfer_frame (u := enter s b 4) (ch := ch) (x := x)
      refine ⟨rfl, ?_, ?_, fun h => absurd hx (h x), fun y hy hno => ?_, fun y hy hst hrem z hz hid => ?_⟩
      · rw [hraised x hx]
        exact congrArg Ctl.epc hctl
      · rw [hraised x hx]
        exact hchans
      · rw [hremote] at hno
        obtain ⟨-, -, -, c, hst, -⟩ := id hy
        have hno : ¬ (c = cDWRT ∧ y.remote = true) := fun h => hno ⟨by rw [hst, h.1], h.2⟩
        rw [hraised y hy]
        dsimp only
        rw [resumeXfer_eq hst, if_neg hno]
        rfl
      · rw [hremote] at hrem
        rw [hraised y hy] at hz
        obtain ⟨z', a, hz', hst', -, heq⟩ := completeXfer_eq (enter s b 4) ch y (.ended cDWRT)
        have hz : z ∈ (resumeXfer ch y (enter s b 4)).blk.chans[ch].xfers := hz
        have hz : z ∈ ((enter s b 4).blk.chans[ch].ended ch y z').xfers := by
          rw [resumeXfer_eq hst, if_pos ⟨rfl, hrem⟩, heq] at hz
          simpa [State.setAg, State.setBlk, Block.setChan] using hz
        rw [Chan.mem_ended hz (hid.trans hz'.symm) (by rw [hst']; exact Progress.noConfusion), hst']
    · have hnone : raisedXfer (enter s b 4) = none :=
        raisedXfer_eq_none fun x hx => Bool.eq_false_of_not_eq_true fun hn => hex ⟨x, (hnames x).mpr ⟨hx, hn⟩⟩
      rw [hnone]
      exact ⟨rfl, rfl, fun _ _ => rfl, fun _ => rfl, fun x hx => absurd ⟨x, hx⟩ hex, fun x hx => absurd ⟨x, hx⟩ hex⟩
  case claim =>
    intro B hB hbank hstatus c o hlive howner hslot hwants
    have hcond : B.status = .running ∧ c.bankLive kind.val bank = true ∧ o ≠ B.slot ∧ wantsBank s B kind.val bank = true :=
      ⟨hstatus, hlive, howner, hwants⟩
    refine ⟨claimBank s b kind.val bank B, by rw [exec_bankClaim, execBankClaim, hB]; exact congrArg _ (if_pos hbank), ?_⟩
    obtain ⟨hself, hown, hother⟩ := Core.setBank_passes (c := c) (k := kind) hbank hslot
    have hpassed (v : State) (hv : ∀ n, v.core n = s.core n) {t : State}
        (ht : t = v.setCore B.core (c.setBank kind.val bank B.slot true)) :
        t.core B.core = c.setBank kind.val bank B.slot true ∧ ∀ n, n ≠ B.core → t.core n = s.core n := by
      subst ht
      refine ⟨by rw [State.core_setCore, if_pos rfl], fun n hn => ?_⟩
      rw [State.core_setCore, if_neg hn, hv]
    refine ⟨fun hfree => ?_, fun oid O hsome hid hO => ⟨fun hheld => ?_, fun hheld => ?_⟩⟩
    · have ht : claimBank s b kind.val bank B = s.setCore B.core (c.setBank kind.val bank B.slot true) := by
        rw [claimBank, if_pos hcond, hfree]
        rfl
      obtain ⟨hcore, hcores⟩ := hpassed s (fun _ => rfl) ht
      rw [hcore]
      exact ⟨⟨hself, hown, hother, hcores⟩, by rw [ht]; rfl⟩
    · have hblock : s.block oid = O := by rw [State.block, hO]; rfl
      have ht : claimBank s b kind.val bank B = (s.setBlock oid (O.saveBank kind.val bank
          ((O.agents[bank % 5]'(Nat.mod_lt _ (by decide))).v, (O.agents[bank % 5]'(Nat.mod_lt _ (by decide))).vPoison))).setCore
            B.core (c.setBank kind.val bank B.slot true) := by
        rw [claimBank, if_pos hcond, hsome]
        simp only [Option.join_some, hblock, hid, hheld, or_false, Bool.false_eq_true, if_false]
        rfl
      obtain ⟨hcore, hcores⟩ := hpassed (s.setBlock oid _) (fun _ => rfl) ht
      rw [hcore]
      refine ⟨⟨hself, hown, hother, hcores⟩, ?_, fun n hn => ?_, by rw [ht]; rfl⟩
      · rw [ht]
        refine (State.block_setBlock s oid oid _).trans ((if_pos rfl).trans ?_)
        fin_cases kind <;> rfl
      · rw [ht]
        exact (State.block_setBlock s oid n _).trans (if_neg hn)
    · have hblock : s.block oid = O := by rw [State.block, hO]; rfl
      rw [claimBank, if_pos hcond, hsome]
      simp only [Option.join_some, hblock, hheld, or_true, if_true]

end Sys2Proof.Machine
end

section
/-! ## What a store leaves in a memory (R154, R249) -/
namespace Sys2Proof.Machine

/-- The poison of granules after `n` of them are set. -/
theorem Store.granule_setGranules : ∀ (n : Nat) (m : Store) (g : Nat) (p : Bool) (x : Nat), m.wf = true →
    (m.setGranules g p n).granule x = if g ≤ x ∧ x < g + n then p else m.granule x
  | 0, _, _, _, _, _ => by rw [if_neg (by omega)]; rfl
  | n + 1, m, g, p, x, h => by
    rw [Store.setGranules, Store.granule_setGranules n _ _ _ _ (Store.setGranule_wf m g p h), Store.granule_setGranule m g p x h]
    by_cases hx : x = g
    · rw [if_neg (by omega), if_pos hx, if_pos (by omega)]
    · by_cases hin : g + 1 ≤ x ∧ x < g + 1 + n
      · rw [if_pos hin, if_pos (by omega)]
      · rw [if_neg hin, if_neg hx, if_neg (by omega)]

theorem Store.granule_writeWords (m : Store) (a n v : Nat) (p : Bool) (x : Nat) (h : m.wf = true) :
    (m.writeWords a n v p).granule x = if a / 4 ≤ x ∧ x < a / 4 + n then p else m.granule x := by
  rw [Store.writeWords, Store.granule_setGranules n _ _ _ _ (Store.writeLE_wf _ _ _ _ h), Store.granule_writeLE]

/-- The bytes after lanes i to i + n - 1 are written where the mask has a 1. -/
theorem Store.byte_writeLanes (a mask v : Nat) (p : Bool) (x : Nat) : ∀ (n : Nat) (m : Store) (i : Nat), m.wf = true →
    (m.writeLanes a mask v p n i).byte x =
      if a + 4 * i ≤ x ∧ x < a + 4 * (i + n) ∧ mask.testBit ((x - a) / 4) = true then BitVec.ofNat 8 (v / 256 ^ (x - a))
      else m.byte x
  | 0, _, _, _ => by rw [if_neg (by omega)]; rfl
  | n + 1, m, i, h => by
    have hwf : (if mask.testBit i then m.writeWords (a + 4 * i) 1 (v / 2 ^ (32 * i)) p else m).wf = true := by
      split
      · exact Store.writeWords_wf _ _ _ _ _ h
      · exact h
    rw [Store.writeLanes, Store.byte_writeLanes a mask v p x n _ (i + 1) hwf]
    by_cases hi : a + 4 * i ≤ x ∧ x < a + 4 * i + 4
    · have hlane : (x - a) / 4 = i := by omega
      rw [if_neg (by omega)]
      split
      · next hbit =>
        rw [Store.byte_writeWords _ _ _ _ _ _ h, if_pos hi, if_pos ⟨hi.1, by omega, by rw [hlane]; exact hbit⟩, Nat.div_div_eq_div_mul]
        congr 2
        rw [show (2 : Nat) ^ (32 * i) = 256 ^ (4 * i) by rw [show (256 : Nat) = 2 ^ 8 by rfl, ← Nat.pow_mul]; congr 1; omega,
          ← Nat.pow_add]
        congr 1
        omega
      · next hbit => rw [if_neg fun hx => hbit (by rw [← hlane]; exact hx.2.2)]
    · have hsame : (if mask.testBit i then m.writeWords (a + 4 * i) 1 (v / 2 ^ (32 * i)) p else m).byte x = m.byte x := by
        split
        · rw [Store.byte_writeWords _ _ _ _ _ _ h, if_neg hi]
        · rfl
      rw [hsame]
      exact if_congr ⟨fun ⟨hlo, hhi, hbit⟩ => ⟨by omega, by omega, hbit⟩, fun ⟨hlo, hhi, hbit⟩ => ⟨by omega, by omega, hbit⟩⟩ rfl rfl

/-- The granules after lanes are written at a multiple of four. -/
theorem Store.granule_writeLanes (a mask v : Nat) (p : Bool) (x : Nat) : ∀ (n : Nat) (m : Store) (i : Nat), m.wf = true →
    (m.writeLanes a mask v p n i).granule x =
      if a / 4 + i ≤ x ∧ x < a / 4 + (i + n) ∧ mask.testBit (x - a / 4) = true then p else m.granule x
  | 0, _, _, _ => by rw [if_neg (by omega)]; rfl
  | n + 1, m, i, h => by
    have hwf : (if mask.testBit i then m.writeWords (a + 4 * i) 1 (v / 2 ^ (32 * i)) p else m).wf = true := by
      split
      · exact Store.writeWords_wf _ _ _ _ _ h
      · exact h
    rw [Store.writeLanes, Store.granule_writeLanes a mask v p x n _ (i + 1) hwf]
    by_cases hi : x = a / 4 + i
    · have hlane : x - a / 4 = i := by omega
      rw [if_neg (by omega)]
      split
      · next hbit =>
        rw [Store.granule_writeWords _ _ _ _ _ _ h, if_pos (by omega), if_pos ⟨by omega, by omega, by rw [hlane]; exact hbit⟩]
      · next hbit => rw [if_neg fun hx => hbit (by rw [← hlane]; exact hx.2.2)]
    · have hsame : (if mask.testBit i then m.writeWords (a + 4 * i) 1 (v / 2 ^ (32 * i)) p else m).granule x = m.granule x := by
        split
        · rw [Store.granule_writeWords _ _ _ _ _ _ h, if_neg (by omega)]
        · rfl
      rw [hsame]
      exact if_congr ⟨fun ⟨hlo, hhi, hbit⟩ => ⟨by omega, by omega, hbit⟩, fun ⟨hlo, hhi, hbit⟩ => ⟨by omega, by omega, hbit⟩⟩ rfl rfl

end Sys2Proof.Machine
end

section
/-! ## What a write to a place changes (R154, R238, R247, R364) -/
namespace Sys2Proof.Machine
variable {s t u v : State} {l q : Loc} {n x : Nat} {p : Bool}

theorem Store.readLE_one (m : Store) (a : Nat) : m.readLE a 1 = (m.byte a).toNat := by simp [Store.readLE]

theorem readLoc_pad_one (s : State) (o : Nat) : readLoc s (.pad o) 1 = ((s.blk.pad.byte o).toNat, s.blk.pad.granule (o / 4)) := by
  simp [readLoc, Store.readLE_one, Store.anyPoison]

/-- A byte of device memory and its poison, through a leased page or not. -/
theorem readLoc_plain_one {pa : Nat} (h : q.plain = .phys pa) : readLoc s q 1 = ((s.mem.byte pa).toNat, s.mem.granule (pa / 4)) := by
  cases q with
  | pad o => exact Loc.noConfusion h
  | text o => exact Loc.noConfusion h
  | phys a | lease a =>
    obtain rfl : a = pa := Loc.phys.inj h
    simp [readLoc, Store.readLE_one, Store.anyPoison]

/-- Bytes and granules after a write of granules at a multiple of four. -/
theorem Store.writeWords_inside {m : Store} {a j : Nat} (h : m.wf = true) (ha : a % 4 = 0) (hj : j < 4 * n) :
    ((m.writeWords a n x p).byte (a + j)).toNat = x / 2 ^ (8 * j) % 256 ∧ (m.writeWords a n x p).granule ((a + j) / 4) = p := by
  constructor
  · rw [Store.byte_writeWords _ _ _ _ _ _ h, if_pos (by omega), BitVec.toNat_ofNat, Nat.add_sub_cancel_left, Nat.pow_mul]
  · rw [Store.granule_writeWords _ _ _ _ _ _ h, if_pos (by omega)]

theorem Store.writeWords_outside {m : Store} {a y : Nat} (h : m.wf = true) (ha : a % 4 = 0) (hy : ∀ j < 4 * n, y ≠ a + j) :
    (m.writeWords a n x p).byte y = m.byte y ∧ (m.writeWords a n x p).granule (y / 4) = m.granule (y / 4) := by
  have hout : ¬ (a ≤ y ∧ y < a + 4 * n) := fun hin => hy (y - a) (by omega) (by omega)
  constructor
  · rw [Store.byte_writeWords _ _ _ _ _ _ h, if_neg hout]
  · rw [Store.granule_writeWords _ _ _ _ _ _ h, if_neg (by omega)]

theorem Loc.plain_plus {pa : Nat} (h : l.plain = .phys pa) (j : Nat) : (l.plus j).plain = .phys (pa + j) := by
  cases l with
  | pad o => exact Loc.noConfusion h
  | text o => exact Loc.noConfusion h
  | phys a | lease a =>
    obtain rfl : a = pa := Loc.phys.inj h
    rfl

/-- What is not written of the scratchpad or of device memory reads as before. -/
theorem readLoc_outside_pad {hit : Nat → Prop} {o : Nat} (hmem : t.mem = s.mem)
    (hpad : ∀ y, (∀ j, hit j → y ≠ o + j) → t.blk.pad.byte y = s.blk.pad.byte y ∧
      t.blk.pad.granule (y / 4) = s.blk.pad.granule (y / 4))
    (hq : ∀ j, hit j → q.plain ≠ (Loc.plus (.pad o) j).plain) (htext : ∀ o, q ≠ .text o) : readLoc t q 1 = readLoc s q 1 := by
  cases q with
  | text a => exact absurd rfl (htext a)
  | pad a =>
    obtain ⟨hb, hg⟩ := hpad a fun j hj h => hq j hj (congrArg Loc.pad h)
    rw [readLoc_pad_one, readLoc_pad_one, hb, hg]
  | phys a | lease a => simp only [readLoc, hmem]

theorem readLoc_outside_mem {hit : Nat → Prop} {pa : Nat} (hl : l.plain = .phys pa) (hpad : t.blk.pad = s.blk.pad)
    (hmem : ∀ y, (∀ j, hit j → y ≠ pa + j) → t.mem.byte y = s.mem.byte y ∧ t.mem.granule (y / 4) = s.mem.granule (y / 4))
    (hq : ∀ j, hit j → q.plain ≠ (l.plus j).plain) (htext : ∀ o, q ≠ .text o) : readLoc t q 1 = readLoc s q 1 := by
  have hphys {a : Nat} (h : q.plain = .phys a) : readLoc t q 1 = readLoc s q 1 := by
    obtain ⟨hb, hg⟩ := hmem a fun j hj hj' => hq j hj (by rw [h, Loc.plain_plus hl, hj'])
    rw [readLoc_plain_one h, readLoc_plain_one h, hb, hg]
  cases q with
  | text a => exact absurd rfl (htext a)
  | pad a => simp only [readLoc, hpad]
  | phys a => exact hphys rfl
  | lease a => exact hphys rfl

/-- A place that is neither text nor a frame of a resident slot takes what is written. -/
structure Writable (s : State) (l : Loc) : Prop where
  text : ¬ ∃ o, l = .text o
  frame : ¬ ∃ pa, l.plain = .phys pa ∧ inSlotFrame s pa = true
  mem : s.mem.wf = true
  pad : s.blk.pad.wf = true
  aligned : l = l.alignDown 4

/-- A write to such a place is a write to the scratchpad, or to device memory. -/
theorem Writable.cases (h : Writable s l) :
    (∃ o, l = .pad o ∧ o % 4 = 0 ∧ s.blk.pad.wf = true) ∨
    ∃ pa, l.plain = .phys pa ∧ pa % 4 = 0 ∧ s.mem.wf = true ∧ inSlotFrame s pa = false := by
  obtain ⟨htext, hframe, hwf, hpwf, hal⟩ := h
  have hfree {pa : Nat} (h : l.plain = .phys pa) : inSlotFrame s pa = false :=
    Bool.eq_false_of_not_eq_true fun hf => hframe ⟨pa, h, hf⟩
  cases l with
  | text o => exact absurd ⟨o, rfl⟩ htext
  | pad o => exact .inl ⟨o, rfl, by have := Loc.pad.inj hal; omega, hpwf⟩
  | phys pa => exact .inr ⟨pa, rfl, by have := Loc.phys.inj hal; omega, hwf, hfree rfl⟩
  | lease pa => exact .inr ⟨pa, rfl, by have := Loc.lease.inj hal; omega, hwf, hfree rfl⟩

/-- What `writeLoc` and `writeLocLanes` leave of device memory. -/
theorem writeLoc_plain {pa : Nat} (hl : l.plain = .phys pa) (hf : inSlotFrame s pa = false) :
    (writeLoc s l n x p).mem = s.mem.writeWords pa n x p ∧ (writeLoc s l n x p).blk = s.blk := by
  cases l with
  | pad o => exact Loc.noConfusion hl
  | text o => exact Loc.noConfusion hl
  | phys a | lease a =>
    obtain rfl : a = pa := Loc.phys.inj hl
    rw [writeLoc, State.write, if_neg (by rw [hf]; decide)]
    exact ⟨rfl, rfl⟩

theorem writeLocLanes_plain {pa mask : Nat} (hl : l.plain = .phys pa) (hf : inSlotFrame s pa = false) :
    (writeLocLanes s l mask x p).mem = s.mem.writeLanes pa mask x p 64 0 ∧ (writeLocLanes s l mask x p).blk = s.blk := by
  cases l with
  | pad o => exact Loc.noConfusion hl
  | text o => exact Loc.noConfusion hl
  | phys a | lease a =>
    obtain rfl : a = pa := Loc.phys.inj hl
    rw [writeLocLanes, State.write, if_neg (by rw [hf]; decide)]
    exact ⟨rfl, rfl⟩

theorem stored_writeLoc (h : Writable s l) (hpad : t.blk.pad = (writeLoc s l n x p).blk.pad)
    (hmem : t.mem = (writeLoc s l n x p).mem) : Stored s t l (4 * n) x p := by
  obtain ⟨o, rfl, ho, hwf⟩ | ⟨pa, hl, ha, hwf, hf⟩ := h.cases
  · have hpad : t.blk.pad = s.blk.pad.writeWords o n x p := hpad
    refine ⟨fun j hj => ?_, fun j hj => ?_, fun q hq htext => ?_⟩
    · rw [Loc.plus, readLoc_pad_one, hpad]
      exact (Store.writeWords_inside hwf ho hj).1
    · rw [Loc.plus, readLoc_pad_one, hpad]
      exact (Store.writeWords_inside hwf ho hj).2
    · exact readLoc_outside_pad (hit := (· < 4 * n)) hmem (fun y hy => hpad ▸ Store.writeWords_outside hwf ho hy) hq htext
  · obtain ⟨hm, hb⟩ := writeLoc_plain (n := n) (x := x) (p := p) hl hf
    rw [hb] at hpad
    rw [hm] at hmem
    refine ⟨fun j hj => ?_, fun j hj => ?_, fun q hq htext => ?_⟩
    · rw [readLoc_plain_one (Loc.plain_plus hl j), hmem]
      exact (Store.writeWords_inside hwf ha hj).1
    · rw [readLoc_plain_one (Loc.plain_plus hl j), hmem]
      exact (Store.writeWords_inside hwf ha hj).2
    · exact readLoc_outside_mem (hit := (· < 4 * n)) hl hpad (fun y hy => hmem ▸ Store.writeWords_outside hwf ha hy) hq htext

/-- The number that bytes from a place on stand for. -/
theorem Store.readLE_eq_mod {m : Store} : ∀ {n a v : Nat}, (∀ j < n, (m.byte (a + j)).toNat = v / 256 ^ j % 256) →
    m.readLE a n = v % 256 ^ n
  | 0, a, v, _ => by simp [Store.readLE, Nat.mod_one]
  | n + 1, a, v, h => by
    have h0 : (m.byte a).toNat = v % 256 := by simpa using h 0 (by omega)
    have hrest : m.readLE (a + 1) n = v / 256 % 256 ^ n := Store.readLE_eq_mod fun j hj => by
      have hj := h (j + 1) (by omega)
      rwa [Nat.pow_succ', ← Nat.div_div_eq_div_mul, ← Nat.add_assoc, Nat.add_right_comm] at hj
    rw [Store.readLE, h0, hrest, Nat.pow_succ', Nat.mod_mul]

section
variable {mask : Nat}

/-- Lane e of the 64 lanes written where the mask has a 1. -/
theorem Store.writeLanes_inside {m : Store} {a e : Nat} (h : m.wf = true) (ha : a % 4 = 0) (he : e < 64)
    (hmask : mask.testBit e = true) : (m.writeLanes a mask x p 64 0).readLE (a + 4 * e) 4 = x / 2 ^ (32 * e) % 2 ^ 32 ∧
      (m.writeLanes a mask x p 64 0).granule ((a + 4 * e) / 4) = p := by
  constructor
  · refine Store.readLE_eq_mod (n := 4) fun j hj => ?_
    have hlane : (a + 4 * e + j - a) / 4 = e := by omega
    rw [Store.byte_writeLanes _ _ _ _ _ _ _ _ h, if_pos ⟨by omega, by omega, by rw [hlane]; exact hmask⟩, BitVec.toNat_ofNat,
      show (2 : Nat) ^ (32 * e) = 256 ^ (4 * e) by rw [show (256 : Nat) = 2 ^ 8 by rfl, ← Nat.pow_mul]; congr 1; omega,
      Nat.div_div_eq_div_mul, ← Nat.pow_add]
    congr 3
    omega
  · have hlane : (a + 4 * e) / 4 - a / 4 = e := by omega
    rw [Store.granule_writeLanes _ _ _ _ _ _ _ _ h, if_pos ⟨by omega, by omega, by rw [hlane]; exact hmask⟩]

theorem Store.writeLanes_outside {m : Store} {a y : Nat} (h : m.wf = true) (ha : a % 4 = 0)
    (hy : ∀ j < 256, mask.testBit (j / 4) = true → y ≠ a + j) : (m.writeLanes a mask x p 64 0).byte y = m.byte y ∧
      (m.writeLanes a mask x p 64 0).granule (y / 4) = m.granule (y / 4) := by
  constructor
  · rw [Store.byte_writeLanes _ _ _ _ _ _ _ _ h, if_neg fun hin => hy (y - a) (by omega) hin.2.2 (by omega)]
  · rw [Store.granule_writeLanes _ _ _ _ _ _ _ _ h, if_neg fun hin => hy (y - a) (by omega) ?_ (by omega)]
    rw [show (y - a) / 4 = y / 4 - a / 4 by omega]
    exact hin.2.2

end

/-- Four bytes and their granule at a place in device memory. -/
theorem readLoc_plain_four {pa : Nat} (h : q.plain = .phys pa) : readLoc s q 4 = (s.mem.readLE pa 4, s.mem.granule (pa / 4)) := by
  cases q with
  | pad o => exact Loc.noConfusion h
  | text o => exact Loc.noConfusion h
  | phys a | lease a =>
    obtain rfl : a = pa := Loc.phys.inj h
    simp [readLoc, Store.anyPoison]

theorem lanes_writeLocLanes {mask : Nat} (h : Writable s l) (hpad : t.blk.pad = (writeLocLanes s l mask x p).blk.pad)
    (hmem : t.mem = (writeLocLanes s l mask x p).mem) :
    (∀ e < 64, mask.testBit e = true → readLoc t (l.plus (4 * e)) 4 = (x / 2 ^ (32 * e) % 2 ^ 32, p)) ∧
    ∀ q : Loc, (∀ j < 256, mask.testBit (j / 4) = true → q.plain ≠ (l.plus j).plain) → (∀ o, q ≠ .text o) →
      readLoc t q 1 = readLoc s q 1 := by
  obtain ⟨o, rfl, ho, hwf⟩ | ⟨pa, hl, ha, hwf, hf⟩ := h.cases
  · have hpad : t.blk.pad = s.blk.pad.writeLanes o mask x p 64 0 := hpad
    refine ⟨fun e he hbit => ?_, fun q hq htext => ?_⟩
    · obtain ⟨hb, hg⟩ := Store.writeLanes_inside (x := x) (p := p) hwf ho he hbit
      simp only [Loc.plus, readLoc, hpad, hb, Store.anyPoison, hg, Bool.or_false]
    · exact readLoc_outside_pad (hit := fun j => j < 256 ∧ mask.testBit (j / 4) = true) hmem
        (fun y hy => hpad ▸ Store.writeLanes_outside hwf ho fun j hj hb => hy j ⟨hj, hb⟩) (fun j hj => hq j hj.1 hj.2) htext
  · obtain ⟨hm, hb⟩ := writeLocLanes_plain (mask := mask) (x := x) (p := p) hl hf
    rw [hb] at hpad
    rw [hm] at hmem
    refine ⟨fun e he hbit => ?_, fun q hq htext => ?_⟩
    · obtain ⟨hb, hg⟩ := Store.writeLanes_inside (x := x) (p := p) hwf ha he hbit
      rw [readLoc_plain_four (Loc.plain_plus hl _), hmem, hb, hg]
    · exact readLoc_outside_mem (hit := fun j => j < 256 ∧ mask.testBit (j / 4) = true) hl hpad
        (fun y hy => hmem ▸ Store.writeLanes_outside hwf ha fun j hj hb => hy j ⟨hj, hb⟩) (fun j hj => hq j hj.1 hj.2) htext

/-- A write to a frame of a resident slot changes nothing (R364). -/
theorem write_frozen {pa : Nat} (hl : l.plain = .phys pa) (hf : inSlotFrame s pa = true) (mask : Nat) :
    writeLoc s l n x p = s ∧ writeLocLanes s l mask x p = s := by
  cases l with
  | pad o => exact Loc.noConfusion hl
  | text o => exact Loc.noConfusion hl
  | phys a | lease a =>
    obtain rfl : a = pa := Loc.phys.inj hl
    simp only [writeLoc, writeLocLanes, State.write, hf, if_true, and_self]

/-- A write changes the memories and has the host give up lines. -/
theorem writeLoc_only : writeLoc s l n x p = onlyMemory s (writeLoc s l n x p) ∧ (writeLoc s l n x p).cores = s.cores := by
  cases l with
  | pad o | text o => exact ⟨rfl, rfl⟩
  | phys a | lease a => simp only [writeLoc, State.write]; split <;> exact ⟨rfl, rfl⟩

theorem writeLocLanes_only {mask : Nat} : writeLocLanes s l mask x p = onlyMemory s (writeLocLanes s l mask x p) ∧
    (writeLocLanes s l mask x p).cores = s.cores := by
  cases l with
  | pad o | text o => exact ⟨rfl, rfl⟩
  | phys a | lease a => simp only [writeLocLanes, State.write]; split <;> exact ⟨rfl, rfl⟩

end Sys2Proof.Machine
end

section
/-! ## A step at a home (R241, R247) -/
namespace Sys2Proof.Machine
variable {s t u v : State} {c : Nat}

theorem LeasesMay.refl (s : State) (c : Nat) : LeasesMay s s c := ⟨fun _ _ => rfl, rfl⟩

theorem LeasesMay.trans (h : LeasesMay s t c) (h' : LeasesMay t u c) : LeasesMay s u c :=
  ⟨fun x hx => (h'.others x hx).trans (h.others x hx), by rw [h'.one, h.one]⟩

/-- Leases are the cores' alone. -/
theorem LeasesMay.congr (h : LeasesMay s t c) (hs : u.cores = s.cores) (ht : v.cores = t.cores) : LeasesMay u v c := by
  obtain ⟨hothers, hone⟩ := h
  simp only [State.core] at hothers hone
  exact ⟨by simpa only [State.core, hs, ht] using hothers, by simpa only [State.core, hs, ht] using hone⟩

theorem leasesMay_setCore {l : List Lease} : LeasesMay s (s.setCore c { s.core c with leases := l }) c :=
  ⟨fun x hx => by rw [State.core_setCore, if_neg hx], by rw [State.core_setCore, if_pos rfl]⟩

theorem State.settle_lapses (s : State) (c : Nat) : LeasesLapse s (s.settle c) c := by
  unfold State.settle
  dsimp only
  split
  · exact ⟨LeasesMay.refl s c, fun _ h => h⟩
  · refine ⟨leasesMay_setCore, fun x hx => ?_⟩
    rw [State.core_setCore, if_pos rfl] at hx
    exact List.mem_of_mem_filter hx

/-- A step at the home that leaves the cores as they are: leases may lapse, and it is the step itself otherwise. -/
theorem atHome_lapses {f : State → State} (hf : (f (u.settle u.blk.core)).cores = (u.settle u.blk.core).cores) :
    LeasesLapse u (u.atHome f) u.blk.core ∧
    u.atHome f = { f (u.settle u.blk.core) with cores := (u.atHome f).cores } := by
  have hfirst := State.settle_lapses u u.blk.core
  have hsecond := State.settle_lapses (f (u.settle u.blk.core)) u.blk.core
  have hmid : (f (u.settle u.blk.core)).core u.blk.core = (u.settle u.blk.core).core u.blk.core := by rw [State.core, hf]; rfl
  refine ⟨⟨hfirst.toLeasesMay.trans (hsecond.toLeasesMay.congr hf.symm rfl), fun x hx => ?_⟩, State.settle_frame _⟩
  exact hfirst.fewer x (hmid ▸ hsecond.fewer x hx)

end Sys2Proof.Machine
end

section
/-! ## Loads and atomics at a home (R101, R241, R247) -/
namespace Sys2Proof.Machine
variable {s u : State} {l : Loc} {n c : Nat}

/-- A grant of leases changes the leases of its core alone. -/
theorem grantLeases_may : ∀ (lines : List Nat) (s : State),
    LeasesMay s (s.grantLeases c lines) c ∧ s.grantLeases c lines = { s with cores := (s.grantLeases c lines).cores }
  | [], s => ⟨LeasesMay.refl s c, rfl⟩
  | line :: lines, s => by
    obtain ⟨hmay, heq⟩ := grantLeases_may lines (s.grantLeases c [line])
    have hcons : s.grantLeases c (line :: lines) = (s.grantLeases c [line]).grantLeases c lines := rfl
    rw [hcons]
    exact ⟨(leasesMay_setCore (s := s)).trans hmay, heq⟩

/-- A load at the home changes leases and has the host give up the lines it reads. -/
theorem homeLoad_may (s : State) (l : Loc) (n : Nat) : LeasesMay s (homeLoad s l n) s.blk.core ∧
    homeLoad s l n = { s with
      cores := (homeLoad s l n).cores
      hostLines := (homeLoad s l n).hostLines } := by
  have hsettle := (State.settle_lapses s s.blk.core).toLeasesMay
  cases l with
  | pad o | text o => exact ⟨hsettle, by simp only [homeLoad, State.snoopLoc]; rw [State.settle_frame]⟩
  | phys pa => exact ⟨hsettle.congr rfl rfl, by simp only [homeLoad, State.snoopLoc, State.snoop]; rw [State.settle_frame]⟩
  | lease pa =>
    obtain ⟨hmay, heq⟩ := grantLeases_may (c := s.blk.core) (linesOf pa n) ((s.settle s.blk.core).snoop pa n)
    refine ⟨(hsettle.congr rfl rfl : LeasesMay s ((s.settle s.blk.core).snoop pa n) s.blk.core).trans hmay, ?_⟩
    simp only [homeLoad, State.snoopLoc]
    rw [heq, State.snoop, State.settle_frame]

/-- What an atomic writes (R101). -/
theorem atomNew_eq_some_iff {op : AtomOp} {old y cmp new : Word} : atomNew op old y cmp = some new ↔ atomWrites op old y cmp new := by
  have hmin : smin old y = if old.toInt < y.toInt then old else y := by
    simp only [smin, BitVec.slt_iff_toInt_lt]
    by_cases h : old.toInt < y.toInt
    · rw [if_pos h, if_neg (by omega)]
    · by_cases h' : y.toInt < old.toInt
      · rw [if_neg h, if_pos h']
      · rw [if_neg h, if_neg h', BitVec.eq_of_toInt_eq (x := old) (y := y) (by omega)]
  have hmax : smax old y = if old.toInt < y.toInt then y else old := by simp only [smax, BitVec.slt_iff_toInt_lt]
  cases op with
  | cas =>
    simp only [atomNew, atomWrites]
    split
    · next h => simp [h, eq_comm]
    · next h => simp [h]
  | _ =>
    simp only [atomNew, atomWrites, hmin, hmax, Option.some.injEq]
    exact eq_comm

/-- The memory after an atomic has read its place, and written it unless what it read was poisoned or the compare failed. -/
def atomStored (s : State) (l : Loc) (op : AtomOp) (y cmp : Word) (p : Bool) : State :=
  if (readLoc s l 8).2 then s.snoopLoc l 8
  else match atomNew op (BitVec.ofNat 64 (readLoc s l 8).1) y cmp with
    | some v => writeLoc (s.snoopLoc l 8) l 2 v.toNat p
    | none => s.snoopLoc l 8

theorem performAtomic_eq (s : State) (l : Loc) (op : AtomOp) (d : SReg) (y cmp : Word) (yp cp : Bool) :
    performAtomic s l op d y cmp yp cp = (atomStored s l op y cmp (yp || (op == .cas && cp))).answer (.s d)
      ((BitVec.ofNat 64 (readLoc s l 8).1).setWidth 2048) (BitVec.allOnes 64) (readLoc s l 8).2 := by
  unfold performAtomic atomStored
  rfl

theorem snoopLoc_only : s.snoopLoc l n = { s with hostLines := (s.snoopLoc l n).hostLines } := by
  cases l <;> rfl

section
variable {op : AtomOp} {y cmp : Word} {p : Bool}

theorem atomStored_only : atomStored s l op y cmp p = onlyMemory s (atomStored s l op y cmp p) ∧
    (atomStored s l op y cmp p).cores = s.cores := by
  have hsnoop : s.snoopLoc l 8 = onlyMemory s (s.snoopLoc l 8) ∧ (s.snoopLoc l 8).cores = s.cores := by
    cases l <;> exact ⟨rfl, rfl⟩
  unfold atomStored
  split
  · exact hsnoop
  split
  · next v _ =>
    obtain ⟨heq, hcores⟩ := writeLoc_only (s := s.snoopLoc l 8) (l := l) (n := 2) (x := v.toNat) (p := p)
    refine ⟨heq.trans ?_, hcores.trans hsnoop.2⟩
    cases l <;> rfl
  · exact hsnoop

/-- Nothing is written where the old value is poisoned or the compare fails. -/
theorem atomStored_keeps (h : (readLoc s l 8).2 = true ∨ atomNew op (BitVec.ofNat 64 (readLoc s l 8).1) y cmp = none) :
    (atomStored s l op y cmp p).mem = s.mem ∧ (atomStored s l op y cmp p).blk = s.blk := by
  have hkept : atomStored s l op y cmp p = s.snoopLoc l 8 := by
    unfold atomStored
    by_cases hp : (readLoc s l 8).2 = true
    · rw [if_pos hp]
    · rw [if_neg hp, h.resolve_left hp]
  rw [hkept, snoopLoc_only]
  exact ⟨rfl, rfl⟩

theorem atomStored_frozen {pa : Nat} (hl : l.plain = .phys pa) (hf : inSlotFrame s pa = true) :
    (atomStored s l op y cmp p).mem = s.mem ∧ (atomStored s l op y cmp p).blk = s.blk := by
  have hkept : atomStored s l op y cmp p = s.snoopLoc l 8 := by
    have hf' : inSlotFrame (s.snoopLoc l 8) pa = true := by rw [snoopLoc_only]; exact hf
    unfold atomStored
    split
    · rfl
    split
    · exact (write_frozen hl hf' 0).1
    · rfl
  rw [hkept, snoopLoc_only]
  exact ⟨rfl, rfl⟩

theorem atomStored_stored {t : State} {v : Word} (h : Writable s l) (hp : (readLoc s l 8).2 = false)
    (hv : atomNew op (BitVec.ofNat 64 (readLoc s l 8).1) y cmp = some v)
    (hpad : t.blk.pad = (atomStored s l op y cmp p).blk.pad) (hmem : t.mem = (atomStored s l op y cmp p).mem) :
    Stored s t l 8 v.toNat p := by
  have hwritten : atomStored s l op y cmp p = writeLoc (s.snoopLoc l 8) l 2 v.toNat p := by
    rw [atomStored, hp, hv, if_neg Bool.false_ne_true]
  have hsnoop : (writeLoc (s.snoopLoc l 8) l 2 v.toNat p).blk = (writeLoc s l 2 v.toNat p).blk ∧
      (writeLoc (s.snoopLoc l 8) l 2 v.toNat p).mem = (writeLoc s l 2 v.toNat p).mem := by
    obtain ⟨o, rfl, -⟩ | ⟨pa, hl, -, -, hf⟩ := h.cases
    · exact ⟨rfl, rfl⟩
    · have hf' : inSlotFrame (s.snoopLoc l 8) pa = false := by rw [snoopLoc_only]; exact hf
      obtain ⟨hm, hb⟩ := writeLoc_plain (n := 2) (x := v.toNat) (p := p) hl hf
      obtain ⟨hm', hb'⟩ := writeLoc_plain (n := 2) (x := v.toNat) (p := p) hl hf'
      rw [hm, hb, hm', hb', snoopLoc_only]
      exact ⟨rfl, rfl⟩
  obtain ⟨hb, hm⟩ := hsnoop
  rw [hwritten] at hpad hmem
  exact stored_writeLoc (n := 2) h (hpad.trans (congrArg Block.pad hb)) (hmem.trans hm)

end

end Sys2Proof.Machine
end

section
/-! ## Steps that change memory alone (R90, R154) -/
namespace Sys2Proof.Machine
variable {u : State} {l : Loc} {n x : Nat} {p : Bool}

/-- A step that changes the memories and the lines of the host, whatever the agent and the cores are. -/
structure OnMemory (f : State → State) : Prop where
  only : ∀ s, f s = onlyMemory s (f s)
  cores : ∀ s, (f s).cores = s.cores
  mem : ∀ s a c, (f { s with ag := a, cores := c }).mem = (f s).mem
  blk : ∀ s a c, (f { s with ag := a, cores := c }).blk = (f s).blk

theorem writeLoc_onMemory (l : Loc) (n x : Nat) (p : Bool) : OnMemory fun s => writeLoc s l n x p where
  only s := writeLoc_only.1
  cores s := writeLoc_only.2
  mem s a c := by
    cases l with
    | pad o | text o => rfl
    | phys a | lease a => simp only [writeLoc, State.write, apply_ite State.mem]; rfl
  blk s a c := by
    cases l with
    | pad o | text o => rfl
    | phys a | lease a => simp only [writeLoc, State.write, apply_ite State.blk]; rfl

theorem writeLocLanes_onMemory (l : Loc) (mask x : Nat) (p : Bool) : OnMemory fun s => writeLocLanes s l mask x p where
  only s := writeLocLanes_only.1
  cores s := writeLocLanes_only.2
  mem s a c := by
    cases l with
    | pad o | text o => rfl
    | phys a | lease a => simp only [writeLocLanes, State.write, apply_ite State.mem]; rfl
  blk s a c := by
    cases l with
    | pad o | text o => rfl
    | phys a | lease a => simp only [writeLocLanes, State.write, apply_ite State.blk]; rfl

theorem snoopLoc_onMemory (l : Loc) (n : Nat) : OnMemory fun s => s.snoopLoc l n where
  only s := by cases l <;> rfl
  cores s := by cases l <;> rfl
  mem s a c := by cases l <;> rfl
  blk s a c := by cases l <;> rfl

theorem atomStored_onMemory (l : Loc) (op : AtomOp) (y cmp : Word) (p : Bool) : OnMemory fun s => atomStored s l op y cmp p := by
  have hread (s : State) (a c) : readLoc { s with ag := a, cores := c } l 8 = readLoc s l 8 := by cases l <;> rfl
  have hsnoop := snoopLoc_onMemory l 8
  have hboth (s : State) (a c) : (atomStored { s with ag := a, cores := c } l op y cmp p).mem = (atomStored s l op y cmp p).mem ∧
      (atomStored { s with ag := a, cores := c } l op y cmp p).blk = (atomStored s l op y cmp p).blk := by
    unfold atomStored
    rw [hread]
    split
    · exact ⟨hsnoop.mem s a c, hsnoop.blk s a c⟩
    split
    · next v _ =>
      have hw := writeLoc_onMemory l 2 v.toNat p
      have hcomm : State.snoopLoc { s with ag := a, cores := c } l 8 = { s.snoopLoc l 8 with ag := a, cores := c } := by
        cases l <;> rfl
      rw [hcomm]
      exact ⟨hw.mem _ a c, hw.blk _ a c⟩
    · exact ⟨hsnoop.mem s a c, hsnoop.blk s a c⟩
  exact ⟨fun s => atomStored_only.1, fun s => atomStored_only.2, fun s a c => (hboth s a c).1, fun s a c => (hboth s a c).2⟩

/-- A step at the home that changes memory alone. -/
theorem atHome_onMemory {f : State → State} (hf : OnMemory f) (a : Agent) :
    LeasesLapse u ((u.setAg a).atHome f) u.blk.core ∧
    (u.setAg a).atHome f = onlyMemory { u with ag := a } ((u.setAg a).atHome f) ∧
    ((u.setAg a).atHome f).mem = (f u).mem ∧ ((u.setAg a).atHome f).blk = (f u).blk := by
  obtain ⟨hlapse, heq⟩ := atHome_lapses (u := u.setAg a) (hf.cores _)
  have hsettle : (u.setAg a).settle u.blk.core = { u with
    ag := a
    cores := ((u.setAg a).settle u.blk.core).cores } := State.settle_frame _
  have hmem := hf.mem u a ((u.setAg a).settle u.blk.core).cores
  have hblk := hf.blk u a ((u.setAg a).settle u.blk.core).cores
  rw [← hsettle] at hmem hblk
  refine ⟨⟨hlapse.toLeasesMay.congr rfl rfl, hlapse.fewer⟩, ?_, ?_, ?_⟩
  · rw [heq, hf.only, State.settle_frame]
    rfl
  · rw [heq]; exact hmem
  · rw [heq]; exact hblk

end Sys2Proof.Machine
end

section
/-! ## Atomics and mailbox elements at the home (R101, R103) -/
namespace Sys2Proof.Machine
variable {u : State} {l : Loc}

theorem State.settle_setAg (s : State) (a : Agent) (c : Nat) : (s.setAg a).settle c = (s.settle c).setAg a := by
  have hcore : (s.setAg a).core c = s.core c := rfl
  simp only [State.settle, hcore]
  split <;> rfl

theorem State.settle_answer (s : State) (r : RegName) (v : VWord) (lanes : Word) (p : Bool) (c : Nat) :
    (s.answer r v lanes p).settle c = (s.settle c).answer r v lanes p := by
  rw [State.answer, State.settle_setAg, State.answer, State.settle_ag]

theorem atHome_performAtomic (a : Agent) (op : AtomOp) (d : SReg) (y cmp : Word) (yp cp : Bool) :
    (u.setAg a).atHome (fun s => performAtomic s l op d y cmp yp cp) =
      ((u.setAg a).atHome fun s => atomStored s l op y cmp (yp || (op == .cas && cp))).answer (.s d)
        ((BitVec.ofNat 64 (readLoc u l 8).1).setWidth 2048) (BitVec.allOnes 64) (readLoc u l 8).2 := by
  have hread : readLoc ((u.setAg a).settle (u.setAg a).blk.core) l 8 = readLoc u l 8 := by
    rw [State.settle_frame]
    cases l <;> rfl
  show State.settle (performAtomic _ l op d y cmp yp cp) _ = _
  rw [performAtomic_eq, State.settle_answer, hread]
  rfl

/-- A step at the home that changes the block and the agent. -/
theorem atHome_moves {f : State → State} {a b : Agent} {y : Block}
    (hf : ∀ c, f { u with ag := a, cores := c } = { u with ag := b, blk := y, cores := c }) :
    LeasesLapse u ((u.setAg a).atHome f) u.blk.core ∧ (u.setAg a).atHome f = { u with
      ag := b
      blk := y
      cores := ((u.setAg a).atHome f).cores } := by
  have hsettle : (u.setAg a).settle (u.setAg a).blk.core = { u with
    ag := a
    cores := ((u.setAg a).settle u.blk.core).cores } := State.settle_frame _
  have hstep := hf ((u.setAg a).settle u.blk.core).cores
  rw [← hsettle] at hstep
  obtain ⟨hlapse, heq⟩ := atHome_lapses (u := u.setAg a) (f := f) (by rw [hstep]; rfl)
  refine ⟨⟨hlapse.toLeasesMay.congr rfl rfl, hlapse.fewer⟩, ?_⟩
  rw [heq, hstep]

end Sys2Proof.Machine
end

section
/-! ## PERFORM (R90) -/
namespace Sys2Proof.Machine
variable {u : State} {l : Loc} {n mask : Nat}

/-- The oldest access of the agent in focus performs. -/
def performStep (s : State) : State :=
  match s.ag.accs with
  | [] => s
  | ⟨.rowsLate .., _⟩ :: _ => s
  | x :: r => withLocRoute s x.loc fun s => performAccess (s.setAg { s.ag with accs := r }) x

theorem performStep_cons {x : Access} {r : List Access} (hx : u.ag.accs = x :: r) (hk : ∀ n g, x.kind ≠ .rowsLate n g)
    (hl : ∀ pa, x.loc = .phys pa → remotePkg pa = none) :
    performStep u = performAccess (u.setAg { u.ag with accs := r }) x := by
  obtain ⟨k, l⟩ := x
  rw [performStep, hx]
  cases k with
  | rowsLate n g => exact absurd rfl (hk n g)
  | _ => exact withLocRoute_local hl

/-- A load that the lease cache does not serve. -/
theorem loadFrom_home (h : leaseRead u l n = none) :
    loadFrom u l n mask = (homeLoad u l n, (readLoc u l n).1, lanesPoisonLoc u l mask) := by
  rw [loadFrom, h]

theorem loadFrom_lease {x : Nat × Nat} (h : leaseRead u l n = some x) : loadFrom u l n mask = (u, x.1, x.2 &&& mask != 0) := by
  rw [loadFrom, h]

theorem loadFrom_keeps (s : State) (l : Loc) (n mask : Nat) :
    (loadFrom s l n mask).1.mem = s.mem ∧ (loadFrom s l n mask).1.blk = s.blk := by
  unfold loadFrom
  split
  · exact ⟨rfl, rfl⟩
  · obtain ⟨-, heq⟩ := homeLoad_may s l n
    rw [heq]
    exact ⟨rfl, rfl⟩

/-- A load's answer, whose step at the home changed leases and the host's lines. -/
theorem answer_homeLoad (u : State) (a : Agent) (r : RegName) (v : VWord) (lanes : Word) (p : Bool) :
    LeasesMay u ((homeLoad (u.setAg a) l n).answer r v lanes p) u.blk.core ∧
    (homeLoad (u.setAg a) l n).answer r v lanes p = { u with
      ag := { a with ready := a.ready ++ [⟨r, v, lanes, p⟩] }
      cores := ((homeLoad (u.setAg a) l n).answer r v lanes p).cores
      hostLines := ((homeLoad (u.setAg a) l n).answer r v lanes p).hostLines } := by
  obtain ⟨hmay, heq⟩ := homeLoad_may (u.setAg a) l n
  refine ⟨hmay.congr rfl rfl, ?_⟩
  rw [State.answer, heq]
  rfl

section
variable {a : Agent}

theorem performAccess_load {d : SReg} : (leaseRead u l 8 = none → performAccess (u.setAg a) ⟨.load d, l⟩ =
      (homeLoad (u.setAg a) l 8).answer (.s d) (BitVec.ofNat 2048 (readLoc u l 8).1) (BitVec.allOnes 64) (readLoc u l 8).2) ∧
    ∀ v p, leaseRead u l 8 = some (v, p) → performAccess (u.setAg a) ⟨.load d, l⟩ =
      (u.setAg a).answer (.s d) (BitVec.ofNat 2048 v) (BitVec.allOnes 64) (p % 4 != 0) := by
  have hpois : lanesPoisonLoc u l 3 = (readLoc u l 8).2 := lanesPoisonLoc_ones u l (k := 2) (by decide)
  refine ⟨fun h => ?_, fun v p h => ?_⟩
  · rw [← hpois, performAccess, loadFrom_home (u := u.setAg a) h]
    rfl
  · rw [performAccess, loadFrom_lease (u := u.setAg a) h, ← Nat.and_two_pow_sub_one_eq_mod p 2]

theorem performAccess_vload {d : VReg} {lanes : Word} {old : Bool} :
    (leaseRead u l 256 = none → performAccess (u.setAg a) ⟨.vload d lanes old, l⟩ =
      (homeLoad (u.setAg a) l 256).answer (.v d) (BitVec.ofNat 2048 (readLoc u l 256).1) lanes
        (lanesPoisonLoc u l lanes.toNat || old)) ∧
    ∀ v p, leaseRead u l 256 = some (v, p) → performAccess (u.setAg a) ⟨.vload d lanes old, l⟩ =
      (u.setAg a).answer (.v d) (BitVec.ofNat 2048 v) lanes (p &&& lanes.toNat != 0 || old) := by
  refine ⟨fun h => ?_, fun v p h => ?_⟩
  · simp only [performAccess, loadFrom_home (u := u.setAg a) h]
    rfl
  · simp only [performAccess, loadFrom_lease (u := u.setAg a) h]

end

theorem Loc.alignDown_four (k : Nat) (h : l = l.alignDown (4 * k)) : l = l.alignDown 4 := by
  have hdown (a : Nat) (h : a = a / (4 * k) * (4 * k)) : a = a / 4 * 4 := by
    have hdvd : 4 ∣ a := Dvd.intro_left (a / (4 * k) * k) (by rw [Nat.mul_assoc, Nat.mul_comm k, ← h])
    omega
  cases l with
  | pad o => exact congrArg Loc.pad (hdown o (Loc.pad.inj h))
  | text o => exact congrArg Loc.text (hdown o (Loc.text.inj h))
  | phys o => exact congrArg Loc.phys (hdown o (Loc.phys.inj h))
  | lease o => exact congrArg Loc.lease (hdown o (Loc.lease.inj h))

end Sys2Proof.Machine
end

section
namespace Sys2Proof.Machine

/-- Settles O40: a load is `loadFrom`, and every other access a step at the home whose write is `writeLoc`. -/
theorem accessesPerform : Obligations.AccessesPerform := by
  intro s b w
  refine moves_of_withAgent (f := performStep) rfl fun x r hx hmem hpad hal hloc => ?_
  have hw : (enter s b w).cur.w = w := rfl
  generalize enter s b w = u at *
  generalize ht : performStep u = t
  intro frozen rest more all reads stores moves onText
  obtain ⟨kind, loc⟩ := x
  have hstep (hk : ∀ n g, kind ≠ .rowsLate n g) : t = performAccess (u.setAg rest) ⟨kind, loc⟩ :=
    ht.symm.trans (performStep_cons hx hk hloc)
  have hwritable (h : ¬ onText) (hf : ¬ frozen) (hal : loc = loc.alignDown 4) : Writable u loc := ⟨h, hf, hmem, hpad, hal⟩
  refine ⟨?load, ?vload, ?store, ?vstore, ?rows, ?frozen, ?atomic, ?push, ?popStream, ?popMP⟩
  case load =>
    rintro d rfl
    obtain ⟨hhome, hlease⟩ := performAccess_load (u := u) (l := loc) (a := rest) (d := d)
    refine ⟨fun hnone => ?_, fun v p hsome => ?_⟩
    · obtain rfl := (hstep (by simp)).trans (hhome hnone)
      exact answer_homeLoad u rest (.s d) _ all _
    · exact (hstep (by simp)).trans (hlease v p hsome)
  case vload =>
    rintro d mask old rfl
    obtain ⟨hhome, hlease⟩ := performAccess_vload (u := u) (l := loc) (a := rest) (d := d) (lanes := mask) (old := old)
    refine ⟨fun hnone => ?_, fun v p hsome => ?_⟩
    · obtain rfl := (hstep (by simp)).trans (hhome hnone)
      exact answer_homeLoad u rest (.v d) _ mask _
    · exact (hstep (by simp)).trans (hlease v p hsome)
  case store =>
    rintro v p rfl htext hfrozen
    obtain ⟨hlapse, honly, hm, hb⟩ := atHome_onMemory (u := u) (writeLoc_onMemory loc 2 v.toNat p) rest
    obtain rfl := hstep (by simp)
    exact ⟨stored_writeLoc (n := 2) (hwritable htext hfrozen (Loc.alignDown_four 2 hal)) (congrArg Block.pad hb) hm, hlapse, honly⟩
  case vstore =>
    rintro v mask p rfl htext hfrozen
    obtain ⟨hlapse, honly, hm, hb⟩ := atHome_onMemory (u := u) (writeLocLanes_onMemory loc mask.toNat v.toNat p) rest
    obtain rfl := hstep (by simp)
    exact ⟨⟨hlapse, honly⟩, lanes_writeLocLanes (hwritable htext hfrozen (Loc.alignDown_four 64 hal)) (congrArg Block.pad hb) hm⟩
  case rows =>
    rintro v o rfl rfl
    obtain ⟨hlapse, honly, hm, hb⟩ := atHome_onMemory (u := u) (writeLoc_onMemory (.pad (256 * o)) 576 v.toNat false) rest
    obtain rfl := hstep (by simp)
    have htext : ¬ onText := by rintro ⟨a, h⟩; exact Loc.noConfusion h
    have hfrozen : ¬ frozen := by rintro ⟨a, h, -⟩; exact Loc.noConfusion h
    have haligned : Loc.pad (256 * o) = (Loc.pad (256 * o)).alignDown 4 := congrArg Loc.pad (by omega)
    exact ⟨stored_writeLoc (n := 576) (hwritable htext hfrozen haligned) (congrArg Block.pad hb) hm, hlapse, honly⟩
  case frozen =>
    rintro ⟨pa, hplain, hframe⟩ hpush hpop
    have hwrite {f : State → State} (hf : OnMemory f) (h : f u = u) (ht : t = (u.setAg rest).atHome f) :
        t.mem = u.mem ∧ t.blk = u.blk := by
      obtain ⟨-, -, hm, hb⟩ := atHome_onMemory (u := u) hf rest
      rw [ht, hm, hb, h]
      exact ⟨rfl, rfl⟩
    cases kind with
    | push n v => exact absurd rfl (hpush n v)
    | pop n d => exact absurd rfl (hpop n d)
    | rowsLate n g =>
      rw [performStep, hx] at ht
      rw [← ht]
      exact ⟨rfl, rfl⟩
    | load d =>
      rw [hstep (by simp)]
      exact loadFrom_keeps (u.setAg rest) loc 8 3
    | vload d mask old =>
      rw [hstep (by simp)]
      exact loadFrom_keeps (u.setAg rest) loc 256 mask.toNat
    | store v p => exact hwrite (writeLoc_onMemory loc 2 v.toNat p) (write_frozen hplain hframe 0).1 (hstep (by simp))
    | rows v => exact hwrite (writeLoc_onMemory loc 576 v.toNat false) (write_frozen hplain hframe 0).1 (hstep (by simp))
    | vstore v mask p =>
      exact hwrite (writeLocLanes_onMemory loc mask.toNat v.toNat p) (write_frozen (n := 0) hplain hframe mask.toNat).2
        (hstep (by simp))
    | atomic op d y cmp yp cp =>
      obtain ⟨-, -, hm, hb⟩ := atHome_onMemory (u := u) (atomStored_onMemory loc op y cmp (yp || (op == .cas && cp))) rest
      obtain ⟨hm', hb'⟩ := atomStored_frozen (op := op) (y := y) (cmp := cmp) (p := yp || (op == .cas && cp)) hplain hframe
      rw [(hstep (by simp)).trans (atHome_performAtomic rest op d y cmp yp cp)]
      exact ⟨hm.trans hm', hb.trans hb'⟩
  case atomic =>
    rintro op d y cmp yp cp rfl htext hfrozen old
    obtain ⟨hlapse, honly, hm, hb⟩ := atHome_onMemory (u := u) (atomStored_onMemory loc op y cmp (yp || (op == .cas && cp))) rest
    obtain rfl := (hstep (by simp)).trans (atHome_performAtomic rest op d y cmp yp cp)
    refine ⟨⟨⟨hlapse.toLeasesMay.congr rfl rfl, hlapse.fewer⟩, ?_⟩, fun v hp hnew => ?_, fun hkeep => ?_⟩
    · rw [State.answer, honly]
      rfl
    · have hcas : (yp || (op == .cas && cp)) = (yp || decide (op = .cas) && cp) := by cases op <;> rfl
      rw [← hcas]
      exact atomStored_stored (hwritable htext hfrozen (Loc.alignDown_four 2 hal)) hp (atomNew_eq_some_iff.mpr hnew)
        (congrArg Block.pad hb) hm
    · have hkeep : (readLoc u loc 8).2 = true ∨ atomNew op old y cmp = none := by
        refine hkeep.imp_right fun h => ?_
        rw [h.1, atomNew, if_neg h.2]
      obtain ⟨hm', hb'⟩ := atomStored_keeps (p := yp || (op == .cas && cp)) hkeep
      exact ⟨hm.trans hm', hb.trans hb'⟩
  case push =>
    rintro n v rfl
    obtain rfl := hstep (by simp)
    refine atHome_moves (f := fun s => performPush s n v) fun c => ?_
    by_cases h : w = 4
    · have hmp : State.isMP { u with ag := rest, cores := c } = true := by rw [State.isMP, hw, h]; rfl
      rw [performPush, hmp, if_pos rfl, if_pos h]
      rfl
    · have hmp : State.isMP { u with ag := rest, cores := c } = false := by rw [State.isMP, hw]; exact beq_false_of_ne h
      rw [performPush, hmp, if_neg Bool.false_ne_true, if_neg h]
      rfl
  case popStream =>
    rintro n d v q l rfl h hres
    obtain rfl := hstep (by simp)
    refine atHome_moves (f := fun s => performPop s n d) fun c => ?_
    have hmp : State.isMP { u with ag := rest, cores := c } = false := by rw [State.isMP, hw]; exact beq_false_of_ne h
    rw [performPop, hmp, if_neg Bool.false_ne_true, hres]
    by_cases hn : n = 0
    · simp only [if_pos hn]
      rfl
    · simp only [if_neg hn]
      rfl
  case popMP =>
    rintro n d v l rfl h hcmd
    obtain rfl := hstep (by simp)
    refine atHome_moves (f := fun s => performPop s n d) fun c => ?_
    have hmp : State.isMP { u with ag := rest, cores := c } = true := by rw [State.isMP, hw, h]; rfl
    rw [performPop, hmp, if_pos rfl, hcmd]
    rfl

end Sys2Proof.Machine
end

section
/-! ## TSTS of a handle past the tile registers (R161, R189) -/
namespace Sys2Proof.Machine

/-- A class-0 handle of two registers from 511 on, at its second: HSET refuses it (R161). -/
def pastTiles : Handle := ⟨0, 511, 1, 0, 0, 1, 0⟩

/-- The machine at power-on, handle 0 past the tile registers, and accumulator 0, which has the same register number, with an
invalid tag. -/
def pastTilesState : State := { State.reset with
  ag := Agent.reset.setHandle 0 pastTiles
  blk := Block.reset.setAcc 0 { Accum.reset with md := Meta.reset 0x01 } }

/-- The state with the banks of TSTS claimed. -/
def pastTilesClaimed : State := (claimed (.tsts ⟨0, 0, false⟩ 0) false pastTilesState).getD pastTilesState

theorem pastTiles_claimed : claimed (.tsts ⟨0, 0, false⟩ 0) false pastTilesState = some pastTilesClaimed := rfl

theorem pastTiles_runs : Runs (.tsts ⟨0, 0, false⟩ 0) pastTilesState := by
  refine ⟨?_, ?_, ?_, ?_, ?_, ?_, ?_, ?_, ?_⟩ <;> decide

theorem pastTiles_ready : Ready (.tsts ⟨0, 0, false⟩ 0) pastTilesClaimed := by
  refine ⟨?_, ?_, ?_⟩ <;> decide

/-- Refutes O39: the clause on the tags of sources lets a class-0 handle name register number 512, which HSET does not. TSTS then
reads the tag of the tile register of that number, and the statement the tag of accumulator 0: with an invalid tag there the
word issues all the same. -/
theorem not_tileChecks : ¬ Obligations.TileChecks := by
  intro h
  obtain ⟨-, -, -, htag, -⟩ := h
  have hruns := htag (.tsts ⟨0, 0, false⟩ 0) pastTilesState pastTilesClaimed ⟨0, 0, false⟩ ⟨0, 0, false⟩ ⟨0, 0, false⟩ 0 false
    ⟨0, ⟨.rne, false, false⟩, false⟩ pastTiles_runs pastTiles_claimed pastTiles_ready
  obtain ⟨-, hbad⟩ := hruns (by decide) (by decide)
  have hraise := (hbad rfl).1 rfl rfl (.inr ⟨rfl, rfl, by decide⟩)
  have hissued : (stateOr pastTilesState (exec (.tsts ⟨0, 0, false⟩ 0) pastTilesState)).cur.disp = .issued := by decide
  rw [hraise] at hissued
  exact absurd hissued (by decide)

end Sys2Proof.Machine
end

section
/-! ## Results of the scalar half (R91, R94, R95) -/
namespace Sys2Proof.Machine
variable {s : State} {i : Instr}

/-- A word whose meaning is to write one scalar has a scalar result. -/
theorem scalarResult_of_putS {d : SReg} {x : Word} {srcs : List RegName} {F : State → Word}
    (he : exec i s = .next (issueWord i s fun u => u.putS d (F u) srcs)) (hx : F s = x)
    (hb : banksOf s.cur.w s.ag i false = [] := by rfl) (hm : rmOf i = none := by rfl) : ScalarResult s i d x srcs := by
  intro hr
  refine ⟨_, he, ?_⟩
  rw [issueWord_unclaimed hr hb hm, State.putS, hx]
  simpa using wrote_result1 s (.s d) (x.setWidth 2048) (s.ag.anyPoisoned srcs) Flags.none

theorem predicateResult_of_putP {d : PReg} {x : Bool} {srcs : List RegName} {F : State → Bool}
    (he : exec i s = .next (issueWord i s fun u => u.putP d (F u) srcs)) (hx : F s = x)
    (hb : banksOf s.cur.w s.ag i false = [] := by rfl) (hm : rmOf i = none := by rfl) : PredicateResult s i d x srcs := by
  intro hr
  refine ⟨_, he, ?_⟩
  rw [issueWord_unclaimed hr hb hm, State.putP, hx]
  simpa using wrote_result1 s (.p d) ((BitVec.ofBool x).setWidth 2048) (s.ag.anyPoisoned srcs) Flags.none

end Sys2Proof.Machine
end

section
/-! ## The operations of the scalar half as arithmetic (R94) -/
namespace Sys2Proof.Machine
variable (x y : Word)

theorem mul_eq_ofInt : x * y = BitVec.ofInt 64 (x.toInt * y.toInt) := by
  rw [BitVec.ofInt_mul, BitVec.ofInt_toInt, BitVec.ofInt_toInt]

/-- The high half of a product is its quotient by 2^64, rounded down. -/
theorem mulHigh_eq_ofInt : (x.signExtend 128 * y.signExtend 128).extractLsb' 64 64 = BitVec.ofInt 64 (x.toInt * y.toInt / 2 ^ 64) := by
  have hp : x.signExtend 128 * y.signExtend 128 = BitVec.ofInt 128 (x.toInt * y.toInt) := by
    rw [BitVec.ofInt_mul]
    rfl
  rw [hp]
  generalize x.toInt * y.toInt = z
  apply BitVec.eq_of_toNat_eq
  rw [BitVec.extractLsb'_toNat, BitVec.toNat_ofInt, BitVec.toNat_ofInt, Nat.shiftRight_eq_div_pow]
  omega

theorem mulHighUnsigned_eq_ofNat :
    (x.setWidth 128 * y.setWidth 128).extractLsb' 64 64 = BitVec.ofNat 64 (x.toNat * y.toNat / 2 ^ 64) := by
  apply BitVec.eq_of_toNat_eq
  have hx := x.isLt
  have hy := y.isLt
  have hxy : x.toNat * y.toNat < 2 ^ 128 := by nlinarith
  rw [BitVec.extractLsb'_toNat, BitVec.toNat_mul, BitVec.toNat_setWidth, BitVec.toNat_setWidth, BitVec.toNat_ofNat,
    Nat.shiftRight_eq_div_pow, Nat.mod_eq_of_lt (by omega : x.toNat < 2 ^ 128), Nat.mod_eq_of_lt (by omega : y.toNat < 2 ^ 128),
    Nat.mod_eq_of_lt hxy]

theorem sshiftRight_eq_ofInt (n : Nat) : x.sshiftRight n = BitVec.ofInt 64 (x.toInt / 2 ^ n) := by
  have h := BitVec.toInt_sshiftRight (x := x) (n := n)
  rw [Int.shiftRight_eq_div_pow, Nat.cast_pow, Nat.cast_ofNat] at h
  rw [← h, BitVec.ofInt_toInt]

theorem rotateRight_eq (n : Nat) : x.rotateRight (n % 64) = x >>> (n % 64) ||| x <<< (64 - n % 64) := by
  rw [BitVec.rotateRight_eq_rotateRightAux_of_lt (Nat.mod_lt _ (by decide))]
  rfl

theorem smin_eq_ofInt : smin x y = BitVec.ofInt 64 (min x.toInt y.toInt) := by
  rw [smin, BitVec.slt_eq_decide]
  by_cases h : y.toInt < x.toInt
  · rw [min_eq_right h.le, BitVec.ofInt_toInt, if_pos (decide_eq_true h)]
  · rw [min_eq_left (not_lt.mp h), BitVec.ofInt_toInt, if_neg (by simpa using h)]

theorem smax_eq_ofInt : smax x y = BitVec.ofInt 64 (max x.toInt y.toInt) := by
  rw [smax, BitVec.slt_eq_decide]
  by_cases h : x.toInt < y.toInt
  · rw [max_eq_right h.le, BitVec.ofInt_toInt, if_pos (decide_eq_true h)]
  · rw [max_eq_left (not_lt.mp h), BitVec.ofInt_toInt, if_neg (by simpa using h)]

theorem umin_eq_ofNat : umin x y = BitVec.ofNat 64 (min x.toNat y.toNat) := by
  rw [umin, BitVec.ult_eq_decide]
  by_cases h : y.toNat < x.toNat
  · rw [min_eq_right h.le, BitVec.ofNat_toNat, BitVec.setWidth_eq, if_pos (decide_eq_true h)]
  · rw [min_eq_left (not_lt.mp h), BitVec.ofNat_toNat, BitVec.setWidth_eq, if_neg (by simpa using h)]

theorem umax_eq_ofNat : umax x y = BitVec.ofNat 64 (max x.toNat y.toNat) := by
  rw [umax, BitVec.ult_eq_decide]
  by_cases h : x.toNat < y.toNat
  · rw [max_eq_right h.le, BitVec.ofNat_toNat, BitVec.setWidth_eq, if_pos (decide_eq_true h)]
  · rw [max_eq_left (not_lt.mp h), BitVec.ofNat_toNat, BitVec.setWidth_eq, if_neg (by simpa using h)]

theorem flagWord_eq_ite {b : Bool} {p : Prop} [Decidable p] (h : b = true ↔ p) : flagWord b = if p then 1 else 0 := by
  by_cases hp : p <;> simp [flagWord, hp, h]

/-- The first one bit, from the top, follows `n` zeros. -/
theorem takeWhile_range_length {f : Nat → Bool} : ∀ {m n : Nat}, n ≤ m → (∀ j < n, f j = true) → (n = m ∨ f n = false) →
    ((List.range m).takeWhile f).length = n := by
  intro m n hn hlow hend
  obtain ⟨k, rfl⟩ := Nat.exists_eq_add_of_le hn
  rw [List.range_add, List.takeWhile_append_of_pos fun j hj => hlow j (List.mem_range.mp hj), List.length_append, List.length_range]
  cases k with
  | zero => rfl
  | succ k =>
    have h : f n = false := hend.resolve_left (by omega)
    simp [List.range_succ_eq_map, h]

theorem leadingZeros_eq {n : Nat} (hn : n ≤ 64) (hlow : ∀ j < 64, x.getLsbD (63 - j) = true → n ≤ j)
    (hend : n = 64 ∨ x.getLsbD (63 - n) = true) : leadingZeros x = n := by
  refine takeWhile_range_length hn (fun j hj => ?_) (hend.imp_right fun h => by simpa using h)
  by_contra h
  have := hlow j (by omega) (by simpa using h)
  omega

theorem popCount_eq_sum : popCount x = ((List.range 64).map fun j => (x.getLsbD j).toNat).sum := by
  rw [popCount]
  induction List.range 64 with
  | nil => rfl
  | cons j l ih => rw [List.countP_cons, List.map_cons, List.sum_cons, ih]; cases x.getLsbD j <;> simp [Nat.add_comm]

theorem immValue_eq {im : Imm 10} (h : match im with | .short v => y.toInt = v.toInt | .lit v => y = v) :
    immValue im = y := by
  cases im with
  | lit v => exact h.symm
  | short v => exact BitVec.eq_of_toInt_eq ((BitVec.toInt_signExtend_of_le (by decide)).trans h.symm)
end Sys2Proof.Machine
end

section
namespace Sys2Proof.Machine

/-- Settles O3: every form writes one scalar, whose value is an operation of the machine read as arithmetic. -/
theorem scalarForms : Obligations.ScalarForms := by
  refine ⟨?registers, ?immediates, ?codes, ?movi⟩
  case registers =>
    intro s d a b
    exact ⟨scalarResult_of_putS rfl rfl, scalarResult_of_putS rfl rfl, scalarResult_of_putS rfl (mul_eq_ofInt _ _),
      scalarResult_of_putS rfl (mulHigh_eq_ofInt _ _), scalarResult_of_putS rfl (mulHighUnsigned_eq_ofNat _ _),
      scalarResult_of_putS rfl rfl, scalarResult_of_putS rfl rfl, scalarResult_of_putS rfl rfl, scalarResult_of_putS rfl rfl,
      scalarResult_of_putS rfl rfl, scalarResult_of_putS rfl rfl, scalarResult_of_putS rfl (sshiftRight_eq_ofInt _ _),
      scalarResult_of_putS rfl (rotateRight_eq _ _), scalarResult_of_putS rfl (smin_eq_ofInt _ _),
      scalarResult_of_putS rfl (smax_eq_ofInt _ _), scalarResult_of_putS rfl (umin_eq_ofNat _ _),
      scalarResult_of_putS rfl (umax_eq_ofNat _ _), scalarResult_of_putS rfl (flagWord_eq_ite beq_iff_eq),
      scalarResult_of_putS rfl (flagWord_eq_ite BitVec.slt_iff_toInt_lt),
      scalarResult_of_putS rfl (flagWord_eq_ite BitVec.ult_iff_toNat_lt),
      fun n hn hlow hend => scalarResult_of_putS rfl (congrArg (BitVec.ofNat 64) (leadingZeros_eq _ hn hlow hend)),
      scalarResult_of_putS rfl (congrArg (BitVec.ofNat 64) (popCount_eq_sum _)), scalarResult_of_putS rfl rfl⟩
  case immediates =>
    intro s d a im y hy
    obtain rfl := immValue_eq y hy
    exact ⟨scalarResult_of_putS rfl rfl, scalarResult_of_putS rfl rfl, scalarResult_of_putS rfl rfl, scalarResult_of_putS rfl rfl,
      scalarResult_of_putS rfl rfl, scalarResult_of_putS rfl rfl, scalarResult_of_putS rfl (sshiftRight_eq_ofInt _ _),
      scalarResult_of_putS rfl (rotateRight_eq _ _), scalarResult_of_putS rfl (flagWord_eq_ite BitVec.slt_iff_toInt_lt),
      scalarResult_of_putS rfl rfl⟩
  case codes =>
    intro d a b y
    simp [encScalarHalf]
  case movi =>
    intro z b a d lit x ha hx
    simp only [decScalarHalf, Option.some.injEq] at hx
    rw [← hx]
    simp [ha]

end Sys2Proof.Machine
end

section
/-! ## Compares, bit fields and division as arithmetic (R95, R96, R102) -/
namespace Sys2Proof.Machine

theorem bne_eq_decide_ne (x y : Word) : (x != y) = decide (x ≠ y) := by
  rw [bne, beq_eq_decide, decide_not]

theorem not_slt_eq_decide (x y : Word) : (!x.slt y) = decide (y.toInt ≤ x.toInt) := by
  rw [BitVec.slt_eq_decide, ← decide_not, decide_eq_decide, not_lt]

theorem not_ult_eq_decide (x y : Word) : (!x.ult y) = decide (y.toNat ≤ x.toNat) := by
  rw [BitVec.ult_eq_decide, ← decide_not, decide_eq_decide, not_lt]

theorem getLsbD_ones (n j : Nat) (hj : j < 64) : (ones n).getLsbD j = decide (j < n) := by
  rw [ones, BitVec.getLsbD_ofNat, Nat.testBit_two_pow_sub_one]
  simp [hj]

theorem extract_eq {x a : Word} {pos len1 : Fin 64}
    (h : ∀ j < 64, x.getLsbD j = (decide (j ≤ len1.val) && a.getLsbD (pos.val + j))) :
    (a >>> pos.val) &&& ones (len1.val + 1) = x := by
  refine BitVec.eq_of_getLsbD_eq fun j hj => ?_
  rw [h j hj, BitVec.getLsbD_and, BitVec.getLsbD_ushiftRight, getLsbD_ones _ _ hj, Bool.and_comm]
  simp only [Nat.lt_succ_iff]

/-- The field's bits come from the source, the others are kept. -/
theorem insertBits_eq {x old a : Word} {pos len1 : Fin 64}
    (h : ∀ j < 64, x.getLsbD j =
      if pos.val ≤ j ∧ j ≤ pos.val + len1.val then a.getLsbD (j - pos.val) else old.getLsbD j) :
    insertBits old a pos len1 = x := by
  refine BitVec.eq_of_getLsbD_eq fun j hj => ?_
  have hmask : (ones (len1.val + 1) <<< pos.val).getLsbD j = decide (pos.val ≤ j ∧ j ≤ pos.val + len1.val) := by
    rw [BitVec.getLsbD_shiftLeft, getLsbD_ones _ _ (by omega)]
    simp only [hj, decide_true, Bool.true_and, ← decide_not, ← Bool.decide_and, decide_eq_decide]
    omega
  have hfield : ((a &&& ones (len1.val + 1)) <<< pos.val).getLsbD j =
      (decide (pos.val ≤ j ∧ j ≤ pos.val + len1.val) && a.getLsbD (j - pos.val)) := by
    rw [← hmask, BitVec.getLsbD_shiftLeft, BitVec.getLsbD_shiftLeft, BitVec.getLsbD_and, Bool.and_comm (a.getLsbD _), ← Bool.and_assoc]
  rw [h j hj, insertBits, BitVec.getLsbD_or, BitVec.getLsbD_and, BitVec.getLsbD_not, hmask, hfield]
  by_cases hin : pos.val ≤ j ∧ j ≤ pos.val + len1.val <;> simp [hin, hj]

section
variable (x y : Word)

theorem divS_eq : divS x y = if y = 0 then BitVec.allOnes 64 else BitVec.ofInt 64 (x.toInt.tdiv y.toInt) := by
  have h : x.sdiv y = BitVec.ofInt 64 (x.toInt.tdiv y.toInt) :=
    BitVec.eq_of_toInt_eq (by rw [BitVec.toInt_sdiv, BitVec.toInt_ofInt])
  rw [divS, h]

theorem divU_eq : divU x y = if y = 0 then BitVec.allOnes 64 else BitVec.ofNat 64 (x.toNat / y.toNat) := by
  have h : x / y = BitVec.ofNat 64 (x.toNat / y.toNat) := by rw [← BitVec.toNat_udiv, BitVec.ofNat_toNat, BitVec.setWidth_eq]
  rw [divU, h]

theorem remS_eq : remS x y = if y = 0 then x else BitVec.ofInt 64 (x.toInt - y.toInt * x.toInt.tdiv y.toInt) := by
  have h : x.srem y = BitVec.ofInt 64 (x.toInt - y.toInt * x.toInt.tdiv y.toInt) := by
    rw [← Int.tmod_def, ← BitVec.toInt_srem, BitVec.ofInt_toInt]
  rw [remS, h]

theorem remU_eq : remU x y = if y = 0 then x else BitVec.ofNat 64 (x.toNat % y.toNat) := by
  have h : x % y = BitVec.ofNat 64 (x.toNat % y.toNat) := by rw [← BitVec.toNat_umod, BitVec.ofNat_toNat, BitVec.setWidth_eq]
  rw [remU, h]

end

/-- A division's result waits for its delivery. -/
theorem division_runs {s : State} {i : Instr} {d a b : SReg} {f : Word → Word → Word} {q : Word} (hr : Runs i s)
    (hq : f (s.sReg a) (s.sReg b) = q) (hb : banksOf s.cur.w s.ag i false = []) (hm : rmOf i = none) :
    division i d a b f s = agentDid s { s.ag with
      pend := s.ag.pend ++ [.s d]
      ready := s.ag.ready ++ [⟨.s d, q.setWidth 2048, BitVec.allOnes 64, s.ag.anyPoisoned [.s a, .s b]⟩] } := by
  rw [division, issueWord_unclaimed hr hb hm, hq]
  rfl

end Sys2Proof.Machine
end

section
namespace Sys2Proof.Machine

/-- Settles O4: the predicate forms and the bit fields write one register, and the four divisions are `division`. -/
theorem predicatesAndBitFields : Obligations.PredicatesAndBitFields := by
  refine ⟨⟨?compares, ?logic, ?codes, by decide, by decide⟩, ?fields, ?divisions⟩
  case compares =>
    intro s d a b
    exact ⟨predicateResult_of_putP rfl (beq_eq_decide _ _), predicateResult_of_putP rfl (bne_eq_decide_ne _ _),
      predicateResult_of_putP rfl BitVec.slt_eq_decide, predicateResult_of_putP rfl (not_slt_eq_decide _ _),
      predicateResult_of_putP rfl BitVec.ult_eq_decide, predicateResult_of_putP rfl (not_ult_eq_decide _ _),
      predicateResult_of_putP rfl (bne_eq_decide_ne _ _)⟩
  case logic =>
    intro s d a b
    exact ⟨predicateResult_of_putP rfl rfl, predicateResult_of_putP rfl rfl, predicateResult_of_putP rfl rfl,
      predicateResult_of_putP rfl rfl⟩
  case codes =>
    intro d p q a b
    simp [encScalarHalf]
  case fields =>
    intro s d a pos len1 x
    exact ⟨fun h => scalarResult_of_putS rfl (extract_eq h), fun h => scalarResult_of_putS rfl (insertBits_eq h)⟩
  case divisions =>
    intro s d a b
    refine ⟨fun hr => ?_, fun hr => ?_, fun hr => ?_, fun hr => ?_⟩
    · exact congrArg _ (division_runs hr (divS_eq _ _) rfl rfl)
    · exact congrArg _ (division_runs hr (divU_eq _ _) rfl rfl)
    · exact congrArg _ (division_runs hr (remS_eq _ _) rfl rfl)
    · exact congrArg _ (division_runs hr (remU_eq _ _) rfl rfl)

end Sys2Proof.Machine
end

section
/-! ## Addresses that no page decides (R97, R129, R229, R364) -/
namespace Sys2Proof.Machine
variable {s : State} {b : Block} {va : Word} {use : Use}

theorem translate_noncanonical (h : canonical va = false) : translate s b va use = .fault cPAGE := by
  simp only [translate, h, Bool.not_false, if_true]

theorem translate_window_some {o : Nat} (hc : canonical va = true) (hw : inWindow va = true) (ho : padOffset b va = some o) :
    translate s b va use = if use = .fetch then .fault cPROT else .ok (.pad o) := by
  simp only [translate, hc, hw, ho, Bool.not_true, Bool.false_eq_true, if_false, if_true]

theorem translate_window_none (hc : canonical va = true) (hw : inWindow va = true) (ho : padOffset b va = none) :
    translate s b va use = .fault cPROT := by
  simp only [translate, hc, hw, ho, Bool.not_true, Bool.false_eq_true, if_false, if_true]

theorem translate_text {o : Nat} (hc : canonical va = true) (hw : inWindow va = false) (ht : textOffset s b va = some o) :
    translate s b va use = if use = .fetch ∨ use = .load then .ok (.text o) else .fault cPROT := by
  simp only [translate, hc, hw, ht, Bool.not_true, Bool.false_eq_true, if_false]
  cases use <;> rfl

theorem canonical_eq_false (h0 : va.extractLsb' 55 9 ≠ 0) (h1 : va.extractLsb' 55 9 ≠ 0x1FF) : canonical va = false := by
  simp only [canonical, Bool.or_eq_false_iff, beq_eq_false_iff_ne]
  exact ⟨h0, h1⟩

/-- An address below 2^55 is canonical. -/
theorem canonical_of_lt (h : va.toNat < 2 ^ 55) : canonical va = true := by
  have h0 : va.extractLsb' 55 9 = 0#9 := BitVec.eq_of_toNat_eq (by
    rw [BitVec.extractLsb'_toNat, Nat.shiftRight_eq_div_pow, Nat.div_eq_of_lt h]
    rfl)
  simp [canonical, h0]

theorem inWindow_eq_false (h : va.toNat / 2 ^ 48 ≠ 15) : inWindow va = false := by simpa [inWindow] using h

/-- The core and the offset that an address of the window range names (R150). -/
theorem windowCore_eq : windowCore va = (va.extractLsb' 24 24).toNat := by
  rw [windowCore, BitVec.extractLsb'_toNat, Nat.shiftRight_eq_div_pow]
  omega

theorem windowOff_eq : windowOff va = (va.extractLsb' 0 24).toNat := by
  rw [windowOff, BitVec.extractLsb'_toNat, Nat.shiftRight_zero]

theorem padOffset_eq : padOffset b va = if (windowCore va = b.core ∨ windowCore va = b.mig.lcore.toNat) ∧ 0x200000 ≤ windowOff va ∧
    windowOff va < 0x400000 ∧ (windowOff va - 0x200000) / 256 < b.sprows then some (windowOff va - 0x200000) else none := by
  simp only [padOffset, ownWindow, Bool.or_eq_true, beq_iff_eq]

/-- A text that the slot maps has an offset, in the block's own text or past it. -/
theorem exists_textOffset {x : Slot} {m : TextMap} (hs : slotOfBlock s b = some x) (hm : m ∈ x.maps) (hlo : m.va.toNat ≤ va.toNat)
    (hhi : va.toNat < m.va.toNat + m.size) : ∃ o, textOffset s b va = some o := by
  by_cases ht : inText b va = true
  · exact ⟨_, if_pos ht⟩
  · have hfound : (x.maps.find? fun m => decide (m.va.toNat ≤ va.toNat) && decide (va.toNat < m.va.toNat + m.size)).isSome = true :=
      List.find?_isSome.mpr ⟨m, hm, by simp [hlo, hhi]⟩
    obtain ⟨y, hy⟩ := Option.isSome_iff_exists.mp hfound
    exact ⟨_, by rw [textOffset, if_neg ht, hs, Option.bind_some, hy, Option.map_some]⟩

/-- Settles O7: `translate` decides an address by its form, then by the window range, then by the texts. -/
theorem addressRules : Obligations.AddressRules := by
  intro s b va use
  refine ⟨fun h0 h1 => translate_noncanonical (canonical_eq_false h0 h1), ?window, ?own, ?mapped⟩
  case window =>
    intro hlo hhi
    have hw : inWindow va = true := by simp only [inWindow, beq_iff_eq]; omega
    have hc : canonical va = true := canonical_of_lt (by omega)
    rw [← windowCore_eq, ← windowOff_eq]
    by_cases hin : (windowCore va = b.core ∨ windowCore va = b.mig.lcore.toNat) ∧ 0x200000 ≤ windowOff va ∧
        windowOff va < 0x400000 ∧ (windowOff va - 0x200000) / 256 < b.sprows
    · rw [translate_window_some hc hw (padOffset_eq.trans (if_pos hin))]
      by_cases hf : use = .fetch <;> simp [hin, hf]
    · rw [translate_window_none hc hw (padOffset_eq.trans (if_neg hin))]
      exact (if_neg (hin ∘ And.right)).symm
  case own =>
    intro hc hw hlo hhi
    have ht : inText b va = true := by simp [inText, hlo, hhi]
    rw [translate_text hc (inWindow_eq_false hw) (if_pos ht)]
    cases use <;> rfl
  case mapped =>
    intro x m hc hw hs hm hlo hhi
    obtain ⟨o, ho⟩ := exists_textOffset hs hm hlo hhi
    rw [translate_text hc (inWindow_eq_false hw) ho]
    exact ⟨fun hu => ⟨o, if_pos hu⟩, by rintro (rfl | rfl) <;> rfl⟩

end Sys2Proof.Machine
end

section
/-! ## Engine ports (R103, R204) -/
namespace Sys2Proof.Machine
variable {s : State} {r : SReg} {n : Fin 4}

/-- An access to a port joins those of the agent, and marks the register that it fills. -/
theorem portAccess_setPort (p : Port) (k : AccessKind) (reg : Option RegName) :
    (s.setBlk (s.blk.setPort n p)).portAccess k reg = blockDid s { s.ag with
        pend := s.ag.pend ++ reg.toList
        accs := s.ag.accs ++ [⟨k, .phys 0⟩] } { s.blk with ports := s.blk.ports.set n p } := by
  cases reg with
  | none => simp only [State.portAccess, Agent.mark, Option.toList_none, List.append_nil]; rfl
  | some r => rfl

theorem exec_fpush_poisoned (hr : Runs (.fpush r n) s) (hp : s.ag.poisoned (.s r) = true) :
    exec (.fpush r n) s = .next (s.raise cPOISON (BitVec.ofNat 64 r.val)) := by
  rw [exec_fpush, execFpush, issueWord_unclaimed hr rfl rfl, checkPoison_of_poisoned hp]
  rfl

/-- The places taken in the FIFO that a push of the agent in focus fills. -/
def pushTaken (s : State) (n : Fin 4) : Nat :=
  let p := s.blk.ports[n]
  if s.cur.w = 4 then p.res.length + p.resSlots else p.cmd.length + p.cmdSlots

/-- The port with one more of them reserved. -/
def pushReserved (s : State) (n : Fin 4) : Port :=
  let p := s.blk.ports[n]
  if s.cur.w = 4 then { p with resSlots := p.resSlots + 1 } else { p with cmdSlots := p.cmdSlots + 1 }

/-- A clean FPUSH takes a place of the FIFO that its agent fills, or waits. -/
theorem exec_fpush_clean (hr : Runs (.fpush r n) s) (hp : s.ag.poisoned (.s r) = false) :
    exec (.fpush r n) s = .next (if pushTaken s n < 16
      then (s.setBlk (s.blk.setPort n (pushReserved s n))).portAccess (.push n (s.sReg r)) none else s.waits) := by
  rw [exec_fpush, execFpush, issueWord_unclaimed hr rfl rfl, checkPoison_singleton hp]
  by_cases hw : s.cur.w = 4 <;> simp only [State.isMP, beq_iff_eq, pushTaken, pushReserved, hw, if_true, if_false]

/-- FPOP claims an element of the FIFO that its agent empties, where one is unclaimed. -/
theorem exec_fpop_ready (hr : Runs (.fpop r n) s)
    (h : if s.cur.w = 4 then (s.blk.ports[n]).cmdClaims < (s.blk.ports[n]).cmd.length
      else (s.blk.ports[n]).resClaims < (s.blk.ports[n]).res.length) :
    exec (.fpop r n) s = .next (
      let p := s.blk.ports[n]
      let q := if s.cur.w = 4 then { p with cmdClaims := p.cmdClaims + 1 } else { p with resClaims := p.resClaims + 1 }
      (s.setBlk (s.blk.setPort n q)).portAccess (.pop n r) (some (.s r))) := by
  rw [exec_fpop, execFpop, issueWord_unclaimed hr rfl rfl]
  by_cases hw : s.cur.w = 4 <;>
    simp_all only [State.isMP, beq_iff_eq, Port.cmdReady, Port.resReady, decide_true, if_true, if_false]

/-- Settles O8: the access that a port word leaves, on the port with its place or its element taken. -/
theorem enginePorts : Obligations.EnginePorts := by
  intro s r n p Ports
  refine ⟨fun hr hp h => ?room, exec_fpush_poisoned, fun hr h => ?pop, fun hr hp h => ?full⟩
  case room =>
    rw [exec_fpush_clean hr hp, if_pos (show pushTaken s n < 16 from h), portAccess_setPort, Option.toList_none, List.append_nil]
    rfl
  case pop =>
    rw [exec_fpop_ready hr h]
    exact congrArg _ (portAccess_setPort _ _ _)
  case full =>
    rw [exec_fpush_clean hr hp, if_neg (show ¬ pushTaken s n < 16 from not_lt.mpr h)]
    rfl

end Sys2Proof.Machine
end

section
/-! ## Transfers and the words that steer the stream (R104 to R108, R110, R115 to R117) -/
namespace Sys2Proof.Machine
variable {s : State} {i : Instr} {a : SReg} {r : RegName}

/-- A word that checks one scalar has its effect on the state as it is, where the scalar is clean. -/
theorem issueWord_checked {f : State → State} (hr : Runs i s) (hp : s.ag.poisoned r = false)
    (hb : banksOf s.cur.w s.ag i false = [] := by rfl) (hm : rmOf i = none := by rfl) :
    issueWord i s (fun s => s.checkPoison [r] f) = f s := by
  rw [issueWord_unclaimed hr hb hm, checkPoison_singleton hp]

/-- A scalar result of no register of the word is clean. -/
theorem wrote_putS_unsourced (u : State) (d : SReg) (x : Word) : Wrote u (u.putS d x []) (.s d) (x.setWidth 2048) false Flags.none := by
  simpa [State.putS, Agent.anyPoisoned] using wrote_result1 u (.s d) (x.setWidth 2048) false Flags.none

/-- A CONTROL or SYSTEM word that runs does not stand under a REP (R106). -/
theorem Runs.rep_eq_none (hr : Runs i s) (hi : isControlSystem i = true) : s.ag.rep = none := by
  by_contra h
  have hsome : s.ag.rep.isSome = true := Option.isSome_iff_ne_none.mpr h
  have hc := hr.checked
  simp only [checks, hsome, hi, Bool.and_self, if_true] at hc
  split at hc <;> (try split at hc) <;> contradiction

/-- Without a REP a word passes with its own cycles, and control goes on. -/
theorem Agent.pass_of_rep_none {x : Agent} (h : x.rep = none) (w : Nat) (next : Word) :
    x.pass w next = { x.ticks (1 + w) with pc := next } := by
  simp only [Agent.pass, Agent.ticks_rep, h]

theorem exec_loop_clean {off : BitVec 34} (hr : Runs (.loop a off) s) (hp : s.ag.poisoned (.s a) = false) :
    exec (.loop a off) s = .next (({ s with cur := { s.cur with
      next := if s.sReg a = 1 then s.cur.next else targetOf s.cur.pc off } } : State).putS a (s.sReg a - 1) []) := by
  rw [exec_loop, execLoop, issueWord_checked hr hp]
  by_cases h : s.sReg a = 1
  · simp only [h, sub_self, if_true]
  · simp only [if_neg h, sub_eq_zero, State.goto]

theorem exec_rep_clean (hr : Runs (.rep a) s) (hp : s.ag.poisoned (.s a) = false) :
    exec (.rep a) s = .next { s with
      ag := { s.ag.ticks (1 + s.cur.hdr.w.val) with
        pc := s.cur.next
        rep := some ((s.sReg a).toNat % 2 ^ 32) }
      cur := { s.cur with disp := .done } } := by
  rw [exec_rep, execRep, issueWord_checked hr hp]
  simp only [State.passed, Agent.pass_of_rep_none (hr.rep_eq_none rfl)]
  rfl

/-- A word that waits for a tick waits until the tick is reached. -/
theorem exec_waitt_clean (hr : Runs (.waitt a) s) (hp : s.ag.poisoned (.s a) = false) :
    exec (.waitt a) s = .next (if (s.tbase - s.sReg a).toNat < 2 ^ 63 then s.issued else s.waits) := by
  rw [exec_waitt, execWaitt, issueWord_checked hr hp]
  simp only [reached, decide_eq_true_eq]

theorem exec_timed_clean {off : BitVec 34} (hr : Runs (.timed a off) s) (hp : s.ag.poisoned (.s a) = false) :
    exec (.timed a off) s = .next (if (s.tbase - s.sReg a).toNat < 2 ^ 63 then (openRegion s (s.sReg a) off).issued else s.waits) := by
  rw [exec_timed, execTimed, issueWord_checked hr hp]
  simp only [reached, decide_eq_true_eq]

theorem openRegion_eq {start : Word} {off : BitVec 34} : openRegion s start off =
    if off.toInt < 2 then s else s.setCtl { s.ag.ctl with tslip := { s.ag.ctl.tslip with
      cur := 0
      region := some (s.cur.next, targetOf s.cur.pc off)
      late := s.ag.ctl.tslip.late || decide (4 < (s.tbase - start).toNat)
      due := none } } := by
  have h : (2 : BitVec 34).toInt = 2 := rfl
  simp only [openRegion, BitVec.slt_iff_toInt_lt, h]

theorem exec_fenceh_runs (hr : Runs .fenceh s) : exec .fenceh s = .next (if s.ag.accs = [] then s.issued else s.waits) := by
  rw [exec_fenceh, execFenceh, issueWord_unclaimed hr rfl rfl]
  simp only [List.isEmpty_iff]

/-- Settles O28: each word's meaning, on the state that it issues from. -/
theorem transfersAndStreamWords : Obligations.TransfersAndStreamWords := by
  refine ⟨?transfers, ?stream⟩
  case transfers =>
    intro s a off
    refine ⟨fun hr => ?br, fun hr hp => ?jmp, fun hr hp => ?ret, fun hr => ?call, fun hr hp => ?loop⟩
    case br => exact congrArg Host.Outcome.next (issueWord_unclaimed hr rfl rfl)
    case jmp => exact congrArg Host.Outcome.next (issueWord_checked hr hp)
    case ret => exact congrArg Host.Outcome.next (issueWord_checked hr hp)
    case call => exact ⟨_, congrArg Host.Outcome.next (issueWord_unclaimed hr rfl rfl), wrote_putS_unsourced _ _ _⟩
    case loop => exact ⟨_, exec_loop_clean hr hp, wrote_putS_unsourced _ _ _⟩
  case stream =>
    intro s a off m4 m8 n
    refine ⟨fun hp hr => exec_rep_clean hr hp, fun hr => ?syncm, fun hr => ?waiti, fun hp hr => ?seed, fun hp hr => ?waitt,
      fun hp hr => ?timed, fun hr => ?fenceh⟩
    case syncm => exact congrArg Host.Outcome.next (issueWord_unclaimed hr rfl rfl)
    case waiti => exact congrArg Host.Outcome.next (issueWord_unclaimed hr rfl rfl)
    case seed => exact congrArg Host.Outcome.next (issueWord_checked hr hp)
    case waitt =>
      have he := exec_waitt_clean hr hp
      exact ⟨fun h => he.trans (congrArg _ (if_pos h)), fun h => he.trans (congrArg _ (if_neg h))⟩
    case timed =>
      have he := exec_timed_clean hr hp
      rw [openRegion_eq] at he
      refine ⟨fun h hoff => he.trans ?_, fun h hoff => he.trans ?_, fun h => he.trans (congrArg _ (if_neg h))⟩
      · rw [if_pos h, if_pos hoff]; rfl
      · rw [if_pos h, if_neg (not_lt.mpr hoff)]; rfl
    case fenceh =>
      have he := exec_fenceh_runs hr
      exact ⟨fun h => he.trans (congrArg _ (if_pos h)), fun h => he.trans (congrArg _ (if_neg h))⟩

end Sys2Proof.Machine
end

section
/-! ## Keyed lists that are filtered, or copied into (R119, R172) -/
namespace Sys2Proof.Machine
variable {α : Type}

theorem getKey_filter_key (q : Nat → Bool) (n : Nat) : ∀ l : List (Nat × α),
    getKey (l.filter fun p => q p.1) n = if q n then getKey l n else none
  | [] => by simp [getKey]
  | (k, v) :: r => by
    by_cases hk : k = n
    · subst hk
      cases hq : q k <;> simp [getKey, hq, getKey_filter_key q k r]
    · cases hq : q k <;> simp [getKey, hq, hk, getKey_filter_key q n r]

theorem getKey_eq_none_of_not_mem {l : List (Nat × α)} {n : Nat} (h : ∀ p ∈ l, p.1 ≠ n) : getKey l n = none := by
  induction l with
  | nil => rfl
  | cons p r ih =>
    rw [getKey, if_neg (h p (by simp)), ih fun q hq => h q (by simp [hq])]

theorem getKey_foldl_putKey_absent {n : Nat} : ∀ (l acc : List (Nat × α)), (∀ p ∈ l, p.1 ≠ n) →
    getKey (l.foldl (fun acc p => putKey acc p.1 p.2) acc) n = getKey acc n
  | [], _, _ => rfl
  | p :: r, acc, h => by
    rw [List.foldl_cons, getKey_foldl_putKey_absent r _ fun q hq => h q (by simp [hq]),
      getKey_putKey_other _ _ _ _ (h p (by simp)).symm]

/-- Of keys that are put in turn, each once, the list they come from tells the value. -/
theorem getKey_foldl_putKey {n : Nat} : ∀ (l acc : List (Nat × α)), (l.map (·.1)).Nodup →
    getKey (l.foldl (fun acc p => putKey acc p.1 p.2) acc) n = (getKey l n).or (getKey acc n)
  | [], _, _ => rfl
  | (k, v) :: r, acc, h => by
    obtain ⟨hk, hr⟩ := List.nodup_cons.mp h
    by_cases hn : k = n
    · subst hn
      have habsent : ∀ p ∈ r, p.1 ≠ k := by
        rintro p hp rfl
        exact hk (List.mem_map.mpr ⟨p, hp, rfl⟩)
      rw [List.foldl_cons, getKey_foldl_putKey_absent r _ habsent, getKey_putKey_self, getKey, if_pos rfl, Option.some_or]
    · rw [List.foldl_cons, getKey_foldl_putKey r _ hr, getKey_putKey_other _ _ _ _ (Ne.symm hn), getKey, if_neg hn]

section
variable {l : List (Nat × α)} {inBank : Nat → Bool}

theorem getKey_replaceBank_nil (n : Nat) : getKey (replaceBank l inBank []) n = if inBank n then none else getKey l n := by
  rw [replaceBank, List.foldl_nil, getKey_filter_key fun n => !inBank n]
  cases inBank n <;> rfl

/-- The keys of the bank are the copy's, the others are kept. -/
theorem getKey_replaceBank {copy : List (Nat × α)} (hnodup : (copy.map (·.1)).Nodup) (hin : ∀ p ∈ copy, inBank p.1 = true) (n : Nat) :
    getKey (replaceBank l inBank copy) n = if inBank n then getKey copy n else getKey l n := by
  rw [replaceBank, getKey_foldl_putKey _ _ hnodup, getKey_filter_key fun n => !inBank n]
  cases hn : inBank n with
  | true => simp
  | false =>
    have hcopy : getKey copy n = none := getKey_eq_none_of_not_mem fun p hp he => by simp [← he, hin p hp] at hn
    simp [hcopy]

end

end Sys2Proof.Machine
end

section
/-! ## TLBINV (R118, R237) -/
namespace Sys2Proof.Machine
variable {s : State} {a : SReg} {scope : Fin 4}

/-- One core keeps the translations that the agent in focus lets it keep. -/
def keepTlb (f : Agent → TlbEntry → Bool) (s : State) (c : Nat) : State :=
  s.setCore c { s.core c with tlb := (s.core c).tlb.filter (f s.ag) }

theorem foldl_keepTlb_frame (f : Agent → TlbEntry → Bool) : ∀ (l : List Nat) (s : State),
    l.foldl (keepTlb f) s = { s with cores := (l.foldl (keepTlb f) s).cores }
  | [], _ => rfl
  | c :: r, s => by
    rw [List.foldl_cons, foldl_keepTlb_frame f r]
    rfl

theorem core_foldl_keepTlb (f : Agent → TlbEntry → Bool) (c : Nat) : ∀ (l : List Nat) (s : State),
    (l.foldl (keepTlb f) s).core c = if c ∈ l then { s.core c with tlb := (s.core c).tlb.filter (f s.ag) } else s.core c
  | [], _ => by simp
  | d :: r, s => by
    rw [List.foldl_cons, core_foldl_keepTlb f c r, keepTlb, State.core_setCore, State.setCore_ag]
    by_cases hd : c = d
    · subst hd
      by_cases hr : c ∈ r <;> simp [hr, List.filter_filter]
    · simp [hd]

theorem mem_scopeCores {c : Nat} : c ∈ scopeCores s scope ↔ c = s.blk.core ∨ scope.val % 2 = 1 ∧ c ∈ (s.part s.blk.part).cores := by
  by_cases h : scope.val % 2 = 1
  · by_cases hc : c = s.blk.core <;> simp [scopeCores, h, hc]
  · simp [scopeCores, h]

theorem inScope_iff {va : Word} {e : TlbEntry} {part : Nat} :
    inScope scope va e part = true ↔ e.part = part ∧ (2 ≤ scope.val ∨ e.covers part va = true) := by
  simp [inScope]

theorem exec_tlbinv_clean (hr : Runs (.tlbinv a scope) s) (hp : s.ag.poisoned (.s a) = false) (ha : s.ag.accs = [])
    (hw : walkOpen s scope (s.sReg a) (scopeCores s scope) = false) :
    exec (.tlbinv a scope) s = .next ((scopeCores s scope).foldl (keepTlb fun x e => !inScope scope (x.getS a) e s.blk.part)
      { s with engWalks := s.engWalks.filter fun k => k.part != s.blk.part }).issued := by
  rw [exec_tlbinv, execTlbinv, issueWord_checked hr hp]
  simp only [ha, List.isEmpty_nil, hw, Bool.not_true, Bool.or_self, Bool.false_eq_true, if_false]
  rfl

end Sys2Proof.Machine
end

section
/-! ## BANKSV, BANKLD and PCMD (R119, R120, R172, R338) -/
namespace Sys2Proof.Machine
variable {s : State} {a : SReg} {bank : Fin 16} {kind : Fin 4} {c : Core}

theorem withBank_claims {f : State → State} {n k : Nat} (hheld : bankHeld s s.blk.core s.cur.b s.blk s.agentList k n = false)
    (hworks : s.blk.worksHold k n = false) (hc : (s.core s.blk.core).claim? s.blk.slot k n = some c) :
    withBank n k s f = f (s.setCore s.blk.core c) := by
  simp only [withBank, hheld, hworks, Bool.or_self, Bool.false_eq_true, if_false, hc]

/-- The place of a read does not depend on the lines that the host gives up. -/
theorem readLoc_snoopLoc (l k : Loc) (n m : Nat) : readLoc (s.snoopLoc l n) k m = readLoc s k m := by
  cases l <;> rfl

section
variable (hr : Runs (.pcmd a) s) (hp : s.ag.poisoned (.s a) = false) (ha : s.ag.accs = [])
include hr hp ha

theorem exec_pcmd_misplaced (h : (s.sReg a).toNat % 256 ≠ 0 ∨ (canonical (s.sReg a) = true ∧ inWindow (s.sReg a) = true)) :
    exec (.pcmd a) s = .next (s.raise cPROT (s.sReg a)) := by
  rw [exec_pcmd, execPcmd, issueWord_checked hr hp]
  simp only [ha, List.isEmpty_nil, Bool.not_true, Bool.false_eq_true, if_false, if_pos h]

section
variable (hva : (s.sReg a).toNat % 256 = 0) (hw : (canonical (s.sReg a) && inWindow (s.sReg a)) = false)
include hva hw

theorem exec_pcmd_fault {c : BitVec 8} (ht : translate s s.blk (s.sReg a) .load = .fault c) :
    exec (.pcmd a) s = .next (s.raise c (s.sReg a)) := by
  rw [← Bool.not_eq_true, Bool.and_eq_true] at hw
  rw [exec_pcmd, execPcmd, issueWord_checked hr hp]
  simp only [ha, List.isEmpty_nil, Bool.not_true, Bool.false_eq_true, if_false, hva, ne_eq, not_true, false_or, if_neg hw, ht]

theorem exec_pcmd_ok {l : Loc} (ht : translate s s.blk (s.sReg a) .load = .ok l) :
    exec (.pcmd a) s = .next (if (readLoc s l 256).2 then (s.snoopLoc l 256).raise cPOISON (s.sReg a)
      else { s.snoopLoc l 256 with
        pcmds := s.pcmds ++ [⟨s.blk.part, s.sReg a⟩]
        cur := { s.cur with disp := .issued } }) := by
  rw [← Bool.not_eq_true, Bool.and_eq_true] at hw
  rw [exec_pcmd, execPcmd, issueWord_checked hr hp]
  simp only [ha, List.isEmpty_nil, Bool.not_true, Bool.false_eq_true, if_false, hva, ne_eq, not_true, false_or, if_neg hw, ht,
    readLoc_snoopLoc]
  cases l <;> rfl

end

end

theorem exec_banksv_claims (hr : Runs (.banksv bank kind) s)
    (hheld : bankHeld s s.blk.core s.cur.b s.blk s.agentList kind.val bank.val = false)
    (hworks : s.blk.worksHold kind.val bank.val = false) (hc : (s.core s.blk.core).claim? s.blk.slot kind.val bank.val = some c) :
    exec (.banksv bank kind) s = .next (blockDid (s.setCore s.blk.core c) s.ag
      (s.blk.saveBank kind.val bank.val ((s.agent bank.val).v, (s.agent bank.val).vPoison))) := by
  rw [exec_banksv, execBanksv, issueWord_unclaimed hr rfl rfl, withBank_claims hheld hworks hc]
  rfl

theorem loadVectors_own {n : Nat} (h : n = s.cur.w) : loadVectors s n = s.setAg { s.ag with
    v := ((getKey s.blk.savedVecs n).getD (Vector.replicate 16 0, 0)).1
    vPoison := ((getKey s.blk.savedVecs n).getD (Vector.replicate 16 0, 0)).2 } := if_pos h

theorem loadVectors_other {n : Nat} (h : n ≠ s.cur.w) : loadVectors s n = s.setBlk { s.blk with
    agents := s.blk.agents.set (n % 5) { s.agent n with
      v := ((getKey s.blk.savedVecs n).getD (Vector.replicate 16 0, 0)).1
      vPoison := ((getKey s.blk.savedVecs n).getD (Vector.replicate 16 0, 0)).2 } (Nat.mod_lt _ (by decide)) } := if_neg h

theorem exec_bankld_claims (hr : Runs (.bankld bank kind) s)
    (hheld : bankHeld s s.blk.core s.cur.b s.blk s.agentList kind.val bank.val = false)
    (hworks : s.blk.worksHold kind.val bank.val = false) (hc : (s.core s.blk.core).claim? s.blk.slot kind.val bank.val = some c) :
    exec (.bankld bank kind) s = .next (let u := s.setCore s.blk.core c
      if kind.val = 2 then (loadVectors u bank.val).issued else blockDid u s.ag (s.blk.loadBank kind.val bank.val)) := by
  rw [exec_bankld, execBankld, issueWord_unclaimed hr rfl rfl, withBank_claims hheld hworks hc]
  by_cases h : kind.val = 2
  · simp only [h, if_true]
  · simp only [h, if_false]
    rfl

/-- Settles O33: TLBINV filters the translations of the cores that its scope names; BANKSV and BANKLD act on the state that
their claim leaves; PCMD checks the place of its command, and then its data. -/
theorem systemWords : Obligations.SystemWords := by
  intro s a scope kind bank b va
  refine ⟨?tlbinv, ?banks, ?pcmd⟩
  case tlbinv =>
    rintro i rfl hr hp ha named hw
    have hcore := fun c => core_foldl_keepTlb (fun x e => !inScope scope (x.getS a) e b.part) c (scopeCores s scope)
      { s with engWalks := s.engWalks.filter fun k => k.part != b.part }
    refine ⟨_, exec_tlbinv_clean hr hp ha hw, fun c e hc => ?dropped, fun c hc => ?kept, fun c => ?tlb, ?frame⟩
    case dropped =>
      have htlb := congrArg Core.tlb ((hcore c).trans (if_pos (mem_scopeCores.mpr hc)))
      refine (iff_of_eq (congrArg (e ∈ ·) htlb)).trans ?_
      simp only [List.mem_filter, Bool.not_eq_true', ← Bool.not_eq_true, inScope_iff]
      rfl
    case kept => exact (hcore c).trans (if_neg (mt mem_scopeCores.mp hc))
    case tlb =>
      by_cases hc : c ∈ scopeCores s scope
      · have h := (hcore c).trans (if_pos hc)
        exact h.trans (congrArg (fun x : Core => { s.core c with tlb := x.tlb }) h.symm)
      · have h := (hcore c).trans (if_neg hc)
        exact h.trans (congrArg (fun x : Core => { s.core c with tlb := x.tlb }) h.symm)
    case frame => exact congrArg State.issued (foldl_keepTlb_frame _ _ _)
  case banks =>
    intro c hheld hworks hc u
    refine ⟨fun hr => ?save, fun hr => ⟨fun hk => ?tiles, fun hk => ?accs, fun hk hw => ?own, fun hk hw => ?other⟩⟩
    case save =>
      rw [exec_banksv_claims hr hheld hworks hc]
      fin_cases kind <;> rfl
    case tiles =>
      subst hk
      refine ⟨_, exec_bankld_claims hr hheld hworks hc, fun hnone n => ?_, fun l hl hnodup hin n => ?_⟩
      all_goals show getKey (replaceBank b.tiles (fun t => t / 64 == bank.val) ((getKey b.savedTiles bank.val).getD [])) n = _
      · rw [hnone, Option.getD_none, getKey_replaceBank_nil]
        simp only [beq_iff_eq]
      · rw [hl, Option.getD_some, getKey_replaceBank hnodup (by simpa using hin)]
        simp only [beq_iff_eq]
    case accs =>
      subst hk
      refine ⟨_, exec_bankld_claims hr hheld hworks hc, fun hnone n => ?_, fun l hl hnodup hin n => ?_⟩
      all_goals show getKey (replaceBank b.accs (fun t => t / 8 == bank.val) ((getKey b.savedAccs bank.val).getD [])) n = _
      · rw [hnone, Option.getD_none, getKey_replaceBank_nil]
        simp only [beq_iff_eq]
      · rw [hl, Option.getD_some, getKey_replaceBank hnodup (by simpa using hin)]
        simp only [beq_iff_eq]
    case own =>
      subst hk
      refine (exec_bankld_claims hr hheld hworks hc).trans (congrArg Host.Outcome.next ?_)
      exact congrArg State.issued (loadVectors_own (s := u) hw)
    case other =>
      subst hk
      refine ⟨_, (exec_bankld_claims hr hheld hworks hc).trans
        (congrArg (fun t : State => Host.Outcome.next t.issued) (loadVectors_other (s := u) hw)), rfl, fun w => ?_⟩
      refine (Vector.getElem_set_fin b.agents ⟨bank.val % 5, Nat.mod_lt _ (by decide)⟩ w _).trans ?_
      simp only [Fin.ext_iff, eq_comm]
      rfl
  case pcmd =>
    rintro i l rfl hr hp ha
    refine ⟨fun h => exec_pcmd_misplaced hr hp ha (.inl h), fun hc hw => exec_pcmd_misplaced hr hp ha (.inr ⟨hc, hw⟩),
      fun c hva hw ht => exec_pcmd_fault hr hp ha hva hw ht, fun hva hw ht => ?ok⟩
    have he := exec_pcmd_ok hr hp ha hva hw ht
    exact ⟨fun hpoison => he.trans (congrArg _ (if_pos hpoison)), fun hpoison => he.trans (congrArg _ (if_neg (by rw [hpoison]; decide)))⟩

end Sys2Proof.Machine
end

section
/-! ## The timetable at a MARK (R274 to R277) -/
namespace Sys2Proof.Machine

theorem getD_setCount (l : List Nat) (j v i : Nat) : (setCount l j v).getD i 0 = if i = j then v % 2 ^ 32 else l.getD i 0 := by
  rw [List.getD_eq_getElem?_getD, setCount, List.getElem?_map]
  by_cases hi : i < max l.length (j + 1)
  · rw [List.getElem?_range hi, Option.map_some, Option.getD_some]
  · rw [List.getElem?_eq_none (by simpa using hi), Option.map_none, Option.getD_none, if_neg (by omega),
      List.getD_eq_default _ _ (by omega)]

/-- The entries of a stream that a marker picks, with their numbers. -/
def picked (tt : List TtEntry) (w : Nat) (f : TtEntry → Bool) : List (TtEntry × Nat) :=
  (tt.zipIdx.filter fun p => p.1.stream == w).filter fun p => f p.1

section
variable {tt : List TtEntry} {w : Nat} {f : TtEntry → Bool}

theorem mem_picked {e : TtEntry} {j : Nat} : (e, j) ∈ picked tt w f ↔ tt[j]? = some e ∧ e.stream = w ∧ f e = true := by
  simp only [picked, List.mem_filter, List.mem_zipIdx_iff_getElem?, beq_iff_eq, and_assoc]

theorem mem_map_picked {j : Nat} : j ∈ (picked tt w f).map Prod.snd ↔ ∃ e, tt[j]? = some e ∧ e.stream = w ∧ f e = true := by
  simp only [List.mem_map, Prod.exists, mem_picked, exists_eq_right]

theorem picked_nodup : ((picked tt w f).map Prod.snd).Nodup := by
  have hsub : ((picked tt w f).map Prod.snd).Sublist (tt.zipIdx.map Prod.snd) :=
    (List.filter_sublist.trans List.filter_sublist).map _
  exact hsub.nodup (by rw [List.zipIdx_map_snd]; exact List.nodup_range')

end

/-- A list of counters after each counter of a list of numbers has grown. -/
def Counted (l r : List Nat) (js : List Nat) : Prop :=
  ∀ i, r.getD i 0 = if i ∈ js then (l.getD i 0 + 1) % 2 ^ 32 else l.getD i 0

theorem Counted.cons {l r : List Nat} {j : Nat} {js : List Nat} (hj : j ∉ js)
    (h : Counted (setCount l j (l.getD j 0 + 1)) r js) : Counted l r (j :: js) := by
  intro i
  rw [h i, getD_setCount]
  by_cases hi : i = j
  · rw [hi, if_neg hj, if_pos rfl, if_pos List.mem_cons_self]
  · simp only [List.mem_cons, hi, false_or, if_false]

/-- What the checks of some entries leave of a block: each counts one more, and Umber's channel has lost transfers. -/
structure ChecksPassed (b r : Block) (l : List (TtEntry × Nat)) : Prop where
  count : Counted b.ttC r.ttC (l.map Prod.snd)
  chans : ∀ n : Fin 5, n ≠ 4 → r.chans[n] = b.chans[n]
  frame : r = { b with
    ttC := r.ttC
    chans := r.chans }

theorem chans_setChan_other (b : Block) (c : Chan) {n : Fin 5} (hn : n ≠ 4) : (b.setChan 4 c).chans[n] = b.chans[n] :=
  (Vector.getElem_set_fin _ 4 n _).trans (if_neg (Ne.symm hn))

theorem chans_setChan_self (b : Block) (c : Chan) : (b.setChan 4 c).chans[4] = c :=
  (Vector.getElem_set_fin _ 4 4 _).trans (if_pos rfl)

theorem foldl_passCheck : ∀ (l : List (TtEntry × Nat)) (b : Block), (l.map Prod.snd).Nodup →
    ChecksPassed b (l.foldl (fun b p => passCheck b p.2) b) l
  | [], b, _ => ⟨fun i => by simp, fun _ _ => rfl, rfl⟩
  | p :: l, b, h => by
    obtain ⟨hp, hl⟩ := List.nodup_cons.mp h
    obtain ⟨hcount, hchans, hframe⟩ := foldl_passCheck l (passCheck b p.2) hl
    refine ⟨Counted.cons hp hcount, fun n hn => (hchans n hn).trans (chans_setChan_other _ _ hn), ?_⟩
    rw [List.foldl_cons, hframe]
    rfl

/-- The transfer that fires the move of entry j. -/
def movedBy (b : Block) (j : Nat) (e : TtEntry) : Transfer :=
  let n := b.ttF.getD j 0
  { Transfer.start b.chans[4].next (if e.kind = 1
      then .toItem .d1 ⟨0, e.dst.toNat % 512, e.dst.extractLsb' 16 16 + BitVec.ofNat 16 n, e.dst.extractLsb' 32 4,
        BitVec.ofNat 10 b.core⟩ 0 true
      else .mem .d1) with
    size := e.len
    desc := { Desc.zero with
      src := stepped b e.src e.sstep n e.rsrc
      dst := if e.kind = 0 then stepped b e.dst e.dstep n e.rdst else 0
      len := e.len
      param := BitVec.ofNat 64 j
      param2 := BitVec.ofNat 64 n } }

/-- The block with a transfer of Umber's channel added for entry j. -/
def joinMove (b : Block) (j : Nat) (x : Transfer) : Block :=
  { b with ttF := setCount b.ttF j (b.ttF.getD j 0 + 1) }.setChan 4
    { b.chans[4] with
      next := b.chans[4].next + 1
      xfers := b.chans[4].xfers ++ [x] }

/-- The hint that a release leaves with the core. -/
def releaseHint (id : Nat) (b : Block) (j : Nat) (e : TtEntry) : Hint :=
  let src := stepped b e.src e.sstep (b.ttF.getD j 0) e.rsrc
  ⟨id, .release, src &&& ~~~63#64, 64, (src.toNat % 64 + e.len + 63) / 64, 0, none⟩

def Core.addHints (c : Core) (l : List Hint) : Core := { c with hints := c.hints ++ l }

theorem fireMove_copy {s : State} {j : Nat} {e : TtEntry} (h : e.kind ≠ 3) :
    fireMove s j e = s.setBlk (joinMove s.blk j (movedBy s.blk j e)) := if_neg h

theorem fireMove_release {s : State} {j : Nat} {e : TtEntry} (h : e.kind = 3) :
    fireMove s j e = (s.setBlk (joinMove s.blk j { movedBy s.blk j e with st := .done })).setCore s.blk.core
      ((s.core s.blk.core).addHints [releaseHint s.cur.b s.blk j e]) := if_pos h

/-- A transfer in progress that moves what entry j says, with its addresses stepped and relocated. -/
structure MovesEntry (b : Block) (j : Nat) (e : TtEntry) (x : Transfer) : Prop where
  active : x.st = .active
  size : x.size = e.len
  src : x.desc.src = stepped b e.src e.sstep (b.ttF.getD j 0) e.rsrc
  dst : e.kind = 0 → x.desc.dst = stepped b e.dst e.dstep (b.ttF.getD j 0) e.rdst
  entry : x.desc.param = BitVec.ofNat 64 j
  firing : x.desc.param2 = BitVec.ofNat 64 (b.ttF.getD j 0)

/-- What the firings of some entries leave of a state. -/
structure MovesFired (s r : State) (l : List (TtEntry × Nat)) : Prop where
  count : Counted s.blk.ttF r.blk.ttF (l.map Prod.snd)
  chans : ∀ n : Fin 5, n ≠ 4 → r.blk.chans[n] = s.blk.chans[n]
  keeps : ∀ x ∈ s.blk.chans[4].xfers, x ∈ r.blk.chans[4].xfers
  moves : ∀ p ∈ l, p.1.kind ≠ 3 → ∃ x ∈ r.blk.chans[4].xfers, MovesEntry s.blk p.2 p.1 x
  others : ∀ c, c ≠ s.blk.core → r.core c = s.core c
  hints : r.core s.blk.core = (s.core s.blk.core).addHints
    ((l.filter fun p => p.1.kind == 3).map fun p => releaseHint s.cur.b s.blk p.2 p.1)
  frame : r = { s with
    blk := { s.blk with
      ttF := r.blk.ttF
      chans := r.blk.chans }
    cores := r.cores }

theorem mem_joinMove (b : Block) (j : Nat) (x : Transfer) : (joinMove b j x).chans[4].xfers = b.chans[4].xfers ++ [x] := by
  rw [joinMove, chans_setChan_self]

theorem count_joinMove (b : Block) (j : Nat) (x : Transfer) : Counted b.ttF (joinMove b j x).ttF [j] :=
  Counted.cons (by simp) fun i => by simp [joinMove, Block.setChan]

theorem Core.addHints_nil (c : Core) : c.addHints [] = c := by simp [Core.addHints]

theorem Core.addHints_append (c : Core) (l r : List Hint) : (c.addHints l).addHints r = c.addHints (l ++ r) := by
  simp [Core.addHints]

/-- A firing adds its transfer to Umber's channel, or its hint to the core. -/
theorem fireMove_fires (s : State) (j : Nat) (e : TtEntry) : MovesFired s (fireMove s j e) [(e, j)] := by
  by_cases h : e.kind = 3
  · rw [fireMove_release h]
    refine ⟨count_joinMove _ _ _, fun n hn => chans_setChan_other _ _ hn, fun x hx => ?_, by simp [h], fun c hc => ?_, ?_, rfl⟩
    · exact (mem_joinMove s.blk j _).symm ▸ List.mem_append_left _ hx
    · rw [State.core_setCore, if_neg hc]
      rfl
    · rw [State.core_setCore, if_pos rfl]
      simp [h]
  · rw [fireMove_copy h]
    refine ⟨count_joinMove _ _ _, fun n hn => chans_setChan_other _ _ hn, fun x hx => ?_, fun p hp _ => ?_, fun c _ => rfl, ?_, rfl⟩
    · exact (mem_joinMove s.blk j _).symm ▸ List.mem_append_left _ hx
    · obtain rfl := List.mem_singleton.mp hp
      refine ⟨movedBy s.blk j e, (mem_joinMove s.blk j _).symm ▸ List.mem_append_right _ List.mem_cons_self, ?_⟩
      exact ⟨rfl, rfl, rfl, fun h0 => if_pos h0, rfl, rfl⟩
    · simp [h, Core.addHints_nil]
      rfl

section
variable {b c : Block} {j : Nat} {e : TtEntry}

theorem MovesEntry.congr {x : Transfer} (hreloc : c.reloc = b.reloc) (hn : c.ttF.getD j 0 = b.ttF.getD j 0)
    (h : MovesEntry c j e x) : MovesEntry b j e x := by
  obtain ⟨hactive, hsize, hsrc, hdst, hentry, hfiring⟩ := h
  simp only [stepped, hreloc, hn] at hsrc hdst hfiring
  exact ⟨hactive, hsize, hsrc, hdst, hentry, hfiring⟩

theorem releaseHint_congr {id : Nat} (hreloc : c.reloc = b.reloc) (hn : c.ttF.getD j 0 = b.ttF.getD j 0) :
    releaseHint id c j e = releaseHint id b j e := by simp only [releaseHint, stepped, hreloc, hn]

end

theorem MovesFired.cons {s t r : State} {p : TtEntry × Nat} {l : List (TtEntry × Nat)} (hp : p.2 ∉ l.map Prod.snd)
    (h : MovesFired s t [p]) (h' : MovesFired t r l) : MovesFired s r (p :: l) := by
  have hreloc : t.blk.reloc = s.blk.reloc := by rw [h.frame]
  have hcore : t.blk.core = s.blk.core := by rw [h.frame]
  have hcur : t.cur = s.cur := by rw [h.frame]
  have hsame : ∀ q ∈ l, t.blk.ttF.getD q.2 0 = s.blk.ttF.getD q.2 0 := by
    intro q hq
    have hne : q.2 ≠ p.2 := fun heq => hp (heq ▸ List.mem_map_of_mem (f := Prod.snd) hq)
    rw [h.count q.2, if_neg (by simpa using hne)]
  refine ⟨fun i => ?count, fun n hn => (h'.chans n hn).trans (h.chans n hn), fun x hx => h'.keeps x (h.keeps x hx), fun q hq hk => ?moves,
    fun c hc => (h'.others c (by rwa [hcore])).trans (h.others c hc), ?hints, ?frame⟩
  case count =>
    rw [h'.count i, h.count i]
    by_cases hi : i = p.2
    · subst hi
      simp [hp]
    · simp only [List.map_cons, List.mem_cons, List.map_nil, List.not_mem_nil, hi, or_false, false_or, if_false]
  case moves =>
    obtain rfl | hq := List.mem_cons.mp hq
    · obtain ⟨x, hx, hm⟩ := h.moves q List.mem_cons_self hk
      exact ⟨x, h'.keeps x hx, hm⟩
    · obtain ⟨x, hx, hm⟩ := h'.moves q hq hk
      exact ⟨x, hx, hm.congr hreloc (hsame q hq)⟩
  case hints =>
    have hmap : ((l.filter fun p => p.1.kind == 3).map fun p => releaseHint t.cur.b t.blk p.2 p.1) =
        (l.filter fun p => p.1.kind == 3).map fun p => releaseHint s.cur.b s.blk p.2 p.1 := by
      refine List.map_congr_left fun q hq => ?_
      rw [hcur]
      exact releaseHint_congr hreloc (hsame q (List.mem_of_mem_filter hq))
    rw [← hcore, h'.hints, hcore, h.hints, hmap, Core.addHints_append, ← List.map_append, ← List.filter_append, List.singleton_append]
  case frame =>
    rw [h'.frame, h.frame]

theorem foldl_fireMove : ∀ (l : List (TtEntry × Nat)) (s : State), (l.map Prod.snd).Nodup →
    MovesFired s (l.foldl (fun s p => fireMove s p.2 p.1) s) l
  | [], s, _ => ⟨fun i => by simp, fun _ _ => rfl, fun _ hx => hx, fun _ hp => by simp at hp, fun _ _ => rfl,
      (Core.addHints_nil _).symm, rfl⟩
  | p :: l, s, h => by
    obtain ⟨hp, hl⟩ := List.nodup_cons.mp h
    exact (fireMove_fires s p.2 p.1).cons hp (foldl_fireMove l _ hl)

/-- The entries that a stream's MARK checks, and those that it fires. -/
def checkedAt (tt : List TtEntry) (w marker : Nat) : List (TtEntry × Nat) := picked tt w fun e => e.need == marker && !e.unchecked
def firedAt (tt : List TtEntry) (w marker : Nat) : List (TtEntry × Nat) := picked tt w fun e => e.trig == marker

theorem mem_checkedAt {tt : List TtEntry} {w marker j : Nat} : j ∈ (checkedAt tt w marker).map Prod.snd ↔
    ∃ e, tt[j]? = some e ∧ e.stream = w ∧ e.need = marker ∧ e.need ≠ 0x7FFFFFFF := by
  simp [checkedAt, mem_map_picked, TtEntry.unchecked]

theorem mem_firedAt {tt : List TtEntry} {w marker j : Nat} : j ∈ (firedAt tt w marker).map Prod.snd ↔
    ∃ e, tt[j]? = some e ∧ e.stream = w ∧ e.trig = marker := by simp [firedAt, mem_map_picked]

/-- What a MARK of stream w leaves of a block, by its timetable (R276). -/
structure MarkedBlock (tt : List TtEntry) (b c : Block) (w marker : Nat) : Prop where
  checks : Counted b.ttC c.ttC ((checkedAt tt w marker).map Prod.snd)
  fires : Counted b.ttF c.ttF ((firedAt tt w marker).map Prod.snd)
  chans : ∀ n : Fin 5, n ≠ 4 → c.chans[n] = b.chans[n]
  moves : ∀ p ∈ firedAt tt w marker, p.1.kind ≠ 3 → ∃ x ∈ c.chans[4].xfers, MovesEntry b p.2 p.1 x

/-- It rests on the counters, the channels and the relocations of both alone. -/
theorem MarkedBlock.congr {tt : List TtEntry} {b b' c c' : Block} {w marker : Nat} (h : MarkedBlock tt b c w marker)
    (hb : b'.ttC = b.ttC ∧ b'.ttF = b.ttF ∧ b'.chans = b.chans ∧ b'.reloc = b.reloc)
    (hc : c'.ttC = c.ttC ∧ c'.ttF = c.ttF ∧ c'.chans = c.chans) : MarkedBlock tt b' c' w marker := by
  obtain ⟨hbC, hbF, hbchans, hreloc⟩ := hb
  obtain ⟨hcC, hcF, hcchans⟩ := hc
  refine ⟨by rw [hbC, hcC]; exact h.checks, by rw [hbF, hcF]; exact h.fires, fun n hn => ?_, fun p hp hk => ?_⟩
  · rw [hbchans, hcchans]
    exact h.chans n hn
  · obtain ⟨x, hx, hmoves⟩ := h.moves p hp hk
    exact ⟨x, by rwa [hcchans], hmoves.congr hreloc.symm (by rw [hbF])⟩

/-- What a MARK of stream w leaves of a state. -/
structure Marked (s t : State) (w marker : Nat) : Prop where
  block : MarkedBlock (s.timetable s.blk) s.blk t.blk w marker
  others : ∀ c, c ≠ s.blk.core → t.core c = s.core c
  hints : t.core s.blk.core = (s.core s.blk.core).addHints
    (((firedAt (s.timetable s.blk) w marker).filter fun p => p.1.kind == 3).map fun p => releaseHint s.cur.b s.blk p.2 p.1)
  frame : t = { s with
    blk := { s.blk with
      ttF := t.blk.ttF
      ttC := t.blk.ttC
      chans := t.blk.chans }
    cores := t.cores }

theorem markEffects_marked (s : State) (w marker : Nat) : Marked s (markEffects s w marker) w marker := by
  set tt := s.timetable s.blk with htt
  set b := (checkedAt tt w marker).foldl (fun b p => passCheck b p.2) (dropUnchecked s.blk tt) with hb
  have hc : ChecksPassed (dropUnchecked s.blk tt) b (checkedAt tt w marker) :=
    foldl_passCheck (checkedAt tt w marker) _ picked_nodup
  have hm : MovesFired (s.setBlk b) (markEffects s w marker) (firedAt tt w marker) :=
    foldl_fireMove (firedAt tt w marker) _ picked_nodup
  have hreloc : b.reloc = s.blk.reloc := by rw [hc.frame]; rfl
  have hcore : b.core = s.blk.core := by rw [hc.frame]; rfl
  have hF : b.ttF = s.blk.ttF := by rw [hc.frame]; rfl
  have hC : (markEffects s w marker).blk.ttC = b.ttC := by rw [hm.frame]; rfl
  refine ⟨⟨by rw [hC]; exact hc.count, by rw [← hF]; exact hm.count,
    fun n hn => ((hm.chans n hn).trans (hc.chans n hn)).trans (chans_setChan_other _ _ hn), fun p hp hk => ?moves⟩,
    fun c hne => hm.others c (by rwa [← hcore] at hne), ?hints, ?frame⟩
  case moves =>
    obtain ⟨x, hx, hmoves⟩ := hm.moves p hp hk
    exact ⟨x, hx, hmoves.congr hreloc (by rw [← hF])⟩
  case hints =>
    rw [← hcore]
    refine hm.hints.trans (congrArg _ (List.map_congr_left fun p _ => ?_))
    exact releaseHint_congr hreloc (by rw [← hF]; rfl)
  case frame =>
    have hblk := congrArg (fun x : Block => ({ s with
      blk := { x with
        ttF := (markEffects s w marker).blk.ttF
        chans := (markEffects s w marker).blk.chans }
      cores := (markEffects s w marker).cores } : State)) hc.frame
    refine hm.frame.trans (hblk.trans ?_)
    rw [hC]
    rfl

end Sys2Proof.Machine
end

section
/-! ## MARK (R109, R276, R277, R334) -/
namespace Sys2Proof.Machine
variable {s t : State} {m : BitVec 32} {w marker : Nat}

/-- No entry of the stream misses where its checks find their firings done, and no firing is a fifth (R277). -/
theorem timetableMiss_eq_none {b : Block} {tt : List TtEntry}
    (h : ∀ (j : Nat) (e : TtEntry), tt[j]? = some e →
      (e.stream = w ∧ e.need = marker ∧ e.need ≠ 0x7FFFFFFF → b.ttF.getD j 0 ≠ b.ttC.getD j 0 ∧
        ∀ x ∈ b.chans[4].xfers, isFiring j (b.ttC.getD j 0) x = true → x.st = .done) ∧
      (e.stream = w ∧ e.trig = marker → e.need ≠ 0x7FFFFFFF → (b.ttF.getD j 0 + 2 ^ 32 - b.ttC.getD j 0) % 2 ^ 32 ≠ 4)) :
    timetableMiss b w marker tt = none := by
  refine List.findSome?_eq_none_iff.mpr fun ⟨e, j⟩ hmem => ?_
  obtain ⟨hneed, htrig⟩ := h j e (List.mem_zipIdx_iff_getElem?.mp hmem)
  have hun : (!e.unchecked) = true ↔ e.need ≠ 0x7FFFFFFF := by simp [TtEntry.unchecked]
  simp only [hun]
  by_cases hs : e.stream = w
  · by_cases hc : e.need = marker ∧ e.need ≠ 0x7FFFFFFF
    · obtain ⟨hne, hdone⟩ := hneed ⟨hs, hc⟩
      have hmiss : checkMiss b j = none := by
        simp only [checkMiss, if_neg hne]
        cases hx : b.chans[4].xfers.find? (isFiring j (b.ttC.getD j 0)) with
        | none => rfl
        | some x => exact if_pos (hdone x (List.mem_of_find?_eq_some hx) (List.find?_some hx))
      rw [if_neg (not_not.mpr hs), if_pos hc, hmiss, Option.map_none]
    · rw [if_neg (not_not.mpr hs), if_neg hc, if_neg fun hf => htrig ⟨hs, hf.1⟩ hf.2.1 hf.2.2]
  · rw [if_pos hs]

theorem testHome_cases (s : State) : testHome s = s ∨ ∃ c, testHome s = s.setBlk { s.blk with
    migrating := some c
    trigger := none
    migChecked := false } := by
  simp only [testHome]
  split
  · split
    · exact .inr ⟨_, rfl⟩
    · exact .inl rfl
  · exact .inl rfl

/-- The test for a return home touches nothing but the block's migration. -/
theorem testHome_eq (s : State) : testHome s = s.setBlk { s.blk with
    migrating := (testHome s).blk.migrating
    trigger := (testHome s).blk.trigger
    migChecked := (testHome s).blk.migChecked } := by
  obtain h | ⟨c, h⟩ := testHome_cases s <;> rw [h] <;> rfl

theorem testHome_of_not_hb (h : s.blk.mig.hb = false) : testHome s = s := by
  simp [testHome, h]

theorem markEffects_frame (s : State) (w marker : Nat) :
    (markEffects s w marker).ag = s.ag ∧ (markEffects s w marker).cur = s.cur ∧
    (markEffects s w marker).parts = s.parts ∧ (markEffects s w marker).time = s.time ∧ (markEffects s w marker).mem = s.mem := by
  rw [(markEffects_marked s w marker).frame]
  exact ⟨rfl, rfl, rfl, rfl, rfl⟩

section
variable {tt : List TtEntry} {b c : Block} (hm : MarkedBlock tt b c w marker)
include hm

theorem MarkedBlock.getD_ttC (j : Nat)
    [Decidable (∃ e, tt[j]? = some e ∧ e.stream = w ∧ e.need = marker ∧ e.need ≠ 0x7FFFFFFF)] :
    c.ttC.getD j 0 = if ∃ e, tt[j]? = some e ∧ e.stream = w ∧ e.need = marker ∧ e.need ≠ 0x7FFFFFFF
      then (b.ttC.getD j 0 + 1) % 2 ^ 32 else b.ttC.getD j 0 := by
  rw [hm.checks j]
  exact if_congr mem_checkedAt rfl rfl

theorem MarkedBlock.getD_ttF (j : Nat) [Decidable (∃ e, tt[j]? = some e ∧ e.stream = w ∧ e.trig = marker)] :
    c.ttF.getD j 0 = if ∃ e, tt[j]? = some e ∧ e.stream = w ∧ e.trig = marker
      then (b.ttF.getD j 0 + 1) % 2 ^ 32 else b.ttF.getD j 0 := by
  rw [hm.fires j]
  exact if_congr mem_firedAt rfl rfl

/-- A fired move is a transfer that names its entry and its number. -/
theorem MarkedBlock.exists_move {j : Nat} {e : TtEntry} (he : tt[j]? = some e) (hs : e.stream = w) (ht : e.trig = marker)
    (hk : e.kind ≠ 3) (hlen : tt.length ≤ 4096) (hF : b.ttF.getD j 0 < 2 ^ 32) :
    ∃ x ∈ c.chans[4].xfers, x.st = .active ∧ isFiring j (b.ttF.getD j 0) x = true ∧ x.size = e.len ∧
      x.desc.src = stepped b e.src e.sstep (b.ttF.getD j 0) e.rsrc ∧
      (e.kind = 0 → x.desc.dst = stepped b e.dst e.dstep (b.ttF.getD j 0) e.rdst) := by
  obtain ⟨x, hx, hmoves⟩ := hm.moves (e, j) (mem_picked.mpr ⟨he, hs, by simpa using ht⟩) hk
  have hj : j < 4096 := lt_of_lt_of_le (List.getElem?_eq_some_iff.mp he).1 hlen
  refine ⟨x, hx, hmoves.active, ?_, hmoves.size, hmoves.src, hmoves.dst⟩
  rw [isFiring, hmoves.entry, hmoves.firing, BitVec.toNat_ofNat, BitVec.toNat_ofNat, Nat.mod_eq_of_lt (show j < 2 ^ 64 by omega),
    Nat.mod_eq_of_lt (show b.ttF.getD j 0 < 2 ^ 64 by omega)]
  simp

end

/-- The entries whose release a MARK fires, in the order of the timetable. -/
theorem filter_firedAt (tt : List TtEntry) (w marker : Nat) : (firedAt tt w marker).filter (fun p => p.1.kind == 3) =
    tt.zipIdx.filter fun p => decide (p.1.stream = w ∧ p.1.trig = marker) && p.1.kind == 3 := by
  rw [firedAt, picked, List.filter_filter, List.filter_filter]
  refine List.filter_congr fun p _ => ?_
  rw [Bool.decide_and, ← beq_eq_decide, ← beq_eq_decide, Bool.and_comm (p.1.kind == 3), Bool.and_comm (p.1.trig == marker && _), Bool.and_assoc]

/-- What a MARK that is no boundary leaves, of a stream under no REP. -/
theorem plainMark_leaves (hrep : s.ag.rep = none) {k : Nat} (ht : t = testHome (markEffects s s.cur.w k).passed) :
    MarkedBlock (s.timetable s.blk) s.blk t.blk s.cur.w k ∧
    (s.blk.mig.hb = false → t.blk.migrating = s.blk.migrating ∧ t.blk.trigger = s.blk.trigger ∧ t.blk.migChecked = s.blk.migChecked) ∧
    (∀ c, c ≠ s.blk.core → t.core c = s.core c) ∧
    t.core s.blk.core = (s.core s.blk.core).addHints (((firedAt (s.timetable s.blk) s.cur.w k).filter fun p => p.1.kind == 3).map
      fun p => releaseHint s.cur.b s.blk p.2 p.1) ∧
    t = { s with
      ag := { s.ag.ticks (1 + s.cur.hdr.w.val) with pc := s.cur.next }
      blk := { s.blk with
        chans := t.blk.chans
        ttF := t.blk.ttF
        ttC := t.blk.ttC
        migrating := t.blk.migrating
        trigger := t.blk.trigger
        migChecked := t.blk.migChecked }
      cores := t.cores
      cur := { s.cur with disp := .done } } := by
  have hm := markEffects_marked s s.cur.w k
  obtain ⟨mi, tr, mc, hhome⟩ : ∃ mi tr mc, t = (markEffects s s.cur.w k).passed.setBlk { (markEffects s s.cur.w k).blk with
      migrating := mi
      trigger := tr
      migChecked := mc } := ⟨_, _, _, ht.trans (testHome_eq _)⟩
  have hcore : ∀ c, t.core c = (markEffects s s.cur.w k).core c := fun c => by rw [hhome]; rfl
  refine ⟨hm.block.congr ⟨rfl, rfl, rfl, rfl⟩ ⟨congrArg (·.blk.ttC) hhome, congrArg (·.blk.ttF) hhome, congrArg (·.blk.chans) hhome⟩,
    fun hhb => ?stays, fun c hc => (hcore c).trans (hm.others c hc), (hcore _).trans hm.hints, ?frame⟩
  case stays =>
    have hblk : t.blk = (markEffects s s.cur.w k).blk := by
      rw [ht, testHome_of_not_hb (s := (markEffects s s.cur.w k).passed) ((congrArg (·.blk.mig.hb) hm.frame).trans hhb)]
      rfl
    rw [hblk]
    exact ⟨congrArg (·.blk.migrating) hm.frame, congrArg (·.blk.trigger) hm.frame, congrArg (·.blk.migChecked) hm.frame⟩
  case frame =>
    obtain ⟨hag, hcur, -⟩ := markEffects_frame s s.cur.w k
    have hpassed : (markEffects s s.cur.w k).passed = { markEffects s s.cur.w k with
        ag := { s.ag.ticks (1 + s.cur.hdr.w.val) with pc := s.cur.next }
        cur := { s.cur with disp := .done } } := by
      show ({ markEffects s s.cur.w k with
        ag := (markEffects s s.cur.w k).ag.pass (markEffects s s.cur.w k).cur.hdr.w.val (markEffects s s.cur.w k).cur.next
        cur := { (markEffects s s.cur.w k).cur with disp := .done } } : State) = _
      rw [hag, hcur, Agent.pass_of_rep_none hrep]
    rw [hhome, hpassed]
    have hframe := congrArg (fun u : State => ({ u with
      ag := { s.ag.ticks (1 + s.cur.hdr.w.val) with pc := s.cur.next }
      blk := { u.blk with
        migrating := mi
        trigger := tr
        migChecked := mc }
      cur := { s.cur with disp := .done } } : State)) hm.frame
    exact hframe

/-- A MARK that is no boundary, of a quiet stream without a miss. -/
theorem exec_mark_plain (hr : Runs (.mark m) s) (ha : s.ag.accs = []) (hp : s.ag.pend = []) (h31 : m.getLsbD 31 = false)
    (hmiss : timetableMiss s.blk s.cur.w (markerOf m) (s.timetable s.blk) = none) :
    exec (.mark m) s = .next (testHome (markEffects s s.cur.w (markerOf m)).passed) := by
  rw [exec_mark, execMark, h31, if_neg (by decide), issueWord_unclaimed hr rfl rfl]
  simp only [plainMark, State.quiet, ha, hp, List.isEmpty_nil, Bool.and_self, Bool.not_true, Bool.false_eq_true, if_false, hmiss]

end Sys2Proof.Machine
end

section
/-! ## A boundary MARK of the only running stream (R334) -/
namespace Sys2Proof.Machine
variable {s t : State} {m : BitVec 32}

/-- The block with the agent in focus put back. -/
def State.refreshed (s : State) : State := s.setBlk { s.blk with agents := s.agentVec }

theorem agentVec_own (s : State) : s.agentVec[s.cur.w % 5]'(Nat.mod_lt _ (by decide)) = s.ag :=
  Vector.getElem_set_self _

theorem asStream_own {f : State → State} (hf : (f s.refreshed).cur = s.cur) : asStream s s.cur.w f = (f s.refreshed).refreshed := by
  have hin : ({ s with
      blk := { s.blk with agents := s.agentVec }
      ag := s.agentVec[s.cur.w % 5]'(Nat.mod_lt _ (by decide)) } : State) = s.refreshed := by rw [agentVec_own]; rfl
  have hout := agentVec_own (f s.refreshed)
  simp only [hf] at hout
  refine (congrArg (fun t : State => ({ t with
    blk := { t.blk with agents := t.agentVec }
    ag := t.agentVec[s.cur.w % 5]'(Nat.mod_lt _ (by decide))
    cur := s.cur } : State)) (congrArg f hin)).trans ?_
  rw [hout, ← hf]
  rfl

/-- With no stopped instruction a word does nothing before its own effect but to leave its region. -/
theorem beforeWord_eq {l : Line} (h : s.ag.stopped = none) (h' : s.ag.stoppedIn = none) :
    ∃ x, beforeWord s l = s.setCtl { s.ag.ctl with tslip := x } := by
  have habandon : abandonStopped (resumes s l) s = s := by
    simp only [abandonStopped, h, h', Option.filter_none, Option.toList_none, List.append_nil, List.foldl_nil]
    exact congrArg s.setAg (congrArg₂ (fun x y => ({ s.ag with stopped := x, stoppedIn := y } : Agent)) h.symm h'.symm)
  simp only [beforeWord, habandon, ite_self]
  split
  · split
    · exact ⟨s.ag.ctl.tslip, rfl⟩
    · exact ⟨_, rfl⟩
  · exact ⟨s.ag.ctl.tslip, rfl⟩

theorem agent_own (s : State) : s.agent s.cur.w = s.ag := if_pos rfl

/-- A stream that stands at a boundary MARK repeats no word. -/
theorem rep_of_boundaryAt {w : Nat} {x : Hdr × BitVec 32} (h : boundaryAt s w = some x) : (s.agent w).rep = none := by
  simp only [boundaryAt] at h
  split at h
  · split at h
    · rename_i hcond
      simp only [Bool.and_eq_true, Option.isNone_iff_eq_none] at hcond
      tauto
    · contradiction
  · contradiction

/-- The state after the boundary MARK of the stream in focus, before the record: with its region left perhaps (R285), its
timetable effects, and the word passed. -/
def afterMark (s : State) (x : Tslip) (marker : Nat) : State :=
  let u := markEffects (s.refreshed.setCtl { s.ag.ctl with tslip := x }) s.cur.w marker
  u.setAg ({ u.ag with started := true, wait := 0 }.pass s.cur.hdr.w.val s.cur.next)

/-- What a boundary MARK does with its stream in focus. -/
def boundaryWord (h : Hdr) (m : BitVec 32) (w : Nat) (s : State) : State :=
  let s := { s with cur := { s.cur with
    pc := s.ag.pc
    next := s.ag.pc + 8
    hdr := h } }
  let s := markEffects (beforeWord s ⟨h, .one (.mark m)⟩) w (markerOf m)
  s.setAg ({ s.ag with started := true, wait := 0 }.pass h.w.val s.cur.next)

theorem boundaryOne_eq {w : Nat} {h : Hdr} (hb : boundaryAt s w = some (h, m)) :
    boundaryOne s w = asStream s w (boundaryWord h m w) := by
  simp only [boundaryOne, hb]
  rfl

section
variable (hpc : s.cur.pc = s.ag.pc) (hnext : s.cur.next = s.ag.pc + 8) (hstop : s.ag.stopped = none) (hin : s.ag.stoppedIn = none)
include hpc hnext hstop hin

theorem boundaryWord_refreshed (m : BitVec 32) :
    ∃ x, boundaryWord s.cur.hdr m s.cur.w s.refreshed = afterMark s x (markerOf m) := by
  have hcur : ({ s.refreshed with cur := { s.cur with
      pc := s.ag.pc
      next := s.ag.pc + 8
      hdr := s.cur.hdr } } : State) = s.refreshed := by
    rw [← hnext, ← hpc]
    rfl
  obtain ⟨x, hx⟩ := beforeWord_eq (s := s.refreshed) (l := ⟨s.cur.hdr, .one (.mark m)⟩) hstop hin
  have hcurs := (markEffects_frame (s.refreshed.setCtl { s.ag.ctl with tslip := x }) s.cur.w (markerOf m)).2.1
  refine ⟨x, ?_⟩
  have hbefore := (congrArg (beforeWord · ⟨s.cur.hdr, .one (.mark m)⟩) hcur).trans hx
  refine (congrArg (fun u => (markEffects u s.cur.w (markerOf m)).setAg ({ (markEffects u s.cur.w (markerOf m)).ag with
    started := true
    wait := 0 }.pass s.cur.hdr.w.val (markEffects u s.cur.w (markerOf m)).cur.next)) hbefore).trans ?_
  exact congrArg (fun c : IssueCtx => (markEffects (s.refreshed.setCtl { s.ag.ctl with tslip := x }) s.cur.w (markerOf m)).setAg
    ({ (markEffects (s.refreshed.setCtl { s.ag.ctl with tslip := x }) s.cur.w (markerOf m)).ag with
      started := true
      wait := 0 }.pass s.cur.hdr.w.val c.next)) hcurs

theorem boundaryOne_own (hb : boundaryAt s s.cur.w = some (s.cur.hdr, m)) :
    ∃ x, boundaryOne s s.cur.w = (afterMark s x (markerOf m)).refreshed := by
  obtain ⟨x, hx⟩ := boundaryWord_refreshed hpc hnext hstop hin m
  have hcur : (afterMark s x (markerOf m)).cur = s.cur :=
    (markEffects_frame (s.refreshed.setCtl { s.ag.ctl with tslip := x }) s.cur.w (markerOf m)).2.1
  refine ⟨x, ?_⟩
  rw [boundaryOne_eq hb, asStream_own (by rw [hx, hcur]), hx]

end

section
variable (hw : s.cur.w < 4) (hrun : s.ag.run = .running) (hothers : ∀ v < 4, v ≠ s.cur.w → (s.agent v).run ≠ .running)
include hw hrun hothers

theorem runningStreams_only : runningStreams s = [s.cur.w] := by
  have hone : ∀ w < 4, (List.range 4).filter (· == w) = [w] := by decide
  refine (List.filter_congr fun v hv => ?_).trans (hone _ hw)
  by_cases h : v = s.cur.w
  · rw [h, agent_own, hrun]
    simp
  · simp [h, hothers v (by simpa using hv) h]

/-- The only running stream stands at its boundary with the copy channels idle. -/
theorem boundaryReady_only {x : Hdr × BitVec 32} (hb : boundaryAt s s.cur.w = some x) (hsync : x.1.s = false)
    (hnone : noneStopped s = true) (hchans : ∀ n : Fin 4, (s.blk.chans[n]).busy = false) : boundaryReady s = true := by
  obtain ⟨h, m⟩ := x
  have hsync : h.s = false := hsync
  simp only [boundaryReady, hnone, runningStreams_only hw hrun hothers, List.all_cons, List.all_nil, hb, Bool.and_true, Bool.true_and,
    Bool.and_eq_true]
  refine ⟨by simp [syncAgrees, hsync], List.all_eq_true.mpr fun n hn => ?_⟩
  have hn : n < 4 := List.mem_range.mp hn
  rw [Vector.getElem?_eq_getElem (by omega)]
  simpa using hchans ⟨n, hn⟩

theorem exec_mark_boundary (hr : Runs (.mark m) s) (ha : s.ag.accs = []) (hp : s.ag.pend = []) (h31 : m.getLsbD 31 = true)
    (hsync : s.cur.hdr.s = false) (hnone : noneStopped s = true) (hchans : ∀ n : Fin 4, (s.blk.chans[n]).busy = false)
    (hb : boundaryAt s s.cur.w = some (s.cur.hdr, m))
    (hmiss : timetableMiss s.blk s.cur.w (markerOf m) (s.timetable s.blk) = none) :
    exec (.mark m) s = .next (boundaryIssue s) := by
  have hready := boundaryReady_only hw hrun hothers hb hsync hnone hchans
  rw [exec_mark, execMark, if_pos h31]
  simp only [issueBoundary, hr.verdict, hsync, Bool.false_eq_true, if_false, boundaryMark, State.quiet, ha, hp, List.isEmpty_nil,
    Bool.and_self, hready, Bool.not_true, Bool.or_self, hb, Option.bind_some, hmiss, runningStreams_only hw hrun hothers,
    List.any_cons, Option.isSome_none, List.any_nil]

end

theorem sliceOver_congr (hparts : t.parts = s.parts) (htime : t.time = s.time) (hpart : t.blk.part = s.blk.part)
    (hcore : t.blk.core = s.blk.core) : sliceOver t = sliceOver s := by
  simp only [sliceOver, State.part, State.tbase, State.now, hparts, htime, hpart, hcore]

/-- The record of the only running stream's boundary, and no end of a slice. -/
theorem boundaryIssue_only {x : Tslip} {marker : Nat} (hs : runningStreams s = [s.cur.w])
    (hone : boundaryOne s s.cur.w = (afterMark s x marker).refreshed) (hslice : sliceOver s = false) :
    boundaryIssue s = (testHome (commitOperator (afterMark s x marker).refreshed)).setDisp .done := by
  have hover : sliceOver (commitOperator (afterMark s x marker).refreshed) = sliceOver s := by
    have hframe := (markEffects_marked (s.refreshed.setCtl { s.ag.ctl with tslip := x }) s.cur.w marker).frame
    exact sliceOver_congr (congrArg (·.parts) hframe) (congrArg (·.time) hframe) (congrArg (·.blk.part) hframe)
      (congrArg (·.blk.core) hframe)
  simp only [boundaryIssue, hs, List.foldl_cons, List.foldl_nil, hone, hover, hslice, Bool.false_eq_true, if_false]

/-- The stream after its boundary MARK. -/
theorem afterMark_ag (hrep : s.ag.rep = none) (x : Tslip) (marker : Nat) : (afterMark s x marker).ag =
    { ({ s.ag with
        ctl := { s.ag.ctl with tslip := x }
        started := true
        wait := 0 } : Agent).ticks (1 + s.cur.hdr.w.val) with pc := s.cur.next } := by
  have hag := (markEffects_frame (s.refreshed.setCtl { s.ag.ctl with tslip := x }) s.cur.w marker).1
  show ({ (markEffects (s.refreshed.setCtl { s.ag.ctl with tslip := x }) s.cur.w marker).ag with
    started := true
    wait := 0 } : Agent).pass s.cur.hdr.w.val s.cur.next = _
  rw [hag]
  exact Agent.pass_of_rep_none (x := { (s.refreshed.setCtl { s.ag.ctl with tslip := x }).ag with
    started := true
    wait := 0 }) hrep _ _

/-- A boundary MARK before its record: its timetable effects, and its streams put back. -/
theorem afterMark_marked (s : State) (x : Tslip) (marker : Nat) : let u := (afterMark s x marker).refreshed
    MarkedBlock (s.timetable s.blk) s.blk u.blk s.cur.w marker ∧
    u = { s with
      ag := (afterMark s x marker).ag
      blk := { s.blk with
        agents := u.blk.agents
        ttF := u.blk.ttF
        ttC := u.blk.ttC
        chans := u.blk.chans }
      cores := u.cores } := by
  intro u
  have hm := markEffects_marked (s.refreshed.setCtl { s.ag.ctl with tslip := x }) s.cur.w marker
  refine ⟨hm.block.congr ⟨rfl, rfl, rfl, rfl⟩ ⟨rfl, rfl, rfl⟩, ?_⟩
  exact congrArg (fun v : State => ({ v with
    ag := (afterMark s x marker).ag
    blk := { v.blk with agents := u.blk.agents } } : State)) hm.frame

/-- A boundary writes its record and forgets the failures; the rest it leaves, but for the migration. -/
theorem commitOperator_leaves {u : State} (ht : t = (testHome (commitOperator u)).setDisp .done) : t = { u with
    blk := { u.blk with
      replay := some (u.blk.record u.agentVec u.tbase)
      replaying := false
      failures := 0
      claimed := []
      migrating := t.blk.migrating
      trigger := t.blk.trigger
      migChecked := t.blk.migChecked }
    cur := { u.cur with disp := .done } } := by
  have h := testHome_eq (commitOperator u)
  rw [ht]
  exact congrArg (·.setDisp .done) h

/-- The record of a boundary: the block as the MARK has left it, and its streams with their vector registers in launch state. -/
theorem boundaryMark_leaves (hrep : s.ag.rep = none) {x : Tslip} {marker : Nat}
    (ht : t = (testHome (commitOperator (afterMark s x marker).refreshed)).setDisp .done) :
    MarkedBlock (s.timetable s.blk) s.blk t.blk s.cur.w marker ∧
    ∃ r, t.blk.replay = some r ∧ r.chans = t.blk.chans ∧ r.ports = s.blk.ports ∧ r.mig = s.blk.mig ∧ r.reloc = s.blk.reloc ∧
      r.ttF = t.blk.ttF ∧ r.ttC = t.blk.ttC ∧
      (∀ k : Fin 5, k.val = s.cur.w → r.agents[k] = { t.ag with
        v := Vector.replicate 16 0
        vPoison := 0 }) ∧
      t.ag.pc = s.cur.next ∧ t.blk.failures = 0 ∧ t.blk.replaying = false ∧ t.blk.status = s.blk.status ∧
      t.blk.tiles = s.blk.tiles ∧ t.blk.accs = s.blk.accs ∧ t.blk.pad = s.blk.pad ∧ t.mem = s.mem := by
  obtain ⟨hmarked, hu⟩ := afterMark_marked s x marker
  have hown := agentVec_own (afterMark s x marker).refreshed
  have hpc : (afterMark s x marker).ag.pc = s.cur.next := by rw [afterMark_ag hrep]
  generalize (afterMark s x marker).refreshed = u at hmarked hu hown ht
  have hcommit := commitOperator_leaves ht
  have hag : u.ag = (afterMark s x marker).ag := congrArg (·.ag) hu
  have hcur : u.cur = s.cur := congrArg (·.cur) hu
  have hblk := congrArg (·.blk) hu
  have htag : t.ag = u.ag := congrArg (·.ag) hcommit
  have htblk := congrArg (·.blk) hcommit
  refine ⟨hmarked.congr ⟨rfl, rfl, rfl, rfl⟩ ⟨congrArg (·.ttC) htblk, congrArg (·.ttF) htblk, congrArg (·.chans) htblk⟩,
    u.blk.record u.agentVec u.tbase, congrArg (·.replay) htblk, (congrArg (·.chans) htblk).symm, congrArg (·.ports) hblk,
    congrArg (·.mig) hblk, congrArg (·.reloc) hblk, (congrArg (·.ttF) htblk).symm, (congrArg (·.ttC) htblk).symm, fun k hk => ?agents,
    by rw [htag, hag, hpc], congrArg (·.failures) htblk, congrArg (·.replaying) htblk,
    (congrArg (·.status) htblk).trans (congrArg (·.status) hblk), (congrArg (·.tiles) htblk).trans (congrArg (·.tiles) hblk),
    (congrArg (·.accs) htblk).trans (congrArg (·.accs) hblk), (congrArg (·.pad) htblk).trans (congrArg (·.pad) hblk),
    (congrArg (·.mem) hcommit).trans (congrArg (·.mem) hu)⟩
  case agents =>
    simp only [hcur, ← hk, Nat.mod_eq_of_lt k.isLt] at hown
    rw [Block.record, htag, ← hown]
    exact Vector.getElem_map _ _

end Sys2Proof.Machine
end


section
/-! ## EXIT (R111, R226) -/
namespace Sys2Proof.Machine
variable {s : State}

/-- The agent once it has executed EXIT. -/
def exitedAgent (a : Agent) : Agent := { a with
  run := .exited
  latches := []
  pend := []
  ready := []
  stopped := none
  stoppedIn := none
  ctl := { a.ctl with tslip := a.ctl.tslip.close false } }

theorem exitAgent_eq (s : State) : exitAgent s =
    let t := dropResults (s.setAg (exitedAgent s.ag))
    if t.agentList.all (·.gone) then endBlock t else t := rfl

theorem exec_exit_runs (hr : Runs .exit s) (ha : s.ag.accs = [])
    (hidle : s.cur.w = 4 → ∀ n : Fin 4, (s.blk.chans[n]).busy = false) : exec .exit s = .next ((exitAgent s).setDisp .done) := by
  rw [exec_exit, execExit, issueWord_unclaimed hr rfl rfl]
  simp only [ha, List.isEmpty_nil, Bool.not_true, Bool.false_eq_true, if_false]
  refine congrArg _ (if_neg fun h => ?_)
  simp only [Bool.and_eq_true, List.any_eq_true, List.mem_range, State.isMP, beq_iff_eq] at h
  obtain ⟨hw, n, hn, hbusy⟩ := h
  rw [Vector.getElem?_eq_getElem (by omega)] at hbusy
  exact absurd hbusy (by simpa using hidle hw ⟨n, hn⟩)

/-- Every agent is gone where every other one is. -/
theorem all_gone_iff (hx : s.ag.run = .exited) :
    (s.agentList.all (·.gone)) = true ↔ ∀ w < 5, w ≠ s.cur.w → (s.agent w).run = .exited ∨ (s.agent w).run = .noProgram := by
  simp only [State.agentList, List.all_map, List.all_eq_true, List.mem_range, Function.comp_apply, Agent.gone, Bool.or_eq_true, beq_iff_eq]
  refine forall₂_congr fun w _ => ?_
  by_cases h : w = s.cur.w
  · subst h
    simp [agent_own, hx]
  · simp [h]

/-- Of a core only the owners and the liveness of its banks differ. -/
def OnlyBanks (c d : Core) : Prop := d = { c with
  live := d.live
  town := d.town
  aown := d.aown
  vown := d.vown }

theorem OnlyBanks.trans {c d e : Core} (h : OnlyBanks c d) (h' : OnlyBanks d e) : OnlyBanks c e := by
  unfold OnlyBanks at h h' ⊢
  rw [h', h]

theorem OnlyBanks.foldl {α : Type} {f : Core → α → Core} (hf : ∀ c x, OnlyBanks c (f c x)) : ∀ (l : List α) (c : Core),
    OnlyBanks c (l.foldl f c)
  | [], _ => rfl
  | x :: l, c => (hf c x).trans (OnlyBanks.foldl hf l (f c x))

theorem setBank_onlyBanks (c : Core) (kind bank slot : Nat) (live : Bool) : OnlyBanks c (c.setBank kind bank slot live) := by
  simp only [Core.setBank]
  split <;> rfl

theorem dropSlot_onlyBanks (c : Core) (slot : Nat) : OnlyBanks c (c.dropSlot slot) := by
  refine OnlyBanks.foldl (fun c p => OnlyBanks.foldl (fun c b => ?_) _ c) _ c
  split
  · exact setBank_onlyBanks _ _ _ _ _
  · rfl

theorem leaveSlot_units (s : State) : ((leaveSlot s).core s.blk.core).matrix = (s.core s.blk.core).matrix ∧
    ((leaveSlot s).core s.blk.core).tile = (s.core s.blk.core).tile := by
  have hbanks := dropSlot_onlyBanks (s.core s.blk.core) s.blk.slot
  simp only [leaveSlot, State.core_setCore, if_true]
  exact ⟨by rw [hbanks], by rw [hbanks]⟩

/-- The slot that a block has left is free. -/
theorem leaveSlot_slot (s : State) (hslot : s.blk.slot < 4) :
    ((leaveSlot s).core s.blk.core).slots[s.blk.slot % 4]'(Nat.mod_lt _ (by decide)) = none ∧
    ((leaveSlot s).core s.blk.core).ctxv.getLsbD s.blk.slot = false := by
  simp only [leaveSlot, State.core_setCore, if_true]
  refine ⟨Vector.getElem_set_self _, ?_⟩
  rw [getLsbD_putBit _ _ _ _ (by omega), if_pos (Nat.mod_eq_of_lt hslot).symm]

theorem addSlips_only (s : State) : addSlips s = { s with launches := (addSlips s).launches } := by
  simp only [addSlips, countSlips]
  split
  · rfl
  · split
    · split <;> rfl
    · rfl

theorem returnPoints_only (s : State) : returnPoints s = { s with
    blocks := (returnPoints s).blocks
    launches := (returnPoints s).launches } := by
  simp only [returnPoints]
  split
  · rfl
  · split <;> rfl

/-- Where only done values stand unclaimed no other block loses one. -/
theorem returnPoints_blocks (h : ∀ e ∈ s.blk.ports[0].res.drop s.blk.ports[0].resClaims, e.1 = BitVec.allOnes 64) :
    (returnPoints s).blocks = s.blocks := by
  have hall : (((s.blk.ports[0].res.drop s.blk.ports[0].resClaims).map (·.1)).all (· == BitVec.allOnes 64)) = true := by
    refine List.all_eq_true.mpr fun x hx => ?_
    obtain ⟨e, he, rfl⟩ := List.mem_map.mp hx
    simpa using h e he
  simp only [returnPoints]
  split
  · rfl
  · simp only [hall, if_true]
    rfl

/-- The end of a block leaves its slot, and hands its points and slips back. -/
theorem endBlock_eq (s : State) : endBlock s = { leaveSlot s with
    blk := { s.blk with
      status := .ended
      chans := (endBlock s).blk.chans }
    blocks := (returnPoints (leaveSlot s)).blocks
    launches := (endBlock s).launches
    requests := s.requests.filter fun r => r.block != some s.cur.b } := by
  have h : addSlips (returnPoints (leaveSlot s)) = { leaveSlot s with
      blocks := (returnPoints (leaveSlot s)).blocks
      launches := (addSlips (returnPoints (leaveSlot s))).launches } := by
    rw [addSlips_only, returnPoints_only]
  simp only [endBlock]
  rw [h]
  rfl

/-- Of the units' jobs only the results for the agent in focus are dropped. -/
theorem dropResults_core (s : State) (c : Nat) : (dropResults s).core c = if c = s.blk.core then { s.core s.blk.core with
    matrix := ((dropResults s).core s.blk.core).matrix
    tile := ((dropResults s).core s.blk.core).tile } else s.core c := by
  simp only [dropResults, State.core_setCore, if_true]

/-- A unit's job without the results for the agent in focus. -/
def withoutResults (s : State) (j : Option Job) : Option Job :=
  j.map fun x => if x.block = s.cur.b ∧ x.agent = s.cur.w then { x with results := [] } else x

theorem dropResults_units (s : State) :
    ((dropResults s).core s.blk.core).matrix = withoutResults s (s.core s.blk.core).matrix ∧
    ((dropResults s).core s.blk.core).tile = withoutResults s (s.core s.blk.core).tile := by
  simp only [dropResults, State.core_setCore, if_true]
  exact ⟨rfl, rfl⟩

theorem leaveSlot_other (s : State) {c : Nat} (h : c ≠ s.blk.core) : (leaveSlot s).core c = s.core c := by
  simp only [leaveSlot, State.core_setCore, if_neg h]

/-- The last EXIT of a block ends it. -/
theorem exitAgent_last (h : (dropResults (s.setAg (exitedAgent s.ag))).agentList.all (·.gone) = true) :
    exitAgent s = endBlock (dropResults (s.setAg (exitedAgent s.ag))) := by
  rw [exitAgent_eq]
  exact if_pos h

theorem exitAgent_notLast (h : (dropResults (s.setAg (exitedAgent s.ag))).agentList.all (·.gone) ≠ true) :
    exitAgent s = dropResults (s.setAg (exitedAgent s.ag)) := by
  rw [exitAgent_eq]
  exact if_neg h

/-- An EXIT is the block's last where every other agent is gone. -/
theorem exit_last_iff (s : State) : ((dropResults (s.setAg (exitedAgent s.ag))).agentList.all (·.gone)) = true ↔
    ∀ w < 5, w ≠ s.cur.w → (s.agent w).run = .exited ∨ (s.agent w).run = .noProgram := by
  refine (all_gone_iff (s := dropResults (s.setAg (exitedAgent s.ag))) rfl).trans (forall₃_congr fun w _ hw => ?_)
  have h : (dropResults (s.setAg (exitedAgent s.ag))).agent w = s.agent w := by
    simp only [State.agent]
    exact (if_neg hw).trans (if_neg hw).symm
  rw [h]

end Sys2Proof.Machine
end

section
namespace Sys2Proof.Machine

/-- Settles O34: a MARK has the effects of `markEffects`, at a boundary with the record written after them; EXIT ends the
agent, and with the last one its block. -/
theorem marksAndExit : Obligations.MarksAndExit := by
  refine ⟨?mark, ?exit⟩
  case mark =>
    intro s m b w tt F C marker needs fires hr ha hp hentries Effects
    have hmiss : timetableMiss s.blk s.cur.w (markerOf m) (s.timetable s.blk) = none := timetableMiss_eq_none hentries
    have heffects : ∀ t : State, MarkedBlock tt b t.blk w marker → Effects t := fun t hm _ =>
      ⟨fun j => hm.getD_ttC j, fun j => hm.getD_ttF j,
        fun j e he hf hk hlen hF => hm.exists_move he hf.1 hf.2 hk hlen hF⟩
    refine ⟨fun h31 => ?plain, fun h31 hsync hw hrun hstop hin hnone hothers hchans hb hpc hnext hslice => ?boundary⟩
    case plain =>
      have hrep : s.ag.rep = none := Runs.rep_eq_none hr rfl
      obtain ⟨hm, hstays, hothers, hhints, hframe⟩ := plainMark_leaves hrep (k := marker) rfl
      refine ⟨_, exec_mark_plain hr ha hp h31 hmiss, heffects _ hm, hstays, fun n hn => hm.chans n hn, hothers, hhints.trans ?_, hframe⟩
      rw [filter_firedAt]
      rfl
    case boundary =>
      have hrep : s.ag.rep = none := (congrArg Agent.rep (agent_own s)).symm.trans (rep_of_boundaryAt hb)
      obtain ⟨x, hone⟩ := boundaryOne_own hpc hnext hstop hin hb
      have hissue := boundaryIssue_only (runningStreams_only hw hrun hothers) hone hslice
      obtain ⟨hm, r, hleaves⟩ := boundaryMark_leaves hrep hissue
      obtain ⟨hreplay, hkept⟩ := hleaves
      exact ⟨_, r, exec_mark_boundary hw hrun hothers hr ha hp h31 hsync hnone hchans hb hmiss, heffects _ hm, hreplay, hkept⟩
  case exit =>
    intro s hr ha hw hidle
    refine ⟨_, exec_exit_runs hr ha hidle, ?_⟩
    set d := dropResults (s.setAg (exitedAgent s.ag)) with hd
    obtain ⟨hmatrix, htile⟩ := dropResults_units (s.setAg (exitedAgent s.ag))
    have hothers : ∀ c, c ≠ s.blk.core → d.core c = s.core c := fun c hc => (dropResults_core _ c).trans (if_neg hc)
    by_cases hlast : d.agentList.all (·.gone) = true
    case neg =>
      rw [exitAgent_notLast hlast]
      exact ⟨rfl, hothers, hmatrix, htile, fun _ => ⟨rfl, (dropResults_core _ _).trans (if_pos rfl)⟩,
        fun h => absurd ((exit_last_iff s).mpr h) hlast⟩
    case pos =>
      rw [exitAgent_last hlast, endBlock_eq]
      refine ⟨rfl, fun c hc => (leaveSlot_other d hc).trans (hothers c hc), ?matrix, ?tile,
        fun h => absurd ((exit_last_iff s).mp hlast) h, fun _ hslot => ?ended⟩
      case matrix => exact (leaveSlot_units d).1.trans hmatrix
      case tile => exact (leaveSlot_units d).2.trans htile
      case ended =>
        obtain ⟨hfree, hctxv⟩ := leaveSlot_slot d hslot
        have hdropped : ∀ r ∈ d.requests.filter fun r => r.block != some d.cur.b, r.block ≠ some d.cur.b :=
          fun r hr => by simpa using List.of_mem_filter hr
        exact ⟨rfl, hfree, hctxv, hdropped, rfl, rfl, returnPoints_blocks (s := leaveSlot d), rfl⟩

end Sys2Proof.Machine
end

section
/-! ## Steps of engines: walks first, and lines of the host given up (R236, R247) -/
namespace Sys2Proof.Machine
variable {s t u : State} {p : Partition} {go : State → State}

/-- The state once a unit's translations have ended with its step. -/
def State.endWalks (t : State) (pages : List (Partition × Word)) : State :=
  { t with engWalks := t.engWalks.filter fun k => !pages.any fun x => k.serves x.1 x.2 }

theorem State.endWalks_nil (t : State) : t.endWalks [] = t := by
  have h : t.engWalks.filter (fun _ => true) = t.engWalks := List.filter_true _
  exact congrArg (fun l => ({ t with engWalks := l } : State)) h

theorem withPages_missing {pages : List (Partition × Word)} {x : Partition × Word}
    (h : pages.find? (fun x => engTr s x.1 x.2 .load == .miss) = some x) : withPages s pages go = engStep s x.1 x.2 := by
  simp only [withPages, h]

theorem withPages_walked {pages : List (Partition × Word)} (h : WalkedAll s pages) : withPages s pages go = (go s).endWalks pages := by
  have hnone : pages.find? (fun x => engTr s x.1 x.2 .load == .miss) = none :=
    List.find?_eq_none.mpr fun x hx => by simpa using h x hx
  simp only [withPages, hnone, State.endWalks]

theorem withWalks_missing {pages : List Word} {va : Word} (h : pages.find? (fun va => engTr s p va .load == .miss) = some va) :
    withWalks s p pages go = engStep s p va := by
  refine withPages_missing (x := (p, va)) ?_
  rw [List.find?_map]
  exact congrArg (Option.map _) h

theorem withWalks_walked {pages : List Word} (h : Walked s p pages) :
    withWalks s p pages go = (go s).endWalks (pages.map fun va => (p, va)) := by
  refine withPages_walked fun x hx => ?_
  obtain ⟨va, hva, rfl⟩ := List.mem_map.mp hx
  exact h va hva

/-- The host has given up lines, and nothing else has changed. -/
def GivenUp (s t : State) : Prop := t = { s with hostLines := t.hostLines }

theorem GivenUp.trans (h : GivenUp s t) (h' : GivenUp t u) : GivenUp s u := by
  unfold GivenUp at h h' ⊢
  rw [h', h]

theorem GivenUp.foldl {α : Type} {f : State → α → State} (hf : ∀ s x, GivenUp s (f s x)) : ∀ (l : List α) (s : State),
    GivenUp s (l.foldl f s)
  | [], _ => rfl
  | x :: l, s => (hf s x).trans (GivenUp.foldl hf l (f s x))

theorem snoopBy_givenUp (tr : Word → Use → Tr) (s : State) (x : Word × Nat) : GivenUp s (snoopBy tr s x) := by
  unfold snoopBy
  split
  · rfl
  · refine GivenUp.foldl (fun s i => ?_) _ s
    split <;> rfl

theorem snoopRead_givenUp (s : State) (p : Partition) (va : Word) (n : Nat) : GivenUp s (s.snoopRead p va n) :=
  snoopBy_givenUp _ _ _

theorem snoopRings_givenUp (s : State) (p : Partition) (st : Stage) : GivenUp s (snoopRings s p st) := by
  refine GivenUp.foldl (fun s va => ?_) _ s
  split
  · rfl
  · exact snoopRead_givenUp _ _ _ _

/-- What is read rests on the translations and the memory alone. -/
theorem readBy_congr {tr : Word → Use → Tr} (hm : t.mem = s.mem) (va : Word) (n : Nat) : readBy tr t va n = readBy tr s va n := by
  induction n generalizing va with
  | zero => rfl
  | succ n ih => simp only [readBy, ih, hm]

theorem readBytes_congr (htr : engTr t p = engTr s p) (hm : t.mem = s.mem) (va : Word) (n : Nat) :
    readBytes t p va n = readBytes s p va n := by
  rw [readBytes, htr, readBy_congr hm, readBytes]

/-- Writes of an engine change the memory and the lines of the host alone. -/
theorem writeBy_only {tr : Word → Use → Tr} {poison : Bool} : ∀ (n : Nat) (s t : State) (va : Word) (v : Nat),
    writeBy tr s va v poison n = some t → t = { s with
      mem := t.mem
      hostLines := t.hostLines }
  | 0, s, t, va, v, h => by
    obtain rfl := Option.some.inj h
    rfl
  | n + 1, s, t, va, v, h => by
    simp only [writeBy] at h
    split at h
    · rename_i pa _
      have hone : s.write pa 1 (fun m => (m.setByte pa (BitVec.ofNat 8 v)).setGranule (pa / 4) poison) = { s with
          mem := (s.write pa 1 fun m => (m.setByte pa (BitVec.ofNat 8 v)).setGranule (pa / 4) poison).mem
          hostLines := (s.write pa 1 fun m => (m.setByte pa (BitVec.ofNat 8 v)).setGranule (pa / 4) poison).hostLines } := by
        unfold State.write
        split <;> rfl
      rw [hone] at h
      have hrest := writeBy_only n _ t _ _ h
      exact hrest
    · contradiction

end Sys2Proof.Machine
end

section
/-! ## The stages of a launch, and the ports of a block -/
namespace Sys2Proof.Machine
variable {s t u : State} {lid no id : Nat} {l l' : Launch} {st : Stage} {w w' : Walker} {P Q : Walker → Prop}

theorem State.launch?_setLaunch (s : State) (a b : Nat) (x : Launch) :
    (s.setLaunch a x).launch? b = if b = a then some x else s.launch? b := by
  unfold State.launch? State.setLaunch
  split
  · next h => rw [h, getKey_putKey_self]
  · next h => exact getKey_putKey_other _ _ _ _ h

theorem setStage_eq (h : s.launch? lid = some l) (f : Stage → Stage) :
    setStage s lid no f = s.setLaunch lid { l with stages := l.stages.modify no f } := by
  simp only [setStage, h]

theorem setStage_only (s : State) (lid no : Nat) (f : Stage → Stage) : setStage s lid no f = { s with
    launches := (setStage s lid no f).launches } := by
  unfold setStage
  split <;> rfl

theorem setStage_launch? (h : s.launch? lid = some l) (f : Stage → Stage) (n : Nat) : (setStage s lid no f).launch? n =
    if n = lid then some { l with stages := l.stages.modify no f } else s.launch? n := by
  rw [setStage_eq h, State.launch?_setLaunch]

/-- The stage that an operation reaches. -/
theorem modify_stage (hst : l.stages[no]? = some st) (f : Stage → Stage) (n : Nat) :
    (l.stages.modify no f)[n]? = if n = no then some (f st) else l.stages[n]? := by
  by_cases hn : n = no
  · rw [hn, if_pos rfl, List.getElem?_modify_eq, hst]
    rfl
  · rw [if_neg hn, List.getElem?_modify_ne _ _ (Ne.symm hn)]

/-- A stage's walker is set. -/
theorem walkerTo_setStage (hl : s.launch? lid = some l) (hst : l.stages[no]? = some st) (hP : P w')
    (ht : t.launches = (setStage s lid no fun x => { x with walker := some w' }).launches) : WalkerTo s t lid no l P := by
  have hlaunch (n : Nat) : t.launch? n = (setStage s lid no fun x => { x with walker := some w' }).launch? n :=
    congrArg (getKey · n) ht
  refine ⟨⟨st, w', hst, hP, _, (hlaunch lid).trans ((setStage_launch? hl _ _).trans (if_pos rfl)), rfl, modify_stage hst _⟩,
    fun n hn => (hlaunch n).trans ((setStage_launch? hl _ _).trans (if_neg hn))⟩

/-- A stage's walker stands as it did. -/
theorem walkerTo_same (hl : t.launch? lid = some l) (hst : l.stages[no]? = some st) (hw : st.walker = some w) (hP : P w)
    (hothers : ∀ n, n ≠ lid → t.launch? n = s.launch? n) : WalkerTo s t lid no l P := by
  refine ⟨⟨st, w, hst, hP, l, hl, rfl, fun n => ?_⟩, hothers⟩
  split
  · next h =>
    rw [h, hst, ← hw]
  · rfl

theorem WalkerTo.congr {t' : State} (h : WalkerTo s t lid no l P) (ht : t'.launches = t.launches) : WalkerTo s t' lid no l P := by
  have hlaunch (n : Nat) : t'.launch? n = t.launch? n := congrArg (getKey · n) ht
  obtain ⟨⟨st, w, hst, hP, l', hl', hkept⟩, hothers⟩ := h
  exact ⟨⟨st, w, hst, hP, l', (hlaunch lid).trans hl', hkept⟩, fun n hn => (hlaunch n).trans (hothers n hn)⟩

theorem WalkerTo.mono (h : WalkerTo s t lid no l P) (hPQ : ∀ w, P w → Q w) : WalkerTo s t lid no l Q := by
  obtain ⟨⟨st, w, hst, hP, hrest⟩, hothers⟩ := h
  exact ⟨⟨st, w, hst, hPQ w hP, hrest⟩, hothers⟩

/-- The stage that a walker has been set in. -/
theorem WalkerTo.stage (h : WalkerTo s t lid no l P) : ∃ l' st w, t.launch? lid = some l' ∧ l'.stages[no]? = some st ∧
    st.walker = some w ∧ P w := by
  obtain ⟨⟨st, w, hst, hP, l', hl', -, hstages⟩, -⟩ := h
  exact ⟨l', { st with walker := some w }, w, hl', (hstages no).trans (if_pos rfl), rfl, hP⟩

/-- A walker set twice. -/
theorem WalkerTo.trans (h : WalkerTo s u lid no l P)
    (h' : ∀ l' w, u.launch? lid = some l' → (∃ st, l'.stages[no]? = some st ∧ st.walker = some w) → P w → WalkerTo u t lid no l' Q) :
    WalkerTo s t lid no l Q := by
  obtain ⟨⟨st, w, hst, hP, l', hl', hl, hstages⟩, hothers⟩ := h
  have hstage : l'.stages[no]? = some { st with walker := some w } := (hstages no).trans (if_pos rfl)
  obtain ⟨⟨st', w', hst', hQ, l'', hl'', hl2, hstages'⟩, hothers'⟩ := h' l' w hl' ⟨_, hstage, rfl⟩ hP
  obtain rfl := Option.some.inj (hstage.symm.trans hst')
  refine ⟨⟨st, w', hst, hQ, l'', hl'', ?_, fun n => ?_⟩, fun n hn => (hothers' n hn).trans (hothers n hn)⟩
  · rw [hl2, hl]
  · rw [hstages' n, hstages n]
    split <;> rfl

/-- A block's port is written. -/
theorem portTo_setBlock {b : Block} {n : Fin 4} {x : Port} (ht : t.blocks = (s.setBlock id (b.setPort n x)).blocks) :
    PortTo s t id b n x := by
  have hblock (k : Nat) : t.block k = (s.setBlock id (b.setPort n x)).block k := congrArg (fun l => (getKey l k).getD Block.reset) ht
  exact ⟨(hblock id).trans ((State.block_setBlock _ _ _ _).trans (if_pos rfl)),
    fun k hk => (hblock k).trans ((State.block_setBlock _ _ _ _).trans (if_neg hk))⟩

end Sys2Proof.Machine
end

section
/-! ## Stages under Weld (R253, R254) -/
namespace Sys2Proof.Machine
variable {s t u : State} {lid no : Nat} {l : Launch} {st : Stage}

theorem getKey_map_value {α β : Type} (g : α → β) (n : Nat) : ∀ l : List (Nat × α),
    getKey (l.map fun p => (p.1, g p.2)) n = (getKey l n).map g
  | [] => rfl
  | (k, v) :: l => by
    simp only [List.map_cons, getKey, getKey_map_value g n l]
    split <;> rfl

/-- Blocks that differ in their agents alone. -/
def AgentsOnly (g : Block → Block) : Prop := ∀ b, g b = { b with agents := (g b).agents }

/-- A state in which a stage has the same sources of work: the rings, the walker, the blocks but for their agents, the requests. -/
structure SameWork (s t : State) (lid no : Nat) : Prop where
  tr : engTr t = engTr s
  mem : t.mem = s.mem
  part : t.part = s.part
  requests : t.requests = s.requests
  walker : ((t.launch? lid).bind (·.stages[no]?)).map (·.walker) = ((s.launch? lid).bind (·.stages[no]?)).map (·.walker)
  blocks : ∃ g, AgentsOnly g ∧ t.blocks = s.blocks.map fun p => (p.1, g p.2)

theorem map_same_blocks (l : List (Nat × Block)) : l = l.map fun p => (p.1, id p.2) := (List.map_id l).symm

theorem agentsOnly_id : AgentsOnly id := fun _ => rfl

theorem SameWork.trans (h : SameWork s t lid no) (h' : SameWork t u lid no) : SameWork s u lid no := by
  obtain ⟨g, hg, hb⟩ := h.blocks
  obtain ⟨g', hg', hb'⟩ := h'.blocks
  refine ⟨h'.tr.trans h.tr, h'.mem.trans h.mem, h'.part.trans h.part, h'.requests.trans h.requests, h'.walker.trans h.walker,
    g' ∘ g, fun b => ?_, ?_⟩
  · rw [Function.comp_apply, hg' (g b), hg b]
  · rw [hb', hb, List.map_map]
    rfl

theorem GivenUp.sameWork (h : GivenUp s t) : SameWork s t lid no := by
  rw [h]
  exact ⟨rfl, rfl, rfl, rfl, rfl, id, agentsOnly_id, map_same_blocks _⟩

theorem setStage_sameWork {f : Stage → Stage} (hl : s.launch? lid = some l) (hf : ∀ x, (f x).walker = x.walker) :
    SameWork s (setStage s lid no f) lid no := by
  refine ⟨?_, ?_, ?_, ?_, ?_, id, agentsOnly_id, ?_⟩
  case _ => rw [setStage_eq hl]; rfl
  case _ => rw [setStage_eq hl]; rfl
  case _ => rw [setStage_eq hl]; rfl
  case _ => rw [setStage_eq hl]; rfl
  case _ =>
    rw [setStage_launch? hl, if_pos rfl, hl]
    simp only [Option.bind_some, List.getElem?_modify_eq, Option.map_eq_map, Option.map_map]
    exact congrArg (Option.map · _) (funext hf)
  case _ => rw [setStage_eq hl]; exact map_same_blocks _

theorem raiseLine6_agents (b : Block) : raiseLine6 b = { b with agents := (raiseLine6 b).agents } := rfl

theorem mapBlocks_sameWork {pick : Block → Bool} {f : Block → Block} (hf : AgentsOnly f) : SameWork s (mapBlocks s pick f) lid no := by
  refine ⟨rfl, rfl, rfl, rfl, rfl, fun b => if pick b then f b else b, fun b => ?_, rfl⟩
  by_cases h : pick b = true
  · simp only [h, if_true]
    exact hf b
  · simp only [h, Bool.false_eq_true, if_false]

section
variable (h : SameWork s t lid no)
include h

theorem SameWork.ringAt_eq (va : Word) : ringAt t (t.part l.part) va = ringAt s (s.part l.part) va := by
  have hread : readBytes t (t.part l.part) va 64 = readBytes s (s.part l.part) va 64 := by
    rw [h.part]
    exact readBytes_congr (by rw [h.tr]) h.mem va 64
  simp only [ringAt, ringView, hread]

theorem SameWork.stageBlocks_eq : ∃ g, AgentsOnly g ∧ stageBlocks t lid no = (stageBlocks s lid no).map fun p => (p.1, g p.2) := by
  obtain ⟨g, hg, hb⟩ := h.blocks
  refine ⟨g, hg, ?_⟩
  rw [stageBlocks, hb, List.filter_map, stageBlocks]
  refine congrArg _ (List.filter_congr fun p _ => ?_)
  rw [Function.comp_apply, hg p.2]

theorem SameWork.stageCount_eq : stageCount t lid no = stageCount s lid no := by
  obtain ⟨g, -, hb⟩ := h.stageBlocks_eq
  rw [stageCount, hb, h.requests, List.length_map, stageCount]

theorem SameWork.postedPoints_eq : postedPoints t lid no = postedPoints s lid no := by
  obtain ⟨g, hg, hb⟩ := h.stageBlocks_eq
  rw [postedPoints, hb, List.any_map, postedPoints]
  refine congrArg (List.any (stageBlocks s lid no)) (funext fun p => ?_)
  have hw := h.walker
  rw [Function.comp_apply, hg p.2]
  cases ht : (t.launch? lid).bind (·.stages[no]?) with
  | none =>
    rw [ht, Option.map_none, eq_comm, Option.map_eq_none_iff] at hw
    simp only [hw]
  | some x =>
    rw [ht, Option.map_some, eq_comm, Option.map_eq_some_iff] at hw
    obtain ⟨y, hy, hxy⟩ := hw
    simp only [hy, hxy]

theorem SameWork.stageFinished_eq : stageFinished t lid no l st = stageFinished s lid no l st := by
  simp only [stageFinished, h.ringAt_eq, h.postedPoints_eq]

theorem SameWork.wanted_eq : wanted t lid no l st = wanted s lid no l st := by
  simp only [wanted, h.ringAt_eq, h.stageCount_eq]

end

/-- The ring of a stage is found closed for the first time. -/
def closesNow (s : State) (l : Launch) (st : Stage) : Bool := (ringAt s (s.part l.part) st.inRing).any (·.closed) && !st.closed

/-- The stage has started: it has no ring, or its ring has had an entry. -/
def startsNow (s : State) (l : Launch) (st : Stage) : Bool := st.started || (ringAt s (s.part l.part) st.inRing).all (·.head != 0)

/-- Weld finds the ring of a stage closed, and raises line 6 in its blocks. -/
def closeRing (s : State) (lid no : Nat) : State :=
  mapBlocks (setStage s lid no fun x => { x with closed := true })
    (fun b => b.launch == lid && b.stage == no && b.status != .ended) raiseLine6

/-- The state in which Weld weighs a stage: its rings are read, and line 6 is raised where its ring is found closed. -/
def weighed (s : State) (lid no : Nat) (l : Launch) (st : Stage) : State :=
  let v := snoopRings s (s.part l.part) st
  if closesNow s l st then closeRing v lid no else v

section
variable (hl : s.launch? lid = some l)
include hl

theorem weighed_sameWork : SameWork s (weighed s lid no l st) lid no := by
  have hsnoop := snoopRings_givenUp s (s.part l.part) st
  have hl' : (snoopRings s (s.part l.part) st).launch? lid = some l := by rw [hsnoop]; exact hl
  refine hsnoop.sameWork.trans ?_
  unfold weighed
  simp only []
  split
  · exact (setStage_sameWork (f := fun x => { x with closed := true }) hl' fun _ => rfl).trans (mapBlocks_sameWork raiseLine6_agents)
  · exact GivenUp.sameWork rfl

theorem weighed_launch : ∃ l', (weighed s lid no l st).launch? lid = some l' := by
  have hsnoop := snoopRings_givenUp s (s.part l.part) st
  have hl' : (snoopRings s (s.part l.part) st).launch? lid = some l := by rw [hsnoop]; exact hl
  unfold weighed
  simp only []
  split
  · exact ⟨_, (setStage_launch? hl' _ _).trans (if_pos rfl)⟩
  · exact ⟨l, hl'⟩

variable (hst : l.stages[no]? = some st)
include hst

/-- One stage is evaluated: line 6 where its ring is found closed, then the end of its work or the requests for instances. -/
theorem evalStage_eq : evalStage s lid no = if stageFinished s lid no l st then finishStage (weighed s lid no l st) lid no (startsNow s l st)
    else
      let t := setStage (weighed s lid no l st) lid no fun x => { x with started := startsNow s l st }
      if startsNow s l st then addRequests t lid no l st (wanted s lid no l st) else t := by
  have hring : ringAt (snoopRings s (s.part l.part) st) (s.part l.part) st.inRing = ringAt s (s.part l.part) st.inRing := by
    have h := (snoopRings_givenUp s (s.part l.part) st).sameWork (lid := lid) (no := no)
    rw [← h.ringAt_eq, h.part]
  have hsame := weighed_sameWork (no := no) (st := st) hl
  obtain ⟨l', hl'⟩ := weighed_launch (no := no) (st := st) hl
  have hwanted := (hsame.trans (setStage_sameWork (f := fun x => { x with started := startsNow s l st }) hl' fun _ => rfl)).wanted_eq
    (l := l) (st := st)
  rw [← hwanted, ← hsame.stageFinished_eq]
  simp only [evalStage, hl, Option.bind_some, hst, Option.map_some, hring, weighed, closesNow, startsNow]
  obtain hr | ⟨r, hr⟩ := Option.eq_none_or_eq_some (ringAt s (s.part l.part) st.inRing) <;> simp only [hr] <;> rfl

end

/-- A step of Weld over stages changes the launches, the blocks, the requests and the lines of the host alone. -/
def WeldOnly (s t : State) : Prop := t = { s with
  hostLines := t.hostLines
  launches := t.launches
  blocks := t.blocks
  requests := t.requests }

theorem WeldOnly.trans (h : WeldOnly s t) (h' : WeldOnly t u) : WeldOnly s u := by
  unfold WeldOnly at h h' ⊢
  rw [h', h]

theorem WeldOnly.foldl {α : Type} {f : State → α → State} (hf : ∀ s x, WeldOnly s (f s x)) : ∀ (l : List α) (s : State),
    WeldOnly s (l.foldl f s)
  | [], _ => rfl
  | x :: l, s => (hf s x).trans (WeldOnly.foldl hf l (f s x))

theorem GivenUp.weldOnly (h : GivenUp s t) : WeldOnly s t := by
  rw [h]
  rfl

theorem setStage_weldOnly (s : State) (lid no : Nat) (f : Stage → Stage) : WeldOnly s (setStage s lid no f) := by
  rw [setStage_only]
  rfl

theorem weighed_weldOnly (s : State) (lid no : Nat) (l : Launch) (st : Stage) : WeldOnly s (weighed s lid no l st) := by
  refine (snoopRings_givenUp s (s.part l.part) st).weldOnly.trans ?_
  unfold weighed
  simp only []
  split
  · exact (setStage_weldOnly _ _ _ _).trans rfl
  · rfl

theorem evalStage_weldOnly (s : State) (lid no : Nat) : WeldOnly s (evalStage s lid no) := by
  cases hl : s.launch? lid with
  | none => simp only [evalStage, hl, Option.bind_none]; rfl
  | some l =>
    cases hst : l.stages[no]? with
    | none => simp only [evalStage, hl, Option.bind_some, hst, Option.map_none]; rfl
    | some st =>
      rw [evalStage_eq hl hst]
      refine (weighed_weldOnly s lid no l st).trans ?_
      split
      · have hrequests : WeldOnly (weighed s lid no l st) { weighed s lid no l st with
          requests := (weighed s lid no l st).requests.filter fun r => !(r.launch == lid && r.stage == no && r.block.isNone) } := rfl
        exact hrequests.trans (setStage_weldOnly _ _ _ _)
      · simp only []
        split
        · exact (setStage_weldOnly _ _ _ _).trans rfl
        · exact setStage_weldOnly _ _ _ _

/-- The date of a new request lies after every request and every suspension. -/
theorem lt_foldl_max {α : Type} (f : α → Nat) : ∀ (l : List α) (n : Nat), n ≤ l.foldl (fun n x => max n (f x + 1)) n ∧
    ∀ x ∈ l, f x < l.foldl (fun n x => max n (f x + 1)) n
  | [], n => ⟨le_rfl, by simp⟩
  | a :: l, n => by
    obtain ⟨hle, hlt⟩ := lt_foldl_max f l (max n (f a + 1))
    refine ⟨le_trans (le_max_left _ _) hle, fun x hx => ?_⟩
    obtain rfl | hx := List.mem_cons.mp hx
    · exact lt_of_lt_of_le (Nat.lt_succ_self _) (le_trans (le_max_right _ _) hle)
    · exact hlt x hx

theorem nextStamp_after (s : State) : (∀ x ∈ s.requests, x.made < nextStamp s) ∧ (∀ x ∈ s.blocks, x.2.suspended < nextStamp s) := by
  obtain ⟨-, hblocks⟩ := lt_foldl_max (fun p : Nat × Block => p.2.suspended) s.blocks (s.blk.suspended + 1)
  obtain ⟨hle, hrequests⟩ := lt_foldl_max Request.made s.requests
    (s.blocks.foldl (fun n p => max n (p.2.suspended + 1)) (s.blk.suspended + 1))
  exact ⟨hrequests, fun x hx => lt_of_lt_of_le (hblocks x hx) hle⟩

theorem SameWork.stamp_after (h : SameWork s t lid no) :
    (∀ x ∈ s.requests, x.made < nextStamp t) ∧ (∀ x ∈ s.blocks, x.2.suspended < nextStamp t) := by
  obtain ⟨hrequests, hblocks⟩ := nextStamp_after t
  obtain ⟨g, hg, hb⟩ := h.blocks
  refine ⟨fun x hx => hrequests x (by rwa [h.requests]), fun x hx => ?_⟩
  have hx' := hblocks (x.1, g x.2) (by rw [hb]; exact List.mem_map_of_mem (f := fun p => (p.1, g p.2)) hx)
  rwa [hg x.2] at hx'

/-- The stage has a ring, and it is as Weld reads it. -/
theorem ringAt_of_ne {va : Word} {p : Partition} (h : va ≠ 0) : ringAt s p va = some (ringView s p va) := if_neg h
theorem ringAt_zero {p : Partition} : ringAt s p 0 = none := if_pos rfl

theorem ringView_fields {va : Word} {p : Partition} {v : Nat} {e : Bool} (h : readBytes s p va 64 = some (v, e)) :
    let f (n : Nat) : Nat := v / 2 ^ (64 * n) % 2 ^ 64
    let occ := (f 3 + 2 ^ 64 - f 4) % 2 ^ 64
    ringView s p va = ⟨BitVec.ofNat 64 (f 3), min occ (f 1), decide (f 1 < occ), f 5 / 2 ^ 32, f 5 % 2 ^ 32, decide (f 7 ≠ 0)⟩ := by
  intro f occ
  have hlt (n : Nat) : f n < 2 ^ 64 := Nat.mod_lt _ (by decide)
  have hocc : (BitVec.ofNat 64 (f 3) - BitVec.ofNat 64 (f 4)).toNat = occ := by
    rw [BitVec.toNat_sub, BitVec.toNat_ofNat, BitVec.toNat_ofNat, Nat.mod_eq_of_lt (hlt 3), Nat.mod_eq_of_lt (hlt 4)]
    have h3 := hlt 3
    have h4 := hlt 4
    omega
  have hclosed : (f 7 != 0) = decide (f 7 ≠ 0) := by simp [bne, beq_eq_decide]
  simp only [ringView, h]
  exact (congrArg₂ (fun o c => (⟨BitVec.ofNat 64 (f 3), min o (f 1), decide (f 1 < o), f 5 / 2 ^ 32, f 5 % 2 ^ 32, c⟩ : RingView))
    hocc hclosed)

theorem startsNow_iff : startsNow s l st = true ↔ st.started = true ∨ st.inRing = 0 ∨
    (ringView s (s.part l.part) st.inRing).head ≠ 0 := by
  by_cases h : st.inRing = 0
  · rw [startsNow, h, ringAt_zero]
    simp
  · have h' : st.inRing ≠ 0#64 := h
    simp [startsNow, ringAt_of_ne h, h']

theorem closesNow_iff : closesNow s l st = true ↔ st.inRing ≠ 0 ∧ (ringView s (s.part l.part) st.inRing).closed = true ∧
    st.closed = false := by
  by_cases h : st.inRing = 0
  · rw [closesNow, h, ringAt_zero]
    simp
  · have h' : st.inRing ≠ 0#64 := h
    simp [closesNow, ringAt_of_ne h, h']

/-- How many instances Weld asks for, by the five rules of R254. -/
theorem wanted_eq_rules {n : Nat} {ring out : RingView} (hring : ring = ringView s (s.part l.part) st.inRing)
    (hout : out = ringView s (s.part l.part) st.outRing) (hn : n = stageCount s lid no) : wanted s lid no l st =
    (if n < st.minInst then st.minInst - n
      else if n = 0 ∧ st.inRing ≠ 0 ∧ 1 ≤ ring.occ ∧ ring.closed = true then 1
      else if st.inRing ≠ 0 ∧ ring.occ ≤ ring.lwm then 0
      else if (st.inRing ≠ 0 ∧ (ring.hwm ≤ ring.occ ∨ ring.full = true) ∨ st.pointsLeft l = true) ∧
        (st.outRing = 0 ∨ out.occ < out.hwm ∧ out.full = false) ∧ n < st.maxInst then 1 else 0) := by
  have hin (f : RingView → Bool) : (ringAt s (s.part l.part) st.inRing).any f = true ↔ st.inRing ≠ 0 ∧ f ring = true := by
    by_cases h : st.inRing = 0
    · rw [h, ringAt_zero]
      simp
    · have h' : st.inRing ≠ 0#64 := h
      rw [ringAt_of_ne h, ← hring]
      simp [h']
  have hroom : (ringAt s (s.part l.part) st.outRing).all (fun r => decide (r.occ < r.hwm) && !r.full) = true ↔
      st.outRing = 0 ∨ out.occ < out.hwm ∧ out.full = false := by
    by_cases h : st.outRing = 0
    · rw [h, ringAt_zero]
      simp
    · have h' : st.outRing ≠ 0#64 := h
      rw [ringAt_of_ne h, ← hout]
      simp [h']
  have hask : wanted s lid no l st = (if n < st.minInst then st.minInst - n
      else if (n == 0 && (ringAt s (s.part l.part) st.inRing).any fun r => decide (1 ≤ r.occ) && r.closed) = true then 1
      else if ((ringAt s (s.part l.part) st.inRing).any fun r => decide (r.occ ≤ r.lwm)) = true then 0
      else if ((((ringAt s (s.part l.part) st.inRing).any fun r => decide (r.hwm ≤ r.occ) || r.full) || st.pointsLeft l) &&
        ((ringAt s (s.part l.part) st.outRing).all fun r => decide (r.occ < r.hwm) && !r.full) && decide (n < st.maxInst)) = true
      then 1 else 0) := by
    rw [hn]
    unfold wanted
    obtain hi | ⟨x, hi⟩ := Option.eq_none_or_eq_some (ringAt s (s.part l.part) st.inRing) <;>
    obtain ho | ⟨y, ho⟩ := Option.eq_none_or_eq_some (ringAt s (s.part l.part) st.outRing) <;>
    simp only [hi, ho] <;> rfl
  rw [hask]
  refine if_congr Iff.rfl rfl (if_congr ?one rfl (if_congr ?none rfl (if_congr ?more rfl rfl)))
  case one => rw [Bool.and_eq_true, hin]; simp
  case none => rw [hin]; simp
  case more => rw [Bool.and_eq_true, Bool.and_eq_true, Bool.or_eq_true, hin, hroom]; simp [and_assoc]

theorem getKey_mapBlocks (s : State) (pick : Block → Bool) (f : Block → Block) (b : Nat) :
    getKey (mapBlocks s pick f).blocks b = (getKey s.blocks b).map fun x => if pick x then f x else x :=
  getKey_map_value (fun x => if pick x then f x else x) b s.blocks

theorem raiseLine6_agent (b : Block) (k : Fin 5) : (raiseLine6 b).agents[k] =
    if k ≠ 4 then { b.agents[k] with ctl := { b.agents[k].ctl with line6 := true } } else b.agents[k] := by
  refine (Vector.getElem_mapIdx _).trans (if_congr ?_ rfl rfl)
  omega

theorem raiseLine5_agent (b : Block) (k : Fin 5) : (raiseLine5 b).agents[k] =
    if k ≠ 4 then { b.agents[k] with ctl := { b.agents[k].ctl with line5 := true } } else b.agents[k] := by
  refine (Vector.getElem_mapIdx _).trans (if_congr ?_ rfl rfl)
  omega

/-- Line 6 is raised in the blocks of a stage whose ring Weld finds closed. -/
theorem weighed_block (s : State) (lid no : Nat) (l : Launch) (st : Stage) (b : Nat) : getKey (weighed s lid no l st).blocks b =
    (getKey s.blocks b).map fun x => if closesNow s l st = true ∧ x.launch = lid ∧ x.stage = no ∧ x.status ≠ .ended
      then raiseLine6 x else x := by
  have hsnoop : (snoopRings s (s.part l.part) st).blocks = s.blocks := by rw [snoopRings_givenUp s (s.part l.part) st]
  by_cases hclose : closesNow s l st = true
  · simp only [weighed, hclose, if_true, closeRing, true_and]
    rw [getKey_mapBlocks, setStage_only, hsnoop]
    simp [and_assoc]
  · simp only [weighed, hclose, Bool.false_eq_true, if_false, false_and, hsnoop]
    exact Option.map_id'.symm

section
variable (hl : s.launch? lid = some l) (hst : l.stages[no]? = some st)
include hl hst

theorem evalStage_finished (hfin : stageFinished s lid no l st = true) :
    (evalStage s lid no).requests = s.requests.filter (fun r => !(r.launch == lid && r.stage == no && r.block.isNone)) ∧
    ∃ l' x, (evalStage s lid no).launch? lid = some l' ∧ l'.stages[no]? = some x ∧ x.finished = true := by
  have hsame := weighed_sameWork (no := no) (st := st) hl
  obtain ⟨l', hl'⟩ := weighed_launch (no := no) (st := st) hl
  obtain ⟨x, hx⟩ : ∃ x, l'.stages[no]? = some x := by
    have hwalker := hsame.walker
    rw [hl', hl, Option.bind_some, Option.bind_some, hst, Option.map_some, Option.map_eq_some_iff] at hwalker
    obtain ⟨x, hx, -⟩ := hwalker
    exact ⟨x, hx⟩
  rw [evalStage_eq hl hst, if_pos hfin]
  constructor
  · rw [finishStage, setStage_only]
    simp only [hsame.requests]
  · exact ⟨_, _, (setStage_launch? (s := { weighed s lid no l st with
      requests := (weighed s lid no l st).requests.filter fun r => !(r.launch == lid && r.stage == no && r.block.isNone) }) hl' _ _).trans
      (if_pos rfl), (modify_stage hx _ _).trans (if_pos rfl), rfl⟩

theorem evalStage_blocks : ∀ b, getKey (evalStage s lid no).blocks b = getKey (weighed s lid no l st).blocks b := by
  intro b
  rw [evalStage_eq hl hst]
  split
  · rw [finishStage, setStage_only]
  · simp only []
    split
    · rw [addRequests, setStage_only]
    · rw [setStage_only]

theorem evalStage_requests (hfin : stageFinished s lid no l st = false) : (evalStage s lid no).requests =
    if startsNow s l st = true then s.requests ++ List.replicate (wanted s lid no l st) ⟨l.part, lid, no, st.prio, none,
      nextStamp (setStage (weighed s lid no l st) lid no fun x => { x with started := startsNow s l st })⟩ else s.requests := by
  have hrequests : (setStage (weighed s lid no l st) lid no fun x => { x with started := startsNow s l st }).requests = s.requests := by
    rw [setStage_only]
    exact (weighed_sameWork (no := no) (st := st) hl).requests
  rw [evalStage_eq hl hst, hfin, if_neg (by decide)]
  simp only []
  split
  · rw [addRequests, hrequests]
  · exact hrequests

end

/-- The date of the requests that Weld makes. -/
theorem evalStage_stamp_after (hl : s.launch? lid = some l) :
    (∀ x ∈ s.requests, x.made < nextStamp (setStage (weighed s lid no l st) lid no fun x => { x with started := startsNow s l st })) ∧
    ∀ x ∈ s.blocks, x.2.suspended < nextStamp (setStage (weighed s lid no l st) lid no fun x => { x with started := startsNow s l st }) := by
  obtain ⟨l', hl'⟩ := weighed_launch (no := no) (st := st) hl
  exact ((weighed_sameWork hl).trans (setStage_sameWork (f := fun x => { x with started := startsNow s l st }) hl' fun _ => rfl)).stamp_after

end Sys2Proof.Machine
end

section
/-! ## Weld's evaluation (R253, R254) -/
namespace Sys2Proof.Machine
variable {s t u : State} {lid part : Nat} {l : Launch} {st : Stage}

/-- The partition once Weld has begun its evaluation at a multiple of 16,384. -/
def weldBegun (s : State) (part : Nat) : State := s.setPart part { s.part part with
  weldAt := if (s.part part).weldOpen = true then (s.part part).weldAt else some (s.now 0)
  weldOpen := true }

/-- The launches that Weld evaluates, and the pages of their rings. -/
def weldLaunches (s : State) (part : Nat) : List (Nat × Launch) := s.launches.filter fun q => q.2.part == part && !rungStops s q.1
def weldRings (s : State) (part : Nat) : List Word := (weldLaunches s part).flatMap fun q => q.2.stages.flatMap Stage.ringPages

/-- The stages of some launches are evaluated in order. -/
def evalLaunches (ls : List (Nat × Launch)) (s : State) : State :=
  ls.foldl (fun s q => (List.range q.2.stages.length).foldl (fun s no => evalStage s q.1 no) s) s

theorem exec_weldTick_idle (hclosed : (s.part part).weldOpen = false)
    (h : (s.part part).active = false ∨ (s.now 0).toNat % 16384 ≠ 0 ∨ (s.part part).weldAt = some (s.now 0)) :
    exec (.weldTick part) s = .next s := by
  rw [exec_weldTick, execWeldTick]
  refine congrArg _ (if_neg ?_)
  rw [hclosed]
  rcases h with h | h | h <;> simp [h]

theorem exec_weldTick_due (h : (s.part part).weldOpen = true ∨
    (s.part part).active = true ∧ (s.now 0).toNat % 16384 = 0 ∧ (s.part part).weldAt ≠ some (s.now 0)) :
    exec (.weldTick part) s = .next (withWalks (weldBegun s part) (s.part part) (weldRings s part) fun s' =>
      evalLaunches (weldLaunches s part) (s'.setPart part { s'.part part with weldOpen := false })) := by
  rw [exec_weldTick, execWeldTick]
  refine congrArg _ (if_pos ?_)
  rcases h with h | ⟨h, h', h''⟩
  · simp [h]
  · simp [h, h', h'']

theorem evalLaunches_weldOnly (ls : List (Nat × Launch)) (s : State) : WeldOnly s (evalLaunches ls s) := by
  unfold evalLaunches
  refine WeldOnly.foldl (fun s q => ?_) ls s
  exact WeldOnly.foldl (fun s no => evalStage_weldOnly s q.1 no) _ s

theorem weldLaunches_one (hone : s.launches = [(lid, l)]) : weldLaunches s part =
    if l.part = part ∧ rungStops s lid = false then [(lid, l)] else [] := by
  rw [weldLaunches, hone]
  by_cases h : l.part = part ∧ rungStops s lid = false
  · simp [h]
  · rw [if_neg h, List.filter_eq_nil_iff]
    intro q hq
    obtain rfl := List.mem_singleton.mp hq
    simpa using h

/-- What Weld's evaluation leaves, once it has walked to the rings. -/
theorem weldTick_evaluates (h : (s.part part).weldOpen = true ∨
      (s.part part).active = true ∧ (s.now 0).toNat % 16384 = 0 ∧ (s.part part).weldAt ≠ some (s.now 0))
    (hwalked : Walked (weldBegun s part) (s.part part) (weldRings s part)) :
    let v := (weldBegun s part).setPart part { (weldBegun s part).part part with weldOpen := false }
    ∃ t, exec (.weldTick part) s = .next t ∧
      (t.part part).weldAt = ((weldBegun s part).part part).weldAt ∧ (t.part part).weldOpen = false ∧
      (s.launches = [(lid, l)] → l.part ≠ part ∨ rungStops s lid = true → t = v) ∧
      (s.launches = [(lid, l)] → l.part = part → rungStops s lid = false → l.stages = [st] → t = { evalStage v lid 0 with
        engWalks := t.engWalks }) := by
  intro v
  have hparts : (evalLaunches (weldLaunches s part) v).part part = v.part part := by rw [evalLaunches_weldOnly (weldLaunches s part) v]; rfl
  refine ⟨_, (exec_weldTick_due h).trans (congrArg _ (withWalks_walked hwalked)), ?at_, ?open_, fun hone hout => ?none, fun hone hpart hrung hst => ?one⟩
  case at_ =>
    refine (congrArg Partition.weldAt hparts).trans ?_
    rw [State.part_setPart, if_pos rfl]
  case open_ =>
    refine (congrArg Partition.weldOpen hparts).trans ?_
    rw [State.part_setPart, if_pos rfl]
  case none =>
    have hnone : weldLaunches s part = [] := by
      rw [weldLaunches_one hone]
      refine if_neg fun hin => ?_
      rcases hout with hout | hout
      · exact hout hin.1
      · simp [hin.2] at hout
    rw [weldRings, hnone]
    exact State.endWalks_nil _
  case one =>
    have hl : weldLaunches s part = [(lid, l)] := by rw [weldLaunches_one hone, if_pos ⟨hpart, hrung⟩]
    have heval : evalLaunches [(lid, l)] v = evalStage v lid 0 := by
      simp only [evalLaunches, List.foldl_cons, List.foldl_nil, hst, List.length_singleton]
      rfl
    rw [hl, heval]
    rfl

end Sys2Proof.Machine
end

section
/-! ## The block walker's posts (R258, R266 to R268) -/
namespace Sys2Proof.Machine
variable {s t u : State} {id k : Nat} {B : Block} {l : Launch} {st : Stage} {w w' : Walker} {c : CovRec} {v : Word}

theorem gridOf_some (h : gridOf s B = some (l, st, w)) :
    s.launch? B.launch = some l ∧ l.stages[B.stage]? = some st ∧ st.walker = some w := by
  simp only [gridOf, Option.bind_eq_some_iff, Option.map_eq_some_iff, Prod.mk.injEq] at h
  obtain ⟨l', hl, st', hst, w', hw, rfl, rfl, rfl⟩ := h
  exact ⟨hl, hst, hw⟩

/-- Is the point kept, under the fraction of its plane? -/
def Walker.keeps (w : Walker) (c : CovRec) (j : Nat) : Bool := keptUnder c w (w.planes.getD (w.point j).z 256) (w.point j)

/-- The walker passes over the points that are neither kept nor audited, up to the first that is. -/
theorem scanPoints_covered {lnum : Nat} {covctl : Word} : ∀ (n : Nat) (w : Walker), w.pidx ≤ k → k < w.total → k < w.pidx + n →
    (∀ j, j ≤ k → (w.point j).z < w.planes.length) →
    (∀ j, w.pidx ≤ j → j < k → w.keeps c j = false ∧ auditPoint c lnum j covctl = false) →
    w.keeps c k = true ∨ auditPoint c lnum k covctl = true →
    scanPoints (some c) lnum covctl n w = .point k (!w.keeps c k) { w with
      pidx := k + 1
      idx := w.idx + 1 }
  | 0, w, hle, _, hn, _, _, _ => by omega
  | n + 1, w, hle, htotal, hn, hplanes, hskip, hk => by
    have hz : (w.point w.pidx).z < w.planes.length := hplanes _ hle
    have hkept : keptUnder c w (w.planes.getD (w.point w.pidx).z 256) (w.point w.pidx) = w.keeps c w.pidx := rfl
    rw [scanPoints, if_neg (by omega)]
    simp only [if_pos hz, hkept]
    obtain heq | hlt := Nat.eq_or_lt_of_le hle
    · rw [heq]
      by_cases hkeep : w.keeps c k = true
      · simp only [hkeep, if_true, Bool.not_true]
      · simp only [hkeep, hk.resolve_left hkeep, Bool.false_eq_true, if_false, if_true, Bool.not_false]
    · obtain ⟨hkeep, haudit⟩ := hskip w.pidx le_rfl hlt
      simp only [hkeep, haudit, Bool.false_eq_true, if_false]
      exact scanPoints_covered n { w with pidx := w.pidx + 1 } hlt htotal (by simp only []; omega) hplanes
        (fun j hj hjk => hskip j (by simp only [] at hj; omega) hjk) hk

theorem scanPoints_done {cov : Option CovRec} {lnum : Nat} {covctl : Word} {n : Nat} (h : w.total ≤ w.pidx) :
    scanPoints cov lnum covctl n w = .done := by
  cases n with
  | zero => rfl
  | succ n => rw [scanPoints, if_pos h]

theorem next_uncovered (hcov : st.cov = none) (h : w.pidx < w.total) : l.next st w = .point w.pidx false { w with
    pidx := w.pidx + 1
    idx := w.idx + 1 } := by
  obtain ⟨n, hn⟩ : ∃ n, w.total = n + 1 := ⟨w.total - 1, by omega⟩
  simp only [Launch.next, hcov]
  rw [hn, scanPoints, if_neg (by omega)]

/-- The smaller of two points taken back. -/
def smallerPoint (best : Option (Nat × Word)) (x : Nat × Word) : Option (Nat × Word) :=
  match best with
  | none => some x
  | some y => if x.1 < y.1 then some x else some y

/-- The first of the points taken back that has the smallest index. -/
theorem foldl_smallerPoint {x : Nat × Word} : ∀ (r : List (Nat × Word)) (best : Option (Nat × Word)), (∀ y ∈ r, y ≠ x → x.1 < y.1) →
    (best = some x ∨ x ∈ r ∧ ∀ y, best = some y → x.1 < y.1) → r.foldl smallerPoint best = some x
  | [], best, _, h => by simpa using h
  | a :: r, best, hmin, h => by
    refine foldl_smallerPoint r _ (fun y hy => hmin y (List.mem_cons_of_mem _ hy)) ?_
    have ha : a ≠ x → x.1 < a.1 := hmin a List.mem_cons_self
    by_cases hax : a = x
    · subst hax
      left
      rcases h with rfl | ⟨-, h⟩
      · simp [smallerPoint]
      · cases best with
        | none => rfl
        | some y => exact if_pos (h y rfl)
    · have hlt := ha hax
      rcases h with rfl | ⟨hmem, h⟩
      · left
        exact if_neg (by omega)
      · right
        refine ⟨(List.mem_cons.mp hmem).resolve_left (Ne.symm hax), fun y hy => ?_⟩
        cases best with
        | none =>
          obtain rfl := Option.some.inj hy
          exact hlt
        | some z =>
          have hz := h z rfl
          simp only [smallerPoint] at hy
          split at hy <;> obtain rfl := Option.some.inj hy <;> assumption

theorem firstReturned_eq {x : Nat × Word} (hx : x ∈ w.returned) (hmin : ∀ y ∈ w.returned, y ≠ x → x.1 < y.1) :
    firstReturned w = some x :=
  foldl_smallerPoint w.returned none hmin (.inr ⟨hx, fun _ h => by simp at h⟩)

theorem nextPost_returned {x : Nat × Word} {e : Bool} (hx : x ∈ w.returned) (hmin : ∀ y ∈ w.returned, y ≠ x → x.1 < y.1) :
    nextPost id l st w e = some (x.2, { w with
      returned := w.returned.erase x
      handed := w.handed ++ [⟨x.1, x.2, id, false, none⟩] }) := by
  simp only [nextPost, firstReturned_eq hx hmin]

theorem nextPost_point {e a : Bool} (hr : w.returned = []) (hn : l.next st w = .point k a w') : nextPost id l st w e =
    some (pointValue (w.point k) a, { w' with handed := w'.handed ++ [⟨w.idx, pointValue (w.point k) a, id, false, none⟩] }) := by
  simp only [nextPost, firstReturned, hr, List.foldl_nil, hn]

theorem nextPost_done (hr : w.returned = []) (h : w.total ≤ w.pidx) : nextPost id l st w true = some (BitVec.allOnes 64, w) := by
  simp only [nextPost, firstReturned, hr, List.foldl_nil, Launch.next, scanPoints_done h, if_true]

/-- A block's port 0 has been given an element. -/
structure Gives (s t : State) (id : Nat) (B : Block) (v : Word) : Prop where
  port : PortTo s t id B 0 { B.ports[0] with res := B.ports[0].res ++ [(v, false)] }
  frame : t = { s with
    blocks := t.blocks
    launches := t.launches }

section
variable (hb : getKey s.blocks id = some B) (hrun : B.status = .running) (hfew : B.ports[0].res.length - B.ports[0].resClaims < 2)
  (hroom : B.ports[0].res.length < 16)
include hb hrun hfew hroom

/-- The walker posts where it has an element to post. -/
theorem walkerPost_posts (hg : gridOf s B = some (l, st, w))
    (hn : nextPost id l st w (B.ports[0].res.length - B.ports[0].resClaims == 0) = some (v, w')) :
    ∃ t, exec (.walkerPost id) s = .next t ∧ Gives s t id B v ∧ WalkerTo s t B.launch B.stage l fun x => x = w' := by
  obtain ⟨hl, hst, -⟩ := gridOf_some hg
  have hpost : exec (.walkerPost id) s = .next
      ((setStage s B.launch B.stage fun x => { x with walker := some w' }).setBlock id (postPort0 B v)) := by
    rw [exec_walkerPost, execWalkerPost, walkerPost]
    simp only [hb]
    rw [if_neg (by rw [hrun]; simp only [not_true, ne_eq, false_or]; omega)]
    simp only [hg, hn]
  refine ⟨_, hpost, ⟨portTo_setBlock ?_, ?_⟩, walkerTo_setStage hl hst rfl rfl⟩
  · rw [setStage_only]
    rfl
  · rw [setStage_only]
    rfl

omit hfew in
theorem walkerPost_ungridded (hg : gridOf s B = none) (hempty : B.ports[0].res.length - B.ports[0].resClaims = 0) :
    ∃ t, exec (.walkerPost id) s = .next t ∧ Gives s t id B (BitVec.allOnes 64) ∧ t.launches = s.launches := by
  have hpost : exec (.walkerPost id) s = .next (s.setBlock id (postPort0 B (BitVec.allOnes 64))) := by
    rw [exec_walkerPost, execWalkerPost, walkerPost]
    simp only [hb]
    rw [if_neg (by rw [hrun]; simp only [not_true, ne_eq, false_or]; omega)]
    simp only [hg, hempty, if_true]
  exact ⟨_, hpost, ⟨portTo_setBlock rfl, rfl⟩, rfl⟩

end

end Sys2Proof.Machine
end

section
/-! ## Reports (R260, R262, R267, R336) -/
namespace Sys2Proof.Machine
variable {s t u : State} {lid no id : Nat} {B : Block} {l : Launch} {st : Stage} {w w' x : Walker} {v : Word} {r : List Word}
  {mark mark' : Handed → Bool}

theorem Reported.refl (w : Walker) : Reported w w fun _ => false := by
  refine ⟨rfl, by simp, fun i h h' hi hi' _ => ?_⟩
  rw [Option.some.inj (hi.symm.trans hi')]

/-- A report, and then the errors of points that can be measured. -/
theorem Reported.trans (h : Reported w w' mark) (herr : w'.handed.map (·.error) = w.handed.map (·.error))
    (h63 : w'.handed.map (·.point) = w.handed.map (·.point)) (h' : Reported w' x fun _ => false) : Reported w x mark := by
  obtain ⟨hw, hmap, herror⟩ := h
  obtain ⟨hw', hmap', herror'⟩ := h'
  refine ⟨?_, ?_, fun i a b ha hb hab => ?_⟩
  · rw [hw', hw]
  · rw [hmap', ← hmap]
    simp
  · have hlen : i < w'.handed.length := by
      have h := congrArg List.length herr
      simp only [List.length_map] at h
      rw [h]
      exact (List.getElem?_eq_some_iff.mp ha).1
    have hc := List.getElem?_eq_getElem hlen
    have hpoint : (w'.handed[i]).point = a.point := by
      have h := congrArg (·[i]?) h63
      simp only [List.getElem?_map, hc, ha, Option.map_some, Option.some.injEq] at h
      exact h
    have herr' : (w'.handed[i]).error = a.error := by
      have h := congrArg (·[i]?) herr
      simp only [List.getElem?_map, hc, ha, Option.map_some, Option.some.injEq] at h
      exact h
    rw [herror' i _ b hc hb (by rw [herr', hpoint]; exact hab), herr']

/-- A walker whose measurable audit points have errors, by some rule. -/
def Walker.measured (w : Walker) (f : Handed → Option Nat) : Walker :=
  { w with handed := w.handed.map fun h => if h.unmeasured then { h with error := f h } else h }

theorem reported_measured (w : Walker) (f : Handed → Option Nat) : Reported w (w.measured f) fun _ => false := by
  refine ⟨rfl, ?_, fun i h h' hi hi' hkept => ?_⟩
  · simp only [Walker.measured, List.map_map]
    refine List.map_congr_left fun h _ => ?_
    simp only [Function.comp_apply, Bool.or_false]
    split <;> rfl
  · have hnot : h.unmeasured = false := by
      rcases hkept with he | hp
      · rw [Handed.unmeasured, Bool.and_eq_false_iff]
        right
        cases hh : h.error <;> simp_all
      · rw [Handed.unmeasured, hp]
        rfl
    simp only [Walker.measured, List.getElem?_map, hi, Option.map_some, Option.some.injEq, hnot, Bool.false_eq_true, if_false] at hi'
    rw [hi']

/-- The walker once a report has marked its point. -/
def Walker.marked (w : Walker) (v : Word) (id : Nat) : Walker :=
  { w with handed := w.handed.map fun h => if h.point = v ∧ h.block = id then { h with reported := true } else h }

theorem reported_marked (w : Walker) (v : Word) (id : Nat) : Reported w (w.marked v id) fun h => h.point == v && h.block == id := by
  refine ⟨rfl, ?_, fun i h h' hi hi' _ => ?_⟩
  · simp only [Walker.marked, List.map_map]
    refine List.map_congr_left fun h _ => ?_
    simp only [Function.comp_apply]
    by_cases hh : h.point = v ∧ h.block = id
    · simp [hh]
    · have hf : (h.point == v && h.block == id) = false := by simpa using hh
      rw [if_neg hh, hf, Bool.or_false]
  · simp only [Walker.marked, List.getElem?_map, hi, Option.map_some, Option.some.injEq] at hi'
    rw [← hi']
    split <;> rfl

theorem marked_errors (w : Walker) (v : Word) (id : Nat) : (w.marked v id).handed.map (·.error) = w.handed.map (·.error) ∧
    (w.marked v id).handed.map (·.point) = w.handed.map (·.point) := by
  simp only [Walker.marked, List.map_map]
  constructor <;> refine List.map_congr_left fun h _ => ?_ <;> simp only [Function.comp_apply] <;> split <;> rfl

/-- A step changes the launches and the lines of the host alone. -/
def LaunchesOnly (s t : State) : Prop := t = { s with
  launches := t.launches
  hostLines := t.hostLines }

theorem LaunchesOnly.trans (h : LaunchesOnly s t) (h' : LaunchesOnly t u) : LaunchesOnly s u := by
  unfold LaunchesOnly at h h' ⊢
  rw [h', h]

theorem GivenUp.launchesOnly (h : GivenUp s t) : LaunchesOnly s t := by
  rw [h]
  rfl

theorem setStage_launchesOnly (s : State) (lid no : Nat) (f : Stage → Stage) : LaunchesOnly s (setStage s lid no f) := by
  rw [setStage_only]
  rfl

theorem measureAudits_launchesOnly (s : State) (lid no : Nat) : LaunchesOnly s (measureAudits s lid no) := by
  unfold measureAudits
  split
  · rfl
  · split
    · exact (GivenUp.foldl (fun s x => snoopBy_givenUp _ s x) _ s).launchesOnly.trans (setStage_launchesOnly _ _ _ _)
    · rfl

/-- The audit points of a stage are measured. -/
theorem measureAudits_walkerTo (hl : s.launch? lid = some l) (hst : l.stages[no]? = some st) (hw : st.walker = some w) :
    WalkerTo s (measureAudits s lid no) lid no l fun x => Reported w x fun _ => false := by
  cases hc : st.cov with
  | none =>
    have hsame : measureAudits s lid no = s := by simp only [measureAudits, hl, Option.bind_some, hst, Option.map_some, hw, hc]
    rw [hsame]
    exact walkerTo_same hl hst hw (Reported.refl w) fun _ _ => rfl
  | some c =>
    have hsnoop := GivenUp.foldl (snoopBy_givenUp (engTr s (s.part l.part))) (auditRows s lid no) s
    have hl' : ((auditRows s lid no).foldl (snoopBy (engTr s (s.part l.part))) s).launch? lid = some l := by rw [hsnoop]; exact hl
    have heq : measureAudits s lid no = setStage ((auditRows s lid no).foldl (snoopBy (engTr s (s.part l.part))) s) lid no fun x =>
        { x with walker := some (w.measured fun h => auditError (engTr s (s.part l.part)) s c w h) } := by
      simp only [measureAudits, hl, Option.bind_some, hst, Option.map_some, hw, hc]
      rfl
    refine walkerTo_setStage hl hst (reported_measured w fun h => auditError (engTr s (s.part l.part)) s c w h) ?_
    rw [heq, setStage_eq hl, setStage_eq hl', hsnoop]
    rfl

theorem badReport_launchesOnly (s : State) (lid : Nat) : LaunchesOnly s (badReport s lid) := by
  unfold badReport
  split <;> rfl

theorem takeReport_launchesOnly (s : State) (id : Nat) (B : Block) (v : Word) (r : List Word) :
    LaunchesOnly (s.setBlock id (B.setPort 1 { B.ports[1] with cmd := r })) (takeReport s id B v r) := by
  unfold takeReport
  simp only []
  split
  · exact badReport_launchesOnly _ _
  · split
    · exact setStage_launchesOnly _ _ _ _
    · split
      · rfl
      · exact badReport_launchesOnly _ _

/-- The rows' pages that a report needs. -/
def measurePages (s : State) (id : Nat) (B : Block) (v : Word) (r : List Word) : List Word :=
  (auditRows (takeReport s id B v r) B.launch B.stage).flatMap fun x => pagesOf x.1 x.2

/-- A command has left a block's port. -/
structure Took (s t : State) (id : Nat) (B : Block) (r : List Word) : Prop where
  port : PortTo s t id B 1 { B.ports[1] with cmd := r }
  frame : t = { s with
    blocks := t.blocks
    launches := t.launches
    hostLines := t.hostLines
    engWalks := t.engWalks }

theorem LaunchesOnly.took (h : LaunchesOnly (s.setBlock id (B.setPort 1 { B.ports[1] with cmd := r })) t)
    (pages : List (Partition × Word)) : Took s (t.endWalks pages) id B r := by
  have hblocks : t.blocks = _ := congrArg State.blocks h
  refine ⟨portTo_setBlock hblocks, ?_⟩
  rw [h]
  rfl

section
variable (hb : getKey s.blocks id = some B) (hcmd : B.ports[1].cmd = v :: r)
include hb hcmd

theorem exec_reportTake_cons : exec (.reportTake id) s = .next (withWalks s (s.part B.part) (measurePages s id B v r) fun s =>
    measureAudits (takeReport s id B v r) B.launch B.stage) := by
  rw [exec_reportTake, execReportTake, reportTake]
  simp only [hb, hcmd, measurePages]

/-- The unit reads a page's walk on, or takes the report. -/
theorem reportTake_walksOn : WalksOn s (s.part B.part) (measurePages s id B v r) (.reportTake id) := fun va h => by
  rw [exec_reportTake_cons hb hcmd, withWalks_missing h]

theorem exec_reportTake_took (hwalked : Walked s (s.part B.part) (measurePages s id B v r)) : ∃ t, exec (.reportTake id) s = .next t ∧
    Took s t id B r ∧ t.launches = (measureAudits (takeReport s id B v r) B.launch B.stage).launches := by
  refine ⟨_, (exec_reportTake_cons hb hcmd).trans (congrArg _ (withWalks_walked hwalked)), ?_, rfl⟩
  exact ((takeReport_launchesOnly s id B v r).trans (measureAudits_launchesOnly _ _ _)).took _

/-- A report of a block without a grid is invalid. -/
theorem reportTake_ungridded (hg : gridOf s B = none) (hl : s.launch? B.launch = some l) : ∃ t, exec (.reportTake id) s = .next t ∧
    Took s t id B r ∧ t.launches = putKey s.launches B.launch { l with badrep := l.badrep + 1 } := by
  have htake : takeReport s id B v r = (s.setBlock id (B.setPort 1 { B.ports[1] with cmd := r })).setLaunch B.launch
      { l with badrep := l.badrep + 1 } := by
    have hg' : gridOf (s.setBlock id (B.setPort 1 { B.ports[1] with cmd := r })) B = none := hg
    have hl' : (s.setBlock id (B.setPort 1 { B.ports[1] with cmd := r })).launch? B.launch = some l := hl
    simp only [takeReport, hg', badReport, hl']
  have hlaunch : (takeReport s id B v r).launch? B.launch = some { l with badrep := l.badrep + 1 } := by
    rw [htake, State.launch?_setLaunch, if_pos rfl]
  have hnone : auditRows (takeReport s id B v r) B.launch B.stage = [] ∧
      measureAudits (takeReport s id B v r) B.launch B.stage = takeReport s id B v r := by
    simp only [gridOf, hl, Option.bind_some] at hg
    simp only [auditRows, measureAudits, hlaunch, Option.bind_some]
    cases hst : l.stages[B.stage]? with
    | none => exact ⟨rfl, rfl⟩
    | some st =>
      rw [hst, Option.bind_some, Option.map_eq_none_iff] at hg
      simp only [Option.map_some, hg]
      exact ⟨trivial, trivial⟩
  have hwalked : Walked s (s.part B.part) (measurePages s id B v r) := by
    simp only [measurePages, hnone.1, List.flatMap_nil]
    exact fun va hva => by simp at hva
  obtain ⟨t, ht, htook, hlaunches⟩ := exec_reportTake_took hb hcmd hwalked
  refine ⟨t, ht, htook, hlaunches.trans ?_⟩
  rw [hnone.2, htake]
  rfl

section
variable (hg : gridOf s B = some (l, st, w)) (hwalked : Walked s (s.part B.part) (measurePages s id B v r))
include hg hwalked

/-- A report marks its point. -/
theorem reportTake_marks (h : ∃ h ∈ w.handed, h.point = v ∧ h.block = id ∧ h.reported = false) : ∃ t, exec (.reportTake id) s = .next t ∧
    Took s t id B r ∧ WalkerTo s t B.launch B.stage l fun w' => Reported w w' fun h => h.point == v && h.block == id := by
  obtain ⟨hl, hst, hw⟩ := gridOf_some hg
  obtain ⟨t, ht, htook, hlaunches⟩ := exec_reportTake_took hb hcmd hwalked
  have hany : (w.handed.any fun h => h.point == v && h.block == id && !h.reported) = true := by
    obtain ⟨x, hx, hpoint, hblock, hrep⟩ := h
    exact List.any_eq_true.mpr ⟨x, hx, by simp [hpoint, hblock, hrep]⟩
  have htake : takeReport s id B v r = setStage (s.setBlock id (B.setPort 1 { B.ports[1] with cmd := r })) B.launch B.stage
      fun x => { x with walker := some (w.marked v id) } := by
    have hg' : gridOf (s.setBlock id (B.setPort 1 { B.ports[1] with cmd := r })) B = some (l, st, w) := hg
    simp only [takeReport, hg', hany, if_true]
    rfl
  have hmarked : WalkerTo s (takeReport s id B v r) B.launch B.stage l fun w' => w' = w.marked v id := by
    refine walkerTo_setStage hl hst rfl ?_
    rw [htake, setStage_eq (s := s.setBlock id (B.setPort 1 { B.ports[1] with cmd := r })) hl, setStage_eq hl]
    rfl
  refine ⟨t, ht, htook, (hmarked.trans fun l' x hl' hst' hx => ?_).congr hlaunches⟩
  obtain ⟨st', hst', hw'⟩ := hst'
  subst hx
  refine (measureAudits_walkerTo hl' hst' hw').mono fun x hx => ?_
  exact (reported_marked w v id).trans (marked_errors w v id).1 (marked_errors w v id).2 hx

/-- A report that marks no point: one that a replay repeats, or an invalid one, which is counted. -/
theorem reportTake_counts (h : ∀ h ∈ w.handed, h.point = v → h.block = id → h.reported = true) :
    ∃ t, exec (.reportTake id) s = .next t ∧ Took s t id B r ∧
      (B.replaying = true → (∃ h ∈ w.handed, h.point = v ∧ h.block = id) →
        WalkerTo s t B.launch B.stage l fun w' => Reported w w' fun _ => false) ∧
      (B.replaying = false ∨ (∀ h ∈ w.handed, h.point = v → h.block ≠ id) →
        WalkerTo s t B.launch B.stage { l with badrep := l.badrep + 1 } fun w' => Reported w w' fun _ => false) := by
  obtain ⟨hl, hst, hw⟩ := gridOf_some hg
  obtain ⟨t, ht, htook, hlaunches⟩ := exec_reportTake_took hb hcmd hwalked
  have hany : (w.handed.any fun h => h.point == v && h.block == id && !h.reported) = false := by
    refine List.any_eq_false.mpr fun x hx hcond => ?_
    simp only [Bool.and_eq_true, beq_iff_eq, Bool.not_eq_true'] at hcond
    rw [h x hx hcond.1.1 hcond.1.2] at hcond
    exact absurd hcond.2 (by decide)
  have htake : takeReport s id B v r = if (B.replaying && w.handed.any fun h => h.point == v && h.block == id) = true
      then s.setBlock id (B.setPort 1 { B.ports[1] with cmd := r })
      else badReport (s.setBlock id (B.setPort 1 { B.ports[1] with cmd := r })) B.launch := by
    have hg' : gridOf (s.setBlock id (B.setPort 1 { B.ports[1] with cmd := r })) B = some (l, st, w) := hg
    simp only [takeReport, hg', hany, Bool.false_eq_true, if_false]
  refine ⟨t, ht, htook, fun hrep hsome => ?replayed, fun hbad => ?counted⟩
  case replayed =>
    have hany' : (w.handed.any fun h => h.point == v && h.block == id) = true := by
      obtain ⟨x, hx, hpoint, hblock⟩ := hsome
      exact List.any_eq_true.mpr ⟨x, hx, by simp [hpoint, hblock]⟩
    rw [htake, hrep, hany', if_pos (by decide)] at hlaunches
    have hmeasured := (measureAudits_walkerTo (s := s.setBlock id (B.setPort 1 { B.ports[1] with cmd := r })) hl hst hw).congr hlaunches
    exact ⟨hmeasured.one, hmeasured.others⟩
  case counted =>
    have hcond : (B.replaying && w.handed.any fun h => h.point == v && h.block == id) = false := by
      rcases hbad with hrep | hnone
      · rw [hrep, Bool.false_and]
      · rw [Bool.and_eq_false_iff]
        exact .inr (List.any_eq_false.mpr fun x hx hx' => by
          simp only [Bool.and_eq_true, beq_iff_eq] at hx'
          exact hnone x hx hx'.1 hx'.2)
    have hl' : (s.setBlock id (B.setPort 1 { B.ports[1] with cmd := r })).launch? B.launch = some l := hl
    have hbadly : takeReport s id B v r = (s.setBlock id (B.setPort 1 { B.ports[1] with cmd := r })).setLaunch B.launch
        { l with badrep := l.badrep + 1 } := by
      rw [htake, hcond, if_neg (by decide)]
      simp only [badReport, hl']
    have hlaunch (n : Nat) : (takeReport s id B v r).launch? n =
        if n = B.launch then some { l with badrep := l.badrep + 1 } else s.launch? n := by
      rw [hbadly, State.launch?_setLaunch]
      rfl
    have hmeasured := (measureAudits_walkerTo ((hlaunch _).trans (if_pos rfl)) hst hw).congr hlaunches
    exact ⟨hmeasured.one, fun n hn => (hmeasured.others n hn).trans ((hlaunch n).trans (if_neg hn))⟩

end

end

end Sys2Proof.Machine
end

section
/-! ## The other ports (R103, R170, R350) -/
namespace Sys2Proof.Machine
variable {s t u : State} {id : Nat} {B : Block} {v : Word} {r : List Word}

/-- A step of the collective engine changes its commands and results, and what is sent, and the lines of the host. -/
def CollectiveOnly (s t : State) : Prop := t = { s with
  members := t.members
  posts := t.posts
  links := t.links
  outgoing := t.outgoing
  outbox := t.outbox
  hostLines := t.hostLines
  free := t.free }

theorem CollectiveOnly.trans (h : CollectiveOnly s t) (h' : CollectiveOnly t u) : CollectiveOnly s u := by
  unfold CollectiveOnly at h h' ⊢
  rw [h', h]

theorem GivenUp.collectiveOnly (h : GivenUp s t) : CollectiveOnly s t := by
  rw [h]
  rfl

theorem engSnoop_givenUp (s : State) (p : Partition) (x : Word × Nat) : GivenUp s (engSnoop p s x) := by
  unfold engSnoop
  split
  · rfl
  · exact snoopBy_givenUp _ _ _

theorem sendNext_only {before : List (BitVec 16 × Flit)} {x : BitVec 16 × Flit} (h : sendNext s before x = some t) :
    CollectiveOnly s t := by
  unfold sendNext at h
  split at h
  · contradiction
  · split at h
    · split at h
      · obtain rfl := Option.some.inj h
        rfl
      · contradiction
    · contradiction

/-- A waiting flit leaves, or joins those that wait. -/
def sendOrKeep (acc : State × List (BitVec 16 × Flit)) (x : BitVec 16 × Flit) : State × List (BitVec 16 × Flit) :=
  match sendNext acc.1 acc.2 x with
  | some t => (t, acc.2)
  | none => (acc.1, acc.2 ++ [x])

theorem sendOrKeep_only (acc : State × List (BitVec 16 × Flit)) (x : BitVec 16 × Flit) : CollectiveOnly acc.1 (sendOrKeep acc x).1 := by
  unfold sendOrKeep
  split
  · next h => exact sendNext_only h
  · rfl

theorem foldl_sendOrKeep_only : ∀ (l : List (BitVec 16 × Flit)) (acc : State × List (BitVec 16 × Flit)),
    CollectiveOnly acc.1 (l.foldl sendOrKeep acc).1
  | [], _ => rfl
  | x :: l, acc => (sendOrKeep_only acc x).trans (foldl_sendOrKeep_only l (sendOrKeep acc x))

theorem flush_only (s : State) : CollectiveOnly s (flush s) := (foldl_sendOrKeep_only s.outgoing (s, [])).trans rfl

theorem sendTo_only (s : State) (links : BitVec 16) (f : Flit) : CollectiveOnly s (sendTo s links f) := by
  have h : CollectiveOnly s { s with outgoing := s.outgoing ++ [(links, f)] } := rfl
  exact h.trans (flush_only _)

theorem CollectiveOnly.foldl {α : Type} {f : State → α → State} (hf : ∀ s x, CollectiveOnly s (f s x)) : ∀ (l : List α) (s : State),
    CollectiveOnly s (l.foldl f s)
  | [], _ => rfl
  | x :: l, s => (hf s x).trans (CollectiveOnly.foldl hf l (f s x))

theorem tellOthers_only (s : State) (b : Block) (m : Member) : CollectiveOnly s (tellOthers s b m) :=
  CollectiveOnly.foldl (fun t _ => sendTo_only t _ _) _ s

theorem holdMember_only {p : Partition} {x : Word × Nat} {l : List Member} (u : State) (b : Block) (m : Member) :
    CollectiveOnly u (tellOthers { engSnoop p u x with members := l } b m) := by
  have h : CollectiveOnly (engSnoop p u x) { engSnoop p u x with members := l } := rfl
  exact ((engSnoop_givenUp u p x).collectiveOnly.trans h).trans (tellOthers_only _ b m)

theorem takeCollective_only (s : State) (id : Nat) (b : Block) (v : Word) : CollectiveOnly s (takeCollective s id b v) := by
  unfold takeCollective
  simp only []
  split
  · rfl
  · split
    · rfl
    · rename_i x p _
      have ht : GivenUp s (if descOk x then engSnoop (s.part b.part) s (quad x 8, groupBytes s b (quad x 8)) else s) := by
        split
        · exact engSnoop_givenUp _ _ _
        · rfl
      refine ht.collectiveOnly.trans ?_
      cases memberOf s id b x with
      | none => rfl
      | some m => exact holdMember_only _ b m

/-- A command that names no descriptor is answered at once. -/
theorem takeCollective_refuses {b : Block} (h : v.toNat % 64 ≠ 0 ∨ inWindow v = false) :
    (takeCollective s id b v).posts = s.posts ++ [(id, resultWord 1 (freeTag s))] := by
  have hdesc : descAt b v = false := by
    rcases h with h | h
    · simp [descAt, h]
    · simp [descAt, h]
  simp only [takeCollective, hdesc, Bool.not_false, if_true]

section
variable (hb : getKey s.blocks id = some B)
include hb

/-- The walker discards what a stream pushes. -/
theorem exec_take_walker (hcmd : B.ports[0].cmd = v :: r) :
    exec (.take id 0) s = .next (s.setBlock id { B with ports := B.ports.set 0 { B.ports[0] with cmd := r } }) := by
  rw [exec_take, execTake, takePort]
  simp only [hb]
  rw [if_neg (by decide), if_neg (by decide)]
  have hcmd' : B.ports[(0 : Fin 4)].cmd = v :: r := hcmd
  simp only [hcmd']
  rw [if_neg (by decide)]
  rfl

theorem exec_take_mailbox : exec (.take id 3) s = .next s := by
  rw [exec_take, execTake, takePort]
  simp only [hb]
  rw [if_neg (by decide), if_pos trivial]

theorem exec_take_reports : exec (.take id 1) s = exec (.reportTake id) s := by
  rw [exec_take, execTake, takePort, exec_reportTake, execReportTake]
  simp only [hb]
  rw [if_pos trivial]

section
variable (hcmd : B.ports[2].cmd = v :: r)
include hcmd

theorem exec_take_collective : exec (.take id 2) s = .next (withWalks s (s.part B.part) (cmdPages s B v) fun s =>
    takeCollective (s.setBlock id (B.setPort 2 { B.ports[2] with cmd := r })) id (B.setPort 2 { B.ports[2] with cmd := r }) v) := by
  rw [exec_take, execTake, takePort]
  simp only [hb]
  rw [if_neg (by decide), if_neg (by decide)]
  have hcmd' : B.ports[(2 : Fin 4)].cmd = v :: r := hcmd
  simp only [hcmd', if_true]
  rfl

theorem take_collective_walksOn : WalksOn s (s.part B.part) (cmdPages s B v) (.take id 2) := fun va h => by
  rw [exec_take_collective hb hcmd, withWalks_missing h]

theorem take_collective (hwalked : Walked s (s.part B.part) (cmdPages s B v)) : ∃ t, exec (.take id 2) s = .next t ∧
    PortTo s t id B 2 { B.ports[2] with cmd := r } ∧
    (v.toNat % 64 ≠ 0 ∨ inWindow v = false → ∃ tag, t.posts = s.posts ++ [(id, resultWord 1 tag)]) ∧ t = { s with
      blocks := t.blocks
      members := t.members
      posts := t.posts
      links := t.links
      outgoing := t.outgoing
      outbox := t.outbox
      hostLines := t.hostLines
      engWalks := t.engWalks
      free := t.free } := by
  have honly := takeCollective_only (s.setBlock id (B.setPort 2 { B.ports[2] with cmd := r })) id
    (B.setPort 2 { B.ports[2] with cmd := r }) v
  refine ⟨_, (exec_take_collective hb hcmd).trans (congrArg _ (withWalks_walked hwalked)), portTo_setBlock ?_, fun h => ?_, ?_⟩
  · have hblocks : (takeCollective (s.setBlock id (B.setPort 2 { B.ports[2] with cmd := r })) id
      (B.setPort 2 { B.ports[2] with cmd := r }) v).blocks = _ := congrArg State.blocks honly
    exact hblocks
  · exact ⟨_, takeCollective_refuses h⟩
  · rw [honly]
    rfl

end

theorem exec_post_held (hrun : B.status ≠ .running) : exec (.post id 2) s = .next s := by
  rw [exec_post, execPost, postPort, if_neg (by decide), if_pos rfl]
  refine congrArg _ ?_
  split
  · rename_i p b hp hb'
    obtain rfl := Option.some.inj (hb.symm.trans hb')
    rw [if_neg (by simp [hrun])]
  · rfl

/-- The collective engine posts the oldest result of a running block with room. -/
theorem exec_post_collective {x : Word} {a b : List (Nat × Word)} (hposts : s.posts = a ++ (id, x) :: b) (ha : ∀ y ∈ a, y.1 ≠ id)
    (hrun : B.status = .running) (hroom : B.ports[2].res.length + B.ports[2].resSlots < 16) :
    ∃ t, exec (.post id 2) s = .next t ∧ PortTo s t id B 2 { B.ports[2] with res := B.ports[2].res ++ [(x, false)] } ∧ t = { s with
      blocks := t.blocks
      posts := a ++ b } := by
  have hnot : a.find? (fun p => p.1 == id) = none := List.find?_eq_none.mpr fun y hy => by simpa using ha y hy
  have hfind : s.posts.find? (fun p => p.1 == id) = some (id, x) := by
    rw [hposts, List.find?_append, hnot, Option.none_or, List.find?_cons_of_pos (by simp)]
  have herase : s.posts.erase (id, x) = a ++ b := by
    rw [hposts, List.erase_append_right _ fun hmem => ha _ hmem rfl, List.erase_cons_head]
  have hpost : exec (.post id 2) s = .next (({ s with posts := a ++ b }).setBlock id
      (B.setPort 2 { B.ports[2] with res := B.ports[2].res ++ [(x, false)] })) := by
    rw [exec_post, execPost, postPort, if_neg (by decide), if_pos rfl]
    simp only [hfind, hb]
    rw [if_pos (by simp [hrun, Port.resRoom, hroom]), herase]
  exact ⟨_, hpost, portTo_setBlock rfl, rfl⟩

end

theorem exec_post_walker : exec (.post id 0) s = exec (.walkerPost id) s := by
  rw [exec_post, execPost, postPort, exec_walkerPost, execWalkerPost, if_pos rfl]

theorem exec_post_none {n : Fin 4} (h0 : n ≠ 0) (h2 : n ≠ 2) : exec (.post id n) s = .next s := by
  rw [exec_post, execPost, postPort, if_neg h0, if_neg h2]

end Sys2Proof.Machine
end

section
/-! ## Fills (R225, R261 to R263) -/
namespace Sys2Proof.Machine
variable {s t u : State} {lid no pidx : Nat} {l : Launch} {st : Stage} {w : Walker} {c : CovRec} {axes : List Axis} {q : Partition}
  {pt : Point} {f : Fill}

/-- The stage of a launch that has a coverage record. -/
theorem find_covered (hfirst : ∀ n x, n < no → l.stages[n]? = some x → x.cov = none) (hst : l.stages[no]? = some st)
    (hc : st.cov = some c) : l.stages.zipIdx.find? (fun p => p.1.cov.isSome) = some (st, no) := by
  obtain ⟨hlt, hget⟩ := List.getElem?_eq_some_iff.mp hst
  refine List.find?_eq_some_iff_getElem.mpr ⟨by simp [hc], no, by simpa using hlt, by simp [hget], fun j hj => ?_⟩
  have hnone := hfirst j _ hj (List.getElem?_eq_getElem (by omega))
  simp [hnone]

theorem engStep_launches (s : State) (p : Partition) (va : Word) : (engStep s p va).launches = s.launches := by
  unfold engStep
  simp only []
  split
  · unfold stallLeaf
    split
    · unfold State.stall
      split <;> rfl
    · rfl
  · unfold readStep
    simp only []
    split <;> rfl

/-- A fill's step, with what it leaves of the fill. -/
def Filled (s t : State) (lid no pidx : Nat) (l : Launch) (w : Walker) (r : State × Option Fill) : Prop :=
  WalkerTo s t lid no l (fun w' => w' = w.put pidx r.2) ∧ t = { r.1 with launches := t.launches }

section
variable (hl : s.launch? lid = some l) (hfirst : ∀ n x, n < no → l.stages[n]? = some x → x.cov = none)
  (hst : l.stages[no]? = some st) (hc : st.cov = some c)
include hl hfirst hst hc

theorem exec_fill_stopped (hrung : rungStops s lid = true) (pidx : Nat) : exec (.fill lid pidx) s = .next s := by
  rw [exec_fill, execFill, fill]
  simp only [hl, find_covered hfirst hst hc, hrung, if_true]

theorem exec_fill_eq (hrung : rungStops s lid = false) (pidx : Nat) :
    exec (.fill lid pidx) s = .next (fillPoint s lid no pidx l st false) := by
  rw [exec_fill, execFill, fill]
  simp only [hl, find_covered hfirst hst hc, hrung, Bool.false_eq_true, if_false]

variable (hw : st.walker = some w)
include hw

/-- No point is filled that the walker has not passed, whose neighbours have not been reported, or that is audited. -/
theorem exec_fill_idle (hrung : rungStops s lid = false) (h : w.pidx ≤ pidx ∨ readyAxes c w pidx = none ∨
    auditPoint c l.lnum pidx l.covctl = true) : exec (.fill lid pidx) s = .next s := by
  have hpoint : toFill l st w pidx = none ∨ toFill l st w pidx = some c := by
    simp only [toFill, hc]
    split
    · exact .inl rfl
    · split
      · exact .inr rfl
      · exact .inl rfl
  rw [exec_fill_eq hl hfirst hst hc hrung, fillPoint]
  simp only [hw]
  rcases h with h | h | h
  · have hnone : toFill l st w pidx = none := by
      simp only [toFill, hc]
      split
      · rfl
      · exact if_neg fun hcond => absurd hcond.1 (by omega)
    simp only [hnone]
  · rcases hpoint with hp | hp <;> simp only [hp, h]
  · have hnone : toFill l st w pidx = none := by
      simp only [toFill, hc]
      split
      · rfl
      · exact if_neg fun hcond => by simp [h] at hcond
    simp only [hnone]

/-- A step of the fill of a skipped point whose neighbours have been reported. -/
theorem exec_fill_step (hrung : rungStops s lid = false) (hpassed : pidx < w.pidx) (hfilled : w.filled.contains pidx = false)
    (haudit : auditPoint c l.lnum pidx l.covctl = false)
    (hskip : ∃ f, w.planes[(w.point pidx).z]? = some f ∧ keptUnder c w f (w.point pidx) = false)
    (haxes : readyAxes c w pidx = some axes)
    (hlaunches : (fillGo s (s.part l.part) c axes (w.point pidx)
      ((w.filling.find? (·.pidx == pidx)).getD ⟨pidx, 0, [], 0, false⟩)).1.launches = s.launches) :
    ∃ t, exec (.fill lid pidx) s = .next t ∧ Filled s t lid no pidx l w (fillGo s (s.part l.part) c axes (w.point pidx)
      ((w.filling.find? (·.pidx == pidx)).getD ⟨pidx, 0, [], 0, false⟩)) := by
  obtain ⟨frac, hplane, hkept⟩ := hskip
  have hpoint : toFill l st w pidx = some c := by
    simp only [toFill, hc, hplane]
    exact if_pos ⟨hpassed, by simp [hkept], by simp [haudit], by rw [hfilled]; decide⟩
  have hstep : exec (.fill lid pidx) s = .next (setStage (fillGo s (s.part l.part) c axes (w.point pidx)
      ((w.filling.find? (·.pidx == pidx)).getD ⟨pidx, 0, [], 0, false⟩)).1 lid no fun x => { x with
        walker := some (w.put pidx (fillGo s (s.part l.part) c axes (w.point pidx)
          ((w.filling.find? (·.pidx == pidx)).getD ⟨pidx, 0, [], 0, false⟩)).2) }) := by
    rw [exec_fill_eq hl hfirst hst hc hrung, fillPoint]
    simp only [hw, hpoint, haxes, Bool.or_false]
  generalize fillGo s (s.part l.part) c axes (w.point pidx) ((w.filling.find? (·.pidx == pidx)).getD ⟨pidx, 0, [], 0, false⟩) = r
    at hlaunches hstep
  have hl' : r.1.launch? lid = some l := (congrArg (getKey · lid) hlaunches).trans hl
  refine ⟨_, hstep, walkerTo_setStage hl hst rfl ?_, ?_⟩
  · rw [setStage_eq hl', setStage_eq hl]
    exact congrArg (putKey · lid _) hlaunches
  · rw [setStage_only]

end

/-- The pages of a fill, and how they translate. -/
theorem fillGo_missing {x : Word × Use} (h : (fillPages c axes pt).find? (fun x => engTr s q x.1 x.2 == .miss) = some x) :
    fillGo s q c axes pt f = (engStep s q x.1, some f) := by
  simp only [fillGo, h]

/-- A fill that ends lets go of its translations. -/
def endFill (s : State) (q : Partition) (pages : List (Word × Use)) : State :=
  { s with engWalks := s.engWalks.filter fun k => !pages.any fun x => k.serves q x.1 }

/-- Does every page of a fill translate? -/
def allTranslated (s : State) (q : Partition) (pages : List (Word × Use)) : Bool :=
  pages.all fun x => match engTr s q x.1 x.2 with
    | .ok _ => true
    | _ => false

theorem allTranslated_iff {pages : List (Word × Use)} : allTranslated s q pages = true ↔
    ∀ x ∈ pages, ∃ y, engTr s q x.1 x.2 = .ok y := by
  rw [allTranslated, List.all_eq_true]
  refine forall₂_congr fun x _ => ?_
  cases engTr s q x.1 x.2 <;> simp

theorem fillGo_walked (hmiss : ∀ x ∈ fillPages c axes pt, engTr s q x.1 x.2 ≠ .miss) : fillGo s q c axes pt f =
    let r := if allTranslated s q (fillPages c axes pt) then fillStep (engTr s q) s c axes pt f else (s, none)
    if r.2.isSome then r else (endFill r.1 q (fillPages c axes pt), none) := by
  have hnone : (fillPages c axes pt).find? (fun x => engTr s q x.1 x.2 == .miss) = none :=
    List.find?_eq_none.mpr fun x hx => by simpa using hmiss x hx
  unfold fillGo
  simp only [hnone]
  rfl

theorem fillGo_faulted (hmiss : ∀ x ∈ fillPages c axes pt, engTr s q x.1 x.2 ≠ .miss)
    (hfault : ∃ x ∈ fillPages c axes pt, ∃ code, engTr s q x.1 x.2 = .fault code) :
    fillGo s q c axes pt f = (endFill s q (fillPages c axes pt), none) := by
  have hnot : allTranslated s q (fillPages c axes pt) = false := by
    obtain ⟨x, hx, code, hcode⟩ := hfault
    refine Bool.eq_false_iff.mpr fun hall => ?_
    obtain ⟨y, hy⟩ := allTranslated_iff.mp hall x hx
    rw [hcode] at hy
    contradiction
  rw [fillGo_walked hmiss, hnot]
  rfl

section
variable (hok : ∀ x ∈ fillPages c axes pt, ∃ y, engTr s q x.1 x.2 = .ok y)
include hok

theorem fillGo_translated : fillGo s q c axes pt f = if (fillStep (engTr s q) s c axes pt f).2.isSome then fillStep (engTr s q) s c axes pt f
    else (endFill (fillStep (engTr s q) s c axes pt f).1 q (fillPages c axes pt), none) := by
  rw [fillGo_walked fun x hx => ?_, allTranslated_iff.mpr hok]
  · rfl
  · obtain ⟨y, hy⟩ := hok x hx
    rw [hy]
    exact Tr.noConfusion

/-- A Data read of a neighbour. -/
theorem fillGo_reads {va : Word} {n v : Nat} {z : Bool}
    (hread : ((neighbourRows c axes).flatMap fun x => wordsIn x.1 x.2)[f.reads]? = some (va, n)) (hv : readBytes s q va n = some (v, z)) :
    fillGo s q c axes pt f = (snoopBy (engTr s q) s (va, n), some { f with
      reads := f.reads + 1
      got := f.got ++ spread va v z n }) := by
  have hstep : fillStep (engTr s q) s c axes pt f = (snoopBy (engTr s q) s (va, n), some { f with
      reads := f.reads + 1
      got := f.got ++ spread va v z n }) := by
    have hv' : readBy (engTr s q) s va n = some (v, z) := hv
    simp only [fillStep, hread, hv']
  rw [fillGo_translated hok, hstep]
  rfl

/-- A Data write of the point's own rows; the last one ends the fill. -/
theorem fillGo_writes {rows : List FillRow} {va : Word} {n v : Nat} {z : Bool}
    (hreads : ((neighbourRows c axes).flatMap fun x => wordsIn x.1 x.2).length ≤ f.reads)
    (hrows : reconPoint (readSeen f.got) c axes pt = some rows) (hput : (rowWrites rows)[f.puts]? = some (va, n, v, z))
    (hu : writeBytes s q va v (z || f.bad) n = some u) :
    fillGo s q c axes pt f = if f.puts + 1 = (rowWrites rows).length then (endFill u q (fillPages c axes pt), none)
      else (u, some { f with puts := f.puts + 1 }) := by
  have hlt : f.puts < (rowWrites rows).length := (List.getElem?_eq_some_iff.mp hput).1
  have hstep : fillStep (engTr s q) s c axes pt f =
      (u, if f.puts + 1 < (rowWrites rows).length then some { f with puts := f.puts + 1 } else none) := by
    have hu' : writeBy (engTr s q) s va v (z || f.bad) n = some u := hu
    simp only [fillStep, List.getElem?_eq_none hreads, hrows, Option.bind_some, hput, Option.map_some, hu']
  rw [fillGo_translated hok, hstep]
  by_cases h : f.puts + 1 = (rowWrites rows).length
  · have hlast : ¬ f.puts + 1 < (rowWrites rows).length := by omega
    simp only [if_pos h, if_neg hlast, Option.isSome_none, Bool.false_eq_true, if_false]
  · have hmore : f.puts + 1 < (rowWrites rows).length := by omega
    simp only [if_neg h, if_pos hmore, Option.isSome_some, if_true]

end

end Sys2Proof.Machine
end

section
/-! ## Updates of the fraction (R268) -/
namespace Sys2Proof.Machine
variable {s t : State} {lid no : Nat} {l : Launch} {st : Stage} {w : Walker} {c : CovRec}

/-- An update keeps the fraction within its bounds. -/
theorem updateFraction_bounds (covctl : Word) (f : Nat) (above below : Bool) (h : covFmin covctl ≤ covFmax covctl) :
    covFmin covctl + 1 ≤ updateFraction covctl f above below ∧ updateFraction covctl f above below ≤ covFmax covctl + 1 := by
  simp only [updateFraction]
  generalize (if above = true then _ else _ : Int) = x
  omega

theorem updateOver_bounds (covctl : Word) (f : Nat) (errors : List Nat) (h : covFmin covctl ≤ covFmax covctl) :
    covFmin covctl + 1 ≤ updateOver covctl f errors ∧ updateOver covctl f errors ≤ covFmax covctl + 1 := by
  unfold updateOver
  split
  · exact updateFraction_bounds _ _ _ _ h
  · exact updateFraction_bounds _ _ _ _ h

/-- Over no error a fraction within its bounds stays. -/
theorem updateOver_nil {covctl : Word} {f : Nat} (hlo : covFmin covctl + 1 ≤ f) (hhi : f ≤ covFmax covctl + 1) :
    updateOver covctl f [] = f := by
  simp only [updateOver, List.isEmpty_nil, if_true, updateFraction, Bool.false_eq_true, if_false]
  omega

/-- The fraction of the next update. -/
def nextFraction (l : Launch) (w : Walker) : Nat :=
  updateOver l.covctl (lastFraction w) (errorsIn w (4096 * (w.updates.length + 1 - 1)) (4096 * (w.updates.length + 1)))

section
variable (hl : s.launch? lid = some l) (hfirst : ∀ n x, n < no → l.stages[n]? = some x → x.cov = none)
  (hst : l.stages[no]? = some st) (hc : st.cov = some c) (hw : st.walker = some w)
include hfirst hst hc hw

theorem updateDue_eq : updateDue l = if (l.covctl.getLsbD 15 && !c.fixed && auditsDone w (4096 * (w.updates.length + 1))) = true
    then some (no, w, nextFraction l w) else none := by
  simp only [updateDue, find_covered hfirst hst hc, Option.bind_some, hw, hc]
  rfl

include hl

theorem exec_coverageUpdate_idle
    (h : ¬ (l.covctl.getLsbD 15 = true ∧ c.fixed = false ∧ auditsDone w (4096 * (w.updates.length + 1)) = true)) :
    exec (.coverageUpdate lid) s = .next s := by
  have hnone : updateDue l = none := by
    rw [updateDue_eq hfirst hst hc hw]
    refine if_neg fun hd => h ?_
    simpa [and_assoc] using hd
  rw [exec_coverageUpdate, execCoverageUpdate]
  simp only [hl, Option.bind_some, hnone]

/-- An update adds its fraction to the walker, and raises line 5 in the launch's blocks where it changes. -/
theorem exec_coverageUpdate_due (hrung : rungStops s lid = false)
    (h : l.covctl.getLsbD 15 = true ∧ c.fixed = false ∧ auditsDone w (4096 * (w.updates.length + 1)) = true) :
    ∃ t, exec (.coverageUpdate lid) s = .next t ∧
      WalkerTo s t lid no l (fun w' => w' = { w with updates := w.updates ++ [nextFraction l w] }) ∧
      (nextFraction l w = lastFraction w → t.blocks = s.blocks) ∧
      (∀ b, getKey t.blocks b = (getKey s.blocks b).map fun x => if nextFraction l w ≠ lastFraction w ∧ x.launch = lid ∧ x.status ≠ .ended
        then raiseLine5 x else x) ∧
      t = { s with
        launches := t.launches
        blocks := t.blocks } := by
  have hsome : updateDue l = some (no, w, nextFraction l w) := by
    rw [updateDue_eq hfirst hst hc hw]
    obtain ⟨h15, hfixed, hdone⟩ := h
    exact if_pos (by simp [h15, hfixed, hdone])
  set u := setStage s lid no fun x => { x with walker := some { w with updates := w.updates ++ [nextFraction l w] } } with hu
  have hexec : exec (.coverageUpdate lid) s = .next (if nextFraction l w = lastFraction w then u
      else mapBlocks u (fun b => b.launch == lid && b.status != .ended) raiseLine5) := by
    rw [exec_coverageUpdate, execCoverageUpdate]
    simp only [hl, Option.bind_some, hsome, hrung, Bool.false_eq_true, if_false]
    rfl
  have hblocks : u.blocks = s.blocks := by rw [hu, setStage_only]
  have hframe : u = { s with launches := u.launches } := setStage_only _ _ _ _
  by_cases hf : nextFraction l w = lastFraction w
  · rw [if_pos hf] at hexec
    refine ⟨u, hexec, walkerTo_setStage hl hst rfl rfl, fun _ => hblocks, fun b => ?_, ?_⟩
    · simp only [hf, ne_eq, not_true_eq_false, false_and, if_false, Option.map_id', hblocks]
    · rw [hframe]
  · rw [if_neg hf] at hexec
    refine ⟨_, hexec, walkerTo_setStage hl hst rfl rfl, fun h => absurd h hf, fun b => ?_, ?_⟩
    · rw [getKey_mapBlocks, hblocks]
      simp [hf]
    · rw [hframe]
      rfl

end

end Sys2Proof.Machine
end

section
/-! ## Retirement (R261, R268, R323) -/
namespace Sys2Proof.Machine
variable {s t u : State} {lid : Nat} {l : Launch} {c : Completion}

theorem mayRetire_eq (s : State) (lid : Nat) (l : Launch) : mayRetire s lid l = ((updateDue l).isNone &&
    (l.stages.zipIdx.all fun p => stageFinished s lid p.2 l p.1 && p.1.walker.all gridDone) &&
    (s.requests.all fun r => !(r.launch == lid)) &&
    s.blocks.all fun b => !(b.2.launch == lid) || (b.2.status == .ended && !b.2.chans[4].busy)) := by
  refine congrArg₂ and (congrArg₂ and (congrArg₂ and rfl ?_) rfl) rfl
  refine congrArg (List.all l.stages.zipIdx) (funext fun p => congrArg (and _) ?_)
  cases p.1.walker <;> rfl

theorem GivenUp.mayRetire_eq (h : GivenUp s t) : mayRetire t lid l = mayRetire s lid l := by
  have hrequests : t.requests = s.requests := by rw [h]
  have hblocks : t.blocks = s.blocks := by rw [h]
  have hstage (no : Nat) (st : Stage) : stageFinished t lid no l st = stageFinished s lid no l st := h.sameWork.stageFinished_eq
  simp only [Machine.mayRetire_eq, hrequests, hblocks, hstage]

/-- When a launch may retire: its update made, its requests gone, its blocks ended, its stages finished and their points reported
or filled. -/
theorem mayRetire_iff : mayRetire s lid l = true ↔ updateDue l = none ∧ (∀ x ∈ s.requests, x.launch ≠ lid) ∧
    (∀ x ∈ s.blocks, x.2.launch = lid → x.2.status = .ended ∧ x.2.chans[4].busy = false) ∧
    ∀ n x, l.stages[n]? = some x → stageFinished s lid n l x = true ∧ ∀ y, x.walker = some y →
      y.returned = [] ∧ (∀ h ∈ y.handed, h.reported = true) ∧ y.handed.length + y.filled.length = y.total := by
  have hgrid (y : Walker) : gridDone y = true ↔
      y.returned = [] ∧ (∀ h ∈ y.handed, h.reported = true) ∧ y.handed.length + y.filled.length = y.total := by
    simp [gridDone, and_assoc]
  have hstages : (l.stages.zipIdx.all fun p => stageFinished s lid p.2 l p.1 && p.1.walker.all gridDone) = true ↔
      ∀ n x, l.stages[n]? = some x → stageFinished s lid n l x = true ∧ ∀ y, x.walker = some y →
        y.returned = [] ∧ (∀ h ∈ y.handed, h.reported = true) ∧ y.handed.length + y.filled.length = y.total := by
    simp only [List.all_eq_true, Bool.and_eq_true, Option.all_eq_true, hgrid, Prod.forall, List.mem_zipIdx_iff_getElem?]
    exact ⟨fun h n x => h x n, fun h x n => h n x⟩
  have hrequests : (s.requests.all fun r => !(r.launch == lid)) = true ↔ ∀ x ∈ s.requests, x.launch ≠ lid := by simp
  have hblocks : (s.blocks.all fun b => !(b.2.launch == lid) || (b.2.status == .ended && !b.2.chans[4].busy)) = true ↔
      ∀ x ∈ s.blocks, x.2.launch = lid → x.2.status = .ended ∧ x.2.chans[4].busy = false := by
    rw [List.all_eq_true]
    refine forall₂_congr fun x _ => ?_
    by_cases h : x.2.launch = lid <;> simp [h]
  rw [mayRetire_eq, Bool.and_eq_true, Bool.and_eq_true, Bool.and_eq_true, hstages, hrequests, hblocks, Option.isNone_iff_eq_none]
  tauto

/-- A completion is held, or written to memory. -/
def CompletedOnly (s t : State) : Prop := t = { s with
  mem := t.mem
  hostLines := t.hostLines
  queues := t.queues
  completions := t.completions }

theorem CompletedOnly.trans (h : CompletedOnly s t) (h' : CompletedOnly t u) : CompletedOnly s u := by
  unfold CompletedOnly at h h' ⊢
  rw [h', h]

/-- A write of Madder that its error replaces where it cannot be made. -/
def packetWriteOr (s : State) (c : Completion) (p : Partition) (on : Bool) (addr : Word) (n v : Nat) : State :=
  if on then (packetWrite s p addr n v).getD (setQerr s (queueKey c.fn c.q) 7 c.seq) else s

theorem packetWriteOr_only (s : State) (c : Completion) (p : Partition) (on : Bool) (addr : Word) (n v : Nat) :
    CompletedOnly s (packetWriteOr s c p on addr n v) ∧ (packetWriteOr s c p on addr n v).completions = s.completions := by
  unfold packetWriteOr packetWrite
  split
  · cases packetPa s p addr .store with
    | none => exact ⟨rfl, rfl⟩
    | some pa =>
      simp only [Option.map_some, Option.getD_some, writeLoc, State.write]
      split <;> exact ⟨rfl, rfl⟩
  · exact ⟨rfl, rfl⟩

theorem writeCompletion_eq (s : State) (c : Completion) : writeCompletion s c =
    packetWriteOr (packetWriteOr s c (s.part c.part) (c.statAddr != 0) c.statAddr 64 c.record) c (s.part c.part) c.sig c.sigAddr 8
      c.sigVal.toNat := rfl

theorem writeCompletion_only (s : State) (c : Completion) :
    CompletedOnly s (writeCompletion s c) ∧ (writeCompletion s c).completions = s.completions := by
  rw [writeCompletion_eq]
  obtain ⟨hstat, hheld⟩ := packetWriteOr_only s c (s.part c.part) (c.statAddr != 0) c.statAddr 64 c.record
  obtain ⟨hsig, hheld'⟩ := packetWriteOr_only (packetWriteOr s c (s.part c.part) (c.statAddr != 0) c.statAddr 64 c.record) c
    (s.part c.part) c.sig c.sigAddr 8 c.sigVal.toNat
  exact ⟨hstat.trans hsig, hheld'.trans hheld⟩

theorem complete_only (s : State) (c : Completion) : CompletedOnly s (complete s c) := by
  unfold complete
  split
  · rfl
  · exact (writeCompletion_only s c).1

theorem Completion.record_lt (h : c.status = 0) (hfrac : c.frac ≤ 0xFF) : c.record < 256 ^ 64 := by
  have hseq := c.seq.isLt
  have hstart := c.tstart.isLt
  have hend := c.tend.isLt
  have hbad : min c.badrep 0xFFFFFFFF ≤ 0xFFFFFFFF := min_le_right _ _
  have hlate : c.late % 2 ^ 64 < 2 ^ 64 := Nat.mod_lt _ (by decide)
  have hslips : c.slips % 2 ^ 32 < 2 ^ 32 := Nat.mod_lt _ (by decide)
  rw [Completion.record, h]
  generalize min c.badrep 0xFFFFFFFF = bad at hbad
  generalize c.late % 2 ^ 64 = late at hlate
  generalize c.slips % 2 ^ 32 = slips at hslips
  omega

/-- Granules written read back. -/
theorem readLE_writeWords {m : Store} {a n x : Nat} {p : Bool} (h : m.wf = true) (ha : a % 4 = 0) (hx : x < 256 ^ (4 * n)) :
    (m.writeWords a n x p).readLE a (4 * n) = x := by
  rw [Store.readLE_eq_mod (v := x) fun j hj => ?_, Nat.mod_eq_of_lt hx]
  rw [(Store.writeWords_inside h ha hj).1, Nat.pow_mul]

/-- The record of a completion stands where its packet says. -/
theorem writeCompletion_record {pa : Nat} (hstat : c.statAddr ≠ 0) (hsig : c.sig = false)
    (hpa : packetPa s (s.part c.part) c.statAddr .store = some pa) (halign : pa % 64 = 0) (hframe : inSlotFrame s pa = false)
    (hwf : s.mem.wf = true) (hlt : c.record < 256 ^ 64) : (writeCompletion s c).mem.readLE pa 64 = c.record := by
  have hwrite : (writeCompletion s c).mem = s.mem.writeWords pa 16 c.record false := by
    have hon : (c.statAddr != 0) = true := by simpa using hstat
    rw [writeCompletion_eq, hsig, packetWriteOr, if_neg (by decide), packetWriteOr, hon, if_pos rfl, packetWrite, hpa]
    simp only [Option.map_some, Option.getD_some, writeLoc, State.write, hframe, Bool.false_eq_true, if_false]
  rw [hwrite]
  exact readLE_writeWords (n := 16) hwf (by omega) hlt

theorem getKey_dropKey_self {α : Type} (l : List (Nat × α)) (n : Nat) : getKey (dropKey l n) n = none :=
  getKey_eq_none_of_not_mem fun p hp => by simpa using List.of_mem_filter hp

/-- The rings of the stages that Weld has not seen finished are read. -/
def readRings (s : State) (l : Launch) : State :=
  (l.stages.filter fun st => !st.finished).foldl (fun s st => snoopRings s (s.part l.part) st) s

theorem readRings_givenUp (s : State) (l : Launch) : GivenUp s (readRings s l) :=
  GivenUp.foldl (fun s st => snoopRings_givenUp s (s.part l.part) st) _ s

theorem retain_only (s : State) (l : Launch) : retain s l = { s with parts := (retain s l).parts } := by
  unfold retain
  split <;> rfl

/-- The launch leaves the machine. -/
theorem dropped_launch (s : State) (lid : Nat) : (dropLaunch s lid).launch? lid = none ∧
    (∀ x ∈ (dropLaunch s lid).blocks, x.2.launch ≠ lid) ∧ ∀ x ∈ (dropLaunch s lid).requests, x.launch ≠ lid :=
  ⟨getKey_dropKey_self s.launches lid, fun x hx => by simpa using List.of_mem_filter hx, fun x hx => by simpa using List.of_mem_filter hx⟩

theorem retired_fields (l : Launch) (now : Word) : (l.retired now).status = 0 ∧ (l.retired now).late = l.late ∧
    (l.retired now).badrep = l.badrep ∧ (l.retired now).slips = l.slips ∧ (l.retired now).seq = l.seq ∧ (l.retired now).tend = now ∧
    (lastUpdate l = none → (l.retired now).frac = 0xFF) :=
  ⟨rfl, rfl, rfl, rfl, rfl, rfl, fun h => by simp only [Launch.retired, Launch.completion, h]⟩

/-- What the retirement of a launch leaves of a state. -/
def retired (s : State) (lid : Nat) (l : Launch) : State :=
  complete (dropLaunch (retain (readRings s l) l) lid) (l.retired (s.now 0))

theorem retired_leaves (s : State) (lid : Nat) (l : Launch) : (retired s lid l).launch? lid = none ∧
    (∀ x ∈ (retired s lid l).blocks, x.2.launch ≠ lid) ∧ ∀ x ∈ (retired s lid l).requests, x.launch ≠ lid := by
  obtain ⟨hlaunch, hblocks, hrequests⟩ := dropped_launch (retain (readRings s l) l) lid
  rw [retired, complete_only]
  exact ⟨hlaunch, hblocks, hrequests⟩

/-- Before its completion a retirement has changed neither the memory nor what is held of others. -/
theorem dropRetained_keeps (s : State) (lid : Nat) (l : Launch) : (dropLaunch (retain (readRings s l) l) lid).mem = s.mem ∧
    (dropLaunch (retain (readRings s l) l) lid).completions = s.completions ∧
    (dropLaunch (retain (readRings s l) l) lid).reloading = s.reloading := by
  have h := readRings_givenUp s l
  have hmem : (readRings s l).mem = s.mem := by rw [h]
  have hcompletions : (readRings s l).completions = s.completions := by rw [h]
  have hreloading : (readRings s l).reloading = s.reloading := by rw [h]
  rw [retain_only]
  exact ⟨hmem, hcompletions, hreloading⟩

/-- During a reload the completion is held. -/
theorem retired_held (h : s.reloading = true) :
    (retired s lid l).completions = s.completions ++ [l.retired (s.now 0)] ∧ (retired s lid l).mem = s.mem := by
  obtain ⟨hmem, hcompletions, hreloading⟩ := dropRetained_keeps s lid l
  rw [retired, complete, hreloading, h, if_pos rfl]
  exact ⟨congrArg (· ++ [l.retired (s.now 0)]) hcompletions, hmem⟩

section
variable (h : s.reloading = false)
include h

theorem retired_written : retired s lid l = writeCompletion (dropLaunch (retain (readRings s l) l) lid) (l.retired (s.now 0)) := by
  rw [retired, complete, (dropRetained_keeps s lid l).2.2, h, if_neg (by decide)]

theorem retired_completions : (retired s lid l).completions = s.completions := by
  rw [retired_written h]
  exact (writeCompletion_only _ _).2.trans (dropRetained_keeps s lid l).2.1

/-- A launch without a record and a signal retires silently. -/
theorem retired_silent (hstat : l.statAddr = 0) (hsig : l.sig = false) : (retired s lid l).mem = s.mem := by
  have hoff : ((l.retired (s.now 0)).statAddr != 0) = false := by
    show (l.statAddr != 0) = false
    simp [hstat]
  have hoff' : (l.retired (s.now 0)).sig = false := hsig
  rw [retired_written h, writeCompletion_eq, hoff, hoff', packetWriteOr, if_neg (by decide), packetWriteOr, if_neg (by decide)]
  exact (dropRetained_keeps s lid l).1

theorem retired_record {pa : Nat} (hstat : l.statAddr ≠ 0) (hsig : l.sig = false) (hlast : lastUpdate l = none)
    (hpa : packetPa s (s.part l.part) l.statAddr .store = some pa) (halign : pa % 64 = 0) (hframe : inSlotFrame s pa = false)
    (hwf : s.mem.wf = true) : (retired s lid l).mem.readLE pa 64 = (l.retired (s.now 0)).record := by
  have hretain : retain (readRings s l) l = readRings s l := by simp only [retain, hlast]
  have hread := readRings_givenUp s l
  obtain ⟨hmem, -, -⟩ := dropRetained_keeps s lid l
  rw [retired_written h]
  refine writeCompletion_record hstat hsig ?_ halign ?_ (by rw [hmem]; exact hwf)
    (Completion.record_lt rfl (by rw [(retired_fields l (s.now 0)).2.2.2.2.2.2 hlast]))
  · rw [hretain, hread]
    exact hpa
  · rw [hretain, hread]
    exact hframe

end

section
variable (hl : s.launch? lid = some l)
include hl

theorem exec_launchRetire_stopped (hrung : rungStops s lid = true) : exec (.launchRetire lid) s = .next s := by
  rw [exec_launchRetire, execLaunchRetire]
  simp only [hl, hrung, if_true]

variable (hrung : rungStops s lid = false)
include hrung

theorem exec_launchRetire_eq : exec (.launchRetire lid) s = .next (withPages s (retirePages s lid l) fun s =>
    if mayRetire (readRings s l) lid l then complete (dropLaunch (retain (readRings s l) l) lid) (l.retired ((readRings s l).now 0))
    else readRings s l) := by
  rw [exec_launchRetire, execLaunchRetire]
  simp only [hl, hrung, Bool.false_eq_true, if_false]
  rfl

theorem launchRetire_walks : WalksAll s (retirePages s lid l) (.launchRetire lid) := fun x h => by
  rw [exec_launchRetire_eq hl hrung, withPages_missing h]

variable (hwalked : WalkedAll s (retirePages s lid l))
include hwalked

theorem exec_launchRetire_early (hmay : mayRetire s lid l = false) : ∃ t, exec (.launchRetire lid) s = .next t ∧ t = { s with
    hostLines := t.hostLines
    engWalks := t.engWalks } := by
  have hread := readRings_givenUp s l
  refine ⟨_, (exec_launchRetire_eq hl hrung).trans (congrArg _ (withPages_walked hwalked)), ?_⟩
  rw [hread.mayRetire_eq, hmay, if_neg (by decide), hread]
  rfl

theorem exec_launchRetire_retires (hmay : mayRetire s lid l = true) :
    exec (.launchRetire lid) s = .next ((retired s lid l).endWalks (retirePages s lid l)) := by
  have hread := readRings_givenUp s l
  have hnow : (readRings s l).now 0 = s.now 0 := by rw [hread]; rfl
  rw [exec_launchRetire_eq hl hrung, withPages_walked hwalked, hread.mayRetire_eq, hmay, if_pos rfl, hnow]
  rfl

end

end Sys2Proof.Machine
end

section
namespace Sys2Proof.Machine

/-- Settles O52: each clause by the lemma on its unit: Weld's evaluation, the walker's posts, the reports, the other ports, the fills,
the update and the retirement. -/
theorem launchProgress : Obligations.LaunchProgress := by
  intro s part lid no id l st w B p now
  refine ⟨exec_weldTick_idle, fun hdue => ?weld, fun va v e => ringView_fields, evalStage_finished, ?rules, ?posts, ?reports, ?ports, ?fills, ?retires⟩
  case weld =>
    intro u v rings
    refine ⟨fun va h => ?_, fun h => weldTick_evaluates hdue h⟩
    exact (exec_weldTick_due hdue).trans (congrArg _ (withWalks_missing h))
  case rules =>
    intro n ask ring out hl hst hfin hwork hring hout hn hask t closing
    have hwanted : wanted s lid no l st = ask := (wanted_eq_rules hring hout hn).trans hask.symm
    have hrequests := evalStage_requests hl hst hwork
    refine ⟨fun hstarts => ?starts, fun hst0 hin hhead => ?waits, fun b x hx => ?blocks⟩
    case starts =>
      obtain ⟨hmade, hsuspended⟩ := evalStage_stamp_after (no := no) (st := st) hl
      refine ⟨_, hmade, hsuspended, ?_⟩
      rw [← hwanted]
      exact hrequests.trans (if_pos (startsNow_iff.mpr (hring ▸ hstarts)))
    case waits =>
      refine hrequests.trans (if_neg fun hstarts => ?_)
      rcases startsNow_iff.mp hstarts with h | h | h
      · simp [hst0] at h
      · exact hin h
      · exact h (hring ▸ hhead)
    case blocks =>
      have hclosing : closesNow s l st = true ↔ closing := by rw [closesNow_iff, ← hring]
      have hy : getKey t.blocks b = some (if closesNow s l st = true ∧ x.launch = lid ∧ x.stage = no ∧ x.status ≠ .ended
          then raiseLine6 x else x) := by
        rw [evalStage_blocks hl hst, weighed_block, hx]
        rfl
      refine ⟨_, hy, by split <;> rfl, fun k => ⟨fun ⟨hclose, hlaunch, hstage, hlive, hk⟩ => ?_, fun hnot => ?_⟩⟩
      · rw [if_pos ⟨hclosing.mpr hclose, hlaunch, hstage, hlive⟩]
        exact (raiseLine6_agent x k).trans (if_pos hk)
      · split
        · next hcond =>
          obtain ⟨hclose, hlaunch, hstage, hlive⟩ := hcond
          exact (raiseLine6_agent x k).trans (if_neg fun hk => hnot ⟨hclosing.mp hclose, hlaunch, hstage, hlive, hk⟩)
        · rfl
  case posts =>
    intro hb hrun hfew hroom empty gives
    refine ⟨exec_post_walker, fun hg hempty => ?none, fun hg => ⟨fun hr hdone hempty => ?done, fun x hx hmin => ?back, fun hr hleft hcov => ?plain,
      fun c k hr hcov hle hk hplanes => ?covered⟩⟩
    case none =>
      obtain ⟨t, ht, hgives, hlaunches⟩ := walkerPost_ungridded hb hrun hroom hg hempty
      exact ⟨t, ht, ⟨hgives.port, hgives.frame⟩, hlaunches⟩
    case done =>
      have hzero : (B.ports[0].res.length - B.ports[0].resClaims == 0) = true := beq_iff_eq.mpr hempty
      obtain ⟨t, ht, hgives, hwalker⟩ := walkerPost_posts hb hrun hfew hroom hg (by rw [hzero]; exact nextPost_done hr hdone)
      exact ⟨t, ht, ⟨hgives.port, hgives.frame⟩, hwalker⟩
    case back =>
      obtain ⟨t, ht, hgives, hwalker⟩ := walkerPost_posts hb hrun hfew hroom hg (nextPost_returned hx hmin)
      exact ⟨t, ht, ⟨hgives.port, hgives.frame⟩, hwalker⟩
    case plain =>
      obtain ⟨t, ht, hgives, hwalker⟩ := walkerPost_posts hb hrun hfew hroom hg (nextPost_point hr (next_uncovered hcov hleft))
      exact ⟨t, ht, ⟨hgives.port, hgives.frame⟩, hwalker⟩
    case covered =>
      intro kept audit hskip hkept
      have hnext : l.next st w = .point k (!w.keeps c k) { w with
          pidx := k + 1
          idx := w.idx + 1 } := by
        rw [Launch.next, hcov]
        exact scanPoints_covered w.total w hle hk (by omega) hplanes hskip hkept
      obtain ⟨t, ht, hgives, hwalker⟩ := walkerPost_posts hb hrun hfew hroom hg (nextPost_point hr hnext)
      exact ⟨t, ht, ⟨hgives.port, hgives.frame⟩, hwalker⟩
  case reports =>
    intro v r hb hcmd taken pages
    refine ⟨exec_take_reports hb, reportTake_walksOn hb hcmd, fun hg hl => ?_, fun hg hwalked => ⟨fun h => ?_, fun h => ?_⟩⟩
    · obtain ⟨t, ht, htook, hlaunches⟩ := reportTake_ungridded hb hcmd hg hl
      exact ⟨t, ht, ⟨htook.port, htook.frame⟩, hlaunches⟩
    · obtain ⟨t, ht, htook, hwalker⟩ := reportTake_marks hb hcmd hg hwalked h
      exact ⟨t, ht, ⟨htook.port, htook.frame⟩, hwalker⟩
    · obtain ⟨t, ht, htook, hcounts⟩ := reportTake_counts hb hcmd hg hwalked h
      exact ⟨t, ht, ⟨htook.port, htook.frame⟩, hcounts⟩
  case ports =>
    intro v r hb
    exact ⟨exec_take_mailbox hb, exec_post_none (by decide) (by decide), exec_post_none (by decide) (by decide), exec_take_walker hb,
      fun hcmd => ⟨take_collective_walksOn hb hcmd, take_collective hb hcmd⟩, exec_post_held hb,
      fun x a b hposts ha hrun hroom => exec_post_collective hb hposts ha hrun hroom⟩
  case fills =>
    intro hl hfirst hst hw c hc
    refine ⟨exec_fill_stopped hl hfirst hst hc, fun hrung => ⟨fun pidx axes hpassed hfilled haudit hskip haxes => ?fill,
      fun pidx h => exec_fill_idle hl hfirst hst hc hw hrung h, ?update⟩⟩
    case fill =>
      intro q pages f reads goesOn isFilled ends
      have hstep := exec_fill_step hl hfirst hst hc hw hrung hpassed hfilled haudit hskip haxes
      refine ⟨fun x hx => ?missing, fun hmiss hfault => ?faulted, fun hok => ⟨fun va n v z hread hv => ?reads,
        fun rows va n v z u hreads hrows hput hu => ?writes⟩⟩
      case missing =>
        rw [fillGo_missing hx] at hstep
        obtain ⟨t, ht, hwalker, hframe⟩ := hstep (engStep_launches _ _ _)
        exact ⟨t, ht, hwalker, hframe⟩
      case faulted =>
        rw [fillGo_faulted hmiss hfault] at hstep
        obtain ⟨t, ht, hwalker, hframe⟩ := hstep rfl
        exact ⟨t, ht, hwalker, by rw [hframe]; rfl, by rw [hframe]; rfl⟩
      case reads =>
        have hsnoop := snoopBy_givenUp (engTr s q) s (va, n)
        have hlaunches : (snoopBy (engTr s q) s (va, n)).launches = s.launches := by rw [hsnoop]
        rw [fillGo_reads hok hread hv] at hstep
        obtain ⟨t, ht, hwalker, hframe⟩ := hstep hlaunches
        exact ⟨t, ht, hwalker, by rw [hframe, hsnoop]⟩
      case writes =>
        have honly := writeBy_only _ _ _ _ _ hu
        have hlaunches : u.launches = s.launches := by rw [honly]
        rw [fillGo_writes hok hreads hrows hput hu] at hstep
        by_cases hlast : f.puts + 1 = (rowWrites rows).length
        · rw [if_pos hlast] at hstep
          obtain ⟨t, ht, hwalker, hframe⟩ := hstep hlaunches
          refine ⟨t, ht, fun _ => ⟨hwalker, by rw [hframe]; rfl, ?_⟩, fun h => absurd hlast h⟩
          rw [hframe, honly]
          rfl
        · rw [if_neg hlast] at hstep
          obtain ⟨t, ht, hwalker, hframe⟩ := hstep hlaunches
          refine ⟨t, ht, fun h => absurd h hlast, fun _ => ⟨hwalker, by rw [hframe], ?_⟩⟩
          rw [hframe, honly]
    case update =>
      intro n f due
      refine ⟨exec_coverageUpdate_idle hl hfirst hst hc hw, fun hdue => ?_⟩
      obtain ⟨t, ht, hwalker, hsame, hblocks, hframe⟩ := exec_coverageUpdate_due hl hfirst hst hc hw hrung hdue
      refine ⟨t, ht, hwalker, fun herrors hlo hhi => ?none, updateOver_bounds _ _ _, fun b x hx => ?blocks, hframe⟩
      case none =>
        have hf : nextFraction l w = lastFraction w := by
          rw [nextFraction]
          exact (congrArg (updateOver l.covctl (lastFraction w)) herrors).trans (updateOver_nil hlo hhi)
        exact ⟨hf, hsame hf⟩
      case blocks =>
        have hy : getKey t.blocks b = some (if nextFraction l w ≠ lastFraction w ∧ x.launch = lid ∧ x.status ≠ .ended
            then raiseLine5 x else x) := by
          rw [hblocks, hx]
          rfl
        refine ⟨_, hy, by split <;> rfl, fun k => ?_⟩
        by_cases hcond : nextFraction l w ≠ lastFraction w ∧ x.launch = lid ∧ x.status ≠ .ended
        · obtain ⟨hf, hlaunch, hlive⟩ := hcond
          rw [if_pos ⟨hf, hlaunch, hlive⟩]
          exact (raiseLine5_agent x k).trans (if_congr ⟨fun hk => ⟨hf, hlaunch, hlive, hk⟩, fun h => h.2.2.2⟩ rfl rfl)
        · rw [if_neg hcond]
          exact (if_neg fun ⟨hf, hlaunch, hlive, _⟩ => hcond ⟨hf, hlaunch, hlive⟩).symm
  case retires =>
    intro hl
    refine ⟨mayRetire_iff, exec_launchRetire_stopped hl, launchRetire_walks hl, fun hwalked hmay hrung => ?_, fun hwalked hmay hrung => ?_⟩
    · exact exec_launchRetire_early hl hrung hwalked hmay
    · obtain ⟨hgone, hblocks, hrequests⟩ := retired_leaves s lid l
      obtain ⟨hstatus, hlate, hbadrep, hslips, hseq, htend, hfrac⟩ := retired_fields l (s.now 0)
      refine ⟨_, l.retired (s.now 0), exec_launchRetire_retires hl hrung hwalked hmay, hgone, hblocks, hrequests, hstatus, hlate, hbadrep,
        hslips, hseq, htend, hfrac, retired_held, fun h => ⟨retired_completions h, retired_silent h, ?_⟩⟩
      intro pa hframe hstat hsig hpa halign _ hwf hlast
      exact retired_record h hstat hsig hlast hpa halign hframe hwf

end Sys2Proof.Machine
end

section
/-! ## Reports of commands (R339) -/
namespace Sys2Proof.Machine
variable {s t u : State} {c : Pcmd} {k pa : Nat}

theorem engTr_phys {p : Partition} {va : Word} {use : Use} {l : Loc} (h : engTr s p va use = .ok l) : ∃ pa, l = .phys pa := by
  unfold engTr at h
  split at h
  · contradiction
  · split at h
    · contradiction
    · split at h
      · unfold checkLeaf at h
        simp only [] at h
        split at h
        · contradiction
        · split at h
          · contradiction
          · split at h
            · exact ⟨_, (Tr.ok.inj h).symm⟩
            · contradiction
      · contradiction
      · contradiction

/-- A REPORT changes the memory and the lines of the host alone. -/
def MemoryOnly (s t : State) : Prop := t = { s with
  mem := t.mem
  hostLines := t.hostLines }

theorem MemoryOnly.trans (h : MemoryOnly s t) (h' : MemoryOnly t u) : MemoryOnly s u := by
  unfold MemoryOnly at h h' ⊢
  rw [h', h]

theorem writeReport_memoryOnly (s : State) (c : Pcmd) (k : Nat) : MemoryOnly s (writeReport s c k) := by
  unfold writeReport
  split
  · next l hl =>
    obtain ⟨pa, rfl⟩ := engTr_phys hl
    simp only [writeLoc, State.write]
    split <;> rfl
  · rfl

theorem writeReport_at (hpa : engTr s (s.part c.part) (c.va + 0xE8) .store = .ok (.phys pa)) (hframe : inSlotFrame s pa = false) :
    (writeReport s c k).mem = s.mem.writeWords pa 2 k false := by
  simp only [writeReport, hpa, writeLoc, State.write, hframe, Bool.false_eq_true, if_false]

/-- A REPORT stands in its eight bytes. -/
theorem writeReport_bytes (hk : k < 256) (hpa : engTr s (s.part c.part) (c.va + 0xE8) .store = .ok (.phys pa)) (halign : pa % 4 = 0)
    (hframe : inSlotFrame s pa = false) (hwf : s.mem.wf = true) : (writeReport s c k).mem.readLE pa 8 = k ∧
      ∀ a, a < pa ∨ pa + 8 ≤ a → (writeReport s c k).mem.byte a = s.mem.byte a := by
  rw [writeReport_at hpa hframe]
  refine ⟨readLE_writeWords (n := 2) hwf halign (lt_of_lt_of_le hk (by norm_num)), fun a ha => ?_⟩
  exact (Store.writeWords_outside hwf halign fun j hj => by omega).1

/-- A REPORT rests on the translations, the memory and the slots' frames. -/
theorem writeReport_givenUp (h : GivenUp s t) (c : Pcmd) (k : Nat) : (writeReport t c k).mem = (writeReport s c k).mem := by
  rw [h]
  simp only [writeReport]
  have htr : engTr { s with hostLines := t.hostLines } = engTr s := rfl
  have hpart : ({ s with hostLines := t.hostLines } : State).part c.part = s.part c.part := rfl
  simp only [htr, hpart]
  cases hl : engTr s (s.part c.part) (c.va + 0xE8) .store with
  | ok l =>
    obtain ⟨pa, rfl⟩ := engTr_phys hl
    have hframe : inSlotFrame { s with hostLines := t.hostLines } pa = inSlotFrame s pa := rfl
    simp only [writeLoc, State.write, hframe]
    split <;> rfl
  | fault _ => rfl
  | miss => rfl

end Sys2Proof.Machine
end

section
/-! ## Commands and their checks (R338, R339) -/
namespace Sys2Proof.Machine
variable {s t : State} {c : Pcmd} {rest : List Pcmd} {x op k : Nat} {ops : Nat → Bool} {pages : Nat → List (Partition × Word)}
  {f : Pcmd → Nat → State → Except Nat State}

/-- The state once a command has been read and is no longer pending. -/
def readAway (s : State) (c : Pcmd) (rest : List Pcmd) : State := { s.snoopRead (s.part c.part) c.va 0xE8 with pcmds := rest }

theorem readAway_givenUp (s : State) (c : Pcmd) (rest : List Pcmd) : GivenUp { s with pcmds := rest } (readAway s c rest) := by
  have h := snoopRead_givenUp s (s.part c.part) c.va 0xE8
  unfold readAway
  rw [h]
  rfl

/-- The state once a command is taken, its nonce recorded. -/
def takenFrom (s : State) (c : Pcmd) (rest : List Pcmd) (x : Nat) : State := { readAway s c rest with nonce := some (Cmd.nonce x) }

theorem takenFrom_eq (s : State) (c : Pcmd) (rest : List Pcmd) (x : Nat) : takenFrom s c rest x = { s with
    pcmds := rest
    nonce := some (Cmd.nonce x)
    hostLines := (takenFrom s c rest x).hostLines } := by
  have h := congrArg (fun u : State => ({ u with nonce := some (Cmd.nonce x) } : State)) (readAway_givenUp s c rest)
  exact h

/-- A state that differs in its commands, their nonce and the lines of the host alone. -/
def Takes (s t : State) : Prop := t = { s with
  pcmds := t.pcmds
  nonce := t.nonce
  hostLines := t.hostLines }

theorem takenFrom_takes (s : State) (c : Pcmd) (rest : List Pcmd) (x : Nat) : Takes s (takenFrom s c rest x) := takenFrom_eq s c rest x

/-- The pages that a command needs. -/
def needed (s : State) (c : Pcmd) (x : Nat) (pages : Nat → List (Partition × Word)) : List (Partition × Word) :=
  ((pagesOf c.va 0xF0).map fun va => (s.part c.part, va)) ++ if (checkCommand s c x).isSome then [] else pages x

/-- What a command does once its pages have been walked to. -/
def carryOut (c : Pcmd) (rest : List Pcmd) (x : Nat) (f : Pcmd → Nat → State → Except Nat State) (s : State) : State :=
  match checkCommand s c x with
  | some n => writeReport (readAway s c rest) c n
  | none => match f c x (takenFrom s c rest x) with
    | .ok t => t
    | .error n => writeReport (readAway s c rest) c n

theorem carryOut_refused (h : checkCommand s c x = some k) : carryOut c rest x f s = writeReport (readAway s c rest) c k := by
  simp only [carryOut, h]

theorem carryOut_error (h : checkCommand s c x = none) (hf : f c x (takenFrom s c rest x) = .error k) :
    carryOut c rest x f s = writeReport (readAway s c rest) c k := by
  simp only [carryOut, h, hf]

theorem carryOut_ok (h : checkCommand s c x = none) (hf : f c x (takenFrom s c rest x) = .ok t) :
    carryOut c rest x f s = t := by
  simp only [carryOut, h, hf]

theorem takeCommand_idle (h : s.pcmds = [] ∨ controllerBusy s = true) : takeCommand ops s pages f = s := by
  unfold takeCommand
  rcases h with h | h
  · simp only [h, ite_self]
  · rw [if_pos h]

theorem takeCommand_eq (hnext : s.pcmds = c :: rest) (hfree : controllerBusy s = false) (hbytes : readCommand s c = some x)
    (hops : ops (Cmd.op x) = true) : takeCommand ops s pages f = withPages s (needed s c x pages) (carryOut c rest x f) := by
  unfold takeCommand
  simp only [hfree, Bool.false_eq_true, if_false, hnext, hbytes, hops, Bool.not_true]
  rfl

/-- A command that fails a check leaves its REPORT and nothing else. -/
theorem refuses_report {i : Instr} {l : List (Partition × Word)}
    (h : exec i s = .next ((writeReport (readAway s c rest) c k).endWalks l)) : Refuses s i c rest k := by
  refine ⟨_, h, ?_⟩
  have hread := readAway_givenUp s c rest
  have hmem := writeReport_givenUp hread c k
  have hreport := writeReport_memoryOnly (readAway s c rest) c k
  have hreport' := writeReport_memoryOnly { s with pcmds := rest } c k
  rw [hreport, hreport', hmem]
  rw [hread]
  rfl

/-- A key is locked, and the signature verifies. -/
def signed (s : State) (x : Nat) : Bool :=
  s.hypLock && Config.sigVerifies s.hypKey (toBytes (fld x 0 0xA8) 0xA8) (toBytes (fld x 0xA8 64) 64)

/-- The nonce is not above the last one. -/
def stale (s : State) (x : Nat) : Bool := s.nonce.any fun n => decide (Cmd.nonce x ≤ n)

theorem checkCommand_eq (s : State) (c : Pcmd) (x : Nat) : checkCommand s c x = if !signed s x then some 1
    else if stale s x then some 2
    else if !fieldsOk s x then some 3
    else if !below s c.part x then some 5
    else none := by
  have hsigned : (!s.hypLock || !Config.sigVerifies s.hypKey (toBytes (fld x 0 0xA8) 0xA8) (toBytes (fld x 0xA8 64) 64)) =
      !signed s x := by rw [signed, Bool.not_and]
  unfold checkCommand stale
  rw [hsigned]
  cases s.nonce <;> rfl

theorem stale_eq_false_iff : stale s x = false ↔ ∀ k, s.nonce = some k → k.toNat < (quad x 8).toNat := by
  rw [stale, Option.any_eq_false]
  refine forall₂_congr fun k _ => ?_
  simp [Cmd.nonce, BitVec.le_def]

theorem below_iff {issuer : Nat} : below s issuer x = true ↔
    issuer = 1 ∨ (if fld x 0 1 = 1 then fld x 2 1 = issuer else (s.part (fld x 1 1)).parent = issuer) := by
  by_cases h : fld x 0 1 = 1
  · have hop : Cmd.op x = 1 := h
    rw [if_pos h]
    simp only [below, hop, if_true, Bool.or_eq_true, beq_iff_eq]
    rfl
  · have hop : ¬ Cmd.op x = 1 := h
    rw [if_neg h]
    simp only [below, hop, if_false, Bool.or_eq_true, beq_iff_eq]
    rfl

/-- The checks of R339 in their order. -/
theorem checkCommand_order (s : State) (c : Pcmd) (x : Nat) :
    let signed := s.hypLock = true ∧ Config.sigVerifies s.hypKey (toBytes (fld x 0 0xA8) 0xA8) (toBytes (fld x 0xA8 64) 64) = true
    let fresh := ∀ k, s.nonce = some k → k.toNat < (quad x 8).toNat
    let related := c.part = 1 ∨ (if fld x 0 1 = 1 then fld x 2 1 = c.part else (s.part (fld x 1 1)).parent = c.part)
    (¬ signed → checkCommand s c x = some 1) ∧ (signed → ¬ fresh → checkCommand s c x = some 2) ∧
    (signed → fresh → fieldsOk s x = false → checkCommand s c x = some 3) ∧
    (signed → fresh → fieldsOk s x = true → ¬ related → checkCommand s c x = some 5) ∧
    (signed → fresh → fieldsOk s x = true → related → checkCommand s c x = none) := by
  intro sig fresh related
  have hsigned : Machine.signed s x = true ↔ sig := Bool.and_eq_true _ _ ▸ Iff.rfl
  have hfresh : stale s x = false ↔ fresh := stale_eq_false_iff
  have hbelow : below s c.part x = true ↔ related := below_iff
  rw [checkCommand_eq]
  refine ⟨fun h => ?unsigned, fun h h' => ?stale, fun h h' h3 => ?fields, fun h h' h3 h5 => ?strange, fun h h' h3 h5 => ?passes⟩
  case unsigned => rw [if_pos (by simpa using fun hs => h (hsigned.mp hs))]
  all_goals rw [if_neg (by simpa using hsigned.mpr h)]
  case stale => rw [if_pos (by simpa using fun hs => h' (hfresh.mp hs))]
  all_goals rw [if_neg (by simpa using hfresh.mpr h')]
  case fields => rw [if_pos (by simpa using h3)]
  all_goals rw [if_neg (by simpa using h3)]
  case strange => rw [if_pos (by simpa using fun hs => h5 (hbelow.mp hs))]
  case passes => rw [if_neg (by simpa using hbelow.mpr h5)]

theorem controllerBusy_iff : controllerBusy s = true ↔
    (∃ r ∈ s.rungs, r.report.isSome = true) ∨ ∃ e ∈ s.parts, e.2.quota.isSome = true := by
  simp only [controllerBusy, Bool.or_eq_true, List.any_eq_true]

theorem quotaDue_of_free (h : controllerBusy s = false) : quotaDue s = none := by
  refine List.findSome?_eq_none_iff.mpr fun p hp => ?_
  have hnone : p.2.quota = none := by
    by_contra hsome
    have hbusy := controllerBusy_iff.mpr (.inr ⟨p, hp, Option.isSome_iff_ne_none.mpr hsome⟩)
    rw [h] at hbusy
    contradiction
  simp only [hnone, Option.bind_none]

/-- A command's event takes the command, with the pages that its code needs. -/
structure TakesBy (s : State) (i : Instr) (c : Pcmd) (x op : Nat) (rest : List Pcmd) (f : Pcmd → Nat → State → Except Nat State) : Prop where
  takes : exec i s = .next (withPages s (commandNeeds s c x op) (carryOut c rest x f))

theorem TakesBy.walks {i : Instr} (h : TakesBy s i c x op rest f) : WalksAll s (commandNeeds s c x op) i := fun y hy => by
  rw [h.takes, withPages_missing hy]

section
variable {i : Instr} (h : TakesBy s i c x op rest f) (hwalked : WalkedAll s (commandNeeds s c x op))
include h hwalked

theorem TakesBy.refused (hk : checkCommand s c x = some k) : Refuses s i c rest k := by
  refine refuses_report (l := commandNeeds s c x op) ?_
  rw [h.takes, withPages_walked hwalked, carryOut_refused hk]

theorem TakesBy.failed (hcheck : checkCommand s c x = none)
    (hf : f c x (takenFrom s c rest x) = .error k) : Refuses s i c rest k := by
  refine refuses_report (l := commandNeeds s c x op) ?_
  rw [h.takes, withPages_walked hwalked, carryOut_error hcheck hf]

theorem TakesBy.done (hcheck : checkCommand s c x = none)
    (hf : f c x (takenFrom s c rest x) = .ok t) :
    exec i s = .next (t.endWalks (commandNeeds s c x op)) := by
  rw [h.takes, withPages_walked hwalked, carryOut_ok hcheck hf]

end

/-- A command's effect with its REPORT. -/
def reporting (f : Nat → State → Except Nat State) (c : Pcmd) (x : Nat) (s : State) : Except Nat State :=
  (f x s).map fun t => writeReport t c 0

end Sys2Proof.Machine
end

section
/-! ## The events of the commands (R340) -/
namespace Sys2Proof.Machine
variable {s t : State} {c : Pcmd} {rest : List Pcmd} {x op k : Nat}

/-- DESTROY takes effect. -/
def destroying (c : Pcmd) (x : Nat) (s : State) : Except Nat State :=
  if (cmdTarget s x).isNone || !(childrenOf s (Cmd.target x)).isEmpty || s.vfmap.any (fun v => v.2 == Cmd.target x) then .error 4
  else .ok (startRung s { rungOf 4 (Cmd.target x) with report := some c })

/-- SETQUOTA is taken: its quotas wait. -/
def quoting (c : Pcmd) (x : Nat) (s : State) : Except Nat State :=
  match cmdTarget s x with
  | none => .error 4
  | some p =>
    if !quotaFits s x p then .error 4
    else .ok (s.setPart (Cmd.target x) { p with quota := some ⟨Cmd.tweight x, Cmd.chrate x, Cmd.links x, Cmd.linkrate x,
      if p.sliced then none else some (s.now 0 + 10000), (c.part, c.va)⟩ })

/-- The queues of a function are all disabled. -/
def idleFn (s : State) (v : Nat) : Bool := (List.range 4).all fun q => !(s.queue (queueKey v q)).en

/-- MAPVF takes effect. -/
def mapping (x : Nat) (s : State) : Except Nat State :=
  if (cmdTarget s x).isNone || !(Cmd.vfs x).all (idleFn s) then .error 4
  else .ok { s with vfmap := (Cmd.vfs x).foldl (fun l v => putKey l v (Cmd.target x)) s.vfmap }

/-- SETTABLE takes effect. -/
def settling (x : Nat) (s : State) : Except Nat State :=
  match cmdTarget s x with
  | none => .error 4
  | some p => match withTable s p (Cmd.ttbase x) (Cmd.htbl x) with
    | none => .error 3
    | some q => .ok (dropTranslations ((snoopHeader s p (Cmd.ttbase x) (Cmd.htbl x)).setPart (Cmd.target x) q) (Cmd.target x))

/-- RESET takes effect. -/
def resetting (x : Nat) (s : State) : Except Nat State :=
  if (cmdTarget s x).isNone then .error 4 else .ok (startRungs s (rungsOver s (Cmd.rung x) (Cmd.target x)))

/-- SETISA takes effect. -/
def maskingIsa (x : Nat) (s : State) : Except Nat State :=
  match cmdTarget s x with
  | none => .error 4
  | some p =>
    if !subMask (Cmd.isa x) (s.part p.giver).isa || !(childrenOf s (Cmd.target x)).all (fun q => subMask q.2.isa (Cmd.isa x)) then .error 4
    else .ok (writeCap (s.setPart (Cmd.target x) { p with isa := Cmd.isa x }) (Cmd.target x))

section
variable (hnext : s.pcmds = c :: rest) (hfree : controllerBusy s = false) (hbytes : readCommand s c = some x)
include hnext hfree hbytes

theorem create_takes (hop : Cmd.op x = 1) : TakesBy s .pcCreate c x 1 rest (reporting createPartition) :=
  ⟨congrArg _ (takeCommand_eq hnext hfree hbytes (by rw [hop]; decide))⟩

theorem destroy_takes (hop : Cmd.op x = 2) : TakesBy s .pcDestroy c x 2 rest destroying :=
  ⟨congrArg _ (takeCommand_eq hnext hfree hbytes (by rw [hop]; decide))⟩

theorem setquota_takes (hop : Cmd.op x = 3) : TakesBy s .pcSetquota c x 3 rest quoting := by
  constructor
  rw [exec_pcSetquota, execPcSetquota]
  simp only [quotaDue_of_free hfree]
  exact congrArg _ (takeCommand_eq hnext hfree hbytes (by rw [hop]; decide))

theorem mapvf_takes (hop : Cmd.op x = 4) : TakesBy s .pcMapvf c x 4 rest (reporting mapping) :=
  ⟨congrArg _ (takeCommand_eq hnext hfree hbytes (by rw [hop]; decide))⟩

theorem settable_takes (hop : Cmd.op x = 5) (hopen : walksOpen s (Cmd.target x) = false) :
    TakesBy s .pcSettable c x 5 rest (reporting settling) := by
  constructor
  rw [exec_pcSettable, execPcSettable]
  have hhead : s.pcmds.head?.bind (readCommand s) = some x := by rw [hnext]; exact hbytes
  simp only [hhead, hopen, Bool.false_eq_true, if_false]
  exact congrArg _ (takeCommand_eq hnext hfree hbytes (by rw [hop]; decide))

theorem reset_takes (hop : Cmd.op x = 6) : TakesBy s .pcReset c x 6 rest (reporting resetting) :=
  ⟨congrArg _ (takeCommand_eq hnext hfree hbytes (by rw [hop]; decide))⟩

theorem setisa_takes (hop : Cmd.op x = 7) : TakesBy s .pcSetisa c x 7 rest (reporting maskingIsa) :=
  ⟨congrArg _ (takeCommand_eq hnext hfree hbytes (by rw [hop]; decide))⟩

/-- Every code has an event that takes its command. -/
theorem command_takes (hop : Cmd.op x = op) (hlo : 1 ≤ op) (hhi : op ≤ 7) (hopen : op = 5 → walksOpen s (Cmd.target x) = false) :
    ∃ f, TakesBy s (commandEvent op) c x op rest f := by
  obtain rfl | rfl | rfl | rfl | rfl | rfl | rfl : op = 1 ∨ op = 2 ∨ op = 3 ∨ op = 4 ∨ op = 5 ∨ op = 6 ∨ op = 7 := by omega
  · exact ⟨_, create_takes hnext hfree hbytes hop⟩
  · exact ⟨_, destroy_takes hnext hfree hbytes hop⟩
  · exact ⟨_, setquota_takes hnext hfree hbytes hop⟩
  · exact ⟨_, mapvf_takes hnext hfree hbytes hop⟩
  · exact ⟨_, settable_takes hnext hfree hbytes hop (hopen rfl)⟩
  · exact ⟨_, reset_takes hnext hfree hbytes hop⟩
  · exact ⟨_, setisa_takes hnext hfree hbytes hop⟩

end

/-- The controller takes nothing while it is at work on a command, or where none is pending. -/
theorem command_idle (h : s.pcmds = [] ∨ controllerBusy s = true) (hquota : op ≠ 3 ∨ quotaDue s = none) :
    exec (commandEvent op) s = .next s := by
  unfold commandEvent
  split
  · exact congrArg _ (takeCommand_idle h)
  · rw [exec_pcSetquota, execPcSetquota]
    simp only [hquota.resolve_left (by decide)]
    exact congrArg _ (takeCommand_idle h)
  · exact congrArg _ (takeCommand_idle h)
  · rw [exec_pcSettable, execPcSettable]
    simp only [withCommand, takeCommand_idle h, ite_self]
  · exact congrArg _ (takeCommand_idle h)
  · exact congrArg _ (takeCommand_idle h)
  · exact congrArg _ (takeCommand_idle h)

/-- SETTABLE waits for the walks and the accesses in progress. -/
theorem settable_waits (hnext : s.pcmds = c :: rest) (hbytes : readCommand s c = some x) (hopen : walksOpen s (Cmd.target x) = true) :
    exec .pcSettable s = .next s := by
  have hhead : s.pcmds.head?.bind (readCommand s) = some x := by rw [hnext]; exact hbytes
  rw [exec_pcSettable, execPcSettable]
  simp only [hhead, hopen, if_true]

end Sys2Proof.Machine
end

section
/-! ## CREATE (R327, R331, R332, R340) -/
namespace Sys2Proof.Machine
variable {s t : State} {c : Pcmd} {rest : List Pcmd} {x n m : Nat} {p q : Partition} {α : Type}

theorem mem_of_getKey : ∀ {l : List (Nat × α)} {n : Nat} {a : α}, getKey l n = some a → (n, a) ∈ l
  | (k, v) :: l, n, a, h => by
    simp only [getKey] at h
    split at h
    · next hk =>
      obtain rfl := Option.some.inj h
      rw [hk]
      exact List.mem_cons_self
    · exact List.mem_cons_of_mem _ (mem_of_getKey h)

theorem mem_putKey : ∀ {l : List (Nat × α)} {n : Nat} {a : α} {y : Nat × α}, y ∈ putKey l n a → y = (n, a) ∨ y ∈ l
  | [], n, a, y, h => by simpa [putKey] using h
  | (k, v) :: l, n, a, y, h => by
    simp only [putKey] at h
    split at h
    · obtain rfl | h := List.mem_cons.mp h
      · exact .inr List.mem_cons_self
      · exact (mem_putKey h).imp_right (List.mem_cons_of_mem _)
    · split at h
      · exact (List.mem_cons.mp h).imp_right (List.mem_cons_of_mem _)
      · exact List.mem_cons.mp h

theorem getKey_map_keyed {β : Type} (g : Nat → α → β) (n : Nat) : ∀ l : List (Nat × α),
    getKey (l.map fun y => (y.1, g y.1 y.2)) n = (getKey l n).map (g n)
  | [] => rfl
  | (k, v) :: l => by
    simp only [List.map_cons, getKey, getKey_map_keyed g n l]
    split
    · next h => rw [h]; rfl
    · rfl

/-- The table of a partition under a new root rests on the translations and the memory. -/
theorem withTable_congr (htr : engTr t = engTr s) (hm : t.mem = s.mem) (p : Partition) (ttbase addr : Word) :
    withTable t p ttbase addr = withTable s p ttbase addr := by
  have hread (p : Partition) : readTable t p addr = readTable s p addr := by
    simp only [readTable, readBytes_congr (s := s) (t := t) (p := p) (by rw [htr]) hm]
  simp only [withTable, hread]

theorem withTable_eq {ttbase addr : Word} (h : withTable s p ttbase addr = some q) : q = { p with
      ttroot := ttbase.extractLsb' 12 40
      table := q.table } ∧ (addr = 0 → q.table = none) := by
  simp only [withTable] at h
  split at h
  · obtain rfl := Option.some.inj h
    exact ⟨rfl, fun _ => rfl⟩
  · next ha =>
    obtain ⟨t, -, rfl⟩ := Option.map_eq_some_iff.mp h
    exact ⟨rfl, fun h0 => absurd h0 ha⟩

theorem snoopHeader_givenUp (s : State) (p : Partition) (ttbase addr : Word) : GivenUp s (snoopHeader s p ttbase addr) := by
  unfold snoopHeader
  split
  · rfl
  · exact snoopRead_givenUp _ _ _ _

theorem writeBytes_memoryOnly {va : Word} {v k : Nat} {z : Bool} (s : State) (p : Partition) :
    MemoryOnly s ((writeBytes s p va v z k).getD s) := by
  cases h : writeBytes s p va v z k with
  | none => rfl
  | some u => exact writeBy_only _ _ _ _ _ h

theorem writeMapped_memoryOnly (p : Partition) : ∀ (l : List Byte) (va : Word) (s : State), MemoryOnly s (writeMapped p va l s)
  | [], _, _ => rfl
  | _ :: l, va, s => (writeBytes_memoryOnly s p).trans (writeMapped_memoryOnly p l (va + 1) _)

theorem writeCap_memoryOnly (s : State) (n : Nat) : MemoryOnly s (writeCap s n) := writeMapped_memoryOnly _ _ _ _

/-! ### The slice of a new child (R333) -/

/-- A slice's beginning changes the partitions, and the blocks that take slots of their cores. -/
def SliceOnly (s t : State) : Prop := t = { s with
  parts := t.parts
  blocks := t.blocks
  cores := t.cores }

theorem SliceOnly.trans {u : State} (h : SliceOnly s t) (h' : SliceOnly t u) : SliceOnly s u := by
  unfold SliceOnly at h h' ⊢
  rw [h', h]

theorem slotIn_only (s : State) (b : Nat × Block) : SliceOnly s (slotIn s b) ∧ (slotIn s b).parts = s.parts := by
  unfold slotIn
  generalize (s.core b.2.core).freeSlot = o
  cases o <;> simp only [] <;> split <;> exact ⟨rfl, rfl⟩

theorem foldl_slotIn_only : ∀ (l : List (Nat × Block)) (s : State), SliceOnly s (l.foldl slotIn s) ∧ (l.foldl slotIn s).parts = s.parts
  | [], _ => ⟨rfl, rfl⟩
  | b :: l, s => by
    obtain ⟨honly, hparts⟩ := slotIn_only s b
    obtain ⟨honly', hparts'⟩ := foldl_slotIn_only l (slotIn s b)
    exact ⟨honly.trans honly', hparts'.trans hparts⟩

theorem beginRound_only (s : State) (n : Nat) : SliceOnly s (beginRound s n) := by
  unfold beginRound
  simp only []
  split <;> rfl

/-- The round of a child that is alone on its set, with no quota waiting, changes no partition. -/
theorem beginRound_part (halone : ∀ k ∈ sliceGroup s n, k = n) (hquota : ∀ q, getKey s.parts n = some q → q.quota = none) (m : Nat) :
    (beginRound s n).part m = s.part m := by
  unfold beginRound
  simp only []
  split
  · have hmap := getKey_map_keyed (fun k q => if (sliceGroup s n).contains k then q.nextRound (s.now 0) else q) m s.parts
    refine congrArg (Option.getD · Partition.reset) (hmap.trans ?_)
    cases hm : getKey s.parts m with
    | none => rfl
    | some q =>
      by_cases hin : (sliceGroup s n).contains m = true
      · have hmn := halone m (by simpa using hin)
        rw [Option.map_some, if_pos hin, Partition.nextRound, hquota q (hmn ▸ hm)]
      · rw [Option.map_some, if_neg hin]
  · rfl

/-- A child whose slice begins, with its nominal end. -/
def sliceBegun (s : State) (n : Nat) (e : Option Word) : State := s.setPart n { s.part n with
  active := true
  overshoot := 0
  stoppedAt := none
  sliceEnd := e }

theorem beginSlice_eq (s : State) (n : Nat) : ∃ (e : Option Word) (l l' : List (Nat × Block)),
    beginSlice s n = l'.foldl slotIn (l.foldl slotIn (sliceBegun (beginRound s n) n e)) := ⟨_, _, _, rfl⟩

/-- The slice of a child that is alone on its set. -/
theorem beginSlice_alone (halone : ∀ k ∈ sliceGroup s n, k = n) (hquota : ∀ q, getKey s.parts n = some q → q.quota = none) :
    SliceOnly s (beginSlice s n) ∧ (∃ e, (beginSlice s n).part n = { s.part n with
      active := true
      overshoot := 0
      stoppedAt := none
      sliceEnd := e }) ∧ ∀ m, m ≠ n → (beginSlice s n).part m = s.part m := by
  have hround := beginRound_part halone hquota
  obtain ⟨e, l, l', hslice⟩ := beginSlice_eq s n
  obtain ⟨honly, hparts⟩ := foldl_slotIn_only l (sliceBegun (beginRound s n) n e)
  obtain ⟨honly', hparts'⟩ := foldl_slotIn_only l' (l.foldl slotIn (sliceBegun (beginRound s n) n e))
  have hset : SliceOnly (beginRound s n) (sliceBegun (beginRound s n) n e) := rfl
  have hpart (k : Nat) : (beginSlice s n).part k = (sliceBegun (beginRound s n) n e).part k := by
    rw [hslice]
    exact congrArg (fun ps => (getKey ps k).getD Partition.reset) (hparts'.trans hparts)
  refine ⟨?_, ⟨e, ?_⟩, fun k hk => ?_⟩
  · rw [hslice]
    exact ((beginRound_only s n).trans hset).trans (honly.trans honly')
  · rw [hpart, sliceBegun, State.part_setPart, if_pos rfl, hround]
  · rw [hpart, sliceBegun, State.part_setPart, if_neg hk, hround]

/-! ### The new partition -/

theorem Takes.createFree_eq (h : Takes s t) (x : Nat) : createFree t x = createFree s x := by rw [h]; rfl
theorem Takes.newPartition_eq (h : Takes s t) (x : Nat) : newPartition t x = newPartition s x := by rw [h]; rfl
theorem Takes.givenFrom_eq (h : Takes s t) (x : Nat) : givenFrom t x = givenFrom s x := by rw [h]; rfl
theorem Takes.cmdTarget_eq (h : Takes s t) (x : Nat) : cmdTarget t x = cmdTarget s x := by rw [h]; rfl
theorem Takes.withTable_eq (h : Takes s t) (p : Partition) (ttbase addr : Word) : withTable t p ttbase addr = withTable s p ttbase addr :=
  withTable_congr (by rw [h]; rfl) (by rw [h]) _ _ _

/-- The giver without what it gives, and the new partition. -/
def partitionMade (s : State) (x : Nat) (q : Partition) : State :=
  ({ s with keptWindows := dropKey s.keptWindows (Cmd.target x) }.setPart (Cmd.giver x) (givenFrom s x)).setPart (Cmd.target x) q

/-- A CREATE's new partition, its slice begun where it is a sliced child alone on its set. -/
def partitionBegun (s : State) (x : Nat) (q : Partition) : State :=
  if q.sliced && q.active then beginSlice (partitionMade s x q) (Cmd.target x) else partitionMade s x q

theorem createPartition_ok (hfree : createFree s x = true)
    (hq : withTable s (newPartition s x) (Cmd.ttbase x) (Cmd.htbl x) = some q) : createPartition x s = .ok (writeCap (writeCap
      (partitionBegun (snoopHeader s (newPartition s x) (Cmd.ttbase x) (Cmd.htbl x)) x q) (Cmd.target x)) (Cmd.giver x)) := by
  simp only [createPartition, hfree, Bool.not_true, Bool.false_eq_true, if_false, hq]
  rfl

theorem newPartition_fields (hq : withTable s (newPartition s x) (Cmd.ttbase x) (Cmd.htbl x) = some q) : q = { newPartition s x with
    ttroot := (Cmd.ttbase x).extractLsb' 12 40
    table := q.table } := (withTable_eq hq).1

theorem partitionMade_part (s : State) (x : Nat) (q : Partition) (m : Nat) : (partitionMade s x q).part m = if m = Cmd.target x then q
    else if m = Cmd.giver x then givenFrom s x else s.part m := by
  rw [partitionMade, State.part_setPart, State.part_setPart]
  rfl

section
variable (hfree : createFree s x = true) (hq : withTable s (newPartition s x) (Cmd.ttbase x) (Cmd.htbl x) = some q)
include hfree

theorem target_absent : getKey s.parts (Cmd.target x) = none ∧ ∃ g, getKey s.parts (Cmd.giver x) = some g := by
  simp only [createFree, Bool.and_eq_true, Option.isNone_iff_eq_none, Option.isSome_iff_exists] at hfree
  tauto

theorem giver_ne_target : Cmd.giver x ≠ Cmd.target x := fun h => by
  obtain ⟨hnone, g, hg⟩ := target_absent hfree
  rw [h, hnone] at hg
  contradiction

include hq

/-- A new sliced child that joins none is alone on its set. -/
theorem made_alone (hsliced : q.sliced = true) (hjoins : Cmd.joins s x = false) :
    ∀ k ∈ sliceGroup (partitionMade s x q) (Cmd.target x), k = Cmd.target x := by
  have hfields := newPartition_fields hq
  have hparent : q.parent = Cmd.parent x := by rw [hfields]; rfl
  have hclusters : q.clusters = Cmd.clusters x := by rw [hfields]; rfl
  have hsl : Cmd.sliced x = true := by rw [← hsliced, hfields]; rfl
  have hnone : ∀ y ∈ s.parts, y.2.sliced = true → y.2.parent = Cmd.parent x → y.2.clusters ≠ Cmd.clusters x := by
    intro y hy hys hyp hyc
    have hmem : y ∈ sharers s (Cmd.parent x) (Cmd.clusters x) := by
      simp only [sharers, childrenOf, List.mem_filter, hys, hyp, hyc, beq_self_eq_true, Bool.and_self, and_self, hy]
    simp only [Cmd.joins, hsl, Bool.true_and, Bool.not_eq_eq_eq_not, Bool.not_false, List.isEmpty_iff] at hjoins
    rw [hjoins] at hmem
    simp at hmem
  intro k hk
  by_contra hkn
  have hpart : (partitionMade s x q).part (Cmd.target x) = q := (partitionMade_part s x q _).trans (if_pos rfl)
  simp only [sliceGroup, hpart, hparent, hclusters, List.mem_map, List.mem_filter, Bool.and_eq_true, beq_iff_eq] at hk
  obtain ⟨y, ⟨hy, ⟨hys, hyp⟩, hyc⟩, rfl⟩ := hk
  rcases mem_putKey hy with rfl | hy
  · exact hkn rfl
  rcases mem_putKey hy with rfl | hy
  · obtain ⟨-, g, hg⟩ := target_absent hfree
    have hgiver : s.part (Cmd.giver x) = g := by rw [State.part, hg]; rfl
    have hcut : (givenFrom s x).clusters = g.clusters.filter fun c => !(Cmd.clusters x).contains c := by
      simp only [givenFrom, hjoins, Bool.false_eq_true, if_false, hgiver]
    have hempty : Cmd.clusters x = [] := by
      refine List.eq_nil_iff_forall_not_mem.mpr fun c hc => ?_
      have hin := hc
      rw [← hyc, hcut, List.mem_filter] at hin
      simp [hc] at hin
    have hsame : g.clusters = Cmd.clusters x := by
      rw [← hyc, hcut, hempty]
      simp
    have hgs : g.sliced = true := by
      rw [← hgiver]
      exact hys
    have hgp : g.parent = Cmd.parent x := by
      rw [← hgiver]
      exact hyp
    exact hnone _ (mem_of_getKey hg) hgs hgp hsame
  · exact hnone y hy hys hyp hyc

end

theorem partitionMade_sliceOnly (s : State) (x : Nat) (q : Partition) :
    SliceOnly { s with keptWindows := dropKey s.keptWindows (Cmd.target x) } (partitionMade s x q) := rfl

section
variable (hfree : createFree s x = true) (hq : withTable s (newPartition s x) (Cmd.ttbase x) (Cmd.htbl x) = some q)
include hfree hq

/-- The partitions after a CREATE: the new one is as it was made but for its slice, the giver lacks what it gave. -/
theorem partitionBegun_leaves : SliceOnly { s with keptWindows := dropKey s.keptWindows (Cmd.target x) } (partitionBegun s x q) ∧
    (∃ e, (partitionBegun s x q).part (Cmd.target x) = { q with sliceEnd := e }) ∧
    (partitionBegun s x q).part (Cmd.giver x) = givenFrom s x ∧
    ∀ m, m ≠ Cmd.target x → m ≠ Cmd.giver x → (partitionBegun s x q).part m = s.part m := by
  have hmade := partitionMade_part s x q
  have hgiver := giver_ne_target hfree
  have htarget : (partitionMade s x q).part (Cmd.target x) = q := (hmade _).trans (if_pos rfl)
  unfold partitionBegun
  split
  · next hbegins =>
    obtain ⟨hsliced, hactive⟩ := Bool.and_eq_true_iff.mp hbegins
    have hfields := newPartition_fields hq
    have hjoins : Cmd.joins s x = false := by
      have h : q.active = !Cmd.joins s x := by rw [hfields]; rfl
      rw [hactive] at h
      simpa using h.symm
    have hquota : ∀ y, getKey (partitionMade s x q).parts (Cmd.target x) = some y → y.quota = none := by
      intro y hy
      have hyq : y = q := by rw [← htarget, State.part, hy]; rfl
      rw [hyq, hfields]
      rfl
    obtain ⟨honly, ⟨e, hself⟩, hothers⟩ := beginSlice_alone (made_alone hfree hq hsliced hjoins) hquota
    refine ⟨(partitionMade_sliceOnly s x q).trans honly, ⟨e, ?_⟩, ?_, fun m hm hm' => ?_⟩
    · rw [hself, htarget]
      have hover : q.overshoot = 0 := by rw [hfields]; rfl
      have hstopped : q.stoppedAt = none := by rw [hfields]; rfl
      rw [← hactive, ← hover, ← hstopped]
    · rw [hothers _ hgiver, hmade, if_neg hgiver, if_pos rfl]
    · rw [hothers _ hm, hmade, if_neg hm, if_neg hm']
  · refine ⟨partitionMade_sliceOnly s x q, ⟨q.sliceEnd, htarget⟩, ?_, fun m hm hm' => ?_⟩
    · rw [hmade, if_neg hgiver, if_pos rfl]
    · rw [hmade, if_neg hm, if_neg hm']

end

end Sys2Proof.Machine
end

section
/-! ## The effects of the commands (R340) -/
namespace Sys2Proof.Machine
variable {s t : State} {c : Pcmd} {rest : List Pcmd} {x n m k : Nat} {p q : Partition}

theorem MemoryOnly.endWalks_eq {P : State} {l : List (Partition × Word)} (h : MemoryOnly P t) : t.endWalks l = { P with
    mem := (t.endWalks l).mem
    hostLines := (t.endWalks l).hostLines
    engWalks := (t.endWalks l).engWalks } := by
  rw [h]
  rfl

theorem reporting_ok {f : Nat → State → Except Nat State} {u : State} (h : f x s = .ok u) :
    reporting f c x s = .ok (writeReport u c 0) := by rw [reporting, h]; rfl

theorem reporting_error {f : Nat → State → Except Nat State} (h : f x s = .error k) : reporting f c x s = .error k := by
  rw [reporting, h]
  rfl

/-! ### CREATE -/

theorem create_refused (h : Passes s c rest x 1) (hfree : createFree s x = false) : Refuses s .pcCreate c rest 4 := by
  have htaken := takenFrom_takes s c rest x
  refine (create_takes h.next h.free h.bytes h.code).failed h.walked h.checks (reporting_error ?_)
  have hfree' := (htaken.createFree_eq x).trans hfree
  simp only [createPartition, hfree', Bool.not_false, if_true]

theorem create_untabled (h : Passes s c rest x 1) (hfree : createFree s x = true)
    (hq : withTable s (newPartition s x) (Cmd.ttbase x) (Cmd.htbl x) = none) : Refuses s .pcCreate c rest 3 := by
  have htaken := takenFrom_takes s c rest x
  have hq' : withTable (takenFrom s c rest x) (newPartition (takenFrom s c rest x) x) (Cmd.ttbase x) (Cmd.htbl x) = none := by
    rw [htaken.newPartition_eq, htaken.withTable_eq, hq]
  refine (create_takes h.next h.free h.bytes h.code).failed h.walked h.checks (reporting_error ?_)
  have hfree' := (htaken.createFree_eq x).trans hfree
  simp only [createPartition, hfree', Bool.not_true, Bool.false_eq_true, if_false, hq']

/-- The frame of a CREATE. -/
theorem made_effect {u w v : State} (hu : Takes s u) (hpcmds : u.pcmds = rest) (hnonce : u.nonce = some (Cmd.nonce x))
    (honly : SliceOnly { u with keptWindows := dropKey u.keptWindows n } w) (hmem : MemoryOnly w v) (l : List (Partition × Word)) :
    Effect s (v.endWalks l) rest x fun s => { s with
      parts := (v.endWalks l).parts
      cores := (v.endWalks l).cores
      blocks := (v.endWalks l).blocks
      keptWindows := dropKey s.keptWindows n } := by
  have hparts : (v.endWalks l).parts = w.parts := by rw [hmem]; rfl
  have hcores : (v.endWalks l).cores = w.cores := by rw [hmem]; rfl
  have hblocks : (v.endWalks l).blocks = w.blocks := by rw [hmem]; rfl
  have hu' : u = { s with
      pcmds := rest
      nonce := some (Cmd.nonce x)
      hostLines := u.hostLines } := by
    rw [← hpcmds, ← hnonce]
    exact hu
  have hw : w = { s with
      pcmds := rest
      nonce := some (Cmd.nonce x)
      keptWindows := dropKey s.keptWindows n
      parts := w.parts
      blocks := w.blocks
      cores := w.cores
      hostLines := u.hostLines } := Eq.trans honly (congrArg (fun y : State => ({ y with
        keptWindows := dropKey y.keptWindows n
        parts := w.parts
        blocks := w.blocks
        cores := w.cores } : State)) hu')
  unfold Effect
  rw [hparts, hcores, hblocks]
  exact hmem.endWalks_eq.trans (congrArg (fun y : State => ({ y with
    mem := (v.endWalks l).mem
    hostLines := (v.endWalks l).hostLines
    engWalks := (v.endWalks l).engWalks } : State)) hw)

/-- CREATE makes its partition. -/
theorem create_makes (h : Passes s c rest x 1) (hfree : createFree s x = true)
    (hq : withTable s (newPartition s x) (Cmd.ttbase x) (Cmd.htbl x) = some q) : ∃ t, exec .pcCreate s = .next t ∧
      t.part (Cmd.target x) = { q with sliceEnd := (t.part (Cmd.target x)).sliceEnd } ∧
      t.part (Cmd.giver x) = givenFrom s x ∧
      (∀ m, m ≠ Cmd.target x → m ≠ Cmd.giver x → t.part m = s.part m) ∧
      Effect s t rest x fun s => { s with
        parts := t.parts
        cores := t.cores
        blocks := t.blocks
        keptWindows := dropKey s.keptWindows (Cmd.target x) } := by
  have htaken := takenFrom_takes s c rest x
  obtain ⟨u, hu⟩ : ∃ u, u = snoopHeader (takenFrom s c rest x) (newPartition s x) (Cmd.ttbase x) (Cmd.htbl x) := ⟨_, rfl⟩
  have hsnoop : GivenUp (takenFrom s c rest x) u := hu ▸ snoopHeader_givenUp _ _ _ _
  have hu' : Takes s u := by
    unfold Takes
    rw [hsnoop, htaken]
  have hfreeu := (hu'.createFree_eq x).trans hfree
  have hqu : withTable u (newPartition u x) (Cmd.ttbase x) (Cmd.htbl x) = some q := by
    rw [hu'.newPartition_eq, hu'.withTable_eq, hq]
  obtain ⟨honly, ⟨e, hself⟩, hgiver, hothers⟩ := partitionBegun_leaves hfreeu hqu
  have hmem : MemoryOnly (partitionBegun u x q) (writeReport (writeCap (writeCap (partitionBegun u x q) (Cmd.target x)) (Cmd.giver x)) c 0) :=
    ((writeCap_memoryOnly _ _).trans (writeCap_memoryOnly _ _)).trans (writeReport_memoryOnly _ _ _)
  have hdone := (create_takes h.next h.free h.bytes h.code).done h.walked h.checks (reporting_ok (by
    have hfreet := (htaken.createFree_eq x).trans hfree
    have hqt : withTable (takenFrom s c rest x) (newPartition (takenFrom s c rest x) x) (Cmd.ttbase x) (Cmd.htbl x) = some q := by
      rw [htaken.newPartition_eq, htaken.withTable_eq, hq]
    have hmade := createPartition_ok hfreet hqt
    rw [htaken.newPartition_eq, ← hu] at hmade
    exact hmade))
  generalize writeReport (writeCap (writeCap (partitionBegun u x q) (Cmd.target x)) (Cmd.giver x)) c 0 = v at hmem hdone
  generalize partitionBegun u x q = w at hmem honly hself hgiver hothers
  have hparts (m : Nat) : (v.endWalks (commandNeeds s c x 1)).part m = w.part m := by rw [hmem]; rfl
  have hpcmds : u.pcmds = rest := by rw [hsnoop]; rfl
  have hnonce : u.nonce = some (Cmd.nonce x) := by rw [hsnoop]; rfl
  refine ⟨_, hdone, ?_, ?_, fun m hm hm' => ?_, ?_⟩
  · rw [hparts, hself]
  · rw [hparts, hgiver, hu'.givenFrom_eq]
  · rw [hparts, hothers m hm hm', hu']
    rfl
  · exact made_effect hu' hpcmds hnonce honly hmem _

end Sys2Proof.Machine
end

section
/-! ## CREATE's fields (R340) -/
namespace Sys2Proof.Machine
variable {s : State} {c : Pcmd} {rest : List Pcmd} {x : Nat} {q : Partition}

/-- The fields that a new partition takes from its CREATE. -/
structure FromCreate (s : State) (x : Nat) (q : Partition) : Prop where
  fields : q.id = Cmd.target x ∧ q.level = (if Cmd.parent x = 0 then 1 else 2) ∧ q.parent = Cmd.parent x ∧ q.sliced = Cmd.sliced x ∧
    q.clusters = Cmd.clusters x ∧ q.ranges = Cmd.rangeSet x ∧ q.isa = Cmd.isa x ∧ q.priv = Cmd.priv x ∧
    q.chrate = Cmd.chrate x ∧ q.links = Cmd.links x ∧ q.linkrate = Cmd.linkrate x ∧ q.tweight = Cmd.tweight x ∧
    q.ttroot = (Cmd.ttbase x).extractLsb' 12 40 ∧ q.slots = [] ∧ q.covctl = 0x00FF0000 ∧
    q.windows = (getKey s.keptWindows (Cmd.target x)).getD Partition.reset.windows

theorem fromCreate (hq : withTable s (newPartition s x) (Cmd.ttbase x) (Cmd.htbl x) = some q) : FromCreate s x q := by
  constructor
  rw [newPartition_fields hq]
  exact ⟨rfl, rfl, rfl, rfl, rfl, rfl, rfl, rfl, rfl, rfl, rfl, rfl, rfl, rfl, rfl, rfl⟩

/-- A giver keeps the clusters that it does not give. -/
theorem mem_givenFrom_clusters (hjoins : Cmd.joins s x = false) (g : Nat) :
    g ∈ (givenFrom s x).clusters ↔ g ∈ (s.part (Cmd.giver x)).clusters ∧ g ∉ Cmd.clusters x := by
  simp [givenFrom, hjoins, List.mem_filter]

theorem create_clause (h : Passes s c rest x 1) :
    (createFree s x = false → Refuses s .pcCreate c rest 4) ∧
    (createFree s x = true → withTable s (newPartition s x) (Cmd.ttbase x) (Cmd.htbl x) = none → Refuses s .pcCreate c rest 3) ∧
    ∀ q, createFree s x = true → withTable s (newPartition s x) (Cmd.ttbase x) (Cmd.htbl x) = some q →
      ∃ t, exec .pcCreate s = .next t ∧ t.part (Cmd.target x) = { q with sliceEnd := (t.part (Cmd.target x)).sliceEnd } ∧
        (q.id = Cmd.target x ∧ q.level = (if Cmd.parent x = 0 then 1 else 2) ∧ q.parent = Cmd.parent x ∧ q.sliced = Cmd.sliced x ∧
          q.clusters = Cmd.clusters x ∧ q.ranges = Cmd.rangeSet x ∧ q.isa = Cmd.isa x ∧ q.priv = Cmd.priv x ∧
          q.chrate = Cmd.chrate x ∧ q.links = Cmd.links x ∧ q.linkrate = Cmd.linkrate x ∧ q.tweight = Cmd.tweight x ∧
          q.ttroot = (Cmd.ttbase x).extractLsb' 12 40 ∧ q.slots = [] ∧ q.covctl = 0x00FF0000 ∧
          q.windows = (getKey s.keptWindows (Cmd.target x)).getD Partition.reset.windows) ∧
        (Cmd.joins s x = false → ∀ g, g ∈ (t.part (Cmd.giver x)).clusters ↔
          g ∈ (s.part (Cmd.giver x)).clusters ∧ g ∉ Cmd.clusters x) ∧
        (∀ m, m ≠ Cmd.target x → m ≠ Cmd.giver x → t.part m = s.part m) ∧
        Effect s t rest x fun s => { s with
          parts := t.parts
          cores := t.cores
          blocks := t.blocks
          keptWindows := dropKey s.keptWindows (Cmd.target x) } := by
  refine ⟨create_refused h, create_untabled h, fun q hfree hq => ?_⟩
  obtain ⟨t, ht, hself, hgiver, hothers, heffect⟩ := create_makes h hfree hq
  refine ⟨t, ht, hself, (fromCreate hq).fields, fun hjoins g => ?_, hothers, heffect⟩
  rw [hgiver]
  exact mem_givenFrom_clusters hjoins g

end Sys2Proof.Machine
end

section
/-! ## The rungs that stop a partition at once (R341) -/
namespace Sys2Proof.Machine
variable {s t u : State} {r : Rung} {k n : Nat} {α β : Type}

theorem natSetFrom_lt {l : List (Nat × α)} {lo n : Nat} {a : α} (hsorted : natSetFrom lo (l.map (·.1)) = true) (h : getKey l n = some a) :
    lo ≤ n := by
  by_contra hlt
  exact natSet_below _ _ _ hsorted (by omega) (List.mem_map_of_mem (mem_of_getKey h))

/-- A value put in place of another, in a list whose keys rise, changes what stands at its key alone. -/
theorem map_putKey_replaced {f : Nat × α → β} {n : Nat} {a b : α} (hf : f (n, b) = f (n, a)) : ∀ {l : List (Nat × α)} {lo : Nat},
    natSetFrom lo (l.map (·.1)) = true → getKey l n = some a → (putKey l n b).map f = l.map f
  | (k, v) :: l, lo, hsorted, h => by
    simp only [List.map_cons, natSetFrom, Bool.and_eq_true, decide_eq_true_eq] at hsorted
    obtain ⟨-, hrest⟩ := hsorted
    by_cases hk : k = n
    · subst hk
      obtain rfl : v = a := by simpa [getKey] using h
      simp [putKey, hf]
    · have h' : getKey l n = some a := by simpa [getKey, hk] using h
      have hlt : k < n := natSetFrom_lt hrest h'
      simp only [putKey, hlt, if_true, List.map_cons, map_putKey_replaced hf hrest h']

theorem getKey_isSome_of_mem_keys : ∀ {l : List (Nat × α)} {n : Nat}, n ∈ l.map (·.1) → (getKey l n).isSome = true
  | (k, v) :: l, n, h => by
    by_cases hk : k = n
    · simp [getKey, hk]
    · have h' : n ∈ l.map (·.1) := by simpa [Ne.symm hk] using h
      simpa [getKey, hk] using getKey_isSome_of_mem_keys h'

/-! ### Blocks that are stopped for good -/

/-- A launch without the slips counted in it. -/
def unslipped (p : Nat × Launch) : Nat × Launch := (p.1, { p.2 with slips := 0 })

/-- The blocks and the launches, in the order of their ids. -/
structure Ordered (s : State) : Prop where
  blocks : natSetFrom 0 (s.blocks.map (·.1)) = true
  launches : natSetFrom 0 (s.launches.map (·.1)) = true

/-- Some blocks have been stopped, and their slips counted. -/
structure Stopped (s t : State) : Prop where
  frame : t = { s with
    blocks := t.blocks
    cores := t.cores
    launches := t.launches }
  keys : t.blocks.map (·.1) = s.blocks.map (·.1)
  slips : t.launches.map unslipped = s.launches.map unslipped

theorem Stopped.refl (s : State) : Stopped s s := ⟨rfl, rfl, rfl⟩

theorem Stopped.trans (h : Stopped s t) (h' : Stopped t u) : Stopped s u := by
  refine ⟨?_, h'.keys.trans h.keys, h'.slips.trans h.slips⟩
  rw [h'.frame, h.frame]

theorem keys_of_unslipped {l l' : List (Nat × Launch)} (h : l.map unslipped = l'.map unslipped) : l.map (·.1) = l'.map (·.1) := by
  have h' := congrArg (List.map Prod.fst) h
  rwa [List.map_map, List.map_map] at h'

theorem Stopped.ordered (h : Stopped s t) (ho : Ordered s) : Ordered t := by
  constructor
  · rw [h.keys]
    exact ho.blocks
  · rw [keys_of_unslipped h.slips]
    exact ho.launches

theorem countSlips_stopped (ho : Ordered s) (b : Block) (agents : List Agent) :
    Stopped s (countSlips s b agents) ∧ (countSlips s b agents).blocks = s.blocks := by
  unfold countSlips
  split
  · exact ⟨.refl s, rfl⟩
  · next l hl =>
    split
    · split
      · refine ⟨⟨rfl, rfl, map_putKey_replaced (f := unslipped) (a := l) ?_ ho.launches hl⟩, rfl⟩
        rfl
      · exact ⟨.refl s, rfl⟩
    · exact ⟨.refl s, rfl⟩

/-- What `stopBlock` leaves of a block. -/
theorem stopBlock_eq (s : State) (p : Nat × Block) : ∃ (c : Core) (x : Block), x.status = .ended ∧
    stopBlock false s p = ((if (s.block p.1).status = .ended then s else countSlips s (s.block p.1) (s.block p.1).agents.toList).setCore
      (s.block p.1).core c).setBlock p.1 x := ⟨_, _, by rfl, rfl⟩

theorem stopBlock_stops (ho : Ordered s) {p : Nat × Block} (hp : p.1 ∈ s.blocks.map (·.1)) : Stopped s (stopBlock false s p) ∧
    ∀ b y, getKey (stopBlock false s p).blocks b = some y → y.status = .ended ∨ b ≠ p.1 ∧ getKey s.blocks b = some y := by
  obtain ⟨c, x, hx, heq⟩ := stopBlock_eq s p
  have hcount : ∀ u, u = (if (s.block p.1).status = .ended then s else countSlips s (s.block p.1) (s.block p.1).agents.toList) →
      Stopped s u ∧ u.blocks = s.blocks := by
    rintro u rfl
    split
    · exact ⟨.refl s, rfl⟩
    · exact countSlips_stopped ho _ _
  generalize (if (s.block p.1).status = .ended then s else countSlips s (s.block p.1) (s.block p.1).agents.toList) = u at heq hcount
  obtain ⟨hu, hblocks⟩ := hcount u rfl
  rw [heq]
  obtain ⟨y, hy⟩ := Option.isSome_iff_exists.mp (getKey_isSome_of_mem_keys hp)
  refine ⟨hu.trans ⟨rfl, ?_, rfl⟩, fun b y hb => ?_⟩
  · refine map_putKey_replaced (f := Prod.fst) (a := y) ?_ (hu.ordered ho).blocks (hblocks ▸ hy)
    rfl
  · by_cases hbp : b = p.1
    · subst hbp
      have hyx : x = y := Option.some.inj ((getKey_putKey_self _ _ _).symm.trans hb)
      exact .inl (hyx ▸ hx)
    · exact .inr ⟨hbp, hblocks ▸ (getKey_putKey_other _ _ _ _ hbp).symm.trans hb⟩

theorem foldl_stopBlock : ∀ (l : List (Nat × Block)) (s : State), Ordered s → (∀ p ∈ l, p.1 ∈ s.blocks.map (·.1)) →
    Stopped s (l.foldl (stopBlock false) s) ∧ ∀ b y, getKey (l.foldl (stopBlock false) s).blocks b = some y →
      y.status = .ended ∨ b ∉ l.map (·.1) ∧ getKey s.blocks b = some y
  | [], s, _, _ => ⟨.refl s, fun b y h => .inr ⟨by simp, h⟩⟩
  | p :: l, s, ho, hl => by
    obtain ⟨hstop, hended⟩ := stopBlock_stops ho (hl p List.mem_cons_self)
    obtain ⟨hstop', hended'⟩ := foldl_stopBlock l (stopBlock false s p) (hstop.ordered ho) fun q hq => by
      rw [hstop.keys]
      exact hl q (List.mem_cons_of_mem _ hq)
    refine ⟨hstop.trans hstop', fun b y h => ?_⟩
    rcases hended' b y h with h | ⟨hnot, h⟩
    · exact .inl h
    · rcases hended b y h with h | ⟨hne, h⟩
      · exact .inl h
      · exact .inr ⟨by simpa [hne] using hnot, h⟩

/-! ### Queues and caches -/

theorem disableQueue_only (s : State) (k : Nat) : disableQueue s k = { s with queues := (disableQueue s k).queues } := by
  unfold disableQueue
  split <;> rfl

theorem disableQueue_getKey {j : Nat} {q : Queue} (h : getKey (disableQueue s k).queues j = some q) :
    q.en = false ∨ j ≠ k ∧ getKey s.queues j = some q := by
  unfold disableQueue at h
  split at h
  · by_cases hj : j = k
    · subst hj
      have hq := Option.some.inj ((getKey_putKey_self _ _ _).symm.trans h)
      exact .inl (by rw [← hq])
    · exact .inr ⟨hj, (getKey_putKey_other _ _ _ _ hj).symm.trans h⟩
  · next hnone =>
    by_cases hj : j = k
    · subst hj
      rw [h] at hnone
      exact absurd rfl hnone
    · exact .inr ⟨hj, h⟩

theorem foldl_disableQueue : ∀ (l : List Nat) (s : State), l.foldl disableQueue s = { s with queues := (l.foldl disableQueue s).queues } ∧
    ∀ j q, getKey (l.foldl disableQueue s).queues j = some q → q.en = false ∨ j ∉ l ∧ getKey s.queues j = some q
  | [], _ => ⟨rfl, fun _ _ h => .inr ⟨by simp, h⟩⟩
  | k :: l, s => by
    obtain ⟨honly, hoff⟩ := foldl_disableQueue l (disableQueue s k)
    refine ⟨?_, fun j q h => ?_⟩
    · have hfirst := congrArg (fun y : State => ({ y with queues := (l.foldl disableQueue (disableQueue s k)).queues } : State))
        (disableQueue_only s k)
      exact honly.trans hfirst
    · rcases hoff j q h with h | ⟨hnot, h⟩
      · exact .inl h
      · rcases disableQueue_getKey h with h | ⟨hne, h⟩
        · exact .inl h
        · exact .inr ⟨by simpa [hne] using hnot, h⟩

theorem foldl_emptyCaches (part : Nat) : ∀ (l : List Nat) (s : State),
    l.foldl (emptyCaches part) s = { s with cores := (l.foldl (emptyCaches part) s).cores }
  | [], _ => rfl
  | c :: l, s => (foldl_emptyCaches part l (emptyCaches part s c)).trans rfl

/-! ### An engine or a partition rung -/

/-- The launches of a rung. -/
def takenLids (s : State) (r : Rung) : List Nat := (s.launches.filter fun p => r.takes p.1 p.2).map (·.1)

/-- The state once the blocks of a rung's launches have been stopped. -/
def rungStopped (s : State) (r : Rung) : State :=
  (s.blocks.filter fun p => (takenLids s r).contains p.2.launch).foldl (stopBlock false) s

/-- The state once what waits for the partition of an engine or a partition rung has been dropped. -/
def rungDropped (s : State) (r : Rung) : State := { rungStopped s r with
  requests := (rungStopped s r).requests.filter fun q => !(takenLids s r).contains q.launch
  members := (rungStopped s r).members.filter fun m => m.part != r.part
  engWalks := (rungStopped s r).engWalks.filter fun k => k.part != r.part
  stalled := (rungStopped s r).stalled.filter fun x => x.1 != r.part }

theorem actRung_eq (h3 : 3 ≤ r.n) : actRung s r = if r.n = 4 then ((rungDropped s r).part r.part).cores.foldl (emptyCaches r.part)
    ((queuesOf (rungDropped s r) r.part).foldl disableQueue (rungDropped s r)) else rungDropped s r := by
  have h1 : ¬ r.n = 1 := by omega
  have hkeep : decide (r.n < 3) = false := decide_eq_false (by omega)
  simp only [actRung, h1, if_false, hkeep, h3, if_true]
  rfl

theorem rungStopped_stops (ho : Ordered s) (r : Rung) : Stopped s (rungStopped s r) ∧ ∀ b y l, getKey (rungStopped s r).blocks b = some y →
    (y.launch, l) ∈ s.launches → r.takes y.launch l = true → y.status = .ended := by
  obtain ⟨hstop, hended⟩ := foldl_stopBlock (s.blocks.filter fun p => (takenLids s r).contains p.2.launch) s ho fun p hp =>
    List.mem_map_of_mem (List.mem_filter.mp hp).1
  refine ⟨hstop, fun b y l hy hl htakes => ?_⟩
  rcases hended b y hy with h | ⟨hnot, h⟩
  · exact h
  · refine absurd (List.mem_map.mpr ⟨(b, y), List.mem_filter.mpr ⟨mem_of_getKey h, ?_⟩, rfl⟩) hnot
    simp only [List.contains_iff_mem]
    exact List.mem_map.mpr ⟨(y.launch, l), List.mem_filter.mpr ⟨hl, htakes⟩, rfl⟩

/-- An engine or a partition rung changes what belongs to the blocks, the queues and the caches. -/
def RungOnly (s t : State) : Prop := t = { s with
  blocks := t.blocks
  cores := t.cores
  launches := t.launches
  queues := t.queues
  requests := t.requests
  members := t.members
  engWalks := t.engWalks
  stalled := t.stalled }

theorem rungDropped_only (ho : Ordered s) (r : Rung) : RungOnly s (rungDropped s r) := by
  have h := (rungStopped_stops ho r).1.frame
  unfold RungOnly rungDropped
  generalize rungStopped s r = u at h
  rw [h]

/-- What an engine or a partition rung does at once. -/
theorem actRung_acts (ho : Ordered s) (h3 : 3 ≤ r.n) : RungOnly s (actRung s r) ∧ (actRung s r).blocks = (rungStopped s r).blocks ∧
    (actRung s r).launches = (rungStopped s r).launches ∧
    (r.n = 4 → ∀ k ∈ queuesOf s r.part, ∀ q, getKey (actRung s r).queues k = some q → q.en = false) := by
  have honly := rungDropped_only ho r
  rw [actRung_eq h3]
  split
  · have hqueues : queuesOf (rungDropped s r) r.part = queuesOf s r.part := by rw [honly]; rfl
    rw [hqueues]
    have hcaches := foldl_emptyCaches r.part ((rungDropped s r).part r.part).cores ((queuesOf s r.part).foldl disableQueue (rungDropped s r))
    obtain ⟨hdisabled, hoff⟩ := foldl_disableQueue (queuesOf s r.part) (rungDropped s r)
    generalize ((rungDropped s r).part r.part).cores.foldl (emptyCaches r.part)
      ((queuesOf s r.part).foldl disableQueue (rungDropped s r)) = w at hcaches
    generalize (queuesOf s r.part).foldl disableQueue (rungDropped s r) = v at hcaches hdisabled hoff
    have hblocks : (rungDropped s r).blocks = (rungStopped s r).blocks := rfl
    have hlaunches : (rungDropped s r).launches = (rungStopped s r).launches := rfl
    generalize rungDropped s r = u at honly hdisabled hoff hblocks hlaunches
    refine ⟨?_, ?_, ?_, fun _ k hk q hq => ?_⟩
    · unfold RungOnly at honly ⊢
      rw [hcaches, hdisabled, honly]
    · rw [hcaches, hdisabled]
      exact hblocks
    · rw [hcaches, hdisabled]
      exact hlaunches
    · rw [hcaches] at hq
      exact (hoff k q hq).resolve_right fun h => h.1 hk
  · next h4 => exact ⟨honly, rfl, rfl, fun h => absurd h h4⟩

/-- The rung that begins. -/
def begunNow (s : State) (r : Rung) : Rung := { r with
  begun := true
  since := s.now 0 }

theorem startRung_alone (hnone : s.rungs = []) (h5 : r.n < 5) :
    startRung s r = actRung { s with rungs := [begunNow s r] } (begunNow s r) := by
  have h : ¬ 5 ≤ r.n := by omega
  unfold startRung
  simp only [h, if_false, hnone, List.find?_nil, List.any_nil, Bool.false_eq_true, List.nil_append]
  rfl

/-- An engine or a partition rung begins. -/
theorem startRung_begins (ho : Ordered s) (hnone : s.rungs = []) (h3 : 3 ≤ r.n) (h4 : r.n ≤ 4) :
    RungBegun s (startRung s r) r.n r.part ∧ RungOnly { s with rungs := [begunNow s r] } (startRung s r) := by
  rw [startRung_alone hnone (by omega)]
  have ho' : Ordered { s with rungs := [begunNow s r] } := ⟨ho.blocks, ho.launches⟩
  obtain ⟨honly, hblocks, hlaunches, hqueues⟩ := actRung_acts (r := begunNow s r) ho' h3
  obtain ⟨hstop, hended⟩ := rungStopped_stops ho' (begunNow s r)
  have htakes (lid : Nat) (l : Launch) (hl : l.part = r.part) : (begunNow s r).takes lid l = true := by
    have hn : r.n = 3 ∨ r.n = 4 := by omega
    rcases hn with hn | hn <;> simp [Rung.takes, begunNow, hn, hl]
  refine ⟨⟨⟨begunNow s r, ?_, rfl, rfl, rfl, rfl⟩, ?_, fun hn k hk q hq => hqueues hn k hk q hq, ?_, ?_⟩, honly⟩
  · rw [honly]
  · intro b y l hy hl hp
    rw [hblocks] at hy
    exact hended b y l hy hl (htakes _ _ hp)
  · rw [honly]
  · rw [hlaunches]
    exact hstop.slips

end Sys2Proof.Machine
end

section
/-! ## DESTROY, RESET and MAPVF (R340) -/
namespace Sys2Proof.Machine
variable {s t u w v : State} {c : Pcmd} {rest : List Pcmd} {x n m k : Nat} {p q : Partition}

theorem takenFrom_effect (s : State) (c : Pcmd) (rest : List Pcmd) (x : Nat) : Effect s (takenFrom s c rest x) rest x id := by
  unfold Effect
  rw [takenFrom_eq]
  rfl

theorem endWalks_only (s : State) (l : List (Partition × Word)) : s.endWalks l = { s with engWalks := (s.endWalks l).engWalks } := rfl

/-- An effect with its REPORT, and its walks done with. -/
theorem Effect.report {P : State → State} (h : Effect s w rest x P) (hmem : MemoryOnly w v) (l : List (Partition × Word)) :
    Effect s (v.endWalks l) rest x P :=
  hmem.endWalks_eq.trans (congrArg (fun y : State => ({ y with
    mem := (v.endWalks l).mem
    hostLines := (v.endWalks l).hostLines
    engWalks := (v.endWalks l).engWalks } : State)) h)

theorem cmdTarget_isSome_iff : (cmdTarget s x).isSome = true ↔ Cmd.target x ≠ 1 ∧ (getKey s.parts (Cmd.target x)).isSome = true := by
  by_cases h : Cmd.target x = 1 <;> simp [cmdTarget, h]

/-! ### DESTROY -/

/-- DESTROY's target is there, without children and without functions. -/
def targetIdle (s : State) (x : Nat) : Bool :=
  (cmdTarget s x).isSome && (childrenOf s (Cmd.target x)).isEmpty && !(s.vfmap.any fun v => v.2 == Cmd.target x)

theorem targetIdle_iff : targetIdle s x = true ↔ Cmd.target x ≠ 1 ∧ (getKey s.parts (Cmd.target x)).isSome = true ∧
    childrenOf s (Cmd.target x) = [] ∧ ∀ f ∈ s.vfmap, f.2 ≠ Cmd.target x := by
  simp only [targetIdle, Bool.and_eq_true, cmdTarget_isSome_iff, List.isEmpty_iff, Bool.not_eq_true', List.any_eq_false, beq_iff_eq,
    and_assoc, ne_eq]

/-- DESTROY's rung. -/
def destroyRung (c : Pcmd) (x : Nat) : Rung := { rungOf 4 (Cmd.target x) with report := some c }

theorem destroying_eq (h : Takes s u) : destroying c x u = if targetIdle s x then .ok (startRung u (destroyRung c x)) else .error 4 := by
  have hidle : targetIdle s x = targetIdle u x := by rw [h]; rfl
  have hcond : ((cmdTarget u x).isNone || !(childrenOf u (Cmd.target x)).isEmpty || u.vfmap.any fun v => v.2 == Cmd.target x) =
      !targetIdle u x := by
    simp only [targetIdle, Bool.not_and, Bool.not_not, Option.not_isSome]
  unfold destroying
  rw [hcond, hidle]
  cases targetIdle u x <;> rfl

theorem Takes.rungBegun (h : Takes s u) (hv : RungBegun u v n m) (l : List (Partition × Word)) : RungBegun s (v.endWalks l) n m := by
  obtain ⟨hone, hblocks, hqueues, hmem⟩ := hv
  rw [h] at hone hblocks hqueues hmem
  exact ⟨hone, hblocks, hqueues, hmem⟩

theorem Takes.ordered (h : Takes s u) (ho : Ordered s) : Ordered u := by
  rw [h]
  exact ⟨ho.blocks, ho.launches⟩

theorem destroy_refused (h : Passes s c rest x 2) (hidle : targetIdle s x = false) : Refuses s .pcDestroy c rest 4 := by
  refine (destroy_takes h.next h.free h.bytes h.code).failed h.walked h.checks ?_
  rw [destroying_eq (takenFrom_takes s c rest x), hidle]
  rfl

theorem destroy_begins (h : Passes s c rest x 2) (hidle : targetIdle s x = true) (hnone : s.rungs = []) (ho : Ordered s) :
    ∃ t, exec .pcDestroy s = .next t ∧ RungBegun s t 4 (Cmd.target x) ∧ t.nonce = some (Cmd.nonce x) ∧ t.pcmds = rest ∧
      t.parts = s.parts ∧ ∀ r ∈ t.rungs, r.report = some c := by
  have htaken := takenFrom_takes s c rest x
  have hrungs : (takenFrom s c rest x).rungs = [] := by rw [htaken]; exact hnone
  have hparts : (takenFrom s c rest x).parts = s.parts := by rw [htaken]
  obtain ⟨hbegun, honly⟩ := startRung_begins (r := destroyRung c x) (htaken.ordered ho) hrungs (Nat.le_succ 3) le_rfl
  have hdone := (destroy_takes h.next h.free h.bytes h.code).done h.walked h.checks
    (t := startRung (takenFrom s c rest x) (destroyRung c x)) (by rw [destroying_eq htaken, hidle]; rfl)
  refine ⟨_, hdone, htaken.rungBegun hbegun _, ?_, ?_, ?_, ?_⟩
  · rw [honly]
    rfl
  · rw [honly]
    rfl
  · rw [honly]
    exact hparts
  · rw [honly]
    intro r hr
    obtain rfl := List.mem_singleton.mp hr
    rfl

theorem destroy_clause (h : Passes s c rest x 2) :
    let idle := Cmd.target x ≠ 1 ∧ (getKey s.parts (Cmd.target x)).isSome = true ∧ childrenOf s (Cmd.target x) = [] ∧
      ∀ f ∈ s.vfmap, f.2 ≠ Cmd.target x
    (¬ idle → Refuses s .pcDestroy c rest 4) ∧
    (idle → s.rungs = [] → natSetFrom 0 (s.blocks.map (·.1)) = true → natSetFrom 0 (s.launches.map (·.1)) = true →
      ∃ t, exec .pcDestroy s = .next t ∧ RungBegun s t 4 (Cmd.target x) ∧ t.nonce = some (Cmd.nonce x) ∧ t.pcmds = rest ∧
        t.parts = s.parts ∧ ∀ r ∈ t.rungs, r.report = some c) := by
  intro idle
  refine ⟨fun hidle => destroy_refused h ?_, fun hidle hnone hb hl => destroy_begins h (targetIdle_iff.mpr hidle) hnone ⟨hb, hl⟩⟩
  exact Bool.eq_false_iff.mpr fun htrue => hidle (targetIdle_iff.mp htrue)

/-! ### RESET -/

theorem rungsOver_part (h3 : 3 ≤ k) : rungsOver s k n = [rungOf k n] := by
  unfold rungsOver
  split
  · omega
  · omega
  · rfl

theorem reset_refused (h : Passes s c rest x 6) (hnone : cmdTarget s x = none) : Refuses s .pcReset c rest 4 := by
  refine (reset_takes h.next h.free h.bytes h.code).failed h.walked h.checks (reporting_error ?_)
  have hnone' := ((takenFrom_takes s c rest x).cmdTarget_eq x).trans hnone
  simp only [resetting, hnone', Option.isNone_none, if_true]

theorem reset_begins (h : Passes s c rest x 6) (hsome : cmdTarget s x ≠ none) (h3 : 3 ≤ Cmd.rung x) (h4 : Cmd.rung x ≤ 4)
    (hnone : s.rungs = []) (ho : Ordered s) : ∃ t u, RungBegun s u (Cmd.rung x) (Cmd.target x) ∧ u.pcmds = rest ∧
      u.nonce = some (Cmd.nonce x) ∧ exec .pcReset s = .next t ∧ t = { writeReport u c 0 with engWalks := t.engWalks } := by
  have htaken := takenFrom_takes s c rest x
  have hrungs : (takenFrom s c rest x).rungs = [] := by rw [htaken]; exact hnone
  obtain ⟨q, hq⟩ := Option.ne_none_iff_exists'.mp hsome
  obtain ⟨hbegun, honly⟩ := startRung_begins (r := rungOf (Cmd.rung x) (Cmd.target x)) (htaken.ordered ho) hrungs h3 h4
  have hresets : resetting x (takenFrom s c rest x) = .ok (startRung (takenFrom s c rest x) (rungOf (Cmd.rung x) (Cmd.target x))) := by
    simp only [resetting, htaken.cmdTarget_eq, hq, Option.isNone_some, Bool.false_eq_true, if_false, rungsOver_part h3]
    rfl
  have hdone := (reset_takes h.next h.free h.bytes h.code).done h.walked h.checks (reporting_ok hresets)
  have hbegun' := htaken.rungBegun hbegun []
  rw [State.endWalks_nil] at hbegun'
  refine ⟨_, _, hbegun', ?_, ?_, hdone, endWalks_only _ _⟩
  · rw [honly]
    rfl
  · rw [honly]
    rfl

/-! ### MAPVF -/

theorem getKey_foldl_putKey_same {α : Type} (a : α) (f : Nat) : ∀ (l : List Nat) (m : List (Nat × α)),
    getKey (l.foldl (fun l v => putKey l v a) m) f = if f ∈ l then some a else getKey m f
  | [], _ => by simp
  | v :: l, m => by
    rw [List.foldl_cons, getKey_foldl_putKey_same a f l]
    by_cases hl : f ∈ l
    · simp [hl]
    · by_cases hv : f = v
      · subst hv
        simp [hl]
      · simp [hl, hv, getKey_putKey_other _ _ _ _ hv]

theorem idleFn_iff {f : Nat} : idleFn s f = true ↔ ∀ q < 4, (s.queue (4 * f + q)).en = false := by
  simp [idleFn, queueKey, List.all_eq_true]

theorem mapvf_refused (h : Passes s c rest x 4) (hbad : cmdTarget s x = none ∨ (Cmd.vfs x).all (idleFn s) = false) :
    Refuses s .pcMapvf c rest 4 := by
  have htaken := takenFrom_takes s c rest x
  refine (mapvf_takes h.next h.free h.bytes h.code).failed h.walked h.checks (reporting_error ?_)
  have hidle : idleFn (takenFrom s c rest x) = idleFn s := by rw [htaken]; rfl
  simp only [mapping, htaken.cmdTarget_eq, hidle]
  rcases hbad with hnone | hbusy
  · simp only [hnone, Option.isNone_none, Bool.true_or, if_true]
  · simp only [hbusy, Bool.not_false, Bool.or_true, if_true]

theorem mapvf_maps (h : Passes s c rest x 4) (hsome : cmdTarget s x ≠ none) (hidle : (Cmd.vfs x).all (idleFn s) = true) :
    ∃ t, exec .pcMapvf s = .next t ∧
      (∀ f, getKey t.vfmap f = if f ∈ Cmd.vfs x then some (Cmd.target x) else getKey s.vfmap f) ∧
      Effect s t rest x fun s => { s with vfmap := t.vfmap } := by
  have htaken := takenFrom_takes s c rest x
  obtain ⟨q, hq⟩ := Option.ne_none_iff_exists'.mp hsome
  have hidle' : idleFn (takenFrom s c rest x) = idleFn s := by rw [htaken]; rfl
  have hvfmap : (takenFrom s c rest x).vfmap = s.vfmap := by rw [htaken]
  obtain ⟨l, hl⟩ : ∃ l, l = (Cmd.vfs x).foldl (fun l v => putKey l v (Cmd.target x)) s.vfmap := ⟨_, rfl⟩
  have hmaps : mapping x (takenFrom s c rest x) = .ok { takenFrom s c rest x with vfmap := l } := by
    simp only [mapping, htaken.cmdTarget_eq, hq, hidle', hidle, Option.isNone_some, Bool.not_true, Bool.or_self, Bool.false_eq_true,
      if_false, hvfmap, hl]
  have hdone := (mapvf_takes h.next h.free h.bytes h.code).done h.walked h.checks (reporting_ok hmaps)
  have hreport := writeReport_memoryOnly { takenFrom s c rest x with vfmap := l } c 0
  have heffect : Effect s { takenFrom s c rest x with vfmap := l } rest x fun s => { s with vfmap := l } := by
    have h := congrArg (fun y : State => ({ y with vfmap := l } : State)) (takenFrom_effect s c rest x)
    exact h
  have hleft : ((writeReport { takenFrom s c rest x with vfmap := l } c 0).endWalks (commandNeeds s c x 4)).vfmap = l := by
    rw [hreport]
    rfl
  refine ⟨_, hdone, fun f => ?_, ?_⟩
  · rw [hleft, hl, getKey_foldl_putKey_same]
  · rw [hleft]
    exact heffect.report hreport _

theorem mapvf_clause (h : Passes s c rest x 4) :
    let idle := ∀ f ∈ Cmd.vfs x, ∀ q < 4, (s.queue (4 * f + q)).en = false
    (cmdTarget s x = none ∨ ¬ idle → Refuses s .pcMapvf c rest 4) ∧
    (cmdTarget s x ≠ none → idle → ∃ t, exec .pcMapvf s = .next t ∧
      (∀ f, getKey t.vfmap f = if f ∈ Cmd.vfs x then some (Cmd.target x) else getKey s.vfmap f) ∧
      Effect s t rest x fun s => { s with vfmap := t.vfmap }) := by
  intro idle
  have hidle : (Cmd.vfs x).all (idleFn s) = true ↔ idle := by
    rw [List.all_eq_true]
    exact forall₂_congr fun f _ => idleFn_iff
  refine ⟨fun hbad => mapvf_refused h (hbad.imp_right fun hbusy => ?_), fun hsome hi => mapvf_maps h hsome (hidle.mpr hi)⟩
  exact Bool.eq_false_iff.mpr fun htrue => hbusy (hidle.mp htrue)

end Sys2Proof.Machine
end

section
/-! ## SETQUOTA, SETTABLE and SETISA (R340) -/
namespace Sys2Proof.Machine
variable {s t u w v : State} {c : Pcmd} {rest : List Pcmd} {x n m k : Nat} {p q q' : Partition} {z : Quota}

/-! ### SETQUOTA -/

theorem Takes.quotaFits_eq (h : Takes s u) (x : Nat) (q : Partition) : quotaFits u x q = quotaFits s x q := by rw [h]; rfl

/-- The quotas of a SETQUOTA that wait. -/
def quotaOf (s : State) (c : Pcmd) (x : Nat) (q : Partition) : Quota :=
  ⟨Cmd.tweight x, Cmd.chrate x, Cmd.links x, Cmd.linkrate x, if q.sliced then none else some (s.now 0 + 10000), (c.part, c.va)⟩

theorem quoting_eq (h : Takes s u) (hq : cmdTarget s x = some q) : quoting c x u =
    if quotaFits s x q then .ok (u.setPart (Cmd.target x) { q with quota := some (quotaOf s c x q) }) else .error 4 := by
  have hnow : u.now 0 = s.now 0 := by rw [h]; rfl
  simp only [quoting, h.cmdTarget_eq, hq, h.quotaFits_eq, hnow]
  cases quotaFits s x q <;> rfl

theorem setquota_clause (h : Passes s c rest x 3) (hq : cmdTarget s x = some q) :
    (quotaFits s x q = false → Refuses s .pcSetquota c rest 4) ∧
    (quotaFits s x q = true → ∃ t, exec .pcSetquota s = .next t ∧
      t = { s.setPart (Cmd.target x) { q with quota := some ⟨Cmd.tweight x, Cmd.chrate x, Cmd.links x, Cmd.linkrate x,
            if q.sliced = true then none else some (s.now 0 + 10000), (c.part, c.va)⟩ } with
        pcmds := rest
        nonce := some (Cmd.nonce x)
        hostLines := t.hostLines
        engWalks := t.engWalks }) := by
  have htaken := takenFrom_takes s c rest x
  have htakes := setquota_takes h.next h.free h.bytes h.code
  refine ⟨fun hfits => ?_, fun hfits => ?_⟩
  · refine htakes.failed h.walked h.checks ?_
    rw [quoting_eq htaken hq, hfits]
    rfl
  · have hdone := htakes.done h.walked h.checks
      (t := (takenFrom s c rest x).setPart (Cmd.target x) { q with quota := some (quotaOf s c x q) }) (by rw [quoting_eq htaken hq, hfits]; rfl)
    refine ⟨_, hdone, ?_⟩
    have heq := takenFrom_eq s c rest x
    generalize takenFrom s c rest x = u at heq
    rw [heq]
    rfl

/-- The quota that is due stands in its partition, and its moment has come. -/
theorem quotaDue_eq_some (h : quotaDue s = some (m, q, z)) : (m, q) ∈ s.parts ∧ q.quota = some z ∧
    ∃ e, z.due = some e ∧ reached (s.now 0) e = true := by
  obtain ⟨⟨k, p⟩, hp, hfound⟩ := List.exists_of_findSome?_eq_some h
  obtain ⟨z', hz, hfound⟩ := Option.bind_eq_some_iff.mp hfound
  obtain ⟨e, he, hfound⟩ := Option.bind_eq_some_iff.mp hfound
  split at hfound
  · next hreached =>
    simp only [Option.some.injEq, Prod.mk.injEq] at hfound
    obtain ⟨rfl, rfl, rfl⟩ := hfound
    exact ⟨hp, hz, e, he, hreached⟩
  · contradiction

theorem finishQuota_memoryOnly (s : State) (m : Nat) (q : Partition) (z : Quota) :
    MemoryOnly (s.setPart m (q.withQuota z)) (finishQuota s m q z) :=
  (writeCap_memoryOnly _ _).trans (writeReport_memoryOnly _ _ _)

theorem quotaDue_clause (h : quotaDue s = some (m, q, z)) : (m, q) ∈ s.parts ∧ q.quota = some z ∧
    (∃ e, z.due = some e ∧ reached (s.now 0) e = true) ∧ WalksAll s (quotaPages s q z) .pcSetquota ∧
    (WalkedAll s (quotaPages s q z) → ∃ t, exec .pcSetquota s = .next t ∧ t.part m = { q with
        tweight := z.tweight
        chrate := z.chrate
        links := z.links
        linkrate := z.linkrate
        quota := none } ∧ (∀ k, k ≠ m → t.part k = s.part k) ∧ t = { s with
      parts := t.parts
      mem := t.mem
      hostLines := t.hostLines
      engWalks := t.engWalks }) := by
  obtain ⟨hmem, hquota, hdue⟩ := quotaDue_eq_some h
  have hexec : exec .pcSetquota s = .next (withPages s (quotaPages s q z) fun s => finishQuota s m q z) := by
    rw [exec_pcSetquota, execPcSetquota]
    simp only [h]
  refine ⟨hmem, hquota, hdue, fun y hy => ?_, fun hwalked => ?_⟩
  · rw [hexec, withPages_missing hy]
  · have hmemory := finishQuota_memoryOnly s m q z
    rw [withPages_walked hwalked] at hexec
    have hpart (k : Nat) : ((finishQuota s m q z).endWalks (quotaPages s q z)).part k = if k = m then q.withQuota z else s.part k := by
      rw [hmemory]
      exact State.part_setPart s m k (q.withQuota z)
    refine ⟨_, hexec, ?_, fun k hk => ?_, ?_⟩
    · rw [hpart, if_pos rfl]
      rfl
    · rw [hpart, if_neg hk]
    · generalize finishQuota s m q z = u at hmemory
      rw [hmemory]
      rfl

theorem nextRound_begins {e : Word} (hz : p.quota = some z) (hdue : z.due = none) : p.nextRound e = { p with
    tweight := z.tweight
    chrate := z.chrate
    links := z.links
    linkrate := z.linkrate
    quota := some { z with due := some e } } := by
  simp only [Partition.nextRound, hz, hdue]
  rfl

/-! ### SETTABLE -/

/-- The translations of a partition, dropped on some cores. -/
def dropTlb (n : Nat) (s : State) (c : Nat) : State := s.setCore c { s.core c with tlb := (s.core c).tlb.filter fun e => e.part != n }

theorem foldl_dropTlb (n k : Nat) : ∀ (l : List Nat) (s : State), (l.foldl (dropTlb n) s).core k =
    if k ∈ l then { s.core k with tlb := (s.core k).tlb.filter fun e => e.part != n } else s.core k
  | [], _ => by simp
  | d :: l, s => by
    rw [List.foldl_cons, foldl_dropTlb n k l, dropTlb, State.core_setCore]
    by_cases hd : k = d
    · subst hd
      by_cases hl : k ∈ l <;> simp [hl, List.filter_filter]
    · simp [hd]

theorem foldl_dropTlb_only (n : Nat) : ∀ (l : List Nat) (s : State), l.foldl (dropTlb n) s = { s with cores := (l.foldl (dropTlb n) s).cores }
  | [], _ => rfl
  | d :: l, s => (foldl_dropTlb_only n l (dropTlb n s d)).trans rfl

/-- What dropping a partition's translations leaves. -/
theorem dropTranslations_drops (s : State) (n : Nat) :
    dropTranslations s n = { s with
      cores := (dropTranslations s n).cores
      engWalks := s.engWalks.filter fun k => k.part != n } ∧
    (∀ k ∈ (s.part n).cores, ∀ e ∈ ((dropTranslations s n).core k).tlb, e.part ≠ n) ∧
    ∀ k, ((dropTranslations s n).core k).leases = (s.core k).leases := by
  have hcore (k : Nat) := foldl_dropTlb n k (s.part n).cores { s with engWalks := s.engWalks.filter fun k => k.part != n }
  refine ⟨foldl_dropTlb_only n (s.part n).cores { s with engWalks := s.engWalks.filter fun k => k.part != n }, fun k hk e he => ?_, fun k => ?_⟩
  · have he' := (congrArg Core.tlb ((hcore k).trans (if_pos hk))) ▸ he
    simpa using (List.mem_filter.mp he').2
  · refine (congrArg Core.leases (hcore k)).trans ?_
    split <;> rfl

theorem settable_refused (h : Passes s c rest x 5) (hq : cmdTarget s x = some q)
    (hnone : withTable s q (Cmd.ttbase x) (Cmd.htbl x) = none) : Refuses s .pcSettable c rest 3 := by
  have htaken := takenFrom_takes s c rest x
  refine (settable_takes h.next h.free h.bytes h.code (h.walks rfl)).failed h.walked h.checks (reporting_error ?_)
  simp only [settling, htaken.cmdTarget_eq, hq, htaken.withTable_eq, hnone]

/-- A partition's table, put in force. -/
def tableSet (s : State) (x : Nat) (q q' : Partition) : State := (snoopHeader s q (Cmd.ttbase x) (Cmd.htbl x)).setPart (Cmd.target x) q'

theorem tableSet_only (s : State) (x : Nat) (q q' : Partition) : tableSet s x q q' = { s with
    hostLines := (tableSet s x q q').hostLines
    parts := putKey s.parts (Cmd.target x) q' } := by
  have h := congrArg (fun y : State => y.setPart (Cmd.target x) q') (snoopHeader_givenUp s q (Cmd.ttbase x) (Cmd.htbl x))
  exact h

/-- A SETTABLE without its REPORT. -/
def tableMoved (s : State) (x : Nat) (q q' : Partition) : State := dropTranslations (tableSet s x q q') (Cmd.target x)

theorem effect_intro {P : State → State} {a : Store} {b : List Nat} {e : List EngWalk} (h : w = { P s with
    pcmds := rest
    nonce := some (Cmd.nonce x)
    mem := a
    hostLines := b
    engWalks := e }) : Effect s w rest x P := by
  subst h
  rfl

theorem tableMoved_effect (hu : Effect s u rest x id) (q q' : Partition) : Effect s (tableMoved u x q q') rest x fun s => { s with
    parts := (tableMoved u x q q').parts
    cores := (tableMoved u x q q').cores } := by
  have hdrop := (dropTranslations_drops (tableSet u x q q') (Cmd.target x)).1
  have honly := tableSet_only u x q q'
  have hparts : (tableMoved u x q q').parts = putKey u.parts (Cmd.target x) q' := by
    rw [tableMoved, hdrop]
    exact congrArg State.parts honly
  have htable := congrArg (fun y : State => ({ y with
    hostLines := (tableSet u x q q').hostLines
    parts := putKey u.parts (Cmd.target x) q' } : State)) hu
  have hmoved := congrArg (fun y : State => ({ y with
    cores := (tableMoved u x q q').cores
    engWalks := (tableSet u x q q').engWalks.filter fun k => k.part != Cmd.target x } : State)) (honly.trans htable)
  rw [hparts]
  exact effect_intro (hdrop.trans hmoved)

/-- What a SETTABLE leaves of the partitions, the translations and the leases. -/
structure TableMoved (s t : State) (n : Nat) (q q' : Partition) : Prop where
  self : t.part n = q'
  others : ∀ m, m ≠ n → t.part m = s.part m
  tlb : ∀ k ∈ q.cores, ∀ e ∈ (t.core k).tlb, e.part ≠ n
  leases : ∀ k, (t.core k).leases = (s.core k).leases
  walks : ∀ k ∈ t.engWalks, k.part ≠ n

theorem tableMoved_moves (hu : Takes s u) (hcores : q'.cores = q.cores) :
    TableMoved s (tableMoved u x q q') (Cmd.target x) q q' := by
  obtain ⟨hdrop, htlb, hleases⟩ := dropTranslations_drops (tableSet u x q q') (Cmd.target x)
  have honly := tableSet_only u x q q'
  have hpart (m : Nat) : (tableSet u x q q').part m = if m = Cmd.target x then q' else s.part m := by
    rw [honly, hu]
    exact State.part_setPart s (Cmd.target x) m q'
  have hmoved (m : Nat) : (tableMoved u x q q').part m = (tableSet u x q q').part m := by
    rw [tableMoved, hdrop]
    rfl
  have hcore (k : Nat) : (tableSet u x q q').core k = s.core k := by
    rw [honly, hu]
    rfl
  rw [hpart, if_pos rfl, hcores] at htlb
  refine ⟨?_, fun m hm => ?_, htlb, fun k => ?_, fun k hk => ?_⟩
  · rw [hmoved, hpart, if_pos rfl]
  · rw [hmoved, hpart, if_neg hm]
  · rw [← hcore]
    exact hleases k
  · rw [tableMoved, hdrop] at hk
    simpa using (List.mem_filter.mp hk).2

theorem TableMoved.report (h : TableMoved s w n q q') (hmem : MemoryOnly w v) (l : List (Partition × Word)) :
    TableMoved s (v.endWalks l) n q q' := by
  obtain ⟨hself, hothers, htlb, hleases, hwalks⟩ := h
  rw [hmem]
  exact ⟨hself, hothers, htlb, hleases, fun k hk => hwalks k (List.mem_filter.mp hk).1⟩

theorem settable_sets (h : Passes s c rest x 5) (hq : cmdTarget s x = some q)
    (hq' : withTable s q (Cmd.ttbase x) (Cmd.htbl x) = some q') : ∃ t, exec .pcSettable s = .next t ∧
      TableMoved s t (Cmd.target x) q q' ∧ Effect s t rest x fun s => { s with
        parts := t.parts
        cores := t.cores } := by
  have htaken := takenFrom_takes s c rest x
  have heffect := takenFrom_effect s c rest x
  have htakes := settable_takes h.next h.free h.bytes h.code (h.walks rfl)
  have hsettles : settling x (takenFrom s c rest x) = .ok (tableMoved (takenFrom s c rest x) x q q') := by
    simp only [settling, htaken.cmdTarget_eq, hq, htaken.withTable_eq, hq']
    rfl
  have hdone := htakes.done h.walked h.checks (reporting_ok hsettles)
  generalize takenFrom s c rest x = u at htaken heffect hdone
  have hmem := writeReport_memoryOnly (tableMoved u x q q') c 0
  have hcores : q'.cores = q.cores := by rw [(withTable_eq hq').1]; rfl
  have hparts : ((writeReport (tableMoved u x q q') c 0).endWalks (commandNeeds s c x 5)).parts = (tableMoved u x q q').parts := by
    rw [hmem]
    rfl
  have hcores' : ((writeReport (tableMoved u x q q') c 0).endWalks (commandNeeds s c x 5)).cores = (tableMoved u x q q').cores := by
    rw [hmem]
    rfl
  refine ⟨_, hdone, (tableMoved_moves htaken hcores).report hmem _, ?_⟩
  rw [hparts, hcores']
  exact (tableMoved_effect heffect q q').report hmem _

theorem settable_clause (h : Passes s c rest x 5) (hq : cmdTarget s x = some q) :
    (withTable s q (Cmd.ttbase x) (Cmd.htbl x) = none → Refuses s .pcSettable c rest 3) ∧
    ∀ q', withTable s q (Cmd.ttbase x) (Cmd.htbl x) = some q' → ∃ t, exec .pcSettable s = .next t ∧ t.part (Cmd.target x) = q' ∧
      q' = { q with
        ttroot := (Cmd.ttbase x).extractLsb' 12 40
        table := q'.table } ∧ (Cmd.htbl x = 0 → q'.table = none) ∧ (∀ m, m ≠ Cmd.target x → t.part m = s.part m) ∧
      (∀ k ∈ q.cores, ∀ e ∈ (t.core k).tlb, e.part ≠ Cmd.target x) ∧ (∀ k, (t.core k).leases = (s.core k).leases) ∧
      (∀ k ∈ t.engWalks, k.part ≠ Cmd.target x) ∧
      Effect s t rest x fun s => { s with
        parts := t.parts
        cores := t.cores } := by
  refine ⟨settable_refused h hq, fun q' hq' => ?_⟩
  obtain ⟨t, ht, ⟨hself, hothers, htlb, hleases, hwalks⟩, heffect⟩ := settable_sets h hq hq'
  obtain ⟨hfields, hnone⟩ := withTable_eq hq'
  exact ⟨t, ht, hself, hfields, hnone, hothers, htlb, hleases, hwalks, heffect⟩

/-! ### SETISA -/

/-- A mask stays within the giver's, and the children stay within it. -/
def isaFits (s : State) (x : Nat) (q : Partition) : Bool :=
  subMask (Cmd.isa x) (s.part q.giver).isa && (childrenOf s (Cmd.target x)).all fun k => subMask k.2.isa (Cmd.isa x)

theorem isaFits_iff : isaFits s x q = true ↔ Cmd.isa x &&& ~~~(s.part (if q.parent = 0 then 1 else q.parent)).isa = 0 ∧
    ∀ k ∈ childrenOf s (Cmd.target x), k.2.isa &&& ~~~Cmd.isa x = 0 := by
  simp only [isaFits, subMask, Bool.and_eq_true, beq_iff_eq, List.all_eq_true]
  rfl

theorem maskingIsa_eq (h : Takes s u) (hq : cmdTarget s x = some q) : maskingIsa x u =
    if isaFits s x q then .ok (writeCap (u.setPart (Cmd.target x) { q with isa := Cmd.isa x }) (Cmd.target x)) else .error 4 := by
  have hfits : isaFits s x q = isaFits u x q := by rw [h]; rfl
  have hcond : (!subMask (Cmd.isa x) (u.part q.giver).isa || !(childrenOf u (Cmd.target x)).all fun k => subMask k.2.isa (Cmd.isa x)) =
      !isaFits u x q := by rw [isaFits, Bool.not_and]
  simp only [maskingIsa, h.cmdTarget_eq, hq, hcond, hfits]
  cases isaFits u x q <;> rfl

theorem setisa_clause (h : Passes s c rest x 7) (hq : cmdTarget s x = some q) :
    let within := Cmd.isa x &&& ~~~(s.part (if q.parent = 0 then 1 else q.parent)).isa = 0 ∧
      ∀ k ∈ childrenOf s (Cmd.target x), k.2.isa &&& ~~~Cmd.isa x = 0
    (¬ within → Refuses s .pcSetisa c rest 4) ∧
    (within → ∃ t, exec .pcSetisa s = .next t ∧ Effect s t rest x fun s => s.setPart (Cmd.target x) { q with isa := Cmd.isa x }) := by
  intro within
  have htaken := takenFrom_takes s c rest x
  have htakes := setisa_takes h.next h.free h.bytes h.code
  have hmask := maskingIsa_eq htaken hq
  refine ⟨fun hnot => htakes.failed h.walked h.checks (reporting_error ?_), fun hin => ?_⟩
  · exact hmask.trans (if_neg fun htrue => hnot (isaFits_iff.mp htrue))
  · refine ⟨_, htakes.done h.walked h.checks (reporting_ok (hmask.trans (if_pos (isaFits_iff.mpr hin)))), ?_⟩
    have heffect : Effect s ((takenFrom s c rest x).setPart (Cmd.target x) { q with isa := Cmd.isa x }) rest x
        fun s => s.setPart (Cmd.target x) { q with isa := Cmd.isa x } := by
      have heq := takenFrom_effect s c rest x
      generalize takenFrom s c rest x = u at heq
      unfold Effect at heq ⊢
      rw [heq]
      rfl
    exact heffect.report ((writeCap_memoryOnly _ _).trans (writeReport_memoryOnly _ _ _)) _

end Sys2Proof.Machine
end

section
/-! ## The locks of PF0, and the capability block that is due (R326, R346, R355, R357) -/
namespace Sys2Proof.Machine
variable {s t : State} {n m : Nat} {q : Partition} {v : Word} {win : Fin 16}

theorem windowLock_locks (h : getKey s.parts n = some q) : exec (.windowLock n win) s =
    .next (s.setPart n { q with windows := q.windows.set win { q.windows[win] with lock := true } }) := by
  rw [exec_windowLock, execWindowLock]
  simp only [setWindow, h]

/-- A locked window keeps its base and its limit. -/
theorem put_locked {w : Window} {word : Nat} (hlock : w.lock = true) (hword : word < 2) : w.put word v = w := by
  obtain rfl | rfl : word = 0 ∨ word = 1 := by omega
  · exact if_pos hlock
  · exact if_pos hlock

theorem hypkeyLock_locked {key : List Byte} (h : s.hypLock = true) : exec (.hypkeyLock key) s = .next s := by
  rw [exec_hypkeyLock, execHypkeyLock, if_pos h]

theorem hypkeyLock_open {key : List Byte} (h : s.hypLock = false) : exec (.hypkeyLock key) s = .next { s with
    hypKey := key
    hypLock := true } := by
  rw [exec_hypkeyLock, execHypkeyLock, if_neg (Bool.eq_false_iff.mp h)]

theorem barAnswers_iff : barAnswers s = true ↔ s.dev.power = true ∧ 2 ≤ s.dev.phase.toNat := by
  rw [barAnswers, Bool.and_eq_true, decide_eq_true_iff]

theorem exec_p1rootWrite_if (v : Word) (s : State) :
    exec (.p1rootWrite v) s = .next (if barAnswers s then p1rootWrite s v else s) := by
  rw [exec_p1rootWrite, execP1rootWrite]

theorem exec_fabidWrite_if (v : Word) (s : State) :
    exec (.fabidWrite v) s = .next (if barAnswers s then fabidWrite s v else s) := by
  rw [exec_fabidWrite, execFabidWrite]

/-- Partition 1 under a new root. -/
def rerooted (s : State) (v : Word) : State :=
  { s with p1root := v.extractLsb' 12 40 }.setPart 1 { s.part 1 with ttroot := v.extractLsb' 12 40 }

theorem p1rootWrite_present (hfree : s.p1used = false) (hsome : (getKey s.parts 1).isSome = true) :
    p1rootWrite s v = { dropTranslations (rerooted s v) 1 with capDue := [1] } := by
  obtain ⟨q, hq⟩ := Option.isSome_iff_exists.mp hsome
  have hpart : s.part 1 = q := by rw [State.part, hq]; rfl
  simp only [p1rootWrite, hfree, Bool.false_eq_true, if_false, hq, rerooted, hpart]

theorem p1rootWrite_absent (hfree : s.p1used = false) (hnone : getKey s.parts 1 = none) :
    p1rootWrite s v = { s with p1root := v.extractLsb' 12 40 } := by
  simp only [p1rootWrite, hfree, Bool.false_eq_true, if_false, hnone]

/-- Partition 1's new root: its translations are dropped, and its capability block is due. -/
theorem p1rootWrite_reroots (hfree : s.p1used = false) (hsome : (getKey s.parts 1).isSome = true) :
    (p1rootWrite s v).p1root = v.extractLsb' 12 40 ∧ (p1rootWrite s v).part 1 = { s.part 1 with ttroot := v.extractLsb' 12 40 } ∧
    (∀ k ∈ (s.part 1).cores, ∀ e ∈ ((p1rootWrite s v).core k).tlb, e.part ≠ 1) ∧
    p1rootWrite s v = { s with
      p1root := (p1rootWrite s v).p1root
      parts := (p1rootWrite s v).parts
      cores := (p1rootWrite s v).cores
      engWalks := s.engWalks.filter fun k => decide (k.part ≠ 1)
      capDue := [1] } := by
  obtain ⟨hdrop, htlb, -⟩ := dropTranslations_drops (rerooted s v) 1
  have hself : (rerooted s v).part 1 = { s.part 1 with ttroot := v.extractLsb' 12 40 } :=
    (State.part_setPart _ 1 1 _).trans (if_pos rfl)
  have hfilter : (fun k : EngWalk => decide (k.part ≠ 1)) = fun k => k.part != 1 := by
    funext k
    exact Bool.eq_iff_iff.mpr (by simp)
  rw [p1rootWrite_present hfree hsome, hfilter]
  rw [hself] at htlb
  generalize dropTranslations (rerooted s v) 1 = w at hdrop htlb
  refine ⟨?_, ?_, htlb, ?_⟩
  · rw [hdrop]
    rfl
  · rw [hdrop]
    exact hself
  · rw [hdrop]
    rfl

/-- P1ROOT and FABID, and their locks. -/
theorem rootAndFabric_clause (s : State) (v : Word) :
    let bar := s.dev.power = true ∧ 2 ≤ s.dev.phase.toNat
    (¬ bar → exec (.p1rootWrite v) s = .next s ∧ exec (.fabidWrite v) s = .next s) ∧
    (s.p1used = true → exec (.p1rootWrite v) s = .next s) ∧
    (bar → s.p1used = false → getKey s.parts 1 = none → exec (.p1rootWrite v) s = .next { s with p1root := v.extractLsb' 12 40 }) ∧
    (bar → s.p1used = false → (getKey s.parts 1).isSome = true → ∃ t, exec (.p1rootWrite v) s = .next t ∧ t.p1root = v.extractLsb' 12 40 ∧
      t.part 1 = { s.part 1 with ttroot := v.extractLsb' 12 40 } ∧ (∀ k ∈ (s.part 1).cores, ∀ e ∈ (t.core k).tlb, e.part ≠ 1) ∧
      t = { s with
        p1root := t.p1root
        parts := t.parts
        cores := t.cores
        engWalks := s.engWalks.filter fun k => decide (k.part ≠ 1)
        capDue := [1] }) ∧
    (s.fabLock = true → exec (.fabidWrite v) s = .next s) ∧
    (bar → s.fabLock = false → exec (.fabidWrite v) s = .next { s with
      fabid := v.extractLsb' 0 8
      fabLock := v.getLsbD 8 }) := by
  intro bar
  have hbar : barAnswers s = true ↔ bar := barAnswers_iff
  rw [exec_p1rootWrite_if, exec_fabidWrite_if]
  refine ⟨fun h => ?closed, fun h => ?used, fun h hfree hnone => ?absent, fun h hfree hsome => ?present, fun h => ?locked, fun h hopen => ?unlocked⟩
  case closed =>
    have hnot : ¬ barAnswers s = true := fun h' => h (hbar.mp h')
    rw [if_neg hnot, if_neg hnot]
    exact ⟨rfl, rfl⟩
  case used =>
    have hsame : p1rootWrite s v = s := by simp only [p1rootWrite, h, if_true]
    rw [hsame, ite_self]
  case absent => rw [if_pos (hbar.mpr h), p1rootWrite_absent hfree hnone]
  case present =>
    rw [if_pos (hbar.mpr h)]
    exact ⟨_, rfl, p1rootWrite_reroots hfree hsome⟩
  case locked =>
    have hsame : fabidWrite s v = s := by simp only [fabidWrite, h, if_true]
    rw [hsame, ite_self]
  case unlocked =>
    rw [if_pos (hbar.mpr h)]
    simp only [fabidWrite, hopen, Bool.false_eq_true, if_false]

theorem capBlock_clause {r : List Nat} (h : s.capDue = m :: r) :
    (∀ y, (capPages (s.part m)).find? (fun y => engTr s y.1 y.2 .load == .miss) = some y → takeInput .capBlock s = engStep s y.1 y.2) ∧
    (WalkedAll s (capPages (s.part m)) → ∃ t, takeInput .capBlock s = t ∧ t = { writeCap { s with capDue := r } m with
      engWalks := t.engWalks }) := by
  have hstep : takeInput .capBlock s = withPages s (capPages (s.part m)) fun s => writeCap { s with capDue := r } m := by
    simp only [takeInput, capStep, h]
  rw [hstep]
  refine ⟨fun y hy => withPages_missing hy, fun hwalked => ⟨_, rfl, ?_⟩⟩
  rw [withPages_walked hwalked]
  exact endWalks_only _ _

end Sys2Proof.Machine
end

section
/-! ## The layout of a capability block (R329, R330) -/
namespace Sys2Proof.Machine
variable {q : Partition} {m pre post a b l : List Byte} {n k v ty i : Nat} {α : Type}

/-- The number in some bytes, little-endian. -/
def leSum (l : List Byte) (n : Nat) : Nat := ((List.range n).map fun i => (l.getD i 0).toNat * 256 ^ i).sum

theorem leSum_cons (y : Byte) (l : List Byte) (n : Nat) : leSum (y :: l) (n + 1) = y.toNat + 256 * leSum l n := by
  have htail : (fun i => ((y :: l).getD (i + 1) 0).toNat * 256 ^ (i + 1)) = fun i => 256 * ((l.getD i 0).toNat * 256 ^ i) := by
    funext i
    rw [List.getD_cons_succ, pow_succ]
    ring
  simp only [leSum, List.range_succ_eq_map, List.map_cons, List.map_map, List.sum_cons, Function.comp_def, htail, List.sum_map_mul_left,
    List.getD_cons_zero, pow_zero, mul_one]

theorem leSum_toBytes (post : List Byte) : ∀ k v : Nat, leSum (toBytes v k ++ post) k = v % 256 ^ k
  | 0, v => by simp [leSum, Nat.mod_one]
  | k + 1, v => by
    have hsplit : v % 256 ^ (k + 1) = v % 256 + 256 * (v / 256 % 256 ^ k) := by rw [pow_succ', Nat.mod_mul]
    rw [toBytes, List.cons_append, leSum_cons, leSum_toBytes post k, BitVec.toNat_ofNat, hsplit]

@[simp] theorem toBytes_length : ∀ k v : Nat, (toBytes v k).length = k
  | 0, _ => rfl
  | k + 1, v => by rw [toBytes, List.length_cons, toBytes_length k]

/-- A number that stands at an offset. -/
theorem leSum_at (h : m = pre ++ (toBytes v k ++ post)) (hlen : pre.length = n) : leSum (m.drop n) k = v % 256 ^ k := by
  rw [h, List.drop_left' hlen, leSum_toBytes]

theorem split_next (h : m = pre ++ (a ++ post)) : m = (pre ++ a) ++ post := h.trans (List.append_assoc _ _ _).symm

/-- The zero bytes after a record's value. -/
def capPad (l : List Byte) : List Byte := List.replicate ((12 - l.length % 8) % 8) 0

theorem capRecord_append (ty : Nat) (l post : List Byte) :
    capRecord ty l ++ post = toBytes ty 2 ++ (toBytes l.length 2 ++ (l ++ (capPad l ++ post))) := by
  simp only [capRecord, capPad, List.append_assoc]

theorem capRecord_length (ty : Nat) (l : List Byte) : (capRecord ty l).length = 4 + l.length + (12 - l.length % 8) % 8 := by
  simp only [capRecord, List.length_append, toBytes_length, List.length_replicate]

/-- A record stands at an offset. -/
structure RecordAt (m : List Byte) (n ty : Nat) (l : List Byte) : Prop where
  split : ∃ pre post, m = pre ++ (capRecord ty l ++ post) ∧ pre.length = n

theorem RecordAt.type_len (h : RecordAt m n ty l) (hty : ty < 2 ^ 16) : leSum (m.drop n) 2 = ty ∧
    leSum (m.drop (n + 2)) 2 = l.length % 2 ^ 16 := by
  obtain ⟨pre, post, hm, hlen⟩ := h.split
  rw [capRecord_append] at hm
  refine ⟨(leSum_at hm hlen).trans (Nat.mod_eq_of_lt hty), ?_⟩
  refine leSum_at (pre := pre ++ toBytes ty 2) (post := l ++ (capPad l ++ post)) (hm.trans ?_) ?_
  · rw [List.append_assoc]
  · rw [List.length_append, toBytes_length, hlen]

/-- A number in a record's value. -/
theorem RecordAt.value (h : RecordAt m n ty l) (hl : l = a ++ (toBytes v k ++ b)) (hi : i = n + 4 + a.length) :
    leSum (m.drop i) k = v % 256 ^ k := by
  rw [hi]
  obtain ⟨pre, post, hm, hlen⟩ := h.split
  rw [capRecord_append] at hm
  refine leSum_at (pre := pre ++ (toBytes ty 2 ++ (toBytes l.length 2 ++ a))) (post := b ++ (capPad l ++ post)) (hm.trans ?_) ?_
  · conv_lhs => rw [hl]
    simp only [List.append_assoc]
    rw [← hl]
  · simp only [List.length_append, toBytes_length, hlen]
    omega

/-- A record's whole value. -/
theorem RecordAt.bytes (h : RecordAt m n ty l) : (m.drop (n + 4)).take l.length = l := by
  obtain ⟨pre, post, hm, hlen⟩ := h.split
  rw [capRecord_append] at hm
  have hsplit : m = (pre ++ (toBytes ty 2 ++ toBytes l.length 2)) ++ (l ++ (capPad l ++ post)) := by
    rw [hm]
    simp only [List.append_assoc]
  have hlen' : (pre ++ (toBytes ty 2 ++ toBytes l.length 2)).length = n + 4 := by
    simp only [List.length_append, toBytes_length, hlen]
  rw [hsplit, List.drop_left' hlen', List.take_left' rfl]

/-! ### The values of the records -/

/-- How many Indigo clusters a partition holds. -/
def indigoCount (q : Partition) : Nat := (q.clusters.filter fun g => decide (g < 72)).length

def clustersValue (q : Partition) : List Byte :=
  toBytes (8 * indigoCount q) 2 ++ toBytes (8 * (q.clusters.length - indigoCount q)) 2 ++ toBytes (bitsOf q.clusters) 12

def rangeBytes (r : Nat × Nat) : List Byte := toBytes r.1 8 ++ toBytes r.2 8

def rangesValue (q : Partition) : List Byte := toBytes q.ranges.length 8 ++ q.ranges.flatMap rangeBytes

def linksValue (q : Partition) : List Byte := toBytes q.links.toNat 2 ++ toBytes q.linkrate 2

def sharesValue (q : Partition) : List Byte :=
  toBytes q.tweight 1 ++ [0] ++ toBytes q.chrate 2 ++ toBytes (if q.sliced then 8000 else 0) 4

def erratumBytes (e : BitVec 32 × BitVec 32) : List Byte := toBytes e.1.toNat 4 ++ toBytes e.2.toNat 4

def errataValue : List Byte := Config.errata.flatMap erratumBytes

def privValue (q : Partition) : List Byte := [if q.priv then 1 else 0]

theorem capRecords_eq (q : Partition) : capRecords q = capRecord 1 (clustersValue q) ++ capRecord 2 (toBytes q.isa.toNat 8) ++
    capRecord 3 (rangesValue q) ++ capRecord 4 (linksValue q) ++ capRecord 5 (sharesValue q) ++ capRecord 6 errataValue ++
    capRecord 7 (privValue q) := rfl

theorem length_flatMap_of_length {f : α → List Byte} (hf : ∀ x, (f x).length = k) : ∀ l : List α, (l.flatMap f).length = k * l.length
  | [] => rfl
  | x :: l => by rw [List.flatMap_cons, List.length_append, hf, length_flatMap_of_length hf l, List.length_cons, Nat.mul_succ, Nat.add_comm]

/-- One item's bytes among those of a list. -/
theorem flatMap_split {f : α → List Byte} {l : List α} {x : α} (h : l[i]? = some x) :
    l.flatMap f = (l.take i).flatMap f ++ (f x ++ (l.drop (i + 1)).flatMap f) := by
  obtain ⟨hi, rfl⟩ := List.getElem?_eq_some_iff.mp h
  rw [← List.flatMap_cons, ← List.drop_eq_getElem_cons, ← List.flatMap_append, List.take_append_drop]

theorem clustersValue_length (q : Partition) : (clustersValue q).length = 16 := by
  simp only [clustersValue, List.length_append, toBytes_length]

theorem rangesValue_length (q : Partition) : (rangesValue q).length = 8 + 16 * q.ranges.length := by
  rw [rangesValue, List.length_append, toBytes_length, length_flatMap_of_length (k := 16) fun r => by simp [rangeBytes]]

theorem linksValue_length (q : Partition) : (linksValue q).length = 4 := by
  simp only [linksValue, List.length_append, toBytes_length]

theorem sharesValue_length (q : Partition) : (sharesValue q).length = 8 := by
  simp only [sharesValue, List.length_append, toBytes_length, List.length_singleton]

theorem errataValue_length : errataValue.length = 8 * Config.errata.length :=
  length_flatMap_of_length (fun e => by simp [erratumBytes]) _

theorem privValue_length (q : Partition) : (privValue q).length = 1 := rfl

/-! ### The block -/

/-- The header and the records that a block's signature covers. -/
def capBody (q : Partition) : List Byte := capHeader q (capRecords q).length ++ capRecords q

theorem capBlock_eq (q : Partition) : capBlock q = capBody q ++ capRecord 0xFF (Config.attestation (capBody q)).toList := rfl

theorem capHeader_length (q : Partition) (n : Nat) : (capHeader q n).length = 16 := by
  simp only [capHeader, List.length_append, toBytes_length, List.length_replicate]

/-- The offset of the fourth record. -/
def rangesEnd (q : Partition) : Nat := 16 * q.ranges.length

/-- The bytes of the errata and of the ranges. -/
def errataEnd (q : Partition) : Nat := rangesEnd q + 8 * Config.errata.length

theorem capRecords_length (q : Partition) : (capRecords q).length = errataEnd q + 96 := by
  simp only [capRecords_eq, List.length_append, capRecord_length, clustersValue_length, toBytes_length, rangesValue_length,
    linksValue_length, sharesValue_length, errataValue_length, privValue_length, errataEnd, rangesEnd]
  omega

theorem capBody_length (q : Partition) : (capBody q).length = errataEnd q + 112 := by
  rw [capBody, List.length_append, capHeader_length, capRecords_length]
  omega

theorem capBlock_length (q : Partition) : (capBlock q).length = errataEnd q + 184 := by
  rw [capBlock_eq, List.length_append, capBody_length, capRecord_length, Vector.length_toList]

section
variable (q : Partition)

/-- The header, and the records in their order. -/
theorem capBlock_parts : capBlock q = capHeader q (capRecords q).length ++ (capRecord 1 (clustersValue q) ++
    (capRecord 2 (toBytes q.isa.toNat 8) ++ (capRecord 3 (rangesValue q) ++ (capRecord 4 (linksValue q) ++
    (capRecord 5 (sharesValue q) ++ (capRecord 6 errataValue ++ (capRecord 7 (privValue q) ++
    capRecord 0xFF (Config.attestation (capBody q)).toList))))))) := by
  rw [capBlock_eq]
  conv_lhs => enter [1]; rw [capBody]; enter [2]; rw [capRecords_eq]
  simp only [List.append_assoc]

/-! Each record stands behind the ones before it. -/

theorem clustersRecord_at : RecordAt (capBlock q) 16 1 (clustersValue q) := ⟨⟨_, _, capBlock_parts q, capHeader_length _ _⟩⟩

theorem isaRecord_at : RecordAt (capBlock q) 40 2 (toBytes q.isa.toNat 8) := by
  refine ⟨⟨_, _, split_next (capBlock_parts q), ?_⟩⟩
  simp only [List.length_append, capHeader_length, capRecord_length, clustersValue_length]

theorem rangesRecord_at : RecordAt (capBlock q) 56 3 (rangesValue q) := by
  refine ⟨⟨_, _, split_next (split_next (capBlock_parts q)), ?_⟩⟩
  simp only [List.length_append, capHeader_length, capRecord_length, clustersValue_length, toBytes_length]

/-- The bytes before the fourth record. -/
def beforeLinks : List Byte := capHeader q (capRecords q).length ++ capRecord 1 (clustersValue q) ++ capRecord 2 (toBytes q.isa.toNat 8) ++
  capRecord 3 (rangesValue q)

theorem beforeLinks_length : (beforeLinks q).length = rangesEnd q + 72 := by
  simp only [beforeLinks, List.length_append, capHeader_length, capRecord_length, clustersValue_length, toBytes_length,
    rangesValue_length, rangesEnd]
  omega

theorem capBlock_links : capBlock q = beforeLinks q ++ (capRecord 4 (linksValue q) ++
    (capRecord 5 (sharesValue q) ++ (capRecord 6 errataValue ++ (capRecord 7 (privValue q) ++
    capRecord 0xFF (Config.attestation (capBody q)).toList)))) :=
  split_next (split_next (split_next (capBlock_parts q)))

theorem linksRecord_at : RecordAt (capBlock q) (rangesEnd q + 72) 4 (linksValue q) :=
  ⟨⟨_, _, capBlock_links q, beforeLinks_length q⟩⟩

theorem sharesRecord_at : RecordAt (capBlock q) (rangesEnd q + 80) 5 (sharesValue q) := by
  refine ⟨⟨_, _, split_next (capBlock_links q), ?_⟩⟩
  simp only [List.length_append, beforeLinks_length, capRecord_length, linksValue_length]

theorem errataRecord_at : RecordAt (capBlock q) (rangesEnd q + 96) 6 errataValue := by
  refine ⟨⟨_, _, split_next (split_next (capBlock_links q)), ?_⟩⟩
  simp only [List.length_append, beforeLinks_length, capRecord_length, linksValue_length, sharesValue_length]

theorem privRecord_at : RecordAt (capBlock q) (errataEnd q + 104) 7 (privValue q) := by
  refine ⟨⟨_, _, split_next (split_next (split_next (capBlock_links q))), ?_⟩⟩
  simp only [List.length_append, beforeLinks_length, capRecord_length, linksValue_length, sharesValue_length, errataValue_length,
    errataEnd]
  omega

theorem signatureRecord_at : RecordAt (capBlock q) (errataEnd q + 112) 0xFF (Config.attestation (capBody q)).toList := by
  refine ⟨⟨capBody q, [], (capBlock_eq q).trans ?_, capBody_length q⟩⟩
  rw [List.append_nil]

/-- The signature is over every byte before its record. -/
theorem capBlock_take : (capBlock q).take (errataEnd q + 112) = capBody q := by
  rw [capBlock_eq, List.take_left' (capBody_length q)]

end

/-! ### The fields -/

section
variable (q : Partition)

theorem header_fields : leSum ((capBlock q).drop 0) 4 = 0x3838424E ∧ leSum ((capBlock q).drop 4) 2 = 1 ∧
    leSum ((capBlock q).drop 6) 2 = 8 ∧ leSum ((capBlock q).drop 8) 4 = (capBlock q).length % 2 ^ 32 ∧
    leSum ((capBlock q).drop 12) 1 = q.id % 256 ∧ leSum ((capBlock q).drop 13) 3 = 0 := by
  have hlen : 16 + (capRecords q).length + 72 = (capBlock q).length := by
    rw [capRecords_length, capBlock_length]
    omega
  obtain ⟨post, hpost⟩ : ∃ post, capBlock q = capHeader q (capRecords q).length ++ post := ⟨_, capBlock_parts q⟩
  have hmagic : capBlock q = [] ++ (toBytes 0x3838424E 4 ++ (toBytes 1 2 ++ (toBytes 8 2 ++ (toBytes (capBlock q).length 4 ++
      (toBytes q.id 1 ++ (toBytes 0 3 ++ post)))))) := by
    refine hpost.trans ?_
    rw [capHeader, hlen]
    simp only [List.append_assoc, List.nil_append]
    rfl
  have hversion := split_next hmagic
  have hcount := split_next hversion
  have hlength := split_next hcount
  have hid := split_next hlength
  have hzeros := split_next hid
  exact ⟨leSum_at hmagic rfl, leSum_at hversion rfl, leSum_at hcount rfl, leSum_at hlength rfl, (leSum_at hid rfl).trans (by rw [pow_one]),
    leSum_at hzeros rfl⟩

theorem bitsOf_testBit (g : Nat) : ∀ (l : List Nat) (n : Nat), (l.foldl (fun a g => a ||| 2 ^ g) n).testBit g = (n.testBit g || decide (g ∈ l))
  | [], n => by simp
  | k :: l, n => by
    rw [List.foldl_cons, bitsOf_testBit g l, Nat.testBit_or, Nat.testBit_two_pow, Bool.or_assoc]
    by_cases hk : k = g
    · simp [hk]
    · simp [hk, Ne.symm hk]

theorem clusters_fields : leSum ((capBlock q).drop 20) 2 = 8 * indigoCount q % 2 ^ 16 ∧
    leSum ((capBlock q).drop 22) 2 = 8 * (q.clusters.length - indigoCount q) % 2 ^ 16 ∧
    ∀ g < 96, (leSum ((capBlock q).drop 24) 12).testBit g = decide (g ∈ q.clusters) := by
  have hat := clustersRecord_at q
  have hindigo : clustersValue q = [] ++ (toBytes (8 * indigoCount q) 2 ++
      (toBytes (8 * (q.clusters.length - indigoCount q)) 2 ++ (toBytes (bitsOf q.clusters) 12 ++ []))) := by
    simp only [clustersValue, List.append_assoc, List.nil_append, List.append_nil]
  have hrest := split_next hindigo
  have hbits := split_next hrest
  refine ⟨hat.value hindigo rfl, hat.value hrest (by simp), fun g hg => ?_⟩
  have hvalue : leSum ((capBlock q).drop 24) 12 = bitsOf q.clusters % 256 ^ 12 := hat.value hbits (by simp)
  have hpow : 256 ^ 12 = 2 ^ 96 := by norm_num
  rw [hvalue, hpow, Nat.testBit_mod_two_pow, bitsOf, bitsOf_testBit]
  simp [hg]

theorem isa_field : leSum ((capBlock q).drop 44) 8 = q.isa.toNat := by
  have hvalue : toBytes q.isa.toNat 8 = [] ++ (toBytes q.isa.toNat 8 ++ []) := by rw [List.nil_append, List.append_nil]
  exact ((isaRecord_at q).value hvalue rfl).trans (Nat.mod_eq_of_lt q.isa.isLt)

theorem ranges_fields : leSum ((capBlock q).drop 60) 8 = q.ranges.length % 2 ^ 64 ∧
    ∀ (i : Nat) (y : Nat × Nat), q.ranges[i]? = some y →
      leSum ((capBlock q).drop (68 + 16 * i)) 8 = y.1 % 2 ^ 64 ∧ leSum ((capBlock q).drop (76 + 16 * i)) 8 = y.2 % 2 ^ 64 := by
  have hat := rangesRecord_at q
  refine ⟨hat.value (a := []) rfl rfl, fun i y hy => ?_⟩
  have hi : i ≤ q.ranges.length := (List.getElem?_eq_some_iff.mp hy).1.le
  have hbase : rangesValue q = (toBytes q.ranges.length 8 ++ (q.ranges.take i).flatMap rangeBytes) ++ (toBytes y.1 8 ++
      (toBytes y.2 8 ++ (q.ranges.drop (i + 1)).flatMap rangeBytes)) := by
    rw [rangesValue, flatMap_split hy, rangeBytes]
    simp only [List.append_assoc]
  have hlen : ((q.ranges.take i).flatMap rangeBytes).length = 16 * i := by
    rw [length_flatMap_of_length (k := 16) (fun r => by simp [rangeBytes]), List.length_take, Nat.min_eq_left hi]
  refine ⟨hat.value hbase ?_, hat.value (split_next hbase) ?_⟩
  all_goals
    simp only [List.length_append, toBytes_length, hlen]
    omega

theorem links_fields : leSum ((capBlock q).drop (rangesEnd q + 76)) 2 = q.links.toNat ∧
    leSum ((capBlock q).drop (rangesEnd q + 78)) 2 = q.linkrate % 2 ^ 16 := by
  have hat := linksRecord_at q
  have hlinks : linksValue q = [] ++ (toBytes q.links.toNat 2 ++ (toBytes q.linkrate 2 ++ [])) := by
    rw [linksValue, List.nil_append, List.append_nil]
  exact ⟨(hat.value hlinks rfl).trans (Nat.mod_eq_of_lt q.links.isLt), hat.value (split_next hlinks) (by simp)⟩

theorem shares_fields : leSum ((capBlock q).drop (rangesEnd q + 84)) 1 = q.tweight % 2 ^ 8 ∧
    leSum ((capBlock q).drop (rangesEnd q + 85)) 1 = 0 ∧ leSum ((capBlock q).drop (rangesEnd q + 86)) 2 = q.chrate % 2 ^ 16 ∧
    leSum ((capBlock q).drop (rangesEnd q + 88)) 4 = if q.sliced then 8000 else 0 := by
  have hat := sharesRecord_at q
  have hweight : sharesValue q = [] ++ (toBytes q.tweight 1 ++ (toBytes 0 1 ++ (toBytes q.chrate 2 ++
      (toBytes (if q.sliced then 8000 else 0) 4 ++ [])))) := by
    rw [sharesValue]
    simp only [List.append_assoc, List.nil_append, List.append_nil]
    rfl
  have hzero := split_next hweight
  have hrate := split_next hzero
  have hslice := split_next hrate
  refine ⟨hat.value hweight rfl, hat.value hzero (by simp), hat.value hrate (by simp),
    (hat.value hslice (by simp)).trans (Nat.mod_eq_of_lt ?_)⟩
  split <;> norm_num

theorem errata_fields (i : Nat) (y : BitVec 32 × BitVec 32) (hy : Config.errata[i]? = some y) :
    leSum ((capBlock q).drop (rangesEnd q + 100 + 8 * i)) 4 = y.1.toNat ∧
    leSum ((capBlock q).drop (rangesEnd q + 104 + 8 * i)) 4 = y.2.toNat := by
  have hat := errataRecord_at q
  have hi : i ≤ Config.errata.length := (List.getElem?_eq_some_iff.mp hy).1.le
  have hid : errataValue = (Config.errata.take i).flatMap erratumBytes ++ (toBytes y.1.toNat 4 ++
      (toBytes y.2.toNat 4 ++ (Config.errata.drop (i + 1)).flatMap erratumBytes)) := by
    rw [errataValue, flatMap_split hy, erratumBytes]
    simp only [List.append_assoc]
  have hlen : ((Config.errata.take i).flatMap erratumBytes).length = 8 * i := by
    rw [length_flatMap_of_length (k := 8) (fun r => by simp [erratumBytes]), List.length_take, Nat.min_eq_left hi]
  refine ⟨(hat.value hid ?_).trans (Nat.mod_eq_of_lt y.1.isLt), (hat.value (split_next hid) ?_).trans (Nat.mod_eq_of_lt y.2.isLt)⟩
  · rw [hlen]
  · rw [List.length_append, toBytes_length, hlen]
    omega

theorem priv_field : leSum ((capBlock q).drop (errataEnd q + 108)) 1 = q.priv.toNat := by
  have hvalue : privValue q = [] ++ (toBytes q.priv.toNat 1 ++ []) := by
    rw [privValue]
    cases q.priv <;> rfl
  exact ((privRecord_at q).value hvalue rfl).trans (Nat.mod_eq_of_lt (lt_of_le_of_lt q.priv.toNat_le (by norm_num)))

theorem signature_field : ((capBlock q).drop (errataEnd q + 116)).take 64 =
    (Config.attestation ((capBlock q).take (errataEnd q + 112))).toList := by
  have hbytes := (signatureRecord_at q).bytes
  rw [Vector.length_toList] at hbytes
  rw [capBlock_take]
  exact hbytes

end

/-- The layout of a capability block. -/
theorem capBlock_layout (q : Partition) :
    let m := capBlock q
    let f (at_ n : Nat) : Nat := ((List.range n).map fun i => ((m.drop at_).getD i 0).toNat * 256 ^ i).sum
    let record (at_ type len : Nat) : Prop := f at_ 2 = type ∧ f (at_ + 2) 2 = len % 2 ^ 16
    let r := 16 * q.ranges.length
    let e := r + 8 * Config.errata.length
    let indigo := (q.clusters.filter fun g => decide (g < 72)).length
    f 0 4 = 0x3838424E ∧ f 4 2 = 1 ∧ f 6 2 = 8 ∧ f 8 4 = m.length % 2 ^ 32 ∧ f 12 1 = q.id % 256 ∧ f 13 3 = 0 ∧ m.length = e + 184 ∧
    record 16 1 16 ∧ f 20 2 = 8 * indigo % 2 ^ 16 ∧ f 22 2 = 8 * (q.clusters.length - indigo) % 2 ^ 16 ∧
    (∀ g < 96, (f 24 12).testBit g = decide (g ∈ q.clusters)) ∧
    record 40 2 8 ∧ f 44 8 = q.isa.toNat ∧
    record 56 3 (8 + r) ∧ f 60 8 = q.ranges.length % 2 ^ 64 ∧
    (∀ i y, q.ranges[i]? = some y → f (68 + 16 * i) 8 = y.1 % 2 ^ 64 ∧ f (76 + 16 * i) 8 = y.2 % 2 ^ 64) ∧
    record (r + 72) 4 4 ∧ f (r + 76) 2 = q.links.toNat ∧ f (r + 78) 2 = q.linkrate % 2 ^ 16 ∧
    record (r + 80) 5 8 ∧ f (r + 84) 1 = q.tweight % 2 ^ 8 ∧ f (r + 85) 1 = 0 ∧ f (r + 86) 2 = q.chrate % 2 ^ 16 ∧
    f (r + 88) 4 = (if q.sliced then 8000 else 0) ∧
    record (r + 96) 6 (8 * Config.errata.length) ∧
    (∀ i y, Config.errata[i]? = some y → f (r + 100 + 8 * i) 4 = y.1.toNat ∧ f (r + 104 + 8 * i) 4 = y.2.toNat) ∧
    record (e + 104) 7 1 ∧ f (e + 108) 1 = q.priv.toNat ∧ record (e + 112) 0xFF 64 ∧
    (m.drop (e + 116)).take 64 = (Config.attestation (m.take (e + 112))).toList := by
  intro m f record r e indigo
  have hrecord {n ty k : Nat} {l : List Byte} (h : RecordAt m n ty l) (hty : ty < 2 ^ 16) (hl : l.length = k) : record n ty k :=
    hl ▸ h.type_len hty
  obtain ⟨hmagic, hversion, hcount, hlength, hid, hzeros⟩ := header_fields q
  obtain ⟨hindigo, hochre, hbits⟩ := clusters_fields q
  obtain ⟨hranges, hrange⟩ := ranges_fields q
  obtain ⟨hlinks, hlinkrate⟩ := links_fields q
  obtain ⟨hweight, hzero, hrate, hslice⟩ := shares_fields q
  exact ⟨hmagic, hversion, hcount, hlength, hid, hzeros, capBlock_length q,
    hrecord (clustersRecord_at q) (by norm_num) (clustersValue_length q), hindigo, hochre, hbits,
    hrecord (isaRecord_at q) (by norm_num) (toBytes_length _ _), isa_field q,
    hrecord (rangesRecord_at q) (by norm_num) (rangesValue_length q), hranges, hrange,
    hrecord (linksRecord_at q) (by norm_num) (linksValue_length q), hlinks, hlinkrate,
    hrecord (sharesRecord_at q) (by norm_num) (sharesValue_length q), hweight, hzero, hrate, hslice,
    hrecord (errataRecord_at q) (by norm_num) errataValue_length, errata_fields q,
    hrecord (privRecord_at q) (by norm_num) (privValue_length q), priv_field q,
    hrecord (signatureRecord_at q) (by norm_num) Vector.length_toList, signature_field q⟩

end Sys2Proof.Machine
end

section
/-! ## The partition controller -/
namespace Sys2Proof.Machine

/-- A command's event walks to the command's pages, and reports a check that it fails. -/
theorem command_clause {s : State} {c : Pcmd} {rest : List Pcmd} {x op k : Nat} (hnext : s.pcmds = c :: rest)
    (hfree : controllerBusy s = false) (hbytes : readCommand s c = some x) (hop : Cmd.op x = op) (hlo : 1 ≤ op) (hhi : op ≤ 7)
    (hopen : op = 5 → walksOpen s (Cmd.target x) = false) : WalksAll s (commandNeeds s c x op) (commandEvent op) ∧
      (checkCommand s c x = some k → WalkedAll s (commandNeeds s c x op) → Refuses s (commandEvent op) c rest k) := by
  obtain ⟨f, htakes⟩ := command_takes hnext hfree hbytes hop hlo hhi hopen
  exact ⟨htakes.walks, fun hk hwalked => htakes.refused hwalked hk⟩

/-- Settles O56: the checks of R339, each code's effect of R340, the locks, and the layout of a capability block. -/
theorem partitionCommands : Obligations.PartitionCommands := by
  unfold Obligations.PartitionCommands
  intro s c rest x op part win keyBytes v n p
  exact ⟨fun pa k hk hpa halign hframe _ hwf => writeReport_bytes hk hpa halign hframe hwf,
    checkCommand_order s c x,
    fun k hnext hfree hbytes hop hlo hhi hopen => command_clause hnext hfree hbytes hop hlo hhi hopen,
    settable_waits,
    command_idle,
    controllerBusy_iff,
    create_clause,
    destroy_clause,
    fun h q hq => setquota_clause h hq,
    fun m q z h => quotaDue_clause h,
    fun q z hz hdue => nextRound_begins hz hdue,
    mapvf_clause,
    fun h q hq => settable_clause h hq,
    fun h => ⟨reset_refused h, fun hsome h3 h4 hnone hb hl => reset_begins h hsome h3 h4 hnone ⟨hb, hl⟩⟩,
    fun h q hq => setisa_clause h hq,
    fun q hq => ⟨windowLock_locks hq, fun w word hlock hword => put_locked hlock hword⟩,
    hypkeyLock_locked,
    hypkeyLock_open,
    rootAndFabric_clause s v,
    fun m r h => capBlock_clause h,
    capBlock_layout⟩

end Sys2Proof.Machine
end
